-- ==== Sys2Proof/Word.lean ====
section
/-! DEFINITION. The word types of the package and their plainest operations (00_scope R4: bit 0 is the least significant,
multi-byte values are little-endian). -/

namespace Sys2Proof

/-- One byte of memory. -/
abbrev Byte := BitVec 8
/-- A register of the setup window (R412). -/
abbrev W32 := BitVec 32
/-- A 64-bit word; also the carrier of every element code, in its low bits. -/
abbrev W64 := BitVec 64
/-- The arithmetic flag word of Table 0.4 (R12). -/
abbrev Flags := BitVec 16

/-- Data by number, keys strictly rising; an unlisted key reads as the reader's default. -/
abbrev SMap (α : Type) := List (Nat × α)

/-- Byte memory in canonical form: addresses strictly rising, no listed byte is 0. -/
abbrev Mem := List (Nat × BitVec 8)

end Sys2Proof
end

