-- ==== Sys2Proof/Syntax.lean ====
section
/-! DEFINITION. The commands of the block: one constructor per row of spec/opcode_table.json, with the row's operands. -/

namespace Sys2Proof

/-- A host or fabric access: a load of n bytes, a store, a fetch-add, a compare-and-swap (Table 12.2, R392). -/
inductive Access where
  | load (n : Nat)
  | store (data : List Byte)
  | fetchAdd (v : W64)
  | cas (cmp new : W64)
  deriving DecidableEq, Repr

/-- The lanes an ECL port trains at (R390). -/
inductive Lanes where
  | l16 | l8 | l4 | down
  deriving DecidableEq, Repr

/-- What the training of a port found (R332): lanes held, peer place and port heard, light on the transmit positions only,
flight time and asymmetry in 1/16 tick, and the peer's protocol level. -/
structure Training where
  held : Bool
  place : Nat
  port : Nat
  crossed : Bool
  flight : Nat
  asym : Int
  level : Nat
  deriving DecidableEq, Repr

/-! Operands of core instructions (09_cores R213 to R225). Registers are named by number; OP values that the tables do not name
are `undef`. -/

/-- Class 0x0. -/
inductive IntOp where
  | add | sub | and | shl | sar | cmplt | min | undef
  deriving DecidableEq, Repr

/-- Class 0x1. -/
inductive IntImmOp where
  | addk | andk | highk | undef
  deriving DecidableEq, Repr

/-- Access widths of scalar loads and stores. -/
inductive MemWidth where
  | w8 | w16 | w32 | w64
  deriving DecidableEq, Repr

/-- Class 0x4: conditional branches, the call, the register jump. -/
inductive BranchOp where
  | eq (rs1 rs2 : Fin 32) (off : Int)
  | ne (rs1 rs2 : Fin 32) (off : Int)
  | lt (rs1 rs2 : Fin 32) (off : Int)
  | geu (rs1 rs2 : Fin 32) (off : Int)
  | call (off : Int)
  | jmpr (rd rs1 : Fin 32) (imm : Int)
  | undef
  deriving DecidableEq, Repr

/-- Class 0x5. -/
inductive MulOp where
  | mul | mulh | div | rem | undef
  deriving DecidableEq, Repr

/-- The comparisons of R135. -/
inductive CmpOp where
  | eq | ne | lt | le | gt | ge | unord
  deriving DecidableEq, Repr

/-- Class 0x6; `wide` of the instruction selects binary64. `cvt` names its source by the codes of Table 3.1 (R58, R62). -/
inductive FloatOp where
  | add | mul | fma | div | sqrt | min
  | cvt (src : Fin 256)
  | cmp (rel : CmpOp)
  | undef
  deriving DecidableEq, Repr

/-- Control and status registers (Table 9.6). -/
inductive Csr where
  | fflags | vcfg | mode
  | watchAddr (i : Fin 16)
  | watchThr (i : Fin 16)
  deriving DecidableEq, Repr

/-- Element kinds of vector arithmetic (R223). -/
inductive VKind where
  | flt | sint | uint
  deriving DecidableEq, Repr

/-- Class 0xC arithmetic; `fma` carries the signs of product and addend. -/
inductive VOp where
  | add | sub | mul | min | max | abs | neg | and | or | xor | shl | shr | sar
  | fma (negProd negAdd : Bool)
  | undef
  deriving DecidableEq, Repr

/-- The second operand: a vector register, or an integer register broadcast. -/
inductive VSrc where
  | v (r : Fin 32)
  | x (r : Fin 32)
  deriving DecidableEq, Repr

/-- Vector loads and stores: unit stride, or a byte stride held in a register. -/
inductive VMemOp where
  | ld (rs1 : Fin 32)
  | st (rs1 : Fin 32)
  | lds (rs1 rs2 : Fin 32)
  | sts (rs1 rs2 : Fin 32)
  | undef
  deriving DecidableEq, Repr

/-- Predicate loads and stores, with format V's M. -/
inductive QMemOp where
  | ld (m : Bool)
  | st (m : Bool)
  deriving DecidableEq, Repr

/-- Predicate-register operations. -/
inductive PredOp where
  | qand (m : Bool) (vd a b : Fin 32)
  | qor (m : Bool) (vd a b : Fin 32)
  | qnot (m : Bool) (vd a : Fin 32)
  | qpop (rd : Fin 32)
  | undef
  deriving DecidableEq, Repr

/-- Permutations. -/
inductive PermOp where
  | bcast (rs1 : Fin 32)
  | slup (vs1 rs2 : Fin 32)
  | sldn (vs1 rs2 : Fin 32)
  | cmpr (vs1 : Fin 32)
  | expd (vs1 : Fin 32)
  | undef
  deriving DecidableEq, Repr

/-- Tree reductions. -/
inductive RedOp where
  | sum | max | min
  deriving DecidableEq, Repr


/-- The supernode panel that a host-built record names (Table 7.7): supernode, first global column, order of the diagonal
block, rows below it, columns right of it, its multiply-add count, and where it lies: source address and offset in the slot. -/
structure PanelRec where
  snode : Nat
  first : Nat
  n : Nat
  rows : Nat
  cols : Nat
  f : Nat
  src : Nat
  dst : Nat
  deriving DecidableEq, Repr

/-- A drained Schur block of an ASSEMBLE list: source and target address, rows, columns, leading dimensions. -/
structure SchurBlk where
  src : Nat
  dst : Nat
  rows : Nat
  cols : Nat
  lds : Nat
  ldd : Nat
  deriving DecidableEq, Repr

/-- A CSR matrix record (R175): rows, entries, addresses of row offsets, column indices and values, n of the values. -/
structure CsrRec where
  rows : Nat
  nnz : Nat
  off : Nat
  idx : Nat
  val : Nat
  n : Nat
  deriving DecidableEq, Repr

/-- One column of a factor: slot offsets of its diagonal, of its entries below and of its entries above, with their rows. -/
structure FacCol where
  diag : Nat
  low : List (Nat × Nat)
  up : List (Nat × Nat)
  deriving DecidableEq, Repr

/-- A run of boundary entries to send: context, first element, elements, fabric address. -/
structure ExchSend where
  ctx : Nat
  first : Nat
  count : Nat
  daddr : Nat
  deriving DecidableEq, Repr

/-- The triangle of an HSOLVE record: address, leading dimension, address of the right-hand side. -/
structure HessRec where
  tri : Nat
  ld : Nat
  rhs : Nat
  deriving DecidableEq, Repr

/-- What the reads of a job's commit copies and of the headers, with their extent tables, of its two slots returned; empty where
a read failed. -/
structure SlotReads where
  commit0 : List Byte
  commit1 : List Byte
  hdrA : List Byte
  hdrB : List Byte
  deriving DecidableEq, Repr

/-- A configuration record (R443). `intact` is what its two signatures, grade and serial show (R464); `locks` marks the lock
bits of Table 17.4, in its order; `cabling` is the place and port expected at each port; `spares` is the spare map, `trend` the trend parameters by class (R451), `repairs` the repair map: spare rows and lanes in use. -/
structure CfgRec where
  intact : Bool
  seq : Nat
  grade : Fin 2
  serial : Nat
  place : Nat
  ilv : Nat
  radef : Nat
  twarn : Nat
  limit : Option Nat
  idle : Option Nat
  locks : Nat
  tuperm : Nat
  role : Nat
  pport : Nat
  dbg : Nat
  rslots : List Nat
  cabling : SMap (Nat × Nat)
  asym : SMap Nat
  spares : SMap W32
  trend : List (Nat × Nat × Nat × Nat)
  digest : List Byte
  repairs : SMap Nat := []
  deriving DecidableEq, Repr

/-- A firmware image of the package store (R444): header, the outcome of each check of R445 that needs its body or its
signatures, the SHA-384 of header and body, and its protocol level (R467). -/
structure Image where
  header : List Byte
  bodyOk : Bool
  keysOk : Bool
  rsaOk : Bool
  slhOk : Bool
  digest : List Byte
  proto : Nat
  deriving DecidableEq, Repr

/-- What manufacture puts in the package store and the security element (R443, R448). -/
structure Factory where
  imgA : Option Image
  imgB : Option Image
  copies : List CfgRec
  rollback : Nat
  training : Bool
  idhash : List Byte
  deriving DecidableEq, Repr

/-- The commands: one constructor per row of the operation table. -/
inductive Instr where
  /-- `MX_LOADW` (R74): Loads a weight tile and its group scales into the shadow weight buffer. -/
  | mxLoadw (t : Fin 128)
  /-- `MX_PASS` (R76): Streams activation rows through the array, runs the adder tree and adds the results into comb rows. -/
  | mxPass (t : Fin 128)
  /-- `MX_PRELOAD` (R85): Sets the sums of comb rows from a bias or residual and clears their compensations. -/
  | mxPreload (t : Fin 128)
  /-- `MX_DRAIN` (R86): Converts comb cells into the target format and stores them, with optional taps. -/
  | mxDrain (t : Fin 128)
  /-- `MX_ZERO` (R89): Clears comb rows with their TOUCHED bits and pass counters. -/
  | mxZero (t : Fin 128)
  /-- `SC_RUN` (R126): Runs the stage chain described by a configuration block over a stream of elements. -/
  | scRun (t : Fin 128)
  /-- `DM_COPY` (R39): Copies one tensor to another of the same format and element count. -/
  | dmCopy (t : Fin 128)
  /-- `DM_GATHER` (R39): Gathers elements by an int32 index list. -/
  | dmGather (t : Fin 128)
  /-- `DM_SCATTER` (R39): Scatters elements by an int32 index list; the highest index wins. -/
  | dmScatter (t : Fin 128)
  /-- `DM_FILL` (R39): Fills a tensor with a 64-bit pattern. -/
  | dmFill (t : Fin 128)
  /-- `DM_COMBINE` (R96): Joins a cross-tile sum of partial comb tiles. -/
  | dmCombine (t : Fin 128)
  /-- `COMBINE_START` (R97): Starts the tree combine of comb partials once the last participant has issued. -/
  | combineStart (t : Fin 128)
  /-- `DM_PUT` (R290): Stores a local tensor to a remote destination over the Sett fabric. -/
  | dmPut (t : Fin 128)
  /-- `DM_GET` (R290): Loads a remote tensor into a local destination. -/
  | dmGet (t : Fin 128)
  /-- `DM_FADD` (R290): Performs a remote float add of a tensor into a remote destination. -/
  | dmFadd (t : Fin 128)
  /-- `SY_WAIT` (R38): No operation, used to consume a token. -/
  | syWait (t : Fin 128)
  /-- `SY_SIGNAL` (R38): No operation, used to produce a token. -/
  | sySignal (t : Fin 128)
  /-- `SY_UNTIL` (R38): Held instruction that retires at a given launch tick. -/
  | syUntil (t : Fin 128)
  /-- `SY_ACQUIRE` (R308): Waits for a sync object's COUNT to reach THRESH. -/
  | syAcquire (t : Fin 128)
  /-- `SYNC_ACQUIRE_DONE` (R308): A waiting acquire finds COUNT at or above THRESH and advances THRESH by STEP. -/
  | syncAcquireDone (t : Fin 128) (n : Nat)
  /-- `SY_RELEASE` (R307): Fences, increments a sync object and optionally notifies a remote object. -/
  | syRelease (t : Fin 128)
  /-- `SY_FENCE` (R306): Snapshots the issued counts and waits for every earlier fabric store to be acknowledged. -/
  | syFence (t : Fin 128)
  /-- `SY_CLKON` (R39): Starts the clocks of the units named in its mask. -/
  | syClkon (t : Fin 128)
  /-- `SY_END` (R38): Ends the tile's part of the launch once every earlier instruction has retired. -/
  | syEnd (t : Fin 128)
  /-- `SV_BATCH` (R153): Dispatches a batched dense job to a solver engine. -/
  | svBatch (t : Fin 128)
  /-- `SV_SPARSE` (R153): Dispatches a compiled sparse job to a solver engine. -/
  | svSparse (t : Fin 128)
  /-- `UP_INIT` (R181): Dispatches an update-engine INIT job. -/
  | upInit (t : Fin 128)
  /-- `UP_PASS1` (R181): Dispatches an update-engine global-norm job. -/
  | upPass1 (t : Fin 128)
  /-- `UP_PASS2` (R181): Dispatches an update-engine step-or-skip job. -/
  | upPass2 (t : Fin 128)
  /-- `UP_ROOT` (R181): Dispatches an update-engine root-install job. -/
  | upRoot (t : Fin 128)
  /-- `CL_ALLREDUCE` (R351): Swarm reduction in which every member receives the result. -/
  | clAllreduce (t : Fin 128)
  /-- `CL_REDUCE` (R351): Swarm reduction in which member 0 receives the result. -/
  | clReduce (t : Fin 128)
  /-- `CL_BCAST` (R351): Swarm broadcast from member 0. -/
  | clBcast (t : Fin 128)
  /-- `CL_WREDUCE` (R359): Waggle reduction of at most 64 bytes, with the result at every member. -/
  | clWreduce (t : Fin 128)
  /-- `CL_WBCAST` (R359): Waggle broadcast of at most 64 bytes from member 0. -/
  | clWbcast (t : Fin 128)
  /-- `UNDEFINED_OPCODE` (R27): A reserved or undefined opcode, or an opcode in the wrong queue, at a queue head stops the tile. -/
  | undefinedOpcode (t : Fin 128) (q : Fin 4)
  /-- `INSTRUCTION_RETIRE` (R22): A fixed-latency tile instruction retires, makes its writes and signals its token. -/
  | instructionRetire (t : Fin 128) (n : Nat)
  /-- `HELD_RELEASE` (R35): A held instruction reaches its release tick and retires, signalling its token. -/
  | heldRelease (t : Fin 128) (n : Nat)
  /-- `I_INTEGER_REG` (R214): Forager integer register operation. -/
  | iIntegerReg (k : Fin 216) (op : IntOp) (rd rs1 rs2 : Fin 32)
  /-- `I_INTEGER_IMM` (R214): Forager integer immediate operation. -/
  | iIntegerImm (k : Fin 216) (op : IntImmOp) (rd rs1 : Fin 32) (imm : Int)
  /-- `L_LOAD` (R217): Forager cached or direct load. -/
  | lLoad (k : Fin 216) (direct : Bool) (w : MemWidth) (rd rs1 : Fin 32) (imm : Int)
  /-- `S_STORE` (R217): Forager store. -/
  | sStore (k : Fin 216) (w : MemWidth) (rs2 rs1 : Fin 32) (imm : Int)
  /-- `B_BRANCH` (R214): Forager branch or jump. -/
  | bBranch (k : Fin 216) (op : BranchOp)
  /-- `M_MULDIV` (R214): Forager multiply or divide. -/
  | mMuldiv (k : Fin 216) (op : MulOp) (w32 : Bool) (rd rs1 rs2 : Fin 32)
  /-- `F_SCALAR` (R214): Forager scalar floating-point operation. -/
  | fScalar (k : Fin 216) (op : FloatOp) (wide : Bool) (ra : Fin 8) (rd rs1 rs2 : Fin 32)
  /-- `SYS_RDGSC` (R228): Reads the GSC count into a register. -/
  | sysRdgsc (k : Fin 216) (rd : Fin 32)
  /-- `SYS_RDCYC` (R228): Reads cycles since reset into a register. -/
  | sysRdcyc (k : Fin 216) (rd : Fin 32)
  /-- `SYS_CSRR` (R214): Reads a forager control register. -/
  | sysCsrr (k : Fin 216) (rd : Fin 32) (r : Csr)
  /-- `SYS_CSRW` (R226): Writes a forager control register such as FFLAGS or WATCH. -/
  | sysCsrw (k : Fin 216) (r : Csr) (rs1 : Fin 32)
  /-- `SYS_FENCE` (R214): Forager fence. -/
  | sysFence (k : Fin 216)
  /-- `SYS_DCINV` (R216): Invalidates one data-cache line. -/
  | sysDcinv (k : Fin 216) (rs1 : Fin 32)
  /-- `SYS_DCINVA` (R216): Invalidates the whole data cache. -/
  | sysDcinva (k : Fin 216)
  /-- `SYS_WAITANY` (R228): Waits until any watched word reaches its threshold. -/
  | sysWaitany (k : Fin 216) (rd rs1 : Fin 32)
  /-- `WAITANY_WAKE` (R228): A watched word reaches its threshold and the wait completes with the lowest such index. -/
  | waitanyWake (k : Fin 216)
  /-- `SYS_VWAKE` (R227): Starts the wake of the vector datapath. -/
  | sysVwake (k : Fin 216)
  /-- `SYS_VSLEEP` (R227): Puts the vector datapath to sleep after the instructions in flight. -/
  | sysVsleep (k : Fin 216)
  /-- `VWAKE_DONE` (R227): 160 cycles after a wake starts, the vector unit accepts instructions. -/
  | vwakeDone (k : Fin 216)
  /-- `T_QPUSH` (R219): Appends a tile instruction to a sequencer queue. -/
  | tQpush (k : Fin 216) (q : Fin 4) (rs1 rs2 : Fin 32)
  /-- `T_DSCW` (R219): Writes a descriptor slot. -/
  | tDscw (k : Fin 216) (slot : Fin 64) (vs1 : Fin 32)
  /-- `T_DSCR` (R219): Reads a descriptor slot. -/
  | tDscr (k : Fin 216) (vd : Fin 32) (slot : Fin 64)
  /-- `T_TSIG` (R219): Increments a token. -/
  | tTsig (k : Fin 216) (token : Fin 64)
  /-- `T_TWAIT` (R219): Waits for a token and decrements it. -/
  | tTwait (k : Fin 216) (token : Fin 64)
  /-- `T_TREAD` (R219): Reads a token's count. -/
  | tTread (k : Fin 216) (rd : Fin 32) (token : Fin 64)
  /-- `A_ADD64` (R218): Indivisible add on an own-slice word. -/
  | aAdd64 (k : Fin 216) (rd rs1 rs2 : Fin 32)
  /-- `A_CAS64` (R218): Indivisible compare-and-swap on an own-slice word. -/
  | aCas64 (k : Fin 216) (rd rs1 rs2 : Fin 32)
  /-- `A_RIADD` (R218): Posts an int64 add to a fabric address. -/
  | aRiadd (k : Fin 216) (ctx : Fin 65536) (rs1 rs2 : Fin 32)
  /-- `A_RFADD` (R218): Posts a float add to a fabric address. -/
  | aRfadd (k : Fin 216) (ctx : Fin 65536) (wide : Bool) (rs1 rs2 : Fin 32)
  /-- `A_FADD64` (R218): Service-mode remote float add returning the old value. -/
  | aFadd64 (k : Fin 216) (ctx : Fin 65536) (rd rs1 rs2 : Fin 32)
  /-- `A_RCAS64` (R218): Service-mode remote compare-and-swap. -/
  | aRcas64 (k : Fin 216) (ctx : Fin 65536) (rd rs1 rs2 : Fin 32)
  /-- `V_ARITH` (R223): Vector add, multiply, FMA, min, max and bitwise operations. -/
  | vArith (k : Fin 216) (op : VOp) (kind : VKind) (m : Bool) (ra : Fin 8) (vd vs1 : Fin 32) (src : VSrc)
  /-- `V_DIV_SQRT` (R223): Vector division or square root. -/
  | vDivSqrt (k : Fin 216) (sqrt m : Bool) (ra : Fin 8) (vd vs1 vs2 : Fin 32)
  /-- `V_CVT` (R223): Vector format conversion. -/
  | vCvt (k : Fin 216) (src dst : Fin 256) (m : Bool) (ra : Fin 8) (vd vs1 : Fin 32)
  /-- `V_LD_ST` (R223): Vector unit-stride or strided load or store. -/
  | vLdSt (k : Fin 216) (op : VMemOp) (m : Bool) (v : Fin 32)
  /-- `V_GATH` (R224): Vector gather by index. -/
  | vGath (k : Fin 216) (m : Bool) (vd rs1 vs2 : Fin 32)
  /-- `V_SCAT` (R224): Vector scatter by index. -/
  | vScat (k : Fin 216) (m : Bool) (vs1 rs1 vs2 : Fin 32)
  /-- `V_SCADD` (R224): Ordered vector scatter-add. -/
  | vScadd (k : Fin 216) (kind : VKind) (m : Bool) (ra : Fin 8) (vs1 rs1 vs2 : Fin 32)
  /-- `V_QLD_QST` (R223): Loads or stores a predicate register. -/
  | vQldQst (k : Fin 216) (op : QMemOp) (q rs1 : Fin 32)
  /-- `V_CMP` (R223): Vector comparison into a predicate register. -/
  | vCmp (k : Fin 216) (rel : CmpOp) (kind : VKind) (m : Bool) (vd vs1 : Fin 32) (src : VSrc)
  /-- `V_PREDICATE_LOGIC` (R223): V.QAND, V.QOR, V.QNOT or V.QPOP on predicate registers. -/
  | vPredicateLogic (k : Fin 216) (op : PredOp)
  /-- `V_PERMUTE` (R223): Vector broadcast, slide, compress or expand. -/
  | vPermute (k : Fin 216) (op : PermOp) (m : Bool) (vd : Fin 32)
  /-- `V_RSUM` (R225): Tree reduction of active elements. -/
  | vRsum (k : Fin 216) (op : RedOp) (kind : VKind) (m : Bool) (vd vs1 : Fin 32)
  /-- `V_RSUMO` (R223): Ordered sum in ascending element order. -/
  | vRsumo (k : Fin 216) (kind : VKind) (m : Bool) (ra : Fin 8) (vd vs1 : Fin 32)
  /-- `V_MVX` (R223): Moves a vector element to a scalar register. -/
  | vMvx (k : Fin 216) (toF : Bool) (rd vs1 rs2 : Fin 32)
  /-- `V_SHAPE` (R221): Sets SEW and the group size, and clears VL. -/
  | vShape (k : Fin 216) (imm : Fin 16)
  /-- `V_TRIP` (R221): Sets VL from a trip count. -/
  | vTrip (k : Fin 216) (rd rs1 : Fin 32)
  /-- `V_QSEL` (R221): Selects the predicate register used for masking. -/
  | vQsel (k : Fin 216) (imm : Fin 8)
  /-- `SV_DISPATCH_ARRIVE` (R154): An SV dispatch reaches its solver engine 128 cycles after issue. -/
  | svDispatchArrive (n : Nat)
  /-- `JOB_LU` (R164): A batched LU job starts at its start tick. -/
  | jobLu (n : Nat)
  /-- `JOB_CHOLESKY` (R164): A batched Cholesky job starts. -/
  | jobCholesky (n : Nat)
  /-- `JOB_LDLT` (R164): A batched LDLT job starts. -/
  | jobLdlt (n : Nat)
  /-- `JOB_QR` (R164): A batched Householder QR job starts. -/
  | jobQr (n : Nat)
  /-- `JOB_TRSV` (R164): A batched triangular-solve job starts. -/
  | jobTrsv (n : Nat)
  /-- `JOB_INVERSE` (R164): A batched inverse job starts. -/
  | jobInverse (n : Nat)
  /-- `JOB_JACOBI` (R166): A batched Jacobi eigen job starts. -/
  | jobJacobi (n : Nat)
  /-- `JOB_SPARSE` (R172): A compiled sparse job starts. -/
  | jobSparse (n : Nat)
  /-- `STEP_PANEL` (R173): Sparse step that factors a supernode panel. -/
  | stepPanel (n : Nat) (r : PanelRec)
  /-- `STEP_ASSEMBLE` (R173): Sparse step that adds Schur blocks into panels. -/
  | stepAssemble (n : Nat) (l : List SchurBlk)
  /-- `STEP_COMMIT` (R176): Sparse step that advances the factor generation. -/
  | stepCommit (n : Nat)
  /-- `STEP_SPMV` (R173): Sparse matrix-vector product step. -/
  | stepSpmv (n : Nat) (r : CsrRec)
  /-- `STEP_FSOLVE` (R173): Forward and back substitution step with the current factor. -/
  | stepFsolve (n : Nat) (l : List FacCol)
  /-- `STEP_AXPY` (R173): AXPY vector step. -/
  | stepAxpy (n : Nat)
  /-- `STEP_XPAY` (R173): XPAY vector step. -/
  | stepXpay (n : Nat)
  /-- `STEP_DOT` (R175): Dot-product step, optionally summed over a waggle group. -/
  | stepDot (n : Nat)
  /-- `STEP_SCAL` (R173): Scalar-slot arithmetic step. -/
  | stepScal (n : Nat)
  /-- `STEP_EXCH` (R173): Boundary-entry exchange step. -/
  | stepExch (n : Nat) (l : List ExchSend)
  /-- `STEP_COPY` (R173): Vector copy or fill step. -/
  | stepCopy (n : Nat)
  /-- `STEP_GIVENS` (R173): GMRES Givens rotation step. -/
  | stepGivens (n : Nat) (l : List Nat)
  /-- `STEP_HSOLVE` (R173): GMRES Hessenberg solve and update step. -/
  | stepHsolve (n : Nat) (h : HessRec)
  /-- `STEP_LOOP` (R174): Opens a loop of timed iterations. -/
  | stepLoop (n : Nat)
  /-- `STEP_TEST` (R174): Ends the innermost loop when SA is at most SB. -/
  | stepTest (n : Nat)
  /-- `STEP_ENDLOOP` (R174): Closes the innermost loop. -/
  | stepEndloop (n : Nat)
  /-- `STEP_END` (R173): Ends the sparse job. -/
  | stepEnd (n : Nat)
  /-- `SLV_JOB_END` (R178): A solver job ends and writes its status record, making its writes visible. -/
  | slvJobEnd (n : Nat)
  /-- `UP_DISPATCH_ARRIVE` (R181): A UP dispatch reaches its update engine. -/
  | upDispatchArrive (n : Nat)
  /-- `UE_INIT_JOB` (R203): Initialises the recipe state, roots, rings and narrow copies. -/
  | ueInitJob (n : Nat)
  /-- `UE_PASS1_JOB` (R188): Forms the global gradient norm in a fixed order. -/
  | uePass1Job (n : Nat)
  /-- `UE_PASS2_JOB` (R189): Applies or skips one update step. -/
  | uePass2Job (n : Nat)
  /-- `UE_ROOT_JOB` (R200): Installs preconditioner roots. -/
  | ueRootJob (n : Nat)
  /-- `UE_JOB_END` (R183): A UE job ends and makes its writes visible. -/
  | ueJobEnd (n : Nat)
  /-- `SQ_DOORBELL` (R395): The host publishes a submission ring tail. -/
  | sqDoorbell (r : Fin 64) (v : W32)
  /-- `CQ_DOORBELL` (R400): The host frees completion slots by writing its head. -/
  | cqDoorbell (r : Fin 64) (v : W32)
  /-- `SQ_ENABLE` (R410): Enables a submission ring and resets its indices. -/
  | sqEnable (r : Fin 64) (v : W32)
  /-- `SQ_DISABLE` (R410): Stops fetching from a submission ring. -/
  | sqDisable (r : Fin 64)
  /-- `CQ_ENABLE` (R410): Enables a completion ring with phase 1. -/
  | cqEnable (r : Fin 64) (v : W32)
  /-- `CQ_DISABLE` (R410): Disables a completion ring unless slots are reserved. -/
  | cqDisable (r : Fin 64)
  /-- `DESCRIPTOR_FETCH` (R397): The ring engine fetches a descriptor once a completion slot and room in flight exist. -/
  | descriptorFetch (r : Fin 64) (bytes : List Byte)
  /-- `LOAD_PLAN` (R42): Checks and stores a plan, or frees its ID. -/
  | loadPlan (op : Nat) (data : List Byte)
  /-- `LAUNCH` (R273): Admits or refuses a launch and makes its ledger entry. -/
  | launch (op : Nat)
  /-- `ADMIT_ONLY` (R275): Answers as a launch would, without a ledger entry. -/
  | admitOnly (op : Nat)
  /-- `CHECKPOINT_ARM` (R367): Arms a den policy with recurring ledger windows. -/
  | checkpointArm (op : Nat) (rd : SlotReads)
  /-- `CHECKPOINT_DISARM` (R367): Frees every den window that has not begun. -/
  | checkpointDisarm (op : Nat)
  /-- `CHECKPOINT_CUT` (R368): Requests a cut at the least window far enough ahead. -/
  | checkpointCut (op : Nat)
  /-- `RESTORE` (R383): Admits a restore under the launch protocol and reads shard headers. -/
  | restore (op : Nat) (rrec : List Byte) (rd : SlotReads)
  /-- `SELF_TEST` (R406): Places a self-test provisionally in a ledger gap. -/
  | selfTest (op : Nat)
  /-- `REGION_HANDOFF` (R312): Starts moving the writing owner of a region. -/
  | regionHandoff (op : Nat)
  /-- `HANDOFF_COMPLETE` (R312): After the waits, writes the new owner and GEN and completes DONE. -/
  | handoffComplete (op : Nat)
  /-- `TABLE_UPDATE` (R405): Firmware writes table entries for the host. -/
  | tableUpdate (op : Nat) (data : List Byte)
  /-- `CANCEL` (R407): Cancels an in-flight descriptor by ring and tag. -/
  | cancel (op : Nat)
  /-- `DESCRIPTOR_UNKNOWN_KIND` (R402): A descriptor of an unlisted KIND or with non-zero reserved fields completes REFUSED_RESOURCE. -/
  | descriptorUnknownKind (op : Nat)
  /-- `HOST_LOCAL_ACCESS` (R392): A host load, store or atomic through the LOCAL aperture. -/
  | hostLocalAccess (p : Fin 2) (id addr : Nat) (a : Access)
  /-- `HOST_REMOTE_ACCESS` (R392): A host access through a REMOTE slot, sent as a fabric operation. -/
  | hostRemoteAccess (p : Fin 2) (id addr : Nat) (a : Access)
  /-- `ECL_PORT_LANE_LOSS` (R390): An ECL port retrains at fewer lanes or goes down. -/
  | eclPortLaneLoss (p : Fin 2) (lanes : Lanes)
  /-- `PREP_START` (R43): At L minus PREP the ring engine fills the inactive banks. -/
  | prepStart (l : Nat)
  /-- `LAUNCH_START` (R43): At tick L the banks switch, tokens clear, queues load and foragers start. -/
  | launchStart (l : Nat)
  /-- `LAUNCH_COMPLETE_TICK` (R401): At L plus the worst case the completion entry of a successful launch is written. -/
  | launchCompleteTick (l : Nat)
  /-- `LAUNCH_RECORD_RECEIVE` (R280): A member receives a launch record, admits it and responds by fetch-add. -/
  | launchRecordReceive (group llo src : Nat) (rd : SlotReads)
  /-- `COMMIT_DECISION` (R280): At tick C the root checks the responses and sends or withholds the commit. -/
  | commitDecision (l : Nat)
  /-- `COMMIT_RECEIVE` (R280): A member receives the commit for a launch. -/
  | commitReceive (group llo : Nat)
  /-- `COMMIT_DEADLINE` (R281): At L minus 125 a member without a commit discards its banks and completes FAILED_LAUNCH. -/
  | commitDeadline (l : Nat)
  /-- `ABANDONMENT_NOTICE` (R283): A member records the failure status carried by a received notice. -/
  | abandonmentNotice (l src : Nat)
  /-- `STORE` (R295): A STORE packet is applied, counted and acknowledged. -/
  | store (p : Fin 128) (pkt : List Byte) (poison : Bool)
  /-- `LOAD_REQ` (R296): A load request is served with a response. -/
  | loadReq (p : Fin 128) (pkt : List Byte) (poison : Bool)
  /-- `LOAD_RESP` (R296): A load response delivers data to the requester. -/
  | loadResp (p : Fin 128) (pkt : List Byte) (poison : Bool)
  /-- `FETCH_ADD` (R289): An int64 fetch-add is applied and the old value returned. -/
  | fetchAdd (p : Fin 128) (pkt : List Byte) (poison : Bool)
  /-- `CAS` (R289): A compare-and-swap is applied and the old value returned. -/
  | cas (p : Fin 128) (pkt : List Byte) (poison : Bool)
  /-- `FADD64` (R289): binary64 elements are added into the target. -/
  | fadd64 (p : Fin 128) (pkt : List Byte) (poison : Bool)
  /-- `FADD32` (R289): binary32 elements are added into the target. -/
  | fadd32 (p : Fin 128) (pkt : List Byte) (poison : Bool)
  /-- `ATOM_RESP` (R296): An atomic response returns the old value. -/
  | atomResp (p : Fin 128) (pkt : List Byte) (poison : Bool)
  /-- `POSTED_ADD` (R289): A fetch-add without a returned value is applied. -/
  | postedAdd (p : Fin 128) (pkt : List Byte) (poison : Bool)
  /-- `ACK` (R305): An acknowledgement is counted once toward fences and SSO. -/
  | ack (p : Fin 128) (pkt : List Byte) (poison : Bool)
  /-- `NAK` (R296): A negative acknowledgement triggers a resend or a failure. -/
  | nak (p : Fin 128) (pkt : List Byte) (poison : Bool)
  /-- `PACKET_RESERVED_TYPE` (R291): A packet of reserved TYPE is dropped. -/
  | packetReservedType (p : Fin 128) (pkt : List Byte) (poison : Bool)
  /-- `OUTSIDE_COMB_READ` (R95): A den or comb-window read samples comb rows without changing them. -/
  | outsideCombRead (t : Fin 128) (off len : Nat)
  /-- `PACKET_FORWARD` (R318): A router forwards an unscheduled packet by its route tables. -/
  | packetForward (p : Fin 128) (hops : Nat) (pkt : List Byte) (poison sched : Bool)
  /-- `SCHEDULED_SLOT` (R302): A scheduled slot begins and its packets are sent. -/
  | scheduledSlot (l frame : Nat) (slot : Fin 256) (p : Fin 128)
  /-- `TRANSIT_SLOT` (R322): A transit slot begins and the arrived scheduled packet leaves. -/
  | transitSlot (l frame : Nat) (slot : Fin 256) (p : Fin 128)
  /-- `RETRY_TIMEOUT` (R297): An unanswered scheduled packet reaches its timeout and is resent, or fails after RLIM. -/
  | retryTimeout (ctx seq : Nat)
  /-- `RETRY_SLOT` (R297): A retry slot begins and the due resends are sent in order. -/
  | retrySlot (p : Fin 128)
  /-- `OPEN_TIMEOUT` (R303): An open packet times out and is resent, or fails after 8 resends. -/
  | openTimeout (ctx seq : Nat)
  /-- `OPEN_CREDIT_SEND` (R303): An open packet advances once the next hop returns credit. -/
  | openCreditSend (p : Fin 128) (flits : Nat)
  /-- `GAP_TIMER` (R295): RXBASE stalled for 8,192 ticks logs a GAP event. -/
  | gapTimer (ctx : Nat)
  /-- `ROUTE_DRAIN_START` (R324): At S minus 8,192 drained ports stop starting open packets. -/
  | routeDrainStart (ports : List (Fin 128))
  /-- `ROUTE_SWITCH` (R324): At count S the inactive route bank becomes active. -/
  | routeSwitch
  /-- `PORT_FAILED` (R326): A port fails in service and its slots are lost. -/
  | portFailed (p : Fin 128)
  /-- `PORT_TRAIN` (R332): A port starts training. -/
  | portTrain (p : Fin 128)
  /-- `PORT_TRAIN_DONE` (R332): Training ends with UP, MISWIRED or a polarity exchange. -/
  | portTrainDone (p : Fin 128) (r : Training)
  /-- `LANE_SWAP` (R333): A LANE_SWAP packet names the frame for a spare-lane replacement. -/
  | laneSwap (p : Fin 128) (frame : Nat) (lane spare : Fin 136)
  /-- `LANE_SWITCH` (R333): At the named frame boundaries the spare lane takes over. -/
  | laneSwitch (p : Fin 128)
  /-- `LINK_STATE` (R330): A LINK_STATE packet reports port state and training results. -/
  | linkState (p : Fin 128) (pkt : List Byte) (poison : Bool)
  /-- `MGMT` (R330): A routed management packet delivers a firmware payload. -/
  | mgmt (p : Fin 128) (pkt : List Byte) (poison : Bool)
  /-- `PORT_SPARE_REPLACE` (R334): Port 127 replaces a failed port at a frame boundary. -/
  | portSpareReplace (p : Fin 128)
  /-- `LASER_LOSS` (R335): A laser input below threshold moves its fibres to input 3. -/
  | laserLoss (d : Fin 4) (i : Fin 4)
  /-- `CONNECTOR_REMOVE` (R478): A removed connector takes its 32 ports to FAILED. -/
  | connectorRemove (d : Fin 4)
  /-- `CONNECTOR_INSERT` (R478): A reinserted connector retrains its ports. -/
  | connectorInsert (d : Fin 4)
  /-- `OWLCFG_WRITE` (R336): A write of FAB.OWLCFG resets the port's sampling counter. -/
  | owlcfgWrite (q : Fin 128) (v : W32)
  /-- `TIME_EXCHANGE` (R267): Every 64 frames a child sends a time probe. -/
  | timeExchange
  /-- `TIME_PROBE` (R267): A parent stamps a probe and replies. -/
  | timeProbe (q : Fin 128) (pkt : List Byte) (poison : Bool)
  /-- `TIME_REPLY` (R267): A child stamps the reply, estimates its offset and slews. -/
  | timeReply (q : Fin 128) (pkt : List Byte) (poison : Bool)
  /-- `EXCHANGE_TIMEOUT` (R269): No exchange for 8 intervals loses synchronisation. -/
  | exchangeTimeout
  /-- `TIME_FUNCTION_RESET` (R269): Firmware resets the TIM block alone. -/
  | timeFunctionReset
  /-- `TIME_IN_EDGE` (R271): A TIME_IN rising edge latches the count. -/
  | timeInEdge
  /-- `SWARM_START` (R357): At L plus S a member starts its part of a swarm operation. -/
  | swarmStart (job : Bool) (n : Nat)
  /-- `SW_DATA` (R356): A 4 KiB chunk fragment arrives. -/
  | swData (q : Fin 128) (pkt : List Byte) (poison : Bool)
  /-- `SW_TAIL` (R353): A chunk's tail arrives and its CRC-64 is checked. -/
  | swTail (q : Fin 128) (pkt : List Byte) (poison : Bool)
  /-- `CHUNK_PRODUCE` (R349): Once the children's chunks are in, the member combines and sends its partial. -/
  | chunkProduce (n k : Nat)
  /-- `SW_PULL` (R353): A producer resends a chunk from staging. -/
  | swPull (q : Fin 128) (pkt : List Byte) (poison : Bool)
  /-- `WG_DATA` (R360): A waggle value arrives and is folded or relayed. -/
  | wgData (q : Fin 128) (pkt : List Byte) (poison : Bool)
  /-- `WG_PULL` (R363): A node asked for a waggle value resends or pulls in turn. -/
  | wgPull (q : Fin 128) (pkt : List Byte) (poison : Bool)
  /-- `WAGGLE_TIMEOUT` (R363): A missing waggle value at L plus OFF plus WWC triggers a pull or failure. -/
  | waggleTimeout (kind : Fin 3) (n : Nat)
  /-- `DEN_NOTICE_CUT` (R368): A CUT notice names a cut count. -/
  | denNoticeCut (cn src : Nat)
  /-- `DEN_NOTICE_ABANDON` (R373): An ABANDON notice ends the cut on the receiver. -/
  | denNoticeAbandon (cn src : Nat)
  /-- `WINDOW_RELEASE` (R369): A den window with no CUT notice is released. -/
  | windowRelease (n : Nat)
  /-- `CUT_START` (R370): At C_n a member writes its shard, or the quick copy under MODE 1. -/
  | cutStart (cn : Nat)
  /-- `SHADOW_DRAIN` (R374): After the window the shadow region is drained into the shard. -/
  | shadowDrain (cn : Nat)
  /-- `CUT_BARRIER` (R372): At C plus BAROFF the member contributes to the barrier MIN. -/
  | cutBarrier (cn : Nat)
  /-- `BARRIER_RESULT` (R372): The barrier result commits both copies or abandons the cut. -/
  | barrierResult (cn : Nat)
  /-- `COMMIT_ACKED` (R372): Both commit copies acknowledged: NEXTSLOT inverts and CUT_DONE is reported. -/
  | commitAcked (cn : Nat)
  /-- `CUT_WINDOW_END` (R373): At window end an unfinished MODE 0 commit or quick copy is abandoned. -/
  | cutWindowEnd (cn : Nat)
  /-- `RESTORE_LOAD` (R386): From L each member loads its payload and clears comb memory. -/
  | restoreLoad (l : Nat) (payload : List (List Byte))
  /-- `RESTORE_DONE` (R386): A restore completes DONE and the scale epoch advances. -/
  | restoreDone (l : Nat)
  /-- `HEALTH_WINDOW_END` (R451): At each 60 s window end the health logic forms counts and judges each resource. -/
  | healthWindowEnd (errs : List (Nat × Nat × Nat)) (low : List (Fin 4 × Fin 4))
  /-- `TILE_SWAP` (R457): A spare tile takes over a logical tile. -/
  | tileSwap (id : Nat) (fails : Bool)
  /-- `SLV_SWAP` (R457): A spare SLV takes over a logical SLV. -/
  | slvSwap (id : Nat) (fails : Bool)
  /-- `UE_SWAP` (R457): A spare UE takes over a logical UE. -/
  | ueSwap (id : Nat) (fails : Bool)
  /-- `SCRATCHPAD_ROW_REPAIR` (R234): A spare scratchpad row replaces a row in service. -/
  | scratchpadRowRepair (id : Nat)
  /-- `HBM_ROW_REPAIR` (R253): A DRAM row is copied into a spare and remapped. -/
  | hbmRowRepair (id : Nat)
  /-- `HBM_LANE_REPLACEMENT` (R253): A failing through-silicon lane is replaced. -/
  | hbmLaneReplacement (k ch : Fin 32)
  /-- `LASER_SWITCHOVER` (R335): A scheduled switchover moves fibres to the spare laser input. -/
  | laserSwitchover (id : Nat)
  /-- `KEEPER_SWAP` (R459): A keeper's duties move to the spare keeper of its die. -/
  | keeperSwap (k : Fin 8)
  /-- `LIVE_TEST_PATTERN_END` (R461): A tested tile finishes its pattern test. -/
  | liveTestPatternEnd (id : Nat) (fails : Bool) (result : Nat)
  /-- `SELF_TEST_START` (R278): A placed self-test or calibration starts. -/
  | selfTestStart (id : Nat)
  /-- `SELF_TEST_END` (R406): A self-test completes DONE or FAILED_HARDWARE. -/
  | selfTestEnd (id : Nat) (fails : Bool) (result : Nat)
  /-- `CONFIG_RECORD_WRITE` (R465): Firmware writes a new configuration record, copy by copy. -/
  | configRecordWrite (k : Fin 3) (change : Option CfgRec)
  /-- `REGULATOR_TICK` (R243): Each tick the stack regulator refills buckets and passes requests. -/
  | regulatorTick (k : Fin 32) (errs : List (Nat × Nat))
  /-- `PATROL_SCRUB` (R249): A stack line is read and corrected at each scrub interval. -/
  | patrolScrub (k : Fin 32)
  /-- `STATIC_SCRUB` (R250): A static line is scrubbed in an idle bank cycle. -/
  | staticScrub (line nerr : Nat)
  /-- `WC_EVICT` (R246): A write-combining entry is evicted after 64 ticks. -/
  | wcEvict (line : Nat)
  /-- `CE_REWRITE` (R251): A corrected HBM line is rewritten within 1,024 ticks. -/
  | ceRewrite (line : Nat)
  /-- `STACK_LOSS` (R254): A lost stack retires the package. -/
  | stackLoss (k : Fin 32)
  /-- `DEEP_IDLE_ENTRY` (R256): After DELAY with no work, stacks enter self-refresh. -/
  | deepIdleEntry
  /-- `DEEP_IDLE_EXIT` (R426): A ledger entry or access ends deep idle. -/
  | deepIdleExit
  /-- `V12_VALID` (R430): The 12 V input becomes valid. -/
  | v12Valid (made : Factory)
  /-- `V48_VALID` (R430): The 48 V input becomes valid. -/
  | v48Valid (mV : Nat)
  /-- `POWER_LOSS` (R431): An input falls out of range for 1 ms and all work is lost. -/
  | powerLoss (v12 : Bool)
  /-- `BOOT_VERIFY` (R445): The boot ROM verifies the configuration and firmware images. -/
  | bootVerify
  /-- `HBM_READY` (R432): Training and zeroing complete and MEM.STATUS.READY is set. -/
  | hbmReady
  /-- `FABRIC_READY` (R432): Port training completes and FAB.STATUS.READY is set. -/
  | fabricReady (lasers : List (Fin 4 × Fin 4))
  /-- `PACKAGE_READY` (R432): Boot count and locks are set and GLB.STATUS.READY is set. -/
  | packageReady
  /-- `RESET_N_ASSERT` (R435): RESET_N held low starts a reset of kind 1. -/
  | resetNAssert
  /-- `RESET_N_RELEASE` (R435): RESET_N rising lets the boot ROM run. -/
  | resetNRelease
  /-- `GLB_RESET` (R423): A keyed write to GLB.RESET resets the package. -/
  | glbReset (w : Fin 4) (v : W32)
  /-- `WATCHDOG_EXPIRY` (R437): A keeper watchdog expires. -/
  | watchdogExpiry (k : Fin 8)
  /-- `THERMAL_TRIP` (R438): A die reaches its trip threshold and clocks stop. -/
  | thermalTrip (die : Fin 48) (temp : Fin 32768)
  /-- `THERMAL_TRIP_EXIT` (R438): A RESET_N pulse while all dies are cool ends the trip. -/
  | thermalTripExit (temp : Nat)
  /-- `REFCLK_LOSS` (R442): REFCLK absent for 1 µs unlocks every PLL. -/
  | refclkLoss
  /-- `REFCLK_RETURN` (R442): REFCLK returns and the PLLs relock. -/
  | refclkReturn
  /-- `PLL_LOCK_FAIL` (R441): A PLL not locked within 750 ticks sets PLLERR. -/
  | pllLockFail (t : Fin 128) (n : Nat) (d : Fin 5)
  /-- `OVERLIMIT` (R424): The 1 s average power exceeds the limit. -/
  | overlimit (watts : Nat)
  /-- `HOT` (R424): The hottest die exceeds the warning temperature. -/
  | hot (temp : Nat) (die : Fin 48)
  /-- `SENSOR_OPEN` (R473): A temperature sensor reads open. -/
  | sensorOpen (die : Fin 48)
  /-- `REGISTER_WRITE` (R416): A write to a register with no row of its own. -/
  | registerWrite (w : Fin 4) (o : Nat) (v : W32)
  /-- `LO_READ_LATCH` (R419): A read of a latching LO register latches its HI half. -/
  | loReadLatch (w : Fin 4) (o : Nat)
  /-- `MGMT_STATUS` (R480): Management bus STATUS command. -/
  | mgmtStatus
  /-- `MGMT_IDENT` (R480): Management bus IDENT command. -/
  | mgmtIdent
  /-- `MGMT_POWER` (R480): Management bus POWER command. -/
  | mgmtPower
  /-- `ATTEST_REQ` (R449): An attestation request with a nonce starts a report. -/
  | attestReq (asker : Option Nat) (nonce : List Byte) (pec : Bool)
  /-- `ATTEST_REPORT_READY` (R449): The signed attestation report is ready. -/
  | attestReportReady (rsa slh : List Byte)
  /-- `ATTEST_READ` (R480): Reads 32 bytes of the attestation report. -/
  | attestRead (off : W32) (pec : Bool)
  /-- `IMAGE_WRITE` (R480): Writes image bytes for a firmware transfer. -/
  | imageWrite (asker : Option Nat) (off : W32) (data : List Byte) (pec : Bool)
  /-- `IMAGE_COMMIT` (R466): Verifies the transferred image and writes it to the other slot. -/
  | imageCommit (asker : Option Nat) (len : W32) (img : Image) (pec : Bool)
  /-- `IMAGE_STATE` (R480): Reads the state of the image transfer. -/
  | imageState
  /-- `IMAGE_TRANSFER_TIMEOUT` (R480): A transfer idle for 10 s is discarded. -/
  | imageTransferTimeout
  /-- `MON_STATUS` (R483): Monitor command S. -/
  | monStatus
  /-- `MON_VERSION` (R483): Monitor command V. -/
  | monVersion
  /-- `MON_REGISTER_READ` (R483): Monitor command R. -/
  | monRegisterRead (o : Option Nat)
  /-- `MON_REGISTER_WRITE` (R483): Monitor command W. -/
  | monRegisterWrite (a : Option (Nat × W32))
  /-- `MON_COUNTERS` (R483): Monitor command C. -/
  | monCounters (b : Option Nat)
  /-- `MON_SPARE_MAP` (R483): Monitor command M. -/
  | monSpareMap
  /-- `MON_EVENT_LOG` (R483): Monitor command L. -/
  | monEventLog (n : Option Nat)
  /-- `MON_SELF_TEST` (R484): Monitor command T places a self-test. -/
  | monSelfTest (a : Option (Nat × Nat))
  /-- `MON_BAUD_RATE` (R482): Monitor command B selects a new rate. -/
  | monBaudRate (rate : Option Nat)
  /-- `MON_BAUD_APPLY` (R482): The new monitor rate applies 10 ms after B. -/
  | monBaudApply
  /-- `MON_TOKEN_CHUNK` (R485): Monitor command K delivers a debug-token chunk. -/
  | monTokenChunk (a : Option (Nat × List Byte))
  /-- `MON_TOKEN_END` (R450): K END verifies the assembled debug token. -/
  | monTokenEnd (keysOk rsaOk slhOk : Bool)
  /-- `MON_UNKNOWN_COMMAND` (R487): An unknown monitor command receives ERR 01. -/
  | monUnknownCommand (bad : Bool)
  /-- `MON_BREAK` (R479): MON_RX low for 100 ms to 2 s returns the monitor to 115,200 baud. -/
  | monBreak
  /-- `MON_RX_STUCK` (R479): MON_RX low for over 2 s is ignored until released. -/
  | monRxStuck
  /-- `MON_TX_FAULT` (R479): MON_TX reading back wrongly is released for 1 s. -/
  | monTxFault
  /-- `SMB_LINE_FAULT` (R479): An SMBus line low for 35 ms resets the bus interface. -/
  | smbLineFault (high : Bool)
  /-- `OUTPUT_LINE_FAULT` (R479): ALERT_N or THERMTRIP_N reads high while driven low. -/
  | outputLineFault (trip high : Bool)
  /-- `TAP_BYPASS` (R481): Test-port BYPASS instruction. -/
  | tapBypass
  /-- `TAP_IDCODE` (R481): Test-port IDCODE instruction. -/
  | tapIdcode
  /-- `TAP_SAMPLE_PRELOAD` (R481): Test-port SAMPLE/PRELOAD instruction. -/
  | tapSamplePreload (ext cells : Fin 256)
  /-- `TAP_EXTEST` (R481): Test-port EXTEST instruction, effective only under RESET_N. -/
  | tapExtest (ext cells : Fin 256)
  /-- `TAP_CLAMP` (R481): Test-port CLAMP instruction. -/
  | tapClamp
  /-- `TAP_HIGHZ` (R481): Test-port HIGHZ instruction. -/
  | tapHighz
  /-- `TAP_SETUP_ACCESS` (R481): Instructions 0x80–0xFE give setup-window access when enabled. -/
  | tapSetupAccess (code : Fin 256) (o : Nat) (v : Option W32)
  /-- `TRST_N_ASSERT` (R475): TRST_N low holds the test port in reset. -/
  | trstNAssert
  /-- `HBM_ACCESS_COMPLETE` (R245): An HBM read, squirrel access or base-die atomic delivers its data or old value to the requester within its bound after the regulator passed it. -/
  | hbmAccessComplete (n : Nat)
  /-- `UNIT_FAILURE` (R157): A unit such as a solver engine, update engine, swarm engine or tile fails during an operation, which then ends with FAILED_HARDWARE. -/
  | unitFailure (kind : Fin 4) (unit : Nat)
  /-- `CALIBRATION_REQUEST` (R278): Firmware raises a calibration of its own, which the admission unit places in a ledger gap or defers. -/
  | calibrationRequest (code dur deadline tiles slvs ues : Nat) (ports : List (Fin 128))
  /-- `GSC_MANAGER_TAKEOVER` (R266): PD0's always-on manager fails and PD1's manager takes over the count without a step. -/
  | gscManagerTakeover
  /-- `ECL_PORT_TRAIN` (R390): An ECL port completes training, in start-up or on retraining, and HIF.STATUS shows its lanes. -/
  | eclPortTrain (q : Fin 2) (lanes : Lanes)
  /-- `HOT_END` (R424): The hottest die falls to the warning temperature or below, so HOT clears and ALERT_N may be released. -/
  | hotEnd (temp : Nat) (die : Fin 48)
  /-- `OVERLIMIT_END` (R424): The 1 s average input power falls to the limit or below, so OVERLIMIT clears. -/
  | overlimitEnd (watts : Nat)
  /-- `SENSOR_READS_AGAIN` (R473): An open temperature sensor reads again, and SENSOPEN clears. -/
  | sensorReadsAgain (die : Fin 48)
  /-- `MON_RX_RELEASE` (R479): After being ignored, MON_RX has been high for 100 ms, and the monitor receiver is used again with MONRXFLT cleared. -/
  | monRxRelease
  /-- `MON_TX_RETRY` (R479): 1 s after its release, the monitor transmitter is retried and MONTXFLT clears. -/
  | monTxRetry
  /-- `SMB_LINE_RELEASE` (R479): A management bus line that was held low returns high, and SMBFLT clears. -/
  | smbLineRelease
  /-- `TRST_N_RELEASE` (R475): TRST_N goes high and the test port leaves reset. -/
  | trstNRelease
  deriving DecidableEq, Repr

end Sys2Proof
end

