-- ==== Sys2Proof/WellFormed.lean ====
section
/-! DEFINITION. Which commands are well formed: the limits that the operands' types do not say. -/

namespace Sys2Proof

/-- A host or fabric access moves 1 to 4,096 bytes (Table 12.2, R392). -/
def Access.wf : Access → Bool
  | .load n => decide (1 ≤ n) && decide (n ≤ 4096)
  | .store d => decide (1 ≤ d.length) && decide (d.length ≤ 4096)
  | .fetchAdd _ => true
  | .cas _ _ => true

/-- An immediate of 12 bits (R213, Table 9.1). -/
def imm12 (i : Int) : Bool := decide (-2048 ≤ i) && decide (i < 2048)

/-- The immediate of format I has 12 bits, that of format U 17 (Tables 9.1, 9.2). -/
def immOk (op : IntImmOp) (i : Int) : Bool :=
  match op with
  | .highk => decide (0 ≤ i) && decide (i < 131072)
  | _ => imm12 i

/-- Branch offsets of 12 bits, the call's of 22, the immediate of `J.JMPR` of 12 (R213, Table 9.1). -/
def branchOk : BranchOp → Bool
  | .eq _ _ o => imm12 o
  | .ne _ _ o => imm12 o
  | .lt _ _ o => imm12 o
  | .geu _ _ o => imm12 o
  | .call o => decide (-2097152 ≤ o) && decide (o < 2097152)
  | .jmpr _ _ i => imm12 i
  | .undef => true

/-- Well-formed commands. -/
def Instr.wf : Instr → Bool
  | .mxLoadw _ => true
  | .mxPass _ => true
  | .mxPreload _ => true
  | .mxDrain _ => true
  | .mxZero _ => true
  | .scRun _ => true
  | .dmCopy _ => true
  | .dmGather _ => true
  | .dmScatter _ => true
  | .dmFill _ => true
  | .dmCombine _ => true
  | .combineStart _ => true
  | .dmPut _ => true
  | .dmGet _ => true
  | .dmFadd _ => true
  | .syWait _ => true
  | .sySignal _ => true
  | .syUntil _ => true
  | .syAcquire _ => true
  | .syncAcquireDone _ _ => true
  | .syRelease _ => true
  | .syFence _ => true
  | .syClkon _ => true
  | .syEnd _ => true
  | .svBatch _ => true
  | .svSparse _ => true
  | .upInit _ => true
  | .upPass1 _ => true
  | .upPass2 _ => true
  | .upRoot _ => true
  | .clAllreduce _ => true
  | .clReduce _ => true
  | .clBcast _ => true
  | .clWreduce _ => true
  | .clWbcast _ => true
  | .undefinedOpcode _ _ => true
  | .instructionRetire _ _ => true
  | .heldRelease _ _ => true
  | .iIntegerReg _ _ _ _ _ => true
  | .iIntegerImm _ op _ _ imm => immOk op imm
  | .lLoad _ _ _ _ _ imm => imm12 imm
  | .sStore _ _ _ _ imm => imm12 imm
  | .bBranch _ op => branchOk op
  | .mMuldiv _ _ _ _ _ _ => true
  | .fScalar _ _ _ _ _ _ _ => true
  | .sysRdgsc _ _ => true
  | .sysRdcyc _ _ => true
  | .sysCsrr _ _ _ => true
  | .sysCsrw _ _ _ => true
  | .sysFence _ => true
  | .sysDcinv _ _ => true
  | .sysDcinva _ => true
  | .sysWaitany _ _ _ => true
  | .waitanyWake _ => true
  | .sysVwake _ => true
  | .sysVsleep _ => true
  | .vwakeDone _ => true
  | .tQpush _ _ _ _ => true
  | .tDscw _ _ _ => true
  | .tDscr _ _ _ => true
  | .tTsig _ _ => true
  | .tTwait _ _ => true
  | .tTread _ _ _ => true
  | .aAdd64 _ _ _ _ => true
  | .aCas64 _ _ _ _ => true
  | .aRiadd _ _ _ _ => true
  | .aRfadd _ _ _ _ _ => true
  | .aFadd64 _ _ _ _ _ => true
  | .aRcas64 _ _ _ _ _ => true
  | .vArith _ _ _ _ _ _ _ _ => true
  | .vDivSqrt _ _ _ _ _ _ _ => true
  | .vCvt _ _ _ _ _ _ _ => true
  | .vLdSt _ _ _ _ => true
  | .vGath _ _ _ _ _ => true
  | .vScat _ _ _ _ _ => true
  | .vScadd _ _ _ _ _ _ _ => true
  | .vQldQst _ _ _ _ => true
  | .vCmp _ _ _ _ _ _ _ => true
  | .vPredicateLogic _ _ => true
  | .vPermute _ _ _ _ => true
  | .vRsum _ _ _ _ _ _ => true
  | .vRsumo _ _ _ _ _ _ => true
  | .vMvx _ _ _ _ _ => true
  | .vShape _ _ => true
  | .vTrip _ _ _ => true
  | .vQsel _ _ => true
  | .svDispatchArrive _ => true
  | .jobLu _ => true
  | .jobCholesky _ => true
  | .jobLdlt _ => true
  | .jobQr _ => true
  | .jobTrsv _ => true
  | .jobInverse _ => true
  | .jobJacobi _ => true
  | .jobSparse _ => true
  | .stepPanel _ _ => true
  | .stepAssemble _ _ => true
  | .stepCommit _ => true
  | .stepSpmv _ _ => true
  | .stepFsolve _ _ => true
  | .stepAxpy _ => true
  | .stepXpay _ => true
  | .stepDot _ => true
  | .stepScal _ => true
  | .stepExch _ _ => true
  | .stepCopy _ => true
  | .stepGivens _ _ => true
  | .stepHsolve _ _ => true
  | .stepLoop _ => true
  | .stepTest _ => true
  | .stepEndloop _ => true
  | .stepEnd _ => true
  | .slvJobEnd _ => true
  | .upDispatchArrive _ => true
  | .ueInitJob _ => true
  | .uePass1Job _ => true
  | .uePass2Job _ => true
  | .ueRootJob _ => true
  | .ueJobEnd _ => true
  | .sqDoorbell _ _ => true
  | .cqDoorbell _ _ => true
  | .sqEnable _ _ => true
  | .sqDisable _ => true
  | .cqEnable _ _ => true
  | .cqDisable _ => true
  | .descriptorFetch _ bytes => decide (bytes.length = 64)
  | .loadPlan _ _ => true
  | .launch _ => true
  | .admitOnly _ => true
  | .checkpointArm _ _ => true
  | .checkpointDisarm _ => true
  | .checkpointCut _ => true
  | .restore _ _ _ => true
  | .selfTest _ => true
  | .regionHandoff _ => true
  | .handoffComplete _ => true
  | .tableUpdate _ _ => true
  | .cancel _ => true
  | .descriptorUnknownKind _ => true
  | .hostLocalAccess _ _ addr a => decide (addr < 2 ^ 46) && a.wf
  | .hostRemoteAccess _ _ addr a => decide (addr < 2 ^ 34) && a.wf
  | .eclPortLaneLoss _ _ => true
  | .prepStart _ => true
  | .launchStart _ => true
  | .launchCompleteTick _ => true
  | .launchRecordReceive _ _ _ _ => true
  | .commitDecision _ => true
  | .commitReceive _ _ => true
  | .commitDeadline _ => true
  | .abandonmentNotice _ _ => true
  | .store _ _ _ => true
  | .loadReq _ _ _ => true
  | .loadResp _ _ _ => true
  | .fetchAdd _ _ _ => true
  | .cas _ _ _ => true
  | .fadd64 _ _ _ => true
  | .fadd32 _ _ _ => true
  | .atomResp _ _ _ => true
  | .postedAdd _ _ _ => true
  | .ack _ _ _ => true
  | .nak _ _ _ => true
  | .packetReservedType _ _ _ => true
  | .outsideCombRead _ _ _ => true
  | .packetForward _ _ _ _ _ => true
  | .scheduledSlot _ _ slot _ => decide (slot.val % 16 < 13)
  | .transitSlot _ _ slot _ => decide (slot.val % 16 < 13)
  | .retryTimeout _ _ => true
  | .retrySlot _ => true
  | .openTimeout _ _ => true
  | .openCreditSend _ _ => true
  | .gapTimer _ => true
  | .routeDrainStart _ => true
  | .routeSwitch => true
  | .portFailed _ => true
  | .portTrain _ => true
  | .portTrainDone _ _ => true
  | .laneSwap _ _ _ _ => true
  | .laneSwitch _ => true
  | .linkState _ _ _ => true
  | .mgmt _ _ _ => true
  | .portSpareReplace _ => true
  | .laserLoss _ _ => true
  | .connectorRemove _ => true
  | .connectorInsert _ => true
  | .owlcfgWrite _ _ => true
  | .timeExchange => true
  | .timeProbe _ _ _ => true
  | .timeReply _ _ _ => true
  | .exchangeTimeout => true
  | .timeFunctionReset => true
  | .timeInEdge => true
  | .swarmStart _ _ => true
  | .swData _ _ _ => true
  | .swTail _ _ _ => true
  | .chunkProduce _ _ => true
  | .swPull _ _ _ => true
  | .wgData _ _ _ => true
  | .wgPull _ _ _ => true
  | .waggleTimeout _ _ => true
  | .denNoticeCut _ _ => true
  | .denNoticeAbandon _ _ => true
  | .windowRelease _ => true
  | .cutStart _ => true
  | .shadowDrain _ => true
  | .cutBarrier _ => true
  | .barrierResult _ => true
  | .commitAcked _ => true
  | .cutWindowEnd _ => true
  | .restoreLoad _ _ => true
  | .restoreDone _ => true
  | .healthWindowEnd errs _ => errs.all (fun e => decide (5 ≤ e.1) && decide (e.1 ≤ 9))
  | .tileSwap _ _ => true
  | .slvSwap _ _ => true
  | .ueSwap _ _ => true
  | .scratchpadRowRepair _ => true
  | .hbmRowRepair _ => true
  | .hbmLaneReplacement _ _ => true
  | .laserSwitchover _ => true
  | .keeperSwap _ => true
  | .liveTestPatternEnd _ _ _ => true
  | .selfTestStart _ => true
  | .selfTestEnd _ _ _ => true
  | .configRecordWrite _ _ => true
  | .regulatorTick _ errs => errs.all (fun e => decide (e.1 % 64 = 0) && decide (e.2 ≤ 72))
  | .patrolScrub _ => true
  | .staticScrub line nerr => decide (line % 64 = 0) && decide (nerr ≤ 72)
  | .wcEvict line => decide (line % 64 = 0)
  | .ceRewrite line => decide (line % 64 = 0)
  | .stackLoss _ => true
  | .deepIdleEntry => true
  | .deepIdleExit => true
  | .v12Valid _ => true
  | .v48Valid mV => decide (mV < 2 ^ 16)
  | .powerLoss _ => true
  | .bootVerify => true
  | .hbmReady => true
  | .fabricReady _ => true
  | .packageReady => true
  | .resetNAssert => true
  | .resetNRelease => true
  | .glbReset _ _ => true
  | .watchdogExpiry _ => true
  | .thermalTrip _ _ => true
  | .thermalTripExit temp => decide (temp < 2 ^ 16)
  | .refclkLoss => true
  | .refclkReturn => true
  | .pllLockFail _ _ _ => true
  | .overlimit watts => decide (watts < 2 ^ 16)
  | .hot temp _ => decide (temp < 2 ^ 16)
  | .sensorOpen _ => true
  | .registerWrite _ _ _ => true
  | .loReadLatch _ _ => true
  | .mgmtStatus => true
  | .mgmtIdent => true
  | .mgmtPower => true
  | .attestReq _ nonce _ => decide (nonce.length = 32)
  | .attestReportReady rsa slh => decide (rsa.length = 384) && decide (slh.length = 16224)
  | .attestRead _ _ => true
  | .imageWrite _ _ _ _ => true
  | .imageCommit _ _ _ _ => true
  | .imageState => true
  | .imageTransferTimeout => true
  | .monStatus => true
  | .monVersion => true
  | .monRegisterRead _ => true
  | .monRegisterWrite _ => true
  | .monCounters _ => true
  | .monSpareMap => true
  | .monEventLog _ => true
  | .monSelfTest _ => true
  | .monBaudRate _ => true
  | .monBaudApply => true
  | .monTokenChunk a => (a.map (fun x => decide (x.2.length ≤ 256))).getD true
  | .monTokenEnd _ _ _ => true
  | .monUnknownCommand _ => true
  | .monBreak => true
  | .monRxStuck => true
  | .monTxFault => true
  | .smbLineFault _ => true
  | .outputLineFault _ _ => true
  | .tapBypass => true
  | .tapIdcode => true
  | .tapSamplePreload _ _ => true
  | .tapExtest _ _ => true
  | .tapClamp => true
  | .tapHighz => true
  | .tapSetupAccess _ _ _ => true
  | .trstNAssert => true
  | .hbmAccessComplete _ => true
  | .unitFailure kind unit => decide (unit < if kind = 0 then 128 else if kind = 1 then 16 else if kind = 2 then 8 else 4)
  | .calibrationRequest _ _ _ tiles slvs ues _ => decide (tiles < 2 ^ 128) && decide (slvs < 2 ^ 16) && decide (ues < 2 ^ 8)
  | .gscManagerTakeover => true
  | .eclPortTrain _ _ => true
  | .hotEnd temp _ => decide (temp < 2 ^ 16)
  | .overlimitEnd watts => decide (watts < 2 ^ 16)
  | .sensorReadsAgain _ => true
  | .monRxRelease => true
  | .monTxRetry => true
  | .smbLineRelease => true
  | .trstNRelease => true

end Sys2Proof
end

