-- ==== Sys2Proof/Decode.lean ====
section
/-! DEFINITION. Command words. The operation table gives no row any bits, so no word spells a command. -/

namespace Sys2Proof

/-- The command that a word spells by the bits of the operation table: none, because no row has bits. -/
def decodeTableWord (_nbits _w : Nat) : Option Instr := none

end Sys2Proof
end

