-- ==== Sys2Proof/Config.lean ====
section
/-! DEFINITION. The free values: what the spec leaves open and no proof may see. Each is named in a log entry. -/

namespace Sys2Proof.Config

/-- FUNC tables (R138): how many codes the table result of a FUNC table version, function and operand code lies from the
correctly rounded value, plus 5. Free; the model keeps the result within 2 ulp of the exact value. -/
opaque funcDelta : Nat → Nat → Nat → Fin 11

/-- The same for the update engine's log2 (0) and exp2 (1) routines (R180), by DCID, routine and operand code. -/
opaque ueDelta : Nat → Nat → Nat → Fin 11

/-- A fixed-point quotient by zero (R59 states none), by width, fraction bits and dividend. -/
opaque fixedQuotient : Nat → Nat → Int → BitVec 64

/-- A fixed-point square root of a negative value (R59 states none), by width, fraction bits and operand. -/
opaque fixedRoot : Nat → Nat → Int → BitVec 64

/-- A result that the spec leaves undefined and that its operands determine (R261): by which result it is, the operand words
and the index of the result word. -/
opaque operandWord : Nat → List Nat → Nat → BitVec 64

/-- The fraction bits of a fixed-point factor or Hessenberg triangle (R172, R173 name none), by its address. -/
opaque factorFraction : Nat → Fin 64

/-- What a read of a line with 6 or more erroneous symbols gives (R236): by the model's counter and line address. -/
opaque beyondCode : Nat → Nat → Bool

/-- A byte whose value the spec leaves undefined (R9, R46, R131, R157, R207, R386), by the model's counter and address. -/
opaque freeByte : Nat → Nat → BitVec 8

/-- A value the spec does not state, by the model's counter. -/
opaque freeWord : Nat → BitVec 64

/-- Whether scalar loads and element moves narrower than 64 bits extend the sign (09_cores R214, R223 name the moves only). -/
opaque loadSigned : Bool

/-- The upper 32 bits of the register after a 32-bit multiply or divide, by the low 32 bits (R214). -/
opaque upper32 : BitVec 32 → BitVec 32

/-- A shift by the element width or more in class 0 and in the vector shifts (R214, R223): by width, value and amount. -/
opaque shiftBeyond : Nat → BitVec 64 → BitVec 64 → BitVec 64

/-- Bits [46:0] of the register that `I.HIGHK` writes, by its old value (Table 9.2). -/
opaque highkLow : BitVec 64 → BitVec 64

/-- The register that `J.CALL` links (Table 9.2). -/
opaque linkReg : Fin 32

/-- The event-log code of a GAP event (R295), which Table 19.7 does not give. -/
opaque gapCode : BitVec 16

/-- The event-log code of a unit that lacks a spare (R458), which Table 19.5 does not give. -/
opaque degradedCode : BitVec 16

/-- The DRAM row of a line within its pseudo-channel (R253), by its in-stack address; no rule gives the size of a row. -/
opaque hbmRow : Nat → Nat

/-- The lines of a DRAM row (R253), by its in-stack address; no rule gives the size of a row. -/
opaque hbmRowLines : Nat → Fin 1024

/-- Whether an offset estimate that falls half-way between two units of 0.25 ns goes up (R267). -/
opaque thetaUp : Nat → Bool

/-- The event-log code of a temperature sensor that reads open (R473), which Table 19.5 does not give. -/
opaque sensorCode : BitVec 16

end Sys2Proof.Config
end

