-- ==== Sys2Proof/Machine/Bits.lean ====
section
/-! DEFINITION. Bit-field, byte-order, CRC and sparse-map helpers; the line code of R236. -/

namespace Sys2Proof.Machine

/-- Bits [hi:lo] of a number, both ends included (R4). -/
def bits (n hi lo : Nat) : Nat := (n >>> lo) % 2 ^ (hi + 1 - lo)

/-- One bit of a number. -/
def bit (n i : Nat) : Bool := (n >>> i) % 2 == 1

/-- 1 or 0. -/
def b2n (b : Bool) : Nat := if b then 1 else 0

/-- Two's complement reading of the low w bits. -/
def sext (w n : Nat) : Int := if bit n (w - 1) then (n % 2 ^ w : Int) - (2 ^ w : Int) else (n % 2 ^ w : Int)

/-- The low w bits of an integer. -/
def wrapInt (w : Nat) (i : Int) : Nat := (i % (2 ^ w : Int)).toNat

/-- ⌈a / b⌉. -/
def cdiv (a b : Nat) : Nat := (a + b - 1) / b

/-- ⌈log2 n⌉, with 0 for 0 and 1. -/
def clog2 (n : Nat) : Nat := if n ≤ 1 then 0 else Nat.log2 (n - 1) + 1

/-- Little-endian value of bytes (R4). -/
def leNat : List Byte → Nat
  | [] => 0
  | b :: r => b.toNat + 256 * leNat r

/-- The n little-endian bytes of a number (R4). -/
def natLe : Nat → Nat → List Byte
  | 0, _ => []
  | n + 1, v => BitVec.ofNat 8 v :: natLe n (v / 256)

/-- The little-endian field of `len` bytes at byte `off` of a record; bytes beyond it read 0. -/
def field (bs : List Byte) (off len : Nat) : Nat := leNat ((bs.drop off).take len)

/-- A record with the little-endian field of `len` bytes at `off` replaced. -/
def putField (bs : List Byte) (off len v : Nat) : List Byte :=
  bs.take off ++ natLe len v ++ bs.drop (off + len)

/-- Population count of the low w bits. -/
def popcount : Nat → Nat → Nat
  | 0, _ => 0
  | w + 1, n => n % 2 + popcount w (n / 2)

/-- The set bit numbers below w, ascending. -/
def bitList (w n : Nat) : List Nat := (List.range w).filter (bit n)

/-- Reading by key with a default. -/
def sget {α : Type} (m : SMap α) (k : Nat) (d : α) : α :=
  match m with
  | [] => d
  | (k', v) :: r => if k' = k then v else sget r k d

/-- Writing by key, keys stay rising. -/
def sset {α : Type} (m : SMap α) (k : Nat) (v : α) : SMap α :=
  match m with
  | [] => [(k, v)]
  | (k', v') :: r => if k < k' then (k, v) :: (k', v') :: r else if k = k' then (k, v) :: r else (k', v') :: sset r k v

/-- Removing a key. -/
def sdel {α : Type} (m : SMap α) (k : Nat) : SMap α := m.filter (fun e => e.1 != k)

/-- What an unlisted byte reads as: 0, because R255 writes zero to every line at power-up. -/
def emptyByte : Byte := 0

/-- The byte at an address. -/
def mget (m : Mem) (a : Nat) : Byte := sget m a emptyByte

/-- Writing one byte; writing what an unlisted byte reads as removes the entry. -/
def mset (m : Mem) (a : Nat) (v : Byte) : Mem :=
  match m with
  | [] => if v = emptyByte then [] else [(a, v)]
  | (k, w) :: r =>
    if a < k then (if v = emptyByte then (k, w) :: r else (a, v) :: (k, w) :: r)
    else if a = k then (if v = emptyByte then r else (a, v) :: r)
    else (k, w) :: mset r a v

/-- Writing consecutive bytes. -/
def mwrite (m : Mem) (a : Nat) : List Byte → Mem
  | [] => m
  | b :: r => mwrite (mset m a b) (a + 1) r

/-- Reading n consecutive bytes. -/
def mread (m : Mem) (a n : Nat) : List Byte := (List.range n).map (fun i => mget m (a + i))

/-- Reading n bytes as a little-endian number (R4). -/
def mnat (m : Mem) (a n : Nat) : Nat := leNat (mread m a n)

/-- Zeroing every listed byte whose address satisfies a test. -/
def mclear (m : Mem) (p : Nat → Bool) : Mem := m.filter (fun e => !p e.1)

/-- The canonical form: addresses strictly rising and no listed byte equal to what an unlisted one reads as. -/
def memWf : Mem → Bool
  | [] => true
  | (_, v) :: [] => v != emptyByte
  | (a, v) :: (b, w) :: r => v != emptyByte && (decide (a < b) && memWf ((b, w) :: r))

/-- One step of a reflected CRC-32C register. -/
def crc32cBit (c : W32) : W32 := if c.getLsbD 0 then (c >>> 1) ^^^ 0x82F63B78#32 else c >>> 1

/-- CRC-32C over one byte. -/
def crc32cByte (c : W32) (b : Byte) : W32 :=
  (List.range 8).foldl (fun x _ => crc32cBit x) (c ^^^ b.setWidth 32)

/-- CRC-32C of a byte list (headers of R41, R279, R291, R376, R380; PRESUMED: reflected Castagnoli form, initial value and
final exclusive OR all ones). -/
def crc32c (bs : List Byte) : W32 := ~~~ (bs.foldl crc32cByte (~~~ 0#32))

/-- One step of the CRC-64 register of R352, most significant bit first. -/
def crc64Bit (c : W64) : W64 := if c.getLsbD 63 then (c <<< 1) ^^^ 0x42F0E1EBA9EA3693#64 else c <<< 1

/-- CRC-64 over one byte, most significant bit first (R352). -/
def crc64Byte (c : W64) (b : Byte) : W64 :=
  (List.range 8).foldl (fun x _ => crc64Bit x) (c ^^^ (b.setWidth 64 <<< 56))

/-- CRC-64 of R352: ECMA-182 polynomial, initial value 0, no reflection, no final exclusive OR. -/
def crc64 (bs : List Byte) : W64 := bs.foldl crc64Byte 0#64

/-- Multiplication by α = 0x02 in GF(2^8) with x^8 + x^4 + x^3 + x^2 + 1 (R236). -/
def gfTwice (b : Byte) : Byte := if b.getLsbD 7 then (b <<< 1) ^^^ 0x1D#8 else b <<< 1

/-- Multiplication in the field of R236. -/
def gfMul (a b : Byte) : Byte :=
  ((List.range 8).foldl (fun (st : Byte × Byte) i =>
    (if b.getLsbD i then st.1 ^^^ st.2 else st.1, gfTwice st.2)) (0#8, a)).1

/-- α^n. -/
def gfPow : Nat → Byte
  | 0 => 1#8
  | n + 1 => gfTwice (gfPow n)

/-- Product of a polynomial (lowest degree first) with (x − r). -/
def gfTimesRoot (r : Byte) (p : List Byte) : List Byte :=
  List.zipWith (fun x y => x ^^^ y) (0#8 :: p) (p.map (gfMul r) ++ [0#8])

/-- The generator polynomial (x − α^0)…(x − α^7) of R236, lowest degree first. -/
def rsGenerator : List Byte := (List.range 8).foldl (fun p i => gfTimesRoot (gfPow i) p) [1#8]

/-- One step of the systematic division: the check register, highest degree first, takes one data byte. -/
def rsStep (chk : List Byte) (d : Byte) : List Byte :=
  let f := d ^^^ chk.headD 0#8
  List.zipWith (fun x g => x ^^^ gfMul f g) (chk.drop 1 ++ [0#8]) ((rsGenerator.take 8).reverse)

/-- The 8 check bytes that the package holds beside a line's 64 data bytes (R236, R237). -/
def rsCheck (data : List Byte) : List Byte := data.foldl rsStep (List.replicate 8 0#8)

/-- What the decoder of R236 makes of a line with so many erroneous symbols. -/
inductive LineRead where
  | clean | corrected | uncorrectable | beyond
  deriving DecidableEq, Repr

/-- R236: up to 3 symbols corrected, 4 or 5 detected, 6 or more unprotected. -/
def classifyLine (nerr : Nat) : LineRead :=
  if nerr = 0 then .clean else if nerr ≤ 3 then .corrected else if nerr ≤ 5 then .uncorrectable else .beyond

end Sys2Proof.Machine
end

