-- ==== Sys2Proof/Machine/Num.lean ====
section
/-! DEFINITION. Number formats and arithmetic rules (03_number_formats R49 to R68): exact values, one rounding, flags. -/

namespace Sys2Proof.Machine

/-- The formats of Table 2.4. -/
inductive Fmt where
  | b64 | b32 | h16 | h8e | h8m | h6 | q8 | q4 | a16 | i64 | i32 | i16 | i8 | fx32 | fx64
  deriving DecidableEq, Repr

/-- Table 2.4: a format code's format. -/
def fmtOfCode (c : Nat) : Option Fmt :=
  if c = 0x01 then some .b64 else if c = 0x02 then some .b32 else if c = 0x10 then some .h16
  else if c = 0x20 then some .h8e else if c = 0x21 then some .h8m else if c = 0x22 then some .h6
  else if c = 0x30 then some .q8 else if c = 0x31 then some .q4 else if c = 0x40 then some .a16
  else if c = 0x50 then some .i64 else if c = 0x51 then some .i32 else if c = 0x52 then some .i16
  else if c = 0x53 then some .i8 else if c = 0x60 then some .fx32 else if c = 0x61 then some .fx64 else none

/-- Table 3.1: width in bits. -/
def Fmt.width : Fmt → Nat
  | .b64 => 64 | .b32 => 32 | .h16 => 16 | .h8e => 8 | .h8m => 8 | .h6 => 6 | .q8 => 8 | .q4 => 4 | .a16 => 16
  | .i64 => 64 | .i32 => 32 | .i16 => 16 | .i8 => 8 | .fx32 => 32 | .fx64 => 64

/-- Two's complement formats without scale: Q8, Q4 and the integers. -/
def Fmt.isInt : Fmt → Bool
  | .q8 => true | .q4 => true | .i64 => true | .i32 => true | .i16 => true | .i8 => true | _ => false

/-- The four named integer formats. -/
def Fmt.isNamedInt : Fmt → Bool
  | .i64 => true | .i32 => true | .i16 => true | .i8 => true | _ => false

def Fmt.isFixed : Fmt → Bool
  | .fx32 => true | .fx64 => true | _ => false

/-- Floating-point formats. -/
def Fmt.isFloat : Fmt → Bool
  | .b64 => true | .b32 => true | .h16 => true | .h8e => true | .h8m => true | .h6 => true | _ => false

/-- Narrow weight formats (R49). -/
def Fmt.isNarrow : Fmt → Bool
  | .q8 => true | .q4 => true | .h8e => true | .h8m => true | .h6 => true | _ => false

/-- Rounding attributes (R52). -/
inductive Rnd where
  | rne | rtz | rup | rdn
  deriving DecidableEq, Repr

/-- The encoding of RA[1:0] (R52). -/
def rndOfCode (c : Nat) : Rnd :=
  if c % 4 = 0 then .rne else if c % 4 = 1 then .rtz else if c % 4 = 2 then .rup else .rdn

/-- R52: RA[2] selects the default of the determinism settings record. -/
def rndOfRa (ra dflt : Nat) : Rnd := if bit ra 2 then rndOfCode dflt else rndOfCode ra

/-- Flags of Table 0.4. -/
def fINV : Flags := 0x0001#16
def fDZ : Flags := 0x0002#16
def fOF : Flags := 0x0004#16
def fUF : Flags := 0x0008#16
def fNX : Flags := 0x0010#16
def fSAT : Flags := 0x0020#16
def fFLUSH : Flags := 0x0040#16
def fPIV : Flags := 0x0080#16
def fEMPTY : Flags := 0x0100#16
def fLONG : Flags := 0x0200#16

/-- A code with the flags its making raised. -/
abbrev R := W64 × Flags

/-- An exact value: NaN (signalling or not), infinity, or (−1)^neg × m × 2^e. -/
inductive Num where
  | nan (signalling : Bool)
  | inf (neg : Bool)
  | fin (neg : Bool) (m : Nat) (e : Int)
  deriving DecidableEq, Repr

/-- Exponent bits, fraction bits and bias of the floating-point formats (Table 3.3; IEEE 754-2019). -/
def Fmt.expBits : Fmt → Nat
  | .b64 => 11 | .b32 => 8 | .h16 => 7 | .h8e => 5 | .h8m => 4 | _ => 2
def Fmt.fracBits : Fmt → Nat
  | .b64 => 52 | .b32 => 23 | .h16 => 8 | .h8e => 2 | .h8m => 3 | _ => 3
def Fmt.bias : Fmt → Nat
  | .b64 => 1023 | .b32 => 127 | .h16 => 63 | .h8e => 15 | .h8m => 7 | _ => 1

/-- Whether the all-ones exponent is special: binary64, binary32 and H16 (R50, R55). -/
def Fmt.hasInf : Fmt → Bool
  | .b64 => true | .b32 => true | .h16 => true | _ => false

/-- The canonical NaN (R51, Table 3.4). -/
def canonNan : Fmt → W64
  | .b64 => 0x7FF8000000000000#64 | .b32 => 0x7FC00000#64 | .h16 => 0x7F80#64 | .h8e => 0x80#64 | .h8m => 0x80#64
  | _ => 0#64

/-- R54, R55, R50: the value of a floating-point code. -/
def decodeFloat (f : Fmt) (c : W64) : Num :=
  let n := c.toNat % 2 ^ f.width
  let F := f.fracBits
  let neg := bit n (f.width - 1)
  let e := bits n (f.width - 2) F
  let fr := n % 2 ^ F
  if (f = .h8e ∨ f = .h8m) ∧ n = 0x80 then .nan false
  else if f.hasInf ∧ e = 2 ^ f.expBits - 1 then
    (if fr = 0 then .inf neg else .nan ((f = .b32 ∨ f = .b64) ∧ bit fr (F - 1) = false))
  else if e = 0 then .fin neg fr (1 - (f.bias : Int) - F)
  else .fin neg (2 ^ F + fr) ((e : Int) - f.bias - F)

/-- Floor or nearest integer of m × 2^e under an attribute, with whether a non-zero part was discarded. -/
def roundScaled (rm : Rnd) (neg : Bool) (m : Nat) (e : Int) : Nat × Bool :=
  if e ≥ 0 then (m <<< e.toNat, false)
  else
    let k := (-e).toNat
    let q := m >>> k
    let r := m % 2 ^ k
    let half := 2 ^ (k - 1)
    let up := match rm with
      | .rne => decide (r > half) || (decide (r = half) && q % 2 == 1)
      | .rtz => false
      | .rup => !neg && r != 0
      | .rdn => neg && r != 0
    (q + b2n up, r != 0)

/-- Unbiased exponent of m × 2^e, m > 0: ⌊log2⌋. -/
def floorLog (m : Nat) (e : Int) : Int := (Nat.log2 m : Int) + e

/-- Largest finite code of a format, without sign (Table 3.4). -/
def maxFinite : Fmt → Nat
  | .b64 => 0x7FEFFFFFFFFFFFFF | .b32 => 0x7F7FFFFF | .h16 => 0x7EFF | .h8e => 0x7F | .h8m => 0x7F | _ => 0x1F

/-- The sign bit of a format, or nothing for a zero of H8e and H8m, which have no −0. -/
def signBit (f : Fmt) (neg : Bool) (mag : Nat) : Nat :=
  if neg ∧ ¬ ((f = .h8e ∨ f = .h8m) ∧ mag = 0) then 2 ^ (f.width - 1) else 0

/-- The magnitude code of the value (q × 2^x, with q below 2^(F+1)) where q carries the hidden bit iff normal. -/
def magCode (f : Fmt) (q : Nat) (x : Int) : Nat :=
  if q < 2 ^ f.fracBits then q
  else (x + f.fracBits + f.bias).toNat * 2 ^ f.fracBits + (q - 2 ^ f.fracBits)

/-- R50, R52, R61: an exact non-zero or zero finite value rounded once into a floating-point format, with its flags.
binary64 and binary32 overflow to Inf or the largest finite value by the attribute (OF, NX); the Honey formats saturate
(SAT, NX). Tininess is detected after rounding. FLUSH belongs to conversions into a Honey format.

DEDUCED (log 111): an inexact value below the smallest normal that rounds to it is tiny, by Table 3.8, and raises UF beside
NX, though Table 3.6's row for a value in range names NX alone. -/
def roundFin (f : Fmt) (rm : Rnd) (neg : Bool) (m : Nat) (e : Int) : R :=
  if m = 0 then (BitVec.ofNat 64 (signBit f neg 0), 0#16)
  else
    let F := f.fracBits
    let emin : Int := 1 - f.bias
    let ex := floorLog m e
    -- rounding at unbounded exponent decides tininess
    let (qu, _) := roundScaled rm neg m (e - (ex - F))
    let exu := if qu = 2 ^ (F + 1) then ex + 1 else ex
    let tiny := exu < emin
    let x := (if ex < emin then emin else ex) - F
    let (q0, inex) := roundScaled rm neg m (e - x)
    let (q, x) := if q0 = 2 ^ (F + 1) then (2 ^ F, x + 1) else (q0, x)
    let mag := magCode f q x
    if mag > maxFinite f then
      if f = .b64 ∨ f = .b32 then
        let toInf := match rm with
          | .rne => true | .rtz => false | .rup => !neg | .rdn => neg
        (BitVec.ofNat 64 ((if toInf then maxFinite f + 1 else maxFinite f) + signBit f neg 1), fOF ||| fNX)
      else (BitVec.ofNat 64 (maxFinite f + signBit f neg 1), fSAT ||| fNX)
    else
      let fl := (if inex then fNX else 0#16) ||| (if tiny ∧ inex then fUF else 0#16)
        ||| (if q = 0 ∧ ¬ (f = .b64 ∨ f = .b32) then fFLUSH else 0#16)
      (BitVec.ofNat 64 (mag + signBit f neg mag), fl)

/-- Infinity of a binary format. -/
def infCode (f : Fmt) (neg : Bool) : W64 := BitVec.ofNat 64 (maxFinite f + 1 + signBit f neg 1)

/-- R51: INV for a signalling NaN operand. -/
def snanFlag : Num → Flags
  | .nan true => fINV
  | _ => 0#16

/-- The exact value of a number rounded into binary64, binary32 or H16 (used for decodes and conversions between floats);
NaN gives the canonical NaN, an infinity stays, H6 has neither (R61). -/
def encodeFloat (f : Fmt) (rm : Rnd) (v : Num) : R :=
  match v with
  | .nan s => (canonNan f, if f = .h6 then fINV else if s then fINV else 0#16)
  | .inf neg =>
    if f.hasInf then (infCode f neg, 0#16)
    else (BitVec.ofNat 64 (maxFinite f + signBit f neg 1), fSAT ||| fNX)
  | .fin neg m e => roundFin f rm neg m e

/-- Conversions into Honey formats always round to nearest even (R52). -/
def rmFor (f : Fmt) (rm : Rnd) : Rnd := if f = .b64 ∨ f = .b32 then rm else .rne

/-- The signed integer s × m × 2^(e − lo), for lo ≤ e. -/
def scaledInt (neg : Bool) (m : Nat) (e lo : Int) : Int :=
  let v : Int := (m <<< (e - lo).toNat : Nat)
  if neg then -v else v

/-- Exact sum of two finite values; an exact zero from unlike signs is +0, or −0 under roundTowardNegative. -/
def addFin (rm : Rnd) (n1 : Bool) (m1 : Nat) (e1 : Int) (n2 : Bool) (m2 : Nat) (e2 : Int) : Num :=
  let lo := min e1 e2
  let s := scaledInt n1 m1 e1 lo + scaledInt n2 m2 e2 lo
  if s = 0 then (if m1 = 0 ∧ m2 = 0 ∧ n1 = n2 then .fin n1 0 0 else .fin (decide (rm = .rdn)) 0 0)
  else .fin (decide (s < 0)) s.natAbs lo

/-- IEEE 754-2019 addition of exact values, before rounding: the value and INV. -/
def addNum (rm : Rnd) (a b : Num) : Num × Flags :=
  match a, b with
  | .nan s, .nan t => (.nan false, if s || t then fINV else 0#16)
  | .nan s, _ => (.nan false, if s then fINV else 0#16)
  | _, .nan t => (.nan false, if t then fINV else 0#16)
  | .inf n, .inf k => if n = k then (.inf n, 0#16) else (.nan false, fINV)
  | .inf n, .fin _ _ _ => (.inf n, 0#16)
  | .fin _ _ _, .inf k => (.inf k, 0#16)
  | .fin n1 m1 e1, .fin n2 m2 e2 => (addFin rm n1 m1 e1 n2 m2 e2, 0#16)

/-- IEEE 754-2019 multiplication of exact values, before rounding. -/
def mulNum (a b : Num) : Num × Flags :=
  match a, b with
  | .nan s, .nan t => (.nan false, if s || t then fINV else 0#16)
  | .nan s, _ => (.nan false, if s then fINV else 0#16)
  | _, .nan t => (.nan false, if t then fINV else 0#16)
  | .inf n, .inf k => (.inf (n != k), 0#16)
  | .inf n, .fin k m _ => if m = 0 then (.nan false, fINV) else (.inf (n != k), 0#16)
  | .fin n m _, .inf k => if m = 0 then (.nan false, fINV) else (.inf (n != k), 0#16)
  | .fin n1 m1 e1, .fin n2 m2 e2 => (.fin (n1 != n2) (m1 * m2) (e1 + e2), 0#16)

/-- The negated value (sign operations act on NaN without effect on its kind). -/
def negNum : Num → Num
  | .nan s => .nan s
  | .inf n => .inf (!n)
  | .fin n m e => .fin (!n) m e

/-- Rounds an exact result into a binary format and ORs the flags. -/
def finish (f : Fmt) (rm : Rnd) (r : Num × Flags) : R :=
  let (c, fl) := encodeFloat f rm r.1
  (c, fl ||| r.2)

/-- a + b (R50). -/
def fAdd (f : Fmt) (rm : Rnd) (a b : W64) : R := finish f rm (addNum rm (decodeFloat f a) (decodeFloat f b))
/-- a − b: the sign of b is turned, a NaN keeps its kind. -/
def fSub (f : Fmt) (rm : Rnd) (a b : W64) : R := finish f rm (addNum rm (decodeFloat f a) (negNum (decodeFloat f b)))
/-- a × b (R50). -/
def fMul (f : Fmt) (rm : Rnd) (a b : W64) : R := finish f rm (mulNum (decodeFloat f a) (decodeFloat f b))

/-- a·b + c with one rounding; 0 × Inf is INV and NaN whatever the addend (R51). -/
def fmaNum (rm : Rnd) (a b c : Num) : Num × Flags :=
  let (p, pf) := mulNum a b
  let (s, sf) := addNum rm p c
  let zi := match a, b with
    | .inf _, .fin _ 0 _ => true
    | .fin _ 0 _, .inf _ => true
    | _, _ => false
  if zi then (.nan false, fINV ||| snanFlag c) else (s, pf ||| sf)

def fFma (f : Fmt) (rm : Rnd) (a b c : W64) : R :=
  finish f rm (fmaNum rm (decodeFloat f a) (decodeFloat f b) (decodeFloat f c))

/-- A quotient m1/m2 as an exact-enough significand: at least `p` + 3 bits, the lowest one sticky. -/
def quotSticky (p m1 m2 : Nat) : Nat × Int :=
  let k := p + 3 + Nat.log2 m2 + 1
  let n := m1 <<< k
  let q := n / m2
  (2 * q + b2n (n % m2 != 0), -(k : Int) - 1)

/-- Division before rounding (R50, R68): x/0 is DZ for finite non-zero x, 0/0 and Inf/Inf are INV. -/
def divNum (a b : Num) : Num × Flags :=
  match a, b with
  | .nan s, .nan t => (.nan false, if s || t then fINV else 0#16)
  | .nan s, _ => (.nan false, if s then fINV else 0#16)
  | _, .nan t => (.nan false, if t then fINV else 0#16)
  | .inf _, .inf _ => (.nan false, fINV)
  | .inf n, .fin k _ _ => (.inf (n != k), 0#16)
  | .fin n _ _, .inf k => (.fin (n != k) 0 0, 0#16)
  | .fin n1 m1 e1, .fin n2 m2 e2 =>
    if m2 = 0 then (if m1 = 0 then (.nan false, fINV) else (.inf (n1 != n2), fDZ))
    else if m1 = 0 then (.fin (n1 != n2) 0 0, 0#16)
    else
      let (q, x) := quotSticky 64 m1 m2
      (.fin (n1 != n2) q (e1 - e2 + x), 0#16)

def fDiv (f : Fmt) (rm : Rnd) (a b : W64) : R := finish f rm (divNum (decodeFloat f a) (decodeFloat f b))

/-- Integer square root by bits, from bit k down. -/
def isqrtGo (n : Nat) : Nat → Nat → Nat
  | 0, r => r
  | k + 1, r => let t := r + 2 ^ k; isqrtGo n k (if t * t ≤ n then t else r)

/-- ⌊√n⌋. -/
def isqrt (n : Nat) : Nat := isqrtGo n (Nat.log2 n / 2 + 1) 0

/-- Square root before rounding: −0 gives −0, a negative non-zero value is INV (R68). -/
def sqrtNum (a : Num) : Num × Flags :=
  match a with
  | .nan s => (.nan false, if s then fINV else 0#16)
  | .inf n => if n then (.nan false, fINV) else (.inf false, 0#16)
  | .fin n m e =>
    if m = 0 then (.fin n 0 0, 0#16)
    else if n then (.nan false, fINV)
    else
      -- make the exponent even and the significand at least 140 bits
      let k : Nat := 140 + (if (e - 140) % 2 = 0 then 0 else 1)
      let x := m <<< k
      let r := isqrt x
      (.fin false (2 * r + b2n (r * r != x)) ((e - k) / 2 - 1), 0#16)

def fSqrt (f : Fmt) (rm : Rnd) (a : W64) : R := finish f rm (sqrtNum (decodeFloat f a))

/-- Comparison of two values that are not NaN: −1, 0 or 1 (−0 equals +0). -/
def cmpNum (a b : Num) : Int :=
  match a, b with
  | .inf n, .inf k => if n = k then 0 else if n then -1 else 1
  | .inf n, _ => if n then -1 else 1
  | _, .inf k => if k then 1 else -1
  | .fin n1 m1 e1, .fin n2 m2 e2 =>
    let lo := min e1 e2
    let d := scaledInt n1 m1 e1 lo - scaledInt n2 m2 e2 lo
    if d < 0 then -1 else if d = 0 then 0 else 1
  | _, _ => 0

def isNan : Num → Bool
  | .nan _ => true
  | _ => false

def isFin : Num → Bool
  | .fin _ _ _ => true
  | _ => false

def isNeg : Num → Bool
  | .inf n => n
  | .fin n _ _ => n
  | .nan _ => false

def isZero : Num → Bool
  | .fin _ 0 _ => true
  | _ => false

def finiteF (f : Fmt) (c : W64) : Bool := isFin (decodeFloat f c)

/-- Maximum (isMax) or minimum of R53: a NaN gives the canonical NaN, −0 orders below +0. -/
def fMaxMin (isMax : Bool) (f : Fmt) (a b : W64) : R :=
  let x := decodeFloat f a
  let y := decodeFloat f b
  if isNan x || isNan y then (canonNan f, snanFlag x ||| snanFlag y)
  else
    let c := cmpNum x y
    let aFirst := if c = 0 then (isNeg x == !isMax) else (decide (c > 0) == isMax)
    (if aFirst then a else b, 0#16)

/-- The comparison relations of R53 and R135. -/
inductive Rel where
  | eq | ne | lt | le | gt | ge | unord
  deriving DecidableEq, Repr

/-- The relation on an order result. -/
def relHolds (r : Rel) (c : Int) : Bool :=
  match r with
  | .eq => c = 0 | .ne => c ≠ 0 | .lt => c < 0 | .le => c ≤ 0 | .gt => c > 0 | .ge => c ≥ 0 | .unord => false

/-- R53: equality and UNORD are quiet, the ordered comparisons signal INV on any NaN and return false. -/
def cmpRel (r : Rel) (x y : Num) : Bool × Flags :=
  if isNan x || isNan y then
    match r with
    | .eq => (false, snanFlag x ||| snanFlag y)
    | .ne => (true, snanFlag x ||| snanFlag y)
    | .unord => (true, snanFlag x ||| snanFlag y)
    | _ => (false, fINV)
  else (relHolds r (cmpNum x y), 0#16)

/-- Sign operations on the sign bit alone (R51); H8e and H8m keep 0x00 and 0x80. -/
def setSign (f : Fmt) (neg : Bool) (c : W64) : W64 :=
  let n := c.toNat % 2 ^ f.width
  if (f = .h8e ∨ f = .h8m) ∧ n % 0x80 = 0 then c
  else BitVec.ofNat 64 (n % 2 ^ (f.width - 1) + (if neg then 2 ^ (f.width - 1) else 0))

def signOf (f : Fmt) (c : W64) : Bool := bit c.toNat (f.width - 1)
def fNeg (f : Fmt) (c : W64) : W64 := setSign f (!signOf f c) c
def fAbs (f : Fmt) (c : W64) : W64 := setSign f false c

/-- Range of a two's complement format. -/
def intMax (w : Nat) : Int := 2 ^ (w - 1) - 1
def intMin (w : Nat) : Int := -(2 ^ (w - 1))

/-- R59: an exact integer code saturated into w bits; SAT (with NX, Table 3.8) beyond the range. -/
def satCode (w : Nat) (i : Int) : R :=
  if i > intMax w then (BitVec.ofNat 64 (wrapInt w (intMax w)), fSAT ||| fNX)
  else if i < intMin w then (BitVec.ofNat 64 (wrapInt w (intMin w)), fSAT ||| fNX)
  else (BitVec.ofNat 64 (wrapInt w i), 0#16)

/-- An exact value as an integer multiple of 2^−n, rounded; with whether a part was discarded. -/
def toFixed (rm : Rnd) (n : Nat) (neg : Bool) (m : Nat) (e : Int) : Int × Bool :=
  let (q, inex) := roundScaled rm neg m (e + n)
  (if neg then -(q : Int) else q, inex)

/-- R62 for integer (n = 0) and fixed-point targets whose most negative code is `lo`: NaN gives 0 with INV, a value beyond
the code range or ±Inf saturates to the nearest limit, FLUSH for a non-zero value whose result is 0. -/
def toIntFrom (w n : Nat) (lo : Int) (v : Num) : R :=
  match v with
  | .nan _ => (0#64, fINV)
  | .inf neg => (BitVec.ofNat 64 (wrapInt w (if neg then lo else intMax w)), fSAT ||| fNX)
  | .fin neg m e =>
    let (i, inex) := toFixed .rne n neg m e
    let (c, fl) := if i < lo then (BitVec.ofNat 64 (wrapInt w lo), fSAT ||| fNX) else satCode w i
    (c, fl ||| (if inex then fNX else 0#16) ||| (if m ≠ 0 ∧ c = 0#64 then fFLUSH else 0#16))

/-- R62 over the whole code range of the format. -/
def toIntFmt (w n : Nat) (v : Num) : R := toIntFrom w n (intMin w) v

/-- The exact value of an integer code with scale 2^−n. -/
def intNum (i : Int) (n : Nat) : Num := .fin (decide (i < 0)) i.natAbs (-(n : Int))

/-- The signed integer of a code. -/
def codeInt (f : Fmt) (c : W64) : Int := sext f.width (c.toNat % 2 ^ f.width)

/-- R58: the exact value S × (c − z) of an A16 code; S a binary32 code. -/
def a16Num (sc : W64) (z : Int) (c : W64) : Num × Flags :=
  mulNum (decodeFloat .b32 sc) (intNum (codeInt .a16 c - z) 0)

/-- R62: a conversion scale is usable when it is positive, normal and finite. -/
def usableScale (sc : W64) : Bool :=
  match decodeFloat .b32 sc with
  | .fin false m _ => decide (m ≥ 2 ^ 23)
  | _ => false

/-- R62 into A16: the exact quotient x/S rounded to nearest even, plus z, saturated. -/
def toA16 (sc : W64) (z : Int) (v : Num) : R :=
  let zc : W64 := BitVec.ofNat 64 (wrapInt 16 z)
  if !usableScale sc then (zc, fINV)
  else match v with
  | .nan _ => (zc, fINV)
  | .inf neg => satCode 16 (if neg then intMin 16 - 1 else intMax 16 + 1)
  | .fin neg m e =>
    match divNum (.fin neg m e) (decodeFloat .b32 sc) with
    | (.fin n q x, _) =>
      let (i, inex) := toFixed .rne 0 n q x
      let (c, fl) := satCode 16 (i + z)
      (c, fl ||| (if inex then fNX else 0#16) ||| (if m ≠ 0 ∧ c = zc then fFLUSH else 0#16))
    | _ => (zc, fINV)

/-- Scale and zero point that an A16 element carries, and the n of a fixed-point one (R58, R59, R134). -/
structure Carry where
  sc : W64 := 0x3F800000#64
  z : Int := 0
  nfrac : Nat := 0
  deriving DecidableEq, Repr

/-- The exact value of any code, with the flags its decoding may raise (none: R60). -/
def valueOf (f : Fmt) (k : Carry) (c : W64) : Num :=
  if f.isFloat then decodeFloat f c
  else if f = .a16 then (a16Num k.sc k.z c).1
  else if f.isFixed then intNum (codeInt f c) k.nfrac
  else intNum (codeInt f c) 0

/-- R58, R60 to R62: a code of one format converted into another. rm rules binary64 and binary32 targets; every other
target rounds to nearest even. -/
def convert (rm : Rnd) (src : Fmt) (ks : Carry) (dst : Fmt) (kd : Carry) (c : W64) : R :=
  let v := valueOf src ks c
  if dst.isFloat then
    let r := encodeFloat dst (rmFor dst rm) v
    (r.1, r.2 ||| (if src = .a16 then (a16Num ks.sc ks.z c).2 else 0#16))
  else if dst = .a16 then toA16 kd.sc kd.z v
  else if src.isFloat || src == .a16 then toIntFmt dst.width (if dst.isFixed then kd.nfrac else 0) v
  else
    -- narrowing between integer and fixed-point formats: SAT, and NX when a part is discarded (R62)
    let r := toIntFmt dst.width (if dst.isFixed then kd.nfrac else 0) v
    (r.1, r.2)

/-- Rounds a floating-point value to an integral value in its own format (SC CVT FN 1, R134). -/
def roundIntegral (f : Fmt) (rm : Rnd) (c : W64) : R :=
  match decodeFloat f c with
  | .fin neg m e =>
    let (q, inex) := roundScaled rm neg m e
    if q = 0 then (BitVec.ofNat 64 (signBit f neg 0), if inex then fNX else 0#16)
    else ((roundFin f .rne neg q 0).1, if inex then fNX else 0#16)
  | .inf neg => (infCode f neg, 0#16)
  | .nan s => (canonNan f, if s then fINV else 0#16)

/-- Fixed-point sum, saturated (R59). -/
def xAdd (w : Nat) (a b : Int) : R := satCode w (a + b)

/-- An exact integer numerator over 2^k rounded to nearest even and saturated (R59). -/
def xRound (w k : Nat) (i : Int) : R :=
  let (q, inex) := roundScaled .rne (decide (i < 0)) i.natAbs (-(k : Int))
  let (c, fl) := satCode w (if i < 0 then -(q : Int) else q)
  (c, fl ||| (if inex then fNX else 0#16))

/-- Fixed-point product at n (R59). -/
def xMul (w n : Nat) (a b : Int) : R := xRound w n (a * b)

/-- Fixed-point a·b + c at n with one rounding (R59). -/
def xFma (w n : Nat) (a b c : Int) : R := xRound w n (a * b + c * 2 ^ n)

/-- Fixed-point quotient at n, rounded to nearest even (R59). A zero divisor raises DZ, or INV for 0/0 (R68, Table 0.4); the
spec states no result for it: a free function of the operands (R261, log 83). -/
def xDiv (w n : Nat) (a b : Int) : R :=
  if b = 0 then (Config.fixedQuotient w n a &&& BitVec.ofNat 64 (2 ^ w - 1), if a = 0 then fINV else fDZ)
  else
    let num := a.natAbs <<< n
    let q := num / b.natAbs
    let r := num % b.natAbs
    let up := decide (2 * r > b.natAbs) || (decide (2 * r = b.natAbs) && q % 2 == 1)
    let mag : Int := (q + b2n up : Nat)
    let (c, fl) := satCode w (if decide (a < 0) != decide (b < 0) then -mag else mag)
    (c, fl ||| (if r != 0 then fNX else 0#16))

/-- Fixed-point square root at n, rounded to nearest even. A negative operand raises INV (Table 3.8) and has no stated
result: a free function of the operand (R261, log 83). -/
def xSqrt (w n : Nat) (a : Int) : R :=
  if a < 0 then (Config.fixedRoot w n a &&& BitVec.ofNat 64 (2 ^ w - 1), fINV)
  else
    let x := a.toNat <<< n
    let q := isqrt x
    let up := decide (x > q * q + q)
    let (c, fl) := satCode w ((q + b2n up : Nat) : Int)
    (c, fl ||| (if q * q != x then fNX else 0#16))

/-! FUNC (R138, R139): a centre computed in long fixed point, the table's own choice within 2 ulp of it. -/

/-- Fraction bits of the long fixed-point computation. -/
def longBits : Nat := 400

/-- e^(−x) for a fixed-point x in [0, 1), by its series, `fuel` terms. -/
def expNegSeries (x : Nat) : Nat → Nat → Int → Int → Int
  | 0, _, _, acc => acc
  | fuel + 1, k, term, acc =>
    let t := -(term * x) / ((2 ^ longBits : Int) * k)
    expNegSeries x fuel (k + 1) t (acc + t)

/-- ln 2 in long fixed point, by Σ 1/(k·2^k). -/
def ln2Series : Nat → Nat → Nat
  | 0, _ => 0
  | fuel + 1, k => (2 ^ longBits) / (k * 2 ^ k) + ln2Series fuel (k + 1)

def ln2Fixed : Nat := ln2Series longBits 1

/-- 2^(−x/2^longBits) for 0 ≤ x < 2^longBits, in long fixed point. -/
def exp2NegFixed (x : Nat) : Nat :=
  (expNegSeries (x * ln2Fixed / 2 ^ longBits) 90 1 (2 ^ longBits) (2 ^ longBits)).toNat

/-- Bits of log2 of a long fixed-point y in [1, 2). -/
def log2Bits : Nat → Nat → Nat → Nat
  | 0, _, acc => acc
  | fuel + 1, y, acc =>
    let z := y * y / 2 ^ longBits
    if z ≥ 2 ^ (longBits + 1) then log2Bits fuel (z / 2) (2 * acc + 1) else log2Bits fuel z (2 * acc)

/-- The centre of 2^v as an exact value m × 2^e. -/
def exp2Centre (neg : Bool) (m : Nat) (e : Int) : Num :=
  -- v = i − x with x in [0, 1)
  let fx := (roundScaled .rtz false m (e + longBits)).1
  let i : Int := if neg then -((fx / 2 ^ longBits : Nat) : Int) else ((cdiv fx (2 ^ longBits) : Nat) : Int)
  let x : Nat := if neg then fx % 2 ^ longBits else (i.toNat * 2 ^ longBits - fx)
  .fin false (exp2NegFixed x) (i - longBits)

/-- The centre of log2(m × 2^e), m > 0. -/
def log2Centre (m : Nat) (e : Int) : Num :=
  let k := Nat.log2 m
  let y := (m <<< longBits) >>> k
  let frac := log2Bits 200 y 0
  let v : Int := ((k : Int) + e) * 2 ^ 200 + frac
  .fin (decide (v < 0)) v.natAbs (-200)

/-- e^(−|v|) and the like: v × log2 e in long fixed point (truncated at 2^20, where every result has its limit value). -/
def mulLog2e (m : Nat) (e : Int) : Nat :=
  let fx := (roundScaled .rtz false m (e + longBits)).1
  let q := fx * 2 ^ longBits / ln2Fixed
  min q (2 ^ (longBits + 20))

/-- e^(−|v|) in long fixed point. -/
def expNegAbs (m : Nat) (e : Int) : Nat :=
  let q := mulLog2e m e
  exp2NegFixed (q % 2 ^ longBits) >>> (q / 2 ^ longBits)

/-- A quotient of long fixed-point numbers as an exact-enough value. -/
def fixedQuot (neg : Bool) (a b : Nat) : Num :=
  let (q, x) := quotSticky 64 a (max b 1)
  .fin neg q x

/-- sigmoid(v) = 1/(1 + e^−v). -/
def sigmoidCentre (neg : Bool) (m : Nat) (e : Int) : Num :=
  let y := expNegAbs m e
  let one := 2 ^ longBits
  if neg then (if y = 0 then .fin false 1 (-1000) else fixedQuot false y (one + y))
  else fixedQuot false one (one + y)

/-- tanh(v) = (1 − e^−2v)/(1 + e^−2v); tiny operands give themselves less a part below the rounding. -/
def tanhCentre (neg : Bool) (m : Nat) (e : Int) : Num :=
  if floorLog m e < -60 then .fin neg (m * 2 ^ 80 - 1) (e - 80)
  else
    let y := expNegAbs m (e + 1)
    let one := 2 ^ longBits
    if y = 0 then .fin neg (2 ^ 80 - 1) (-80) else fixedQuot neg (one - y) (one + y)

/-- Steps of a binary32 code by d units in the last place, kept inside the finite codes of one sign. -/
def stepUlp (f : Fmt) (c : W64) (d : Int) : W64 :=
  let n := c.toNat
  let s := 2 ^ (f.width - 1)
  let mag : Int := (n % s : Nat)
  let mag' := max 0 (min (maxFinite f : Int) (mag + d))
  BitVec.ofNat 64 (mag'.toNat + (if n ≥ s then s else 0))

/-- Whether a finite value lies within 2 ulp of an exact finite value, an ulp being that of the exact value's binade (R138). -/
def closeTo (f : Fmt) (exact x : Num) : Bool :=
  match exact, x with
  | .fin n1 m1 e1, .fin n2 m2 e2 =>
    let emin : Int := 1 - f.bias
    let u : Int := (if m1 = 0 then emin else max (floorLog m1 e1) emin) - f.fracBits + 1
    let lo := min u (min e1 e2)
    decide ((scaledInt n1 m1 e1 lo - scaledInt n2 m2 e2 lo).natAbs ≤ 2 ^ (u - lo).toNat)
  | _, _ => false

/-- Whether a code of a binary format is below the smallest normal (zero included). -/
def tinyCode (f : Fmt) (c : W64) : Bool := decide (c.toNat % 2 ^ (f.width - 1) < 2 ^ f.fracBits)

/-- A table result: the rounded exact value moved by the table's free number of codes where the code reached still lies
within 2 ulp of the exact value (R138, R180), with the flags of R139: NX, and OF, or UF when the result is tiny. -/
def withinTwoUlp (f : Fmt) (delta : Fin 11) (v : Num) : R :=
  let (c, fl) := encodeFloat f .rne v
  if isFin (decodeFloat f c) then
    let d := stepUlp f c ((delta.val : Int) - 5)
    let r := if closeTo f v (decodeFloat f d) then d else c
    (r, fNX ||| (if tinyCode f r then fUF else 0#16))
  else (c, fl ||| fNX)

/-- Whether a value is an integer, and which. -/
def integral? (neg : Bool) (m : Nat) (e : Int) : Option Int :=
  if e ≥ 0 then (if e > 2000 then none else some (scaledInt neg m e 0))
  else if m % 2 ^ (-e).toNat = 0 then some (scaledInt neg (m >>> (-e).toNat) 0 0) else none

/-- Whether a positive m is a power of two, and which of m × 2^e. -/
def powerOfTwo? (m : Nat) (e : Int) : Option Int :=
  if m ≠ 0 ∧ m = 2 ^ Nat.log2 m then some (floorLog m e) else none

/-- FUNC functions 0 to 6 in binary32 (R138, R139, Table 6.7). ftv is the FUNC table version. -/
def func32 (ftv fn : Nat) (a : W64) : R :=
  let d := Config.funcDelta ftv fn a.toNat
  let one : W64 := 0x3F800000#64
  match decodeFloat .b32 a with
  | .nan s => (canonNan .b32, if s then fINV else 0#16)
  | .inf neg =>
    if fn = 0 then (if neg then 0#64 else infCode .b32 false, 0#16)
    else if fn = 1 then (if neg then (canonNan .b32, fINV) else (infCode .b32 false, 0#16))
    else if fn = 2 then (BitVec.ofNat 64 (signBit .b32 neg 0), 0#16)
    else if fn = 3 then (if neg then (canonNan .b32, fINV) else (0#64, 0#16))
    else if fn = 4 then (if neg then 0#64 else one, 0#16)
    else if fn = 5 then (setSign .b32 neg one, 0#16)
    else (if neg then 0x80000000#64 else infCode .b32 false, 0#16)
  | .fin neg m e =>
    if fn = 0 then
      (match integral? neg m e with
       | some k =>
         if k ≥ 128 then (infCode .b32 false, fOF ||| fNX)
         else if k ≥ -149 then ((roundFin .b32 .rne false 1 k).1, 0#16)
         else withinTwoUlp .b32 d (.fin false 1 (max k (-1000)))
       | none =>
         if floorLog m e ≥ 7 then
           (if neg then withinTwoUlp .b32 d (if floorLog m e ≥ 9 then .fin false 1 (-1000) else exp2Centre neg m e)
            else (infCode .b32 false, fOF ||| fNX))
         else withinTwoUlp .b32 d (exp2Centre neg m e))
    else if fn = 1 then
      (if m = 0 then (infCode .b32 true, fDZ)
       else if neg then (canonNan .b32, fINV)
       else match powerOfTwo? m e with
         | some k => ((encodeFloat .b32 .rne (intNum k 0)).1, 0#16)
         | none => withinTwoUlp .b32 d (log2Centre m e))
    else if fn = 2 then
      (if m = 0 then (infCode .b32 neg, fDZ)
       else match powerOfTwo? m e with
         | some k => if -k ≥ -126 ∧ -k ≤ 127 then ((roundFin .b32 .rne neg 1 (-k)).1, 0#16)
                     else withinTwoUlp .b32 d (.fin neg 1 (-k))
         | none => withinTwoUlp .b32 d (divNum (.fin neg 1 0) (.fin false m e)).1)
    else if fn = 3 then
      (if m = 0 then (infCode .b32 neg, fDZ)
       else if neg then (canonNan .b32, fINV)
       else match powerOfTwo? m e with
         | some k => if k % 2 = 0 then ((roundFin .b32 .rne false 1 (-(k / 2))).1, 0#16)
                     else withinTwoUlp .b32 d (divNum (.fin false 1 0) (sqrtNum (.fin false m e)).1).1
         | none => withinTwoUlp .b32 d (divNum (.fin false 1 0) (sqrtNum (.fin false m e)).1).1)
    else if fn = 4 then
      (if m = 0 then (0x3F000000#64, 0#16) else withinTwoUlp .b32 d (sigmoidCentre neg m e))
    else if fn = 5 then
      (if m = 0 then (BitVec.ofNat 64 (signBit .b32 neg 0), 0#16) else withinTwoUlp .b32 d (tanhCentre neg m e))
    else
      (if m = 0 then (BitVec.ofNat 64 (signBit .b32 neg 0), 0#16)
       else withinTwoUlp .b32 d (mulNum (.fin neg m e) (sigmoidCentre neg m e)).1)

/-- The update engine's log2 in binary64, within 2 ulp (R180), with the flags of R68. -/
def ueLog2 (dcid : Nat) (a : W64) : R :=
  match decodeFloat .b64 a with
  | .nan s => (canonNan .b64, if s then fINV else 0#16)
  | .inf neg => if neg then (canonNan .b64, fINV) else (infCode .b64 false, 0#16)
  | .fin neg m e =>
    if m = 0 then (infCode .b64 true, fDZ) else if neg then (canonNan .b64, fINV)
    else match powerOfTwo? m e with
      | some k => ((encodeFloat .b64 .rne (intNum k 0)).1, 0#16)
      | none => withinTwoUlp .b64 (Config.ueDelta dcid 0 a.toNat) (log2Centre m e)

/-- The update engine's exp2 in binary64, within 2 ulp (R180), with the flags of R68. -/
def ueExp2 (dcid : Nat) (a : W64) : R :=
  match decodeFloat .b64 a with
  | .nan s => (canonNan .b64, if s then fINV else 0#16)
  | .inf neg => (if neg then 0#64 else infCode .b64 false, 0#16)
  | .fin neg m e =>
    if m = 0 then (0x3FF0000000000000#64, 0#16)
    else if floorLog m e ≥ 11 then (if neg then (0#64, fUF ||| fNX) else (infCode .b64 false, fOF ||| fNX))
    else match integral? neg m e with
      | some k => roundFin .b64 .rne false 1 k
      | none => withinTwoUlp .b64 (Config.ueDelta dcid 1 a.toNat) (exp2Centre neg m e)

/-- Index of the pollen counter of a value (Table 3.9). -/
def pollenIndex (v : Num) : Nat :=
  match v with
  | .nan _ => 129
  | .inf _ => 129
  | .fin _ m e => if m = 0 then 128 else (max 0 (min 127 (floorLog m e + 63))).toNat

/-- A pollen count of a list of observed values: 130 counters that saturate (R71, R72). -/
def pollenCount (vs : List Num) : List Nat :=
  (List.range 130).map (fun i => min 0xFFFFFFFF (vs.countP (fun v => pollenIndex v == i)))

/-- The 520 bytes of a pollen count (Table 3.9). -/
def pollenBytes (vs : List Num) : List Byte := (pollenCount vs).flatMap (natLe 4)

/-- R107 step 3: the least H16 code not below m/qmax (m a positive exact value), and SAT when it exceeds 0x7EFF. -/
def h16Ceil (m qmax : Num) : R :=
  match divNum m qmax with
  | (.fin _ q x, _) =>
    let (c, fl) := roundFin .h16 .rup false q x
    -- roundFin saturates beyond the largest finite value
    if fl &&& fSAT ≠ 0#16 then (0x7EFF#64, fSAT) else (if c = 0#64 then 1#64 else c, 0#16)
  | _ => (0#64, 0#16)

/-- Table 5.1. -/
def qmaxOf : Fmt → Num
  | .q8 => .fin false 127 0
  | .q4 => .fin false 7 0
  | .h8e => .fin false 114688 0
  | .h8m => .fin false 480 0
  | _ => .fin false 15 (-1)

/-- Largest magnitude of the finite elements (R107 step 1). -/
def maxMag : List Num → Option (Nat × Int)
  | [] => none
  | .fin _ m e :: r =>
    (match maxMag r with
     | none => some (m, e)
     | some (m', e') => if cmpNum (.fin false m e) (.fin false m' e') ≥ 0 then some (m, e) else some (m', e'))
  | _ :: r => maxMag r

/-- R107 steps 4 and 5: one value converted into a narrow format. DEDUCED (log 112): the code range of Q8 and Q4 is that of
Table 5.1, so a value beyond it and −Inf take −127 and −7: −128 and −8 are never produced. -/
def narrowCode (f : Fmt) (v : Num) : R :=
  if f.isFloat then encodeFloat f .rne v else toIntFrom f.width 0 (-(intMax f.width)) v

/-- R107: scale and codes of one group of values in target format F, with each element's flags and the scale's. -/
def narrowGroup (f : Fmt) (vs sel : List Num) : W64 × List R × Flags :=
  match maxMag sel with
  | none => (0#64, vs.map (fun v => if isFin v then (0#64, 0#16) else narrowCode f v), 0#16)
  | some (m, e) =>
    if m = 0 then (0#64, vs.map (fun v => if isFin v then (0#64, 0#16) else narrowCode f v), 0#16)
    else
      let (s, sf) := h16Ceil (.fin false m e) (qmaxOf f)
      (s, vs.map (fun v => narrowCode f (if isFin v then (divNum v (decodeFloat .h16 s)).1 else v)), sf)

end Sys2Proof.Machine
end

