-- ==== Sys2Proof/Machine/RegMap.lean ====
section
/-! DEFINITION. Offsets of registers in the setup window (R415, Table 17.1) and the reset values that are not zero. -/

namespace Sys2Proof.Machine

def rGlbStatus : Nat := 0x0
def rGlbId : Nat := 0x4
def rGlbSerialLo : Nat := 0x8
def rGlbSerialHi : Nat := 0xC
def rGlbDcid : Nat := 0x10
def rGlbFwver : Nat := 0x14
def rGlbBootcnt : Nat := 0x18
def rGlbRestcnt : Nat := 0x1C
def rGlbResetcause : Nat := 0x20
def rGlbReset : Nat := 0x24
def rGlbLocks : Nat := 0x30
def rGlbLock : Nat := 0x3C
def rGlbScratch (i : Nat) : Nat := 0x40 + 4 * i

def rPwrStatus : Nat := 0x100000
def rPwrInput : Nat := 0x100004
def rPwrPower : Nat := 0x100008
def rPwrTemp : Nat := 0x10000C
def rPwrLimit : Nat := 0x100010
def rPwrTwarn : Nat := 0x100014
def rPwrClk : Nat := 0x100018
def rPwrIdle : Nat := 0x100020
def rPwrLock : Nat := 0x10003C
def rPwrOvercnt : Nat := 0x100040
def rPwrHotcnt : Nat := 0x100044

def rSecStatus : Nat := 0x200000
def rSecRollback : Nat := 0x200004
def rSecCfgseq : Nat := 0x200008
def rSecCfgstat : Nat := 0x20000C
def rSecIdhash (i : Nat) : Nat := 0x200010 + 4 * i
def rSecFwhash (i : Nat) : Nat := 0x200040 + 4 * i
def rSecTokcnt : Nat := 0x200070
def rSecLock : Nat := 0x20007C

def rHifStatus : Nat := 0x300000
def rHifLock : Nat := 0x300008
def rHifEvcfg : Nat := 0x30000C
def rHifInflight : Nat := 0x300010
def rHifTuperm : Nat := 0x300014
def rHifDescs : Nat := 0x300020
def rHifBaddb : Nat := 0x300024
def rHifEvdrop : Nat := 0x300028
def rHifEclerr : Nat := 0x30002C
def rHifEclretry : Nat := 0x300030
/-- Submission ring r (Table 16.12): +0 BASELO, +4 BASEHI, +8 CFG, +C HEAD, +10 DB, +14 STAT. -/
def rSq (r k : Nat) : Nat := 0x301000 + 0x20 * r + k
/-- Completion ring r (Table 16.13): +0 BASELO, +4 BASEHI, +8 CFG, +C TAIL, +10 DB, +14 STAT. -/
def rCq (r k : Nat) : Nat := 0x303000 + 0x20 * r + k
def rRslotLo (i : Nat) : Nat := 0x305000 + 8 * i
def rRslotHi (i : Nat) : Nat := 0x305004 + 8 * i

def rTimStatus : Nat := 0x400000
def rTimCfg : Nat := 0x400004
def rTimGscLo : Nat := 0x400008
def rTimGscHi : Nat := 0x40000C
def rTimOffset : Nat := 0x400010
def rTimDsr (i : Nat) : Nat := 0x400020 + 4 * i
def rTimTimeinLo : Nat := 0x400030
def rTimTimeinHi : Nat := 0x400034
def rTimLock : Nat := 0x40003C
def rTimSyncloss : Nat := 0x400040
def rTimAccepts : Nat := 0x400044
def rTimRefusals : Nat := 0x400048
def rTimDefers : Nat := 0x40004C
def rTimLaunchfail : Nat := 0x400050
def rTimLedger : Nat := 0x400054

def rMemCfg : Nat := 0x500000
def rMemStatus : Nat := 0x500004
def rMemStklost : Nat := 0x500008
def rMemLock : Nat := 0x50000C
def rMemPartA (p : Nat) : Nat := 0x500100 + 8 * p
def rMemPartB (p : Nat) : Nat := 0x500104 + 8 * p
def rMemScrub : Nat := 0x500200
def rMemScrubpass : Nat := 0x500204
def rMemCe (s : Nat) : Nat := 0x500400 + 4 * s
def rMemUe (s : Nat) : Nat := 0x500480 + 4 * s
def rMemSramce : Nat := 0x500500
def rMemSramue : Nat := 0x500504
def rMemErrA : Nat := 0x500600
def rMemErrB : Nat := 0x500604
def rMemErrC : Nat := 0x500608
def rMemRepair (s : Nat) : Nat := 0x500700 + 4 * s

def rFabStatus : Nat := 0x600000
def rFabPlace : Nat := 0x600004
def rFabLock : Nat := 0x600008
def rFabSwLo : Nat := 0x600010
def rFabSwHi : Nat := 0x600014
def rFabPstate (p : Nat) : Nat := 0x600100 + 4 * p
def rFabPpeer (p : Nat) : Nat := 0x600300 + 4 * p
def rFabPflight (p : Nat) : Nat := 0x600500 + 4 * p
def rFabFdstat (d : Nat) : Nat := 0x600700 + 4 * d
def rFabPspare : Nat := 0x600710
def rFabFeccorr (p : Nat) : Nat := 0x600800 + 4 * p
def rFabFecunc (p : Nat) : Nat := 0x600A00 + 4 * p
def rFabCrcdrop : Nat := 0x600C00
def rFabDups : Nat := 0x600C04
def rFabGaps : Nat := 0x600C08
def rFabResends : Nat := 0x600C0C
def rFabFailed : Nat := 0x600C10
def rFabNoroute : Nat := 0x600C14
def rFabHopdrop : Nat := 0x600C18
def rFabTransitmiss : Nat := 0x600C1C
def rFabOwldrop : Nat := 0x600C20
def rFabOwlcfg (p : Nat) : Nat := 0x600D00 + 4 * p
def rFabOwlft : Nat := 0x600F00
def rFabOwlfp : Nat := 0x600F04
def rFabOwlfm : Nat := 0x600F08
def rFabOwlbaseLo : Nat := 0x600F10
def rFabOwlbaseHi : Nat := 0x600F14
def rFabOwlsize : Nat := 0x600F18
def rFabOwlwr : Nat := 0x600F1C
def rFabOwlrd : Nat := 0x600F20
/-- Route table entries (Table 13.12), bank 0 A, 1 B. -/
def rInpod (bank i : Nat) : Nat := 0x610000 + 0x100 * bank + 4 * i
def rPodtab (bank i : Nat) : Nat := 0x620000 + 0x4000 * bank + 4 * i
/-- Outbound window and region entries (Table 12.12). -/
def rWindow (i : Nat) : Nat := 0x640000 + 32 * i
def rRegion (i : Nat) : Nat := 0x660000 + 16 * i

def rSwmStatus : Nat := 0x700000
def rSwmChunks : Nat := 0x700010
def rSwmCrcbad : Nat := 0x700014
def rSwmPulls : Nat := 0x700018
def rSwmWpulls : Nat := 0x70001C
def rSwmOps : Nat := 0x700020
def rSwmFailed : Nat := 0x700024
def rSwmMismatch : Nat := 0x700028
def rGroup (i : Nat) : Nat := 0x710000 + 32 * i
def rMember (i : Nat) : Nat := 0x740000 + 4 * i

def rDenStatus : Nat := 0x800000
def rDenLast : Nat := 0x800004
def rDenCutLo : Nat := 0x800008
def rDenCutHi : Nat := 0x80000C
def rDenStepLo : Nat := 0x800010
def rDenStepHi : Nat := 0x800014
def rDenCuts : Nat := 0x800020
def rDenAbandons : Nat := 0x800024
def rDenRestores : Nat := 0x800028
def rDenMib : Nat := 0x80002C

def rDbgStatus : Nat := 0xA00000
def rDbgEnable : Nat := 0xA00004
def rDbgMoncfg : Nat := 0xA00008
def rDbgLock : Nat := 0xA0003C
def rDbgLineflt : Nat := 0xA00040
def rDbgMoncmds : Nat := 0xA00044
def rDbgMonerrs : Nat := 0xA00048

def rHltStatus : Nat := 0x900000
def rHltWindow : Nat := 0x900004
def rHltLastLo : Nat := 0x900008
def rHltLastHi : Nat := 0x90000C
def rHltProto : Nat := 0x900010
def rHltLoghead : Nat := 0x900014
def rHltLock : Nat := 0x90003C
def rHltWarns : Nat := 0x900040
def rHltSwaps : Nat := 0x900044
def rHltSwapdefer : Nat := 0x900048
def rHltSelftests : Nat := 0x90004C
def rHltSelffail : Nat := 0x900050
def rHltLoglost : Nat := 0x900054
def rHltTrendA (k : Nat) : Nat := 0x900100 + 16 * k
def rHltTrendB (k : Nat) : Nat := 0x900104 + 16 * k
def rHltTrendC (k : Nat) : Nat := 0x900108 + 16 * k
def rHltPunit (i : Nat) : Nat := 0x901000 + 4 * i
def rHltLog (i : Nat) : Nat := 0x980000 + 32 * i

/-- Base of the registers of a physical tile, numbered n × 32 + p (R48). -/
def rTile (u : Nat) : Nat := 0x1000000 + (u / 32) * 0x200000 + (u % 32) * 0x10000
/-- Base of the registers of a physical SLV, numbered n × 4 + s (R179). -/
def rSlv (u : Nat) : Nat := 0x1000000 + (u / 4) * 0x200000 + 0x180000 + (u % 4) * 0x10000
/-- Base of the registers of a physical UE, numbered n × 2 + e (R208). -/
def rUe (u : Nat) : Nat := 0x1000000 + (u / 2) * 0x200000 + 0x1C0000 + (u % 2) * 0x10000

/-- Reset values of `MEM.PARTA` (Table 10.3). -/
def partAReset (p : Nat) : Nat :=
  let v (res ceil : Nat) := res + ceil * 2 ^ 16
  if p = 0 then v 320 384 else if p = 1 then v 8 384 else if p = 2 then v 16 384 else if p = 3 then v 2 16
  else if p = 4 then v 4 128 else if p = 5 then v 8 256 else if p = 6 then v 2 32 else 0

/-- Reset values of `MEM.PARTB` (Table 10.3). -/
def partBReset (p : Nat) : Nat :=
  if p = 0 then 320 else if p = 1 then 512 else if p = 2 then 1024 else if p = 3 then 64 else if p = 4 then 256
  else if p = 5 then 512 else if p = 6 then 64 else 8

/-- Table 19.1 as shipped: FLOOR, MULT, ABS, K and the action bits EVT, CUT, SPARE of a class. -/
def trendReset (k : Nat) : Nat × Nat × Nat × Nat × Nat :=
  if k = 1 then (16, 32, 1000, 3, 7) else if k = 2 then (1, 8, 1, 1, 3) else if k = 3 then (8, 32, 256, 3, 7)
  else if k = 4 then (8, 32, 256, 3, 7) else if k = 5 then (4, 32, 64, 3, 5) else if k = 6 then (2 ^ 28, 16, 2 ^ 30, 5, 5)
  else if k = 7 then (1, 8, 16, 2, 5) else if k = 8 then (1024, 16, 65536, 3, 1) else if k = 9 then (4, 32, 64, 3, 5)
  else if k = 10 then (1, 8, 1, 1, 1) else (0, 0, 0, 0, 0)

/-- The reset value of the register word at an offset of the setup window: the constants that the register tables give.
Words that the configuration record, the image or the spare map give are written at start-up (R259, R418, R443). -/
def regDefault (o : Nat) : Nat :=
  if o = rGlbId then 0x0340B000
  else if o = rPwrLimit then 7200
  else if o = rPwrClk then 1700 + 2400 * 2 ^ 16
  else if 0x301000 ≤ o ∧ o < 0x301800 then
    (if o % 0x20 = 8 then 4 else if o % 0x20 = 0x14 then 1 else 0)
  else if 0x303000 ≤ o ∧ o < 0x303800 then
    (if o % 0x20 = 8 then 4 else if o % 0x20 = 0xC then 0x10000 else 0)
  else if o = rMemCfg then 2
  else if 0x500100 ≤ o ∧ o < 0x500180 then
    (if o % 8 = 0 then partAReset ((o - 0x500100) / 8) else partBReset ((o - 0x500100) / 8))
  else if o = rMemScrub then 16384
  else if o = rFabOwlsize then 10
  else if o = rDbgMoncfg then 115200
  else if 0x900110 ≤ o ∧ o < 0x900200 then
    let (fl, mu, ab, k, ac) := trendReset ((o - 0x900100) / 16)
    (if o % 16 = 0 then fl else if o % 16 = 4 then ab else if o % 16 = 8 then mu + 256 * k + 4096 * ac else 0)
  else if 0x1000000 ≤ o ∧ o < 0x2000000 then
    -- SLEEP of a tile (bit 3), of an SLV and of a UE (bit 2), Tables 2.8, 7.8, 8.12
    (if o % 0x10000 = 0 then
       (if o % 0x200000 < 0x120000 then 8 else if 0x180000 ≤ o % 0x200000 ∧ o % 0x200000 < 0x1E0000 then 4 else 0)
     else 0)
  else 0

end Sys2Proof.Machine
end

