-- ==== Sys2Proof/Machine/TileState.lean ====
section
/-! DEFINITION. The state of one logical tile: queues, tokens, descriptor banks, instructions in flight, weight buffers
(02_tiles, 04_matrix_engine), and of the HBM request machinery (10_memory_system). -/

namespace Sys2Proof.Machine

/-- A 128-bit tile instruction word (R26). -/
abbrev W128 := BitVec 128

/-- A token (R23): its value for every cycle after `pcyc`, less the signals made in cycle `pcyc`, which count from the next. -/
structure Tok where
  val : Nat := 0
  pcyc : Nat := 0
  pend : Nat := 0
  deriving DecidableEq, Repr

/-- A weight buffer (R74): mode, k, n, group size, weight codes in linear order (reduction axis innermost), group scales. -/
structure WBuf where
  mode : Nat
  k : Nat
  n : Nat
  g : Nat
  codes : List W64
  scales : List W64
  deriving DecidableEq, Repr

/-- TOUCHED and the 20-bit pass counter of a tile row (R82). -/
structure RowSt where
  touched : Bool := false
  count : Nat := 0
  deriving DecidableEq, Repr

/-- The bits of one element to store: bit address (8 × byte address + bit), width, value. -/
structure BitW where
  addr : Nat
  w : Nat
  v : Nat
  deriving DecidableEq, Repr

/-- One element to move: bit addresses of destination and source, width. -/
structure Move where
  dst : Nat
  src : Nat
  w : Nat
  deriving DecidableEq, Repr

/-- What an instruction does when it retires, in order. -/
inductive Eff where
  /-- store bits -/
  | bits (b : BitW)
  /-- a pass of the array, or a column reduction, into a tile row (R82): with or without CLR, the lanes it adds into -/
  | rowPass (row : Nat) (clr : Bool) (lanes : List Nat)
  /-- comb_add (R81) of a tree result into the cell at a byte address; CLR writes it (R83) -/
  | add (cell : Nat) (wide : Bool) (lane : Nat) (t : W64) (clr : Bool)
  /-- TOUCHED and counter of a row cleared (R82) -/
  | rowClear (row : Nat)
  /-- TOUCHED and counter of a row set (R97) -/
  | rowSet (row : Nat) (st : RowSt)
  /-- lane flags raised by the array or the chain before any comb add -/
  | lane (lane : Nat) (fl : Flags)
  /-- the flag vector of R70: 256 words at a byte address; with the number of lanes folded onto each word -/
  | flagVec (addr : Nat)
  deriving DecidableEq, Repr

/-- The work a held instruction waits for. -/
inductive Wait where
  /-- nothing beyond its release tick -/
  | none
  /-- HBM lines or squirrel accesses still to complete -/
  | hbm
  /-- packets still to be answered -/
  | packets
  /-- the fence of R306: place and issued count at the snapshot -/
  | fence (snap : List (Nat × Nat))
  /-- the fence of R307, then the COUNT update and NOTIFY of an object -/
  | release (obj : Nat) (snap : List (Nat × Nat)) (sent : Bool)
  /-- R308 -/
  | acquire (obj : Nat)
  /-- a combine (R97), a dispatched job, or a collective -/
  | unit
  deriving DecidableEq, Repr

/-- An issued instruction that has not retired (R22, R35). -/
structure InFl where
  seq : Nat
  q : Nat
  word : W128
  issue : Nat
  due : Nat
  held : Bool := false
  fin : Bool := true
  failed : Bool := false
  wait : Wait := .none
  flags : Flags := 0#16
  effs : List Eff := []
  pend : Nat := 0
  moves : List Move := []
  got : List (Nat × List Byte) := []
  deriving DecidableEq, Repr

/-- An entry of a destination table (R305): packets issued to a place and answered from there; of these, the stores, float adds
and posted adds that a fence covers (R306). -/
structure Dest where
  place : Nat
  issued : Nat := 0
  acked : Nat := 0
  fIssued : Nat := 0
  fAcked : Nat := 0
  deriving DecidableEq, Repr

/-- One logical tile. -/
structure Tile where
  mxq : List W128 := []
  scq : List W128 := []
  dmq : List W128 := []
  syq : List W128 := []
  toks : SMap Tok := []
  descA : SMap (List Byte) := []
  descB : SMap (List Byte) := []
  bank : Nat := 0
  infl : List InFl := []
  seq : Nat := 0
  launch : Option Nat := none
  start : Nat := 0
  running : Bool := false
  stopped : Bool := false
  ended : Bool := false
  clocks : Nat := 0
  wact : Option WBuf := none
  wshadow : Option WBuf := none
  actUse : Nat := 0
  shadUse : Nat := 0
  passFree : Nat := 0
  loadRet : Nat := 0
  combRet : List (Nat × Nat × Nat) := []
  passRet : List (Nat × Nat × Nat) := []
  qfree : SMap Nat := []
  scFree : Nat := 0
  rows : SMap RowSt := []
  dests : List Dest := []
  deriving DecidableEq, Repr

/-- Who asked for an access, a packet or a job. -/
inductive Who where
  | tile (t seq : Nat)
  | core (k : Nat)
  | post (k place : Nat)
  | slv (s : Nat)
  | ue (u : Nat)
  | swarm (op : Nat)
  | host (id : Nat)
  | den
  | firmware
  | proto (op : Nat)
  | scrub
  | gate (id : Nat)
  | job (id : Nat)
  | prep (launch : Nat)
  | repair (id : Nat)
  | owl
  deriving DecidableEq, Repr

/-- An atomic operation of the stack base die (R248): fetch-add, compare-and-swap, float adds of binary64 or binary32 elements. -/
inductive Atom where
  | add (v : Nat)
  | cas (cmp new : Nat)
  | fadd (wide : Bool) (bs : List Byte)
  deriving DecidableEq, Repr

/-- A request in a regulator queue (R243): its address, how many bytes, the bits it writes (none: a read), squirrel or line, who
asked, the atomic it is; `chg` for traffic of an engine that takes its turn and its tokens here and whose data the engine
moves. -/
structure HbmReq where
  line : Nat
  bytes : Nat
  wr : List BitW
  sq : Bool
  who : Who
  atom : Option Atom := none
  chg : Bool := false
  deriving DecidableEq, Repr

/-- A passed access whose data or acceptance has not been delivered (R245). -/
structure HbmDone where
  line : Nat
  bytes : Nat
  data : List Byte
  rd : Bool
  sq : Bool
  who : Who
  tick : Nat
  bad : Bool := false
  atom : Bool := false
  deriving DecidableEq, Repr

/-- A write-combining entry (R246): line address, bytes held, tick of allocation. -/
structure WcEntry where
  line : Nat
  mask : BitVec 64
  tick : Nat
  deriving DecidableEq, Repr

end Sys2Proof.Machine
end

