-- ==== Sys2Proof/Machine/FabricState.lean ====
section
/-! DEFINITION. The state of the fabric side and of the host side: stream contexts, packets outstanding, ports
(12_fabric_semantics, 13_routing_and_machine); operations, plans, launches and the ledger (11, 16). -/

namespace Sys2Proof.Machine

/-- A stream context (R294). `stall` is the tick at which RXBASE last advanced (R295). -/
structure Ctx where
  peer : Nat := 0
  pctx : Nat := 0
  txseq : Nat := 0
  rxbase : Nat := 0
  rxmap : BitVec 256 := 0#256
  stall : Nat := 0
  deriving DecidableEq, Repr

/-- A packet formed by this package that has not been answered (R297, R298). `sent` is the start of its last sending slot,
`due` the tick from which it is to be resent, `ready` whether its data is ready. -/
structure OutPkt where
  ctx : Nat
  seq : Nat
  bytes : List Byte
  who : Who
  opn : Bool
  sent : Option Nat := none
  due : Option Nat := none
  resends : Nat := 0
  rto : Nat := 12500
  rlim : Nat := 8
  port : Nat := 0
  ready : Bool := true
  again : Bool := false
  sso : Option Nat := none
  dead : Bool := false
  deriving DecidableEq, Repr

/-- What a new request packet carries beside its context fields. -/
structure Req where
  ty : Nat
  daddr : Nat
  len : Nat := 0
  payload : List Byte := []
  op0 : Nat := 0
  op1 : Nat := 0
  dso : Option Nat := none
  sso : Option Nat := none
  deriving DecidableEq, Repr

/-- A retained response (R299): the request's context and sequence number and the response packet. -/
structure Resp where
  rctx : Nat
  rseq : Nat
  pkt : OutPkt
  deriving DecidableEq, Repr

/-- A packet on the wire side: the port, the bytes, the hop count of R320, the tick and whether a flit of it is poisoned (R321). -/
structure Wire where
  port : Nat
  bytes : List Byte
  hops : Nat
  tick : Nat
  poison : Bool := false
  via : Option Nat := none
  deriving DecidableEq, Repr

/-- A port's own state beside its registers: negotiated protocol level, a lane replacement in progress (frame boundary F,
failing lane, spare lane, next step), open-class credit, flits held in its own open-class buffer and flits of credit that it has
returned, owl counter, scheduled arrivals in transit in their order, flits of the
current slot, the start of the last slot that was run, plus 1, lanes on spare lanes, the last LINK_STATE packet. -/
structure Port where
  level : Nat := 0
  swap : Option (Nat × Nat × Nat × Nat) := none
  credit : Nat := 256
  held : Nat := 0
  back : Nat := 0
  owl : Nat := 0
  transit : List Wire := []
  slot : Nat := 0
  used : Nat := 0
  ans : Nat := 0
  wgSent : Bool := false
  ran : Nat := 0
  lane : List (Nat × Nat) := []
  link : List Byte := []
  deriving DecidableEq, Repr

/-- A plan in the store (R40). -/
structure Plan where
  base : Nat
  len : Nat
  deriving DecidableEq, Repr

/-- A descriptor in flight (R397), or a member's part of a launch (R282). -/
structure Op where
  id : Nat
  sq : Nat
  cq : Nat
  tag : Nat
  desc : List Byte
  arrival : Nat
  begun : Bool := false
  fromRing : Bool := true
  deriving DecidableEq, Repr

/-- What a ledger entry is held for. -/
inductive Claimant where
  | launch (id : Nat)
  | den (window : Nat)
  | restore (op : Nat)
  | test (id : Nat)
  | spare (id : Nat)
  deriving DecidableEq, Repr

/-- A ledger entry (R272): half-open interval and the resources claimed. -/
structure Ledger where
  who : Claimant
  start : Nat
  stop : Nat
  tiles : Nat
  slvs : Nat
  ues : Nat
  hbm : Nat := 0
  groups : List Nat := []
  ports : List Nat := []
  deriving DecidableEq, Repr

/-- A launch from its acceptance to its completion (R273, R279, R45). `bases` are the TXSEQ values at L (Table 12.7); `causes` its own
recorded failures, `told` those that abandonment notices brought (R10, R283), each with its count. `outs` are the byte ranges
that it has written (R9). -/
structure Launch where
  id : Nat
  op : Nat
  plan : Nat
  L : Nat
  C : Nat := 0
  D : Nat
  prep : Nat
  wc : Nat
  tiles : Nat
  slvs : Nat
  ues : Nat
  rmask : Nat
  multi : Bool := false
  root : Bool := false
  group : Nat := 0
  nmem : Nat := 1
  member : Nat := 0
  sobj : Nat := 0
  resp : Nat := 0
  committed : Bool := false
  prepped : Bool := false
  running : Bool := false
  causes : List (Nat × Nat) := []
  told : List (Nat × Nat) := []
  outs : List (Nat × Nat) := []
  flags : Flags := 0#16
  notConv : Bool := false
  work : Nat := 0
  ports : List Nat := []
  bases : List (Nat × Nat) := []
  sent : List Nat := []
  closed : Bool := false
  restore : Bool := false
  rrec : List Byte := []
  hdr : List Byte := []
  found : Nat := 0
  slotSel : Nat := 0
  report : Nat := 0
  refused : Option (Nat × Nat) := none
  deriving DecidableEq, Repr

/-- A placed self-test (kinds 1 to 6, Table 16.7), calibration (0x10) or spare action (0x20 tile, 0x21 SLV, 0x22 UE, 0x23
scratchpad row, 0x24 HBM row, 0x25 HBM lane, 0x26 laser; R278, R456). Its claims are those of a ledger entry. `unit` is what it
acts on, `aux` the row or line, `req` the tick of the request, `stage` how far a live test has come, `warned`
whether the spare that serves during it has warned. -/
structure Placed where
  id : Nat
  kind : Nat
  unit : Nat
  dur : Nat
  deadline : Nat
  req : Nat
  start : Nat := 0
  aux : Nat := 0
  op : Option Nat := none
  mon : Bool := false
  started : Bool := false
  stage : Nat := 0
  spare : Nat := 0
  tiles : Nat := 0
  slvs : Nat := 0
  ues : Nat := 0
  groups : List Nat := []
  ports : List Nat := []
  warned : Bool := false
  deriving DecidableEq, Repr

end Sys2Proof.Machine
end

