-- ==== Sys2Proof/Machine/UnitState.lean ====
section
/-! DEFINITION. The state of forager and keeper cores (09_cores), of dispatched solver and update-engine jobs (07_solver_engines,
08_update_engine). -/

namespace Sys2Proof.Machine

/-- A fabric answer that a core waits for: the old value of a word into an integer register; or the old value of a binary64 float
add into a floating-point register, which is made by a load and compare-and-swaps: the context, the address, the addend, the value
last seen. -/
inductive Await where
  | old (rd : Nat)
  | fsum (rd cx addr : Nat) (v : W64) (seen : Option W64)
  deriving DecidableEq, Repr

/-- One forager or keeper core. Cores 0–127 are the foragers of the logical tiles, 128–191 those of the processor dies, 192–199
the keepers, 200–215 the foragers of the spare tiles, two of each AD. `code` is the fetchable range: memory address and length. The caches are lists of lines, most recently used
first, by set. `waiting` is a `SYS.WAITANY` in progress: register and mask; `answer` a fabric answer awaited. `stored`
are its slice stores of the current tile cycle, newest first, with the cycle. `asked` are the HBM requests that the instruction at the pc waits for, `grant` what they brought: address, bytes, whether the line is
uncorrectable. -/
structure Core where
  pc : Nat := 0
  xs : SMap W64 := []
  vs : SMap (BitVec 512) := []
  fs : SMap W64 := []
  qs : SMap (BitVec 512) := []
  sew : Nat := 3
  grp : Nat := 0
  vl : Nat := 0
  qsel : Nat := 0
  fflags : Flags := 0#16
  watchA : SMap W64 := []
  watchT : SMap W64 := []
  sched : Bool := false
  awake : Bool := false
  waking : Option Nat := none
  waiting : Option (Nat × Nat) := none
  answer : Option Await := none
  asked : Nat := 0
  grant : List (Nat × List Byte × Bool) := []
  stored : List (Nat × Nat × List Byte) := []
  codeAt : Nat := 0
  codeLen : Nat := 0
  icache : SMap (List Nat) := []
  dcache : SMap (List (Nat × List Byte)) := []
  deriving DecidableEq, Repr

/-- An exception of service-mode code or of a keeper, raised to keeper firmware (R229, R310). -/
structure CoreExc where
  core : Nat
  subcause : Nat
  pc : Nat
  deriving DecidableEq, Repr

/-- An open loop of a sparse program (R174): index of the LOOP step, tick of its first iteration, iteration, iteration limit,
ticks an iteration, CONV, complete iterations, met by TEST. -/
structure LoopSt where
  at_ : Nat
  base : Nat
  iter : Nat
  limit : Nat
  span : Nat
  conv : Bool
  met : Bool
  deriving DecidableEq, Repr

/-- A pivot replacement (R171): problem or supernode, elimination index, original value. -/
structure PivEv where
  prob : Nat
  k : Nat
  v : W64
  deriving DecidableEq, Repr

/-- A sparse program in progress (R172 to R178). -/
structure Sparse where
  pc : Nat := 0
  slots : SMap W64 := []
  loops : List LoopSt := []
  free : Nat := 0
  convIter : Nat := 0
  convRun : Bool := false
  convMet : Bool := false
  resid : W64 := 0#64
  nofactor : Bool := false
  breakdown : Bool := false
  piv : List PivEv := []
  waitSum : Bool := false
  loc : W64 := 0#64
  group : Nat := 0
  tick : Nat := 0
  sumDt : Nat := 0
  ended : Bool := false
  deriving DecidableEq, Repr

/-- What a step of a sparse program leaves: its stores, slots and program position, flags, pivot events, packets to send with their
contexts. -/
structure StepOut where
  ws : List BitW := []
  sp : Sparse
  fl : Flags := 0#16
  piv : List PivEv := []
  sends : List (Nat × Req) := []
  deriving DecidableEq, Repr

/-- A dispatched SV or UP job (R154, R181). `writes`, in the order in which its work makes them, become visible when it ends; `staged` is the outcome of the step that runs, and
the cycle in which it ends; `late` the cycle of the last HBM request or sum that it waited for. -/
structure Job where
  id : Nat
  ue : Bool
  unit : Nat
  tile : Nat
  seq : Nat
  launch : Nat
  op : Nat
  idx : Nat
  s : Nat
  wc : Nat
  issued : Nat
  arrived : Bool := false
  running : Bool := false
  began : Nat := 0
  ends : Nat := 0
  writes : List (List BitW) := []
  flags : Flags := 0#16
  piv : Nat := 0
  longs : Nat := 0
  kept : Nat := 0
  skip : Bool := false
  sum : Option W64 := none
  failed : Bool := false
  closed : Bool := false
  wpulls : Nat := 0
  staged : Option (StepOut × Nat) := none
  late : Nat := 0
  sparse : Sparse := {}
  deriving DecidableEq, Repr

end Sys2Proof.Machine
end

