-- ==== Sys2Proof/Machine/BootState.lean ====
section
/-! DEFINITION. What the package store, the security element and the pins hold (18_startup_power_security, 20_package_and_signals). -/

namespace Sys2Proof.Machine

/-- The package store (R443) and the security element. `log` holds the event-log entries that survive power loss
(R463), `next` the record being written (R465). -/
structure Store where
  imgA : Option Image := none
  imgB : Option Image := none
  copies : List CfgRec := []
  bootCnt : Nat := 0
  retired : Bool := false
  training : Bool := false
  rollback : Nat := 0
  advances : Nat := 0
  next : Option CfgRec := none
  idhash : List Byte := []
  log : List (List Byte) := []
  deriving DecidableEq, Repr

/-- An image transfer over the management bus or MGMT packets (R480): its source, its state (0 idle, 1 receiving, 3 written,
4 refused), the tick of its last write, the bytes received; `busRef`: the bus's own transfer was refused. -/
structure Transfer where
  bus : Bool := true
  state : Nat := 0
  last : Nat := 0
  bytes : SMap Byte := []
  busRef : Bool := false
  deriving DecidableEq, Repr

/-- The pins and what lies behind them (20_package_and_signals). `tapIr` is the test port's instruction: 0 BYPASS, 1 IDCODE,
2 SAMPLE/PRELOAD, 3 EXTEST, 4 CLAMP, 5 HIGHZ, 0x80 to 0xFE as they stand; `cells` the boundary register, cell i from TDI in
bit i; `tapOut` what the port shifted out last. `baudNext` is a rate and the tick from which it applies. `sensors` are the dies whose
sensor reads open. `smb`: 0 no fault of the bus, 1 a line held low, 2 SDA read high, until tick `smbAt`. `report`, `reportState`
(1 asked, 2 ready), `nonce`, `reqStatus`, `asker` belong to attestation. `wdog` are the last watchdog expiries by PD. Ticks of
`smbAt`, `txAt` and `wdog` are units of `up`. -/
structure Pins where
  resetLow : Bool := false
  tripped : Bool := false
  refLost : Bool := false
  trstLow : Bool := true
  tapIr : Nat := 1
  cells : Nat := 0
  tapOut : Nat := 0
  rxIgnored : Bool := false
  txReleased : Bool := false
  txAt : Nat := 0
  smb : Nat := 0
  smbAt : Nat := 0
  baudNext : Option (Nat × Nat) := none
  token : List Byte := []
  tokNext : Nat := 0
  sensors : List Nat := []
  report : List Byte := []
  reportState : Nat := 0
  nonce : List Byte := []
  reqStatus : Nat := 0
  asker : Option Nat := none
  monOut : List (List Byte) := []
  busOut : List (List Byte) := []
  wdog : SMap Nat := []
  wake : Option Nat := none
  deriving DecidableEq, Repr

end Sys2Proof.Machine
end

