-- ==== Sys2Proof/Machine/ServiceState.lean ====
section
/-! DEFINITION. The state of the swarm engines and waggle units (14_collectives), of the den (15_checkpoint), of the time
function (11_determinism_and_time), of the health logic (19_health_and_service), of route changes, region hand-offs and host
accesses (12, 13, 16). -/

namespace Sys2Proof.Machine

/-- What names a collective on the wire (R346, Table 14.5): group, opcode nibble, bits [31:0] of L, start offset. -/
structure Ident where
  group : Nat
  opc : Nat
  llo : Nat
  off : Nat
  deriving DecidableEq, Repr

/-- A received fragment (0 to 15) or tail (16) of a chunk, with the member that sent it. -/
structure SwPkt where
  ident : Ident
  opr : Nat
  dt : Nat
  nelem : Nat
  chunk : Nat
  src : Nat
  frag : Nat
  data : List Byte
  deriving DecidableEq, Repr

/-- A waggle value held (R359, R360): hop 0 a member's value, 1 a pod partial, 2 a relayed pod partial; `src` is the member
index, for a partial the lowest of its pod; `fl` the flags of its fold. -/
structure WgVal where
  ident : Ident
  opr : Nat
  dt : Nat
  nelem : Nat
  src : Nat
  hop : Nat
  data : List Byte
  fl : Nat
  deriving DecidableEq, Repr

/-- A chunk on this member: the partial it produced and staged, the result, whether it is delivered, pulls by source,
the sources whose pulled copy has not come. -/
structure Chunk where
  part : Option (List Byte × Nat) := none
  res : Option (List Byte × Nat) := none
  done : Bool := false
  pulls : SMap Nat := []
  owed : List Nat := []
  deriving DecidableEq, Repr

/-- A collective of this member (R343 to R364). -/
structure SwOp where
  id : Nat
  tile : Nat
  seq : Nat
  launch : Nat
  ident : Ident
  opr : Nat
  dt : Nat
  nelem : Nat
  w : Nat
  h16 : Bool
  plim : Nat
  self : Nat
  n : Nat
  da : Nat
  db : Nat
  dc : Nat
  daBytes : Nat
  started : Bool := false
  closed : Bool := false
  failed : Bool := false
  flags : Nat := 0
  chunks : SMap Chunk := []
  wpulls : Nat := 0
  deriving DecidableEq, Repr

/-- A pending change of the route bank (R324): the count S, drained ports, whether the drain has begun, descriptors to complete. -/
structure RouteSwitch where
  stop : Nat
  ports : List Nat := []
  draining : Bool := false
  ops : List (Nat × Nat) := []
  deriving DecidableEq, Repr

/-- A region hand-off in progress (R312): descriptor, region-table index, new owner, start. -/
structure Handoff where
  op : Nat
  region : Nat
  owner : Nat
  start : Nat
  deriving DecidableEq, Repr

/-- The ECL's answer to a host access (R393): the access's number, the code of Table 16.2 (0: served), the data. -/
structure HostReply where
  id : Nat
  err : Nat
  data : List Byte
  deriving DecidableEq, Repr

/-- An access of the host or of a packet that waits in the regulators' queues (R243): the command that asked, the requests that
have not been delivered, what they brought, the uncorrectable lines met. -/
structure Gate where
  id : Nat
  cmd : Instr
  left : Nat
  got : List (Nat × List Byte) := []
  bad : List Nat := []
  deriving DecidableEq, Repr

/-- A cut from its request to its commit or abandonment (R368 to R375). Phases: 0 requested, 1 header zeroed, 2 payload written,
3 header written, 4 ready for the barrier, 5 contributed, 6 commit copy 0 written, 7 commit copy 1 written, 8 quick copy made.
`shard` holds the writes of the phase that have not been issued, `header` the shard header with its extent table, `pol` the policy
record with its manifest, as armed. -/
structure Cut where
  cn : Nat
  held : Bool := false
  ops : List Nat := []
  phase : Nat := 0
  slot : Nat := 0
  drain : Bool := false
  shard : List (Nat × List Byte) := []
  header : List Byte := []
  pol : List Byte := []
  pulls : Nat := 0
  deriving DecidableEq, Repr

/-- A read of a fabric target by the den (R303): address, bytes, and what has come of it: none while it is awaited, empty when it
failed. -/
structure DenRead where
  addr : Nat
  n : Nat
  data : Option (List Byte) := none
  deriving DecidableEq, Repr

/-- The den controller: the armed policy with its manifest, the first window that it governs, windows released (by number), cuts,
whether the last launch to end failed, shard bytes written. -/
structure Den where
  pol : Option (List Byte) := none
  from_ : Nat := 0
  released : List Nat := []
  cuts : List Cut := []
  lastBad : Bool := false
  bytes : Nat := 0
  reads : List DenRead := []
  deriving DecidableEq, Repr

/-- The time function (R267 to R270): the pending probe's departure, the tick of the last completed exchange, consecutive
estimates beyond 8 ns, whether the count is to step at the next estimate, whether alignment was lost, whether PD1's manager holds
the count. Stamps are in 1/16 tick. -/
structure TimeFn where
  t1 : Option Nat := none
  last : Nat := 0
  nextAt : Nat := 0
  bad : Nat := 0
  step : Bool := true
  lost : Bool := false
  pd1 : Bool := false
  deriving DecidableEq, Repr

/-- A watched resource (R451 to R453): the source count at the window's start, the baseline, newest last, the current run. -/
structure HRes where
  last : Nat := 0
  base : List Nat := []
  run : Nat := 0
  warned : Bool := false
  deriving DecidableEq, Repr

/-- The health logic: resources by class × 2^16 + number, tick of `up` at readiness, spare actions deferred, by kind and unit. -/
structure Health where
  res : SMap HRes := []
  ready : Nat := 0
  swaps : List (Nat × Nat) := []
  deriving DecidableEq, Repr

end Sys2Proof.Machine
end

