-- ==== Sys2Proof/Machine/State.lean ====
section
/-! DEFINITION. The state of the package, the reasons a step can stop, and the state right after power-up reset. -/

namespace Sys2Proof.Machine

/-- Why the machine stops with a fault. -/
inductive Fault where
  /-- raised by no meaning of this model; the package reports its own failures in State. Safe. -/
  | none
  deriving DecidableEq, Repr

/-- Why a command has no meaning. -/
inductive Refusal where
  /-- raised only by the dispatch arms of commands that have no meaning yet. Safe: nothing is claimed of them. -/
  | notModelled (mnemonic : String)
  deriving DecidableEq, Repr

/-- The clock: the GSC count (R265) and the phase inside the tick, in units of 1/34 (H) or 1/31 (S) of a tick; a tile cycle
is 5 units (R36). `up` counts units since reset. -/
structure Clock where
  gsc : Nat := 0
  sub : Nat := 0
  up : Nat := 0
  deriving DecidableEq, Repr

/-- The configuration record in use (R443): the fields that the chapters read. `taken`: the values that change only at a power-up
(R240, R315) have been taken since the last one; `booted`: this power-up has counted in the boot count (R111); `mapIn`: the spare
map is loaded (R230). -/
structure Cfg where
  grade : Nat := 0
  ilv : Nat := 0
  radef : Nat := 0
  place : Nat := 0
  taken : Bool := false
  booted : Bool := false
  mapIn : Bool := false
  deriving DecidableEq, Repr

/-- Everything of the package but the clock and the command queue. `since` counts units since the last reset (R228). -/
structure Pkg where
  cfg : Cfg := {}
  fv : Nat := 0
  since : Nat := 0
  mem : Mem := []
  fresh : List (Nat × Nat × List Byte) := []
  host : Mem := []
  badLines : List Nat := []
  ceLines : List Nat := []
  ceOwed : List (Nat × Nat) := []
  ceCount : SMap Nat := []
  cqUsed : SMap Nat := []
  turns : SMap Nat := []
  regs : SMap W32 := []
  latch : SMap W32 := []
  punits : SMap W32 := []
  tiles : SMap Tile := []
  queues : SMap (List HbmReq) := []
  buckets : SMap Nat := []
  passed : List HbmDone := []
  gates : List Gate := []
  nextGate : Nat := 1
  wc : List WcEntry := []
  ctxs : SMap Ctx := []
  outs : List OutPkt := []
  resps : List Resp := []
  answers : List Wire := []
  wire : List Wire := []
  ports : SMap Port := []
  plans : SMap Plan := []
  ops : List Op := []
  nextOp : Nat := 1
  launches : List Launch := []
  ledger : List Ledger := []
  placed : List Placed := []
  nextPlaced : Nat := 1
  cores : SMap Core := []
  excs : List CoreExc := []
  jobs : List Job := []
  nextJob : Nat := 1
  store : Store := {}
  pins : Pins := {}
  xfer : Transfer := {}
  ctxReset : List Nat := []
  regTick : SMap Nat := []
  patrol : SMap (Nat × Nat × Nat) := []
  ceSeen : List Nat := []
  swops : List SwOp := []
  nextSw : Nat := 1
  swIn : List SwPkt := []
  wg : List WgVal := []
  rswitch : Option RouteSwitch := none
  handoffs : List Handoff := []
  hostOut : List HostReply := []
  fwd : List Wire := []
  combOut : List Byte := []
  mgmt : List (Nat × List Byte) := []
  lasers : SMap Nat := []
  repairs : SMap Nat := []
  active : Nat := 0
  protos : SMap Nat := []
  den : Den := {}
  time : TimeFn := {}
  health : Health := {}
  deriving DecidableEq, Repr

/-- The machine: the commands that wait, first in first out; the clock; the package. -/
structure State where
  pending : List Instr := []
  clk : Clock := {}
  pkg : Pkg := {}
  deriving DecidableEq, Repr

def State.reset : State := {}

end Sys2Proof.Machine
end

