-- ==== Sys2Proof/Machine/Ops.lean ====
section
/-! DEFINITION. The shared operations: registers, events and completions, tiles and launches, plan faults, the spare map. -/

namespace Sys2Proof.Machine

/-- The outcome type of a step. -/
abbrev Out := Host.Outcome State Fault Refusal

/-- A meaning that changes the package at a clock value and always goes on. -/
def run (s : State) (f : Clock → Pkg → Pkg) : Out := .next { s with pkg := f s.clk s.pkg }

/-! Registers -/

/-- The stored word at an offset of the setup window. -/
def rget (p : Pkg) (o : Nat) : Nat := (sget p.regs o (BitVec.ofNat 32 (regDefault o))).toNat

def rset (p : Pkg) (o v : Nat) : Pkg := { p with regs := sset p.regs o (BitVec.ofNat 32 v) }

/-- Bits [hi:lo] of a register. -/
def rfld (p : Pkg) (o hi lo : Nat) : Nat := bits (rget p o) hi lo

/-- A word with bits [hi:lo] replaced. -/
def setBits (w hi lo v : Nat) : Nat :=
  w % 2 ^ lo + (v % 2 ^ (hi + 1 - lo)) * 2 ^ lo + (w >>> (hi + 1)) * 2 ^ (hi + 1)

def rsetf (p : Pkg) (o hi lo v : Nat) : Pkg := rset p o (setBits (rget p o) hi lo v)

/-- One status bit. -/
def rbit (p : Pkg) (o i : Nat) : Bool := bit (rget p o) i
def rsetb (p : Pkg) (o i : Nat) (b : Bool) : Pkg := rsetf p o i i (b2n b)

/-- An event counter counts one (R421). -/
def bump (p : Pkg) (o : Nat) : Pkg := rset p o (rget p o + 1)

/-- n consecutive bytes of a table in the setup window. -/
def rbytes (p : Pkg) (o n : Nat) : List Byte :=
  ((List.range ((n + 3) / 4)).flatMap (fun i => natLe 4 (rget p (o + 4 * i)))).take n

/-- Writes a table entry's words. -/
def rsetBytes (p : Pkg) (o : Nat) (bs : List Byte) : Pkg :=
  (List.range (bs.length / 4)).foldl (fun q i => rset q (o + 4 * i) (leNat ((bs.drop (4 * i)).take 4))) p

/-! Ports (R316, R334) -/

/-- The port that serves a port number: port 127 in place of the port that `FAB.PSPARE` names. -/
def physPort (p : Pkg) (q : Nat) : Nat := if rbit p rFabPspare 7 && rfld p rFabPspare 6 0 == q then 127 else q

def portState (p : Pkg) (q : Nat) : Nat := rfld p (rFabPstate (physPort p q)) 2 0
def portUp (p : Pkg) (q : Nat) : Bool := portState p q == 2 && !p.pins.tripped

/-- The start-up stage (Table 18.2). -/
def stageOf (p : Pkg) : Nat := rfld p rGlbStatus 10 8

/-- A packet of a type may cross a port: in stage 5 only the link-local types (R330, R434). -/
def carries (p : Pkg) (q ty : Nat) : Bool := portUp p q && (stageOf p != 5 || (decide (0x30 ≤ ty) && decide (ty ≤ 0x33)))

/-- The 12 V input is valid: the always-on domain runs (R429, R440). -/
def live (p : Pkg) : Bool := rbit p rPwrStatus 1

/-! Events and the log (R408, R463) -/

/-- The entry also enters the package store (R463). -/
def storeLog (p : Pkg) (e : List Byte) : Pkg := { p with store := { p.store with log := p.store.log ++ [e] } }

/-- Writes one entry of the event log (Table 19.6); a full ring overwrites its oldest entry and counts it;
entries of codes 0x0003, 0x0104 and 0x0105 also enter the package store. -/
def logEntry (p : Pkg) (c : Clock) (code die aux value detail : Nat) : Pkg :=
  let i := rfld p rHltLoghead 11 0
  let p := if rfld p (rHltLog i + 8) 15 0 = 0 then p else bump p rHltLoglost
  let e := natLe 8 c.gsc ++ natLe 2 code ++ natLe 1 die ++ natLe 1 0 ++ natLe 4 aux ++ natLe 8 value ++ natLe 8 detail
  let p := rsetBytes p (rHltLog i) e
  let p := if code = 0x0003 ∨ code = 0x0104 ∨ code = 0x0105 then storeLog p e else p
  rset p rHltLoghead ((i + 1) % 4096)

/-- Whether an ECL port is up (R390). -/
def eclUp (p : Pkg) : Bool := rfld p rHifStatus 9 0 != 0 && !p.pins.tripped

def cqDepth (p : Pkg) (r : Nat) : Nat := 2 ^ rfld p (rCq r 8) 4 0
def sqDepth (p : Pkg) (r : Nat) : Nat := 2 ^ rfld p (rSq r 8) 4 0
def cqEn (p : Pkg) (r : Nat) : Bool := rbit p (rCq r 8) 16
def sqEn (p : Pkg) (r : Nat) : Bool := rbit p (rSq r 8) 16

/-- Free slots of a completion ring: neither written and unconsumed nor reserved (R397). -/
def cqFree (p : Pkg) (r : Nat) : Nat :=
  cqDepth p r - (sget p.cqUsed r 0 + rfld p (rCq r 0x14) 16 0)

/-- Bytes of host memory, as one more entry of completion ring r in use. -/
def hostEntry (p : Pkg) (r a : Nat) (bs : List Byte) : Pkg :=
  { p with host := mwrite p.host a bs, cqUsed := sset p.cqUsed r (sget p.cqUsed r 0 + 1) }

/-- Writes a 32-byte entry at the tail of a completion ring and moves the tail (R398, R400). -/
def cqWrite (p : Pkg) (r : Nat) (entry : Nat → List Byte) : Pkg :=
  let tail := rfld p (rCq r 0xC) 15 0
  let ph := rfld p (rCq r 0xC) 16 16
  let base := rget p (rCq r 0) + rget p (rCq r 4) * 2 ^ 32
  let nt := if tail + 1 = cqDepth p r then 0 else tail + 1
  let np := if nt = 0 then 1 - ph else ph
  let p := hostEntry p r (base + 32 * tail) (entry ph)
  rset p (rCq r 0xC) (nt + np * 2 ^ 16)

/-- Reports an event (R408): in the log always, in the event ring when it is enabled and has a free slot. -/
def event (p : Pkg) (c : Clock) (code die aux value : Nat) : Pkg :=
  let p := logEntry p c code die aux value 0
  let r := rfld p rHifEvcfg 5 0
  if rbit p rHifEvcfg 8 && eclUp p then
    if cqEn p r && decide (0 < cqFree p r) then
      cqWrite p r (fun ph => natLe 2 code ++ natLe 1 0 ++ natLe 1 (ph + 2) ++ natLe 4 0 ++ natLe 8 value ++ natLe 8 c.gsc
        ++ natLe 4 aux ++ natLe 4 0)
    else bump p rHifEvdrop
  else p

/-! Operations in flight (R397 to R401) -/

def findOp (p : Pkg) (id : Nat) : Option Op := p.ops.find? (fun o => o.id == id)

/-- An operation leaves those in flight. -/
def dropOp (p : Pkg) (id : Nat) : Pkg := { p with ops := p.ops.filter (fun x => x.id != id) }

/-- R410: HIF.SQSTAT.IDLE of a submission ring follows its operations in flight; HIF.INFLIGHT counts all. -/
def syncOps (p : Pkg) (sq : Nat) : Pkg :=
  let p := rsetb p (rSq sq 0x14) 0 (!(p.ops.any (fun o => o.fromRing && o.sq == sq)))
  rset p rHifInflight p.ops.length

/-- `TIM.LAUNCHFAIL` counts the completions with FAILED_LAUNCH. -/
def countLaunchFail (p : Pkg) (status : Nat) : Pkg := if status = 0x24 then bump p rTimLaunchfail else p

/-- The 32 bytes of a completion entry (Table 16.4); `ph` is its phase, `head` the head of the submission ring. -/
def completionEntry (o : Op) (c : Clock) (status : Nat) (flags : Flags) (value aux : Nat) (report : Bool) (head ph : Nat) : List Byte :=
  natLe 2 o.tag ++ natLe 1 status ++ natLe 1 (ph + 4 * b2n report) ++ natLe 2 flags.toNat
    ++ natLe 1 o.sq ++ natLe 1 0 ++ natLe 8 value ++ natLe 8 c.gsc ++ natLe 4 aux ++ natLe 2 head ++ natLe 2 0

/-- The entry is written while an ECL port is up (R390). -/
def writeCompletion (p : Pkg) (o : Op) (c : Clock) (status : Nat) (flags : Flags) (value aux : Nat) (report : Bool) : Pkg :=
  if eclUp p then
    cqWrite p o.cq (completionEntry o c status flags value aux report (if o.fromRing then rfld p (rSq o.sq 0xC) 15 0 else 0))
  else p

/-- Writes the completion entry of an operation into its reserved slot and ends it (R399). With both ECL ports down nothing is
written (R390). -/
def complete (p : Pkg) (c : Clock) (id status : Nat) (flags : Flags) (value aux : Nat) (report : Bool) : Pkg :=
  match findOp p id with
  | none => p
  | some o =>
    let p := dropOp p id
    let p := rset p (rCq o.cq 0x14) (rfld p (rCq o.cq 0x14) 16 0 - 1)
    syncOps (writeCompletion (countLaunchFail p status) o c status flags value aux report) o.sq

/-! The spare map (R14, R230, R470): states 0 INSVC, 1 FREE, 2 TESTING, 3 FAULTY, 4 SWAPPING -/

/-- The identity map: units that serve, and the spares that are free. -/
def punitDefault (i : Nat) : Nat :=
  if i < 256 then (if i % 32 < 16 then (i / 32 * 16 + i % 32) * 256 else if i % 32 < 18 then 1 else 0)
  else if i < 288 then (if i % 4 < 2 then ((i - 256) / 4 * 2 + i % 4) * 256 else if i % 4 < 3 then 1 else 0)
  else if i < 304 then (if i % 2 < 1 then ((i - 288) / 2) * 256 else 1)
  else if i < 312 then (if (i - 304) % 4 < 3 then ((i - 304) / 4 * 3 + (i - 304) % 4) * 256 else 1)
  else 0

/-- The indices of `HLT.PUNIT` (R470). -/
def punitIndices : List Nat :=
  (List.range 312).filter (fun i =>
    if i < 256 then decide (i % 32 < 18) else if i < 288 then decide (i % 4 < 3) else true)

def punit (p : Pkg) (i : Nat) : Nat := (sget p.punits i (BitVec.ofNat 32 (punitDefault i))).toNat
def setPunit (p : Pkg) (i state lunit : Nat) : Pkg :=
  { p with punits := sset p.punits i (BitVec.ofNat 32 (state + 256 * lunit)) }
def unitState (p : Pkg) (i : Nat) : Nat := bits (punit p i) 2 0
def unitLogical (p : Pkg) (i : Nat) : Nat := bits (punit p i) 14 8

/-- The physical unit, by `HLT.PUNIT` index, that serves a logical unit: search over candidate indices. -/
def serving (p : Pkg) (cands : List Nat) (l : Nat) : Option Nat :=
  cands.find? (fun i => unitState p i == 0 && unitLogical p i == l)

def tileCands (t : Nat) : List Nat := (List.range 18).map (fun k => t / 16 * 32 + k)
def slvCands (s : Nat) : List Nat := (List.range 3).map (fun k => 256 + s / 2 * 4 + k)
def ueCands (u : Nat) : List Nat := (List.range 2).map (fun k => 288 + u * 2 + k)

/-- Physical tile n × 32 + p serving a logical tile; a tile without service answers with a number no unit has. -/
def physTile (p : Pkg) (t : Nat) : Nat := (serving p (tileCands t) t).getD 0xFF
def physSlv (p : Pkg) (s : Nat) : Nat := ((serving p (slvCands s) s).map (fun i => i - 256)).getD 0xFF
def physUe (p : Pkg) (u : Nat) : Nat := ((serving p (ueCands u) u).map (fun i => i - 288)).getD 0xFF

/-- Register base of the physical tile that serves logical tile t. -/
def tReg (p : Pkg) (t : Nat) : Nat := rTile (physTile p t)
def sReg (p : Pkg) (s : Nat) : Nat := rSlv (physSlv p s)
def uReg (p : Pkg) (u : Nat) : Nat := rUe (physUe p u)

/-! Memory map (R288) -/

def sliceBase (t : Nat) : Nat := 0x200000000000 + t * 0x4000000
def combBase (t : Nat) : Nat := 0x210000000000 + t * 0x800000
def syncBase (i : Nat) : Nat := 0x220000000000 + 64 * i
/-- Where this model keeps the panel store of a logical SLV (no address of the local map). -/
def panelBase (s : Nat) : Nat := 0x3E0000000000 + s * 0x1000000
def hbmUserEnd : Nat := 0x01FC00000000
def hbmEnd : Nat := 0x020000000000
def isHbm (a : Nat) : Bool := a < hbmEnd
/-- Slices 0 to 127 are those of the logical tiles; 128 to 143, beyond the local map, those of the spare tiles, two of each AD. -/
def isSlice (a : Nat) : Bool := 0x200000000000 ≤ a && a < 0x200240000000

/-- Bits at a bit address. -/
def rdBits (m : Mem) (a w : Nat) : Nat := (mnat m (a / 8) ((a % 8 + w + 7) / 8) >>> (a % 8)) % 2 ^ w

/-- One element stored. -/
def applyW (m : Mem) (b : BitW) : Mem :=
  if b.addr % 8 = 0 ∧ b.w % 8 = 0 then mwrite m (b.addr / 8) (natLe (b.w / 8) b.v)
  else
    let n := (b.addr % 8 + b.w + 7) / 8
    let old := mnat m (b.addr / 8) n
    mwrite m (b.addr / 8) (natLe n (setBits old (b.addr % 8 + b.w - 1) (b.addr % 8) b.v))

def applyWs (m : Mem) (l : List BitW) : Mem := l.foldl applyW m

/-- Bytes as one store. -/
def bytesW (a : Nat) (bs : List Byte) : BitW := { addr := 8 * a, w := 8 * bs.length, v := leNat bs }

/-! Tiles -/

def tile (p : Pkg) (t : Nat) : Tile := sget p.tiles t {}
def setTile (p : Pkg) (t : Nat) (x : Tile) : Pkg := { p with tiles := sset p.tiles t x }
def modTile (p : Pkg) (t : Nat) (f : Tile → Tile) : Pkg := setTile p t (f (tile p t))

def Tile.queue (x : Tile) (q : Nat) : List W128 :=
  if q = 0 then x.mxq else if q = 1 then x.scq else if q = 2 then x.dmq else x.syq
def Tile.setQueue (x : Tile) (q : Nat) (l : List W128) : Tile :=
  if q = 0 then { x with mxq := l } else if q = 1 then { x with scq := l } else if q = 2 then { x with dmq := l }
  else { x with syq := l }

/-- A token's value for waits in cycle c (R23). -/
def Tile.tokAt (x : Tile) (n c : Nat) : Nat :=
  let k := sget x.toks n {}
  if c > k.pcyc then k.val + k.pend else k.val

/-- A wait takes one. -/
def Tile.takeTok (x : Tile) (n c : Nat) : Tile :=
  if n = 0 then x
  else
    let k := sget x.toks n {}
    let k := if c > k.pcyc then { val := k.val + k.pend, pcyc := c, pend := 0 } else k
    { x with toks := sset x.toks n { k with val := k.val - 1 } }

/-- A signal in cycle c; none when the token would pass 255 (R25). -/
def Tile.signalTok (x : Tile) (n c : Nat) : Option Tile :=
  if n = 0 then some x
  else
    let k := sget x.toks n {}
    let k := if c > k.pcyc then { val := k.val + k.pend, pcyc := c, pend := 0 } else k
    if k.val + k.pend ≥ 255 then none else some { x with toks := sset x.toks n { k with pend := k.pend + 1 } }

/-- The 64 bytes of a descriptor slot of a bank. -/
def Tile.descBytes (x : Tile) (bank slot : Nat) : List Byte :=
  sget (if bank = 0 then x.descA else x.descB) slot (List.replicate 64 0#8)
def Tile.setDesc (x : Tile) (bank slot : Nat) (bs : List Byte) : Tile :=
  if bank = 0 then { x with descA := sset x.descA slot bs } else { x with descB := sset x.descB slot bs }

/-! Time of a launch (R35, R36) -/

/-- Units a tick: 34 at H grade, 31 at S grade; a tile cycle is 5. -/
def tickUnits (p : Pkg) : Nat := if p.cfg.grade = 0 then 34 else 31

/-- The clock one unit later; it stands while the 12 V input is not valid (R440). -/
def tickOn (p : Pkg) (c : Clock) : Clock :=
  if !live p then c
  else if c.sub + 1 < tickUnits p then { c with sub := c.sub + 1, up := c.up + 1 }
  else { gsc := (c.gsc + 1) % 2 ^ 64, sub := 0, up := c.up + 1 }

/-- What the package counts in a unit of time. -/
def tickPkg (p : Pkg) : Pkg := if live p then { p with since := p.since + 1 } else p

/-- The current tile cycle of a launch that started at tick L. -/
def cycleOf (p : Pkg) (c : Clock) (L : Nat) : Nat := ((c.gsc - L) * tickUnits p + c.sub) / 5

/-- The first tile cycle that begins at or after tick L + t. -/
def cycleAt (p : Pkg) (t : Nat) : Nat := cdiv (tickUnits p * t) 5

/-- The tile cycle by which the writes and reads of one cycle are told from those of others (R33). Launch counts are multiples of
5 (R36), so the cycles of all launches coincide. -/
def cycleKey (p : Pkg) (c : Clock) : Nat := (c.gsc * tickUnits p + c.sub) / 5

/-- The old contents of scratchpad bytes are kept for the rest of the cycle in which a write to them retires (R33); `fresh` holds
them newest first. -/
def keepOld (p : Pkg) (c : Clock) (ranges : List (Nat × Nat)) : Pkg :=
  let k := cycleKey p c
  let old := (ranges.filter (fun r => isSlice r.1)).map (fun r => (k, r.1, mread p.mem r.1 r.2))
  { p with fresh := old.reverse ++ p.fresh.filter (fun e => e.1 == k) }

/-- The kept contents that a read issued now returns. -/
def freshNow (p : Pkg) (c : Clock) : List (Nat × Nat × List Byte) :=
  match p.fresh with
  | [] => []
  | l => l.filter (fun e => e.1 == cycleKey p c)

/-- Memory as a read that issues in this cycle finds it (R33). -/
def oldView (p : Pkg) (c : Clock) : Mem := (freshNow p c).foldl (fun m e => mwrite m e.2.1 e.2.2) p.mem

/-- What was made from the old view of p: the bytes written in this cycle stand again. -/
def newView (p : Pkg) (c : Clock) (q : Pkg) : Pkg :=
  { q with mem := (freshNow p c).foldl (fun m e => mwrite m e.2.1 (mread p.mem e.2.1 e.2.2.length)) q.mem }

/-- Ticks from L to the start of a tile cycle, in units. -/
def cycleUnits (cyc : Nat) : Nat := 5 * cyc

/-! Launches -/

def findLaunch (p : Pkg) (id : Nat) : Option Launch := p.launches.find? (fun l => l.id == id)
def modLaunch (p : Pkg) (id : Nat) (f : Launch → Launch) : Pkg :=
  { p with launches := p.launches.map (fun l => if l.id == id then f l else l) }

/-- Records a failure cause of a launch (R10, R37): GSC count and status. -/
def addCause (p : Pkg) (c : Clock) (id status : Nat) : Pkg :=
  modLaunch p id (fun l => { l with causes := l.causes ++ [(c.gsc, status)] })

/-- R10: the cause detected first in GSC order, the lowest code among equals. -/
def firstCause : List (Nat × Nat) → Option (Nat × Nat)
  | [] => none
  | (g, s) :: r =>
    match firstCause r with
    | none => some (g, s)
    | some (g', s') => if g < g' ∨ (g = g' ∧ s ≤ s') then some (g, s) else some (g', s')

/-- ORs a flag word into a launch (R69). -/
def addFlags (p : Pkg) (id : Nat) (f : Flags) : Pkg := modLaunch p id (fun l => { l with flags := l.flags ||| f })

/-- Byte ranges that a launch has written (R9). -/
def noteOuts (p : Pkg) (l : Option Nat) (ranges : List (Nat × Nat)) : Pkg :=
  match l with
  | none => p
  | some id => modLaunch p id (fun l => { l with outs := l.outs ++ ranges.filter (fun r => !l.outs.contains r) })

/-- Counts dispatched work of a launch that has not retired (R45). -/
def addWork (p : Pkg) (id : Nat) (d : Int) : Pkg :=
  modLaunch p id (fun l => { l with work := ((l.work : Int) + d).toNat })

/-- A tile stops: it issues nothing further (R37, R47). -/
def stopTile (p : Pkg) (t : Nat) : Pkg := modTile p t (fun x => { x with stopped := true })

/-- A plan fault (R47): the tile stops, TILE.FAULT and TILE.FAULTCYC are written, TILE.STATUS.FAULT is set, the launch takes
the cause FAILED_HARDWARE and the log a PLAN_FAULT entry. `detail` holds the bits of DETAIL other than cause, tile and cycle. -/
def planFault (p : Pkg) (c : Clock) (t cause q slot detail : Nat) : Pkg :=
  let x := tile p t
  let r := tReg p t
  let cyc := cycleOf p c x.start % 2 ^ 32
  let p := stopTile p t
  let p := rset p (r + 8) (cause + q * 2 ^ 8 + slot * 2 ^ 16)
  let p := rset p (r + 0xC) cyc
  let p := rsetb p r 2 true
  let p := match x.launch with
    | some l => addCause p c l 0x20
    | none => p
  logEntry p c 0x0101 (t / 16) 0 0 (cause + t * 2 ^ 16 + detail + cyc * 2 ^ 32)

/-! Line errors (R236, R251, R252) -/

def lineOf (a : Nat) : Nat := a / 64 * 64

/-- The lines that n bytes at an address touch. -/
def linesOf (a n : Nat) : List Nat :=
  if n = 0 then [] else (List.range ((a + n - 1) / 64 - a / 64 + 1)).map (fun i => lineOf a + 64 * i)

/-- The stack and in-stack address of an HBM offset (Table 10.1). -/
def stackOf (p : Pkg) (o : Nat) : Nat :=
  if p.cfg.ilv = 0 then bits o 16 12 else 4 * bits o 40 38 + bits o 13 12
def inStack (p : Pkg) (o : Nat) : Nat :=
  if p.cfg.ilv = 0 then bits o 40 17 * 4096 + o % 4096 else bits o 37 14 * 4096 + o % 4096

/-- AD and physical tile of slice or comb memory t: a logical tile's, or a spare tile's. -/
def homeOf (p : Pkg) (t : Nat) : Nat × Nat :=
  if t < 128 then (t / 16, physTile p t % 32)
  else
    let n := (t - 128) / 2
    (n, (((List.range 18).filter (fun k => !(unitState p (32 * n + k) == 0))).getD (t % 2) (16 + t % 2)))

/-- The kind of memory at a model address (Table 10.11): 1 HBM, 2 scratchpad, 3 comb, 4 panel store; its AD, physical unit
and offset. -/
def memKind (p : Pkg) (a : Nat) : Nat × Nat × Nat × Nat :=
  if isHbm a then (1, 0, 0, a)
  else if isSlice a then
    let t := (a - 0x200000000000) / 0x4000000
    (2, (homeOf p t).1, (homeOf p t).2, a % 0x4000000)
  else if a < 0x220000000000 then
    let t := (a - 0x210000000000) / 0x800000
    (3, (homeOf p t).1, (homeOf p t).2, a % 0x800000)
  else
    let s := (a - 0x3E0000000000) / 0x1000000
    (4, s / 2, physSlv p s % 4, a % 0x1000000)

/-- An uncorrectable line read (R252): counted, located in MEM.ERRA to ERRC and in the log. -/
def noteUe (p : Pkg) (c : Clock) (line : Nat) : Pkg :=
  let (kind, ad, unit, off) := memKind p line
  let p := if kind = 1 then bump p (rMemUe (stackOf p line)) else bump p rMemSramue
  let a := off % 2 ^ 32
  let b := if kind = 1 then 1 + stackOf p line * 2 ^ 8 + bits line 11 6 * 2 ^ 13 else kind + ad * 2 ^ 19 + unit * 2 ^ 22
  let d := if kind = 1 then off / 2 ^ 32 else 0
  let p := rset (rset (rset p rMemErrA a) rMemErrB b) rMemErrC d
  logEntry p c 0x0103 (if kind = 1 then 16 + stackOf p line else ad) 0 d (a + b * 2 ^ 32)

/-! Regulator queues (R243) -/

def qKey (stack part : Nat) : Nat := stack * 16 + part

def enqueue (p : Pkg) (part : Nat) (r : HbmReq) : Pkg :=
  let k := qKey (stackOf p r.line) part
  { p with queues := sset p.queues k (sget p.queues k [] ++ [r]) }

def enqueueAll (p : Pkg) (part : Nat) (rs : List HbmReq) : Pkg := rs.foldl (fun q r => enqueue q part r) p

/-- The corrected line of a demand read still waits for its rewrite. -/
def ceWaits (p : Pkg) (line : Nat) : Bool := p.ceOwed.any (fun e => e.1 == line)

/-- A correctable line read (R251): counted; a static line, and an HBM line whose rewrite has landed, count every time. The rewrite
of an HBM line is owed, as a whole-line write in partition 3; `ceOwed` holds the ticks that have passed since. -/
def noteCe (p : Pkg) (line : Nat) : Pkg :=
  let (kind, ad, unit, _) := memKind p line
  if kind = 1 then
    if ceWaits p line then p
    else
      let p := enqueue p 3 { line := line, bytes := 64, wr := [{ addr := 8 * line, w := 512, v := 0 }], sq := false, who := .repair line, chg := true }
      bump { p with ceOwed := (line, 0) :: p.ceOwed, ceSeen := line :: p.ceSeen } (rMemCe (stackOf p line))
  else
    let k := if kind = 4 then 0x4000 + ad * 4 + unit else 0x3000 + ad * 32 + unit
    bump { p with ceCount := sset p.ceCount k (sget p.ceCount k 0 + 1), ceSeen := line :: p.ceSeen } rMemSramce

/-- The first uncorrectable line among those that the ranges touch. -/
def firstBad (p : Pkg) (ranges : List (Nat × Nat)) : Option Nat :=
  if p.badLines.isEmpty then none
  else ranges.findSome? (fun r => (linesOf r.1 r.2).find? (fun l => p.badLines.contains l))

/-- Counts the correctable lines that the ranges touch. -/
def noteCes (p : Pkg) (ranges : List (Nat × Nat)) : Pkg :=
  if p.ceLines.isEmpty then p
  else (ranges.flatMap (fun r => linesOf r.1 r.2)).foldl (fun q l => if q.ceLines.contains l then noteCe q l else q) p

/-- A write: whole lines among the bytes end their error (R252). -/
def storeBytes (p : Pkg) (a : Nat) (bs : List Byte) : Pkg :=
  let p := { p with mem := mwrite p.mem a bs }
  if p.badLines.isEmpty && p.ceLines.isEmpty then p
  else
    let whole := fun l => decide (a ≤ l) && decide (l + 64 ≤ a + bs.length)
    { p with badLines := p.badLines.filter (fun l => !whole l), ceLines := p.ceLines.filter (fun l => !whole l) }

/-- A plan's operation consumes an uncorrectable static or comb line (R100, Table 10.5): the launch fails with FAILED_MEMORY
and the tile stops. -/
def memFail (p : Pkg) (c : Clock) (t line : Nat) : Pkg :=
  let p := noteUe p c line
  let p := match (tile p t).launch with
    | some l => addCause p c l 0x21
    | none => p
  stopTile p t

/-! Retirement effects -/

/-- Lane flags by lane number. -/
abbrev Lanes' := SMap Flags

def orLane (ls : Lanes') (k : Nat) (f : Flags) : Lanes' := if f = 0#16 then ls else sset ls k (sget ls k 0#16 ||| f)

/-- R81: the rounding error of s + t = s1. -/
def sumError (f : Fmt) (s t s1 : W64) : W64 :=
  let b := (fSub f .rne s1 s).1
  (fAdd f .rne (fSub f .rne s (fSub f .rne s1 b).1).1 (fSub f .rne t b).1).1

/-- The one flag of a comb addition with a value that is not finite: INV when infinities of opposite sign meet (R67, R81). -/
def infClash (f : Fmt) (s t : W64) : Flags :=
  match decodeFloat f s, decodeFloat f t with
  | .inf n, .inf k => if n = k then 0#16 else fINV
  | _, _ => 0#16

/-- R81: comb_add in binary32 or binary64: new SUM, new COMP and the flags raised. -/
def combAdd (f : Fmt) (s c t : W64) : W64 × W64 × Flags :=
  if !(finiteF f s && finiteF f t) then ((fAdd f .rne s t).1, 0#64, infClash f s t)
  else
    let (s1, fl) := fAdd f .rne s t
    if !finiteF f s1 then (s1, 0#64, fl &&& (fOF ||| fNX))
    else
      (s1, (fAdd f .rne c (sumError f s t s1)).1, 0#16)

/-- A comb cell's SUM and COMP (Table 4.3). -/
def cellAt (m : Mem) (a : Nat) (wide : Bool) : W64 × W64 :=
  if wide then (BitVec.ofNat 64 (mnat m a 8), BitVec.ofNat 64 (mnat m (a + 8) 8))
  else (BitVec.ofNat 64 (mnat m a 4), BitVec.ofNat 64 (mnat m (a + 4) 4))
def setCell (m : Mem) (a : Nat) (wide : Bool) (s c : W64) : Mem :=
  if wide then mwrite m a (natLe 8 s.toNat ++ natLe 8 c.toNat) else mwrite m a (natLe 4 s.toNat ++ natLe 4 c.toNat)

/-- What the effects act on: memory, the rows of the tile, lane flags. -/
structure EffSt where
  mem : Mem
  rows : SMap RowSt
  lanes : Lanes'
  deriving DecidableEq, Repr

def applyEff (e : EffSt) : Eff → EffSt
  | .bits b => { e with mem := applyW e.mem b }
  | .rowPass row clr lanes =>
    let r := sget e.rows row {}
    if clr then { e with rows := sset e.rows row { touched := true, count := 0 } }
    else if !r.touched then { e with rows := sset e.rows row { r with touched := true } }
    else if r.count ≥ 0xFFFFF then
      { e with lanes := lanes.foldl (fun ls k => orLane ls k fLONG) e.lanes }
    else { e with rows := sset e.rows row { r with count := r.count + 1 } }
  | .add cell wide lane t clr =>
    if clr then { e with mem := setCell e.mem cell wide t 0#64 }
    else
      let (s, c) := cellAt e.mem cell wide
      let (s', c', fl) := combAdd (if wide then .b64 else .b32) s c t
      { e with mem := setCell e.mem cell wide s' c', lanes := orLane e.lanes lane fl }
  | .rowSet row st => { e with rows := sset e.rows row st }
  | .rowClear row => { e with rows := sset e.rows row {} }
  | .lane k fl => { e with lanes := orLane e.lanes k fl }
  | .flagVec a =>
    { e with mem := mwrite e.mem a ((List.range 256).flatMap (fun i =>
        natLe 2 (sget e.lanes i 0#16 ||| sget e.lanes (i + 256) 0#16).toNat)) }

/-- The OR of all lane flags: the operation's flag word (R69). -/
def laneOr (ls : Lanes') : Flags := ls.foldl (fun a e => a ||| e.2) 0#16

/-! Issue (R21, R23, R92, R125) -/

/-- A plan fault found at issue. Causes of Table 2.7; 0x100 stands for an uncorrectable line (`slot` holds the line). -/
structure PF where
  cause : Nat
  slot : Nat := 0
  detail : Nat := 0
  deriving DecidableEq, Repr

abbrev Chk (α : Type) := Except PF α

def need (b : Bool) (e : PF) : Chk Unit := if b then .ok () else .error e

def fDesc (slot : Nat) : PF := { cause := 0x01, slot := slot }
def fRange : PF := { cause := 0x05 }

/-- Instruction word fields (Table 2.2). -/
def opcodeOf (w : Nat) : Nat := bits w 127 120
def wFlags (w : Nat) : Nat := bits w 119 112
def wtok (w : Nat) : Nat := bits w 111 106
def stok (w : Nat) : Nat := bits w 105 100
def slotA (w : Nat) : Nat := bits w 95 90
def slotB (w : Nat) : Nat := bits w 89 84
def slotC (w : Nat) : Nat := bits w 83 78

/-- The queue of an opcode (Table 2.1); 4 for the reserved ones. -/
def queueOf (o : Nat) : Nat := if o < 0x40 then 0 else if o < 0x80 then 1 else if o < 0xA0 then 2 else if o < 0xE0 then 3 else 4

/-- Rows an MX instruction touches (R80, R82), and its pipe: 0 load, 1 array, 2 comb. -/
def mxPipe (w : Nat) : Nat := if opcodeOf w = 0 then 0 else if opcodeOf w = 1 then 1 else 2
def mxCi (w : Nat) : Nat := bits w 77 66
def mxRows (w : Nat) : Nat := bits w 65 54 + 1

def overlap (a n b m : Nat) : Bool := a < b + m && b < a + n

/-- Whether rows overlap any range that retired in cycle c or is in flight. -/
def rowsBusy (l : List (Nat × Nat × Nat)) (ci n c : Nat) : Bool := l.any (fun r => r.2.2 ≥ c && overlap r.1 r.2.1 ci n)

/-- R92, R125, and the four cycles of held work (R35): whether the unit of queue q accepts the head word in cycle c. -/
def Tile.accepts (x : Tile) (q w c : Nat) : Bool :=
  let infl (pipe : Nat) := x.infl.filter (fun f => f.q == 0 && mxPipe f.word.toNat == pipe)
  let hits (pipe : Nat) := (infl pipe).any (fun f => overlap (mxCi f.word.toNat) (mxRows f.word.toNat) (mxCi w) (mxRows w))
  decide (sget x.qfree q 0 ≤ c) &&
  (if q = 0 ∧ opcodeOf w ≤ 4 then
     bit x.clocks 0 &&
     (if opcodeOf w = 0 then
        (infl 0).isEmpty && decide (x.loadRet ≤ c) && decide (x.shadUse ≤ c)
      else if opcodeOf w = 1 then
        decide (x.passFree ≤ c) && (!bit (wFlags w) 0 || ((infl 0).isEmpty && decide (x.loadRet ≤ c)))
          && !hits 2 && !rowsBusy x.combRet (mxCi w) (mxRows w) c
      else (infl 2).isEmpty && !(x.combRet.any (fun r => r.2.2 ≥ c)) && !hits 1 && !rowsBusy x.passRet (mxCi w) (mxRows w) c)
   else if q = 1 ∧ opcodeOf w = 0x40 then bit x.clocks 1 && decide (x.scFree ≤ c)
   else true)

/-- Whether the wait token of a head word is available in cycle c. -/
def Tile.tokOk (x : Tile) (w c : Nat) : Bool := wtok w == 0 || decide (0 < x.tokAt (wtok w) c)

/-- R23: a queue earlier in the order MX, SC, DM, SY whose head could issue now takes the last count of the shared token. -/
def Tile.yields (x : Tile) (q w c : Nat) : Bool :=
  wtok w != 0 && decide (x.tokAt (wtok w) c ≤ ((List.range q).countP (fun k =>
    match x.queue k with
    | [] => false
    | h :: _ => wtok h.toNat == wtok w && x.accepts k h.toNat c)))

/-- R21: the head word of queue q when it can issue now: its launch number, the tile, the word and the launch cycle. -/
def ready (p : Pkg) (c : Clock) (t q : Nat) : Option (Nat × Tile × Nat × Nat) :=
  let x := tile p t
  match x.launch, x.queue q with
  | some l, h :: _ =>
    let cyc := cycleOf p c x.start
    if x.running && !x.stopped && decide (x.start ≤ c.gsc) && x.accepts q h.toNat cyc && x.tokOk h.toNat cyc
        && !x.yields q h.toNat cyc
    then some (l, x, h.toNat, cyc) else none
  | _, _ => none

/-- The tile after the head word of queue q has left it (R21, R23): its wait token is taken, the queue is kept for `occ` cycles. -/
def Tile.headTaken (x : Tile) (q w cyc occ : Nat) : Tile :=
  let y := (x.setQueue q ((x.queue q).drop 1)).takeTok (wtok w) cyc
  { y with qfree := sset y.qfree q (cyc + occ), seq := y.seq + 1 }

/-- The package with the head word of a tile's queue issued: the word left, and `TILE.ISSUED` counted it (R234). -/
def headIssued (p : Pkg) (t q w cyc occ : Nat) : Pkg :=
  bump (setTile p t ((tile p t).headTaken q w cyc occ)) (tReg p t + 0x10)

/-- An instruction's record joins those in flight; held work keeps its queue for 4 cycles (R35). -/
def enterFlight (p : Pkg) (t q seq w cyc : Nat) (f : InFl) : Pkg :=
  let g : InFl := { f with seq := seq, q := q, word := BitVec.ofNat 128 w, issue := cyc }
  modTile p t (fun y => { y with qfree := if f.held then sset y.qfree q (cyc + 4) else y.qfree, infl := y.infl ++ [g] })

/-- The issue of the head word of queue q when its opcode is `op`: it leaves its queue, takes its token and counts in
TILE.ISSUED; then it is checked and its work begins, or the tile stops with the plan fault found. It reads what stood before the
writes that retired in this cycle (R33). `occ` is how many cycles it keeps its queue. -/
def issue (p : Pkg) (c : Clock) (t q op occ : Nat)
    (go : Pkg → Nat → Tile → Nat → Nat → Chk (Pkg × InFl)) : Pkg :=
  match ready p c t q with
  | none => p
  | some (l, x, w, cyc) =>
    if opcodeOf w ≠ op then p
    else
      match go { headIssued p t q w cyc occ with mem := oldView p c } l (x.headTaken q w cyc occ) w cyc with
      | .ok (r, f) => enterFlight (newView p c r) t q x.seq w cyc f
      | .error e =>
        if e.cause = 0x100 then memFail (headIssued p t q w cyc occ) c t e.slot
        else planFault (headIssued p t q w cyc occ) c t e.cause q e.slot e.detail

/-- A record of an instruction in flight with its retire cycle; number, queue and word are filled in at issue. -/
def inFl (due : Nat) : InFl := { seq := 0, q := 0, word := 0#128, issue := 0, due := due }

end Sys2Proof.Machine
end

