-- ==== Sys2Proof/Machine/FabricOps.lean ====
section
/-! DEFINITION. Shared operations of the fabric and of HBM: packets, contexts, outbound windows, the local map, destination
tables, regulator requests (10_memory_system, 12_fabric_semantics). -/

namespace Sys2Proof.Machine

/-! Addresses -/

/-- Place and local offset of a fabric address (R287). -/
def placeOf (a : Nat) : Nat := bits a 63 46
def localOf (a : Nat) : Nat := a % 2 ^ 46
def ownPlace (p : Pkg) : Nat := rfld p rFabPlace 17 0

/-- What an offset of the local map names (Table 12.1), with the conditions of the range. -/
inductive Target where
  | hbm
  | slice (t : Nat)
  | comb (t : Nat)
  | sync (i : Nat)
  | setup (o : Nat)
  deriving DecidableEq, Repr

/-- A logical tile is in service. -/
def tileInService (p : Pkg) (t : Nat) : Bool := t < 128 && (serving p (tileCands t) t).isSome

/-- R288: n bytes at a local offset lie wholly in one range and meet its conditions. -/
def target (p : Pkg) (a n : Nat) : Option Target :=
  if a + n ≤ hbmUserEnd then some .hbm
  else if 0x200000000000 ≤ a ∧ a < 0x200200000000 then
    let t := (a - 0x200000000000) / 0x4000000
    if tileInService p t && decide (a % 0x4000000 + n ≤ 0x1E00000) then some (.slice t) else none
  else if 0x210000000000 ≤ a ∧ a < 0x210040000000 then
    let t := (a - 0x210000000000) / 0x800000
    if tileInService p t && decide (a % 0x800000 + n ≤ 0x800000) then some (.comb t) else none
  else if 0x220000000000 ≤ a ∧ a < 0x220000100000 then
    if a % 8 = 0 ∧ n = 8 then some (.sync ((a - 0x220000000000) / 64)) else none
  else if 0x3F0000000000 ≤ a ∧ a < 0x3F0004000000 then
    if a % 4 = 0 ∧ n = 4 then some (.setup (a - 0x3F0000000000)) else none
  else none

/-! Outbound windows (R309): PERM bits 0 load, 1 store, 2 fetch-add and compare-and-swap, 3 float add; class bits 0 PLAN,
1 HOST, 2 KEEPER, 3 DEN -/

def clsPlan : Nat := 0
def clsHost : Nat := 1
def clsKeeper : Nat := 2
def clsDen : Nat := 3

/-- One window allows an access of n bytes at a fabric address. -/
def windowAllows (e : List Byte) (a n perm cls : Nat) : Bool :=
  let pmask := field e 20 4 % 2 ^ 18
  let pm := field e 24 1
  let lo := localOf a
  bit (field e 26 1) 0
  && (Nat.land (placeOf a) pmask == Nat.land (field e 16 4 % 2 ^ 18) pmask)
  && decide (field e 0 8 % 2 ^ 46 ≤ lo) && decide (lo + n - 1 ≤ field e 8 8 % 2 ^ 46)
  && bit pm perm && bit (field e 25 1) cls
  && (!(decide (0x3F0000000000 ≤ lo) && decide (lo < 0x3F0004000000)) || (bit pm 4 && cls == clsKeeper))
  && (!(decide (0x210000000000 ≤ lo) && decide (lo < 0x210040000000)) || bit pm 5)

def windowOk (p : Pkg) (a n perm cls : Nat) : Bool :=
  (List.range 1024).any (fun i => windowAllows (rbytes p (rWindow i) 32) a n perm cls)

/-! Packets (Table 12.4) -/

structure Hdr where
  ty : Nat
  flags : Nat
  len : Nat
  seq : Nat
  daddr : Nat
  src : Nat
  rctx : Nat
  sctx : Nat
  dso : Nat
  nreason : Nat
  aseq : Nat
  op0 : Nat
  op1 : Nat
  deriving DecidableEq, Repr

def parseHdr (b : List Byte) : Hdr :=
  { ty := field b 0 1, flags := field b 1 1, len := field b 2 2 % 2 ^ 13, seq := field b 4 4, daddr := field b 8 8,
    src := field b 16 4 % 2 ^ 18, rctx := field b 20 2, sctx := field b 22 2, dso := field b 24 2 % 2 ^ 14,
    nreason := field b 26 1, aseq := field b 28 4, op0 := field b 32 8, op1 := field b 40 8 }

/-- Header bytes 0 to 59. -/
def hdrBytes (h : Hdr) : List Byte :=
  natLe 1 h.ty ++ natLe 1 h.flags ++ natLe 2 h.len ++ natLe 4 h.seq ++ natLe 8 h.daddr ++ natLe 4 h.src ++ natLe 2 h.rctx
    ++ natLe 2 h.sctx ++ natLe 2 h.dso ++ natLe 1 h.nreason ++ natLe 1 0 ++ natLe 4 h.aseq ++ natLe 8 h.op0 ++ natLe 8 h.op1
    ++ List.replicate 12 0#8

/-- A payload in whole flits of 64 bytes, the last one padded with zeros (R291). -/
def padFlit (l : List Byte) : List Byte := l ++ List.replicate (cdiv l.length 64 * 64 - l.length) 0#8

/-- A packet: the header with its CRC, which covers the payload without its padding, then the payload flits (R291). -/
def mkPacket (h : Hdr) (payload : List Byte) : List Byte :=
  let b := hdrBytes h
  b ++ natLe 4 (crc32c (b ++ payload)).toNat ++ padFlit payload

def payloadOf (b : List Byte) : List Byte := (b.drop 64).take (parseHdr b).len

/-- R293: the CRC over the header bytes 0 to 59 and the payload holds. -/
def packetOk (b : List Byte) : Bool :=
  decide (64 + (parseHdr b).len ≤ b.length) && (crc32c (b.take 60 ++ payloadOf b)).toNat == field b 60 4

/-- Flits of a packet (R291). -/
def flitsOf (b : List Byte) : Nat := 1 + cdiv (parseHdr b).len 64

/-- A packet with some header bytes replaced and its CRC formed again. -/
def reseal (b : List Byte) (off len v : Nat) : List Byte :=
  let h := (putField b off len v).take 60
  h ++ natLe 4 (crc32c (h ++ payloadOf b)).toNat ++ padFlit (payloadOf b)

/-! Contexts and outstanding packets -/

def ctx (p : Pkg) (i : Nat) : Ctx := sget p.ctxs i {}
def setCtx (p : Pkg) (i : Nat) (x : Ctx) : Pkg := { p with ctxs := sset p.ctxs i x }

/-- Forms a packet on a context and holds it as outstanding: the context's next sequence number (R294). -/
def sendReq (p : Pkg) (cx : Nat) (who : Who) (opn ready : Bool) (r : Req) : Pkg :=
  let x := ctx p cx
  let len := match r.payload with
    | [] => r.len
    | l => l.length
  let h := Hdr.mk r.ty (b2n opn + 4 * b2n r.dso.isSome) len x.txseq r.daddr (ownPlace p) x.pctx cx (r.dso.getD 0) 0 0 r.op0 r.op1
  let o : OutPkt := { ctx := cx, seq := x.txseq, bytes := mkPacket h r.payload, who := who, opn := opn, ready := ready, sso := r.sso }
  { setCtx p cx { x with txseq := (x.txseq + 1) % 2 ^ 32 } with outs := p.outs ++ [o] }

def sendReqs (p : Pkg) (cx : Nat) (who : Who) (opn ready : Bool) (rs : List Req) : Pkg :=
  rs.foldl (fun q r => sendReq q cx who opn ready r) p

/-- A tile counts a packet issued to a place (R305); a table of 256 entries takes no further place. `fenced`: a store, float add or
posted add. -/
def destIssue (l : List Dest) (place n : Nat) (fenced : Bool) : List Dest :=
  let l := if l.any (fun e => e.place == place) || decide (256 ≤ l.length) then l else l ++ [{ place := place }]
  l.map (fun e => if e.place = place then
    { e with issued := e.issued + n, fIssued := e.fIssued + (if fenced then n else 0) } else e)

/-- A tile counts a first acknowledgement or response from a place (R305). -/
def destAck (l : List Dest) (place : Nat) (fenced : Bool) : List Dest :=
  l.map (fun e => if e.place = place then { e with acked := e.acked + 1, fAcked := e.fAcked + b2n fenced } else e)

/-- The snapshot of R306: the count of stores, float adds and posted adds issued to every destination. -/
def fenceSnap (x : Tile) : List (Nat × Nat) := x.dests.map (fun e => (e.place, e.fIssued))

/-- Every destination's acknowledged count has reached the snapshot. -/
def fenceMet (x : Tile) (snap : List (Nat × Nat)) : Bool :=
  snap.all (fun s => x.dests.any (fun e => e.place == s.1 && decide (s.2 ≤ e.fAcked)))

/-! Splitting a transfer (R292) -/

def insertNat (a : Nat) : List Nat → List Nat
  | [] => [a]
  | b :: r => if a < b then a :: b :: r else if a = b then b :: r else b :: insertNat a r

/-- Ascending, without repeats. -/
def sortNat (l : List Nat) : List Nat := l.foldr insertNat []

/-- Runs of consecutive byte addresses, cut at every 4 KiB boundary. -/
def runs : List Nat → List (Nat × Nat)
  | [] => []
  | a :: r =>
    match runs r with
    | (b, n) :: q => if b = a + 1 ∧ b % 4096 ≠ 0 then (a, n + 1) :: q else (a, 1) :: (b, n) :: q
    | [] => [(a, 1)]

/-- The bytes that a list of element stores touches, ascending. -/
def touched (l : List BitW) : List Nat :=
  sortNat (l.flatMap (fun b => (List.range ((b.addr % 8 + b.w + 7) / 8)).map (fun i => b.addr / 8 + i)))

/-! Completion counts (R304) -/

/-- Adds to an int64 word in memory, wrapping. -/
def addWord (p : Pkg) (a : Nat) (v : Nat) : Pkg :=
  { p with mem := mwrite p.mem a (natLe 8 ((mnat p.mem a 8 + v) % 2 ^ 64)) }

/-- COUNT of a sync object plus 1. -/
def countSync (p : Pkg) (i : Nat) : Pkg := addWord p (syncBase i) 1

/-! Regulator requests (R243) -/

/-- The lines that element moves read. -/
def srcLines (ms : List Move) : List Nat :=
  sortNat (ms.flatMap (fun m => linesOf (m.src / 8) ((m.src % 8 + m.w + 7) / 8)))

/-- Whole lines to read, one request each. -/
def readReqs (who : Who) (lines : List Nat) : List HbmReq :=
  lines.map (fun l => { line := l, bytes := 64, wr := [], sq := false, who := who })

/-- The part of an element store that lies in a line; elements that cross lines are cut at the byte. -/
def cutToLine (line : Nat) (b : BitW) : List BitW :=
  let first := b.addr / 8
  let last := (b.addr + b.w - 1) / 8
  if line ≤ first ∧ last < line + 64 then [b]
  else if last < line ∨ line + 64 ≤ first then []
  else
    let lo := max b.addr (8 * line)
    let hi := min (b.addr + b.w) (8 * (line + 64))
    [{ addr := lo, w := hi - lo, v := (b.v >>> (lo - b.addr)) % 2 ^ (hi - lo) }]

/-- Line writes of a list of element stores, one request for each line, ascending. -/
def writeReqs (who : Who) (ws : List BitW) : List HbmReq :=
  let lines := sortNat (ws.flatMap (fun b => linesOf (b.addr / 8) ((b.addr % 8 + b.w + 7) / 8)))
  lines.map (fun l => { line := l, bytes := 64, wr := ws.flatMap (cutToLine l), sq := false, who := who })

/-- Squirrel accesses, one for each element (R247): the naturally aligned 8 bytes that hold it. -/
def sqReads (who : Who) (ms : List Move) : List HbmReq :=
  ms.map (fun m => { line := m.src / 64 * 8, bytes := 8, wr := [], sq := true, who := who })
def sqWrites (who : Who) (ws : List BitW) : List HbmReq :=
  ws.map (fun b => { line := b.addr / 64 * 8, bytes := 8, wr := [b], sq := true, who := who })

/-- R247: an element that would straddle the natural alignment of its access. -/
def straddles (bitAddr w : Nat) : Bool := 64 < bitAddr % 64 + w

/-- Element moves made from data that has been read: stores of the destination. -/
def movesFrom (m : Mem) (ms : List Move) : List BitW := ms.map (fun v => { addr := v.dst, w := v.w, v := rdBits m v.src v.w })

/-- The bytes that reads delivered, as memory. -/
def gotMem (got : List (Nat × List Byte)) : Mem := got.foldl (fun m g => mwrite m g.1 g.2) []

/-! Write combining (R246): entries only record which bytes of a line are held; memory shows what a read returns -/

/-- The bytes of line l among n bytes at an address, as a mask. -/
def lineMask (l a n : Nat) : BitVec 64 :=
  let lo := max a l - l
  let hi := min (a + n) (l + 64) - l
  BitVec.ofNat 64 (2 ^ hi - 2 ^ lo)

def wcHas (p : Pkg) (l : Nat) : Bool := p.wc.any (fun e => e.line == l)

/-- A write of the masked bytes of a line enters or passes the buffer of its stack. -/
def wcWrite (p : Pkg) (c : Clock) (l : Nat) (mask : BitVec 64) : Pkg :=
  let full : BitVec 64 := BitVec.allOnes 64
  if mask = full then { p with wc := p.wc.filter (fun e => e.line != l) }
  else if wcHas p l then
    let es := p.wc.map (fun e => if e.line = l then { e with mask := e.mask ||| mask } else e)
    -- an entry whose 64 bytes are all written goes to the array as a whole line (R246, R252)
    if es.any (fun e => e.mask == full) then
      { p with wc := es.filter (fun e => e.mask != full), badLines := p.badLines.filter (fun x => x != l),
               ceLines := p.ceLines.filter (fun x => x != l) }
    else { p with wc := es }
  else
    let st := stackOf p l
    let mine := p.wc.filter (fun e => stackOf p e.line == st)
    let p := if mine.length < 2048 then p else
      match mine with
      | [] => p
      | o :: _ => { p with wc := p.wc.filter (fun e => e.line != o.line) }
    { p with wc := p.wc ++ [{ line := l, mask := mask, tick := c.gsc }] }

/-- The requests of a load, one for each line that n bytes at an address touch. -/
def loadReqs (who : Who) (a n : Nat) : List HbmReq :=
  (linesOf a n).map (fun l =>
    { line := max l a, bytes := min (l + 64) (a + n) - max l a, wr := [], sq := false, who := who })

/-- The request of an 8-byte atomic (R248). -/
def atomReq (who : Who) (a : Nat) (t : Atom) : HbmReq := { line := a, bytes := 8, wr := [], sq := false, who := who, atom := some t }

/-- The requests of a float add: the elements that begin in one aligned 8-byte word are one base-die atomic (R248, R289). -/
def faddReqs (who : Who) (wide : Bool) (a : Nat) (bs : List Byte) : List HbmReq :=
  let w := if wide then 8 else 4
  let els := (List.range (bs.length / w)).map (fun i => a + w * i)
  (sortNat (els.map (fun e => e / 8))).map (fun k =>
    let mine := els.filter (fun e => e / 8 == k)
    let lo := mine.headD a
    { line := lo, bytes := w * mine.length, wr := [], sq := false, who := who,
      atom := some (.fadd wide ((bs.drop (lo - a)).take (w * mine.length))) })

/-- Traffic of an engine in byte ranges, one request for each line: it takes its turn and its tokens, and moves no data here. -/
def chargeReads (who : Who) (ranges : List (Nat × Nat)) : List HbmReq :=
  (sortNat (ranges.flatMap (fun r => linesOf r.1 r.2))).filterMap (fun l =>
    if isHbm l then some { line := l, bytes := 64, wr := [], sq := false, who := who, chg := true } else none)
def chargeWrites (who : Who) (ranges : List (Nat × Nat)) : List HbmReq :=
  (writeReqs who (ranges.map (fun r => { addr := 8 * r.1, w := 8 * r.2, v := 0 }))).filterMap (fun q =>
    if isHbm q.line then some { q with chg := true } else none)

/-- Requests of this origin are still in a queue. -/
def owesHbm (p : Pkg) (who : Who) : Bool := p.queues.any (fun e => e.2.any (fun r => r.who == who))

/-- The value that an atomic leaves, by the bytes it finds. -/
def atomApply (t : Atom) (old : List Byte) : List Byte :=
  match t with
  | .add v => natLe 8 ((leNat old + v) % 2 ^ 64)
  | .cas cmp new => if leNat old = cmp then natLe 8 new else old
  | .fadd wide bs =>
    let w := if wide then 8 else 4
    let f : Fmt := if wide then .b64 else .b32
    (List.range (bs.length / w)).flatMap (fun i =>
      natLe w (fAdd f .rne (BitVec.ofNat 64 (field old (w * i) w)) (BitVec.ofNat 64 (field bs (w * i) w))).1.toNat)

/-- An access of a command waits for its requests. -/
def openGate (p : Pkg) (part : Nat) (cmd : Instr) (rs : Who → List HbmReq) : Pkg :=
  let l := rs (.gate p.nextGate)
  { enqueueAll p part l with gates := p.gates ++ [{ id := p.nextGate, cmd := cmd, left := l.length }], nextGate := p.nextGate + 1 }

/-- n bytes at an HBM address pass through write combining, line by line. -/
def wcBytes (p : Pkg) (c : Clock) (a n : Nat) : Pkg :=
  (linesOf a n).foldl (fun q l => wcWrite q c l (lineMask l a n)) p

/-! Accesses served at their target (R288, R289, R295). The answer is the NAK reason of Table 12.6 or the bytes returned. -/

abbrev Served := Pkg × Except Nat (List Byte)

def nakRange : Nat := 3
def nakMemory : Nat := 4
def nakRetired : Nat := 5

def retired (p : Pkg) : Bool := rbit p rMemStatus 1

/-- An MX instruction that writes comb rows: a pass, a preload, a zero, or a drain that clears. -/
def combWriter (f : InFl) : Bool :=
  let o := opcodeOf f.word.toNat
  f.q == 0 && decide (1 ≤ o) && decide (o ≤ 4) && !(o == 3 && bit (wFlags f.word.toNat) 0)

/-- Memory as an outside comb read samples it (R95): every MX instruction that has issued has made its writes. -/
def combView (p : Pkg) (t : Nat) : Mem :=
  let x := tile p t
  let fs := x.infl.filter combWriter
  ((fs.flatMap (fun f => f.effs)).foldl applyEff { mem := p.mem, rows := x.rows, lanes := [] }).mem

/-- What a read from outside the launch finds at an address. -/
def viewAt (p : Pkg) (a : Nat) : Mem :=
  if combBase 0 ≤ a ∧ a < combBase 128 then combView p ((a - combBase 0) / 0x800000) else p.mem

/-- A read of n bytes at a model address, refused at an uncorrectable line (R252). -/
def readMem (p : Pkg) (c : Clock) (a n : Nat) : Served :=
  match firstBad p [(a, n)] with
  | some l => (noteUe p c l, .error nakMemory)
  | none => let p := noteCes p [(a, n)]; (p, .ok (mread (viewAt p a) a n))

/-- The lines that n bytes at an address cover only in part. -/
def partLines (a n : Nat) : List (Nat × Nat) :=
  ((linesOf a n).filter (fun l => !(decide (a ≤ l) && decide (l + 64 ≤ a + n)))).map (fun l => (l, 64))

/-- A write at a model address: a partial write of an uncorrectable line is refused (R252). -/
def writeMem (p : Pkg) (c : Clock) (a : Nat) (bs : List Byte) : Served :=
  match firstBad p (partLines a bs.length) with
  | some l => (noteUe p c l, .error nakMemory)
  | none =>
    let p := if isHbm a then wcBytes p c a bs.length else p
    (storeBytes p a bs, .ok [])

def srvLoad (p : Pkg) (c : Clock) (a n : Nat) : Served :=
  if retired p then (p, .error nakRetired)
  else if n = 0 ∨ 4096 < n then (p, .error nakRange)
  else match target p a n with
  | none => (p, .error nakRange)
  | some (.setup _) => (p, .error nakRange)
  | some _ => readMem p c a n

def srvStore (p : Pkg) (c : Clock) (a : Nat) (bs : List Byte) : Served :=
  if retired p then (p, .error nakRetired)
  else if bs.length = 0 ∨ 4096 < bs.length then (p, .error nakRange)
  else match target p a bs.length with
  | none => (p, .error nakRange)
  | some (.setup _) => (p, .error nakRange)
  | some (.comb _) => (p, .ok [])
  | some _ => writeMem p c a bs

/-- The read and write of one aligned 8-byte word: the old value is the answer. -/
def srvWord (p : Pkg) (c : Clock) (a : Nat) (f : Nat → Option Nat) : Served :=
  if retired p then (p, .error nakRetired)
  else if a % 8 ≠ 0 then (p, .error nakRange)
  else match target p a 8 with
  | none => (p, .error nakRange)
  | some (.setup _) => (p, .error nakRange)
  | some (.comb _) => (p, .error nakRange)
  | some _ =>
    match readMem p c a 8 with
    | (p, .error e) => (p, .error e)
    | (p, .ok old) =>
      match f (leNat old) with
      | none => (p, .ok old)
      | some v => ((writeMem p c a (natLe 8 v)).1, .ok old)

def srvFetchAdd (p : Pkg) (c : Clock) (a v : Nat) : Served := srvWord p c a (fun o => some ((o + v) % 2 ^ 64))
def srvCas (p : Pkg) (c : Clock) (a cmp new : Nat) : Served :=
  srvWord p c a (fun o => if o = cmp then some new else none)

/-- Elements added into the target in ascending order, round to nearest even; a last part of an element, which no rule covers,
leaves free bytes. -/
def srvFloatAdd (p : Pkg) (c : Clock) (f : Fmt) (a : Nat) (bs : List Byte) : Served :=
  let w := f.width / 8
  if retired p then (p, .error nakRetired)
  else if bs.length = 0 ∨ 4096 < bs.length then (p, .error nakRange)
  else match target p a bs.length with
  | none => (p, .error nakRange)
  | some (.setup _) => (p, .error nakRange)
  | some (.comb _) => (p, .error nakRange)
  | some (.sync _) => (p, .error nakRange)
  | some _ =>
    match readMem p c a bs.length with
    | (p, .error e) => (p, .error e)
    | (p, .ok old) =>
      let n := bs.length / w
      let el (l : List Byte) (i : Nat) : W64 := BitVec.ofNat 64 (field l (w * i) w)
      let out := (List.range n).flatMap (fun i => natLe w (fAdd f .rne (el old i) (el bs i)).1.toNat)
      let tail := (List.range (bs.length - w * n)).map (fun i => Config.freeByte p.fv i)
      writeMem { p with fv := p.fv + 1 } c a (out ++ tail)

/-- The regulator requests of a packet's access to HBM, by its operation (Table 12.5); none when its target lies elsewhere or refuses
it at once. -/
def hbmAsks (p : Pkg) (ty a op0 op1 : Nat) (bs : List Byte) : Option (Who → List HbmReq) :=
  let n := if ty = 0x02 then op0 % 2 ^ 13 else if ty = 0x01 ∨ ty = 0x06 ∨ ty = 0x07 then bs.length else 8
  if retired p || n == 0 || decide (4096 < n) || target p a n != some .hbm then none
  else if ty = 0x01 then some (fun w => writeReqs w [bytesW a bs])
  else if ty = 0x02 then some (fun w => loadReqs w a n)
  else if ty = 0x06 then (if n % 8 = 0 then some (fun w => faddReqs w true a bs) else none)
  else if ty = 0x07 then (if n % 4 = 0 then some (fun w => faddReqs w false a bs) else none)
  else if a % 8 ≠ 0 then none
  else if ty = 0x04 ∨ ty = 0x09 then some (fun w => [atomReq w a (.add op0)])
  else if ty = 0x05 then some (fun w => [atomReq w a (.cas op0 op1)])
  else none

/-- What the requests of an access brought: n bytes at an address, or the refusal of an uncorrectable line (R252) or of a package
that has retired meanwhile (R254). -/
def gateResult (p : Pkg) (g : Gate) (a n : Nat) : Except Nat (List Byte) :=
  if retired p then .error nakRetired else if !g.bad.isEmpty then .error nakMemory else .ok (mread (gotMem g.got) a n)

/-- DSO (R304): one count when its effect is visible. -/
def countDso (p : Pkg) (d : Option Nat) : Pkg :=
  match d with
  | none => p
  | some i => countSync p i

/-! Progress of an instruction in flight -/

def findInfl (p : Pkg) (t seq : Nat) : Option InFl := (tile p t).infl.find? (fun f => f.seq == seq)
def modInfl (p : Pkg) (t seq : Nat) (g : InFl → InFl) : Pkg :=
  modTile p t (fun x => { x with infl := x.infl.map (fun f => if f.seq = seq then g f else f) })

/-- The held work of an instruction fails: the cause is recorded and its work never finishes (R37). -/
def failHeld (p : Pkg) (c : Clock) (t seq status : Nat) : Pkg :=
  let p := modInfl p t seq (fun f => { f with failed := true })
  match (tile p t).launch with
  | some l => addCause p c l status
  | none => p

/-! Swarm and waggle operations (14_collectives) -/

def SwOp.waggle (o : SwOp) : Bool := decide (3 ≤ o.ident.opc)
/-- Chunks of the partial stream (R347). -/
def SwOp.nc (o : SwOp) : Nat := cdiv (o.nelem * o.w) 65536

/-- `SWM.STATUS.ACTIVE` follows the operations in progress. -/
def syncSwm (p : Pkg) : Pkg :=
  let busy (d : Nat) := p.swops.any (fun o => o.started && !o.closed && !o.failed && !o.waggle && decide (d < o.nc))
  rsetf p rSwmStatus 3 0 (b2n (busy 0) + 2 * b2n (busy 1) + 4 * b2n (busy 2) + 8 * b2n (busy 3))

/-- The operation numbered n ends with a failure, counted once (Table 14.8). -/
def loseSw (p : Pkg) (n : Nat) : Pkg :=
  match p.swops.find? (fun o => o.id == n) with
  | none => p
  | some o =>
    if o.failed then p
    else
      let p := if o.closed then bump p rSwmFailed else bump (bump p rSwmFailed) rSwmOps
      syncSwm { p with swops := p.swops.map (fun y => if y.id = n then { y with failed := true, closed := true } else y) }

/-- A pulled copy has not come to the operation of a held instruction (R353). -/
def owesCopy (p : Pkg) (t n : Nat) : Bool :=
  p.swops.any (fun o => o.tile == t && o.seq == n && o.chunks.any (fun e => !e.2.owed.isEmpty))

/-- One awaited answer or access is in; the last one finishes the work. -/
def oneDone (f : InFl) : InFl := let n := f.pend - 1; { f with pend := n, fin := decide (n = 0) && !f.failed }

/-- SSO of a fabric DM instruction (Table 12.3). -/
def ssoOf (w : Nat) : Option Nat := if bit w 16 then some (bits w 30 17) else none
def dsoOf (w : Nat) : Option Nat := if bit w 31 then some (bits w 45 32) else none

/-- A NAK for plan traffic of a tile (Table 12.6): RANGE is a plan fault, MEMORY and RETIRED fail the held work. -/
def nakTile (p : Pkg) (c : Clock) (t seq reason : Nat) : Pkg :=
  if reason = nakMemory then failHeld p c t seq 0x21
  else if reason = nakRetired then failHeld p c t seq 0x20
  else
    let q := ((findInfl p t seq).map (fun f => f.q)).getD 2
    planFault (modInfl p t seq (fun f => { f with failed := true })) c t 0x05 q 0 0

/-- R307, step by step: fence, COUNT, NOTIFY, whose address is checked against the windows before the add is sent. -/
def advanceRelease (p : Pkg) (c : Clock) (t : Nat) (f : InFl) : Pkg :=
  match f.wait with
  | .fence snap => if fenceMet (tile p t) snap then modInfl p t f.seq (fun g => { g with fin := !g.failed }) else p
  | .release obj snap false =>
    if fenceMet (tile p t) snap then
      let p := countSync p obj
      let a := mnat p.mem (syncBase obj + 24) 8
      let cx := mnat p.mem (syncBase obj + 32) 2
      if a = 0 then modInfl p t f.seq (fun g => { g with wait := .release obj snap true, fin := !g.failed })
      else if !windowOk p a 8 2 clsPlan then
        planFault (modInfl p t f.seq (fun g => { g with wait := .release obj snap true, failed := true })) c t 0x0A f.q 0 0
      else
        let p := modTile p t (fun x => { x with dests := destIssue x.dests (placeOf a) 1 true })
        if placeOf a = ownPlace p then
          match srvFetchAdd p c (localOf a) 1 with
          | (p, .ok _) =>
            let p := modTile p t (fun x => { x with dests := destAck x.dests (placeOf a) true })
            modInfl p t f.seq (fun g => { g with wait := .release obj snap true, fin := !g.failed })
          | (p, .error e) => nakTile (modInfl p t f.seq (fun g => { g with wait := .release obj snap true })) c t f.seq e
        else
          let p := sendReq p cx (.tile t f.seq) false true { ty := 0x09, daddr := a, op0 := 1 }
          modInfl p t f.seq (fun g => { g with wait := .release obj snap true, pend := 1 })
    else p
  | _ => p

/-- Fences and releases of a tile go on after an acknowledgement. -/
def advanceTile (p : Pkg) (c : Clock) (t : Nat) : Pkg := (tile p t).infl.foldl (fun q f => advanceRelease q c t f) p

end Sys2Proof.Machine
end

