-- ==== Sys2Proof/Machine/Operands.lean ====
section
/-! DEFINITION. Operand forms: tensor descriptors (R28 to R31, R161), element places (R56, R57), group scales (R102), scale
records (R108 to R118), pollen and count records. -/

namespace Sys2Proof.Machine

/-- A tensor descriptor (Table 2.3). -/
structure Desc where
  addr : Nat
  fcode : Nat
  rank : Nat
  remote : Bool
  layout : Nat
  skind : Nat
  gsize : Nat
  zp : Int
  size : List Nat
  stride : List Nat
  sptr : Nat
  deriving DecidableEq, Repr

def parseDesc (b : List Byte) : Desc :=
  { addr := field b 0 8, fcode := field b 8 1, rank := bits (field b 9 1) 2 0, remote := bit (field b 9 1) 3,
    layout := field b 10 1, skind := bits (field b 11 1) 1 0, gsize := bits (field b 11 1) 3 2,
    zp := sext 16 (field b 12 2), size := (List.range 4).map (fun k => field b (16 + 4 * k) 4),
    stride := (List.range 4).map (fun k => field b (32 + 4 * k) 4), sptr := field b 48 8 }

/-- The descriptor in a slot of the tile's active bank. -/
def Tile.desc (x : Tile) (slot : Nat) : Desc := parseDesc (x.descBytes x.bank slot)

/-- The size of a dimension; dimensions at or above RANK count as 1. -/
def Desc.sz (d : Desc) (k : Nat) : Nat := if k < d.rank then d.size.getD k 1 else 1
def Desc.st (d : Desc) (k : Nat) : Nat := d.stride.getD k 0
def Desc.fmt (d : Desc) : Fmt := (fmtOfCode d.fcode).getD .b64
def Desc.g (d : Desc) : Nat := 32 * 2 ^ d.gsize
/-- The element count: the product of the sizes below RANK. -/
def Desc.count (d : Desc) : Nat := d.sz 0 * d.sz 1 * d.sz 2 * d.sz 3
/-- LD of the PANEL layout (R161). -/
def Desc.ld (d : Desc) : Nat := cdiv (d.sz 0) 8 * 8

/-- Element offset of indices (i0, i1, i2, i3) by the layout (R28, R161). -/
def Desc.off (d : Desc) (i0 i1 i2 i3 : Nat) : Nat :=
  if d.layout = 0 then i0 * d.st 0 + i1 * d.st 1 + i2 * d.st 2 + i3 * d.st 3
  else if d.layout = 1 then
    65536 * (i0 / 256 + d.sz 0 / 256 * (i1 / 256)) + 256 * (i1 % 256) + i0 % 256 + d.st 2 * i2 + d.st 3 * i3
  else i0 + d.ld * i1 + d.st 2 * i2 + d.st 3 * i3

/-- Offset of the i-th element in linear order, dimension 0 innermost. -/
def Desc.offAt (d : Desc) (i : Nat) : Nat :=
  let s0 := d.sz 0; let s1 := d.sz 1; let s2 := d.sz 2
  d.off (i % s0) (i / s0 % s1) (i / (s0 * s1) % s2) (i / (s0 * s1 * s2))

/-- Dimension-1 index of the i-th element. -/
def Desc.i1At (d : Desc) (i : Nat) : Nat := i / d.sz 0 % d.sz 1

/-- Bit address of an element: H6 and Q4 are packed, four to three bytes and two to a byte (R56, R57). -/
def Desc.bitAt (d : Desc) (i : Nat) : Nat := 8 * d.addr + d.fmt.width * d.offAt i

/-- The span of R30 condition 6, in elements beyond ADDR. -/
def Desc.span (d : Desc) : Nat :=
  let t (k : Nat) := (d.sz k - 1) * d.st k
  if d.layout = 0 then t 0 + t 1 + t 2 + t 3
  else if d.layout = 1 then d.sz 0 * d.sz 1 - 1 + t 2 + t 3
  else d.sz 0 - 1 + (d.sz 1 - 1) * d.ld + t 2 + t 3

/-- The last byte of the tensor; a packed tensor occupies whole units (R56, R57). -/
def Desc.lastByte (d : Desc) : Nat :=
  if d.fmt = .h6 then d.addr + 3 * (d.span / 4) + 2
  else d.addr + (d.fmt.width * (d.span + 1) + 7) / 8 - 1

/-- Lies wholly in logical tile t's scratchpad window below 0x1E0_0000, the plan's scratchpad (R43). DEDUCED (log 114): the places
that R70, R71 and R103 ask to lie in the own slice keep below that bound too. -/
def inSlice (t a last : Nat) : Bool := sliceBase t ≤ a && last < sliceBase t + 0x1E00000

def Desc.own (d : Desc) (t : Nat) : Bool := !d.remote && inSlice t d.addr d.lastByte
def Desc.hbm (d : Desc) : Bool := !d.remote && d.lastByte < hbmUserEnd

/-- The logical tile of the launch in whose window the tensor lies. -/
def Desc.sliceOf (d : Desc) (mask : Nat) : Option Nat :=
  if isSlice d.addr then
    let t := (d.addr - 0x200000000000) / 0x4000000
    if bit mask t && inSlice t d.addr d.lastByte then some t else none
  else none

/-- R30 apart from conditions 6 and 7. -/
def Desc.shapeOk (d : Desc) : Bool :=
  (fmtOfCode d.fcode).isSome && decide (d.layout ≤ 2) && decide (1 ≤ d.rank) && decide (d.rank ≤ 4)
  && (List.range d.rank).all (fun k => decide (1 ≤ d.size.getD k 0))
  && (d.layout != 1 || (decide (2 ≤ d.rank) && d.sz 0 % 256 == 0 && d.sz 1 % 256 == 0))
  && (!(d.fmt == .q4 || d.fmt == .h6) || d.st 0 == 1)
  && (d.zp == 0 || d.fmt == .a16)
  && d.skind != 3 && (d.skind != 1 || d.fmt == .a16) && (d.skind != 2 || d.fmt.isNarrow) && d.gsize != 3
  && (d.layout != 2 || d.addr % 64 == 0)

/-- R30 conditions 6 and 7: `dm` when a DM instruction names the descriptor, `rem` when it may be remote. -/
def Desc.placeOk (d : Desc) (t mask : Nat) (dm rem : Bool) : Bool :=
  if d.remote then rem
  else d.addr < 2 ^ 46 && (d.hbm || d.own t || (dm && (d.sliceOf mask).isSome))

def Desc.valid (d : Desc) (t mask : Nat) (dm rem : Bool) : Bool := d.shapeOk && d.placeOk t mask dm rem

/-- The check of R31 on a slot: the descriptor, or plan fault INVALID_DESCRIPTOR. -/
def getDesc (x : Tile) (t mask slot : Nat) (dm rem : Bool) : Chk Desc :=
  let d := x.desc slot
  if d.valid t mask dm rem then .ok d else .error (fDesc slot)

/-- The code of the i-th element. -/
def rdElem (m : Mem) (d : Desc) (i : Nat) : W64 := BitVec.ofNat 64 (rdBits m (d.bitAt i) d.fmt.width)

/-- The first n codes in linear order. -/
def rdElems (m : Mem) (d : Desc) (n : Nat) : List W64 := (List.range n).map (rdElem m d)

/-- The store of the i-th element. -/
def wrElem (d : Desc) (i : Nat) (c : W64) : BitW := { addr := d.bitAt i, w := d.fmt.width, v := c.toNat % 2 ^ d.fmt.width }

/-- R56, R57: the unused positions of a packed tensor's last unit, written as +0. -/
def padW (d : Desc) : List BitW :=
  let per := if d.fmt = .h6 then 4 else if d.fmt = .q4 then 2 else 1
  let n := d.span + 1
  (List.range ((per - n % per) % per)).map (fun k =>
    { addr := 8 * d.addr + d.fmt.width * (n + k), w := d.fmt.width, v := 0 })

/-- Byte range that a tensor's elements touch, one per element, for the line checks of R252. -/
def Desc.ranges (d : Desc) : List (Nat × Nat) :=
  (List.range d.count).map (fun i => (d.bitAt i / 8, (d.bitAt i % 8 + d.fmt.width + 7) / 8))

/-- Own-slice range: n bytes at offset o below 0x1E0_0000 (else plan fault RANGE). -/
def ownRange (o n : Nat) : Bool := o + n ≤ 0x1E00000

/-! Group scales (R102, R103) -/

def Desc.ng (d : Desc) : Nat := cdiv (d.sz 0) d.g

/-- Entry of the group-scale array for element i. -/
def Desc.groupAt (d : Desc) (i : Nat) : Nat := i % d.sz 0 / d.g + d.ng * (i / d.sz 0)

/-- Number of entries. -/
def Desc.groups (d : Desc) : Nat := d.ng * (d.sz 1 * d.sz 2 * d.sz 3)

/-- R103: the array lies in the own slice and is 2-byte aligned. -/
def Desc.scalesOk (d : Desc) (t : Nat) : Bool :=
  d.sptr % 2 == 0 && inSlice t d.sptr (d.sptr + 2 * d.groups - 1)

def rdScales (m : Mem) (d : Desc) : List W64 := (List.range d.groups).map (fun j => BitVec.ofNat 64 (mnat m (d.sptr + 2 * j) 2))

/-! Scale records (Table 5.2) -/

structure ScaleRec where
  s : W64
  z : Int
  policy : Nat
  perch : Bool
  seed : Bool
  phase : Bool
  trip : Bool
  resc : Bool
  flim : Nat
  ccount : Nat
  cptr : Nat
  mn : W64
  mx : W64
  epoch : Nat
  sattot : Nat
  flushtot : Nat
  deriving DecidableEq, Repr

def parseRec (b : List Byte) : ScaleRec :=
  let f := field b 6 1
  { s := BitVec.ofNat 64 (field b 0 4), z := sext 16 (field b 4 2), policy := bits f 1 0, perch := bit f 2, seed := bit f 3,
    phase := bit f 4, trip := bit f 5, resc := bit f 6, flim := field b 16 4, ccount := field b 20 4, cptr := field b 24 8,
    mn := BitVec.ofNat 64 (field b 32 4), mx := BitVec.ofNat 64 (field b 36 4), epoch := field b 48 8,
    sattot := field b 56 4, flushtot := field b 60 4 }

/-- The scale epoch (R111). -/
def scaleEpoch (p : Pkg) : Nat := rget p rGlbBootcnt * 2 ^ 32 + rget p rGlbRestcnt

/-- R103 and R110 on a descriptor with SKIND 1. CPTR is an own-slice offset. -/
def recOk (p : Pkg) (t : Nat) (d : Desc) : Bool :=
  let r := parseRec (mread p.mem d.sptr 64)
  d.sptr % 64 == 0 && inSlice t d.sptr (d.sptr + 63)
  && decide (r.policy ≤ 1) && !(r.perch && r.policy == 1)
  && (!r.perch || (decide (2 ≤ d.rank) && r.ccount == d.sz 1 && r.cptr % 8 == 0 && ownRange r.cptr (8 * r.ccount)))
  && r.epoch == scaleEpoch p

/-- The scale and zero point of an A16 element with dimension-1 index i1 (R108). -/
def carryAt (p : Pkg) (t : Nat) (d : Desc) (i1 : Nat) : Carry :=
  if d.skind = 1 then
    let r := parseRec (mread p.mem d.sptr 64)
    if r.perch then
      let a := sliceBase t + r.cptr + 8 * i1
      { sc := BitVec.ofNat 64 (mnat p.mem a 4), z := sext 16 (mnat p.mem (a + 4) 2) }
    else { sc := r.s, z := r.z }
  else { z := d.zp }

/-- R118: the new scale and zero point from MIN and MAX. A free function of the two stands where one of them is a NaN, which no
rule covers. -/
def rescale (mn mx : W64) : W64 × Int :=
  let lo := (fMaxMin false .b32 mn 0#64).1
  let hi := (fMaxMin true .b32 mx 0#64).1
  let d := (fSub .b32 .rup hi lo).1
  let s := if d = infCode .b32 false then (roundFin .b32 .rne false 1 113).1
    else
      let s := (fDiv .b32 .rup d (roundFin .b32 .rne false 65533 0).1).1
      if s.toNat < 0x800000 then 0x800000#64 else s
  let q := (fDiv .b32 .rne lo s).1
  let nl : Int := match decodeFloat .b32 q with
    | .inf _ => -65533
    | .fin neg m e => (toFixed .rne 0 neg m e).1
    | .nan _ => -(((Config.operandWord 0 [mn.toNat, mx.toNat] 0).toNat % 65534 : Nat) : Int)
  (s, -32767 - min (max nl (-65533)) 0)

/-- Whether a orders below b, −0 below +0 (R53). -/
def ordersBelow (a b : Num) : Bool := let c := cmpNum a b; decide (c < 0) || (decide (c = 0) && isNeg a && !isNeg b)

/-- Least and greatest finite of the observed values, rounded outward into binary32; +0 when there is none (R117). DEDUCED
(log 115): where zeros of both signs are the extreme, −0 is the least and +0 the greatest, by R53. -/
def minMaxOut (vs : List Num) : W64 × W64 :=
  let fs := vs.filter isFin
  match fs with
  | [] => (0#64, 0#64)
  | v :: r =>
    let lo := r.foldl (fun a b => if ordersBelow b a then b else a) v
    let hi := r.foldl (fun a b => if ordersBelow a b then b else a) v
    ((encodeFloat .b32 .rdn lo).1, (encodeFloat .b32 .rup hi).1)

def sat32 (n : Nat) : Nat := min n 0xFFFFFFFF

/-- A conversion of observed values into A16 against the record of d (R115 to R118): each value with its channel and whether it
is counted; the codes with their flags, and the stores to the record. -/
def convertRec (p : Pkg) (t : Nat) (d : Desc) (vs : List (Num × Nat × Bool)) : List R × List BitW :=
  let r := parseRec (mread p.mem d.sptr 64)
  let re := decide (r.policy = 1) && r.phase
  let (ns, nz) := if re && r.trip then rescale r.mn r.mx else (r.s, r.z)
  let carry (i1 : Nat) : Carry := if r.perch then carryAt p t d i1 else { sc := ns, z := nz }
  let out := vs.map (fun v => let k := carry v.2.1; (toA16 k.sc k.z v.1, v.2.2))
  let cnt (f : Flags) := sat32 (out.countP (fun o => o.2 && (o.1.2 &&& f) != 0#16))
  let sat := cnt fSAT
  let flush := cnt fFLUSH
  let counts := [bytesW (d.sptr + 40) (natLe 4 sat ++ natLe 4 flush),
    bytesW (d.sptr + 56) (natLe 4 (sat32 (r.sattot + sat)) ++ natLe 4 (sat32 (r.flushtot + flush)))]
  -- PHASE, TRIP and RESC are bits 4 to 6 of byte 6; each field is written alone (R119)
  let flag (i : Nat) (b : Bool) : BitW := { addr := 8 * (d.sptr + 6) + i, w := 1, v := b2n b }
  let rest :=
    if r.policy = 0 then []
    else if !r.phase then
      let (mn, mx) := minMaxOut ((vs.filter (fun v => v.2.2)).map (fun v => v.1))
      [bytesW (d.sptr + 32) (natLe 4 mn.toNat ++ natLe 4 mx.toNat), flag 4 true, flag 5 (decide (0 < sat ∨ r.flim < flush))]
    else if r.trip then
      [bytesW d.sptr (natLe 4 ns.toNat ++ natLe 2 (wrapInt 16 nz)), flag 4 false, flag 5 false, flag 6 true]
    else [flag 4 false, flag 5 false]
  (out.map (fun o => o.1), counts ++ rest)

/-- Plan fault when a line to be read is uncorrectable. -/
def lineChk (p : Pkg) (ranges : List (Nat × Nat)) : Chk Unit :=
  match firstBad p ranges with
  | none => .ok ()
  | some l => .error { cause := 0x100, slot := l }

end Sys2Proof.Machine
end

