-- ==== Sys2Proof/Machine/Movement.lean ====
section
/-! DEFINITION. The data-movement instructions (02_tiles R38, R39; 04_matrix_engine R96 to R98; 12_fabric_semantics R290). -/

namespace Sys2Proof.Machine

/-- Release offset of held work (R35). -/
def tOff (w : Nat) : Nat := bits w 77 46

def launchMask (p : Pkg) (l : Nat) : Nat := ((findLaunch p l).map (fun y => y.tiles)).getD 0

/-- A held instruction's record (R35). -/
def heldFl (p : Pkg) (w : Nat) (wait : Wait) : InFl :=
  { inFl (cycleAt p (tOff w)) with held := true, fin := false, wait := wait }

/-- How far an end of a transfer lies from the issuing tile (R34): 0 own slice, 1 same AD, 2 another AD. -/
def reach (t : Nat) (a : Nat) : Nat :=
  let u := (a - 0x200000000000) / 0x4000000
  if u = t then 0 else if u / 16 = t / 16 then 1 else 2

/-- Latency of a movement whose farther end is at this reach (R34, R38). -/
def moveCycles (r n : Nat) : Nat :=
  if r = 0 then 6 + cdiv n 2048 else if r = 1 then 22 + cdiv n 1024 else 110 + cdiv n 512

/-- Bytes that n elements of a format occupy. -/
def elemBytes (f : Fmt) (n : Nat) : Nat := cdiv (f.width * n) 8

/-- The element moves of a copy: element i to element i in linear order (R39). -/
def copyMoves (a d : Desc) : List Move :=
  (List.range d.count).map (fun i => { dst := d.bitAt i, src := a.bitAt i, w := d.fmt.width })

/-- Index list of a gather or scatter: none when an index does not lie below the element count it indexes (R39). -/
def indices (m : Mem) (b : Desc) (n : Nat) : Option (List Nat) :=
  (rdElems m b b.count).mapM (fun c => let i := c.toNat; if i < n ∧ i < 2 ^ 31 then some i else none)

/-- The issue of a copying movement once its element moves are known: within the scratchpads at a fixed latency, with an end
in HBM as held work. `extra` is the 6 cycles of gather and scatter; `sqSrc`, `sqDst` mark the squirrel side. -/
def goMoves (t : Nat) (p : Pkg) (x : Tile) (w cyc : Nat) (a d : Desc) (ms : List Move) (extra : Nat) (sqSrc sqDst : Bool) :
    Chk (Pkg × InFl) := do
  let pad := padW d
  if !a.hbm && !d.hbm then
    let ranges := ms.map (fun m => (m.src / 8, (m.src % 8 + m.w + 7) / 8))
    lineChk p ranges
    let p := noteCes p ranges
    let effs := (movesFrom p.mem ms ++ pad).map Eff.bits
    let r := max (reach t a.addr) (reach t d.addr)
    .ok (p, { inFl (cyc + extra + moveCycles r (elemBytes d.fmt ms.length)) with effs := effs })
  else
    let who := Who.tile t (x.seq - 1)
    if a.hbm then
      need (!sqSrc || ms.all (fun m => !straddles m.src m.w)) fRange
      need (!(sqDst && d.hbm) || ms.all (fun m => !straddles m.dst m.w)) fRange
      let rs := if sqSrc then sqReads who ms else readReqs who (srcLines ms)
      .ok (enqueueAll p 0 rs, { heldFl p w .hbm with moves := ms, pend := rs.length, effs := pad.map Eff.bits })
    else
      need (!sqDst || ms.all (fun m => !straddles m.dst m.w)) fRange
      let ranges := ms.map (fun m => (m.src / 8, (m.src % 8 + m.w + 7) / 8))
      lineChk p ranges
      let p := noteCes p ranges
      let ws := movesFrom p.mem ms
      let rs := if sqDst then sqWrites who (ws ++ pad) else writeReqs who (ws ++ pad)
      .ok (enqueueAll p 0 rs, { heldFl p w .hbm with pend := rs.length })

/-- `DM.COPY` at issue (R39). -/
def goCopy (t : Nat) (p : Pkg) (l : Nat) (x : Tile) (w cyc : Nat) : Chk (Pkg × InFl) := do
  let mask := launchMask p l
  let a ← getDesc x t mask (slotA w) true false
  let d ← getDesc x t mask (slotC w) true false
  need (a.fcode == d.fcode && a.count == d.count) (fDesc (slotC w))
  goMoves t p x w cyc a d (copyMoves a d) 0 false false

/-- `DM.COPY` (Table 2.5). -/
def execDmCopy (t : Fin 128) (s : State) : Out := run s (fun c p => issue p c t 2 0x80 1 (goCopy t))

/-- `DM.GATHER` at issue: DC[i] = DA[DB[i]]. -/
def goGather (t : Nat) (p : Pkg) (l : Nat) (x : Tile) (w cyc : Nat) : Chk (Pkg × InFl) := do
  let mask := launchMask p l
  let a ← getDesc x t mask (slotA w) true false
  let b ← getDesc x t mask (slotB w) true false
  let d ← getDesc x t mask (slotC w) true false
  need (b.fmt == .i32 && b.own t && b.count == d.count) (fDesc (slotB w))
  need (a.fcode == d.fcode) (fDesc (slotC w))
  lineChk p b.ranges
  let p := noteCes p b.ranges
  match indices p.mem b a.count with
  | none => .error fRange
  | some ix =>
    goMoves t p x w cyc a d (ix.zipIdx.map (fun k => { dst := d.bitAt k.2, src := a.bitAt k.1, w := d.fmt.width })) 6 true true

/-- `DM.GATHER` (Table 2.5). -/
def execDmGather (t : Fin 128) (s : State) : Out := run s (fun c p => issue p c t 2 0x81 1 (goGather t))

/-- `DM.SCATTER` at issue: DC[DB[i]] = DA[i], in ascending i. -/
def goScatter (t : Nat) (p : Pkg) (l : Nat) (x : Tile) (w cyc : Nat) : Chk (Pkg × InFl) := do
  let mask := launchMask p l
  let a ← getDesc x t mask (slotA w) true false
  let b ← getDesc x t mask (slotB w) true false
  let d ← getDesc x t mask (slotC w) true false
  need (b.fmt == .i32 && b.own t && b.count == a.count) (fDesc (slotB w))
  need (a.fcode == d.fcode) (fDesc (slotC w))
  lineChk p b.ranges
  let p := noteCes p b.ranges
  match indices p.mem b d.count with
  | none => .error fRange
  | some ix =>
    goMoves t p x w cyc a d (ix.zipIdx.map (fun k => { dst := d.bitAt k.1, src := a.bitAt k.2, w := d.fmt.width })) 6 true true

/-- `DM.SCATTER` (Table 2.5). -/
def execDmScatter (t : Fin 128) (s : State) : Out := run s (fun c p => issue p c t 2 0x82 1 (goScatter t))

/-- `DM.FILL` at issue (R39). -/
def goFill (t : Nat) (p : Pkg) (l : Nat) (x : Tile) (w cyc : Nat) : Chk (Pkg × InFl) := do
  let d ← getDesc x t (launchMask p l) (slotC w) true false
  let pad := padW d
  let fill (v : Nat) := (List.range d.count).map (fun i => wrElem d i (BitVec.ofNat 64 v)) ++ pad
  if d.hbm then
    let o := 8 * bits w 21 0
    need (ownRange o 8) fRange
    lineChk p [(sliceBase t + o, 8)]
    let p := noteCes p [(sliceBase t + o, 8)]
    let rs := writeReqs (.tile t (x.seq - 1)) (fill (mnat p.mem (sliceBase t + o) 8))
    .ok (enqueueAll p 0 rs, { heldFl p w .hbm with pend := rs.length })
  else
    .ok (p, { inFl (cyc + moveCycles (reach t d.addr) (elemBytes d.fmt d.count)) with effs := (fill (bits w 63 0)).map Eff.bits })

/-- `DM.FILL` (Table 2.5). -/
def execDmFill (t : Fin 128) (s : State) : Out := run s (fun c p => issue p c t 2 0x83 1 (goFill t))

/-! Combining (R96 to R98) -/

def rowsRangeOk (ci n : Nat) (wide : Bool) : Bool :=
  decide (ci + n ≤ 4096) && (!wide || (ci % 2 == 0 && n % 2 == 0))

/-- `DM.COMBINE` at issue: its ranges (R96). -/
def goCombine (t : Nat) (p : Pkg) (_ : Nat) (_ : Tile) (w _ : Nat) : Chk (Pkg × InFl) := do
  let first := bits w 21 15
  let km1 := bits w 14 8
  let n := bits w 33 22 + 1
  need (decide (first + km1 ≤ 127) && decide (0 < km1) && decide (first ≤ t) && decide (t ≤ first + km1)
    && rowsRangeOk (bits w 45 34) n (bit w 7)) fRange
  .ok (p, heldFl p w .unit)

/-- `DM.COMBINE` (R96). -/
def execDmCombine (t : Fin 128) (s : State) : Out := run s (fun c p => issue p c t 2 0x84 1 (goCombine t))

/-- R97: `comb_combine` of two cells, with the flags raised. -/
def combCombine (f : Fmt) (a b : W64 × W64 × Flags) : W64 × W64 × Flags :=
  let (s, _, fl) := combAdd f a.1 0#64 b.1
  if !(finiteF f a.1 && finiteF f b.1) || !finiteF f s then (s, 0#64, a.2.2 ||| b.2.2 ||| fl)
  else (s, (fAdd f .rne (fAdd f .rne a.2.1 b.2.1).1 (sumError f a.1 b.1 s)).1, a.2.2 ||| b.2.2)

def combineLevel (f : Fmt) : List (W64 × W64 × Flags) → List (W64 × W64 × Flags)
  | a :: b :: r => combCombine f a b :: combineLevel f r
  | l => l

def combineLevels (f : Fmt) : Nat → List (W64 × W64 × Flags) → List (W64 × W64 × Flags)
  | 0, l => l
  | n + 1, l => combineLevels f n (combineLevel f l)

/-- The combine fields of an instruction word apart from its release offset. -/
def combineKey (w : Nat) : Nat := bits w 45 7

/-- The tile's waiting combine with these fields. -/
def waitingCombine (x : Tile) (key : Nat) : Option InFl :=
  x.infl.find? (fun f => f.held && !f.fin && !f.failed && f.wait == .unit && opcodeOf f.word.toNat == 0x84 && combineKey f.word.toNat == key)

/-- Address of comb cell j of a tile row (Table 4.3). -/
def rowCell (t row : Nat) (wide : Bool) (j : Nat) : Nat := combBase t + 2048 * row + (if wide then 16 else 8) * j

/-- The combine of the participants' cells and rows: stores for the root, its row states, the flags. -/
def combineEffects (p : Pkg) (first k ci n : Nat) (wide : Bool) : List Eff × List (Nat × RowSt) × Flags :=
  let f : Fmt := if wide then .b64 else .b32
  let rows := if wide then n / 2 else n
  let cells := (List.range rows).flatMap (fun r => (List.range 256).map (fun j =>
    let row := ci + (if wide then 2 * r else r)
    let parts := (List.range k).map (fun i =>
      let (s, e) := cellAt p.mem (rowCell (first + i) row wide j) wide
      (s, e, (0#16 : Flags)))
    (rowCell first row wide j, (combineLevels f (clog2 k) parts).headD (0#64, 0#64, 0#16))))
  let states := (List.range n).map (fun r =>
    let total := (List.range k).foldl (fun a i =>
      let x := sget (tile p (first + i)).rows (ci + r) {}
      a + (if x.touched then x.count + 1 else 0)) 0
    (ci + r, total + k - 2))
  let long := states.any (fun x => 0xFFFFF < x.2)
  (cells.map (fun e => Eff.bits (bytesW e.1 (natLe (if wide then 8 else 4) e.2.1.toNat ++ natLe (if wide then 8 else 4) e.2.2.1.toNat))),
   states.map (fun x => (x.1, { touched := true, count := min x.2 0xFFFFF })),
   cells.foldl (fun a e => a ||| e.2.2.2) (if long then fLONG else 0#16))

/-- When every participant FIRST to FIRST + K − 1 has issued the combine f of tile t, it begins in the cycle after the last issue
(R97, R98); the root's rows take the result when its instruction retires. An uncorrectable comb line fails it (R100). -/
def startCombine (c : Clock) (t : Nat) (p : Pkg) (f : InFl) : Pkg :=
  let x := tile p t
  let w := f.word.toNat
  let key := combineKey w
  let first := bits w 21 15
  let k := bits w 14 8 + 1
  let ci := bits w 45 34
  let n := bits w 33 22 + 1
  let wide := bit w 7
  let ts := (List.range k).map (fun i => first + i)
  let parts := ts.filterMap (fun u => (waitingCombine (tile p u) key).map (fun g => (u, g)))
  let last := parts.foldl (fun a g => max a g.2.issue) 0
  let now := cycleOf p c x.start
  if first ≠ t ∨ parts.length ≠ k ∨ now ≤ last ∨ parts.any (fun g => (tile p g.1).launch != x.launch) then p
  else
    let ranges := ts.map (fun u => (combBase u + 2048 * ci, 2048 * n))
    match firstBad p ranges with
    | some line =>
      let p := noteUe p c line
      parts.foldl (fun q g => failHeld q c g.1 g.2.seq 0x21) p
    | none =>
      let p := noteCes p ranges
      let (effs, rows, fl) := combineEffects p first k ci n wide
      let done := last + 1 + (114 + 4 * n) * clog2 k
      parts.foldl (fun q g => modInfl q g.1 g.2.seq (fun h =>
        { h with fin := decide (done ≤ h.due), wait := .none, flags := fl,
                 effs := if g.1 = first then effs ++ rows.map (fun r => Eff.rowSet r.1 r.2) else [] })) p

/-- A combine that has issued on this tile and has not begun. -/
def unstartedCombine (f : InFl) : Bool :=
  f.held && !f.fin && !f.failed && f.wait == .unit && opcodeOf f.word.toNat == 0x84

/-- `COMBINE_START` (R97, R98): every combine of tile t whose participants have all issued begins. -/
def execCombineStart (t : Fin 128) (s : State) : Out :=
  run s (fun c p => ((tile p t).infl.filter unstartedCombine).foldl (fun q f => startCombine c t q f) p)

/-- The store of an effect that is one. -/
def Eff.bits? : Eff → Option BitW
  | .bits b => some b
  | _ => none

/-! Fabric movements (R290, R292) -/

/-- The packets of a transfer whose destination bytes are these (R292): address and length. -/
def packetsOf (bits : List BitW) : List (Nat × Nat) := runs (touched bits)

/-- Window check of every packet of a transfer with class PLAN (R310). -/
def windowsOk (p : Pkg) (perm : Nat) (l : List (Nat × Nat)) : Bool := l.all (fun r => windowOk p r.1 r.2 perm clsPlan)

/-- The formats and counts of the two ends of a fabric movement agree. -/
def endsAgree (a d : Desc) : Bool := a.fcode == d.fcode && a.count == d.count

/-- Traffic of a movement's own-place pieces in HBM: partition 0, in the name of the instruction (R242, R287). -/
def chargeOwn (p : Pkg) (t n : Nat) (wr : Bool) (pieces : List (Nat × Nat)) : Pkg :=
  let l := pieces.map (fun r => (localOf r.1, r.2))
  enqueueAll p 0 (if wr then chargeWrites (.tile t n) l else chargeReads (.tile t n) l)

/-- Serves one packet of an outgoing movement inside the package (R287). -/
def serveOwn (p : Pkg) (c : Clock) (ty a : Nat) (bs : List Byte) : Served :=
  if ty = 0x01 then srvStore p c (localOf a) bs
  else srvFloatAdd p c (if ty = 0x06 then .b64 else .b32) (localOf a) bs

/-- The data of an outgoing movement is ready: packets to other places take it, packets to the own place are served. -/
def putData (p : Pkg) (c : Clock) (t : Nat) (f : InFl) (m : Mem) : Pkg :=
  let w := f.word.toNat
  let ws := movesFrom m f.moves ++ f.effs.filterMap Eff.bits?
  let out := applyWs [] ws
  let ty := if opcodeOf w = 0x88 then 0x01 else if (f.moves.headD ⟨0, 0, 0⟩).w = 64 then 0x06 else 0x07
  let p := { p with outs := p.outs.map (fun o =>
      if o.who = .tile t f.seq ∧ !o.ready then
        let h := parseHdr o.bytes
        { o with ready := true, bytes := mkPacket h (mread out h.daddr h.len) }
      else o) }
  let p := modInfl p t f.seq (fun g => { g with effs := [] })
  let own := (packetsOf ws).filter (fun r => placeOf r.1 == ownPlace p)
  let p := chargeOwn p t f.seq true own
  own.foldl (fun q r =>
    match serveOwn q c ty r.1 (mread out r.1 r.2) with
    | (q, .ok _) =>
      let q := countDso (countDso q (dsoOf w)) (ssoOf w)
      let q := modTile q t (fun x => { x with dests := destAck x.dests (placeOf r.1) true })
      modInfl q t f.seq oneDone
    | (q, .error e) => nakTile q c t f.seq e) p

/-- `DM.PUT` and `DM.FADD` at issue: windows, the packets and their sequence numbers, the reads of an HBM source. -/
def goSend (t perm : Nat) (fadd : Bool) (p : Pkg) (l : Nat) (x : Tile) (w _ : Nat) : Chk (Pkg × InFl) := do
  let mask := launchMask p l
  let a ← getDesc x t mask (slotA w) true false
  let d ← getDesc x t mask (slotC w) true true
  need (d.remote && endsAgree a d && (!fadd || d.fmt == .b64 || d.fmt == .b32)) (fDesc (slotC w))
  let ms := copyMoves a d
  let pad := padW d
  let pk := packetsOf (ms.map (fun m => { addr := m.dst, w := m.w, v := 0 }) ++ pad)
  need (windowsOk p perm pk) { cause := 0x0A }
  let ranges := ms.map (fun m => (m.src / 8, (m.src % 8 + m.w + 7) / 8))
  (if a.hbm then .ok () else lineChk p ranges)
  let p := if a.hbm then p else noteCes p ranges
  let who := Who.tile t (x.seq - 1)
  let ty := if !fadd then 0x01 else if d.fmt = .b64 then 0x06 else 0x07
  let far := pk.filter (fun r => placeOf r.1 != ownPlace p)
  let p := sendReqs p (bits w 15 0) who false false (far.map (fun r =>
    { ty := ty, daddr := r.1, payload := List.replicate r.2 0#8, dso := dsoOf w, sso := ssoOf w }))
  let p := modTile p t (fun y => { y with dests := pk.foldl (fun ds r => destIssue ds (placeOf r.1) 1 true) y.dests })
  if a.hbm then
    let rs := readReqs who (srcLines ms)
    .ok (enqueueAll p 0 rs, { heldFl p w .hbm with moves := ms, pend := rs.length, effs := pad.map Eff.bits })
  else .ok (p, { heldFl p w .packets with moves := ms, pend := pk.length, effs := pad.map Eff.bits })

/-- After the issue of an outgoing movement whose source lies in a scratchpad: its packets take their data at once. -/
def sendNow (p : Pkg) (c : Clock) (t n : Nat) : Pkg :=
  match findInfl p t n with
  | none => p
  | some f => if f.wait = .packets ∧ (opcodeOf f.word.toNat = 0x88 ∨ opcodeOf f.word.toNat = 0x8A) then putData p c t f p.mem else p

/-- `DM.PUT` (R38, R290). -/
def execDmPut (t : Fin 128) (s : State) : Out :=
  run s (fun c p => sendNow (issue p c t 2 0x88 1 (goSend t 1 false)) c t (tile p t).seq)

/-- `DM.FADD` (R38, R290). -/
def execDmFadd (t : Fin 128) (s : State) : Out :=
  run s (fun c p => sendNow (issue p c t 2 0x8A 1 (goSend t 3 true)) c t (tile p t).seq)

/-- All the data that an instruction reads has come: its stores wait for its release, go to HBM as write requests, or leave in
its packets. -/
def dataDone (p : Pkg) (c : Clock) (t : Nat) (f : InFl) : Pkg :=
  let w := f.word.toNat
  let m := gotMem f.got
  let op := opcodeOf w
  if op = 0x88 ∨ op = 0x8A then
    let p := modInfl p t f.seq (fun g => { g with wait := .packets, pend := (packetsOf (movesFrom m f.moves ++ f.effs.filterMap Eff.bits?)).length })
    putData p c t f m
  else
    let ws := movesFrom m f.moves
    if isHbm ((f.moves.headD ⟨0, 0, 0⟩).dst / 8) then
      let all := ws ++ f.effs.filterMap Eff.bits?
      let rs := if op = 0x81 ∨ op = 0x82 then sqWrites (.tile t f.seq) all else writeReqs (.tile t f.seq) all
      modInfl (enqueueAll p 0 rs) t f.seq (fun g => { g with wait := .hbm, moves := [], effs := [], pend := rs.length })
    else modInfl p t f.seq (fun g => { g with fin := !g.failed, effs := g.effs ++ ws.map Eff.bits })

/-- `DM.GET` at issue: windows, one load request for each piece of the remote source. -/
def goGet (t : Nat) (c : Clock) (p : Pkg) (l : Nat) (x : Tile) (w _ : Nat) : Chk (Pkg × InFl) := do
  let mask := launchMask p l
  let a ← getDesc x t mask (slotA w) true true
  let d ← getDesc x t mask (slotC w) true false
  need (a.remote && endsAgree a d) (fDesc (slotA w))
  let ms := copyMoves a d
  let pk := packetsOf (ms.map (fun m => { addr := m.src, w := m.w, v := 0 }))
  need (windowsOk p 0 pk) { cause := 0x0A }
  let far := pk.filter (fun r => placeOf r.1 != ownPlace p)
  let p := sendReqs p (bits w 15 0) (.tile t (x.seq - 1)) false true (far.map (fun r =>
    { ty := 0x02, daddr := r.1, op0 := r.2, dso := dsoOf w, sso := ssoOf w }))
  let own := pk.filter (fun r => placeOf r.1 == ownPlace p)
  let ds := pk.foldl (fun ds r => destIssue ds (placeOf r.1) 1 false) x.dests
  let p := modTile p t (fun y => { y with dests := own.foldl (fun ds r => destAck ds (placeOf r.1) false) ds })
  let p := chargeOwn p t (x.seq - 1) false own
  let fl := { heldFl p w .packets with moves := ms, pend := far.length, effs := (padW d).map Eff.bits }
  let (p, fl) := own.foldl (fun (st : Pkg × InFl) r =>
    match srvLoad st.1 c (localOf r.1) r.2 with
    | (q, .ok bs) => (countDso (countDso q (dsoOf w)) (ssoOf w), { st.2 with got := st.2.got ++ [(r.1, bs)] })
    | (q, .error e) =>
      (if e = nakRange then q else addCause q c l (if e = nakMemory then 0x21 else 0x20), { st.2 with failed := true, flags := if e = nakRange then 1#16 else 0#16 })) (p, fl)
  need (!(fl.failed && fl.flags == 1#16)) fRange
  .ok (p, { fl with flags := 0#16 })

/-- After the issue of a `DM.GET` all of whose pieces lie at the own place: its data is there. -/
def getNow (p : Pkg) (c : Clock) (t n : Nat) : Pkg :=
  match findInfl p t n with
  | none => p
  | some f => if f.wait = .packets ∧ f.pend = 0 ∧ !f.fin ∧ !f.failed ∧ opcodeOf f.word.toNat = 0x89 then dataDone p c t f else p

/-- `DM.GET` (R38, R290). -/
def execDmGet (t : Fin 128) (s : State) : Out :=
  run s (fun c p => getNow (issue p c t 2 0x89 1 (goGet t c)) c t (tile p t).seq)

end Sys2Proof.Machine
end

