-- ==== Sys2Proof/Machine/Sequencer.lean ====
section
/-! DEFINITION. The synchronisation instructions, undefined opcodes, retirement and release (02_tiles R20 to R47, 12 R306 to
R308). -/

namespace Sys2Proof.Machine

/-- An instruction that does nothing and retires in the next cycle. -/
def goNop (p : Pkg) (_ : Nat) (_ : Tile) (_ cyc : Nat) : Chk (Pkg × InFl) := .ok (p, inFl (cyc + 1))

/-- `SY.WAIT` (Table 2.5). -/
def execSyWait (t : Fin 128) (s : State) : Out := run s (fun c p => issue p c t 3 0xA0 1 goNop)

/-- `SY.SIGNAL` (Table 2.5). -/
def execSySignal (t : Fin 128) (s : State) : Out := run s (fun c p => issue p c t 3 0xA1 1 goNop)

/-- `SY.UNTIL`: held to launch tick t, with no work of its own. -/
def goUntil (p : Pkg) (_ : Nat) (_ : Tile) (w _ : Nat) : Chk (Pkg × InFl) := .ok (p, { heldFl p w .none with fin := true })
def execSyUntil (t : Fin 128) (s : State) : Out := run s (fun c p => issue p c t 3 0xA2 1 goUntil)

/-- The sync object that CLASS [45:0] names (R39). -/
def syncOf (w : Nat) : Option Nat :=
  let o := bits w 45 0
  if syncBase 0 ≤ o ∧ o ≤ syncBase 16383 ∧ o % 64 = 0 then some ((o - syncBase 0) / 64) else none

/-- `SY.ACQUIRE` (R308). -/
def goAcquire (p : Pkg) (_ : Nat) (_ : Tile) (w _ : Nat) : Chk (Pkg × InFl) :=
  match syncOf w with
  | none => .error fRange
  | some i => .ok (p, heldFl p w (.acquire i))
def execSyAcquire (t : Fin 128) (s : State) : Out := run s (fun c p => issue p c t 3 0xA3 1 goAcquire)

/-- `SYNC_ACQUIRE_DONE` (R308): the acquire in flight with this number finds COUNT ≥ THRESH; THRESH takes STEP in the same
update. -/
def execSyncAcquireDone (t : Fin 128) (n : Nat) (s : State) : Out :=
  run s (fun _ p =>
    match findInfl p t n with
    | none => p
    | some f =>
      match f.wait with
      | .acquire i =>
        let o := syncBase i
        if f.fin ∨ f.failed ∨ sext 64 (mnat p.mem o 8) < sext 64 (mnat p.mem (o + 8) 8) then p
        else modInfl (addWord p (o + 8) (mnat p.mem (o + 16) 8)) t n (fun g => { g with fin := true })
      | _ => p)

/-- `SY.RELEASE` at issue: the object, the window check of its NOTIFY address, the fence (R307, R310). -/
def goRelease (p : Pkg) (_ : Nat) (x : Tile) (w _ : Nat) : Chk (Pkg × InFl) :=
  match syncOf w with
  | none => .error fRange
  | some i => do
    let a := mnat p.mem (syncBase i + 24) 8
    need (a == 0 || windowOk p a 8 2 clsPlan) { cause := 0x0A }
    .ok (p, heldFl p w (.release i (fenceSnap x) false))
def execSyRelease (t : Fin 128) (s : State) : Out :=
  run s (fun c p => advanceTile (issue p c t 3 0xA4 1 goRelease) c t)

/-- `SY.FENCE` (R306). -/
def goFence (p : Pkg) (_ : Nat) (x : Tile) (w _ : Nat) : Chk (Pkg × InFl) := .ok (p, heldFl p w (.fence (fenceSnap x)))
def execSyFence (t : Fin 128) (s : State) : Out :=
  run s (fun c p => advanceTile (issue p c t 3 0xA5 1 goFence) c t)

/-- `SY.CLKON` at issue: tick L + t lies at least 750 ticks after the start of the issuing cycle (R39). -/
def goClkon (p : Pkg) (_ : Nat) (_ : Tile) (w cyc : Nat) : Chk (Pkg × InFl) := do
  need (decide (cycleUnits cyc + 750 * tickUnits p ≤ tickUnits p * tOff w)) fRange
  .ok (p, { heldFl p w .none with fin := true })
def execSyClkon (t : Fin 128) (s : State) : Out := run s (fun c p => issue p c t 3 0xA6 1 goClkon)

/-- `SY.END` (Table 2.5): it retires once everything before it has. -/
def execSyEnd (t : Fin 128) (s : State) : Out := run s (fun c p => issue p c t 3 0xA7 1 goNop)

/-- The opcodes that the chapters define. -/
def opDefined (o : Nat) : Bool :=
  decide (o ≤ 0x04) || o == 0x40 || (decide (0x80 ≤ o) && decide (o ≤ 0x84)) || (decide (0x88 ≤ o) && decide (o ≤ 0x8A))
  || (decide (0xA0 ≤ o) && decide (o ≤ 0xA7)) || (decide (0xB0 ≤ o) && decide (o ≤ 0xB1))
  || (decide (0xC0 ≤ o) && decide (o ≤ 0xC3)) || (decide (0xD0 ≤ o) && decide (o ≤ 0xD4))

/-- `UNDEFINED_OPCODE` (R27): the head of queue q holds a reserved or undefined opcode, or one of another queue's. -/
def execUndefinedOpcode (t : Fin 128) (q : Fin 4) (s : State) : Out :=
  run s (fun c p =>
    let x := tile p t
    match x.queue q with
    | [] => p
    | h :: _ =>
      let o := opcodeOf h.toNat
      if !x.running || x.stopped || (opDefined o && queueOf o == q.val) then p else planFault p c t 0x02 q 0 0)

/-! Retirement (R22, R33) -/

/-- The bytes that effects store. -/
def effStores (l : List Eff) : List (Nat × Nat) :=
  l.filterMap (fun e => match e with
    | .bits b => some (b.addr / 8, (b.addr % 8 + b.w + 7) / 8)
    | .add cell wide _ _ _ => some (cell, if wide then 16 else 8)
    | .flagVec a => some (a, 512)
    | _ => none)

/-- An uncorrectable line that the stores touch without replacing it (R252). -/
def badPart (p : Pkg) (st : List (Nat × Nat)) : Option Nat :=
  if p.badLines.isEmpty then none
  else p.badLines.find? (fun l =>
    let cov := sortNat (st.flatMap (fun r => (List.range r.2).filterMap (fun i =>
      let a := r.1 + i
      if l ≤ a ∧ a < l + 64 then some a else none)))
    decide (0 < cov.length) && decide (cov.length < 64))

/-- The lines that the stores replace whole end their errors (R252). -/
def healLines (p : Pkg) (st : List (Nat × Nat)) : Pkg :=
  if p.badLines.isEmpty && p.ceLines.isEmpty then p
  else
    let whole (l : Nat) := (sortNat (st.flatMap (fun r => (List.range r.2).filterMap (fun i =>
      let a := r.1 + i
      if l ≤ a ∧ a < l + 64 then some a else none)))).length == 64
    { p with badLines := p.badLines.filter (fun l => !whole l), ceLines := p.ceLines.filter (fun l => !whole l) }

/-- What a retiring MX instruction leaves for the acceptance rules (R92). -/
def mxRetired (x : Tile) (f : InFl) (cyc : Nat) : Tile :=
  if f.q ≠ 0 then x
  else
    let w := f.word.toNat
    let e := (mxCi w, mxRows w, cyc)
    let old (l : List (Nat × Nat × Nat)) := l.filter (fun r => cyc ≤ r.2.2)
    if mxPipe w = 0 then { x with loadRet := cyc + 1 }
    else if mxPipe w = 1 then { x with passRet := e :: old x.passRet }
    else { x with combRet := e :: old x.combRet }

/-- At the end of its tile's part the forager leaves scheduled mode and its vector datapath sleeps (R227). -/
def sleepVector (p : Pkg) (t : Nat) : Pkg :=
  { p with cores := sset p.cores t { sget p.cores t {} with sched := false, awake := false, waking := none } }

/-- `SY.CLKON` at its release: the clocks of the named units run (R39, R149, R180); a vector unit is awake (R227). -/
def startClocks (p : Pkg) (t mask : Nat) : Pkg :=
  let p := modTile p t (fun x => { x with clocks := Nat.lor x.clocks (mask % 8) })
  let p := if bit mask 2 then
      { p with cores := sset p.cores t { sget p.cores t {} with awake := true, waking := none } } else p
  let p := if bit mask 3 then rsetb p (sReg p (t / 8)) 2 false else p
  if bit mask 4 then rsetb p (uReg p (t / 16)) 2 false else p

/-- The end of an instruction: its stores and adds, its flags into the launch (R69), its token (R23, R25). -/
def retire (p : Pkg) (c : Clock) (t : Nat) (f : InFl) (cyc : Nat) : Pkg :=
  let st := effStores f.effs
  match badPart p st with
  | some l => memFail (modTile p t (fun x => { x with infl := x.infl.filter (fun g => g.seq != f.seq) })) c t l
  | none =>
    let p := noteOuts (healLines (keepOld p c st) st) (tile p t).launch st
    let x := tile p t
    let e := f.effs.foldl applyEff { mem := p.mem, rows := x.rows, lanes := [] }
    let w := f.word.toNat
    let x := mxRetired { x with rows := e.rows, infl := x.infl.filter (fun g => g.seq != f.seq) } f cyc
    let o := opcodeOf w
    let x := if o = 0xA7 then { x with ended := true } else x
    let p := setTile { p with mem := e.mem } t x
    let p := match x.launch with
      | some l => addFlags p l (f.flags ||| laneOr e.lanes)
      | none => p
    let p := if o = 0xA7 then sleepVector p t else if o = 0xA6 then startClocks p t (bits w 7 0) else p
    match (tile p t).signalTok (stok w) cyc with
    | some y => setTile p t y
    | none => planFault p c t 0x03 f.q 0 0

/-- The place of a retirement among those of its tile: its cycle; in one cycle the passes of the array first (R94), then in issue
order, and same-cycle issues in the order of the queues (R93, R119). -/
def retireKey (f : InFl) : List Nat := [f.due, b2n (opcodeOf f.word.toNat != 1), f.issue, f.q, f.seq]

/-- No other instruction of the tile's own work retires before this one. -/
def retiresFirst (x : Tile) (f : InFl) : Bool :=
  x.infl.all (fun g => g.seq == f.seq || opcodeOf g.word.toNat == 0xA7 || !decide (retireKey g < retireKey f))

/-- A fixed-latency instruction may retire: its cycle has come, and what retires before it has; for `SY.END` also the queues are
empty and everything issued before has retired. -/
def mayRetire (x : Tile) (f : InFl) (cyc : Nat) : Bool :=
  !f.held && decide (f.due ≤ cyc) && retiresFirst x f
  && (opcodeOf f.word.toNat != 0xA7
      || (x.mxq.isEmpty && x.scq.isEmpty && x.dmq.isEmpty && x.syq.isEmpty && x.infl.all (fun g => decide (f.seq ≤ g.seq))))

/-- `INSTRUCTION_RETIRE` (R22): the instruction in flight with this number. -/
def execInstructionRetire (t : Fin 128) (n : Nat) (s : State) : Out :=
  run s (fun c p =>
    let x := tile p t
    let cyc := cycleOf p c x.start
    match findInfl p t n with
    | none => p
    | some f => if mayRetire x f cyc then retire p c t f cyc else p)

/-- R37, R283: held work of the launch is unfinished at its release tick. A pulled copy that has not come is FAILED_FABRIC (R353).
Without a recorded cause FAILED_HARDWARE is one; what notices have told of counts as recorded. -/
def heldFailed (p : Pkg) (c : Clock) (l : Nat) (owes : Bool) : Pkg :=
  modLaunch p l (fun y =>
    if owes then { y with causes := y.causes ++ [(c.gsc, 0x22)] }
    else if y.causes ≠ [] then y else { y with causes := if y.told = [] then [(c.gsc, 0x20)] else y.told, told := [] })

/-- `HELD_RELEASE` (R35, R37): at the first tile cycle at or after L + t the held instruction retires, or, its work unfinished,
the tile stops. -/
def execHeldRelease (t : Fin 128) (n : Nat) (s : State) : Out :=
  run s (fun c p =>
    let x := tile p t
    let cyc := cycleOf p c x.start
    match findInfl p t n with
    | none => p
    | some f =>
      if !f.held || decide (cyc < f.due) || !retiresFirst x f then p
      else if f.fin && !f.failed && !owesHbm p (.tile t n) then retire p c t f cyc
      else
        let p := modTile p t (fun y => { y with stopped := true, infl := y.infl.filter (fun g => g.seq != n) })
        match x.launch with
        | none => p
        | some l => heldFailed p c l (owesCopy p t n))

end Sys2Proof.Machine
end

