-- ==== Sys2Proof/Machine/MatrixEngine.lean ====
section
/-! DEFINITION. The matrix engine (04_matrix_engine): products, adder tree, scale stage, and the five MX instructions. -/

namespace Sys2Proof.Machine

/-- A mode of Table 4.1: activation and weight formats, cycles per row, output columns, load cycles. -/
structure MxMode where
  act : Fmt
  wt : Fmt
  cyc : Nat
  cols : Nat
  load : Nat
  deriving DecidableEq, Repr

def mxMode (m : Nat) : Option MxMode :=
  if m = 0 then some ⟨.h16, .q4, 1, 512, 256⟩ else if m = 1 then some ⟨.a16, .q4, 1, 512, 256⟩
  else if m = 2 then some ⟨.h16, .q8, 1, 256, 256⟩ else if m = 3 then some ⟨.a16, .q8, 1, 256, 256⟩
  else if m = 4 then some ⟨.h16, .h8e, 1, 256, 256⟩ else if m = 5 then some ⟨.h16, .h8m, 1, 256, 256⟩
  else if m = 6 then some ⟨.h16, .h6, 1, 256, 256⟩ else if m = 7 then some ⟨.h16, .h16, 2, 256, 256⟩
  else if m = 8 then some ⟨.b32, .b32, 8, 256, 512⟩ else if m = 9 then some ⟨.b64, .b64, 32, 256, 1024⟩ else none

/-- The arithmetic format of a mode's tree and cells. -/
def treeFmt (m : Nat) : Fmt := if m = 9 then .b64 else .b32

/-- The exact value of a weight code: integer codes at scale 2^0 (R63). -/
def weightNum (f : Fmt) (c : W64) : Num := if f.isInt then intNum (codeInt f c) 0 else decodeFloat f c

/-- Low bits of the product field that are discarded (Table 3.7). -/
def dropBits (a w : Fmt) : Nat := if a = .h16 ∧ w = .q8 then 1 else if a = .h16 ∧ w = .h16 then 2 else 0

/-- R63 to R65: a product of the floating-point modes, delivered in the tree's format. -/
def mxProduct (mode : Nat) (a w : Fmt) (x y : W64) : R :=
  let f := treeFmt mode
  let v := decodeFloat a x
  let u := weightNum w y
  let (z, fl) := mulNum v u
  match z with
  | .fin n m e => let d := dropBits a w; let r := roundFin f .rne n (m >>> d) (e + d); (r.1, r.2 ||| fl)
  | _ => let r := encodeFloat f .rne z; (r.1, fl)

/-- One tree addition, flags kept (R67). -/
def treeAdd (f : Fmt) (rm : Rnd) (a b : R) : R := let r := fAdd f rm a.1 b.1; (r.1, r.2 ||| a.2 ||| b.2)

/-- One level of the tree: adjacent results, lower first (R78). -/
def treeLevel (f : Fmt) (rm : Rnd) : List R → List R
  | a :: b :: r => treeAdd f rm a b :: treeLevel f rm r
  | l => l

def treeLevels (f : Fmt) (rm : Rnd) : Nat → List R → List R
  | 0, l => l
  | n + 1, l => treeLevels f rm n (treeLevel f rm l)

def orFlags (l : List R) : Flags := l.foldl (fun a r => a ||| r.2) 0#16

/-- The result of a whole tree of 2^n leaves. -/
def treeSum (f : Fmt) (rm : Rnd) (n : Nat) (l : List R) : R := (treeLevels f rm n l).headD (0#64, 0#16)

/-- Consecutive groups of g elements; `fuel` groups. -/
def chunks {α : Type} (g : Nat) : Nat → List α → List (List α)
  | 0, _ => []
  | n + 1, l => l.take g :: chunks g n (l.drop g)

/-- R78, R104, R105: the tree result of output column j for one activation row. `row` holds the k activation codes, `S` the
activation scale and `z` the zero point of the row (A16 modes). NEG negates every product as formed, the +0 of an unloaded
position included (R77). -/
def columnResult (mode : Nat) (mm : MxMode) (b : WBuf) (neg : Bool) (row : List W64) (S : W64) (z : Int) (j : Nat) : R :=
  let wt (i : Nat) : W64 := b.codes.getD (j * b.k + i) 0#64
  let loaded (i : Nat) : Bool := decide (i < b.k) && decide (j < b.n)
  let ng := 256 / b.g
  let scaleAt (gi : Nat) : W64 := b.scales.getD (j * cdiv b.k b.g + gi) 0#64
  if mm.act = .a16 then
    let groups := (List.range ng).map (fun gi =>
      if !loaded (gi * b.g) then (0#64, 0#16)
      else
        let sum : Int := (List.range b.g).foldl (fun s i =>
          let i := gi * b.g + i
          if loaded i then s + (codeInt .a16 (row.getD i 0#64) - z) * codeInt mm.wt (wt i) else s) 0
        let sum := if neg then -sum else sum
        let a := finish .b32 .rne (mulNum (intNum sum 0) (decodeFloat .h16 (scaleAt gi)))
        let r := fMul .b32 .rne a.1 S
        (r.1, r.2 ||| a.2))
    treeSum .b32 .rne (Nat.log2 ng) groups
  else
    let f := treeFmt mode
    let prods := (List.range 256).map (fun i =>
      let pr := if loaded i then mxProduct mode mm.act mm.wt (row.getD i 0#64) (wt i) else (0#64, 0#16)
      (if neg then fNeg f pr.1 else pr.1, pr.2))
    if mode ≤ 6 then
      let groups := (List.range ng).zipWith (fun gi l =>
        let s := treeSum f .rne (Nat.log2 b.g) l
        if !loaded (gi * b.g) then s
        else
          let r := finish f .rne (mulNum (decodeFloat f s.1) (decodeFloat .h16 (scaleAt gi)))
          (r.1, r.2 ||| s.2)) (chunks b.g ng prods)
      treeSum f .rne (Nat.log2 ng) groups
    else treeSum f .rne 8 prods

/-- Byte address of a comb cell: 64-bit cell j of a tile row, or 128-bit cell j of the pair that starts there (R79). -/
def cellAddr (t row : Nat) (wide : Bool) (j : Nat) : Nat := combBase t + row * 2048 + (if wide then 16 else 8) * j

/-- R80: the rows named, or plan fault RANGE. -/
def combRows (w : Nat) : Chk (Nat × Nat) :=
  let ci := mxCi w
  let n := mxRows w
  if ci + n ≤ 4096 then .ok (ci, n) else .error fRange

/-- R85: with W = 1, CI even and RCNT odd. -/
def evenRows (wide : Bool) (ci n : Nat) : Chk Unit := need (!wide || (ci % 2 == 0 && n % 2 == 0)) fRange

/-- Byte range of comb rows. -/
def rowsRange (t ci n : Nat) : List (Nat × Nat) := [(combBase t + ci * 2048, n * 2048)]

/-- Cells of rows set to zero and the rows cleared. -/
def zeroRows (t ci n : Nat) : List Eff :=
  Eff.bits { addr := 8 * (combBase t + ci * 2048), w := 8 * 2048 * n, v := 0 } :: (List.range n).map (fun r => .rowClear (ci + r))

/-- `MX.LOADW` at issue (R74, R102, R103): the shadow buffer takes the tile and its group scales. -/
def goLoadw (t : Nat) (c : Pkg) (l : Nat) (x : Tile) (w cyc : Nat) : Chk (Pkg × InFl) := do
  let mask := ((findLaunch c l).map (fun y => y.tiles)).getD 0
  let mode := bits w 53 50
  match mxMode mode with
  | none => .error (fDesc (slotA w))
  | some mm =>
    let d ← getDesc x t mask (slotA w) false false
    need (d.fmt == mm.wt && d.rank == 2 && decide (d.sz 0 ≤ 256) && decide (d.sz 1 ≤ mm.cols) && d.own t
      && d.skind == (if mode ≤ 6 then 2 else 0) && (decide (6 < mode) || d.scalesOk t)) (fDesc (slotA w))
    let ranges := d.ranges ++ (if mode ≤ 6 then [(d.sptr, 2 * d.groups)] else [])
    lineChk c ranges
    let c := noteCes c ranges
    let b := WBuf.mk mode (d.sz 0) (d.sz 1) (if mode ≤ 6 then d.g else 256) (rdElems c.mem d d.count)
      (if mode ≤ 6 then rdScales c.mem d else [])
    .ok (modTile c t (fun y => { y with wshadow := some b }), inFl (cyc + 6 + mm.load))

/-- `MX.LOADW` (R74). -/
def execMxLoadw (t : Fin 128) (s : State) : Out :=
  run s (fun c p => issue p c t 0 0x00 1 (goLoadw t))

/-- The effects of one pass (R76, R82, R83). -/
def passEffs (t mode : Nat) (mm : MxMode) (b : WBuf) (neg clr : Bool) (ci n : Nat) (rows : List (List W64 × Carry)) : List Eff :=
  let R := rows.length
  (List.range n).map (fun r => Eff.rowPass (ci + r) clr
    ((List.range 256).map (fun j => if mode ≤ 1 ∧ R ≤ r then 256 + j else j)))
  ++ (rows.zipIdx.flatMap (fun rr =>
    let ((row, k), r) := rr
    (List.range mm.cols).flatMap (fun j =>
      let (v, fl) := columnResult mode mm b neg row k.sc k.z j
      let a := if mode = 9 then cellAddr t (ci + 2 * r) true j
        else if j < 256 then cellAddr t (ci + r) false j else cellAddr t (ci + R + r) false (j - 256)
      [Eff.lane j fl, Eff.add a (mode == 9) j v clr])))

/-- `MX.PASS` at issue (R75, R76): checks, the swap, the array's results. -/
def goPass (t : Nat) (c : Pkg) (l : Nat) (x : Tile) (w cyc : Nat) : Chk (Pkg × InFl) := do
  let mask := ((findLaunch c l).map (fun y => y.tiles)).getD 0
  let mode := bits w 53 50
  let fl := wFlags w
  match mxMode mode with
  | none => .error (fDesc (slotA w))
  | some mm =>
    let d ← getDesc x t mask (slotA w) false false
    let swap := bit fl 0
    match (if swap then x.wshadow else x.wact) with
    | none => .error (fDesc (slotA w))
    | some b =>
      need (d.fmt == mm.act && d.rank == 2 && d.own t && b.mode == mode && d.sz 0 == b.k
        && (d.skind == 0 || recOk c t d)) (fDesc (slotA w))
      let R := d.sz 1
      let n := mxRows w
      need (n == (if mode ≤ 1 ∨ mode = 9 then 2 * R else R)) (fDesc (slotA w))
      let (ci, n) ← combRows w
      need (mode != 9 || ci % 2 == 0) fRange
      let fva := 64 * bits w 18 0
      need (!bit fl 3 || ownRange fva 512) fRange
      let ranges := d.ranges ++ (if bit fl 1 then [] else rowsRange t ci n)
      lineChk c ranges
      let c := noteCes c ranges
      let rows := (List.range R).map (fun r =>
        ((List.range b.k).map (fun i => rdElem c.mem d (r * b.k + i)), carryAt c t d r))
      let effs := passEffs t mode mm b (bit fl 2) (bit fl 1) ci n rows
        ++ (if bit fl 3 then [Eff.flagVec (sliceBase t + fva)] else [])
      let c := modTile c t (fun y =>
        let y := if swap then { y with wact := y.wshadow, wshadow := y.wact, actUse := y.shadUse, shadUse := y.actUse } else y
        { y with passFree := cyc + R * mm.cyc, actUse := max y.actUse (cyc + 6 + R * mm.cyc) })
      .ok (c, { inFl (cyc + 30 + R * mm.cyc) with effs := effs })

/-- `MX.PASS` (R76). -/
def execMxPass (t : Fin 128) (s : State) : Out :=
  run s (fun c p => issue p c t 0 0x01 1 (goPass t))

/-- Converts a value into another floating-point format to nearest even; a NaN becomes the canonical NaN, a signalling one with
INV (R51, R85, R86). -/
def intoCell (src dst : Fmt) (c : W64) : R := encodeFloat dst .rne (decodeFloat src c)

/-- `MX.PRELOAD` at issue (R85). -/
def goPreload (t : Nat) (c : Pkg) (l : Nat) (x : Tile) (w cyc : Nat) : Chk (Pkg × InFl) := do
  let mask := ((findLaunch c l).map (fun y => y.tiles)).getD 0
  let d ← getDesc x t mask (slotA w) false false
  let wide := bit w 49
  let (ci, n) ← combRows w
  evenRows wide ci n
  let rows := if wide then n / 2 else n
  let bcast := bit (wFlags w) 0
  need ((d.fmt == .b32 || d.fmt == .h16 || d.fmt == .b64) && d.own t && d.sz 0 == 256
    && (if bcast then d.rank == 1 else d.rank == 2 && d.sz 1 == rows)) (fDesc (slotA w))
  lineChk c d.ranges
  let c := noteCes c d.ranges
  let f : Fmt := if wide then .b64 else .b32
  let effs := (List.range rows).flatMap (fun r => (List.range 256).flatMap (fun j =>
      let (v, fl) := intoCell d.fmt f (rdElem c.mem d (if bcast then j else r * 256 + j))
      let a := cellAddr t (ci + (if wide then 2 * r else r)) wide j
      [Eff.lane j fl, .bits { addr := 8 * a, w := if wide then 128 else 64, v := v.toNat }]))
    ++ (List.range n).map (fun r => Eff.rowClear (ci + r))
  .ok (c, { inFl (cyc + 8 + n) with effs := effs })

/-- `MX.PRELOAD` (R85). -/
def execMxPreload (t : Fin 128) (s : State) : Out :=
  run s (fun c p => issue p c t 0 0x02 1 (goPreload t))

/-- The value a drain takes from a cell: SUM + COMP rounded once (R86). -/
def drainValue (m : Mem) (a : Nat) (wide : Bool) : R :=
  let (s, c) := cellAt m a wide
  fAdd (if wide then .b64 else .b32) .rne s c

/-- R88: the 8-byte count record. -/
def countRecord (rs : List R) : List Byte :=
  let n (f : Flags) := sat32 (rs.countP (fun r => (r.2 &&& f) != 0#16))
  natLe 4 (n fSAT) ++ natLe 4 (n fFLUSH)

/-- `MX.DRAIN` at issue (R86 to R88, R115 to R118). DEDUCED (log 113): a SATC count record that leaves the own slice is plan
fault RANGE, as R70 and R71 give for the other taps. -/
def goDrain (t : Nat) (c : Pkg) (l : Nat) (x : Tile) (w cyc : Nat) : Chk (Pkg × InFl) := do
  let mask := ((findLaunch c l).map (fun y => y.tiles)).getD 0
  let d ← getDesc x t mask (slotC w) false false
  let wide := bit w 49
  let fl := wFlags w
  let (ci, n) ← combRows w
  evenRows wide ci n
  let rows := if wide then n / 2 else n
  need ((d.fmt == .b64 || d.fmt == .b32 || d.fmt == .h16 || (d.fmt == .a16 && d.skind == 1 && recOk c t d)) && d.own t
    && d.rank == 2 && decide (d.sz 0 ≤ 256) && d.sz 1 == rows) (fDesc (slotC w))
  let tap := 8 * bits w 48 27
  let fva := 64 * bits w 18 0
  let satAt := if bit fl 1 then tap + 0x208 else tap
  need ((!bit fl 1 || ownRange tap 520) && (!bit fl 2 || ownRange satAt 8) && (!bit fl 3 || ownRange fva 512)) fRange
  lineChk c (rowsRange t ci n)
  let c := noteCes c (rowsRange t ci n)
  let f : Fmt := if wide then .b64 else .b32
  let cols := d.sz 0
  let vals := (List.range rows).flatMap (fun r => (List.range cols).map (fun j =>
    (j, r, drainValue c.mem (cellAddr t (ci + (if wide then 2 * r else r)) wide j) wide)))
  let (outs, recW) :=
    if d.fmt = .a16 then convertRec c t d (vals.map (fun v => (decodeFloat f v.2.2.1, v.2.1, true)))
    else (vals.map (fun v => intoCell f d.fmt v.2.2.1), [])
  let effs := (vals.zip outs).zipIdx.flatMap (fun e =>
      let (((j, _, v), o), i) := e
      [Eff.lane j (v.2 ||| o.2), .bits (wrElem d i o.1)])
    ++ recW.map Eff.bits
    ++ (if bit fl 1 then [Eff.bits (bytesW (sliceBase t + tap) (pollenBytes (vals.map (fun v => decodeFloat f v.2.2.1))))] else [])
    ++ (if bit fl 2 then [Eff.bits (bytesW (sliceBase t + satAt) (countRecord outs))] else [])
    ++ (if bit fl 3 then [Eff.flagVec (sliceBase t + fva)] else [])
    ++ (if bit fl 0 then [] else zeroRows t ci n)
  .ok (c, { inFl (cyc + 10 + n) with effs := effs })

/-- `MX.DRAIN` (R86). -/
def execMxDrain (t : Fin 128) (s : State) : Out :=
  run s (fun c p => issue p c t 0 0x03 1 (goDrain t))

/-- `MX.ZERO` at issue (R89). -/
def goZero (t : Nat) (c : Pkg) (_ : Nat) (_ : Tile) (w cyc : Nat) : Chk (Pkg × InFl) := do
  let (ci, n) ← combRows w
  .ok (c, { inFl (cyc + 2 + cdiv n 4) with effs := zeroRows t ci n })

/-- `MX.ZERO` (R89). -/
def execMxZero (t : Fin 128) (s : State) : Out :=
  run s (fun c p => issue p c t 0 0x04 1 (goZero t))

end Sys2Proof.Machine
end

