-- ==== Sys2Proof/Machine/Dense.lean ====
section
/-! DEFINITION. The arithmetic of the solver engines' batched operations (07_solver_engines R164 to R170). -/

namespace Sys2Proof.Machine

/-- The arithmetic of a job (Table 7.4): ARITH and the rounding of binary64. -/
structure Ar where
  mode : Nat
  rm : Rnd
  deriving DecidableEq, Repr

def Ar.w (r : Ar) : Nat := if r.mode = 1 then 32 else 64
def Ar.bytes (r : Ar) : Nat := if r.mode = 1 then 4 else 8
/-- A fixed-point code as an integer. -/
def Ar.int (r : Ar) (c : W64) : Int := sext r.w c.toNat

/-- a·b + c with one rounding; n is that of the product's first factor. -/
def Ar.fma (r : Ar) (n : Nat) (a b c : W64) : R :=
  if r.mode = 0 then fFma .b64 r.rm a b c else xFma r.w n (r.int a) (r.int b) (r.int c)

/-- c − a·b with one rounding. -/
def Ar.nma (r : Ar) (n : Nat) (a b c : W64) : R :=
  if r.mode = 0 then fFma .b64 r.rm (fNeg .b64 a) b c else xFma r.w n (-(r.int a)) (r.int b) (r.int c)

def Ar.mul (r : Ar) (n : Nat) (a b : W64) : R :=
  if r.mode = 0 then fMul .b64 r.rm a b else xMul r.w n (r.int a) (r.int b)

def Ar.div (r : Ar) (n : Nat) (a b : W64) : R :=
  if r.mode = 0 then fDiv .b64 r.rm a b else xDiv r.w n (r.int a) (r.int b)

def Ar.sqrt (r : Ar) (n : Nat) (a : W64) : R :=
  if r.mode = 0 then fSqrt .b64 r.rm a else xSqrt r.w n (r.int a)

/-- 1 in the arithmetic at n. -/
def Ar.one (r : Ar) (n : Nat) : R := if r.mode = 0 then (0x3FF0000000000000#64, 0#16) else satCode r.w (2 ^ n)

/-- The work of one problem: elements by key, pivot rows, flags, pivot events, and whether a pivot index lay at or above N. -/
structure Wk where
  m : SMap W64 := []
  ip : SMap Nat := []
  fl : Flags := 0#16
  piv : List PivEv := []
  bad : Bool := false
  deriving DecidableEq, Repr

/-- Keys of element (i, j) of A, of B and X, and of element i of W. -/
def kA (i j : Nat) : Nat := j * 2 ^ 20 + i
def kX (i j : Nat) : Nat := 2 ^ 50 + j * 2 ^ 20 + i
def kW (i : Nat) : Nat := 2 ^ 51 + i

def Wk.g (k : Wk) (key : Nat) : W64 := sget k.m key 0#64
def Wk.put (k : Wk) (key : Nat) (r : R) : Wk := { k with m := sset k.m key r.1, fl := k.fl ||| r.2 }
def Wk.swap (k : Wk) (a b : Nat) : Wk :=
  if a = b then k else { k with m := sset (sset k.m a (k.g b)) b (k.g a) }

/-- element := element − a·b. -/
def Wk.sub (r : Ar) (n : Nat) (k : Wk) (dst a b : Nat) : Wk := k.put dst (r.nma n (k.g a) (k.g b) (k.g dst))

/-- element := element / divisor. -/
def Wk.quot (r : Ar) (n : Nat) (k : Wk) (dst b : Nat) : Wk := k.put dst (r.div n (k.g dst) (k.g b))

/-- a, a + 1, …, b − 1. -/
def rng (a b : Nat) : List Nat := (List.range (b - a)).map (fun i => a + i)

/-! The pivot rule (R167 to R169) -/

def lt64 (a b : W64) : Bool :=
  let x := decodeFloat .b64 a
  let y := decodeFloat .b64 b
  !isNan x && !isNan y && decide (cmpNum x y < 0)

/-- An ordered comparison of an operation, which raises INV for a NaN (R53). -/
def ltInv (a b : W64) : Bool × Flags := cmpRel .lt (decodeFloat .b64 a) (decodeFloat .b64 b)

/-- The infinity norm of a column: in fixed point the largest magnitude, as a number. -/
def norm64 (l : List W64) : W64 :=
  if l.any (fun c => isNan (decodeFloat .b64 c)) then canonNan .b64
  else l.foldl (fun a c => if lt64 a (fAbs .b64 c) then fAbs .b64 c else a) 0#64
def normFx (r : Ar) (l : List W64) : Nat := l.foldl (fun a c => max a (r.int c).natAbs) 0

def Ar.norm (r : Ar) (l : List W64) : W64 := if r.mode = 0 then norm64 l else BitVec.ofNat 64 (normFx r l)

/-- ⌈v · c⌉ of a finite non-negative v. -/
def ceilMul (v : Num) (c : Nat) : Nat :=
  match v with
  | .fin _ m e => if 0 ≤ e then m * 2 ^ e.toNat * c else cdiv (m * c) (2 ^ (-e).toNat)
  | _ => 0

/-- R167 to R169: the pivot used, whether it replaces p, the flags of the threshold's product and of the comparison. `chol`: the
rule of R168. -/
def pivotOf (r : Ar) (chol : Bool) (tau norm p : W64) : W64 × Bool × Flags :=
  if r.mode = 0 then
    let (th, fl) := fMul .b64 .rne tau norm
    if !finiteF .b64 th then (p, false, fl)
    else
      let th := if lt64 th 0x0010000000000000#64 then 0x0010000000000000#64 else th
      let (low, fc) := ltInv (if chol then p else fAbs .b64 p) th
      let v := if chol then th else if lt64 p 0#64 then fNeg .b64 th else th
      (if low then v else p, low, fl ||| fc)
  else
    let t := max 1 (min (ceilMul (decodeFloat .b64 tau) norm.toNat) (2 ^ (r.w - 1) - 1))
    let v := r.int p
    if v.natAbs < t then (BitVec.ofNat 64 (wrapInt r.w (if v < 0 then -(t : Int) else t)), true, 0#16) else (p, false, 0#16)

/-- Applies the pivot rule to an element and logs the replacement. -/
def Wk.pivot (r : Ar) (chol : Bool) (tau norm : W64) (prob idx : Nat) (k : Wk) (key : Nat) : Wk :=
  let p := k.g key
  let (v, rep, fl) := pivotOf r chol tau norm p
  if rep then
    { k with m := sset k.m key v, fl := k.fl ||| fl ||| fPIV,
             piv := k.piv ++ [{ prob := prob, k := idx, v := if r.mode = 0 then p else BitVec.ofInt 64 (r.int p) }] }
  else { k with fl := k.fl ||| fl }

/-! Operations (R164) -/

/-- The pivot row of step k: the lowest NaN, else the lowest of greatest magnitude. -/
def pivotRow (r : Ar) (k : Wk) (s n : Nat) : Nat :=
  let rows := rng s n
  if r.mode = 0 then
    match rows.find? (fun i => isNan (decodeFloat .b64 (k.g (kA i s)))) with
    | some i => i
    | none => rows.foldl (fun b i => if lt64 (fAbs .b64 (k.g (kA b s))) (fAbs .b64 (k.g (kA i s))) then i else b) s
  else rows.foldl (fun b i => if (r.int (k.g (kA b s))).natAbs < (r.int (k.g (kA i s))).natAbs then i else b) s

/-- Norms of the columns of A as received. -/
def colNorms (r : Ar) (k : Wk) (n : Nat) : List W64 :=
  (List.range n).map (fun j => r.norm ((List.range n).map (fun i => k.g (kA i j))))

/-- One elimination step of LU. -/
def luStep (r : Ar) (na n prob : Nat) (tau : W64) (norms : List W64) (k : Wk) (s : Nat) : Wk :=
  let pr := pivotRow r k s n
  let k := (List.range n).foldl (fun k j => k.swap (kA s j) (kA pr j)) { k with ip := sset k.ip s pr }
  let k := k.pivot r false tau (norms.getD s 0#64) prob s (kA s s)
  let k := (rng (s + 1) n).foldl (fun k i => k.quot r na (kA i s) (kA s s)) k
  (rng (s + 1) n).foldl (fun k j => (rng (s + 1) n).foldl (fun k i => k.sub r na (kA i j) (kA i s) (kA s j)) k) k

def luRun (r : Ar) (na n prob : Nat) (tau : W64) (k : Wk) : Wk :=
  (List.range n).foldl (luStep r na n prob tau (colNorms r k n)) k

/-- Key of element (i, j), i ≥ j, of the triangle that UPLO stores. -/
def kT (up : Bool) (i j : Nat) : Nat := if up then kA j i else kA i j

/-- Norms of the columns of the symmetric matrix rebuilt from the stored triangle. -/
def symNorms (r : Ar) (up : Bool) (k : Wk) (n : Nat) : List W64 :=
  (List.range n).map (fun j => r.norm ((List.range n).map (fun i => k.g (if j ≤ i then kT up i j else kT up j i))))

def cholCol (r : Ar) (up : Bool) (n prob : Nat) (tau : W64) (norms : List W64) (k : Wk) (j : Nat) : Wk :=
  let k := (List.range j).foldl (fun k q => k.sub r 0 (kT up j j) (kT up j q) (kT up j q)) k
  let k := k.pivot r true tau (norms.getD j 0#64) prob j (kT up j j)
  let k := k.put (kT up j j) (fSqrt .b64 r.rm (k.g (kT up j j)))
  (rng (j + 1) n).foldl (fun k i =>
    let k := (List.range j).foldl (fun k q => k.sub r 0 (kT up i j) (kT up i q) (kT up j q)) k
    k.quot r 0 (kT up i j) (kT up j j)) k

def cholRun (r : Ar) (up : Bool) (n prob : Nat) (tau : W64) (k : Wk) : Wk :=
  (List.range n).foldl (cholCol r up n prob tau (symNorms r up k n)) k

/-- One elimination step of LDLᵀ; w_ik stands in the work area of W. -/
def ldlStep (r : Ar) (up : Bool) (na n prob : Nat) (tau : W64) (norms : List W64) (k : Wk) (s : Nat) : Wk :=
  let k := k.pivot r false tau (norms.getD s 0#64) prob s (kT up s s)
  let k := (rng (s + 1) n).foldl (fun k i =>
    let k := k.quot r na (kT up i s) (kT up s s)
    k.put (kW i) (r.mul na (k.g (kT up i s)) (k.g (kT up s s)))) k
  (rng (s + 1) n).foldl (fun k j => (rng j n).foldl (fun k i => k.sub r na (kT up i j) (kW i) (kT up j s)) k) k

def ldlRun (r : Ar) (up : Bool) (na n prob : Nat) (tau : W64) (k : Wk) : Wk :=
  (List.range n).foldl (ldlStep r up na n prob tau (symNorms r up k n)) k

/-- One right-hand side of a triangular solve; `t i k` is the key of op(T)'s element. -/
def triCol (r : Ar) (na n : Nat) (lower unit : Bool) (t : Nat → Nat → Nat) (k : Wk) (c : Nat) : Wk :=
  (if lower then List.range n else (List.range n).reverse).foldl (fun k i =>
    let k := (if lower then List.range i else rng (i + 1) n).foldl (fun k q => k.sub r na (kX i c) (t i q) (kX q c)) k
    if unit then k else k.quot r na (kX i c) (t i i)) k

/-- The interchanges of IPIV on the rows of B; an entry at or above N stops them. -/
def permRows (n cols : Nat) (k : Wk) : Wk :=
  (List.range n).foldl (fun k i =>
    let q := sget k.ip i 0
    if k.bad || decide (n ≤ q) then { k with bad := true }
    else (List.range cols).foldl (fun k c => k.swap (kX i c) (kX q c)) k) k

def trsvRun (r : Ar) (na n cols : Nat) (up unit trans perm : Bool) (k : Wk) : Wk :=
  let k := if perm then permRows n cols k else k
  if k.bad then k
  else
    let lower := up == trans
    (List.range cols).foldl (triCol r na n lower unit (fun i q => if trans then kA q i else kA i q)) k

def invRun (r : Ar) (na nb n prob : Nat) (tau : W64) (k : Wk) : Wk :=
  let k := luRun r na n prob tau k
  let k := (List.range n).foldl (fun k j =>
    (List.range n).foldl (fun k i => k.put (kX i j) (if i = j then r.one nb else (0#64, 0#16))) k) k
  let k := permRows n n k
  let k := (List.range n).foldl (triCol r na n true true kA) k
  (List.range n).foldl (triCol r na n false false kA) k

/-- One Householder step. -/
def qrStep (rm : Rnd) (n : Nat) (k : Wk) (s : Nat) : Wk :=
  let f := Fmt.b64
  let sg : R := (rng (s + 1) n).foldl (fun a i =>
    let x := k.g (kA i s); let v := fFma f rm x x a.1; (v.1, a.2 ||| v.2)) (0#64, 0#16)
  let k := { k with fl := k.fl ||| sg.2 }
  if sg.1 = 0#64 then k.put (kW s) (0#64, 0#16)
  else
    let a := k.g (kA s s)
    let q := fFma f rm a a sg.1
    let mu := fSqrt f rm q.1
    let pos := decide (a = 0#64) || lt64 0#64 a
    let beta := if pos then fNeg f mu.1 else mu.1
    let d1 := fSub f rm beta a
    let tau := fDiv f rm d1.1 beta
    let d2 := fSub f rm a beta
    let k := { k with fl := k.fl ||| (q.2 ||| mu.2 ||| d1.2 ||| d2.2) }
    let k := k.put (kW s) tau
    let k := (rng (s + 1) n).foldl (fun k i => k.put (kA i s) (fDiv f rm (k.g (kA i s)) d2.1)) k
    let k := k.put (kA s s) (beta, 0#16)
    (rng (s + 1) n).foldl (fun k j =>
      let w : R := (rng (s + 1) n).foldl (fun x i =>
        let v := fFma f rm (k.g (kA i s)) (k.g (kA i j)) x.1; (v.1, x.2 ||| v.2)) (k.g (kA s j), 0#16)
      let t := fMul f rm tau.1 w.1
      let k := { k with fl := k.fl ||| (w.2 ||| t.2) }
      let k := k.put (kA s j) (fFma f rm (fNeg f t.1) 0x3FF0000000000000#64 (k.g (kA s j)))
      (rng (s + 1) n).foldl (fun k i => k.put (kA i j) (fFma f rm (fNeg f t.1) (k.g (kA i s)) (k.g (kA i j)))) k) k

def qrRun (rm : Rnd) (n : Nat) (k : Wk) : Wk := (List.range n).foldl (qrStep rm n) k

/-- `rot` of R166 on two elements. -/
def Wk.rot (rm : Rnd) (c s : W64) (k : Wk) (a b : Nat) : Wk :=
  let u := k.g a
  let v := k.g b
  let y := fMul .b64 rm s v
  let z := fMul .b64 rm c v
  let k := { k with fl := k.fl ||| (y.2 ||| z.2) }
  (k.put a (fFma .b64 rm c u (fNeg .b64 y.1))).put b (fFma .b64 rm s u z.1)

/-- The sign of th: +1 for both zeros. -/
def sign1 (c : W64) : W64 := if lt64 c 0#64 then 0xBFF0000000000000#64
  else if isNan (decodeFloat .b64 c) then c else 0x3FF0000000000000#64

/-- `jacobi_pair` of R166. -/
def jacobiPair (rm : Rnd) (n : Nat) (k : Wk) (p q : Nat) : Wk :=
  let f := Fmt.b64
  let one : W64 := 0x3FF0000000000000#64
  let two : W64 := 0x4000000000000000#64
  let a := k.g (kA p p)
  let b := k.g (kA q q)
  let d := k.g (kA p q)
  let (zero, fz) := cmpRel .eq (decodeFloat f d) (decodeFloat f 0#64)
  if zero then k
  else
    let df := fSub f rm b a
    let d2 := fMul f rm two d
    let th := fDiv f rm df.1 d2.1
    let (t, tf) : R :=
      let (big, fb) := ltInv 0x5F30000000000000#64 (fAbs f th.1)
      if big then
        let t2 := fMul f rm two th.1
        let t := fDiv f rm one t2.1
        (t.1, t2.2 ||| t.2)
      else
        let sq := fMul f rm th.1 th.1
        let s1 := fAdd f rm sq.1 one
        let rt := fSqrt f rm s1.1
        let de := fAdd f rm (fAbs f th.1) rt.1
        let t := fDiv f rm (sign1 th.1) de.1
        (t.1, fb ||| sq.2 ||| s1.2 ||| rt.2 ||| de.2 ||| t.2)
    let tt := fMul f rm t t
    let t1 := fAdd f rm tt.1 one
    let rt := fSqrt f rm t1.1
    let c := fDiv f rm one rt.1
    let s := fMul f rm t c.1
    let k := { k with fl := k.fl ||| (fz ||| df.2 ||| d2.2 ||| th.2 ||| tf ||| tt.2 ||| t1.2 ||| rt.2 ||| c.2 ||| s.2) }
    let k := (List.range n).foldl (fun k r => k.rot rm c.1 s.1 (kA r p) (kA r q)) k
    let k := (List.range n).foldl (fun k r => k.rot rm c.1 s.1 (kX r p) (kX r q)) k
    let k := (List.range n).foldl (fun k r => k.rot rm c.1 s.1 (kA p r) (kA q r)) k
    (k.put (kA p q) (0#64, 0#16)).put (kA q p) (0#64, 0#16)

/-- Insertion that keeps the order ascending and stable, NaNs last. -/
def insertVal (e : W64 × Nat) : List (W64 × Nat) → List (W64 × Nat)
  | [] => [e]
  | h :: t => if lt64 h.1 e.1 || (isNan (decodeFloat .b64 e.1) && !isNan (decodeFloat .b64 h.1)) then h :: insertVal e t
      else e :: h :: t

def jacobiRun (rm : Rnd) (n sweeps : Nat) (k : Wk) : Wk :=
  let k := (List.range n).foldl (fun k i => k.put (kX i i) (0x3FF0000000000000#64, 0#16)) k
  let k := (List.range sweeps).foldl (fun k _ =>
    (List.range n).foldl (fun k p => (rng (p + 1) n).foldl (fun k q => jacobiPair rm n k p q) k) k) k
  let order := ((List.range n).map (fun i => (k.g (kA i i), i))).foldr insertVal []
  let xs := k
  (List.range n).foldl (fun k j =>
    let e := order.getD j (0#64, 0)
    let k := k.put (kW j) (e.1, 0#16)
    (List.range n).foldl (fun k i => k.put (kX i j) (xs.g (kX i e.2), 0#16)) k) k

end Sys2Proof.Machine
end

