-- ==== Sys2Proof/Machine/Solver.lean ====
section
/-! DEFINITION. Dispatch, batched jobs and job ends of the solver engines (07_solver_engines R149 to R165, R171, R178). The
dispatch rules are shared with the update engines (R181). -/

namespace Sys2Proof.Machine

/-! The plan's sections (R41) -/

def findPlan (p : Pkg) (id : Nat) : Option Plan := (p.plans.find? (fun e => e.1 == id)).map (fun e => e.2)

/-- Address and length of a section of a plan in the store. -/
def planSec (p : Pkg) (plan ty : Nat) : Option (Nat × Nat) :=
  match findPlan p plan with
  | none => none
  | some pl => (List.range 8).findSome? (fun i =>
      let o := pl.base + 0x60 + 16 * i
      if mnat p.mem o 4 = ty then some (pl.base + mnat p.mem (o + 4) 4, mnat p.mem (o + 8) 4) else none)

/-- The section of the plan that a launch runs. -/
def launchSec (p : Pkg) (l ty : Nat) : Option (Nat × Nat) :=
  match findLaunch p l with
  | none => none
  | some y => planSec p y.plan ty

/-- The group list of a plan's traffic-schedule section (R302). -/
def planGroups (p : Pkg) (plan : Nat) : List Nat :=
  match findPlan p plan, planSec p plan 5 with
  | some pl, some (o, _) => (List.range (mnat p.mem (pl.base + 0x48) 2)).map (fun i => mnat p.mem (o + 16 + 2 * i) 2)
  | _, _ => []

/-- A launch's plan lists a group. -/
def groupListed (p : Pkg) (l g : Nat) : Bool := ((findLaunch p l).map (fun y => (planGroups p y.plan).contains g)).getD false

/-! Jobs -/

def findJob (p : Pkg) (id : Nat) : Option Job := p.jobs.find? (fun j => j.id == id)
def modJob (p : Pkg) (id : Nat) (f : Job → Job) : Pkg :=
  { p with jobs := p.jobs.map (fun j => if j.id = id then f j else j) }

/-- The launch cycle now, for a job. -/
def jobCycle (p : Pkg) (c : Clock) (j : Job) : Nat :=
  cycleOf p c (((findLaunch p j.launch).map (fun y => y.L)).getD 0)

/-- Adds a job to the package as its instruction issues. -/
def addJob (p : Pkg) (j : Job) : Pkg :=
  addWork { p with jobs := p.jobs ++ [{ j with id := p.nextJob }], nextJob := p.nextJob + 1 } j.launch 1

/-- Register base of the engine that a job runs on. -/
def jobReg (p : Pkg) (j : Job) : Nat := if j.ue then uReg p j.unit else sReg p j.unit

/-- A job is over: its instruction's work is finished or failed, its flags go to the instruction (R156). -/
def closeJob (p : Pkg) (j : Job) (ok : Bool) (flags : Flags) : Pkg :=
  let p := modJob p j.id (fun k => { k with closed := true, running := false, writes := [] })
  let p := modInfl p j.tile j.seq (fun f => { f with fin := ok && !f.failed, failed := f.failed || !ok, flags := f.flags ||| flags })
  addWork p j.launch (-1)


/-- R154, third condition: a dispatch counts as earlier by its cycle, then by its logical tile. -/
def earlierJob (k j : Job) : Bool := decide (k.issued < j.issued) || (k.issued == j.issued && decide (k.tile < j.tile))

/-- The schedule fault of R154 and R181. -/
def schedCause (j : Job) : Nat := if j.ue then 0x07 else 0x06

/-- A dispatch ends in a plan fault on its tile before its job starts. -/
def refuseJob (p : Pkg) (c : Clock) (j : Job) (cause : Nat) : Pkg :=
  planFault (closeJob p j false 0#16) c j.tile cause 3 0 0

/-- R154: a dispatch reaches its engine 128 cycles after issue. -/
def arriveJob (p : Pkg) (c : Clock) (ue : Bool) (n : Nat) : Pkg :=
  match findJob p n with
  | none => p
  | some j =>
    if j.ue != ue || j.arrived || j.closed || decide (jobCycle p c j < j.issued + 128) then p
    else
      let late := decide (cycleAt p j.s < j.issued + 128)
      let early := p.jobs.any (fun k => k.ue == ue && k.unit == j.unit && k.launch == j.launch && earlierJob k j
        && decide (j.s < k.s + k.wc))
      if late || early then refuseJob p c j (schedCause j) else modJob p n (fun k => { k with arrived := true })

/-- The cycle in which a job starts (R154, R155): that of its start tick, or the one after an earlier job that was still
running then. -/
def beginCycle (p : Pkg) (j : Job) : Nat :=
  let s := cycleAt p j.s
  (p.jobs.filter (fun k => k.ue == j.ue && k.unit == j.unit && k.launch == j.launch && k.closed && earlierJob k j)).foldl
    (fun a k => if a ≤ k.ends ∧ s < k.ends then k.ends + 1 else a) s

/-- The engine's clock is stopped. -/
def engineAsleep (p : Pkg) (j : Job) : Bool := rbit p (jobReg p j) 2

/-- Whether an arrived job may start now: its cycle has come and no other job holds the engine. -/
def mayStart (p : Pkg) (c : Clock) (j : Job) : Bool :=
  j.arrived && !j.running && !j.closed && decide (beginCycle p j ≤ jobCycle p c j)
  && !p.jobs.any (fun k => k.ue == j.ue && k.unit == j.unit && k.running)
  && !p.jobs.any (fun k => k.ue == j.ue && k.unit == j.unit && k.launch == j.launch && k.arrived && !k.closed
      && earlierJob k j && k.id != j.id)

/-- The engine takes the job (Tables 7.9, 8.11). -/
def takeJob (p : Pkg) (j : Job) : Pkg :=
  let o := jobReg p j + 4
  let p := if j.ue then rset p o (j.idx + j.op * 2 ^ 8 + j.tile * 2 ^ 16) else rset p o (j.idx + j.tile * 2 ^ 16)
  modJob p j.id (fun k => { k with running := true, began := beginCycle p j })

/-! Job records (R158 to R161) -/

structure JRec where
  kind : Nat
  uplo : Bool
  unit : Bool
  trans : Bool
  perm : Bool
  jfl : Nat
  n : Nat
  cfg : Nat
  nb : Nat
  nrhs : Nat
  lppl : Nat
  sweeps : Nat
  a : Nat
  b : Nat
  x : Nat
  w : Nat
  ipiv : Nat
  stat : Nat
  log : Nat
  tau : W64
  astr : Nat
  bstr : Nat
  wc : Nat
  prog : Nat
  fact : Nat
  jstat : Nat
  rest : Nat
  deriving DecidableEq, Repr

def parseJob (r : List Byte) : JRec :=
  let jf := field r 1 1
  let f8 (o : Nat) := field r o 8
  { kind := field r 0 1, uplo := bit jf 0, unit := bit jf 1, trans := bit jf 2, perm := bit jf 3, jfl := jf, n := field r 2 2,
    cfg := field r 4 4, nb := field r 8 4, nrhs := field r 12 2, lppl := field r 14 1, sweeps := field r 15 1, a := f8 16,
    b := f8 24, x := f8 32, w := f8 40, ipiv := f8 48, stat := f8 56, log := f8 64, tau := BitVec.ofNat 64 (f8 72),
    astr := f8 80, bstr := f8 88, wc := field r 96 4, prog := field r 100 4, fact := f8 104, jstat := f8 112, rest := f8 120 }

def JRec.ar (r : JRec) (radef : Nat) : Ar := { mode := bits r.cfg 1 0, rm := rndOfRa (bits r.cfg 4 2) radef }
def JRec.na (r : JRec) : Nat := bits r.cfg 11 6
def JRec.nbx (r : JRec) : Nat := bits r.cfg 17 12
def JRec.eb (r : JRec) : Nat := if bits r.cfg 1 0 = 1 then 4 else 8
def JRec.ld (r : JRec) : Nat := cdiv r.n 8 * 8
def JRec.nsweeps (r : JRec) : Nat := if r.sweeps = 0 then 8 else r.sweeps
def JRec.tau' (r : JRec) : W64 := if r.tau = 0#64 then 0x3D70000000000000#64 else r.tau
def JRec.xcols (r : JRec) : Nat := if r.kind = 5 then r.nrhs else r.n

/-- Which fields Table 7.11 marks for a KIND. -/
def JRec.usesX (r : JRec) : Bool := r.kind == 5 || r.kind == 6 || r.kind == 7
def JRec.usesW (r : JRec) : Bool := r.kind == 4 || r.kind == 7
def JRec.usesIp (r : JRec) : Bool := r.kind == 1 || r.kind == 6 || (r.kind == 5 && r.perm)
def JRec.usesLog (r : JRec) : Bool := r.kind == 1 || r.kind == 2 || r.kind == 3 || r.kind == 6 || r.kind == 0x10
def JRec.batched (r : JRec) : Bool := decide (1 ≤ r.kind) && decide (r.kind ≤ 7)

/-- R160 for a record that an opcode names: `sparse` for `SV.SPARSE`. -/
def JRec.ok (r : JRec) (sparse : Bool) : Bool :=
  let al (b : Bool) (a : Nat) := !b || a % 64 == 0
  let arith := bits r.cfg 1 0
  let fixedOk := arith == 0 || r.kind == 0x10 || (decide (r.na < 8 * r.eb) && decide (r.nbx < 8 * r.eb) && decide (bits r.cfg 23 18 < 8 * r.eb))
  let tauOk := match decodeFloat .b64 r.tau with
    | .fin neg m e => decide (r.tau = 0#64) || (!neg && decide (0 < m) && decide (cmpNum (.fin false m e) (.fin false 1 0) < 0))
    | _ => false
  (if sparse then r.kind == 0x10 else r.batched)
  && r.rest == 0 && decide (r.jfl < 16) && !bit r.cfg 5 && bits r.cfg 31 24 == 0 && arith != 3
  && !(arith != 0 && (r.kind == 2 || r.kind == 4 || r.kind == 7)) && fixedOk
  && decide (r.wc ≠ 0) && al true r.jstat
  && (if r.kind = 0x10 then r.nb == 1 else decide (1 ≤ r.nb) && decide (r.nb ≤ 65536))
  && (!r.batched || (decide (1 ≤ r.n) && decide (r.n ≤ 64) && [0, 2, 4, 6, 8].contains r.lppl && al true r.a && al true r.astr
        && al true r.stat))
  && (r.kind != 5 || (decide (1 ≤ r.nrhs) && decide (r.nrhs ≤ 64) && al true r.b))
  && (!r.usesX || (al true r.x && al true r.bstr)) && (r.kind != 7 || decide (r.sweeps ≤ 16))
  && al r.usesW r.w && al r.usesIp r.ipiv && (!r.usesLog || (tauOk && al true r.log)) && al (r.kind == 0x10) r.fact

/-! Addresses (R152) -/

/-- The model address of n bytes that an SLV reaches at an address. -/
def slvMap (mask s a n : Nat) : Option Nat :=
  if a + n ≤ hbmUserEnd then some a
  else if isSlice a then
    let t := (a - 0x200000000000) / 0x4000000
    if bit mask t && decide (a % 0x4000000 + n ≤ 0x1E00000) then some a else none
  else if 0x3E0000000000 ≤ a ∧ a + n ≤ 0x3E0001000000 then some (panelBase s + (a - 0x3E0000000000))
  else none

def slvAt (mask s a : Nat) : Nat := (slvMap mask s a 0).getD 0

/-- The operands of problem b: address, bytes, and whether they are read. -/
def JRec.spans (r : JRec) (b : Nat) : List (Nat × Nat × Bool) :=
  let e := r.eb
  let mat (cols : Nat) := e * (r.ld * (cols - 1) + r.n)
  (r.a + b * r.astr, mat r.n, true) :: (r.stat + 8 * b, 8, false)
    :: (if r.kind = 5 then [(r.b + b * r.bstr, mat r.nrhs, true)] else [])
    ++ (if r.usesX then [(r.x + b * r.bstr, mat r.xcols, false)] else [])
    ++ (if r.usesW then [(r.w + e * r.ld * b, e * r.ld, false)] else [])
    ++ (if r.usesIp then [(r.ipiv + 64 * b, 64, r.kind == 5)] else [])

def JRec.allSpans (r : JRec) : List (Nat × Nat × Bool) :=
  (if r.batched then (List.range r.nb).flatMap r.spans else [(r.fact, 64, true)])
    ++ (if r.usesLog then [(r.log, 1040, false)] else []) ++ [(r.jstat, 64, false)]

/-- The bytes that an operation reads; Cholesky, LDLᵀ and the triangular solve read one triangle. -/
def JRec.readSpans (r : JRec) (b : Nat) : List (Nat × Nat) :=
  let e := r.eb
  let a := r.a + b * r.astr
  let tri := r.kind == 2 || r.kind == 3 || r.kind == 5
  (List.range r.n).map (fun c =>
      if !tri then (a + e * (r.ld * c), e * r.n)
      else if r.uplo then (a + e * (r.ld * c), e * (c + 1)) else (a + e * (r.ld * c + c), e * (r.n - c)))
    ++ (if r.kind = 5 then (List.range r.nrhs).map (fun c => (r.b + b * r.bstr + e * (r.ld * c), e * r.n)) else [])
    ++ (if r.kind = 5 ∧ r.perm then [(r.ipiv + 64 * b, r.n)] else [])

/-! Running a batch -/

/-- Loads problem b. -/
def JRec.load (r : JRec) (m : Mem) (at_ : Nat → Nat) (b : Nat) : Wk :=
  let e := r.eb
  let el (base i j : Nat) : W64 := BitVec.ofNat 64 (mnat m (at_ base + e * (r.ld * j + i)) e)
  let k : Wk := {}
  let k := (List.range r.n).foldl (fun k j => (List.range r.n).foldl (fun k i =>
    { k with m := sset k.m (kA i j) (el (r.a + b * r.astr) i j) }) k) k
  let k := if r.kind = 5 then (List.range r.nrhs).foldl (fun k j => (List.range r.n).foldl (fun k i =>
    { k with m := sset k.m (kX i j) (el (r.b + b * r.bstr) i j) }) k) k else k
  if r.kind = 5 ∧ r.perm then
    { k with ip := (List.range r.n).map (fun i => (i, mnat m (at_ (r.ipiv + 64 * b) + i) 1)) }
  else k

/-- The operation of the KIND (Table 7.5). -/
def JRec.compute (r : JRec) (ar : Ar) (b : Nat) (k : Wk) : Wk :=
  if r.kind = 1 then luRun ar r.na r.n b r.tau' k
  else if r.kind = 2 then cholRun ar r.uplo r.n b r.tau' k
  else if r.kind = 3 then ldlRun ar r.uplo r.na r.n b r.tau' k
  else if r.kind = 4 then qrRun ar.rm r.n k
  else if r.kind = 5 then trsvRun ar r.na r.n r.nrhs r.uplo r.unit r.trans r.perm k
  else if r.kind = 6 then invRun ar r.na r.nbx r.n b r.tau' k
  else jacobiRun ar.rm r.n r.nsweeps k

/-- The outputs of problem b (Table 7.5, R161, R165). -/
def JRec.outputs (r : JRec) (at_ : Nat → Nat) (b : Nat) (k : Wk) : List BitW :=
  let e := r.eb
  let el (base i j key : Nat) : BitW := { addr := 8 * (at_ base + e * (r.ld * j + i)), w := 8 * e, v := (k.g key).toNat % 2 ^ (8 * e) }
  let ax := r.a + b * r.astr
  let tri := r.kind == 2 || r.kind == 3
  let aw := if r.kind = 5 ∨ r.kind = 7 then [] else
    (List.range r.n).flatMap (fun j => (List.range r.n).filterMap (fun i =>
      if tri && (if r.uplo then decide (j < i) else decide (i < j)) then none else some (el ax i j (kA i j))))
  let xw := if r.usesX then
      (List.range r.xcols).flatMap (fun j => (List.range r.n).map (fun i => el (r.x + b * r.bstr) i j (kX i j)))
    else []
  let ww := if r.usesW then
      (List.range r.ld).map (fun i => el (r.w + e * r.ld * b) i 0 (if i < r.n then kW i else kW (2 ^ 20)))
    else []
  let iw := if r.kind = 1 ∨ r.kind = 6 then
      [bytesW (at_ (r.ipiv + 64 * b)) ((List.range r.n).flatMap (fun i => natLe 1 (sget k.ip i 0)))]
    else []
  aw ++ xw ++ ww ++ iw ++ [bytesW (at_ (r.stat + 8 * b)) (natLe 2 k.fl.toNat ++ natLe 2 (min k.piv.length 0xFFFF) ++ natLe 4 0)]

/-- Insertion by problem or supernode, then elimination index, equals in their order. -/
def insertPiv (e : PivEv) : List PivEv → List PivEv
  | [] => [e]
  | h :: t => if e.prob < h.prob ∨ (e.prob = h.prob ∧ e.k ≤ h.k) then e :: h :: t else h :: insertPiv e t

/-- The pivot log (R171). -/
def pivotLog (total : Nat) (l : List PivEv) : List Byte :=
  let kept := (l.foldr insertPiv []).take 64
  natLe 8 total ++ natLe 4 kept.length ++ natLe 4 0
    ++ kept.flatMap (fun e => natLe 4 e.prob ++ natLe 4 e.k ++ natLe 8 e.v.toNat)
    ++ List.replicate (16 * (64 - kept.length)) 0#8

/-- c(n) of Table 7.5. -/
def JRec.cycles (r : JRec) : Nat :=
  let n := r.n
  let n3 := n * n * n - n
  if r.kind = 1 then n3 / 3 + 2 * n * n + 16 * n
  else if r.kind = 2 then n3 / 6 + 2 * n * n + 40 * n
  else if r.kind = 3 then n3 / 6 + 3 * n * n + 16 * n
  else if r.kind = 4 then 2 * n3 / 3 + 3 * n * n + 40 * n
  else if r.kind = 5 then r.nrhs * (n * n + 16 * n) + (if r.perm then n else 0)
  else if r.kind = 6 then n3 + 3 * n * n + 16 * n
  else r.nsweeps * (n * (n - 1) / 2) * (12 * n + 40)

/-- Bytes that one problem moves (R163). -/
def JRec.moved (r : JRec) : Nat :=
  let col := r.eb * r.ld
  let a := col * r.n
  let w := col
  if r.kind = 1 then 2 * a + 72
  else if r.kind = 2 ∨ r.kind = 3 then 2 * a + 8
  else if r.kind = 4 then 2 * a + w + 8
  else if r.kind = 5 then a + 2 * col * r.nrhs + 8 + (if r.perm then 64 else 0)
  else if r.kind = 6 then 3 * a + 72
  else 2 * a + w + 8

/-- D of R163 in tile cycles. -/
def JRec.duration (r : JRec) : Nat :=
  let g := (if r.eb = 4 then 1024 else 256) / 2 ^ r.lppl
  let one (k : Nat) := max (cdiv r.cycles (2 ^ r.lppl) + 8 * r.lppl) (cdiv (k * r.moved) 256)
  64 + (r.nb / g) * one g + (if r.nb % g = 0 then 0 else one (r.nb % g))

/-- `SLV.LAST`, `SLV.PIVTOT` and `SLV.JOBCNT` at a job's end (Tables 7.9, 7.10). -/
def countJob (p : Pkg) (j : Job) (status : Nat) : Pkg :=
  let o := jobReg p j
  let p := rset p (o + 8) (status + j.flags.toNat * 2 ^ 16)
  let p := rset p (o + 0xC) (rget p (o + 0xC) + j.piv)
  bump p (o + 0x10)

/-- A status record of which only STATUS and FLAGS are defined (R178). -/
def failRecord (p : Pkg) (j : Job) (mask jstat status : Nat) : Pkg :=
  match slvMap mask j.unit jstat 64 with
  | some a => storeBytes { p with fv := p.fv + 1 } a (natLe 1 status ++ [Config.freeByte p.fv 1] ++ natLe 2 j.flags.toNat
      ++ (List.range 60).map (fun i => Config.freeByte p.fv (4 + i)))
  | none => p

/-- A job fails with a status (R177, R178): STATUS and FLAGS of its record are defined, the rest free. -/
def failJob (p : Pkg) (c : Clock) (j : Job) (mask jstat status : Nat) : Pkg :=
  closeJob (countJob (addCause (failRecord p j mask jstat status) c j.launch status) j status) j false j.flags

/-- A job that runs ends in a plan fault on its dispatching tile: it has ended like a failed one (R157, R178, R179). -/
def jobFault (p : Pkg) (c : Clock) (j : Job) (jstat cause : Nat) : Pkg :=
  let p := if j.ue then p else countJob (failRecord p j (launchMask p j.launch) jstat 0x20) j 0x20
  planFault (closeJob p j false (if j.ue then 0#16 else j.flags)) c j.tile cause 3 0 0

/-- Address of the record that a job names, in its plan's solver-schedules section. -/
def recordAt (p : Pkg) (j : Job) : Nat := ((launchSec p j.launch 4).getD (0, 0)).1 + 16 + 128 * j.idx

def jobRecord (p : Pkg) (j : Job) : JRec := parseJob (mread p.mem (recordAt p j) 128)

/-- HBM traffic of a job: partition 0, in its own name (R152, R205, Table 10.3). -/
def chargeJob (p : Pkg) (j : Job) (wr : Bool) (ranges : List (Nat × Nat)) : Pkg :=
  enqueueAll p 0 (if wr then chargeWrites (.job j.id) ranges else chargeReads (.job j.id) ranges)

/-- An engine cannot read a line of its plan's sections (R237, Table 10.5): the job fails before it knows its record. -/
def badRecord (p : Pkg) (c : Clock) (j : Job) (line : Nat) : Pkg :=
  let p := addCause (noteUe p c line) c j.launch 0x21
  closeJob (countJob (takeJob p j) j 0x21) j false 0#16

/-- The checks at the start of a job (R154, R160, R152): what the job faults with. -/
def startCheck (p : Pkg) (j : Job) (r : JRec) (mask : Nat) : Option Nat :=
  if engineAsleep p j then some 0x06
  else if !r.ok (j.op == 0xB1) then some 0x01
  else if r.allSpans.any (fun s => (slvMap mask j.unit s.1 s.2.1).isNone) then some 0x05
  else none

/-- Runs a batch whole: what each problem leaves, and the flags, replacements and events of all. -/
def batchRun (r : JRec) (ar : Ar) (m : Mem) (at_ : Nat → Nat) : List BitW × Wk :=
  (List.range r.nb).foldl (fun st b =>
    if st.2.bad then st
    else
      let k := r.compute ar b (r.load m at_ b)
      (st.1 ++ r.outputs at_ b k, { st.2 with fl := st.2.fl ||| k.fl, piv := st.2.piv ++ k.piv, bad := k.bad }))
    ([], {})

/-- The 64-byte status record (R178). -/
def statusRecord (status note : Nat) (fl : Flags) (iter : Nat) (resid : W64) (gen piv : Nat) : List Byte :=
  natLe 1 status ++ natLe 1 note ++ natLe 2 fl.toNat ++ natLe 4 iter ++ natLe 8 resid.toNat ++ natLe 8 gen ++ natLe 8 piv
    ++ List.replicate 32 0#8

/-- What an ended batch leaves undefined after a pivot index at or above N: its outputs (R157). -/
def freeOutputs (p : Pkg) (r : JRec) (at_ : Nat → Nat) : List BitW :=
  ((List.range r.nb).flatMap r.spans).filterMap (fun s =>
    if s.2.2 then none
    else some (bytesW (at_ s.1) ((List.range s.2.1).map (fun i => Config.freeByte p.fv (at_ s.1 + i)))))

/-- A batched job of the KIND starts (R160 to R165). -/
def startBatch (p : Pkg) (c : Clock) (n kind : Nat) : Pkg :=
  match findJob p n with
  | none => p
  | some j =>
    let r := jobRecord p j
    let mask := launchMask p j.launch
    if j.ue || !mayStart p c j then p
    else if r.ok (j.op == 0xB1) && r.kind != kind then p
    else match firstBad p [(recordAt p j, 128)] with
    | some l => badRecord p c j l
    | none =>
    let p := noteCes p [(recordAt p j, 128)]
    match startCheck p j r mask with
    | some cause => refuseJob p c j cause
    | none =>
      let at_ := slvAt mask j.unit
      let p := takeJob p j
      let j := (findJob p n).getD j
      let reads := ((List.range r.nb).flatMap r.readSpans).map (fun s => (at_ s.1, s.2))
      match firstBad p reads with
      | some l => failJob (noteUe p c l) c { j with ends := j.began } mask r.jstat 0x21
      | none =>
        let p := chargeJob (noteCes p reads) j false ((recordAt p j, 128) :: reads)
        let (ws, k) := batchRun r (r.ar p.cfg.radef) p.mem at_
        if k.bad then
          jobFault { p with mem := applyWs p.mem (freeOutputs p r at_), fv := p.fv + 1 } c j r.jstat 0x05
        else
          let gen := (Config.operandWord 6 [r.kind, r.n, r.nb, r.a, j.idx] 0).toNat
          let log := if r.usesLog then [bytesW (at_ r.log) (pivotLog k.piv.length k.piv)] else []
          let st := [bytesW (at_ r.jstat) (statusRecord 0 0 k.fl 0 0#64 gen k.piv.length)]
          modJob p n (fun x =>
            { x with ends := x.began + r.duration, writes := [ws ++ log ++ st], flags := k.fl, piv := k.piv.length })

/-! Instructions (R153) -/

/-- `SV.BATCH` and `SV.SPARSE` at issue. -/
def goSv (t op : Nat) (p : Pkg) (l : Nat) (x : Tile) (w cyc : Nat) : Chk (Pkg × InFl) :=
  let slvs := ((findLaunch p l).map (fun y => y.slvs)).getD 0
  match launchSec p l 4 with
  | none => .error fRange
  | some (sec, _) => do
    need (decide (bits w 11 0 < mnat p.mem sec 4)) fRange
    need (bit slvs (bits w 15 12)) fRange
    let r := parseJob (mread p.mem (sec + 16 + 128 * bits w 11 0) 128)
    let j : Job := { id := 0, ue := false, unit := bits w 15 12, tile := t, seq := x.seq - 1, launch := l, op := op,
                     idx := bits w 11 0, s := bits w 45 16, wc := r.wc, issued := cyc }
    .ok (addJob p j, heldFl p w .unit)

/-- `SV.BATCH` (R153). -/
def execSvBatch (t : Fin 128) (s : State) : Out := run s (fun c p => issue p c t 3 0xB0 1 (goSv t 0xB0))

/-- `SV.SPARSE` (R153). -/
def execSvSparse (t : Fin 128) (s : State) : Out := run s (fun c p => issue p c t 3 0xB1 1 (goSv t 0xB1))

/-- `SV_DISPATCH_ARRIVE` (R154): the job of this number. -/
def execSvDispatchArrive (n : Nat) (s : State) : Out := run s (fun c p => arriveJob p c false n)

/-- `JOB_LU` (R164). -/
def execJobLu (n : Nat) (s : State) : Out := run s (fun c p => startBatch p c n 1)
/-- `JOB_CHOLESKY` (R164, R168). -/
def execJobCholesky (n : Nat) (s : State) : Out := run s (fun c p => startBatch p c n 2)
/-- `JOB_LDLT` (R164). -/
def execJobLdlt (n : Nat) (s : State) : Out := run s (fun c p => startBatch p c n 3)
/-- `JOB_QR` (R164). -/
def execJobQr (n : Nat) (s : State) : Out := run s (fun c p => startBatch p c n 4)
/-- `JOB_TRSV` (R164). -/
def execJobTrsv (n : Nat) (s : State) : Out := run s (fun c p => startBatch p c n 5)
/-- `JOB_INVERSE` (R164). -/
def execJobInverse (n : Nat) (s : State) : Out := run s (fun c p => startBatch p c n 6)
/-- `JOB_JACOBI` (R166). -/
def execJobJacobi (n : Nat) (s : State) : Out := run s (fun c p => startBatch p c n 7)

/-! The end of a job (R155, R156, R178) -/

/-- The byte ranges of a list of stores. -/
def storeRanges (ws : List BitW) : List (Nat × Nat) := ws.map (fun b => (b.addr / 8, (b.addr % 8 + b.w + 7) / 8))

/-- Makes an engine's stores visible (R155), outputs of its launch (R9); those in HBM take their turn in partition 0. The line whose
error a partial store consumes, if any. -/
def visible (p : Pkg) (j : Job) (ws : List BitW) : Pkg × Option Nat :=
  let st := storeRanges ws
  match badPart p st with
  | some l => (p, some l)
  | none => (chargeJob { healLines p st with mem := applyWs p.mem ws } j true st, none)

/-- The waggle worst case of a group (Table 14.6), in tile cycles. -/
def wwcCycles (p : Pkg) (g : Nat) : Nat := cycleAt p (rfld p (rGroup g + 20) 15 0)

/-- The job's last cycle has passed and nothing of its HBM traffic waits. -/
def jobOver (p : Pkg) (c : Clock) (j : Job) : Bool :=
  decide (max j.ends j.late ≤ jobCycle p c j) && !owesHbm p (.job j.id)

/-- The writes of an SLV job and its registers at its end. -/
def endSlv (p : Pkg) (c : Clock) (j : Job) (status : Nat) (ws : List BitW) (iter : Option Nat) : Pkg :=
  let r := jobRecord p j
  match visible p j ws with
  | (p, some l) => failJob (noteUe p c l) c j (launchMask p j.launch) r.jstat 0x21
  | (p, none) =>
    let js := slvAt (launchMask p j.launch) j.unit r.jstat
    let p := noteOuts p (some j.launch) ((storeRanges ws).filter (fun e => e.1 != js))
    let p := modJob (countJob p j status) j.id (fun k => { k with ends := max j.ends j.late })
    let p := match iter with
      | some i => rset p (jobReg p j + 0x14) i
      | none => p
    let p := if status = 2 then modLaunch p j.launch (fun y => { y with notConv := true }) else p
    closeJob p j true j.flags

/-- GEN of the factor header. -/
def factGen (p : Pkg) (at_ : Nat → Nat) (fact : Nat) : Nat := mnat p.mem (at_ fact) 8

/-- `SLV_JOB_END` (R178): the job's last cycle has passed; its status record and writes become visible. -/
def execSlvJobEnd (n : Nat) (s : State) : Out :=
  run s (fun c p =>
    match findJob p n with
    | none => p
    | some j =>
      if j.ue || !j.running || !jobOver p c j then p
      else if j.op = 0xB0 then endSlv p c j 0 j.writes.flatten none
      else if !j.sparse.ended then p
      else
        let r := jobRecord p j
        let at_ := slvAt (launchMask p j.launch) j.unit
        let q := j.sparse
        let status := if q.convRun && !q.convMet then 2 else 0
        let rec_ := statusRecord status (b2n q.nofactor + 2 * b2n q.breakdown) j.flags q.convIter q.resid (factGen p at_ r.fact) j.piv
        endSlv p c j status [bytesW (at_ r.log) (pivotLog j.piv q.piv), bytesW (at_ r.jstat) rec_] (some q.convIter))

end Sys2Proof.Machine
end

