-- ==== Sys2Proof/Machine/MemoryService.lean ====
section
/-! DEFINITION. What the stack base dies and the static memories do on their own (10_memory_system R233 to R256): the regulator,
deliveries, write combining, scrub, rewrites, the loss of a stack. -/

namespace Sys2Proof.Machine

/-! The regulator (R241 to R243) -/

/-- A partition's bucket; full at its reset depth until it is first used (R242, Table 10.3). -/
def bucket (p : Pkg) (k part : Nat) : Nat := sget p.buckets (qKey k part) (partBReset part)

def resOf (p : Pkg) (i : Nat) : Nat := rfld p (rMemPartA i) 9 0
def ceilOf (p : Pkg) (i : Nat) : Nat := rfld p (rMemPartA i) 25 16
def depthOf (p : Pkg) (i : Nat) : Nat := if i = 0 then resOf p 0 else rfld p (rMemPartB i) 12 0

/-- The bytes of its line that a request writes. -/
def reqMask (r : HbmReq) : BitVec 64 :=
  (touched r.wr).foldl (fun m a => m ||| (1#64 <<< (a % 64))) 0#64

/-- Tokens that a request costs when it is passed (Table 10.2). -/
def reqCost (p : Pkg) (r : HbmReq) : Nat :=
  if r.atom.isSome then 12
  else if r.sq then 6
  else if r.who = .scrub then (if p.ceLines.contains r.line then 4 else 2)
  else if r.wr.isEmpty then 2
  else if reqMask r = BitVec.allOnes 64 then 2
  else if wcHas p (lineOf r.line) then 0 else 4

/-- Squirrel accesses outstanding on a stack (R247). -/
def squirrels (p : Pkg) (k : Nat) : Nat := p.passed.countP (fun d => d.sq && stackOf p d.line == k)

/-- Two lines of one stack lie in one DRAM row (R253). -/
def sameHbmRow (p : Pkg) (a b : Nat) : Bool :=
  stackOf p a == stackOf p b && bits a 11 6 == bits b 11 6 && Config.hbmRow (inStack p a) == Config.hbmRow (inStack p b)

/-- An access to a row that is being copied into a spare waits, at most 2,500 ticks (R253). -/
def rowHeld (p : Pkg) (c : Clock) (r : HbmReq) : Bool :=
  !r.chg && p.placed.any (fun x => x.kind == 0x24 && x.started && decide (c.gsc < x.start + 2500) && sameHbmRow p (lineOf r.line) x.aux)

/-- The head of a partition's queue, unless it waits for the squirrel limit or for a row. -/
def queueHead (p : Pkg) (c : Clock) (k part : Nat) : Option HbmReq :=
  match sget p.queues (qKey k part) [] with
  | [] => none
  | r :: _ => if (r.sq && decide (512 ≤ squirrels p k)) || rowHeld p c r then none else some r

/-- The requester of an access learns that its line is uncorrectable (Table 10.5). -/
def reqFails (p : Pkg) (c : Clock) (r : HbmReq) : Pkg :=
  match r.who with
  | .tile t n => failHeld p c t n 0x21
  | _ => p

/-- Turn and tokens of traffic that an engine moves itself. A job's writes, and a plan that is stored, pass the write-combining buffer
here; other writers' bytes passed it when they were stored. A job learns when its last request passed. -/
def serveCharge (p : Pkg) (c : Clock) (r : HbmReq) : Pkg :=
  let late (p : Pkg) : Pkg := match r.who with
    | .job n => { p with jobs := p.jobs.map (fun j => if j.id = n then { j with late := jobCycle p c j } else j) }
    | _ => p
  let combine (p : Pkg) : Pkg := match r.who with
    | .job _ | .firmware => if r.wr.isEmpty then p else wcWrite p c (lineOf r.line) (reqMask r)
    | _ => p
  late (combine p)

/-- A passed request takes effect (R243, R246, R248, R251, R252). -/
def serveReq (p : Pkg) (c : Clock) (r : HbmReq) : Pkg :=
  let l := lineOf r.line
  let done (bs : List Byte) (bad : Bool) : HbmDone :=
    { line := r.line, bytes := r.bytes, data := bs, rd := r.wr.isEmpty, sq := r.sq, who := r.who, tick := c.gsc, bad := bad,
      atom := r.atom.isSome }
  let whole := !r.sq && decide (reqMask r = BitVec.allOnes 64)
  if r.chg then serveCharge p c r
  else if p.badLines.contains l && (r.wr.isEmpty || !whole) then
    let p := reqFails (noteUe p c l) c r
    if r.who = .scrub then p else { p with passed := p.passed ++ [done [] true] }
  else if r.wr.isEmpty then
    let p := if p.ceLines.contains l && r.who != .scrub then noteCe p l else p
    if r.who = .scrub then
      let p := if p.ceLines.contains l && !ceWaits p l then bump { p with ceSeen := l :: p.ceSeen } (rMemCe (stackOf p l)) else p
      { p with ceLines := p.ceLines.filter (fun x => x != l), ceOwed := p.ceOwed.filter (fun x => x.1 != l) }
    else
      let old := mread p.mem r.line r.bytes
      let p := match r.atom with
        | none => p
        | some t => wcWrite { p with mem := mwrite p.mem r.line (atomApply t old) } c l (lineMask l r.line r.bytes)
      { p with passed := p.passed ++ [done old false] }
  else
    let p := { p with mem := applyWs p.mem r.wr, passed := p.passed ++ [done [] false] }
    let p := if whole then
        { p with badLines := p.badLines.filter (fun x => x != l), ceLines := p.ceLines.filter (fun x => x != l) } else p
    wcWrite p c l (reqMask r)

/-- Takes the head of a queue and lets it take effect. -/
def passHead (p : Pkg) (c : Clock) (k part : Nat) : Pkg :=
  match sget p.queues (qKey k part) [] with
  | [] => p
  | r :: q => serveReq { p with queues := sset p.queues (qKey k part) q } c r

/-- What the three passes of `regulate_tick` carry: tokens spent by partition, and spare tokens. -/
structure Reg where
  p : Pkg
  spent : SMap Nat := []
  spare : Nat := 384
  deriving DecidableEq, Repr

/-- One pass of `regulate_tick` over one partition: pass while the head may; `billed` lowers the bucket. `fuel` bounds the queue. -/
def regLoop (c : Clock) (k part : Nat) (billed : Bool) (ok : Reg → Nat → Bool) : Nat → Reg → Reg
  | 0, g => g
  | f + 1, g =>
    match queueHead g.p c k part with
    | none => g
    | some r =>
      let cost := reqCost g.p r
      if !ok g cost then g
      else
        let b := bucket g.p k part
        let p := if billed then { g.p with buckets := sset g.p.buckets (qKey k part) (b - cost) } else g.p
        regLoop c k part billed ok f
          { p := passHead p c k part, spent := sset g.spent part (sget g.spent part 0 + cost), spare := g.spare - cost }

/-- `regulate_tick` of R243 on one stack. -/
def regulate (p : Pkg) (c : Clock) (k : Nat) : Pkg :=
  let parts := List.range 16
  let fuel (g : Reg) (i : Nat) := (sget g.p.queues (qKey k i) []).length
  let p := parts.foldl (fun q i =>
    { q with buckets := sset q.buckets (qKey k i) (min (bucket q k i + resOf q i) (depthOf q i)) }) p
  let g : Reg := { p := p }
  let g := parts.foldl (fun g i => regLoop c k i true (fun g n =>
    decide (sget g.spent i 0 + n ≤ resOf g.p i) && decide (n ≤ bucket g.p k i)) (fuel g i) g) g
  let g := parts.foldl (fun g i => regLoop c k i true (fun g n =>
    decide (n ≤ bucket g.p k i) && decide (n ≤ g.spare) && decide (sget g.spent i 0 + n ≤ ceilOf g.p i)) (fuel g i) g) g
  let g := parts.foldl (fun g i => regLoop c k i false (fun g n =>
    decide (n ≤ g.spare) && decide (sget g.spent i 0 + n ≤ ceilOf g.p i)) (fuel g i) g) g
  g.p

/-- The error symbols that a line shows from now on (R236): none, correctable, uncorrectable, or beyond the code, where the
decoder may detect them or pass wrong data. -/
def lineErrors (p : Pkg) (line nerr : Nat) : Pkg :=
  let l := lineOf line
  match classifyLine nerr with
  | .clean => p
  | .corrected => if p.ceLines.contains l then p else { p with ceLines := l :: p.ceLines }
  | .uncorrectable => if p.badLines.contains l then p else { p with badLines := l :: p.badLines }
  | .beyond =>
    let q := { p with fv := p.fv + 1 }
    if Config.beyondCode p.fv l then { q with badLines := l :: p.badLines }
    else { q with mem := mwrite p.mem l ((List.range 64).map (fun i => Config.freeByte p.fv i)) }

/-! Scrub (R249, R250) -/

/-- The local offset of a stack's line (Table 10.1, inverted). -/
def stackLine (p : Pkg) (k i : Nat) : Nat :=
  let a := 64 * i
  if p.cfg.ilv = 0 then a / 4096 * 2 ^ 17 + k * 4096 + a % 4096
  else k / 4 * 2 ^ 38 + a / 4096 * 2 ^ 14 + k % 4 * 4096 + a % 4096

/-- `PATROL_SCRUB` (R249): the next line of the stack enters partition 3; the pass counts when every stack has ended one. -/
def execPatrolScrub (k : Fin 32) (s : State) : Out :=
  run s (fun c p =>
    let (i, last, passes) := sget p.patrol k (0, 0, 0)
    if !rbit p rMemCfg 1 ∨ rbit p rMemStatus 2 ∨ c.gsc < last + rfld p rMemScrub 23 0 then p
    else
      let p := enqueue p 3 { line := stackLine p k i, bytes := 64, wr := [], sq := false, who := .scrub }
      let wrap := i + 1 = 2 ^ 30
      let all := fun (q : Pkg) => (List.range 32).foldl (fun a j => min a (sget q.patrol j (0, 0, 0)).2.2) (2 ^ 64)
      let before := all p
      let p := { p with patrol := sset p.patrol k (if wrap then (0, c.gsc, passes + 1) else (i + 1, c.gsc, passes)) }
      let p := if before < all p then bump p rMemScrubpass else p
      rsetb p rMemStatus 3 (p.patrol.any (fun e => e.2.1 != 0)))

/-- `STATIC_SCRUB` (R250): a scratchpad, comb or panel-store line is read in an idle bank cycle and corrected. -/
def execStaticScrub (line nerr : Nat) (s : State) : Out :=
  run s (fun c p =>
    let l := lineOf line
    if isHbm l ∨ 2 ^ 46 ≤ l then p
    else
      let p := lineErrors p l nerr
      if p.badLines.contains l then noteUe p c l
      else if p.ceLines.contains l then { noteCe p l with ceLines := p.ceLines.filter (fun x => x != l) }
      else p)

/-! Write combining and rewrites (R246, R251) -/

/-- `WC_EVICT` (R246): 64 ticks after its allocation an entry goes to the array. -/
def execWcEvict (line : Nat) (s : State) : Out :=
  run s (fun c p =>
    { p with wc := p.wc.filter (fun e => !(e.line == lineOf line && decide (e.tick + 64 ≤ c.gsc))) })

/-- A rewrite lands: the next error on the line counts anew. -/
def landRewrite (p : Pkg) (l : Nat) : Pkg :=
  { p with ceOwed := p.ceOwed.filter (fun x => x.1 != l), ceLines := p.ceLines.filter (fun x => x != l) }

/-- A tick of a stack passes: a rewrite lands within 1,024 of them (R251). -/
def ageRewrites (p : Pkg) (k : Nat) : Pkg :=
  let aged := p.ceOwed.map (fun e => if stackOf p e.1 = k then (e.1, e.2 + 1) else e)
  aged.foldl (fun q e => if 1024 ≤ e.2 then landRewrite q e.1 else q) { p with ceOwed := aged }

/-- `CE_REWRITE` (R251): a corrected HBM line is rewritten, once partition 3 has passed the write. -/
def execCeRewrite (line : Nat) (s : State) : Out :=
  run s (fun _ p =>
    let l := lineOf line
    if ceWaits p l && !owesHbm p (.repair l) then landRewrite p l else p)

end Sys2Proof.Machine
end

