-- ==== Sys2Proof/Machine/Rings.lean ====
section
/-! DEFINITION. Ring registers (16_host_interface R394 to R410): doorbells, enabling and disabling. -/

namespace Sys2Proof.Machine

/-- A submission doorbell (R395). -/
def sqDoorbell (p : Pkg) (r v : Nat) : Pkg :=
  let v := v % 65536
  if sqDepth p r ≤ v then bump p rHifBaddb else rset p (rSq r 0x10) v

/-- A completion doorbell (R400): the slots that the head passes become free. -/
def cqDoorbell (p : Pkg) (r v : Nat) : Pkg :=
  let v := v % 65536
  let d := cqDepth p r
  if d ≤ v then bump p rHifBaddb
  else
    let h := rget p (rCq r 0x10)
    let freed := (v + d - h) % d
    rset { p with cqUsed := sset p.cqUsed r (sget p.cqUsed r 0 - freed) } (rCq r 0x10) v

/-- A depth field that a write may set (Tables 16.12, 16.13): other values leave it. -/
def log2dOf (old v : Nat) : Nat := if 4 ≤ v % 32 ∧ v % 32 ≤ 16 then v % 32 else old % 32

/-- A write of `HIF.SQCFG` (R410). -/
def sqCfgWrite (p : Pkg) (r v : Nat) : Pkg :=
  let old := rget p (rSq r 8)
  if bit old 16 then (if bit v 16 then p else rsetb p (rSq r 8) 16 false)
  else
    let p := rset p (rSq r 8) (log2dOf old v + bits v 13 8 * 2 ^ 8 + b2n (bit v 16) * 2 ^ 16)
    if bit v 16 then rset (rset p (rSq r 0xC) 0) (rSq r 0x10) 0 else p

/-- A write of `HIF.CQCFG` (R410): EN stays while slots are reserved. -/
def cqCfgWrite (p : Pkg) (r v : Nat) : Pkg :=
  let old := rget p (rCq r 8)
  if bit old 16 then (if bit v 16 ∨ rfld p (rCq r 0x14) 16 0 ≠ 0 then p else rsetb p (rCq r 8) 16 false)
  else
    let p := rset p (rCq r 8) (log2dOf old v + b2n (bit v 16) * 2 ^ 16)
    if bit v 16 then { rset (rset p (rCq r 0xC) 0x10000) (rCq r 0x10) 0 with cqUsed := sset p.cqUsed r 0 } else p

/-- WAITCQ of a submission ring (R397, R410). -/
def waitCq (p : Pkg) (r : Nat) : Bool :=
  let q := rfld p (rSq r 8) 13 8
  sqEn p r && (!cqEn p q || (rget p (rSq r 0xC) != rget p (rSq r 0x10) && cqFree p q == 0))

/-- `SQ_DOORBELL` (R395). -/
def execSqDoorbell (r : Fin 64) (v : W32) (s : State) : Out := run s (fun _ p => if live p then sqDoorbell p r v.toNat else p)

/-- `CQ_DOORBELL` (R400). -/
def execCqDoorbell (r : Fin 64) (v : W32) (s : State) : Out := run s (fun _ p => if live p then cqDoorbell p r v.toNat else p)

/-- `SQ_ENABLE` (R410): a write of `HIF.SQCFG` with EN set. -/
def execSqEnable (r : Fin 64) (v : W32) (s : State) : Out := run s (fun _ p => if live p then sqCfgWrite p r (setBits v.toNat 16 16 1) else p)

/-- `SQ_DISABLE` (R410): a write of `HIF.SQCFG` that clears EN. -/
def execSqDisable (r : Fin 64) (s : State) : Out := run s (fun _ p => if live p then sqCfgWrite p r (setBits (rget p (rSq r 8)) 16 16 0) else p)

/-- `CQ_ENABLE` (R410). -/
def execCqEnable (r : Fin 64) (v : W32) (s : State) : Out := run s (fun _ p => if live p then cqCfgWrite p r (setBits v.toNat 16 16 1) else p)

/-- `CQ_DISABLE` (R410). -/
def execCqDisable (r : Fin 64) (s : State) : Out := run s (fun _ p => if live p then cqCfgWrite p r (setBits (rget p (rCq r 8)) 16 16 0) else p)

end Sys2Proof.Machine
end

