-- ==== Sys2Proof/Machine/Registers.lean ====
section
/-! DEFINITION. Register reads, writes, locks and resets (17_registers R411 to R428, 18 R435, R436). -/

namespace Sys2Proof.Machine

/-- The requesters of R411: 0 host, 1 fabric, 2 monitor, 3 keeper firmware. -/
abbrev Requester := Nat
def byKeeper (w : Requester) : Bool := w == 3

/-- ALERT_N (R476). -/
def alertN (p : Pkg) : Bool :=
  rfld p rGlbStatus 10 8 == 5 || rbit p rMemStatus 1 || rbit p rPwrStatus 3 || rbit p rPwrStatus 4 || rbit p rHltStatus 1

/-- A lock bit of a block is set (`GLB.LOCKS`). -/
def anyLock (p : Pkg) (o : Nat) : Bool := rget p o != 0

/-- `GLB.LOCKS`: blocks 0 to 10. -/
def locksWord (p : Pkg) : Nat :=
  ([rGlbLock, rPwrLock, rSecLock, rHifLock, rTimLock, rMemLock, rFabLock, 0, 0, rHltLock, rDbgLock].zipIdx.map
    (fun e => if e.1 = 0 then 0 else b2n (anyLock p e.1) * 2 ^ e.2)).foldl (fun a b => a + b) 0

/-- `TILE.STATUS` of physical tile i × 32 + p (Table 2.8); no tile is in service before the spare map is loaded. -/
def tileStatus (p : Pkg) (u : Nat) : Nat :=
  if unitState p u = 0 ∧ p.cfg.mapIn then
    let t := unitLogical p u
    let x := tile p t
    b2n x.running + 2 + 4 * b2n (rbit p (rTile u) 2) + 8 * b2n (x.clocks == 0) + 16 * b2n (!x.mxq.isEmpty)
      + 32 * b2n (!x.scq.isEmpty) + 64 * b2n (!x.dmq.isEmpty) + 128 * b2n (!x.syq.isEmpty) + 256 * x.bank + t * 2 ^ 16
  else 4 * b2n (rbit p (rTile u) 2) + 8

/-- `TILE.FSTAT` of a physical tile (Table 9.7). -/
def tileFstat (p : Pkg) (u : Nat) : Nat :=
  let k := sget p.cores (unitLogical p u) {}
  let sub := rfld p (rTile u + 0x14) 15 8 * 2 ^ 8
  if unitState p u = 0 ∧ p.cfg.mapIn then b2n k.sched + 2 * b2n k.awake + 4 * b2n k.waking.isSome + sub else sub

/-- `SLV.STATUS` and `UE.STATUS` (Tables 7.8, 8.10); `base` is the register base, `i` the `HLT.PUNIT` index. -/
def engineStatus (p : Pkg) (ue : Bool) (i base : Nat) : Nat :=
  let sleep := 4 * b2n (rbit p base 2)
  let ident := if ue then 16 * b2n (rbit p base 4) else 0
  if unitState p i = 0 ∧ p.cfg.mapIn then
    let u := unitLogical p i
    let mine := p.jobs.filter (fun j => j.ue == ue && j.unit == u && !j.closed)
    b2n (mine.any (fun j => j.running)) + 2 + sleep + 8 * b2n (mine.any (fun j => j.arrived && !j.running)) + ident + u * 2 ^ 8
  else sleep + ident

/-- Swarm engines with an operation in progress and the valid groups (Table 14.7) stand in the stored word. -/
def physTileOf (o : Nat) : Nat := (o - 0x1000000) / 0x200000 * 32 + o % 0x200000 / 0x10000

/-- The current value of a register word (R416, R420). -/
def regRead (p : Pkg) (c : Clock) (o : Nat) : Nat :=
  if o = rGlbStatus then
    setBits (setBits (setBits (rget p o) 5 5 (b2n (alertN p))) 1 1 (b2n (rbit p rMemStatus 1))) 4 4 (b2n (rbit p rPwrStatus 2))
  else if o = rGlbLocks then locksWord p
  else if o = rTimGscLo then c.gsc % 2 ^ 32
  else if o = rTimGscHi then c.gsc / 2 ^ 32
  else if o = rTimLedger then p.ledger.countP (fun e => decide (c.gsc < e.stop)) + b2n p.den.pol.isSome
  else if o = rGlbReset then 0
  else if (rFabPstate 0 ≤ o ∧ o < rFabPstate 128) ∨ (rFabPpeer 0 ≤ o ∧ o < rFabPpeer 128) ∨ (rFabPflight 0 ≤ o ∧ o < rFabPflight 128)
      ∨ (rFabFeccorr 0 ≤ o ∧ o < rFabFeccorr 128) ∨ (rFabFecunc 0 ≤ o ∧ o < rFabFecunc 128) then
    let q := (if o < rFabFeccorr 0 then o - rFabPstate 0 else o - rFabFeccorr 0) / 4 % 128
    rget p (o - 4 * q + 4 * physPort p q)
  else if 0x301000 ≤ o ∧ o < 0x301800 ∧ o % 0x20 = 0x14 then setBits (rget p o) 1 1 (b2n (waitCq p ((o - 0x301000) / 0x20)))
  else if o = rMemPartB 0 then rfld p (rMemPartA 0) 9 0
  else if o = rDbgStatus then
    setBits (setBits (rget p o) 3 3 (b2n (rbit p o 3 && alertN p))) 4 4 (b2n (rbit p o 4 && p.pins.tripped))
  else if 0x901000 ≤ o ∧ o < 0x9014E0 ∧ o % 4 = 0 then punit p ((o - 0x901000) / 4)
  else if 0x1000000 ≤ o ∧ o < 0x2000000 then
    let r := o % 0x200000
    if r < 0x120000 ∧ o % 0x10000 = 0 then tileStatus p (physTileOf o)
    else if r < 0x120000 ∧ o % 0x10000 = 0x14 then tileFstat p (physTileOf o)
    else if 0x180000 ≤ r ∧ r < 0x1B0000 ∧ o % 0x10000 = 0 then
      let u := (o - 0x1000000) / 0x200000 * 4 + (r - 0x180000) / 0x10000
      engineStatus p false (256 + u) o
    else if 0x1C0000 ≤ r ∧ r < 0x1E0000 ∧ o % 0x10000 = 0 then
      let u := (o - 0x1000000) / 0x200000 * 2 + (r - 0x1C0000) / 0x10000
      engineStatus p true (288 + u) o
    else rget p o
  else rget p o

/-- HI registers whose LO register latches them (R419). -/
def latchHi (lo : Nat) : Option Nat :=
  if lo = rGlbSerialLo ∨ lo = rTimGscLo ∨ lo = rTimTimeinLo ∨ lo = rFabSwLo ∨ lo = rDenCutLo ∨ lo = rDenStepLo
    ∨ lo = rHltLastLo then some (lo + 4) else none
def isLatched (hi : Nat) : Bool := (latchHi (hi - 4)) == some hi

def latchKey (w : Requester) (hi : Nat) : Nat := w * 2 ^ 32 + hi

/-- A read by a requester: a latching LO register latches its HI half for that requester, a latched HI register returns what
was latched, zero when nothing was (R419). -/
def regReadBy (p : Pkg) (c : Clock) (w : Requester) (o : Nat) : Pkg × Nat :=
  match latchHi o with
  | some hi => ({ p with latch := sset p.latch (latchKey w hi) (BitVec.ofNat 32 (regRead p c hi)) }, regRead p c o)
  | none => if isLatched o then (p, (sget p.latch (latchKey w o) 0#32).toNat) else (p, regRead p c o)

/-! Locks (Table 17.4) -/

/-- The lock bit that guards a register, and whether it is of class K. -/
def lockOf (o : Nat) : Option (Nat × Nat × Bool) :=
  if o = rGlbReset then some (rGlbLock, 0, false)
  else if o = rPwrLimit ∨ o = rPwrTwarn ∨ o = rPwrIdle then some (rPwrLock, 0, false)
  else if rRslotLo 0 ≤ o ∧ o < rRslotLo 16 then some (rHifLock, 0, false)
  else if o = rTimCfg then some (rTimLock, 0, false)
  else if rMemPartA 0 ≤ o ∧ o < rMemPartA 16 then some (rMemLock, 0, false)
  else if o = rMemCfg then some (rMemLock, 1, false)
  else if o = rMemScrub then some (rMemLock, 2, false)
  else if (rWindow 0 ≤ o ∧ o < rWindow 1024) ∨ (rRegion 0 ≤ o ∧ o < rRegion 8192) then some (rFabLock, 0, true)
  else if (rInpod 0 0 ≤ o ∧ o < rInpod 0 64) ∨ (rInpod 1 0 ≤ o ∧ o < rInpod 1 64) ∨ (rPodtab 0 0 ≤ o ∧ o < rPodtab 1 4096) then
    some (rFabLock, 1, true)
  else if o = rFabPspare then some (rFabLock, 2, true)
  else if rHltPunit 0 ≤ o ∧ o < rHltPunit 312 then some (rHltLock, 0, true)
  else if o = rDbgEnable then some (rDbgLock, 0, false)
  else none

def locked (p : Pkg) (w : Requester) (o : Nat) : Bool :=
  match lockOf o with
  | none => false
  | some (r, b, k) => rbit p r b && !(k && byKeeper w)

/-- The lock bits of a LOCK register. -/
def lockMask (o : Nat) : Nat :=
  if o = rGlbLock ∨ o = rPwrLock ∨ o = rSecLock ∨ o = rHifLock ∨ o = rTimLock ∨ o = rHltLock ∨ o = rDbgLock then 1
  else if o = rMemLock ∨ o = rFabLock then 7 else 0

/-- R242: the constraints that a write of a partition register must leave true. -/
def partsOk (p : Pkg) : Bool :=
  let res (i : Nat) := rfld p (rMemPartA i) 9 0
  let ceil (i : Nat) := rfld p (rMemPartA i) 25 16
  let depth (i : Nat) := if i = 0 then res 0 else rfld p (rMemPartB i) 12 0
  decide (((List.range 16).map res).foldl (fun a b => a + b) 0 ≤ 384)
  && (List.range 16).all (fun i => decide (res i ≤ ceil i) && decide (ceil i ≤ 384) && decide (max (res i) 8 ≤ depth i)
      && decide (depth i ≤ 4096))

/-- A field that keeps its old value when the range rule forbids the new one (R416). -/
def rangeField (p : Pkg) (o hi lo v : Nat) (ok : Nat → Bool) : Pkg :=
  let f := bits v hi lo
  if ok f then rsetf p o hi lo f else p

/-- A word of an outbound window (Table 12.10). -/
def windowWord (p : Pkg) (o v : Nat) : Pkg :=
  let k := o % 32 / 4
  if k = 0 then (if v % 4096 = 0 then rset p o v else p)
  else if k = 1 ∨ k = 3 then rset p o (v % 2 ^ 14)
  else if k = 2 then (if v % 4096 = 4095 then rset p o v else p)
  else if k = 4 ∨ k = 5 then rset p o (v % 2 ^ 18)
  else if k = 6 then rset p o (Nat.land v 0x00010F3F)
  else p

/-- A word of a region entry (Table 12.11). -/
def regionWord (p : Pkg) (o v : Nat) : Pkg :=
  let k := o % 16 / 4
  if k = 0 then (if v % 2 ^ 21 = 0 then rset p o v else p)
  else if k = 1 then rset p o (v % 2 ^ 14)
  else if k = 2 then (if 0 < v then rset p o v else p)
  else rsetf (rangeField (rsetf p o 17 0 v) o 19 18 v (fun f => f != 3)) o 31 20 (v >>> 20)

/-- Offsets of the ring registers of a kind: ring and register. -/
def ringAt (base o : Nat) : Option (Nat × Nat) :=
  if base ≤ o ∧ o < base + 0x800 then some ((o - base) / 0x20, (o - base) % 0x20) else none

/-- A write of `FAB.OWLCFG` (R336): the port's sampling counter restarts; a K that is neither 0 nor 4 to 20 leaves K. -/
def owlcfgWrite (p : Pkg) (port v : Nat) : Pkg :=
  let o := rFabOwlcfg port
  let p := rangeField (rsetf p o 7 5 (v >>> 5)) o 4 0 v (fun k => k == 0 || (decide (4 ≤ k) && decide (k ≤ 20)))
  { p with ports := sset p.ports port { sget p.ports port {} with owl := 0 } }

/-! Port states (Table 13.9) -/

/-- `FAB.STATUS.NDOWN`, and `HLT.PROTO.MINLEVEL` (R467). -/
def countPorts (p : Pkg) : Pkg :=
  let st (q : Nat) := rfld p (rFabPstate q) 2 0
  let p := rsetf p rFabStatus 15 8 ((List.range 128).countP (fun q => st q == 3 || st q == 4))
  let own := rfld p rHltProto 7 0
  rsetf p rHltProto 15 8 (((List.range 128).filter (fun q => st q == 2)).foldl (fun m q => min m (sget p.ports q {}).level) own)

/-- A port takes a state; a change is reported. -/
def setPort (p : Pkg) (c : Clock) (q st : Nat) : Pkg :=
  if rfld p (rFabPstate q) 2 0 = st then p
  else event (countPorts (rsetf p (rFabPstate q) 2 0 st)) c 6 (10 + q / 32) st q

/-! Resets (R435, R436) -/

/-- Register words that a reset of kinds 1 to 4 keeps (R417, R436). -/
def keptReg (o : Nat) : Bool :=
  (decide (rGlbScratch 0 ≤ o) && decide (o < rGlbScratch 4)) || o == rGlbBootcnt || o == rGlbRestcnt
  || (decide (rHltLog 0 ≤ o) && decide (o < rHltLog 4096)) || o == rHltLoghead
  || (decide (rInpod 0 0 ≤ o) && decide (o < 0x680000)) || (decide (rGroup 0 ≤ o) && decide (o < rMember 131072))

/-- R436: stream contexts with a packet unanswered, or with an unmarked number below the highest marked one. -/
def ctxDirty (p : Pkg) : List Nat :=
  p.ctxs.filterMap (fun e => if p.outs.any (fun o => o.ctx == e.1) || e.2.rxmap != 0#256 then some e.1 else none)

/-- The package right after a reset of kind 1 to 4: what Table 18.3 and R436 keep, and place and interleave mode, which change only at
a power-up (R240, R315), and the rows and lanes that have been repaired; everything else as at power-up. -/
def resetPkg (p : Pkg) (kind : Nat) : Pkg :=
  let bank := rfld p rFabStatus 1 1
  let q : Pkg := {
    cfg := { p.cfg with mapIn := false }, repairs := p.repairs, fv := p.fv, host := p.host, store := p.store, ctxs := p.ctxs, plans := p.plans, punits := p.punits,
    nextOp := p.nextOp, nextJob := p.nextJob, wire := p.wire, wc := p.wc, ceOwed := p.ceOwed }
  let q := { q with
    mem := p.mem.filter (fun e => isHbm e.1), badLines := p.badLines.filter isHbm, ceLines := p.ceLines.filter isHbm,
    regs := p.regs.filter (fun e => keptReg e.1), ctxReset := ctxDirty p,
    pins := { p.pins with token := [], tokNext := 0, baudNext := none, report := [], reportState := 0, asker := none, wdog := [], wake := none } }
  let q := rset q rGlbResetcause kind
  let q := rsetb { q with time := { step := p.time.step, lost := rbit p rTimStatus 1, pd1 := p.time.pd1 } } rTimStatus 1 (rbit p rTimStatus 1)
  let q := if bank = 1 then rsetb q rFabStatus 1 true else q
  let q := rsetf q rSwmStatus 28 16 (rfld p rSwmStatus 28 16)
  let q := rset (rsetb q rMemCfg 0 (p.cfg.ilv == 1)) rFabPlace p.cfg.place
  rset (rset q rPwrStatus (Nat.land (rget p rPwrStatus) 0x3B)) rDbgStatus (rget p rDbgStatus)

/-- A write of a register word by a requester (R411 to R417). -/
def regWrite (p : Pkg) (w : Requester) (o v : Nat) : Pkg :=
  let v := v % 2 ^ 32
  if !live p || locked p w o then p
  else if lockMask o ≠ 0 then rset p o (Nat.lor (rget p o) (Nat.land v (lockMask o)))
  else if o = rGlbReset then (if v / 2 ^ 16 = 0x5A5A ∧ bit v 0 ∧ !p.pins.tripped ∧ !p.pins.resetLow then resetPkg p 2 else p)
  else if rGlbScratch 0 ≤ o ∧ o < rGlbScratch 4 then rset p o v
  else if o = rPwrLimit then rangeField p o 15 0 v (fun f => decide (1000 ≤ f) && decide (f ≤ 7200))
  else if o = rPwrTwarn ∨ o = rPwrIdle then rset p o (v % 2 ^ 16)
  else if o = rHifEvcfg then rset p o (Nat.land v 0x13F)
  else if rRslotLo 0 ≤ o ∧ o < rRslotLo 16 then rset p o (if o % 8 = 0 then v / 2 ^ 30 * 2 ^ 30 else v)
  else if o = rTimCfg then rangeField (rsetf p o 8 2 (v >>> 2)) o 1 0 v (fun f => f != 3)
  else if o = rMemCfg then rset p o (v % 4)
  else if rMemPartA 0 ≤ o ∧ o < rMemPartA 16 then
    if o = rMemPartB 0 then p
    else
      let q := rset p o (if o % 8 = 0 then Nat.land v 0x03FF03FF else v % 2 ^ 13)
      if partsOk q then q else p
  else if o = rMemScrub then rangeField p o 23 0 v (fun f => decide (64 ≤ f))
  else if rWindow 0 ≤ o ∧ o < rWindow 1024 then windowWord p o v
  else if rRegion 0 ≤ o ∧ o < rRegion 8192 then regionWord p o v
  else if (lockOf o).map (fun l => l.1) = some rFabLock ∧ o ≠ rFabPspare then rset p o (Nat.land v 0x37F)
  else if o = rFabPspare then rset p o (v % 2 ^ 8)
  else if rFabOwlcfg 0 ≤ o ∧ o < rFabOwlcfg 128 then owlcfgWrite p ((o - rFabOwlcfg 0) / 4) v
  else if o = rFabOwlft then rset p o (v % 2 ^ 16)
  else if o = rFabOwlfp then rset p o (Nat.land v 0x8003FFFF)
  else if o = rFabOwlfm then rset p o (v % 2 ^ 18)
  else if o = rFabOwlbaseLo then rset p o (v / 4096 * 4096)
  else if o = rFabOwlbaseHi then rset p o (v % 2 ^ 14)
  else if o = rFabOwlsize then rangeField p o 4 0 v (fun f => decide (10 ≤ f) && decide (f ≤ 24))
  else if o = rFabOwlrd then rset p o (v % 2 ^ 24)
  else if rHltTrendA 1 ≤ o ∧ o < rHltTrendA 16 then
    if o % 16 = 0 ∨ o % 16 = 4 then rset p o v
    else if o % 16 = 8 then
      rangeField (rangeField (rsetf p o 14 12 (v >>> 12)) o 7 0 v (fun f => f != 0)) o 11 8 v (fun f => f != 0)
    else p
  else if rHltPunit 0 ≤ o ∧ o < rHltPunit 312 then
    let i := (o - rHltPunit 0) / 4
    if !punitIndices.contains i then p else setPunit p i (if bits v 2 0 ≤ 4 then bits v 2 0 else unitState p i) (bits v 14 8)
  else if o = rDbgEnable then rset p o (v % 16)
  else
    match ringAt (rSq 0 0) o, ringAt (rCq 0 0) o with
    | some (r, k), _ =>
      if k = 0 ∨ k = 4 then (if sqEn p r then p else rset p o (if k = 0 then v / 4096 * 4096 else v))
      else if k = 8 then sqCfgWrite p r v
      else if k = 0x10 then sqDoorbell p r v else p
    | none, some (r, k) =>
      if k = 0 ∨ k = 4 then (if cqEn p r then p else rset p o (if k = 0 then v / 4096 * 4096 else v))
      else if k = 8 then cqCfgWrite p r v
      else if k = 0x10 then cqDoorbell p r v else p
    | none, none => p

/-- A register write; one that clears `FAB.PSPARE.VALID` makes port 127 dark (R316). -/
def regPut (p : Pkg) (c : Clock) (w : Requester) (o v : Nat) : Pkg :=
  let q := regWrite p w o v
  if o = rFabPspare ∧ rbit p rFabPspare 7 ∧ !rbit q rFabPspare 7 then setPort q c 127 0 else q

/-- `REGISTER_WRITE` (R416): a write of a register word by a requester of R411, at an offset of the setup window. An offset that is not
aligned is refused with RANGE (R412), which the ECL counts for the host (R393). -/
def execRegisterWrite (w : Fin 4) (o : Nat) (v : W32) (s : State) : Out :=
  run s (fun c p => if o % 4 = 0 then regPut p c w o v.toNat else if w = 0 ∧ live p then bump p rHifEclerr else p)

/-- `LO_READ_LATCH` (R419): a read of a LO register by a requester. -/
def execLoReadLatch (w : Fin 4) (o : Nat) (s : State) : Out :=
  run s (fun c p => if (latchHi o).isSome then (regReadBy p c w o).1 else p)

/-- `GLB_RESET` (R423): the keyed write, unless its lock is set. -/
def execGlbReset (w : Fin 4) (v : W32) (s : State) : Out := run s (fun _ p => regWrite p w rGlbReset v.toNat)

/-- `OWLCFG_WRITE` (R336). -/
def execOwlcfgWrite (q : Fin 128) (v : W32) (s : State) : Out := run s (fun _ p => if live p then owlcfgWrite p q v.toNat else p)

end Sys2Proof.Machine
end

