-- ==== Sys2Proof/Machine/StageChain.lean ====
section
/-! DEFINITION. The stage chain (06_stage_chain): configuration, stages, reductions, `SC.RUN`. -/

namespace Sys2Proof.Machine

/-- A lane's element (R123): P, the input elements, the scales they carry, C and M. -/
structure El where
  p : W64 := 0#64
  i0 : W64 := 0#64
  i1 : W64 := 0#64
  i2 : W64 := 0#64
  kp : Carry := {}
  k0 : Carry := {}
  k1 : Carry := {}
  k2 : Carry := {}
  c : Bool := false
  m : Bool := true
  deriving DecidableEq, Repr

/-- A stage word (Table 6.4). -/
structure Stage where
  ty : Nat
  fn : Nat
  sa : Nat
  sb : Nat
  sc : Nat
  save : Nat
  fcode : Nat
  ra : Nat
  nfrac : Nat
  param : Nat
  deriving DecidableEq, Repr

def parseStage (b : List Byte) : Stage :=
  { ty := field b 0 1, fn := field b 1 1, sa := bits (field b 2 1) 2 0, sb := bits (field b 2 1) 5 3,
    sc := bits (field b 3 1) 2 0, save := bits (field b 3 1) 4 3, fcode := field b 4 1, ra := bits (field b 5 1) 2 0,
    nfrac := bits (field b 6 1) 5 0, param := field b 8 8 }

def Stage.fmt (g : Stage) : Fmt := (fmtOfCode g.fcode).getD .b64

/-- What a run knows as a whole (Table 6.3, R148): logical tile, elements, lanes, row length, stages, tables in force. -/
structure ScCfg where
  t : Nat
  mask : Nat
  x : Tile
  n : Nat
  wid : Nat
  ln : Nat
  rlen : Nat
  stages : List Stage
  ftv : Nat
  radef : Nat
  deriving DecidableEq, Repr

/-- A run in progress: elements, formats of P and of the input streams, effects so far, the mask that CMPR found, latency,
input streams and destinations, each as what names its elements one for one (nothing for a destination that is no OUT) and
its bytes. -/
structure ScRun where
  els : List El
  pf : Option Fmt := none
  f0 : Option Fmt := none
  f1 : Option Fmt := none
  f2 : Option Fmt := none
  effs : List Eff := []
  cmask : Option (List Bool) := none
  lat : Nat := 0
  ins : List (List Nat × List Nat) := []
  dsts : List (List Nat × List Nat) := []
  deriving DecidableEq, Repr

/-- What fixes the elements of a tensor one for one (R131): address, format, layout, sizes and strides. -/
def Desc.key (d : Desc) : List Nat := [0, d.addr, d.fcode, d.layout, d.rank] ++ d.size.take d.rank ++ d.stride.take d.rank

/-- The bytes of byte ranges. -/
def bytesOf (l : List (Nat × Nat)) : List Nat := l.flatMap (fun a => (List.range a.2).map (fun b => a.1 + b))

/-- A destination that is no OUT: n bytes at an own-slice offset. -/
def sideOut (cfg : ScCfg) (off n : Nat) : List Nat × List Nat := ([], bytesOf [(sliceBase cfg.t + off, n)])

/-- A plan fault that one stage causes (R127): its index with bit 28. -/
def fStage (cause : Nat) (slot k : Nat) : PF := { cause := cause, slot := slot, detail := k * 2 ^ 24 + 2 ^ 28 }

/-- Lane flags of each element, dropped where the lane is inactive (R136). -/
def laneEffs (cfg : ScCfg) (els : List El) (fl : List Flags) : List Eff :=
  ((els.zip fl).zipIdx.filter (fun e => e.1.1.m && e.1.2 != 0#16)).map (fun e => Eff.lane (e.2 % cfg.ln) e.1.2)

/-- The value of an operand source for an element, with the scale it carries (Table 6.1). -/
def srcVal (g : Stage) (code : Nat) (e : El) : W64 × Carry :=
  if code = 0 then (e.p, e.kp) else if code = 1 then (e.i0, e.k0) else if code = 2 then (e.i1, e.k1)
  else if code = 3 then (e.i2, e.k2)
  else if code = 4 then (BitVec.ofNat 64 (g.param % 2 ^ g.fmt.width), { nfrac := g.nfrac })
  else (0#64, { nfrac := g.nfrac })

/-- The format of an operand source (R128), when it has one. -/
def srcFmt (r : ScRun) (g : Stage) (code : Nat) : Option Fmt :=
  if code = 0 then r.pf else if code = 1 then r.f0 else if code = 2 then r.f1 else if code = 3 then r.f2
  else if code ≤ 5 then some g.fmt else none

/-- An operand in the stage's format: equal formats, or H16 in a binary32 stage, decoded exactly (R128, R133). DEDUCED (log 116):
so too in a LOGIC stage of FMT binary32, which acts on the raw bits of the decoded value. -/
def operand (r : ScRun) (g : Stage) (k code : Nat) : Chk (El → W64) :=
  match srcFmt r g code with
  | none => .error (fStage 1 0 k)
  | some f =>
    if f = g.fmt then .ok (fun e => (srcVal g code e).1)
    else if f = .h16 ∧ g.fmt = .b32 then .ok (fun e => (encodeFloat .b32 .rne (decodeFloat .h16 (srcVal g code e).1)).1)
    else .error (fStage 1 0 k)

/-- A fixed-point format needs NFRAC below its width (R127). -/
def nfracOk (g : Stage) (f : Fmt) : Bool := !f.isFixed || decide (g.nfrac < f.width)

/-- R127: a stage wider than a 16-bit run, apart from the binary32 working format of H16 arithmetic and of RED. -/
def widthOk (cfg : ScCfg) (r : ScRun) (g : Stage) : Bool :=
  cfg.wid != 0 || decide (g.fmt.width ≤ 16)
  || (g.fmt == .b32 && (g.ty == 0x0C ||
      ((g.ty == 3 || g.ty == 4 || g.ty == 5 || g.ty == 9) && (readCodes g).any (fun c => srcFmt r g c == some .h16))))
where
  /-- The source codes that an arithmetic stage reads. -/
  readCodes (g : Stage) : List Nat :=
    if g.ty = 5 then [g.sa, g.sb, g.sc] else if g.ty = 9 ∧ g.fn ≠ 8 then [g.sa] else [g.sa, g.sb]

/-- The rounding attribute of a stage (R52). -/
def Stage.rm (g : Stage) (cfg : ScCfg) : Rnd := rndOfRa g.ra cfg.radef

/-- H16 arithmetic: in binary32, then converted into H16 by R61 (R133). -/
def viaB32 (r : R) : R := let q := encodeFloat .h16 .rne (decodeFloat .b32 r.1); (q.1, r.2 ||| q.2)

def h16to32 (c : W64) : W64 := (encodeFloat .b32 .rne (decodeFloat .h16 c)).1

/-- ADD, MUL and FMA on one element in the stage's format (R133). `fn` of FMA: the signs of product and addend. -/
def arith (cfg : ScCfg) (g : Stage) (a b c : W64) : R :=
  let rm := g.rm cfg
  let f := g.fmt
  if f.isFloat then
    let w : Fmt := if f = .h16 then .b32 else f
    let up (x : W64) : W64 := if f = .h16 then h16to32 x else x
    let r := if g.ty = 3 then (if g.fn = 0 then fAdd w rm (up a) (up b) else fSub w rm (up a) (up b))
      else if g.ty = 4 then fMul w rm (up a) (up b)
      else
        let x := decodeFloat w (up a)
        let x := if g.fn ≥ 2 then negNum x else x
        let z := decodeFloat w (up c)
        let z := if g.fn % 2 = 1 then negNum z else z
        finish w rm (fmaNum rm x (decodeFloat w (up b)) z)
    if f = .h16 then viaB32 r else r
  else
    let n := if f.isFixed then g.nfrac else 0
    let ia := codeInt f a
    let ib := codeInt f b
    let ic := codeInt f c
    if g.ty = 3 then xAdd f.width ia (if g.fn = 0 then ib else -ib)
    else if g.ty = 4 then xMul f.width n ia ib
    else xFma f.width n (if g.fn ≥ 2 then -ia else ia) ib (if g.fn % 2 = 1 then -ic else ic)

/-- SEL functions 1 to 5 (R53, R135). -/
def selFn (g : Stage) (a b : W64) : R :=
  let f := g.fmt
  if f.isFloat then
    if g.fn = 1 then fMaxMin true f a b else if g.fn = 2 then fMaxMin false f a b
    else if g.fn = 3 then (fAbs f a, 0#16) else if g.fn = 4 then (fNeg f a, 0#16)
    else (setSign f (signOf f b) a, 0#16)
  else
    let ia := codeInt f a
    let ib := codeInt f b
    let absA : Int := ia.natAbs
    if g.fn = 1 then (if ia ≥ ib then a else b, 0#16) else if g.fn = 2 then (if ia ≤ ib then a else b, 0#16)
    else if g.fn = 3 then satCode f.width absA else if g.fn = 4 then satCode f.width (-ia)
    else satCode f.width (if ib ≥ 0 then absA else -absA)

/-- FUNC (R138, R139) and its division and square root. -/
def funcStage (cfg : ScCfg) (g : Stage) (a b : W64) : R :=
  let f := g.fmt
  let w : Fmt := if f = .h16 then .b32 else f
  let up (x : W64) : W64 := if f = .h16 then h16to32 x else x
  let r := if g.fn ≤ 6 then func32 cfg.ftv g.fn (up a)
    else if g.fn = 8 then fDiv w (g.rm cfg) (up a) (up b) else fSqrt w (g.rm cfg) (up a)
  if f = .h16 then viaB32 r else r

/-- LOGIC on the raw bits of the format (R137). -/
def logicFn (fn w : Nat) (a b : W64) : W64 :=
  let mask := BitVec.ofNat 64 (2 ^ w - 1)
  (if fn = 0 then a &&& b else if fn = 1 then a ||| b else if fn = 2 then a ^^^ b else if fn = 3 then a &&& ~~~ b else ~~~ a)
    &&& mask

/-- SHIFT by the low 6 bits of b (R137). -/
def shiftFn (fn w : Nat) (a b : W64) : W64 :=
  let k := b.toNat % 64
  let n := a.toNat % 2 ^ w
  if fn = 0 then BitVec.ofNat 64 (if k ≥ w then 0 else n * 2 ^ k % 2 ^ w)
  else if fn = 1 then BitVec.ofNat 64 (if k ≥ w then 0 else n / 2 ^ k)
  else BitVec.ofNat 64 (wrapInt w (sext w n / (2 ^ min k w : Int)))

/-- Writes the results of a stage to P and by SAVE to an input stream (R123). DEDUCED (log 117): SAVE brings an input stream that IN
does not use into being; a CMP or MASK stage, whose result is no value of P, saves nothing. -/
def putP (r : ScRun) (g : Stage) (f : Fmt) (els : List El) (vals : List (W64 × Carry)) : ScRun :=
  let els := List.zipWith (fun e v =>
    let e := { e with p := v.1, kp := v.2 }
    if g.save = 1 then { e with i0 := v.1, k0 := v.2 } else if g.save = 2 then { e with i1 := v.1, k1 := v.2 }
    else if g.save = 3 then { e with i2 := v.1, k2 := v.2 } else e) els vals
  { r with
    els := els, pf := some f,
    f0 := (if g.save = 1 then some f else r.f0), f1 := (if g.save = 2 then some f else r.f1),
    f2 := (if g.save = 3 then some f else r.f2) }

/-- A stage that maps each element to a code in its own format. -/
def mapStage (cfg : ScCfg) (r : ScRun) (g : Stage) (lat : Nat) (h : El → R) : ScRun :=
  let rs := r.els.map h
  let r' := putP r g g.fmt r.els (rs.map (fun v => (v.1, { nfrac := g.nfrac })))
  { r' with effs := r'.effs ++ laneEffs cfg r.els (rs.map (fun v => v.2)), lat := r.lat + lat }

/-! Input -/

/-- Tile rows that n elements of a comb stream need (R129). -/
def combNeed (n : Nat) (wide : Bool) : Nat := (if wide then 2 else 1) * cdiv n 256

/-- Byte address of the comb cell of stream element i. -/
def combCell (t ci i : Nat) (wide : Bool) : Nat := cellAddrSc t (ci + (if wide then 2 else 1) * (i / 256)) wide (i % 256)
where
  cellAddrSc (t row : Nat) (wide : Bool) (j : Nat) : Nat := combBase t + row * 2048 + (if wide then 16 else 8) * j

/-- The bytes of the cells of a comb stream, which are consecutive (R79, R129). -/
def combSpan (cfg : ScCfg) (ci : Nat) (wide : Bool) : Nat × Nat := (combBase cfg.t + ci * 2048, cfg.n * (if wide then 16 else 8))

/-- One input stream: its codes with their carried scales, its format, lane flags, what names its elements, byte ranges. -/
def inStream (p : Pkg) (cfg : ScCfg) (g : Stage) (k : Nat) :
    Chk (Option (List (W64 × Carry) × Fmt × List Flags × List Nat × List (Nat × Nat))) := do
  let b := bits g.param (8 * k + 7) (8 * k)
  if !bit b 6 then .ok none
  else if bit b 7 then
    let ci := bits g.param 35 24
    let wide := bit g.param 36
    need (decide (ci + combNeed cfg.n wide ≤ 4096) && !(wide && ci % 2 == 1)) (fStage 5 0 0)
    let f : Fmt := if wide then .b64 else .b32
    need (decide (f.width ≤ 16 * 2 ^ cfg.wid)) (fStage 1 0 0)
    let vs := (List.range cfg.n).map (fun i =>
      let (s, c) := cellAt p.mem (combCell cfg.t ci i wide) wide
      fAdd f .rne s c)
    .ok (some (vs.map (fun v => (v.1, {})), f, vs.map (fun v => v.2), [1, ci, b2n wide],
      [combSpan cfg ci wide]))
  else
    let slot := bits b 5 0
    let d := cfg.x.desc slot
    need (d.valid cfg.t cfg.mask false false && d.own cfg.t && decide (d.fmt.width ≤ 16 * 2 ^ cfg.wid)
      && (d.fmt != .a16 || d.skind != 1 || recOk p cfg.t d)) (fStage 1 slot 0)
    need (decide (cfg.n ≤ d.count)) (fStage 5 0 0)
    .ok (some ((List.range cfg.n).map (fun i =>
        (rdElem p.mem d i, if d.fmt = .a16 then carryAt p cfg.t d (d.i1At i) else {})),
      d.fmt, List.replicate cfg.n 0#16, d.key, d.ranges.take cfg.n))

/-- The IN stage: the run with its streams, and the ranges read (R129). -/
def stageIn (p : Pkg) (cfg : ScCfg) (g : Stage) : Chk (ScRun × List (Nat × Nat)) := do
  need (g.fn == 0 && decide (g.sa ≤ 5) && decide (g.sb ≤ 5) && decide (g.sc ≤ 5)) (fStage 1 0 0)
  let s0 ← inStream p cfg g 0
  let s1 ← inStream p cfg g 1
  let s2 ← inStream p cfg g 2
  let vals (s : Option (List (W64 × Carry) × Fmt × List Flags × List Nat × List (Nat × Nat))) : List (W64 × Carry) :=
    match s with
    | some v => v.1
    | none => List.replicate cfg.n (0#64, {})
  let els := (vals s0).zipWith (fun a b => (a, b)) ((vals s1).zip (vals s2)) |>.map (fun v =>
    ({ p := v.1.1, kp := v.1.2, i0 := v.1.1, k0 := v.1.2, i1 := v.2.1.1, k1 := v.2.1.2, i2 := v.2.2.1, k2 := v.2.2.2 } : El))
  let streams := [s0, s1, s2].filterMap id
  let comb := streams.any (fun s => s.2.2.2.1.headD 0 == 1)
  let effs := streams.flatMap (fun s => laneEffs cfg els s.2.2.1)
  .ok ({ els := els, pf := s0.map (fun s => s.2.1), f0 := s0.map (fun s => s.2.1), f1 := s1.map (fun s => s.2.1),
         f2 := s2.map (fun s => s.2.1), effs := effs, lat := (if comb then 8 else 6),
         ins := streams.map (fun s => (s.2.2.2.1, bytesOf s.2.2.2.2)) },
       streams.flatMap (fun s => s.2.2.2.2))

/-! Reductions (R140 to R143) -/

/-- One node of a reduction in its working format. -/
def redNode (f : Fmt) (n fn : Nat) (a b : W64) : R :=
  if f.isFloat then
    if fn = 0 then fAdd f .rne a b else if fn = 1 then fMul f .rne a b else fMaxMin (fn = 2) f a b
  else
    let ia := codeInt f a
    let ib := codeInt f b
    if fn = 0 then satCode 64 (ia + ib)
    else if fn = 1 then (if f.isFixed then xMul 64 n ia ib else satCode 64 (ia * ib))
    else if fn = 2 then (if ia ≥ ib then a else b, 0#16) else if fn = 3 then (if ia ≤ ib then a else b, 0#16)
    else if fn = 6 then (a &&& b, 0#16) else if fn = 7 then (a ||| b, 0#16) else (a ^^^ b, 0#16)

/-- R141: whether an argmax (argmin) node keeps its lower child; −0 orders below +0 (R53, R140). -/
def keepLower (f : Fmt) (fn : Nat) (lo up : W64) : Bool :=
  let a := valueOf f {} lo
  let b := valueOf f {} up
  if isNan a then true
  else if isNan b then false
  else if fn = 4 then !ordersBelow a b else !ordersBelow b a

/-- A node of the tree: code, index, flags; nothing when absent. -/
abbrev RedVal := Option (W64 × Nat × Flags)

def redJoin (f : Fmt) (n fn : Nat) (a b : RedVal) : RedVal :=
  match a, b with
  | none, b => b
  | a, none => a
  | some (x, i, fx), some (y, j, fy) =>
    if fn = 4 ∨ fn = 5 then
      let sn := if f.isFloat then snanFlag (decodeFloat f x) ||| snanFlag (decodeFloat f y) else 0#16
      -- R140 with R53: a node that meets a NaN delivers the canonical quiet one, with the kept pair's index
      let q (c : W64) : W64 := if f.isFloat && (isNan (decodeFloat f x) || isNan (decodeFloat f y)) then canonNan f else c
      if keepLower f fn x y then some (q x, i, fx ||| fy ||| sn) else some (q y, j, fx ||| fy ||| sn)
    else
      let r := redNode f n fn x y
      some (r.1, 0, r.2 ||| fx ||| fy)

def redLevel (f : Fmt) (n fn : Nat) : List RedVal → List RedVal
  | a :: b :: r => redJoin f n fn a b :: redLevel f n fn r
  | l => l

def redTree (f : Fmt) (n fn : Nat) : Nat → List RedVal → RedVal
  | 0, l => l.headD none
  | k + 1, l => redTree f n fn k (redLevel f n fn l)

/-- Table 6.8. -/
def redIdentity (f : Fmt) (n fn : Nat) : W64 :=
  if f.isFloat then
    if fn = 0 then 0#64
    else if fn = 1 then (roundFin f .rne false 1 0).1
    else if fn = 2 ∨ fn = 4 then infCode f true else infCode f false
  else
    if fn = 0 ∨ fn = 7 ∨ fn = 8 then 0#64
    else if fn = 1 then (if f.isFixed then (satCode 64 (2 ^ n)).1 else 1#64)
    else if fn = 6 then BitVec.allOnes 64
    else if fn = 2 ∨ fn = 4 then BitVec.ofNat 64 (wrapInt 64 (intMin 64)) else BitVec.ofNat 64 (wrapInt 64 (intMax 64))

/-- The result of one row or column with its flags: the identity and EMPTY where nothing is active (R143). -/
def redResult (f : Fmt) (n fn : Nat) (v : RedVal) : W64 × Nat × Flags :=
  match v with
  | some r => r
  | none => (redIdentity f n fn, 0xFFFFFFFF, fEMPTY)

/-- A RED operand widened into the working format (R140). -/
def redOperand (r : ScRun) (g : Stage) (k : Nat) : Chk (El → W64) :=
  match srcFmt r g g.sa with
  | none => .error (fStage 1 0 k)
  | some f =>
    if !nfracOk g f then .error (fStage 1 0 k)
    else if f = g.fmt then .ok (fun e => (srcVal g g.sa e).1)
    else if f = .h16 ∧ g.fmt = .b32 then .ok (fun e => h16to32 (srcVal g g.sa e).1)
    else if (f.isNamedInt ∧ g.fmt = .i64) ∨ (f.isFixed ∧ g.fmt = .fx64) then
      .ok (fun e => BitVec.ofNat 64 (wrapInt 64 (codeInt f (srcVal g g.sa e).1)))
    else .error (fStage 1 0 k)

/-- The unused positions of a packed tensor's last unit, written as +0 once its last element is stored (R56, R57). -/
def padEffs (d : Desc) (n : Nat) : List Eff := if n = d.count then (padW d).map Eff.bits else []

/-- A RED stage. DEDUCED (log 118): a result converted into A16 against a record takes the record's S and Z and updates no record,
since R115 and R134 name QNT, CVT and the drain alone as the conversions that do. -/
def stageRed (p : Pkg) (cfg : ScCfg) (r : ScRun) (g : Stage) (k : Nat) : Chk ScRun := do
  let f := g.fmt
  need ((f == .b64 || f == .b32 || f == .i64 || f == .fx64) && decide (g.fn ≤ 8) && (decide (g.fn < 6) || f == .i64)
    && nfracOk g f) (fStage 1 0 k)
  let h ← redOperand r g k
  let axis := bit g.param 6
  let comb := bit g.param 7
  need (!(comb && !axis)) (fStage 1 0 k)
  let leaf (e : El) (i : Nat) : RedVal := if e.m then some (h e, i, 0#16) else none
  let nr := cdiv cfg.n cfg.rlen
  let rowsOf := chunksSc cfg.rlen nr r.els
  if comb then
    let wide := bit g.param 20
    need (g.fn == 0 && f == (if wide then .b64 else .b32)) (fStage 1 0 k)
    let ci := bits g.param 19 8
    let nrows := combNeed cfg.rlen wide
    need (decide (ci + nrows ≤ 4096) && !(wide && ci % 2 == 1)) (fStage 5 0 k)
    let passes := (List.range nrows).map (fun a =>
      let blk := if wide then a / 2 else a
      let cols := (List.range (min 256 (cfg.rlen - 256 * blk))).map (fun j => 256 * blk + j)
      Eff.rowPass (ci + a) false ((cols.filter (fun j => rowsOf.any (fun row => (row[j]?).any (fun e => e.m)))).map (fun j => j % cfg.ln)))
    let adds := (List.range cfg.rlen).flatMap (fun j =>
      let col := rowsOf.filterMap (fun row => (row[j]?).bind (fun e => if e.m then some (h e) else none))
      if col.isEmpty then [Eff.lane (j % cfg.ln) fEMPTY]
      else col.map (fun v => Eff.add (combCell cfg.t ci j wide) wide (j % cfg.ln) v false))
    .ok { r with
      effs := r.effs ++ passes ++ adds, lat := r.lat + 6,
      dsts := r.dsts ++ [([], (List.range cfg.rlen).flatMap (fun j => bytesOf [(combCell cfg.t ci j wide, if wide then 16 else 8)]))] }
  else
    let slot := bits g.param 5 0
    let d := cfg.x.desc slot
    need (d.valid cfg.t cfg.mask false false && d.own cfg.t && nfracOk g d.fmt
      && (d.fmt != .a16 || d.skind != 1 || recOk p cfg.t d)) (fStage 1 slot k)
    let nres := if axis then cfg.rlen else nr
    need (decide (nres ≤ d.count)) (fStage 5 0 k)
    let idx := 8 * bits g.param 42 21
    let isArg := g.fn == 4 || g.fn == 5
    need (!isArg || ownRange idx (4 * nres)) (fStage 5 0 k)
    let results : List ((W64 × Nat × Flags) × Nat) :=
      if axis then
        (List.range cfg.rlen).map (fun j =>
          (redResult f g.nfrac g.fn
            (rowsOf.zipIdx.foldl (fun acc row =>
              redJoin f g.nfrac g.fn acc ((row.1[j]?).bind (fun e => leaf e row.2))) none), j % cfg.ln))
      else
        rowsOf.zipIdx.map (fun row =>
          (redResult f g.nfrac g.fn (redTree f g.nfrac g.fn (clog2 cfg.rlen) (row.1.zipIdx.map (fun e => leaf e.1 e.2))),
            row.2 * cfg.rlen % cfg.ln))
    let eff := results.zipIdx.flatMap (fun e =>
      let (((v, _, fl), lane), i) := e
      let kd : Carry := if d.fmt = .a16 then carryAt p cfg.t d (d.i1At i) else { nfrac := g.nfrac }
      let o : R := if d.fmt = f then (v, 0#16) else convert .rne f { nfrac := g.nfrac } d.fmt kd v
      [Eff.lane lane (fl ||| o.2), Eff.bits (wrElem d i o.1)])
    let idxW := if isArg then [Eff.bits (bytesW (sliceBase cfg.t + idx) (results.flatMap (fun e => natLe 4 e.1.2.1)))] else []
    .ok { r with
      effs := r.effs ++ eff ++ padEffs d nres ++ idxW, lat := r.lat + (if axis then 4 else 2 + clog2 cfg.rlen),
      dsts := r.dsts ++ [([], bytesOf (d.ranges.take nres))] ++ (if isArg then [sideOut cfg idx (4 * nres)] else []) }
where
  chunksSc (g : Nat) : Nat → List El → List (List El)
    | 0, _ => []
    | n + 1, l => l.take g :: chunksSc g n (l.drop g)

/-! Data-dependent streams, quantisation, output -/

/-- A bitmask over positions (R126). -/
def maskBytes (n : Nat) (ms : List Bool) : List Byte :=
  natLe (cdiv n 8) (ms.zipIdx.foldl (fun a b => if b.1 then a + 2 ^ b.2 else a) 0)

def maskAt (m : Mem) (a n : Nat) : List Bool := let v := mnat m a (cdiv n 8); (List.range n).map (bit v)

/-- CMPR (R144). Positions from K upward are inactive; what P holds there no rule states: a free function of what was packed
(R261, log 84). -/
def stageCmpr (cfg : ScCfg) (r : ScRun) (g : Stage) (k : Nat) : Chk ScRun := do
  match r.pf with
  | none => .error (fStage 1 0 k)
  | some f =>
    need (g.fn == 0 && nfracOk g f) (fStage 1 0 k)
    let cnt := 4 * bits g.param 22 0
    let moff := 64 * bits g.param 41 23
    let msave := bit g.param 42
    need (ownRange cnt 4 && (!msave || ownRange moff (cdiv cfg.n 8))) (fStage 5 0 k)
    let ms := r.els.map (fun e => e.m)
    let act := (r.els.filter (fun e => e.m)).map (fun e => (e.p, e.kp))
    let K := act.length
    let rest (i : Nat) : W64 :=
      BitVec.ofNat 64 ((Config.operandWord 1 (cfg.n :: act.map (fun v => v.1.toNat)) i).toNat % 2 ^ f.width)
    let vals := act ++ (List.range (cfg.n - K)).map (fun i => (rest i, ({} : Carry)))
    let els := r.els.zipIdx.map (fun e => { e.1 with m := decide (e.2 < K) })
    let r1 := putP r g f els vals
    .ok { r1 with
      cmask := some ms, lat := r.lat + 4,
      effs := r1.effs ++ [Eff.bits (bytesW (sliceBase cfg.t + cnt) (natLe 4 K))]
        ++ (if msave then [Eff.bits (bytesW (sliceBase cfg.t + moff) (maskBytes cfg.n ms))] else []),
      dsts := r.dsts ++ [sideOut cfg cnt 4] ++ (if msave then [sideOut cfg moff (cdiv cfg.n 8)] else []) }

/-- Places packed elements by a placement mask (R145). -/
def expand : List Bool → List (W64 × Carry) → List (W64 × Carry) → List (W64 × Carry)
  | true :: ms, v :: vs, _ :: fs => v :: expand ms vs fs
  | _ :: ms, vs, f :: fs => f :: expand ms vs fs
  | _, _, _ => []

/-- FILL in a format (Table 6.5). -/
def fillCode (f : Fmt) (pat : Nat) : W64 :=
  if f = .b64 then (encodeFloat .b64 .rne (decodeFloat .b32 (BitVec.ofNat 64 pat))).1
  else if f.width = 64 then BitVec.ofNat 64 (wrapInt 64 (sext 32 pat)) else BitVec.ofNat 64 (pat % 2 ^ f.width)

def stageExpd (p : Pkg) (cfg : ScCfg) (r : ScRun) (g : Stage) (k : Nat) : Chk ScRun := do
  match r.pf with
  | none => .error (fStage 1 0 k)
  | some f =>
    need (decide (g.fn ≤ 1) && (fmtOfCode g.fcode) == some f && nfracOk g f && widthOk cfg r g) (fStage 1 0 k)
    let mcur := bit g.param 22
    let mloc := 8 * bits g.param 21 0
    need (!mcur || r.cmask.isSome) (fStage 1 0 k)
    need (mcur || ownRange mloc (cdiv cfg.n 8)) (fStage 5 0 k)
    let place := if mcur then r.cmask.getD [] else maskAt p.mem (sliceBase cfg.t + mloc) cfg.n
    let packed := (r.els.filter (fun e => e.m)).map (fun e => (e.p, e.kp))
    let h ← if g.fn = 0 then .ok (fun (_ : El) => fillCode f (bits g.param 63 32)) else operand r g k g.sb
    let fill (e : El) : W64 × Carry := (h e, if g.fn = 0 then { nfrac := g.nfrac } else (srcVal g g.sb e).2)
    let vals := expand place packed (r.els.map fill)
    let r1 := putP r g f (r.els.map (fun e => { e with m := true })) vals
    .ok { r1 with lat := r.lat + 4 }

/-- The exact value of a code that a stage reads: an A16 code by the scale it carries, a fixed-point one by the stage's NFRAC
(R59, R134). -/
def stageNum (g : Stage) (f : Fmt) (v : W64 × Carry) : Num := valueOf f (if f = .a16 then v.2 else { nfrac := g.nfrac }) v.1

/-- The flags of forming that value: those of S × (c − z) (R51, R68, R135). -/
def stageNumFlags (f : Fmt) (v : W64 × Carry) : Flags := if f = .a16 then (a16Num v.2.sc v.2.z v.1).2 else 0#16

/-- The exact values that P holds. -/
def pNums (r : ScRun) (g : Stage) (f : Fmt) : List Num := r.els.map (fun e => stageNum g f (e.p, e.kp))

/-- Groups of consecutive elements of a narrow target: elements by group number. -/
def quantGroups (cfg : ScCfg) (d : Desc) (r : ScRun) (g : Stage) (f : Fmt) : List (Nat × List (Num × Bool)) :=
  let es := (r.els.zip (pNums r g f)).zipIdx.map (fun e => (d.groupAt e.2, (e.1.2, e.1.1.m)))
  let last := d.groupAt (cfg.n - 1)
  (List.range (last + 1)).map (fun gi => (gi, (es.filter (fun e => e.1 == gi)).map (fun e => e.2)))

/-- The flags of a group's elements with the scale's SAT on the first active one (R107, R146). DEDUCED (log 119): the SAT that the
choice of the scale raises is raised in that lane. -/
def groupFlags (sf : Flags) : List (R × Bool) → List R
  | [] => []
  | (o, true) :: r => (o.1, o.2 ||| sf) :: r.map (fun v => v.1)
  | (o, false) :: r => o :: groupFlags sf r

/-- QNT (R146). -/
def stageQnt (p : Pkg) (cfg : ScCfg) (r : ScRun) (g : Stage) (k : Nat) : Chk ScRun := do
  match r.pf with
  | none => .error (fStage 1 0 k)
  | some f =>
    let slot := bits g.param 5 0
    let d := cfg.x.desc slot
    let next := (cfg.stages.drop (k + 1)).find? (fun s => s.ty == 0x11)
    need (d.valid cfg.t cfg.mask false false && d.own cfg.t && g.fn == 0 && g.fmt == d.fmt && nfracOk g f
      && (match next with
          | some s => !bit s.param 6 && bits s.param 5 0 == slot
          | none => false)
      && ((d.fmt == .a16 && (d.skind != 1 || recOk p cfg.t d)) || (d.fmt.isNarrow && d.skind == 2 && d.scalesOk cfg.t)))
      (fStage 1 slot k)
    need (decide (cfg.n ≤ d.count)) (fStage 5 0 k)
    let nums := pNums r g f
    if d.fmt = .a16 then
      let (outs, recW) :=
        if d.skind = 1 then
          convertRec p cfg.t d (((r.els.zip nums).zipIdx).map (fun e => (e.1.2, d.i1At e.2, e.1.1.m)))
        else (nums.map (toA16 0x3F800000#64 d.zp), [])
      let r1 := putP r g .a16 r.els (outs.zipIdx.map (fun o => (o.1.1, newCarry p cfg.t d recW o.2)))
      .ok { r1 with effs := r1.effs ++ laneEffs cfg r.els (outs.map (fun o => o.2)) ++ recW.map Eff.bits, lat := r.lat + 4 }
    else
      let gs := (quantGroups cfg d r g f).map (fun e =>
        (e.1, narrowGroup d.fmt (e.2.map (fun v => v.1)) ((e.2.filter (fun v => v.2)).map (fun v => v.1)),
          e.2.map (fun v => v.2)))
      let outs := gs.flatMap (fun e => groupFlags e.2.1.2.2 (e.2.1.2.1.zip e.2.2))
      let scW := gs.map (fun e => bytesW (d.sptr + 2 * e.1) (natLe 2 e.2.1.1.toNat))
      let r1 := putP r g d.fmt r.els (outs.map (fun o => (o.1, {})))
      .ok { r1 with
        effs := r1.effs ++ laneEffs cfg r.els (outs.map (fun o => o.2)) ++ scW.map Eff.bits,
        lat := r.lat + 4 + cdiv d.g cfg.ln,
        dsts := r.dsts ++ [([], scW.flatMap (fun b => [b.addr / 8, b.addr / 8 + 1]))] }
where
  /-- The scale that a converted element carries: the one that the conversion used (R134). -/
  newCarry (p : Pkg) (t : Nat) (d : Desc) (recW : List BitW) (i : Nat) : Carry :=
    carryAt { p with mem := applyWs p.mem recW } t d (d.i1At i)

/-- CVT (R134). -/
def stageCvt (p : Pkg) (cfg : ScCfg) (r : ScRun) (g : Stage) (k : Nat) : Chk ScRun := do
  match r.pf, fmtOfCode g.fcode with
  | some f, some tf =>
    if g.fn = 1 then
      need ((f == .b64 || f == .b32 || f == .h16) && tf == f && widthOk cfg r g) (fStage 1 0 k)
      .ok (mapStage cfg r g 2 (fun e => roundIntegral f (g.rm cfg) e.p))
    else
      need (g.fn == 0 && nfracOk g f && nfracOk g tf && widthOk cfg r g) (fStage 1 0 k)
      let rm := g.rm cfg
      let src (e : El) : Carry := if f = .a16 then e.kp else { nfrac := g.nfrac }
      if tf = .a16 then
        let outs := (cfg.stages.drop (k + 1)).filter (fun s => s.ty == 0x11 && !bit s.param 6)
        match outs.find? (fun s => (cfg.x.desc (bits s.param 5 0)).fmt == .a16) with
        | none =>
          let rs := r.els.map (fun e => convert rm f (src e) .a16 {} e.p)
          let r1 := putP r g .a16 r.els (rs.map (fun v => (v.1, {})))
          .ok { r1 with effs := r1.effs ++ laneEffs cfg r.els (rs.map (fun v => v.2)), lat := r.lat + 2 }
        | some s =>
          let slot := bits s.param 5 0
          let d := cfg.x.desc slot
          need (d.valid cfg.t cfg.mask false false && (d.skind != 1 || recOk p cfg.t d)) (fStage 1 slot k)
          let nums := r.els.map (fun e => valueOf f (src e) e.p)
          let (rs, recW) :=
            if d.skind = 1 then
              convertRec p cfg.t d (((r.els.zip nums).zipIdx).map (fun e => (e.1.2, d.i1At e.2, e.1.1.m)))
            else (nums.map (toA16 0x3F800000#64 d.zp), [])
          let q := { p with mem := applyWs p.mem recW }
          let r1 := putP r g .a16 r.els (rs.zipIdx.map (fun o => (o.1.1, carryAt q cfg.t d (d.i1At o.2))))
          .ok { r1 with effs := r1.effs ++ laneEffs cfg r.els (rs.map (fun o => o.2)) ++ recW.map Eff.bits, lat := r.lat + 2 }
      else
        let rs := r.els.map (fun e => convert rm f (src e) tf { nfrac := g.nfrac } e.p)
        let r1 := putP r g tf r.els (rs.map (fun v => (v.1, { nfrac := g.nfrac })))
        .ok { r1 with effs := r1.effs ++ laneEffs cfg r.els (rs.map (fun v => v.2)), lat := r.lat + 2 }
  | _, _ => .error (fStage 1 0 k)

/-- OUT (R130). DEDUCED (log 120): an A16 P that passes through to a descriptor with SKIND 1 has no scale applied here, so the record
is not checked (R103). -/
def stageOut (cfg : ScCfg) (r : ScRun) (g : Stage) (k : Nat) : Chk ScRun := do
  match r.pf with
  | none => .error (fStage 1 0 k)
  | some f =>
    need (g.fn == 0 && (fmtOfCode g.fcode) == some f && nfracOk g f) (fStage 1 0 k)
    let mskw := bit g.param 7
    let keep (e : El) : Bool := !mskw || e.m
    let pc := bit g.param 8
    let pcoff := 8 * bits g.param 43 22
    let mout := bit g.param 44
    let moff := 64 * bits g.param 63 45
    need ((!pc || ownRange pcoff 520) && (!mout || ownRange moff (cdiv cfg.n 8))) (fStage 5 0 k)
    let base := sliceBase cfg.t
    let taps := (if pc then [Eff.bits (bytesW (base + pcoff) (pollenBytes ((r.els.filter (fun e => e.m)).map (fun e =>
        stageNum g f (e.p, e.kp)))))] else [])
      ++ (if mout then [Eff.bits (bytesW (base + moff) (maskBytes cfg.n (r.els.map (fun e => e.m))))] else [])
    let tapB := (if pc then [sideOut cfg pcoff 520] else []) ++ (if mout then [sideOut cfg moff (cdiv cfg.n 8)] else [])
    if bit g.param 6 then
      let wide := bit g.param 9
      let ci := bits g.param 21 10
      need (f == (if wide then .b64 else .b32) && decide (f.width ≤ 16 * 2 ^ cfg.wid)) (fStage 1 0 k)
      need (decide (ci + combNeed cfg.n wide ≤ 4096) && !(wide && ci % 2 == 1)) (fStage 5 0 k)
      let st := (r.els.zipIdx.filter (fun e => keep e.1)).map (fun e =>
        Eff.bits { addr := 8 * combCell cfg.t ci e.2 wide, w := if wide then 128 else 64, v := e.1.p.toNat % 2 ^ f.width })
      -- the tile rows that hold a stored element
      let rows := (List.range (combNeed cfg.n wide)).filter (fun a =>
        ((r.els.drop (256 * (if wide then a / 2 else a))).take 256).any keep)
      .ok { r with
        effs := r.effs ++ st ++ rows.map (fun a => Eff.rowClear (ci + a)) ++ taps,
        lat := r.lat + 2,
        dsts := r.dsts ++ [([1, ci, b2n wide], bytesOf [combSpan cfg ci wide])] ++ tapB }
    else
      let slot := bits g.param 5 0
      let d := cfg.x.desc slot
      need (d.valid cfg.t cfg.mask false false && d.own cfg.t && d.fmt == f && decide (f.width ≤ 16 * 2 ^ cfg.wid)) (fStage 1 slot k)
      need (decide (cfg.n ≤ d.count)) (fStage 5 0 k)
      let st := (r.els.zipIdx.filter (fun e => keep e.1)).map (fun e => Eff.bits (wrElem d e.2 e.1.p))
      .ok { r with
        effs := r.effs ++ st ++ padEffs d cfg.n ++ taps, lat := r.lat + 2,
        dsts := r.dsts ++ [(d.key, bytesOf (d.ranges.take cfg.n))] ++ tapB }

/-- Latency of an arithmetic stage (Table 6.6). -/
def arithLat (g : Stage) : Nat :=
  let w64 := decide (g.fmt.width = 64)
  if g.ty = 5 then (if w64 then 5 else 4) else if g.ty = 9 then (if g.fn ≤ 6 then 8 else if w64 then 24 else 12)
  else (if w64 then 4 else 3)

/-- One stage after IN (R132 to R147). -/
def stageStep (p : Pkg) (cfg : ScCfg) (k : Nat) (g : Stage) (r : ScRun) : Chk ScRun := do
  let inv := fStage 1 0 k
  let f := g.fmt
  let known := (fmtOfCode g.fcode).isSome
  need (decide (g.sa ≤ 5) && decide (g.sb ≤ 5) && decide (g.sc ≤ 5)) inv
  if g.ty = 0x02 then stageCvt p cfg r g k
  else if g.ty = 0x03 ∨ g.ty = 0x04 ∨ g.ty = 0x05 then
    need (known && (f == .b64 || f == .b32 || f == .h16 || f.isFixed || (f.isNamedInt && g.ty != 5))
      && decide (g.fn ≤ (if g.ty = 3 then 1 else if g.ty = 4 then 0 else 3)) && nfracOk g f && widthOk cfg r g) inv
    let a ← operand r g k g.sa
    let b ← operand r g k g.sb
    let c ← if g.ty = 5 then operand r g k g.sc else .ok (fun _ => 0#64)
    .ok (mapStage cfg r g (arithLat g) (fun e => arith cfg g (a e) (b e) (c e)))
  else if g.ty = 0x06 then
    need (known && f != .q4 && f != .h6 && decide (g.fn ≤ 6) && nfracOk g f && widthOk cfg r g) inv
    let a ← operand r g k g.sa
    let b ← operand r g k g.sb
    let rel : Rel := if g.fn = 0 then .eq else if g.fn = 1 then .ne else if g.fn = 2 then .lt else if g.fn = 3 then .le
      else if g.fn = 4 then .gt else if g.fn = 5 then .ge else .unord
    let val (code : Nat) (h : El → W64) (e : El) : W64 × Carry := (h e, (srcVal g code e).2)
    let rs := r.els.map (fun e =>
      let x := val g.sa a e
      let y := val g.sb b e
      let o := cmpRel rel (stageNum g f x) (stageNum g f y)
      (o.1, o.2 ||| stageNumFlags f x ||| stageNumFlags f y))
    .ok { r with
      els := List.zipWith (fun e v => { e with c := v.1 }) r.els rs,
      effs := r.effs ++ laneEffs cfg r.els (rs.map (fun v => v.2)), lat := r.lat + 1 }
  else if g.ty = 0x07 then
    need (known && decide (g.fn ≤ 5) && (g.fn == 0 || f.isFloat || f.isNamedInt || f.isFixed) && nfracOk g f && widthOk cfg r g) inv
    let a ← operand r g k g.sa
    let b ← if g.fn = 0 ∨ g.fn = 1 ∨ g.fn = 2 ∨ g.fn = 5 then operand r g k g.sb else .ok (fun _ => 0#64)
    if g.fn = 0 then
      let vals := r.els.map (fun e => if e.c then (a e, (srcVal g g.sa e).2) else (b e, (srcVal g g.sb e).2))
      .ok { putP r g f r.els vals with lat := r.lat + 1 }
    else .ok (mapStage cfg r g 1 (fun e => selFn g (a e) (b e)))
  else if g.ty = 0x08 then
    need (decide (g.fn ≤ 6)) inv
    let load := 8 * bits g.param 21 0
    let lim := bits g.param 12 0
    need (g.fn != 5 || decide (lim ≤ 4096)) inv
    need (g.fn != 4 || ownRange load (cdiv cfg.n 8)) (fStage 5 0 k)
    let lm := if g.fn = 4 then maskAt p.mem (sliceBase cfg.t + load) cfg.n else []
    let els := r.els.zipIdx.map (fun e =>
      let (x, i) := e
      { x with m := (if g.fn = 0 then x.c else if g.fn = 1 then x.m && x.c else if g.fn = 2 then x.m || x.c
        else if g.fn = 3 then x.m && !x.c else if g.fn = 4 then lm.getD i false
        else if g.fn = 5 then decide (i % cfg.rlen < lim) else true) })
    .ok { r with els := els, lat := r.lat + (if g.fn = 4 then 6 else 1) }
  else if g.ty = 0x09 then
    need (known && ((decide (g.fn ≤ 6) && (f == .b32 || f == .h16)) || ((g.fn == 8 || g.fn == 9) && (f == .b64 || f == .b32 || f == .h16)))
      && widthOk cfg r g) inv
    let a ← operand r g k g.sa
    let b ← if g.fn = 8 then operand r g k g.sb else .ok (fun _ => 0#64)
    .ok (mapStage cfg r g (arithLat g) (fun e => funcStage cfg g (a e) (b e)))
  else if g.ty = 0x0A then
    need (known && decide (g.fn ≤ 4) && nfracOk g f && widthOk cfg r g) inv
    let a ← operand r g k g.sa
    let b ← if g.fn ≤ 3 then operand r g k g.sb else .ok (fun _ => 0#64)
    .ok (mapStage cfg r g 1 (fun e => (logicFn g.fn f.width (a e) (b e), 0#16)))
  else if g.ty = 0x0B then
    need (known && decide (g.fn ≤ 2) && (f.isNamedInt || f.isFixed) && nfracOk g f && widthOk cfg r g) inv
    let a ← operand r g k g.sa
    let b ← operand r g k g.sb
    .ok (mapStage cfg r g 1 (fun e => (shiftFn g.fn f.width (a e) (b e), 0#16)))
  else if g.ty = 0x0C then
    need (known && widthOk cfg r g) inv
    stageRed p cfg r g k
  else if g.ty = 0x0D then stageCmpr cfg r g k
  else if g.ty = 0x0E then stageExpd p cfg r g k
  else if g.ty = 0x0F then stageQnt p cfg r g k
  else if g.ty = 0x10 then
    need (known && g.fn == 0 && nfracOk g f && widthOk cfg r g) inv
    let a ← operand r g k g.sa
    let off := 8 * bits g.param 21 0
    need (ownRange off 520) (fStage 5 0 k)
    let vs := (r.els.filter (fun e => e.m)).map (fun e => stageNum g f (a e, (srcVal g g.sa e).2))
    .ok { r with
      effs := r.effs ++ [Eff.bits (bytesW (sliceBase cfg.t + off) (pollenBytes vs))], lat := r.lat + 2,
      dsts := r.dsts ++ [sideOut cfg off 520] }
  else if g.ty = 0x11 then stageOut cfg r g k
  else .error inv

/-- The stages in order. -/
def stagesRun (p : Pkg) (cfg : ScCfg) : Nat → List Stage → ScRun → Chk ScRun
  | _, [], r => .ok r
  | k, g :: gs, r =>
    match stageStep p cfg k g r with
    | .ok r' => stagesRun p cfg (k + 1) gs r'
    | .error e => .error e

/-- R131: the bytes that two destinations, or a destination and an input stream, share; an OUT that equals an input stream
element for element shares nothing with it. -/
def sharedBytes (r : ScRun) : List Nat :=
  r.dsts.zipIdx.flatMap (fun d => d.1.2.filter (fun b =>
    r.ins.any (fun i => i.1 != d.1.1 && i.2.contains b) || r.dsts.zipIdx.any (fun o => o.2 != d.2 && o.1.2.contains b)))

/-- R127: stage 0 is IN, no later stage is, and the last one is OUT, RED or HIST; else the stage that breaks it. -/
def chainEnds (stages : List Stage) : Chk Unit := do
  need ((stages.headD (parseStage [])).ty == 1) (fStage 1 0 0)
  match (stages.drop 1).findIdx? (fun g => g.ty == 1) with
  | some i => .error (fStage 1 0 (i + 1))
  | none =>
    let last := (stages.getLast?.map (fun g => g.ty)).getD 0
    need (last == 0x11 || last == 0x0C || last == 0x10) (fStage 1 0 (stages.length - 1))

/-- How many stages of a type. -/
def tyCount (l : List Stage) (ty : Nat) : Nat := l.countP (fun g => g.ty == ty)

/-- `SC.RUN` at issue (R124 to R148). -/
def goScRun (t : Nat) (p : Pkg) (l : Nat) (x : Tile) (w cyc : Nat) : Chk (Pkg × InFl) := do
  let mask := ((findLaunch p l).map (fun y => y.tiles)).getD 0
  let off := 64 * bits w 37 19
  need (ownRange off 208) fRange
  let blk := sliceBase t + off
  let cb := mread p.mem blk 208
  let n := field cb 0 4
  let wid := bits (field cb 4 1) 1 0
  let nstg := bits (field cb 5 1) 3 0
  let rlen := field cb 6 2
  let inv : PF := { cause := 1 }
  need (decide (1 ≤ n) && decide (n ≤ 16777216) && decide (wid ≤ 2) && decide (2 ≤ nstg) && decide (nstg ≤ 12)
    && decide (1 ≤ rlen) && decide (rlen ≤ 4096)) inv
  let stages := (List.range nstg).map (fun s => parseStage ((cb.drop (16 + 16 * s)).take 16))
  chainEnds stages
  need (decide (tyCount stages 0x11 ≤ 2) && decide (tyCount stages 0x0C ≤ 2) && decide (tyCount stages 0x0D ≤ 1)
    && decide (tyCount stages 0x0E ≤ 1) && decide (tyCount stages 0x0F ≤ 1)
    && decide (tyCount stages 0x10 + stages.countP (fun g => g.ty == 0x11 && bit g.param 8) ≤ 2)) inv
  let fv := bit (wFlags w) 0
  let fva := 64 * bits w 18 0
  need (!fv || ownRange fva 512) fRange
  let ln := if wid = 0 then 256 else if wid = 1 then 128 else 64
  let dsr1 := rget p (rTimDsr 1)
  let cfg := ScCfg.mk t mask x n wid ln rlen stages (bits dsr1 7 0) (bits dsr1 9 8)
  let (r0, ranges) ← stageIn p cfg (stages.headD (parseStage []))
  let ranges := (blk, 208) :: ranges
  lineChk p ranges
  let r ← stagesRun p cfg 1 (stages.drop 1) r0
  let shared := sharedBytes r
  let effs := r.effs
    ++ (shared.map (fun b => Eff.bits { addr := 8 * b, w := 8, v := (Config.freeByte p.fv b).toNat }))
    ++ (if fv then [Eff.flagVec (sliceBase t + fva)] else [])
  let B := cdiv n ln
  let p := noteCes { p with fv := p.fv + 1 } ranges
  .ok (modTile p t (fun y => { y with scFree := cyc + 8 + B }), { inFl (cyc + 8 + r.lat + B) with effs := effs })

/-- `SC.RUN` (R126). -/
def execScRun (t : Fin 128) (s : State) : Out :=
  run s (fun c p => issue p c t 1 0x40 1 (goScRun t))

end Sys2Proof.Machine
end

