-- ==== Sys2Proof/Machine/CoreOps.lean ====
section
/-! DEFINITION. Shared operations of forager and keeper cores (09_cores): registers, faults, memory reach, vector groups. -/

namespace Sys2Proof.Machine

/-- Why a core instruction does not complete: a subcause of Table 9.6a, an uncorrectable line (subcause 0x100), a target that
answers with MEMORY or RETIRED (0x101), or HBM requests that it must wait for. -/
structure CoreErr where
  sub : Nat
  line : Option Nat := none
  want : List HbmReq := []
  deriving DecidableEq, Repr

abbrev CoreR (α : Type) := Except CoreErr α

def cneed (b : Bool) (sub : Nat) : CoreR Unit := if b then .ok () else .error { sub := sub }

def core (p : Pkg) (k : Nat) : Core := sget p.cores k {}
def setCore (p : Pkg) (k : Nat) (x : Core) : Pkg := { p with cores := sset p.cores k x }
def isKeeper (k : Nat) : Bool := 192 ≤ k && k < 200
def isTileCore (k : Nat) : Bool := k < 128

/-- Base of a forager's own slice; none for the cores of the processor dies. -/
def ownBase (k : Nat) : Option Nat :=
  if k < 128 then some (sliceBase k) else if 200 ≤ k then some (sliceBase (k - 72)) else none

/-- n bytes at an address lie in the core's own slice window, below 0x1E0_0000. -/
def inOwn (k a n : Nat) : Bool :=
  match ownBase k with
  | none => false
  | some b => decide (b ≤ a) && decide (a + n ≤ b + 0x1E00000)

/-- The keepers run: from stage 1, awake, on a verified image (R231). -/
def keepersRun (p : Pkg) : Bool :=
  live p && !p.pins.tripped && !p.pins.resetLow && (stageOf p != 0) && !rbit p rGlbStatus 2 && !rbit p rGlbStatus 3 && !rbit p rPwrStatus 2

/-- Bits of a vector register: 512, on keepers 256 (R230). -/
def vbits (k : Nat) : Nat := if isKeeper k then 256 else 512
def vregs (k : Nat) : Nat := if isKeeper k then 16 else 32

def Core.xget (x : Core) (r : Nat) : W64 := if r = 0 then 0#64 else sget x.xs r 0#64
def Core.xset (x : Core) (r : Nat) (v : W64) : Core := if r = 0 then x else { x with xs := sset x.xs r v }
def Core.vget (x : Core) (r : Nat) : BitVec 512 := sget x.vs r 0#512
def Core.vset (x : Core) (r : Nat) (v : BitVec 512) : Core := { x with vs := sset x.vs r v }

/-- fN: bits [63:0] of vN, on keepers a file of its own (R212, R230). -/
def Core.fget (k : Nat) (x : Core) (r : Nat) : W64 :=
  if isKeeper k then sget x.fs r 0#64 else (x.vget r).setWidth 64
def Core.fset (k : Nat) (x : Core) (r : Nat) (v : W64) : Core :=
  if isKeeper k then { x with fs := sset x.fs r v }
  else x.vset r (BitVec.ofNat 512 (setBits (x.vget r).toNat 63 0 v.toNat))

/-- q0 reads all ones and ignores writes. -/
def Core.qget (x : Core) (r : Nat) : BitVec 512 := if r = 0 then BitVec.allOnes 512 else sget x.qs r 0#512
def Core.qset (x : Core) (r : Nat) (v : BitVec 512) : Core := if r = 0 then x else { x with qs := sset x.qs r v }

/-- FFLAGS holds bits 0 to 6 and bit 8 (R226). -/
def Core.raise (x : Core) (f : Flags) : Core := { x with fflags := x.fflags ||| (f &&& 0x017F#16) }

def Core.sewBits (x : Core) : Nat := 8 * 2 ^ x.sew
def Core.g (x : Core) : Nat := 2 ^ x.grp
def Core.cap (k : Nat) (x : Core) : Nat := x.g * vbits k / x.sewBits

/-- A free-running count of tile cycles since reset. -/
def cyclesNow (c : Clock) : Nat := c.up / 5

/-- Sub-64-bit values into an integer register. -/
def extendTo64 (w v : Nat) : W64 :=
  if Config.loadSigned then BitVec.ofNat 64 (wrapInt 64 (sext w (v % 2 ^ w))) else BitVec.ofNat 64 (v % 2 ^ w)

/-! Faults (R229) -/

/-- The fault of a core instruction: plan fault FORAGER in scheduled mode, an exception to keeper firmware otherwise. -/
def coreFault (p : Pkg) (c : Clock) (k : Nat) (x : Core) (e : CoreErr) : Pkg :=
  if x.sched then
    match e.line with
    | some l => memFail p c k l
    | none =>
      let r := tReg p k
      let p := rset (rsetf p (r + 0x14) 15 8 e.sub) (r + 0x18) (x.pc % 2 ^ 32)
      planFault p c k 0x09 0 0 (e.sub * 2 ^ 8)
  else
    let p := match e.line with
      | some l => noteUe p c l
      | none => p
    { p with excs := p.excs ++ [{ core := k, subcause := e.sub, pc := x.pc }] }

/-- A line of the instruction cache is used: true least recently used, 4 ways, 256 sets (R216). -/
def Core.fetchLine (x : Core) : Core :=
  let l := (x.codeAt + x.pc) / 64
  let ways := sget x.icache (l % 256) []
  { x with icache := sset x.icache (l % 256) ((l :: ways.filter (fun m => m != l)).take 4) }

/-- Whether the instruction at the pc may be fetched (R216): in scheduled mode inside the code image. -/
def Core.fetchOk (x : Core) : Bool :=
  x.pc % 4 == 0 && (!x.sched || (decide (64 ≤ x.pc) && decide (x.pc + 4 ≤ 64 + x.codeLen)))

/-- The core is ready for its next instruction; a keeper only while its firmware runs (R231). -/
def coreReady (p : Pkg) (c : Clock) (k : Nat) (x : Core) : Bool :=
  x.waiting.isNone && x.answer.isNone && x.asked == 0 && (!isKeeper k || keepersRun p)
  && (!x.sched || (let t := tile p k; t.running && !t.stopped && decide (t.start ≤ c.gsc)))

/-- The HBM accesses of the current instruction are done with. -/
def endAccess (p : Pkg) (k : Nat) (x : Core) : Pkg := if x.grant.isEmpty then p else setCore p k { x with grant := [] }

/-- One instruction of a core: fetch check, the wake of a sleeping vector unit (R227), the effect with the pc already moved to
the next instruction, or the fault. An instruction that needs HBM bytes sends its requests in partition 4 (R210, Table 10.3) and
stays at the pc; sent again once they have come, it completes. -/
def coreExec (k : Nat) (vec : Bool) (s : State) (f : Clock → Pkg → Core → CoreR (Pkg × Core)) : Out :=
  run s (fun c p =>
    let x := core p k
    if !coreReady p c k x then p
    else if !x.fetchOk then coreFault p c k x { sub := 4 }
    else if vec && !x.awake then
      (if x.waking.isSome then p else setCore p k { x with waking := some (cyclesNow c + 160) })
    else
      match f c p { x.fetchLine with pc := x.pc + 4 } with
      | .ok (q, y) => setCore q k { y with grant := [] }
      | .error e =>
        if e.want.isEmpty then coreFault (endAccess p k x) c k x e
        else setCore (enqueueAll p 4 e.want) k { x with asked := e.want.length })

/-! Memory reach (Table 9.3) -/

/-- Where a scheduled forager's access lies: 0 own slice, 1 active plan-area bank, 2 slice of another tile of the launch, 3
nowhere it may reach. -/
def schedPlace (p : Pkg) (k a n : Nat) : Nat :=
  let o := a - sliceBase k
  if sliceBase k ≤ a ∧ o + n ≤ 0x1E00000 then 0
  else if sliceBase k ≤ a ∧ 0x1E00000 + (tile p k).bank * 0x100000 ≤ o ∧ o + n ≤ 0x1F00000 + (tile p k).bank * 0x100000 then 1
  else if isSlice a then
    let t := (a - 0x200000000000) / 0x4000000
    let mask := (((tile p k).launch.bind (findLaunch p)).map (fun l => l.tiles)).getD 0
    if t ≠ k ∧ bit mask t ∧ a % 0x4000000 + n ≤ 0x1E00000 then 2 else 3
  else 3

/-- The answer of a service-mode access, with its uncorrectable lines looked for first. -/
def served (p : Pkg) (lines : List (Nat × Nat)) (r : Served) : CoreR (Pkg × List Byte) :=
  match firstBad p lines, r with
  | some b, _ => .error { sub := 0x100, line := some b }
  | none, (p, .ok bs) => .ok (p, bs)
  | none, (_, .error e) => .error { sub := if e = nakRange then 3 else 0x101 }

/-- What HBM requests of this instruction brought for an address, or the requests. -/
def grantOr (x : Core) (a : Nat) (rs : List HbmReq) : CoreR (List Byte) :=
  match x.grant.find? (fun g => g.1 == a) with
  | some (_, bs, bad) => if bad then .error { sub := 0x100 } else .ok bs
  | none => .error { sub := 0x100, want := rs }

/-- A line of the data cache, most recently used first: 4 ways, 256 sets (R216). -/
def Core.dcLine (x : Core) (l : Nat) : Option (List Byte) :=
  ((sget x.dcache (l / 64 % 256) []).find? (fun w => w.1 == l)).map (fun w => w.2)
def Core.dcUse (x : Core) (l : Nat) (bs : List Byte) : Core :=
  let set := l / 64 % 256
  { x with dcache := sset x.dcache set (((l, bs) :: (sget x.dcache set []).filter (fun v => v.1 != l)).take 4) }

/-- Bytes of the squirrel access that covers n aligned bytes (R247). -/
def sqSize (n : Nat) : Nat := if n ≤ 8 then 8 else if n ≤ 16 then 16 else 32

/-- An aligned HBM read of service-mode code: the cache of a forager sits in front of HBM (R209); firmware takes the squirrel path
(R247). -/
def hbmLoad (p : Pkg) (k : Nat) (x : Core) (cached : Bool) (a n : Nat) : CoreR (Pkg × Core × List Byte) := do
  cneed (!retired p) 0x101
  if cached && !isKeeper k then
    let l := a / 64 * 64
    match x.dcLine l with
    | some bs => .ok (p, x.dcUse l bs, (bs.drop (a - l)).take n)
    | none => do
      let bs ← grantOr x l (loadReqs (.core k) l 64)
      .ok (p, x.dcUse l bs, (bs.drop (a - l)).take n)
  else if isKeeper k && decide (n ≤ 32) then do
    let b := a / sqSize n * sqSize n
    let bs ← grantOr x b [{ line := b, bytes := sqSize n, wr := [], sq := true, who := .core k }]
    .ok (p, x, (bs.drop (a - b)).take n)
  else do
    let bs ← grantOr x a (loadReqs (.core k) a n)
    .ok (p, x, bs)

/-- An aligned HBM write of service-mode code. -/
def hbmStore (k a : Nat) (bs : List Byte) : List HbmReq :=
  let s := sqSize bs.length
  if isKeeper k && decide (bs.length ≤ 32) then [{ line := a / s * s, bytes := s, wr := [bytesW a bs], sq := true, who := .core k }]
  else writeReqs (.core k) [bytesW a bs]

/-- Memory as a scheduled forager reads it: writes that retire in this cycle do not show (R33), its own stores do (R217). -/
def coreView (p : Pkg) (c : Clock) (x : Core) : Mem :=
  x.stored.foldr (fun e m => if e.1 = cycleKey p c then mwrite m e.2.1 e.2.2 else m) (oldView p c)

/-- A read of n bytes: cached or direct. -/
def coreLoad (p : Pkg) (c : Clock) (k : Nat) (x : Core) (cached vec : Bool) (a n : Nat) : CoreR (Pkg × Core × List Byte) := do
  cneed (a % n == 0) 2
  if x.sched then
    let pl := schedPlace p k a n
    cneed (pl == 0 || (!cached && (pl == 2 || (pl == 1 && !vec)))) 3
    if cached then
      let l := a / 64 * 64
      match x.dcLine l with
      | some bs => .ok (p, x.dcUse l bs, (bs.drop (a - l)).take n)
      | none =>
        match firstBad p [(l, 64)] with
        | some b => .error { sub := 0x100, line := some b }
        | none =>
          let p := noteCes p [(l, 64)]
          let bs := mread (coreView p c x) l 64
          .ok (p, x.dcUse l bs, (bs.drop (a - l)).take n)
    else
      match firstBad p [(a, n)] with
      | some b => .error { sub := 0x100, line := some b }
      | none => let p := noteCes p [(a, n)]; .ok (p, x, mread (coreView p c x) a n)
  else if 200 ≤ k && inOwn k a n then do
    let (p, bs) ← served p [(a, n)] (readMem p c a n)
    .ok (p, x, bs)
  else
    match target p a n with
    | some (.setup o) =>
      cneed (isKeeper k) 3
      let (p, v) := regReadBy p c 3 o
      .ok (p, x, natLe 4 v)
    | some .hbm => hbmLoad p k x cached a n
    | _ => do
      let (p, bs) ← served p [(a, n)] (srvLoad p c a n)
      .ok (p, x, bs)

/-- The data-cache line of a stored byte takes the new value (R216). -/
def Core.cacheStore (x : Core) (a : Nat) (bs : List Byte) : Core :=
  let upd (w : Nat × List Byte) : Nat × List Byte :=
    (w.1, w.2.zipIdx.map (fun e => if a ≤ w.1 + e.2 ∧ w.1 + e.2 < a + bs.length then bs.getD (w.1 + e.2 - a) e.1 else e.1))
  { x with dcache := x.dcache.map (fun s => (s.1, s.2.map upd)) }

/-- A write of bytes. -/
def coreStore (p : Pkg) (c : Clock) (k : Nat) (x : Core) (a align : Nat) (bs : List Byte) : CoreR (Pkg × Core) := do
  cneed (a % align == 0) 2
  if x.sched then
    let pl := schedPlace p k a bs.length
    cneed (pl == 0 || pl == 2) 3
    match firstBad p (partLines a bs.length) with
    | some b => .error { sub := 0x100, line := some b }
    | none =>
      let p := noteOuts (keepOld p c [(a, bs.length)]) (tile p k).launch [(a, bs.length)]
      let now := cycleKey p c
      .ok (storeBytes p a bs, { x.cacheStore a bs with stored := (now, a, bs) :: x.stored.filter (fun e => e.1 == now) })
  else if 200 ≤ k && inOwn k a bs.length then do
    let (p, _) ← served p (partLines a bs.length) (writeMem p c a bs)
    .ok (p, x.cacheStore a bs)
  else
    match target p a bs.length with
    | some (.setup o) =>
      cneed (isKeeper k) 3
      .ok (regPut p c 3 o (leNat bs), x)
    | some .hbm => do
      cneed (!retired p) 0x101
      .ok (enqueueAll p 4 (hbmStore k a bs), x.cacheStore a bs)
    | _ => do
      let (p, _) ← served p (partLines a bs.length) (srvStore p c a bs)
      .ok (p, x.cacheStore a bs)

/-! Vector groups (R221, R222) -/

/-- Register groups named by an instruction: multiples of G, within the file (R221, R230). -/
def groupOk (k : Nat) (x : Core) (rs : List Nat) : Bool := rs.all (fun r => r % x.g == 0 && decide (r + x.g ≤ vregs k))

/-- The registers from vN on as one bit string. -/
def groupBits (k : Nat) (x : Core) (r n : Nat) : Nat :=
  (List.range n).foldl (fun a j => a + ((x.vget (r + j)).toNat % 2 ^ vbits k) * 2 ^ (vbits k * j)) 0

def setGroup (k : Nat) (x : Core) (r n v : Nat) : Core :=
  (List.range n).foldl (fun y j => y.vset (r + j)
    (BitVec.ofNat 512 (setBits (y.vget (r + j)).toNat (vbits k - 1) 0 (v / 2 ^ (vbits k * j))))) x

/-- Element i of width w in a bit string. -/
def elemOf (v w i : Nat) : W64 := BitVec.ofNat 64 (v / 2 ^ (w * i) % 2 ^ w)

def setElem (v w i : Nat) (c : W64) : Nat := setBits v (w * i + w - 1) (w * i) (c.toNat % 2 ^ w)

/-- The active elements (R222). -/
def actives (x : Core) (m : Bool) : List Nat :=
  (List.range x.vl).filter (fun i => !m || (x.qget x.qsel).getLsbD i)

/-- Writes results of active elements, element width w, into the group at vd. -/
def writeActive (k : Nat) (x : Core) (vd w : Nat) (out : List (Nat × R)) : Core :=
  let n := cdiv (w * x.vl) (vbits k)
  let n := max n x.g
  let v := out.foldl (fun a e => setElem a w e.1 e.2.1) (groupBits k x vd n)
  (setGroup k x vd n v).raise (out.foldl (fun f e => f ||| e.2.2) 0#16)

/-- A predicate write: bits below VL as given, the rest clear (R222). -/
def writePred (x : Core) (q : Nat) (f : Nat → Bool) : Core :=
  x.qset q (BitVec.ofNat 512 ((List.range x.vl).foldl (fun a i => a + (if f i then 2 ^ i else 0)) 0))

/-- The floating-point format of an element width; none for 8 bits. -/
def floatOf (sew : Nat) : Option Fmt := if sew = 3 then some .b64 else if sew = 2 then some .b32 else if sew = 1 then some .h16 else none

/-- A binary operation of binary64, binary32 or H16, the last computed in binary32 (R133, R223). -/
def viaWork (f : Fmt) (op : Fmt → W64 → W64 → R) (a b : W64) : R :=
  if f = .h16 then viaB32 (op .b32 (h16to32 a) (h16to32 b)) else op f a b

/-- An integer of an element: signed or unsigned. -/
def kindInt (kind : VKind) (w : Nat) (c : W64) : Int := if kind = .uint then (c.toNat % 2 ^ w : Nat) else sext w c.toNat

/-- A shift of a w-bit value: an amount of w or more is open (Config.shiftBeyond). -/
def shiftOp (op : VOp) (w : Nat) (a b : W64) : W64 :=
  let n := a.toNat % 2 ^ w
  let s := b.toNat % 2 ^ w
  if w ≤ s then BitVec.ofNat 64 ((Config.shiftBeyond w a b).toNat % 2 ^ w)
  else if op = .shl then BitVec.ofNat 64 (n * 2 ^ s % 2 ^ w)
  else if op = .shr then BitVec.ofNat 64 (n / 2 ^ s)
  else BitVec.ofNat 64 (wrapInt w (sext w n / (2 ^ s : Int)))

/-- V arithmetic on one element of w bits: a of vs1, b the second operand, d of vd (R223). -/
def vElem (f : Option Fmt) (rm : Rnd) (op : VOp) (kind : VKind) (w : Nat) (a b d : W64) : R :=
  match op with
  | .and => (a &&& b, 0#16)
  | .or => (a ||| b, 0#16)
  | .xor => (a ^^^ b, 0#16)
  | .shl => (shiftOp op w a b, 0#16)
  | .shr => (shiftOp op w a b, 0#16)
  | .sar => (shiftOp op w a b, 0#16)
  | _ =>
    match kind, f with
    | .flt, some f =>
      match op with
      | .add => viaWork f (fun g x y => fAdd g rm x y) a b
      | .sub => viaWork f (fun g x y => fSub g rm x y) a b
      | .mul => viaWork f (fun g x y => fMul g rm x y) a b
      | .fma np na =>
        let g : Fmt := if f = .h16 then .b32 else f
        let up (x : W64) : W64 := if f = .h16 then h16to32 x else x
        let x := decodeFloat g (up a)
        let z := decodeFloat g (up d)
        let r := finish g rm (fmaNum rm (if np then negNum x else x) (decodeFloat g (up b)) (if na then negNum z else z))
        if f = .h16 then viaB32 r else r
      | .min => fMaxMin false f a b
      | .max => fMaxMin true f a b
      | .abs => (fAbs f a, 0#16)
      | _ => (fNeg f a, 0#16)
    | _, _ =>
      let x := kindInt kind w a
      let y := kindInt kind w b
      let z := kindInt kind w d
      let r : Int := match op with
        | .add => x + y
        | .sub => x - y
        | .mul => x * y
        | .fma np na => (if np then -(x * y) else x * y) + (if na then -z else z)
        | .min => min x y
        | .max => max x y
        | .abs => if kind = .uint then x else x.natAbs
        | _ => -x
      (BitVec.ofNat 64 (wrapInt w r), 0#16)

/-- The relation of a comparison. -/
def relOf : CmpOp → Rel
  | .eq => .eq | .ne => .ne | .lt => .lt | .le => .le | .gt => .gt | .ge => .ge | .unord => .unord

/-- A fabric address of this package, or a bare local offset. -/
def atOwnPlace (p : Pkg) (a : Nat) : Bool := placeOf a == ownPlace p

end Sys2Proof.Machine
end

