-- ==== Sys2Proof/Machine/Cores.lean ====
section
/-! DEFINITION. The scalar, system, tile-interface and atomic instructions of the Grenum core ISA (09_cores R209 to R229). -/

namespace Sys2Proof.Machine

/-! Integer (R214) -/

def intReg (op : IntOp) (a b : W64) : Option W64 :=
  match op with
  | .add => some (a + b)
  | .sub => some (a - b)
  | .and => some (a &&& b)
  | .shl => some (shiftOp .shl 64 a b)
  | .sar => some (shiftOp .sar 64 a b)
  | .cmplt => some (if a.slt b then 1#64 else 0#64)
  | .min => some (if a.slt b then a else b)
  | .undef => none

/-- Class 0x0 (Table 9.2). -/
def execIIntegerReg (k : Fin 216) (op : IntOp) (rd rs1 rs2 : Fin 32) (s : State) : Out :=
  coreExec k false s (fun _ p x =>
    match intReg op (x.xget rs1) (x.xget rs2) with
    | none => .error { sub := 1 }
    | some v => .ok (p, x.xset rd v))

/-- Class 0x1: imm12, for `I.HIGHK` imm17 into [63:47]. -/
def execIIntegerImm (k : Fin 216) (op : IntImmOp) (rd rs1 : Fin 32) (imm : Int) (s : State) : Out :=
  coreExec k false s (fun _ p x =>
    match op with
    | .addk => .ok (p, x.xset rd (x.xget rs1 + BitVec.ofInt 64 imm))
    | .andk => .ok (p, x.xset rd (x.xget rs1 &&& BitVec.ofInt 64 imm))
    | .highk => .ok (p, x.xset rd (BitVec.ofNat 64 (setBits (Config.highkLow (x.xget rd)).toNat 63 47 (wrapInt 17 imm))))
    | .undef => .error { sub := 1 })

def memBytes : MemWidth → Nat
  | .w8 => 1 | .w16 => 2 | .w32 => 4 | .w64 => 8

/-- The address rs1 + imm. -/
def effAddr (x : Core) (rs1 : Nat) (imm : Int) : Nat := (x.xget rs1 + BitVec.ofInt 64 imm).toNat

/-- Class 0x2 (R216, R217). -/
def execLLoad (k : Fin 216) (direct : Bool) (w : MemWidth) (rd rs1 : Fin 32) (imm : Int) (s : State) : Out :=
  coreExec k false s (fun c p x => do
    let n := memBytes w
    let (p, x, bs) ← coreLoad p c k x (!direct) false (effAddr x rs1 imm) n
    .ok (p, x.xset rd (extendTo64 (8 * n) (leNat bs))))

/-- Class 0x3 (R217). -/
def execSStore (k : Fin 216) (w : MemWidth) (rs2 rs1 : Fin 32) (imm : Int) (s : State) : Out :=
  coreExec k false s (fun c p x =>
    let n := memBytes w
    coreStore p c k x (effAddr x rs1 imm) n (natLe n (x.xget rs2).toNat))

/-- Class 0x4 (R213, R214): offsets count words from the instruction's own address. -/
def execBBranch (k : Fin 216) (op : BranchOp) (s : State) : Out :=
  coreExec k false s (fun _ p x =>
    let jump (b : Bool) (off : Int) : Core := if b then { x with pc := wrapInt 64 ((x.pc : Int) - 4 + 4 * off) } else x
    match op with
    | .eq a b off => .ok (p, jump (x.xget a == x.xget b) off)
    | .ne a b off => .ok (p, jump (x.xget a != x.xget b) off)
    | .lt a b off => .ok (p, jump ((x.xget a).slt (x.xget b)) off)
    | .geu a b off => .ok (p, jump ((x.xget b).ule (x.xget a)) off)
    | .call off => .ok (p, (jump true off).xset Config.linkReg (BitVec.ofNat 64 x.pc))
    | .jmpr rd rs1 imm =>
      let dest := wrapInt 64 ((x.xget rs1).toNat + 4 * imm)
      .ok (p, { x.xset rd (BitVec.ofNat 64 x.pc) with pc := dest })
    | .undef => .error { sub := 1 })

/-- Multiplication and division of w-bit two's complement values (R214). -/
def mulDiv (op : MulOp) (w : Nat) (a b : Int) : Option Nat :=
  match op with
  | .mul => some (wrapInt w (a * b))
  | .mulh => some (wrapInt w (a * b / (2 ^ w : Int)))
  | .div => some (if b = 0 then 0 else wrapInt w (Int.tdiv a b))
  | .rem => some (if b = 0 then wrapInt w a else wrapInt w (Int.tmod a b))
  | .undef => none

/-- Class 0x5 (R214). -/
def execMMuldiv (k : Fin 216) (op : MulOp) (w32 : Bool) (rd rs1 rs2 : Fin 32) (s : State) : Out :=
  coreExec k false s (fun _ p x =>
    let w := if w32 then 32 else 64
    match mulDiv op w (sext w (x.xget rs1).toNat) (sext w (x.xget rs2).toNat) with
    | none => .error { sub := 1 }
    | some v =>
      let r := if w32 then (Config.upper32 (BitVec.ofNat 32 v) ++ BitVec.ofNat 32 v : BitVec 64) else BitVec.ofNat 64 v
      .ok (p, x.xset rd r))

/-- A scalar operand: binary64, or binary32 in bits [31:0]. -/
def fOperand (wide : Bool) (v : W64) : W64 := if wide then v else BitVec.ofNat 64 (v.toNat % 2 ^ 32)

/-- Class 0x6 (R212, R214): a comparison writes rd of the integer file, everything else fd. A conversion reads the low bits of fs1
as its source format is wide; an A16 source has scale 1.0 and zero point 0, a fixed-point source no fraction bits (DESIGN CHOICE,
log entry 121). -/
def execFScalar (k : Fin 216) (op : FloatOp) (wide : Bool) (ra : Fin 8) (rd rs1 rs2 : Fin 32) (s : State) : Out :=
  coreExec k false s (fun _ p x =>
    let f : Fmt := if wide then .b64 else .b32
    let rm := rndOfRa ra p.cfg.radef
    let a := fOperand wide (x.fget k rs1)
    let b := fOperand wide (x.fget k rs2)
    let d := fOperand wide (x.fget k rd)
    let fin (r : R) : CoreR (Pkg × Core) := .ok (p, (x.fset k rd r.1).raise r.2)
    match op with
    | .add => fin (fAdd f rm a b)
    | .mul => fin (fMul f rm a b)
    | .fma => fin (fFma f rm a b d)
    | .div => fin (fDiv f rm a b)
    | .sqrt => fin (fSqrt f rm a)
    | .cvt src =>
      match fmtOfCode src with
      | none => .error { sub := 1 }
      | some g => fin (convert rm g {} f {} (BitVec.ofNat 64 ((x.fget k rs1).toNat % 2 ^ g.width)))
    | .min => fin (fMaxMin false f a b)
    | .cmp rel =>
      let r := cmpRel (relOf rel) (decodeFloat f a) (decodeFloat f b)
      .ok (p, (x.xset rd (BitVec.ofNat 64 (b2n r.1))).raise r.2)
    | .undef => .error { sub := 1 })

/-! System (R226 to R228) -/

/-- `SYS.RDGSC` (Table 9.5). -/
def execSysRdgsc (k : Fin 216) (rd : Fin 32) (s : State) : Out :=
  coreExec k false s (fun c p x => .ok (p, x.xset rd (BitVec.ofNat 64 c.gsc)))

/-- `SYS.RDCYC`: cycles since reset, on a keeper of its 2.4 GHz clock (Table 9.5). -/
def execSysRdcyc (k : Fin 216) (rd : Fin 32) (s : State) : Out :=
  coreExec k false s (fun _ p x =>
    .ok (p, x.xset rd (BitVec.ofNat 64 (if isKeeper k then p.since * 96 / (10 * tickUnits p) else p.since / 5))))

/-- `SYS.CSRR` (Table 9.6). -/
def execSysCsrr (k : Fin 216) (rd : Fin 32) (r : Csr) (s : State) : Out :=
  coreExec k false s (fun _ p x =>
    let v : W64 := match r with
      | .fflags => x.fflags.setWidth 64
      | .vcfg => BitVec.ofNat 64 (x.sew + x.grp * 4 + x.vl * 2 ^ 16 + x.qsel * 2 ^ 28)
      | .mode => if x.sched then 0#64 else 1#64
      | .watchAddr i => sget x.watchA i 0#64
      | .watchThr i => sget x.watchT i 0#64
    .ok (p, x.xset rd v))

/-- `SYS.CSRW` (Table 9.6): VCFG and MODE are read only. -/
def execSysCsrw (k : Fin 216) (r : Csr) (rs1 : Fin 32) (s : State) : Out :=
  coreExec k false s (fun _ p x =>
    let v := x.xget rs1
    match r with
    | .fflags => .ok (p, { x with fflags := v.setWidth 16 &&& 0x017F#16 })
    | .watchAddr i => .ok (p, { x with watchA := sset x.watchA i (v &&& 0x00003FFFFFFFFFF8#64) })
    | .watchThr i => .ok (p, { x with watchT := sset x.watchT i v })
    | .vcfg => .ok (p, x)
    | .mode => .ok (p, x))

/-- `SYS.FENCE`: the core issues in order and its stores are made as it issues them. -/
def execSysFence (k : Fin 216) (s : State) : Out := coreExec k false s (fun _ p x => .ok (p, x))

/-- `SYS.DCINV` (R216): the data-cache line of the address in rs1. -/
def execSysDcinv (k : Fin 216) (rs1 : Fin 32) (s : State) : Out :=
  coreExec k false s (fun _ p x =>
    let l := (x.xget rs1).toNat / 64 * 64
    .ok (p, { x with dcache := x.dcache.map (fun w => (w.1, w.2.filter (fun v => v.1 != l))) }))

/-- `SYS.DCINVA` (R216). -/
def execSysDcinva (k : Fin 216) (s : State) : Out := coreExec k false s (fun _ p x => .ok (p, { x with dcache := [] }))

/-- In scheduled mode every watch word that a mask names lies in the own slice (R217, R228). -/
def watchInReach (p : Pkg) (k : Nat) (x : Core) (mask : Nat) : Bool :=
  !x.sched || (bitList 16 mask).all (fun i => schedPlace p k (sget x.watchA i 0#64).toNat 8 == 0)

/-- `SYS.WAITANY` (Table 9.5): the core waits for the watch words that the mask in rs1 names. -/
def execSysWaitany (k : Fin 216) (rd rs1 : Fin 32) (s : State) : Out :=
  coreExec k false s (fun _ p x => do
    let mask := (x.xget rs1).toNat % 2 ^ 16
    cneed (watchInReach p k x mask) 3
    .ok (p, { x with waiting := some (rd, mask) }))

/-- The lowest watched word at or above its threshold. -/
def watchMet (p : Pkg) (x : Core) (mask : Nat) : Option Nat :=
  (bitList 16 mask).find? (fun i => decide ((sget x.watchT i 0#64).toNat ≤ mnat p.mem (sget x.watchA i 0#64).toNat 8))

/-- `WAITANY_WAKE`: the wait completes with the lowest such index. -/
def execWaitanyWake (k : Fin 216) (s : State) : Out :=
  run s (fun c p =>
    let x := core p k
    match x.waiting with
    | none => p
    | some (rd, mask) =>
      let y := { x with waiting := none }
      match firstBad p ((bitList 16 mask).map (fun i => ((sget x.watchA i 0#64).toNat, 8))) with
      | some l => coreFault (setCore p k y) c k y { sub := 0x100, line := some l }
      | none =>
        match watchMet p x mask with
        | none => p
        | some i => setCore p k (y.xset rd (BitVec.ofNat 64 i)))

/-- `SYS.VWAKE` (R227). -/
def execSysVwake (k : Fin 216) (s : State) : Out :=
  coreExec k false s (fun c p x =>
    .ok (p, if x.awake || x.waking.isSome then x else { x with waking := some (cyclesNow c + 160) }))

/-- `SYS.VSLEEP` (R227). -/
def execSysVsleep (k : Fin 216) (s : State) : Out :=
  coreExec k false s (fun _ p x => .ok (p, { x with awake := false, waking := none }))

/-- `VWAKE_DONE` (R227): 160 cycles after the wake began. -/
def execVwakeDone (k : Fin 216) (s : State) : Out :=
  run s (fun c p =>
    let x := core p k
    match x.waking with
    | none => p
    | some w => if w ≤ cyclesNow c then setCore p k { x with awake := true, waking := none } else p)

/-! Tile interface (R219, R220): on a tile's forager only -/

/-- A word joins a queue's tail; it may issue from the next cycle (R219). -/
def Tile.pushed (x : Tile) (q : Nat) (w : W128) (cyc : Nat) : Tile :=
  let y := x.setQueue q (x.queue q ++ [w])
  if (x.queue q).isEmpty then { y with qfree := sset y.qfree q (max (sget y.qfree q 0) (cyc + 1)) } else y

/-- `T.QPUSH`: it waits while the queue is full. -/
def execTQpush (k : Fin 216) (q : Fin 4) (rs1 rs2 : Fin 32) (s : State) : Out :=
  if isTileCore k ∧ 128 ≤ ((tile s.pkg k).queue q).length then .next s
  else coreExec k false s (fun c p x => do
    cneed (isTileCore k) 1
    let w : W128 := x.xget rs2 ++ x.xget rs1
    .ok (modTile p k (fun t => t.pushed q w (cycleOf p c t.start)), x))

/-- `T.DSCW`: a slot of the active bank. -/
def execTDscw (k : Fin 216) (slot : Fin 64) (vs1 : Fin 32) (s : State) : Out :=
  coreExec k false s (fun _ p x => do
    cneed (isTileCore k) 1
    .ok (modTile p k (fun t => t.setDesc t.bank slot (natLe 64 (x.vget vs1).toNat)), x))

/-- `T.DSCR`. -/
def execTDscr (k : Fin 216) (vd : Fin 32) (slot : Fin 64) (s : State) : Out :=
  coreExec k false s (fun _ p x => do
    cneed (isTileCore k) 1
    let t := tile p k
    .ok (p, x.vset vd (BitVec.ofNat 512 (leNat (t.descBytes t.bank slot)))))

/-- `T.TSIG`: overflow is plan fault TOKEN_OVERFLOW (R25). -/
def execTTsig (k : Fin 216) (token : Fin 64) (s : State) : Out :=
  coreExec k false s (fun c p x => do
    cneed (isTileCore k && token.val != 0) 1
    let t := tile p k
    match t.signalTok token (cycleOf p c t.start) with
    | some y => .ok (setTile p k y, x)
    | none => .ok (planFault p c k 0x03 0 0 0, x))

/-- Whether `T.TWAIT` may take the token: the queue heads that wait on it come first (R220). -/
def twaitOk (p : Pkg) (c : Clock) (k tok : Nat) : Bool :=
  let t := tile p k
  let cyc := cycleOf p c t.start
  let w := tok * 2 ^ 106
  t.tokOk w cyc && !t.yields 4 w cyc

/-- `T.TWAIT`: it waits while the token is zero. -/
def execTTwait (k : Fin 216) (token : Fin 64) (s : State) : Out :=
  if isTileCore k ∧ token.val ≠ 0 ∧ twaitOk s.pkg s.clk k token = false then .next s
  else coreExec k false s (fun c p x => do
    cneed (isTileCore k && token.val != 0) 1
    .ok (modTile p k (fun t => t.takeTok token (cycleOf p c t.start)), x))

/-- `T.TREAD`. -/
def execTTread (k : Fin 216) (rd : Fin 32) (token : Fin 64) (s : State) : Out :=
  coreExec k false s (fun c p x => do
    cneed (isTileCore k && token.val != 0) 1
    let t := tile p k
    .ok (p, x.xset rd (BitVec.ofNat 64 (t.tokAt token (cycleOf p c t.start)))))

/-! Atomics (R218) -/

/-- An indivisible read, modify and write of an aligned 8-byte word of the own slice; rd takes the old value. -/
def ownAtomic (p : Pkg) (c : Clock) (k : Nat) (x : Core) (rd a : Nat) (f : W64 → Option W64) : CoreR (Pkg × Core) := do
  cneed (a % 8 == 0) 2
  cneed (inOwn k a 8) 3
  let (p, bs) ← served p [(a, 8)] (readMem p c a 8)
  let old := BitVec.ofNat 64 (leNat bs)
  let (p, x) ← match f old with
    | some v => coreStore p c k x a 8 (natLe 8 v.toNat)
    | none => .ok (p, x)
  .ok (p, x.xset rd old)

/-- `A.ADD64`. -/
def execAAdd64 (k : Fin 216) (rd rs1 rs2 : Fin 32) (s : State) : Out :=
  coreExec k false s (fun c p x =>
    ownAtomic p c k x rd (x.xget rs1).toNat (fun o => some (o + x.xget rs2)))

/-- `A.CAS64`: rd holds the value compared with and takes the old value; rs2 holds the new one. -/
def execACas64 (k : Fin 216) (rd rs1 rs2 : Fin 32) (s : State) : Out :=
  coreExec k false s (fun c p x =>
    ownAtomic p c k x rd (x.xget rs1).toNat (fun o => if o = x.xget rd then some (x.xget rs2) else none))

/-- The requester class of a core's fabric access (R309). -/
def coreCls (x : Core) : Nat := if x.sched then clsPlan else clsKeeper

/-- A core's posted add to the own place, or to HBM, has been refused (Table 12.6). -/
def postFails (p : Pkg) (c : Clock) (k reason : Nat) : Pkg :=
  let x := core p k
  if !x.sched then { p with excs := p.excs ++ [{ core := k, subcause := 3, pc := x.pc }] }
  else if reason = nakRange then planFault p c k 0x05 0 0 0
  else match (tile p k).launch with
    | some l => addCause p c l (if reason = nakMemory then 0x21 else 0x20)
    | none => p

/-- A posted add of a core has been acknowledged (R305). -/
def postDone (p : Pkg) (c : Clock) (k place : Nat) : Pkg :=
  if isTileCore k then advanceTile (modTile p k (fun t => { t with dests := destAck t.dests place true })) c k else p

/-- A posted add to a fabric address: window check, then the packet, or at the own place its effect, in HBM by way of the regulator
(R218, R248, R287, R310). -/
def postAdd (p : Pkg) (c : Clock) (k cx : Nat) (x : Core) (perm : Nat) (r : Req) (hbm : Who → List HbmReq) (own : Pkg → Served) :
    CoreR (Pkg × Core) := do
  let n := if r.payload.isEmpty then 8 else r.payload.length
  cneed (r.daddr % n == 0) 2
  cneed (windowOk p r.daddr n perm (coreCls x)) 3
  let place := placeOf r.daddr
  let p := if isTileCore k then modTile p k (fun t => { t with dests := destIssue t.dests place 1 true }) else p
  if atOwnPlace p r.daddr then
    if target p (localOf r.daddr) n = some .hbm ∧ retired p = false then
      .ok (enqueueAll p (if x.sched then 0 else 4) (hbm (.post k place)), x)
    else match own p with
      | (p, .ok _) => .ok (postDone p c k place, x)
      | (p, .error e) => .ok (postFails p c k e, x)
  else .ok (sendReq p cx (.core k) (!x.sched) true r, x)

/-- `A.RIADD`. -/
def execARiadd (k : Fin 216) (ctx : Fin 65536) (rs1 rs2 : Fin 32) (s : State) : Out :=
  coreExec k false s (fun c p x =>
    let a := (x.xget rs1).toNat
    let v := (x.xget rs2).toNat
    postAdd p c k ctx x 2 { ty := 0x09, daddr := a, op0 := v } (fun w => [atomReq w (localOf a) (.add v)]) (fun p => srvFetchAdd p c (localOf a) v))

/-- `A.RFADD`: binary64 or binary32 by FN. -/
def execARfadd (k : Fin 216) (ctx : Fin 65536) (wide : Bool) (rs1 rs2 : Fin 32) (s : State) : Out :=
  coreExec k false s (fun c p x =>
    let a := (x.xget rs1).toNat
    let bs := natLe (if wide then 8 else 4) (x.fget k rs2).toNat
    postAdd p c k ctx x 3 { ty := if wide then 0x06 else 0x07, daddr := a, payload := bs }
      (fun w => faddReqs w wide (localOf a) bs) (fun p => srvFloatAdd p c (if wide then .b64 else .b32) (localOf a) bs))

/-- An atomic of service-mode code at the own place, which returns the old value: HBM words by way of the regulator (R248). -/
def ownWord (p : Pkg) (c : Clock) (k : Nat) (x : Core) (a : Nat) (t : Atom) (f : Nat → Option Nat) : CoreR (Pkg × Nat) := do
  if target p a 8 = some .hbm then
    cneed (!retired p) 0x101
    let old ← grantOr x a [atomReq (.core k) a t]
    .ok (p, leNat old)
  else
    let (p, old) ← served p [(a, 8)] (srvWord p c a f)
    .ok (p, leNat old)

/-- `A.FADD64`: service mode only; a binary64 add that returns the old value (R248). No packet type returns the old value of a
float add (R296): at another place the core loads the word and replaces it by compare-and-swap until no other write has come
between (DESIGN CHOICE, log entry 37). -/
def execAFadd64 (k : Fin 216) (ctx : Fin 65536) (rd rs1 rs2 : Fin 32) (s : State) : Out :=
  coreExec k false s (fun c p x => do
    cneed (!x.sched) 6
    let a := (x.xget rs1).toNat
    cneed (a % 8 == 0) 2
    cneed (windowOk p a 8 3 clsKeeper) 3
    if atOwnPlace p a then
      let (p, old) ← ownWord p c k x (localOf a) (.fadd true (natLe 8 (x.fget k rs2).toNat))
        (fun o => some (fAdd .b64 .rne (BitVec.ofNat 64 o) (x.fget k rs2)).1.toNat)
      .ok (p, x.fset k rd (BitVec.ofNat 64 old))
    else
      .ok (sendReq p ctx (.core k) true true { ty := 0x02, daddr := a, op0 := 8 },
        { x with answer := some (.fsum rd ctx a (x.fget k rs2) none) }))

/-- `A.RCAS64`: service mode only; rd holds the value compared with and takes the old value. -/
def execARcas64 (k : Fin 216) (ctx : Fin 65536) (rd rs1 rs2 : Fin 32) (s : State) : Out :=
  coreExec k false s (fun c p x => do
    cneed (!x.sched) 6
    let a := (x.xget rs1).toNat
    cneed (a % 8 == 0) 2
    cneed (windowOk p a 8 2 clsKeeper) 3
    let cmp := (x.xget rd).toNat
    let new := (x.xget rs2).toNat
    if atOwnPlace p a then
      let (p, old) ← ownWord p c k x (localOf a) (.cas cmp new) (fun o => if o = cmp then some new else none)
      .ok (p, x.xset rd (BitVec.ofNat 64 old))
    else .ok (sendReq p ctx (.core k) true true { ty := 0x05, daddr := a, op0 := cmp, op1 := new },
      { x with answer := some (.old rd) }))

end Sys2Proof.Machine
end

