-- ==== Sys2Proof/Machine/UpdateEngine.lean ====
section
/-! DEFINITION. The update engines (08_update_engine): recipes, the global norm, the step, roots. -/

namespace Sys2Proof.Machine

/-- A recipe record (Table 8.2). -/
structure Recipe where
  kind : Nat
  rflags : Nat
  uemask : Nat
  ra : Nat
  nseg : Nat
  group : Nat
  beta1 : W64
  beta2 : W64
  eps : W64
  lambda : W64
  clipc : W64
  state : Nat
  ring : Nat
  segtab : Nat
  rootj : Nat
  nroot : Nat
  wcs : List Nat
  rest : Nat
  deriving DecidableEq, Repr

def parseRecipe (b : List Byte) : Recipe :=
  let f (o n : Nat) := field b o n
  let w (o : Nat) : W64 := BitVec.ofNat 64 (f o 4)
  { kind := f 0 1, rflags := f 1 1, uemask := f 2 1, ra := f 3 1, nseg := f 4 2, group := f 6 2, beta1 := w 8, beta2 := w 12,
    eps := w 16, lambda := w 20, clipc := w 24, state := f 32 8, ring := f 40 8, segtab := f 48 8, rootj := f 56 8,
    nroot := f 64 2, wcs := (List.range 4).map (fun i => f (80 + 4 * i) 4), rest := f 28 4 + f 66 14 + f 96 160 }

/-- A segment entry (Table 8.4). -/
structure Seg where
  skind : Nat
  nfmt : Nat
  gsize : Nat
  lue : Nat
  size0 : Nat
  size1 : Nat
  br : Nat
  bc : Nat
  grad : Nat
  mom1 : Nat
  mom2 : Nat
  master : Nat
  narrow : Nat
  nscale : Nat
  dir : Nat
  hdr : Nat
  touch : Nat
  maxt : Nat
  rest : Nat
  deriving DecidableEq, Repr

def parseSeg (b : List Byte) : Seg :=
  let f (o n : Nat) := field b o n
  { skind := f 0 1, nfmt := f 1 1, gsize := f 2 1, lue := f 3 1, size0 := f 4 4, size1 := f 8 4, br := f 12 2, bc := f 14 2,
    grad := f 16 8, mom1 := f 24 8, mom2 := f 32 8, master := f 40 8, narrow := f 48 8, nscale := f 56 8, dir := f 64 8,
    hdr := f 72 8, touch := f 80 8, maxt := f 88 4, rest := f 92 36 }

/-- A root job (Table 8.6). -/
structure RootJ where
  src : Nat
  lue : Nat
  n : Nat
  count : Nat
  w : Nat
  inp : Nat
  out : Nat
  hdr : Nat
  wstr : Nat
  istr : Nat
  ostr : Nat
  rest : Nat
  eps : W64
  deriving DecidableEq, Repr

def parseRoot (b : List Byte) : RootJ :=
  let f (o n : Nat) := field b o n
  { src := f 0 1, lue := f 1 1, n := f 2 2, count := f 4 4, w := f 8 8, inp := f 16 8, out := f 24 8, hdr := f 32 8,
    wstr := f 40 4, istr := f 44 4, ostr := f 48 4, rest := f 52 4, eps := BitVec.ofNat 64 (f 56 8) }

def recipeAt (p : Pkg) (l rid : Nat) : Recipe :=
  parseRecipe (mread p.mem (((launchSec p l 6).getD (0, 0)).1 + 16 + 256 * rid) 256)
def segsOf (m : Mem) (r : Recipe) : List Seg := (List.range r.nseg).map (fun i => parseSeg (mread m (r.segtab + 128 * i) 128))
def rootsOf (m : Mem) (r : Recipe) : List RootJ := (List.range r.nroot).map (fun i => parseRoot (mread m (r.rootj + 64 * i) 64))

/-! Checks (R184) -/

/-- A 64-byte aligned range of the HBM user range; an address whose bytes are not used covers none (R184). -/
def ueSpan (a n : Nat) : Bool := a % 64 == 0 && decide (a + n ≤ hbmUserEnd)

/-- Not a NaN and at least 0. -/
def atLeast0 (f : Fmt) (c : W64) : Bool :=
  let v := decodeFloat f c
  !isNan v && decide (cmpNum v (.fin false 0 0) ≥ 0)

def unitHalfOpen (c : W64) : Bool := atLeast0 .b32 c && decide (cmpNum (decodeFloat .b32 c) (.fin false 1 0) < 0)

def Seg.rows (s : Seg) : Nat := if s.skind = 1 then s.maxt else s.size1
def Seg.elems (s : Seg) : Nat := s.size0 * s.size1
def Seg.g (s : Seg) : Nat := 32 * 2 ^ (s.gsize % 4)
def Seg.fmt (s : Seg) : Fmt := (fmtOfCode s.nfmt).getD .q8

def segOk (r : Recipe) (s : Seg) : Bool :=
  decide (s.skind ≤ 1) && [0x00, 0x30, 0x31, 0x20, 0x21, 0x22].contains s.nfmt && decide (s.gsize ≤ 2) && bit r.uemask s.lue
  && decide (s.lue < 8) && decide (1 ≤ s.size0) && decide (s.size0 ≤ 2 ^ 24) && decide (1 ≤ s.size1) && decide (s.size1 ≤ 2 ^ 24)
  && s.rest == 0
  && (r.kind != 2 || (decide (1 ≤ s.br) && decide (s.br ≤ 1024) && s.size0 % s.br == 0 && decide (1 ≤ s.bc) && decide (s.bc ≤ 1024)
        && s.size1 % s.bc == 0))
  && (s.skind != 1 || (decide (1 ≤ s.maxt) && decide (s.maxt ≤ s.size1)))
  && ueSpan s.grad (4 * s.size0 * s.rows) && ueSpan s.mom1 (4 * s.elems) && ueSpan s.master (4 * s.elems)
  && ueSpan s.mom2 (if r.kind = 1 then 0 else 4 * s.elems) && ueSpan s.dir (if r.kind = 2 then 4 * s.size0 * s.rows else 0)
  && ueSpan s.hdr (if s.skind = 1 then 4 * s.size1 else 0) && ueSpan s.touch (if s.skind = 1 then 4 + 4 * s.maxt else 0)
  && ueSpan s.narrow (if s.nfmt = 0 then 0 else cdiv (s.fmt.width * s.elems) 8)
  && ueSpan s.nscale (if s.nfmt = 0 then 0 else 2 * cdiv s.size0 s.g * s.size1)

def rootLd (n : Nat) : Nat := cdiv n 8 * 8
def rootBytes (e n : Nat) : Nat := e * (rootLd n * (n - 1) + n)

def rootOk (r : Recipe) (j : RootJ) : Bool :=
  decide (j.src ≤ 1) && decide (j.lue < 8) && bit r.uemask j.lue && decide (1 ≤ j.n)
  && (if j.src = 0 then decide (j.n ≤ 64) else decide (j.n ≤ 1024)) && decide (1 ≤ j.count) && decide (j.count ≤ 65536)
  && j.rest == 0 && atLeast0 .b64 j.eps
  && ueSpan j.w (if j.src = 1 then 0 else (j.count - 1) * j.wstr + 8 * j.n)
  && ueSpan j.inp ((j.count - 1) * j.istr + rootBytes 8 j.n) && ueSpan j.out ((j.count - 1) * j.ostr + rootBytes 4 j.n)
  && ueSpan j.hdr (16 * j.count)

def recipeOk (m : Mem) (ues : Nat) (r : Recipe) : Bool :=
  decide (r.kind ≤ 2) && decide (r.rflags < 4) && (!bit r.rflags 1 || r.kind == 1) && r.uemask != 0
  && Nat.land r.uemask ues == r.uemask && decide (r.ra < 8) && decide (1 ≤ r.nseg) && decide (r.nseg ≤ 4096)
  && unitHalfOpen r.beta1 && (r.kind == 1 || unitHalfOpen r.beta2) && atLeast0 .b32 r.eps && atLeast0 .b32 r.lambda
  && atLeast0 .b32 r.clipc && !isZero (decodeFloat .b32 r.clipc) && r.rest == 0
  && ueSpan r.state 128 && ueSpan r.segtab (128 * r.nseg)
  && (bitList 8 r.uemask).all (fun u => ueSpan (r.ring + u * 0x80000) 0x80000)
  && decide (r.nroot ≤ 4096) && (r.nroot == 0 || r.kind == 2) && ueSpan r.rootj (64 * r.nroot)
  && (segsOf m r).all (segOk r) && (rootsOf m r).all (rootOk r)

/-! Arithmetic -/

def b32At (m : Mem) (a : Nat) : W64 := BitVec.ofNat 64 (mnat m a 4)
def b64At (m : Mem) (a : Nat) : W64 := BitVec.ofNat 64 (mnat m a 8)
def one64 : W64 := 0x3FF0000000000000#64
/-- binary32 to binary64, exact; and the rounding back (R50). -/
def widen (c : W64) : W64 := (encodeFloat .b64 .rne (decodeFloat .b32 c)).1
def to32 (rm : Rnd) (c : W64) : R := encodeFloat .b32 rm (decodeFloat .b64 c)

/-- `pow` of R192, with its flags. -/
def uePow (x : W64) (n : Nat) : R :=
  ((List.range 32).reverse).foldl (fun (r : R) i =>
    let q := fMul .b64 .rne r.1 r.1
    let y := if bit n i then fMul .b64 .rne q.1 x else (q.1, 0#16)
    (y.1, r.2 ||| q.2 ||| y.2)) (one64, 0#16)

/-- The first level of R188, squares summed in 256 lanes, then over the tree of R78, with the flags of the additions. -/
def laneSum (rm : Rnd) (xs : List W64) : R :=
  treeSum .b64 rm 8 ((List.range 256).map (fun k =>
    (xs.zipIdx.filter (fun e => e.2 % 256 == k)).foldl (fun (a : R) e =>
      let y := fFma .b64 rm e.1 e.1 a.1
      (y.1, a.2 ||| y.2)) (0#64, 0#16)))

/-- A touched list: K and its entries (R195). -/
def touchK (m : Mem) (s : Seg) : Nat := mnat m s.touch 4
def touchAt (m : Mem) (s : Seg) (i : Nat) : Nat := mnat m (s.touch + 4 + 4 * i) 4

/-- Gradient elements of a segment that PASS1 sums. -/
def gradCount (m : Mem) (s : Seg) : Nat := if s.skind = 1 then touchK m s * s.size0 else s.elems

/-- g² of one UE (R188), to nearest even whatever RA says; PASS1 raises no flag. -/
def ueSum (m : Mem) (r : Recipe) (u : Nat) : W64 :=
  (laneSum .rne (((segsOf m r).filter (fun s => s.lue == u)).flatMap (fun s =>
    (List.range (gradCount m s)).map (fun i => widen (b32At m (s.grad + 4 * i)))))).1

/-- The package's sum: the participants' sums over the position tree (R97, R188). -/
def pkgSum (m : Mem) (r : Recipe) : W64 :=
  let us := bitList 8 r.uemask
  (treeSum .b64 .rne (clog2 us.length) (us.map (fun u => (ueSum m r u, (0#16 : Flags))))).1

/-! The step (R191 to R194) -/

/-- Step scalars (Table 8.5) and the recipe's constants. -/
structure Scal where
  rm : Rnd
  kind : Nat
  nest : Bool
  t : Nat
  beta1 : W64
  beta2 : W64
  eps : W64
  eta : W64
  clip : W64
  omb1 : W64
  omb2 : W64
  a1 : W64
  a2 : W64
  d64 : W64
  d : W64
  fl : Flags
  deriving DecidableEq, Repr

/-- Table 8.5. R191 rounds the binary64 values to binary32 "by R50" and names no attribute there; the model rounds them to nearest
even like the binary64 values themselves (DESIGN CHOICE, log 124). -/
def stepScalars (p : Pkg) (r : Recipe) : Scal :=
  let m := p.mem
  let t := mnat m r.state 4 + 1
  let g := b64At m (r.state + 16)
  let eta := b32At m (r.state + 8)
  let c := widen r.clipc
  let q := fDiv .b64 .rne c g
  let clip : R := if lt64 c g then let y := to32 .rne q.1; (y.1, q.2 ||| y.2) else (0x3F800000#64, 0#16)
  let omb (b : W64) : R := let y := fSub .b64 .rne one64 (widen b); let z := to32 .rne y.1; (z.1, y.2 ||| z.2)
  let acc (b : W64) : R :=
    if bit r.rflags 0 then
      let w := uePow (widen b) t
      let y := fSub .b64 .rne one64 w.1
      let z := fDiv .b64 .rne one64 y.1
      let o := to32 .rne z.1
      (o.1, w.2 ||| y.2 ||| z.2 ||| o.2)
    else (0x3F800000#64, 0#16)
  let pr := fMul .b64 .rne (widen eta) (widen r.lambda)
  let d64 := fSub .b64 .rne one64 pr.1
  let d := to32 .rne d64.1
  let o1 := omb r.beta1
  let o2 := omb r.beta2
  let a1 := acc r.beta1
  let a2 := acc r.beta2
  let second (f : Flags) : Flags := if r.kind = 1 then 0#16 else f
  { rm := rndOfRa r.ra p.cfg.radef, kind := r.kind, nest := bit r.rflags 1, t := t, beta1 := r.beta1, beta2 := r.beta2,
    eps := r.eps, eta := eta, clip := clip.1, omb1 := o1.1, omb2 := o2.1, a1 := a1.1, a2 := a2.1, d64 := d64.1, d := d.1,
    fl := clip.2 ||| pr.2 ||| d64.2 ||| d.2 ||| second (o1.2 ||| o2.2 ||| a1.2 ||| a2.2) }

/-- An element's moments, weight, the step's a, and flags. -/
structure Elem where
  m : W64
  v : W64
  w : W64
  a : W64
  fl : Flags
  deriving DecidableEq, Repr

/-- `step_element` of R193; for PRECONDITIONED the weight is left to the second sweep. -/
def stepElement (k : Scal) (x m v w : W64) : Elem :=
  let mul := fMul .b32 k.rm
  let fma := fFma .b32 k.rm
  let gh := mul k.clip x
  let neta := fNeg .b32 k.eta
  if k.kind = 1 then
    let m' := fma k.beta1 m gh.1
    let u := if k.nest then fma k.beta1 m'.1 gh.1 else m'
    let wd := mul w k.d
    let w' := fma neta u.1 wd.1
    { m := m'.1, v := v, w := w'.1, a := 0#64, fl := gh.2 ||| m'.2 ||| u.2 ||| wd.2 ||| w'.2 }
  else
    let og := mul k.omb1 gh.1
    let m' := fma k.beta1 m og.1
    let g2 := mul gh.1 gh.1
    let og2 := mul k.omb2 g2.1
    let v' := fma k.beta2 v og2.1
    let ma := mul m'.1 k.a1
    let va := mul v'.1 k.a2
    let sq := fSqrt .b32 k.rm va.1
    let de := fAdd .b32 k.rm sq.1 k.eps
    let a := fDiv .b32 k.rm ma.1 de.1
    let fl := gh.2 ||| og.2 ||| m'.2 ||| g2.2 ||| og2.2 ||| v'.2 ||| ma.2 ||| va.2 ||| sq.2 ||| de.2 ||| a.2
    if k.kind = 0 then
      let wd := mul w k.d
      let w' := fma neta a.1 wd.1
      { m := m'.1, v := v'.1, w := w'.1, a := a.1, fl := fl ||| wd.2 ||| w'.2 }
    else { m := m'.1, v := v'.1, w := w, a := a.1, fl := fl }

/-- The factors of a row's catch-up (R196), rounded under RA (R52, R180): for m, v and w with flags and whether the LONG branch was taken; none: no decay. -/
def catchUp (dcid : Nat) (mem : Mem) (ring : Nat) (k : Scal) (h : Nat) : Option (W64 × W64 × W64 × Flags × Bool) :=
  let delta := k.t - h - 1
  if delta = 0 then none
  else
    let slot (s : Nat) := b64At mem (ring + 8 * (s % 65536))
    let (f, ff, long) : W64 × Flags × Bool :=
      if delta ≤ 65536 then (slot (h + 1), 0#16, false)
      else
        -- delta / 65536 is exact
        let lg := ueLog2 dcid (slot k.t)
        let e := fMul .b64 k.rm lg.1 (roundFin .b64 .rne false delta (-16)).1
        let x := ueExp2 dcid e.1
        (x.1, fLONG ||| lg.2 ||| e.2 ||| x.2, true)
    let p1 := uePow (widen k.beta1) delta
    let p2 := uePow (widen k.beta2) delta
    let b1 := to32 k.rm p1.1
    let b2 := to32 k.rm p2.1
    let wf := to32 k.rm f
    let fl := ff ||| p1.2 ||| b1.2 ||| wf.2 ||| (if k.kind = 1 then 0#16 else p2.2 ||| b2.2)
    some (b1.1, b2.1, wf.1, fl, long)

/-- One element's work: the ranges read and the stores. -/
structure Piece where
  reads : List (Nat × Nat)
  ws : List BitW
  deriving DecidableEq, Repr

/-- What PASS2 makes of a segment. -/
structure SegOut where
  pieces : List Piece := []
  fl : Flags := 0#16
  longs : Nat := 0
  dups : Nat := 0
  odd : Nat := 0
  rows : Nat := 0
  deriving DecidableEq, Repr

/-- A row to step: its number, the row of its gradient, and what its header asks. -/
structure RowJob where
  row : Nat
  grow : Nat
  hdr : Option Nat
  deriving DecidableEq, Repr

/-- The accepted entries of a touched list (R195), and how many were skipped. -/
def acceptRows (m : Mem) (s : Seg) : List RowJob × Nat :=
  let r := (List.range (touchK m s)).foldl (fun (st : List RowJob × Nat × Option Nat) i =>
    let row := touchAt m s i
    let skip := match st.2.2 with
      | some last => decide (row ≤ last)
      | none => false
    if skip then (st.1, st.2.1 + 1, st.2.2)
    else (st.1 ++ [{ row := row, grow := i, hdr := some (mnat m (s.hdr + 4 * row) 4) }], st.2.1, some row)) ([], 0, none)
  (r.1, r.2.1)

def segRows (m : Mem) (s : Seg) : List RowJob × Nat :=
  if s.skind = 1 then acceptRows m s else ((List.range s.size1).map (fun i => { row := i, grow := i, hdr := none }), 0)

/-- The narrow copy's tensor. -/
def narrowDesc (s : Seg) : Desc :=
  { addr := s.narrow, fcode := s.nfmt, rank := 2, remote := false, layout := 0, skind := 0, gsize := 0, zp := 0,
    size := [s.size0, s.size1, 1, 1], stride := [1, s.size0, 0, 0], sptr := 0 }

/-- R199: codes and scales of one row of master weights. -/
def narrowRow (s : Seg) (row : Nat) (ws : List W64) : List BitW × Flags :=
  if s.nfmt = 0 then ([], 0#16)
  else
    let d := narrowDesc s
    let ng := cdiv s.size0 s.g
    ((chunks s.g ng ws).zipIdx).foldl (fun (st : List BitW × Flags) e =>
      let vs := e.1.map (decodeFloat .b32)
      let (sc, cs, sf) := narrowGroup s.fmt vs vs
      let codes := cs.zipIdx.map (fun c => wrElem d (row * s.size0 + e.2 * s.g + c.2) c.1.1)
      (st.1 ++ codes ++ [bytesW (s.nscale + 2 * (row * ng + e.2)) (natLe 2 sc.toNat)],
       st.2 ||| sf ||| orFlags cs)) ([], 0#16)

/-- Padding of a packed narrow copy (R56, R57). -/
def narrowPad (s : Seg) : List BitW := if s.nfmt = 0 then [] else padW (narrowDesc s)

/-- Moments and weight of an element after its row's catch-up. -/
def caught (k : Scal) (mem : Mem) (s : Seg) (cu : Option (W64 × W64 × W64 × Flags × Bool)) (fresh : Bool) (i : Nat) :
    W64 × W64 × W64 × Flags :=
  let m := if fresh then 0#64 else b32At mem (s.mom1 + 4 * i)
  let v := if k.kind = 1 ∨ fresh then 0#64 else b32At mem (s.mom2 + 4 * i)
  let w := b32At mem (s.master + 4 * i)
  match cu with
  | none => (m, v, w, 0#16)
  | some (b1, b2, wf, _, _) =>
    let m' := fMul .b32 k.rm m b1
    let v' : R := if k.kind = 1 then (v, 0#16) else fMul .b32 k.rm v b2
    let w' := fMul .b32 k.rm w wf
    (m'.1, v'.1, w'.1, m'.2 ||| v'.2 ||| w'.2)

def elemReads (k : Scal) (s : Seg) (gi i : Nat) : List (Nat × Nat) :=
  (s.grad + 4 * gi, 4) :: (s.mom1 + 4 * i, 4) :: (s.master + 4 * i, 4) :: (if k.kind = 1 then [] else [(s.mom2 + 4 * i, 4)])
    ++ (if k.kind = 2 then [(s.dir + 4 * gi, 4)] else [])

def elemStores (k : Scal) (s : Seg) (i : Nat) (e : Elem) : List BitW :=
  bytesW (s.mom1 + 4 * i) (natLe 4 e.m.toNat) :: bytesW (s.master + 4 * i) (natLe 4 e.w.toNat)
    :: (if k.kind = 1 then [] else [bytesW (s.mom2 + 4 * i) (natLe 4 e.v.toNat)])

/-- The first sweep of a segment: every row's elements by R193, with its catch-up. -/
def sweepRows (p : Pkg) (r : Recipe) (k : Scal) (u : Nat) (s : Seg) : List (RowJob × List Elem) × SegOut :=
  let (rows, dups) := segRows p.mem s
  rows.foldl (fun (st : List (RowJob × List Elem) × SegOut) j =>
    let h := j.hdr.getD k.t
    let fresh := j.hdr == some 0
    let odd := j.hdr.isSome && !fresh && decide (k.t ≤ h)
    let cu := if j.hdr.isNone || fresh || odd then none else catchUp (rget p rGlbDcid) p.mem (r.ring + u * 0x80000) k h
    let cf : Flags × Bool := match cu with
      | some c => (c.2.2.2.1, c.2.2.2.2)
      | none => (0#16, false)
    let es := (List.range s.size0).map (fun i0 =>
      let i := j.row * s.size0 + i0
      let c := caught k p.mem s cu fresh i
      let e := stepElement k (b32At p.mem (s.grad + 4 * (j.grow * s.size0 + i0))) c.1 c.2.1 c.2.2.1
      { e with fl := e.fl ||| c.2.2.2 })
    (st.1 ++ [(j, es)],
     { st.2 with fl := es.foldl (fun a e => a ||| e.fl) (st.2.fl ||| cf.1), longs := st.2.longs + b2n cf.2,
                 odd := st.2.odd + b2n odd, rows := st.2.rows + 1 })) ([], { dups := dups })

/-- φ of a block (R194) under RA, with the flags of every operation. -/
def blockPhi (rm : Rnd) (as ds : List W64) : R :=
  let nd := laneSum rm (ds.map widen)
  let na := laneSum rm (as.map widen)
  if nd.1 = 0#64 then (0#64, na.2 ||| nd.2)
  else
    let sa := fSqrt .b64 rm na.1
    let sd := fSqrt .b64 rm nd.1
    let q := fDiv .b64 rm sa.1 sd.1
    let o := to32 rm q.1
    (o.1, na.2 ||| nd.2 ||| sa.2 ||| sd.2 ||| q.2 ||| o.2)

/-- The second sweep of PRECONDITIONED: the weights of the rows, block by block. -/
def sweepBlocks (m : Mem) (k : Scal) (s : Seg) (rows : List (RowJob × List Elem)) : List (RowJob × List Elem) × Flags :=
  let nb0 := s.size0 / s.br
  let phis : SMap R := ((List.range (s.size1 / s.bc)).flatMap (fun b1 => (List.range nb0).map (fun b0 => (b0, b1)))).foldl
    (fun (acc : SMap R) b =>
      let mine := rows.filter (fun q => q.1.row / s.bc == b.2)
      let cells := mine.flatMap (fun q => (List.range s.br).map (fun i =>
        let i0 := b.1 * s.br + i
        ((q.2.getD i0 ⟨0#64, 0#64, 0#64, 0#64, 0#16⟩).a, b32At m (s.dir + 4 * (q.1.grow * s.size0 + i0)))))
      sset acc (b.2 * nb0 + b.1) (blockPhi k.rm (cells.map (fun c => c.1)) (cells.map (fun c => c.2)))) []
  let out := rows.map (fun q =>
    (q.1, q.2.zipIdx.map (fun e =>
      let phi := (sget phis (q.1.row / s.bc * nb0 + e.2 / s.br) (0#64, 0#16)).1
      let pd := fMul .b32 k.rm phi (b32At m (s.dir + 4 * (q.1.grow * s.size0 + e.2)))
      let wd := fMul .b32 k.rm e.1.w k.d
      let w := fFma .b32 k.rm (fNeg .b32 k.eta) pd.1 wd.1
      { e.1 with w := w.1, fl := e.1.fl ||| pd.2 ||| wd.2 ||| w.2 })))
  (out, out.foldl (fun a q => q.2.foldl (fun a e => a ||| e.fl) a) (phis.foldl (fun a e => a ||| e.2.2) 0#16))

/-- A segment's step (R193 to R199). -/
def segStep (p : Pkg) (r : Recipe) (k : Scal) (u : Nat) (s : Seg) : SegOut :=
  let (rows, o) := sweepRows p r k u s
  let (rows, bf) := if r.kind = 2 then sweepBlocks p.mem k s rows else (rows, 0#16)
  rows.foldl (fun (o : SegOut) q =>
    let hp := if q.1.hdr.isSome then [(s.hdr + 4 * q.1.row, 4)] else []
    let ps := q.2.zipIdx.map (fun e =>
      let i := q.1.row * s.size0 + e.2
      { reads := hp ++ elemReads k s (q.1.grow * s.size0 + e.2) i, ws := elemStores k s i e.1 : Piece })
    let (nw, nf) := narrowRow s q.1.row (q.2.map (fun e => e.w))
    let last : Piece := { reads := [], ws := nw ++ (if q.1.hdr.isSome then [bytesW (s.hdr + 4 * q.1.row) (natLe 4 k.t)] else []) }
    { o with pieces := o.pieces ++ ps ++ [last], fl := o.fl ||| nf }) { o with fl := o.fl ||| bf }

/-- The ring after an applied step (R197), its products under RA. -/
def ringStore (m : Mem) (ring : Nat) (k : Scal) : List BitW × Flags :=
  (List.range 65536).foldl (fun (st : List BitW × Flags) i =>
    if i = k.t % 65536 then (st.1 ++ [bytesW (ring + 8 * i) (natLe 8 k.d64.toNat)], st.2)
    else
      let q := fMul .b64 k.rm (b64At m (ring + 8 * i)) k.d64
      (st.1 ++ [bytesW (ring + 8 * i) (natLe 8 q.1.toNat)], st.2 ||| q.2)) ([], 0#16)

/-! Jobs -/

/-- UP instructions at issue (R181, R182). -/
def goUp (t op : Nat) (p : Pkg) (l : Nat) (x : Tile) (w cyc : Nat) : Chk (Pkg × InFl) :=
  let ues := ((findLaunch p l).map (fun y => y.ues)).getD 0
  match launchSec p l 6 with
  | none => .error fRange
  | some (sec, _) => do
    let u := bits w 15 12
    let rid := bits w 7 0
    need (decide (rid < mnat p.mem sec 4)) fRange
    need (decide (u < 8) && bit ues u) fRange
    let r := recipeAt p l rid
    need (bit r.uemask u) fRange
    let j : Job := { id := 0, ue := true, unit := u, tile := t, seq := x.seq - 1, launch := l, op := op, idx := rid,
                     s := bits w 45 16, wc := r.wcs.getD op 0, issued := cyc }
    .ok (addJob p j, heldFl p w .unit)

/-- `UP.INIT`, `UP.PASS1`, `UP.PASS2`, `UP.ROOT` (R181). -/
def execUpInit (t : Fin 128) (s : State) : Out := run s (fun c p => issue p c t 3 0xC0 1 (goUp t 0))
/-- `UP_PASS1` (R181). -/
def execUpPass1 (t : Fin 128) (s : State) : Out := run s (fun c p => issue p c t 3 0xC1 1 (goUp t 1))
/-- `UP_PASS2` (R181). -/
def execUpPass2 (t : Fin 128) (s : State) : Out := run s (fun c p => issue p c t 3 0xC2 1 (goUp t 2))
/-- `UP_ROOT` (R181). -/
def execUpRoot (t : Fin 128) (s : State) : Out := run s (fun c p => issue p c t 3 0xC3 1 (goUp t 3))

/-- `UP_DISPATCH_ARRIVE` (R181). -/
def execUpDispatchArrive (n : Nat) (s : State) : Out := run s (fun c p => arriveJob p c true n)

/-- A recipe's update can run under a launch: Tables 8.2, 8.4 and 8.6, and a group that the plan lists (R184, R302). -/
def recipeStands (p : Pkg) (j : Job) (r : Recipe) : Bool :=
  recipeOk p.mem (((findLaunch p j.launch).map (fun y => y.ues)).getD 0) r && (r.group == 0xFFFF || groupListed p j.launch r.group)

/-- What a UE reads to check a job (R184): the recipe record, and the tables that it names. -/
def upTables (p : Pkg) (j : Job) (r : Recipe) : List (Nat × Nat) :=
  let tab (a n : Nat) : List (Nat × Nat) := if ueSpan a n then [(a, n)] else []
  (((launchSec p j.launch 6).getD (0, 0)).1 + 16 + 256 * j.idx, 256) :: tab r.segtab (128 * r.nseg) ++ tab r.rootj (64 * r.nroot)

/-- `UE.LAST` after a job (Table 8.11); SKIP tells of the last PASS2. -/
def setLast (p : Pkg) (j : Job) (status : Nat) : Pkg :=
  let o := jobReg p j + 8
  let skip := if j.op = 2 then j.skip else rbit p o 8
  rset p o (status + b2n skip * 2 ^ 8 + j.flags.toNat * 2 ^ 16)

/-- The same stores with free values: what an INIT that failed leaves (R207). -/
def freeWs (fr : Nat) (ws : List BitW) : List BitW :=
  ws.map (fun b => { b with v := leNat ((List.range (cdiv b.w 8)).map (fun i => Config.freeByte fr (b.addr + i))) % 2 ^ b.w })

/-- A store to the state record or to a ring. -/
def ringOrState (r : Recipe) (b : BitW) : Bool :=
  let a := b.addr / 8
  (decide (r.state ≤ a) && decide (a < r.state + 128))
    || (bitList 8 r.uemask).any (fun u => decide (r.ring + u * 0x80000 ≤ a) && decide (a < r.ring + u * 0x80000 + 0x80000))

/-- Jobs of one PASS (R182): the same launch, opcode, recipe and start. -/
def samePass (j k : Job) : Bool := k.ue && k.launch == j.launch && k.op == j.op && k.idx == j.idx && k.s == j.s

/-- What is left of a PASS2 when a participant fails: no ring and no state record advances (R207). -/
def haltStep (p : Pkg) (j : Job) : Pkg :=
  let r := recipeAt p j.launch j.idx
  { p with jobs := p.jobs.map (fun k =>
      if samePass j k then { k with writes := k.writes.map (fun g => g.filter (fun b => !ringOrState r b)) } else k) }

/-- A store to a row header goes over the squirrel path (R195). -/
def headerStore (segs : List Seg) (b : BitW) : Bool :=
  segs.any (fun s => s.skind == 1 && decide (s.hdr ≤ b.addr / 8) && decide (b.addr / 8 < s.hdr + 4 * s.size1))

/-- Traffic of row headers: 8-byte squirrel accesses (R195, R247). -/
def chargeHeaders (p : Pkg) (j : Job) (wr : Bool) (addrs : List Nat) : Pkg :=
  enqueueAll p 0 (addrs.map (fun a =>
    { line := a / 8 * 8, bytes := 8, wr := if wr then [{ addr := 8 * a, w := 32, v := 0 }] else [], sq := true, who := .job j.id,
      chg := true }))

/-- Makes a UE's stores visible (R183); they take their turn in partition 0 (R205). -/
def ueVisible (p : Pkg) (j : Job) (ws : List BitW) : Pkg :=
  let (hs, ds) := ws.partition (headerStore (if j.op = 2 then segsOf p.mem (recipeAt p j.launch j.idx) else []))
  let p := chargeJob { healLines p (storeRanges ws) with mem := applyWs p.mem ws } j true (storeRanges ds)
  chargeHeaders p j true (hs.map (fun b => b.addr / 8))

/-- A UP job fails (R207): of the stores done, PASS1 keeps none, PASS2 and ROOT keep theirs, those of an INIT are undefined. -/
def failUp (p : Pkg) (c : Clock) (j : Job) (done : List (List BitW)) (status : Nat) : Pkg :=
  let r := recipeAt p j.launch j.idx
  let ws := if j.op = 0 then freeWs p.fv done.flatten else if j.op = 1 then [] else
    if j.op = 2 then done.flatten.filter (fun b => !ringOrState r b) else done.flatten
  let p := addCause (ueVisible { p with fv := p.fv + b2n (j.op == 0) } j ws) c j.launch status
  let p := bump (setLast (if j.op = 2 then haltStep p j else p) j status) (jobReg p j + 0x14)
  closeJob p j false j.flags

/-- A UE fails while its job runs (R207): how far the job has come is not stated; an INIT's whole state is undefined. -/
def failUnit (p : Pkg) (c : Clock) (j : Job) (status : Nat) : Pkg :=
  let n := if j.op = 0 then j.writes.length else (Config.freeWord p.fv).toNat % (j.writes.length + 1)
  failUp { p with fv := p.fv + 1 } c j (j.writes.take n) status

/-- What ends a UP job at its start cycle: a stopped clock (UP_SCHEDULE, R181), an uncorrectable line of its tables, a record or
table that R184 refuses. -/
def upRefused (p : Pkg) (c : Clock) (j : Job) (r : Recipe) : Option Pkg :=
  if engineAsleep p j then some (refuseJob p c j 0x07)
  else match firstBad p (upTables p j r) with
    | some l => some (failUp (takeJob (noteUe p c l) j) c j [] 0x21)
    | none => if recipeStands p j r then none else some (refuseJob p c j 0x01)

/-- The matching jobs of every participant (R182), lowest first; none while one is missing or may not start. -/
def partners (p : Pkg) (c : Clock) (r : Recipe) (j : Job) : Option (List Job) :=
  let us := bitList 8 r.uemask
  let js := us.filterMap (fun u =>
    p.jobs.find? (fun k => samePass j k && k.unit == u && mayStart p c k && (upRefused p c k r).isNone))
  if js.length = us.length then some js else none

/-- A UP job comes to its start cycle: it ends in the fault of its own UE, waits for its partners, or starts with them. -/
def upStart (n op : Nat) (go : Clock → Pkg → Recipe → Job → List Job → Pkg) (s : State) : Out :=
  run s (fun c p =>
    match p.jobs.find? (fun j => j.id == n && j.ue && j.op == op) with
    | none => p
    | some j =>
      let r := recipeAt p j.launch j.idx
      if !mayStart p c j then p
      else match upRefused p c j r with
      | some q => q
      | none =>
        match (if op = 1 ∨ op = 2 then partners p c r j else some [j]) with
        | none => p
        | some js =>
          let b := js.foldl (fun a j => max a (beginCycle p j)) 0
          let took (q : Pkg) (k : Job) : Pkg :=
            modJob (takeJob (chargeJob (noteCes q (upTables p k r)) k false (upTables p k r)) k) k.id (fun x => { x with began := b })
          go c (js.foldl took p) r { j with began := b } js)

/-- The pieces before the first one that reads an uncorrectable line, and that line. -/
def goodPieces (p : Pkg) : List Piece → List Piece × Option Nat
  | [] => ([], none)
  | x :: r =>
    match firstBad p x.reads with
    | some l => ([], some l)
    | none => let (a, b) := goodPieces p r; (x :: a, b)

/-- Runs pieces: a bad line fails the job, else its stores wait for the end. -/
def upPieces (p : Pkg) (c : Clock) (j : Job) (pieces : List Piece) (f : Job → Job) : Pkg :=
  match goodPieces p pieces with
  | (good, some l) => failUp (noteUe p c l) c j ((if j.op = 0 then pieces else good).map (fun x => x.ws)) 0x21
  | (good, none) =>
    let p := noteCes p (good.flatMap (fun x => x.reads))
    modJob p j.id (fun k => f { k with writes := good.map (fun x => x.ws) })

def lowest (r : Recipe) : Nat := (bitList 8 r.uemask).headD 0

/-- n zero bytes. -/
def zeroW (a n : Nat) : BitW := { addr := 8 * a, w := 8 * n, v := 0 }

/-- What INIT leaves in the state record but for ETA (R185, R203): T, SKIPS and the counters 0, NOTE clear. No rule gives FLAGS, G
and CLIP before a pass has set them: those are free (DESIGN CHOICE, log 125). -/
def initState (r : Recipe) : List BitW :=
  let free (i n : Nat) : List Byte := natLe n (Config.operandWord 8 [r.state] i).toNat
  [zeroW r.state 8, bytesW (r.state + 12) (free 0 2 ++ [0#8]), bytesW (r.state + 16) (free 1 8 ++ free 2 4), zeroW (r.state + 32) 28]

/-- `UE_INIT_JOB` (R203): the segments, root jobs and ring of the UE; the lowest participant writes the state record. -/
def execUeInitJob (n : Nat) (s : State) : Out :=
  upStart n 0 (fun c p r j _ =>
    let segs := (segsOf p.mem r).filter (fun s => s.lue == j.unit)
    let roots := (rootsOf p.mem r).filter (fun q => q.lue == j.unit)
    let nar := segs.flatMap (fun s => (List.range s.size1).map (fun row =>
      let ws := (List.range s.size0).map (fun i => b32At p.mem (s.master + 4 * (row * s.size0 + i)))
      (({ reads := if s.nfmt = 0 then [] else [(s.master + 4 * row * s.size0, 4 * s.size0)], ws := (narrowRow s row ws).1 } : Piece),
       (narrowRow s row ws).2)))
    let zero := segs.flatMap (fun s =>
      zeroW s.mom1 (4 * s.elems)
        :: (if r.kind = 1 then [] else [zeroW s.mom2 (4 * s.elems)])
        ++ (if s.skind = 1 then [zeroW s.hdr (4 * s.size1)] else []) ++ narrowPad s)
    let ident := roots.flatMap (fun q => (List.range q.count).flatMap (fun i =>
      (List.range q.n).flatMap (fun cc => (List.range q.n).map (fun rr =>
        bytesW (q.out + i * q.ostr + 4 * (rootLd q.n * cc + rr)) (natLe 4 (if rr = cc then 0x3F800000 else 0))))
        ++ [zeroW (q.hdr + 16 * i) 8]))
    let ring := (List.range 65536).map (fun i => bytesW (r.ring + j.unit * 0x80000 + 8 * i) (natLe 8 one64.toNat))
    let dur := 64 + 1024 + segs.foldl (fun a s => a + cdiv s.elems 256) 0
      + roots.foldl (fun a q => a + q.count * cdiv (q.n * q.n) 64) 0
    let first : Piece := { reads := [], ws := zero ++ ident ++ ring ++ (if j.unit = lowest r then initState r else []) }
    upPieces (chargeJob p j false (nar.flatMap (fun x => x.1.reads))) c j (first :: nar.map (fun x => x.1)) (fun k =>
      { k with ends := k.began + dur, flags := nar.foldl (fun a x => a ||| x.2) 0#16 })) s

/-- What PASS1 reads of a segment. -/
def pass1Reads (m : Mem) (s : Seg) : List (Nat × Nat) :=
  (s.grad, 4 * gradCount m s) :: (if s.skind = 1 then [(s.touch, 4)] else [])

/-- `UE_PASS1_JOB` (R188): the participants' jobs start together and end together; over a group, when the waggle worst case is over. -/
def execUePass1Job (n : Nat) (s : State) : Out :=
  upStart n 1 (fun c p r _ js =>
    let segs := segsOf p.mem r
    let mine (u : Nat) := segs.filter (fun s => s.lue == u)
    match firstBad p (segs.flatMap (pass1Reads p.mem)) with
    | some l => js.foldl (fun q j => failUp q c j [] 0x21) (noteUe p c l)
    | none =>
      let sum := pkgSum p.mem r
      let span (u : Nat) := (mine u).foldl (fun a s => a + cdiv (gradCount p.mem s) 256) 0
      let dur := 64 + (bitList 8 r.uemask).foldl (fun a u => max a (span u)) 0 + 342
        + (if r.group = 0xFFFF then 0 else wwcCycles p r.group)
      js.foldl (fun q j =>
        let reads := (mine j.unit).flatMap (pass1Reads p.mem)
        modJob (chargeJob (noteCes q reads) j false reads) j.id (fun k =>
          { k with ends := k.began + dur,
                   sum := if r.group = 0xFFFF then some sum else none,
                   sparse := { k.sparse with waitSum := r.group != 0xFFFF && k.unit == lowest r, loc := sum, group := r.group, tick := k.s } })) p) s

/-- A touched list that R195 refuses. -/
def touchBad (m : Mem) (s : Seg) : Bool :=
  s.skind == 1 && (decide (s.maxt < touchK m s) || (List.range (touchK m s)).any (fun i => decide (s.size1 ≤ touchAt m s i)))

/-- What a participant of PASS2 reads of its ring. -/
def ringSpan (r : Recipe) (u : Nat) : Nat × Nat := (r.ring + u * 0x80000, 0x80000)

/-- The touched list of a segment. -/
def touchSpan (m : Mem) (s : Seg) : List (Nat × Nat) :=
  if s.skind = 1 then [(s.touch, 4 + 4 * min (touchK m s) s.maxt)] else []

/-- A participant's step meets neither a bad touched list nor an uncorrectable line. -/
def pass2Sound (p : Pkg) (r : Recipe) (k : Scal) (u : Nat) : Bool :=
  let segs := (segsOf p.mem r).filter (fun s => s.lue == u)
  (firstBad p (segs.flatMap (touchSpan p.mem))).isNone && !segs.any (touchBad p.mem) && (firstBad p [ringSpan r u]).isNone
    && (goodPieces p (segs.flatMap (fun s => (segStep p r k u s).pieces))).2.isNone

/-- HBM reads of a segment's step (Table 8.8): each sweep reads its operands. -/
def chargeStep (p : Pkg) (j : Job) (r : Recipe) (s : Seg) : Pkg :=
  let rows := (segRows p.mem s).1
  let part (base : Nat) (row : RowJob → Nat) : List (Nat × Nat) := rows.map (fun q => (base + 4 * row q * s.size0, 4 * s.size0))
  let step := part s.grad (fun q => q.grow) ++ part s.mom1 (fun q => q.row) ++ (if r.kind = 1 then [] else part s.mom2 (fun q => q.row))
    ++ (if r.kind = 2 then part s.dir (fun q => q.grow) else [])
  let p := chargeJob p j false (touchSpan p.mem s)
  let p := chargeHeaders p j false (rows.filterMap (fun q => q.hdr.map (fun _ => s.hdr + 4 * q.row)))
  let p := if r.kind = 2 then chargeJob p j false step else p
  chargeJob p j false (step ++ part s.master (fun q => q.row))

/-- One participant's step. Rings and T advance only where the step of every participant is `sound` (R197, R207). -/
def pass2One (r : Recipe) (k : Scal) (tot : Flags × Nat × Nat × Nat) (sound : Bool) (p : Pkg) (c : Clock) (j : Job) : Pkg :=
  let segs := (segsOf p.mem r).filter (fun s => s.lue == j.unit)
  match firstBad p (segs.flatMap (touchSpan p.mem)) with
  | some l => failUp (noteUe p c l) c j [] 0x21
  | none =>
  if segs.any (touchBad p.mem) then jobFault p c j 0 0x05
  else
    let outs := segs.map (segStep p r k j.unit)
    let (ring, rf) := ringStore p.mem (r.ring + j.unit * 0x80000) k
    let fl := outs.foldl (fun a o => a ||| o.fl) (k.fl ||| rf)
    let longs := outs.foldl (fun a o => a + o.longs) 0
    let cost (s : Seg) (o : SegOut) : Nat :=
      (if r.kind = 2 then 2 else 1) * cdiv (o.rows * s.size0) 256
        + 16 * (if r.kind = 2 then s.size0 / s.br * (s.size1 / s.bc) else 0) + (if s.skind = 1 then 8 * o.rows else 0) + 64 * o.longs
    let dur := 64 + 1024 + (List.zipWith cost segs outs).foldl (fun a b => a + b) 0
    let note := mnat p.mem (r.state + 14) 1
    let sat8 (o d : Nat) := natLe 8 (min (mnat p.mem (r.state + o) 8 + d) (2 ^ 64 - 1))
    let state := if j.unit = lowest r then
        [bytesW r.state (natLe 4 k.t), bytesW (r.state + 12) (natLe 2 (tot.1 ||| rf).toNat ++ natLe 1 (Nat.land note 1)),
         bytesW (r.state + 24) (natLe 4 k.clip.toNat), bytesW (r.state + 32) (sat8 32 tot.2.1 ++ sat8 40 tot.2.2.1 ++ sat8 48 tot.2.2.2)]
      else []
    let p := segs.foldl (fun q s => chargeStep q j r s) (noteCes p (segs.flatMap (touchSpan p.mem)))
    upPieces (chargeJob p j false [ringSpan r j.unit]) c j
      (outs.flatMap (fun o => o.pieces) ++ [{ reads := [ringSpan r j.unit], ws := if sound then ring ++ state else [] }])
      (fun x => { x with ends := x.began + dur, flags := fl, longs := longs })

/-- `UE_PASS2_JOB` (R189 to R199). -/
def execUePass2Job (n : Nat) (s : State) : Out :=
  upStart n 2 (fun c p r _ js =>
    match firstBad p [(r.state, 128)] with
    | some l => js.foldl (fun q j => failUp q c j [] 0x21) (noteUe p c l)
    | none =>
    let p := js.foldl (fun q j => chargeJob q j false (if j.unit = lowest r then [(r.state, 128)] else [])) (noteCes p [(r.state, 128)])
    let note := mnat p.mem (r.state + 14) 1
    let t := mnat p.mem r.state 4
    if !bit note 2 || t == 0xFFFFFFFF then js.foldl (fun q j => jobFault q c j 0 0x08) p
    else if !finiteF .b64 (b64At p.mem (r.state + 16)) then
      let skips := min (mnat p.mem (r.state + 4) 4 + 1) 0xFFFFFFFF
      let ws := [bytesW (r.state + 4) (natLe 4 skips),
        bytesW (r.state + 12) (natLe 2 fINV.toNat ++ natLe 1 (Nat.land note 1 + 2))]
      js.foldl (fun q j => modJob q j.id (fun k =>
        { k with ends := k.began + 64, flags := fINV, skip := true, writes := if k.unit = lowest r then [ws] else [] })) p
    else
      let k := stepScalars p r
      let outs := (segsOf p.mem r).map (fun s => segStep p r k s.lue s)
      let tot := outs.foldl (fun (a : Flags × Nat × Nat × Nat) o =>
        (a.1 ||| o.fl, a.2.1 + o.longs, a.2.2.1 + o.dups, a.2.2.2 + o.odd)) (k.fl, 0, 0, 0)
      let sound := js.all (fun j => pass2Sound p r k j.unit)
      js.foldl (fun q j => pass2One r k tot sound q c j) p) s

/-- The root of one matrix (R201): its elements (r, c), r ≤ c, in binary32, with flags; and whether it is installed (R202). -/
def rootOf (m : Mem) (rm : Rnd) (q : RootJ) (i : Nat) : List (Nat × Nat × W64) × Flags × Bool :=
  let n := q.n
  let x (rr cc : Nat) : W64 := b64At m (q.inp + i * q.istr + 8 * (rootLd n * cc + rr))
  let rhos : List R := if q.src = 1 then [] else (List.range n).map (fun k =>
    let a := fMaxMin true .b64 (b64At m (q.w + i * q.wstr + 8 * k)) 0#64
    let b := fAdd .b64 rm a.1 q.eps
    let s1 := fSqrt .b64 rm b.1
    let s2 := fSqrt .b64 rm s1.1
    let d := fDiv .b64 rm one64 s2.1
    (d.1, a.2 ||| b.2 ||| s1.2 ||| s2.2 ||| d.2))
  let cells := (List.range n).flatMap (fun cc => (List.range (cc + 1)).map (fun rr => (rr, cc)))
  let vals : List (Nat × Nat × R) := cells.map (fun e =>
    let v : R := if q.src = 1 then (x e.1 e.2, 0#16) else
      rhos.zipIdx.foldl (fun (acc : R) k =>
        let pr := fMul .b64 rm k.1.1 (x e.1 k.2)
        let y := fFma .b64 rm pr.1 (x e.2 k.2) acc.1
        (y.1, acc.2 ||| pr.2 ||| y.2)) (0#64, 0#16)
    let o := to32 rm v.1
    (e.1, e.2, (o.1, v.2 ||| o.2)))
  let ok := rhos.all (fun k => finiteF .b64 k.1) && vals.all (fun e => finiteF .b32 e.2.2.1)
  let fl := vals.foldl (fun a e => a ||| e.2.2.2) (orFlags rhos)
  (vals.map (fun e => (e.1, e.2.1, e.2.2.1)), if ok then fl else fl ||| fINV, ok)

/-- One matrix: what it reads, what it writes, its flags, whether it kept its old root. -/
def rootPiece (m : Mem) (rm : Rnd) (t : Nat) (q : RootJ) (i : Nat) : Piece × Flags × Bool :=
  let (vs, fl, ok) := rootOf m rm q i
  let reads := (q.hdr + 16 * i, 4) :: (q.inp + i * q.istr, rootBytes 8 q.n) :: (if q.src = 0 then [(q.w + i * q.wstr, 8 * q.n)] else [])
  let el (rr cc : Nat) (v : W64) := bytesW (q.out + i * q.ostr + 4 * (rootLd q.n * cc + rr)) (natLe 4 v.toNat)
  let ws := if !ok then [] else
    vs.flatMap (fun e => [el e.1 e.2.1 e.2.2, el e.2.1 e.1 e.2.2])
      ++ [bytesW (q.hdr + 16 * i) (natLe 4 (mnat m (q.hdr + 16 * i) 4 + 1) ++ natLe 4 t)]
  ({ reads := reads, ws := ws }, fl, ok)

/-- `UE_ROOT_JOB` (R200 to R202). -/
def execUeRootJob (n : Nat) (s : State) : Out :=
  upStart n 3 (fun c p r j _ =>
    let rm := rndOfRa r.ra p.cfg.radef
    let roots := (rootsOf p.mem r).filter (fun q => q.lue == j.unit)
    let t := mnat p.mem r.state 4
    let ps := roots.flatMap (fun q => (List.range q.count).map (rootPiece p.mem rm t q))
    let dur := 64 + roots.foldl (fun a q => a + q.count *
      (if q.src = 0 then cdiv (q.n * q.n * q.n) 64 + 8 * q.n else cdiv (q.n * q.n) 64 + 8)) 0
    let pieces : List Piece := { reads := [(r.state, 4)], ws := [] } :: ps.map (fun x => x.1)
    upPieces (chargeJob p j false (pieces.flatMap (fun x => x.reads))) c j pieces (fun k =>
      { k with ends := k.began + dur, flags := ps.foldl (fun a x => a ||| x.2.1) 0#16, kept := ps.countP (fun x => !x.2.2) })) s

/-- The headers of a recipe's roots, and the fields of the state record that tell of them. -/
def rootHeaders (m : Mem) (r : Recipe) : List (Nat × Nat) :=
  (rootsOf m r).flatMap (fun q => (List.range q.count).map (fun i => (q.hdr + 16 * i, 4)))
def rootNotes (r : Recipe) : List (Nat × Nat) := [(r.state + 56, 4), (r.state + 14, 1)]

/-- NOROOT and IDENTITY after an INIT or ROOT job (R203). -/
def countRoots (p : Pkg) (j : Job) (r : Recipe) : Pkg :=
  let none_ := (rootHeaders p.mem r).countP (fun h => mnat p.mem h.1 4 == 0)
  let note := Nat.land (mnat p.mem (r.state + 14) 1) 6 + b2n (none_ != 0)
  let p := chargeJob (noteCes p (rootHeaders p.mem r)) j false (rootHeaders p.mem r)
  chargeJob { p with mem := mwrite (mwrite p.mem (r.state + 56) (natLe 4 none_)) (r.state + 14) (natLe 1 note) } j true (rootNotes r)

/-- The root value of a PASS1 job, once the waggle path has delivered it. -/
def pass1Sum (p : Pkg) (r : Recipe) (j : Job) : Option W64 :=
  if r.group = 0xFFFF then j.sum
  else (p.jobs.find? (fun k => samePass j k && k.unit == lowest r)).bind (fun k => k.sum)

/-- The stores of a UP job at its end: PASS1 sets G and NORMVALID (R188). -/
def endStores (p : Pkg) (r : Recipe) (j : Job) : List (List BitW) :=
  if j.op = 1 ∧ j.unit = lowest r then
    let g := (fSqrt .b64 .rne ((pass1Sum p r j).getD 0#64)).1
    [[bytesW (r.state + 16) (natLe 8 g.toNat), bytesW (r.state + 14) (natLe 1 (Nat.land (mnat p.mem (r.state + 14) 1) 3 + 4))]]
  else j.writes

/-- An uncorrectable line that the end of a job meets, and the stores before it. -/
def endTrouble (p : Pkg) (r : Recipe) (j : Job) : Option (List (List BitW) × Nat) :=
  let gs := endStores p r j
  match badPart p (storeRanges gs.flatten) with
  | some l => some (gs.takeWhile (fun g => !(storeRanges g).any (fun e => (linesOf e.1 e.2).contains l)), l)
  | none =>
    if j.op = 0 ∨ j.op = 3 then ((firstBad p (rootHeaders p.mem r)).or (badPart p (rootNotes r))).map (fun l => (gs, l)) else none

/-- A UP job that ends well: its stores, its registers (Tables 8.10 to 8.12), its instruction. -/
def endUp (p : Pkg) (r : Recipe) (fin : Nat) (j : Job) : Pkg :=
  let p := ueVisible p j (endStores p r j).flatten
  let roots := j.op = 0 ∨ j.op = 3
  let p := if roots then countRoots p j r else p
  let p := if roots ∨ j.unit = lowest r then rsetb p (uReg p (lowest r)) 4 (bit (mnat p.mem (r.state + 14) 1) 0) else p
  let o := jobReg p j
  let p := setLast p j 0
  let p := rset p (o + 0xC) (rget p (o + 0xC) + b2n j.skip)
  let p := rset p (o + 0x10) (rget p (o + 0x10) + j.longs)
  let p := bump p (o + 0x14)
  let p := rset p (o + 0x18) (rget p (o + 0x18) + j.kept)
  closeJob (modJob p j.id (fun k => { k with ends := fin })) j true j.flags

/-- `UE_JOB_END` (R183): the job's last cycle has passed; its writes become visible. The participants of a PASS2 end together, in the
last one's cycle, since the state record and every ring advance only when none of them has failed (R197, R207; DEDUCED, log 126). -/
def execUeJobEnd (n : Nat) (s : State) : Out :=
  run s (fun c p =>
    match findJob p n with
    | none => p
    | some j =>
      let r := recipeAt p j.launch j.idx
      let js := if j.op = 2 then p.jobs.filter (fun k => samePass j k && k.running) else [j]
      if !j.ue || !j.running || js.any (fun k => !jobOver p c k) || (j.op == 1 && (pass1Sum p r j).isNone) then p
      else match js.findSome? (fun k => (endTrouble p r k).map (fun e => (k, e))) with
      | some (k, done, l) => failUp (noteUe p c l) c k done 0x21
      | none => js.foldl (fun q k => endUp q r (js.foldl (fun a x => max a (max x.ends x.late)) 0) k) p)

end Sys2Proof.Machine
end

