-- ==== Sys2Proof/Machine/Admission.lean ====
section
/-! DEFINITION. The admission unit (11_determinism_and_time R272 to R278): the ledger, the checks of a launch, the earliest
feasible deadline, the placement of self-tests, calibrations and spare actions. -/

namespace Sys2Proof.Machine

/-! Plans (R41, R302) -/

/-- A field of a plan's header. -/
def planFld (p : Pkg) (pl : Plan) (off len : Nat) : Nat := mnat p.mem (pl.base + off) len

/-- WC_H or WC_S. -/
def wcOf (p : Pkg) (pl : Plan) : Nat := planFld p pl (if p.cfg.grade = 0 then 0x10 else 0x18) 8

/-- A slot entry of a traffic schedule (Table 12.7). -/
structure Slot where
  frame : Nat
  slot : Nat
  port : Nat
  ukind : Nat
  unit : Nat
  cx : Nat
  rto : Nat
  pkt : Nat
  rlim : Nat
  deriving DecidableEq, Repr

def readSlot (m : Mem) (a : Nat) : Slot :=
  { frame := mnat m a 4, slot := mnat m (a + 4) 1, port := mnat m (a + 5) 1, ukind := mnat m (a + 6) 1, unit := mnat m (a + 7) 1,
    cx := mnat m (a + 8) 2, rto := mnat m (a + 10) 2, pkt := mnat m (a + 12) 3, rlim := mnat m (a + 15) 1 % 4 }

/-- Bytes of the group list with its padding. -/
def groupPad (g : Nat) : Nat := cdiv (2 * g) 8 * 8

/-- The context entries of a plan's traffic schedule: local context, peer context, peer place. -/
def planCtxs (p : Pkg) (plan : Nat) : List (Nat × Nat × Nat) :=
  match findPlan p plan, planSec p plan 5 with
  | some pl, some (o, _) =>
    let a := o + 16 + groupPad (planFld p pl 0x48 2)
    (List.range (mnat p.mem (o + 4) 4)).map (fun i =>
      (mnat p.mem (a + 8 * i) 2, mnat p.mem (a + 8 * i + 2) 2, mnat p.mem (a + 8 * i + 4) 4 % 2 ^ 18))
  | _, _ => []

/-- The slot entries of a plan's traffic schedule. -/
def planSlots (p : Pkg) (plan : Nat) : List Slot :=
  match findPlan p plan, planSec p plan 5 with
  | some pl, some (o, _) =>
    let a := o + 16 + groupPad (planFld p pl 0x48 2) + 8 * mnat p.mem (o + 4) 4
    (List.range (mnat p.mem o 4)).map (fun i => readSlot p.mem (a + 16 * i))
  | _, _ => []

/-- The ports that a plan's traffic schedule names. -/
def planPorts (p : Pkg) (plan : Nat) : List Nat := sortNat ((planSlots p plan).map (fun s => s.port))

/-- The incoming ports of a plan's transit entries (R322). -/
def planEntries (p : Pkg) (plan : Nat) : List Nat :=
  sortNat (((planSlots p plan).filter (fun s => s.ukind == 4)).map (fun s => s.unit))

/-! The ledger (R272) -/

def overlaps (a b : Nat) (e : Ledger) : Bool := decide (e.start < b) && decide (a < e.stop)

def meets (x y : List Nat) : Bool := x.any (fun i => y.contains i)

/-- Two claims share a resource. -/
def shares (x y : Ledger) : Bool :=
  Nat.land x.tiles y.tiles != 0 || Nat.land x.slvs y.slvs != 0 || Nat.land x.ues y.ues != 0 || meets x.groups y.groups
    || meets x.ports y.ports

/-- Every logical unit of the package. -/
def allTiles : Nat := 2 ^ 128 - 1
def allSlvs : Nat := 2 ^ 16 - 1
def allUes : Nat := 2 ^ 8 - 1

/-! Windows of the armed den policy (R366, R367): one recurring entry -/

def polBase (b : List Byte) : Nat := field b 16 8
def polPeriod (b : List Byte) : Nat := field b 24 8
def polWindow (b : List Byte) : Nat := field b 32 4

/-- The first window from number n on that is neither released nor withdrawn. -/
def heldWindow (d : Den) : Nat → Nat → Option Nat
  | 0, _ => none
  | f + 1, n =>
    if d.released.contains n then heldWindow d f (n + 1) else some n

/-- The end of a den window that overlaps [a, b). -/
def denBusy (d : Den) (a b : Nat) : Option Nat :=
  match d.pol with
  | none => none
  | some r =>
    let n := max d.from_ (if a < polBase r + polWindow r then 0 else (a - polBase r - polWindow r) / polPeriod r + 1)
    match heldWindow d (d.released.length + 1) n with
    | none => none
    | some k => let s := polBase r + k * polPeriod r; if s < b then some (s + polWindow r) else none

/-- A claim that holds units, which every den window claims. -/
def holdsUnits (e : Ledger) : Bool := e.tiles != 0 || e.slvs != 0 || e.ues != 0

def maxOpt : List Nat → Option Nat
  | [] => none
  | a :: r => some (r.foldl max a)

/-- The latest end among the entries that hold a claimed resource somewhere in [a, b). -/
def busyUntil (p : Pkg) (es : List Ledger) (a b : Nat) (e : Ledger) : Option Nat :=
  let ends := (es.filter (fun x => overlaps a b x && shares x e)).map (fun x => x.stop)
  match (if holdsUnits e then denBusy p.den a b else none) with
  | none => maxOpt ends
  | some s => maxOpt (s :: ends)

/-- 32 × RES of partition 0, in bytes per tick (R244). -/
def hbmCap (p : Pkg) : Nat := 32 * rfld p (rMemPartA 0) 9 0

/-- Where in [a, b) the HBM_RES sum is exceeded: the end of an entry active there. -/
def hbmUntil (p : Pkg) (a b hbm : Nat) : Option Nat :=
  let pts := a :: (p.ledger.filter (fun e => decide (a < e.start) && decide (e.start < b))).map (fun e => e.start)
  (sortNat pts).findSome? (fun t =>
    let act := p.ledger.filter (fun e => decide (e.start ≤ t) && decide (t < e.stop) && decide (0 < e.hbm))
    if hbmCap p < hbm + act.foldl (fun s e => s + e.hbm) 0 then some (act.foldl (fun m e => min m e.stop) (2 ^ 80)) else none)

/-- The time check of R273 on [a, b): none when it fits, else a start that may. -/
def blocked (p : Pkg) (a b : Nat) (e : Ledger) : Option Nat :=
  match busyUntil p p.ledger a b e with
  | some s => some s
  | none => hbmUntil p a b e.hbm

/-- What a launch or a restore asks of admission; `det` is a DSR that does not match, `bad` the number of further structural checks
of R273 that it fails by itself. -/
structure Ask where
  L : Nat
  D : Nat
  prep : Nat
  wc : Nat
  claim : Ledger
  det : Bool
  bad : Nat
  deriving DecidableEq, Repr

inductive Answer where
  | accept
  | refuse (status : Nat) (dprime : Nat)
  deriving DecidableEq, Repr

/-- The tick by which the stacks are out of self-refresh on what is known now (R256, R426): 0 when they are awake, the end of an
exit under way, or the earliest exit that an entry of the ledger begins. -/
def awakeAt (p : Pkg) : Nat :=
  if !rbit p rMemStatus 2 then 0
  else
    let w := p.ledger.foldl (fun m e => min m (e.start + 2500)) (2 ^ 80)
    let w := match p.den.pol with
      | none => w
      | some r => min w (polBase r + p.den.from_ * polPeriod r + 2500)
    match p.pins.wake with
    | none => w
    | some g => min w g

/-- X of R272: the stacks will be in self-refresh at L − PREP. -/
def selfRefresh (p : Pkg) (l prep : Nat) : Nat := if l - prep < awakeAt p then 2500 else 0

/-- The least multiple of 5, L′, for which L′ − PREP − X lies at or after a tick. -/
def leastL (p : Pkg) (prep t : Nat) : Nat :=
  let up (n : Nat) := cdiv n 5 * 5
  if awakeAt p + prep ≤ up (t + prep) then up (t + prep) else min (up (t + prep + 2500)) (up (awakeAt p + prep))

/-- R274: the search for L′. -/
def searchL (p : Pkg) (e : Ledger) (prep wc bound : Nat) : Nat → Nat → Nat
  | 0, _ => 2 ^ 64 - 1
  | f + 1, l =>
    if bound < l then 2 ^ 64 - 1
    else match blocked p (l - prep - selfRefresh p l prep) (l + wc) e with
    | none => l + wc
    | some s => searchL p e prep wc bound f (max (leastL p prep s) (cdiv (l + 1) 5 * 5))

/-- The interval that an accepted request holds. -/
def Ask.entry (p : Pkg) (a : Ask) : Ledger :=
  { a.claim with start := a.L - a.prep - selfRefresh p a.L a.prep, stop := a.L + a.wc }

/-- Entries in use: those whose interval has not ended, and the den's recurring one. -/
def ledgerUsed (p : Pkg) (c : Clock) : Nat := p.ledger.countP (fun e => decide (c.gsc < e.stop)) + b2n p.den.pol.isSome

/-- Expired entries leave the ledger. -/
def prune (p : Pkg) (c : Clock) : Pkg :=
  { p with ledger := p.ledger.filter (fun e => decide (c.gsc < e.stop)),
           active := (p.ledger.filter (fun e => decide (e.stop ≤ c.gsc))).foldl (fun m e => max m e.stop) p.active }

/-- The structural checks of R273 that fail, by their codes, the lowest first. -/
def structural (p : Pkg) (c : Clock) (a : Ask) : List Nat :=
  (if a.det then [0x11] else [])
    ++ List.replicate (a.bad + b2n (a.L % 5 != 0) + b2n (decide (2048 ≤ ledgerUsed p c)) + b2n (decide (hbmCap p < a.claim.hbm))) 0x12

/-- R273 and R274; `arr` is the tick of arrival at the admission unit. While REFCLK is absent every answer is
REFUSED_RESOURCE (R442). -/
def admission (p : Pkg) (c : Clock) (arr : Nat) (a : Ask) : Answer :=
  let p := prune p c
  let e := a.entry p
  if p.pins.refLost then .refuse 0x12 0
  else match structural p c a with
    | st :: _ => .refuse st 0
    | [] =>
      if a.L < arr + 500 + a.prep + selfRefresh p a.L a.prep ∨ a.D < a.L + a.wc ∨ (blocked p e.start e.stop e).isSome then
        let fuel := 2 * p.ledger.length + 4 + (match p.den.pol with
          | none => 0
          | some r => p.den.released.length + 2 ^ 32 / max 1 (polPeriod r) + 1)
        .refuse 0x10 (searchL p e a.prep a.wc (a.L + 2 ^ 32) fuel (max (cdiv a.L 5 * 5) (leastL p a.prep (c.gsc + 500))))
      else .accept

/-- The DSR of the package (R258). -/
def ownDsr (p : Pkg) : List Byte := (List.range 4).flatMap (fun i => natLe 4 (rget p (rTimDsr i)))

/-- Logical SLV or UE in service. -/
def slvInService (p : Pkg) (s : Nat) : Bool := (serving p (slvCands s) s).isSome
def ueInService (p : Pkg) (u : Nat) : Bool := (serving p (ueCands u) u).isSome

/-- What a launch of a plan asks (R260, R272, R273, R327). -/
def launchAsk (p : Pkg) (plan L D : Nat) (multi : Bool) : Ask :=
  match findPlan p plan with
  | none =>
    { L := L, D := D, prep := 0, wc := 0, det := false, bad := 1,
      claim := { who := .launch 0, start := 0, stop := 0, tiles := 0, slvs := 0, ues := 0 } }
  | some pl =>
    let tiles := planFld p pl 0x30 16
    let slvs := planFld p pl 0x40 2
    let ues := planFld p pl 0x42 1
    let ports := planPorts p plan
    { L := L, D := D, prep := planFld p pl 0x54 4, wc := wcOf p pl,
      det := decide (mread p.mem (pl.base + 0x20) 16 ≠ ownDsr p),
      bad := b2n (wcOf p pl == 0)
        + b2n ((bitList 128 tiles).any (fun t => !tileInService p t) || (bitList 16 slvs).any (fun s => !slvInService p s)
            || (bitList 8 ues).any (fun u => !ueInService p u))
        + b2n (multi && !rbit p rTimStatus 0) + b2n (ports.any (fun q => !portUp p q)),
      claim := { who := .launch 0, start := 0, stop := 0, tiles := tiles, slvs := slvs, ues := ues,
                 hbm := planFld p pl 0x44 4, groups := planGroups p plan, ports := ports } }

/-! Placements (R278, R456) -/

/-- The claim of a placement over its interval. -/
def Placed.claim (x : Placed) (start : Nat) : Ledger :=
  { who := if x.kind < 0x20 then .test x.id else .spare x.id, start := start, stop := start + x.dur, tiles := x.tiles,
    slvs := x.slvs, ues := x.ues, groups := x.groups, ports := x.ports }

/-- What a placement must avoid: the ledger, and earlier placements; a spare action displaces those of tests. -/
def Placed.rivals (p : Pkg) (x : Placed) : List Ledger :=
  p.ledger ++ (p.placed.filter (fun y => y.id != x.id && !y.started && (decide (x.kind < 0x20) || decide (0x20 ≤ y.kind)))).map
    (fun y => y.claim y.start)

/-- The earliest gap. -/
def gapSearch (p : Pkg) (x : Placed) : Nat → Nat → Option Nat
  | 0, _ => none
  | f + 1, a =>
    if x.deadline < a + x.dur then none
    else match busyUntil p (x.rivals p) a (a + x.dur) (x.claim a) with
    | none => some a
    | some s => gapSearch p x f (max s (a + 1))

def gapFor (p : Pkg) (c : Clock) (x : Placed) : Option Nat :=
  let fuel := 2 * (p.ledger.length + p.placed.length) + 4 + (match p.den.pol with
    | none => 0
    | some r => p.den.released.length + x.deadline / max 1 (polPeriod r) + 1)
  gapSearch p x fuel (max (x.req + 500) c.gsc)

/-- `HLT.STATUS.SWAPPEND` (R456). -/
def syncSwapPend (p : Pkg) : Pkg := rsetb p rHltStatus 3 (p.placed.any (fun y => decide (0x20 ≤ y.kind)))

/-- The monitor's reply to a self-test (R484). -/
def monLine (p : Pkg) (l : List Byte) : Pkg :=
  if p.pins.txReleased then p else { p with pins := { p.pins with monOut := p.pins.monOut ++ [l] } }

def asciiHex (n : Nat) : Byte := BitVec.ofNat 8 (if n < 10 then 0x30 + n else 0x37 + n)
/-- A number in d hexadecimal digits. -/
def hexDigits (d n : Nat) : List Byte := ((List.range d).map (fun i => asciiHex (n / 16 ^ i % 16))).reverse
/-- `OK`. -/
def okBytes : List Byte := [0x4F#8, 0x4B#8]

/-- The answer to whoever asked for a placed test: the completion entry, or the monitor's line. -/
def answerTest (p : Pkg) (c : Clock) (x : Placed) (status aux : Nat) : Pkg :=
  let p := if x.mon then monLine p (okBytes ++ [0x20#8] ++ hexDigits 2 status) else p
  match x.op with
  | some o => complete p c o status 0#16 0 aux false
  | none => p

/-- A resource identifier (Table 19.2). -/
def resourceId (cls die unit sub : Nat) : Nat := cls * 2 ^ 56 + die * 2 ^ 48 + unit * 2 ^ 32 + sub

/-- DIE and UNIT of a resource of a class, by its number: stack, physical tile, SLV or UE, port, ECL port, keeper, laser input. -/
def dieUnit (cls n : Nat) : Nat × Nat :=
  if cls = 1 ∨ cls = 2 then (16 + n, 0) else if cls = 3 then (n / 32, n % 32) else if cls = 4 then (n / 4, n % 4)
  else if cls = 5 then (n / 2, n % 2) else if cls = 6 ∨ cls = 7 then (10 + n / 32, n) else if cls = 8 then (8 + n, n)
  else if cls = 9 then (8 + n / 4, n % 4) else if cls = 0xB then (10 + n / 4, n % 4) else (0xFF, 0)

def resOfUnit (cls n sub : Nat) : Nat := resourceId cls (dieUnit cls n).1 (dieUnit cls n).2 sub

/-- The trend class whose warning asks for a spare action, and the action's resource number (Table 19.3). -/
def actionRes (x : Placed) : Nat × Nat :=
  if x.kind = 0x20 ∨ x.kind = 0x23 then (3, x.unit) else if x.kind = 0x21 then (4, x.unit - 256)
  else if x.kind = 0x22 then (5, x.unit - 288) else if x.kind = 0x24 then (1, x.unit) else if x.kind = 0x25 then (1, x.unit / 32)
  else if x.kind = 0x26 then (0xB, x.unit) else if x.kind = 0x27 then (6, x.unit) else (9, x.unit)

/-- A placement without a gap (R278, R456): a host's request completes DEFERRED; firmware's goes to the log. -/
def deferPlaced (p : Pkg) (c : Clock) (x : Placed) : Pkg :=
  let p := { p with placed := p.placed.filter (fun y => y.id != x.id) }
  if x.kind < 0x20 then
    let p := answerTest (bump p rTimDefers) c x 0x08 0
    if x.op.isNone && !x.mon then event p c 0x0C 0xFF 0 x.unit else p
  else
    let (cls, n) := actionRes x
    let p := { p with health := { p.health with swaps := (cls, n) :: p.health.swaps.filter (fun e => e != (cls, n)) } }
    syncSwapPend (logEntry (bump p rHltSwapdefer) c 0x0106 (dieUnit cls n).1 0 (resOfUnit cls n 0) 0)

/-- Places or places again. -/
def placeOne (p : Pkg) (c : Clock) (x : Placed) : Pkg :=
  match gapFor p c x with
  | none => deferPlaced p c x
  | some s => { p with placed := p.placed.map (fun y => if y.id = x.id then { y with start := s } else y) }

/-- Placements that a new entry overlaps on a shared resource are placed again (R278). -/
def displace (p : Pkg) (c : Clock) (e : Ledger) (spareToo : Bool) : Pkg :=
  let hit := p.placed.filter (fun y => !y.started && (spareToo || decide (y.kind < 0x20)) && overlaps e.start e.stop (y.claim y.start)
    && shares e (y.claim y.start))
  hit.foldl (fun q y => placeOne q c y) p

/-- A new request for a placement. -/
def requestPlaced (p : Pkg) (c : Clock) (x : Placed) : Pkg :=
  let x := { x with id := p.nextPlaced, req := c.gsc }
  let p := placeOne { p with placed := p.placed ++ [x], nextPlaced := p.nextPlaced + 1 } c x
  let p := match p.placed.find? (fun y => y.id == x.id) with
    | some y => if 0x20 ≤ y.kind then displace p c (y.claim y.start) false else p
    | none => p
  syncSwapPend p

/-- An accepted entry enters the ledger and displaces what is only placed. -/
def enterLedger (p : Pkg) (c : Clock) (e : Ledger) : Pkg :=
  displace { prune p c with ledger := (prune p c).ledger ++ [e] } c e true

def freeLedger (p : Pkg) (w : Claimant) : Pkg := { p with ledger := p.ledger.filter (fun e => e.who != w) }

/-! The end of a launch (R10, R37, R45, R69, R276) -/

/-- The units of a launch that is over: its tiles run nothing and their clocks stop, as do those of its SLVs and UEs. -/
def releaseUnits (p : Pkg) (l : Launch) : Pkg :=
  let p := (bitList 128 l.tiles).foldl (fun q t =>
    let x := tile q t
    if x.launch = some l.id then
      setTile q t { x with launch := none, running := false, stopped := true, clocks := 0, infl := [],
                           mxq := [], scq := [], dmq := [], syq := [] }
    else q) p
  let p := (bitList 16 l.slvs).foldl (fun q s => rsetb q (sReg q s) 2 true) p
  (bitList 8 l.ues).foldl (fun q u => rsetb q (uReg q u) 2 true) p

/-- Status codes, one a byte, eight to a log entry; `n` bounds the entries. -/
def packCodes : Nat → List Nat → List Nat
  | 0, _ => []
  | n + 1, l => if l.isEmpty then [] else leNat ((l.take 8).map (fun s => BitVec.ofNat 8 s)) :: packCodes n (l.drop 8)

/-- The conditions of an operation beyond the one that its completion carries go to the log (R10, Table 19.5). -/
def noteFurther (p : Pkg) (c : Clock) (l status : Nat) (codes : List Nat) : Pkg :=
  (packCodes codes.length codes).foldl (fun q d => logEntry q c 0x0102 0xFF status l d) p

/-- Bytes of a range become undefined: free bytes (R9, R46). -/
def freeRange (p : Pkg) (r : Nat × Nat) : Pkg :=
  { p with mem := mwrite p.mem r.1 ((List.range r.2).map (fun i => Config.freeByte p.fv (r.1 + i))) }

/-- What becomes undefined when a started launch ends: what it has written when it failed (R9), the scratchpad slices and comb
memories of its tiles when it was cancelled (R46). -/
def undefinedOf (l : Launch) (status : Nat) : List (Nat × Nat) :=
  if !l.running then []
  else if 0x20 ≤ status ∧ status < 0x30 then l.outs
  else if status = 0x3F then (bitList 128 l.tiles).flatMap (fun t => [(sliceBase t, 0x1E00000), (combBase t, 0x800000)])
  else []

def scramble (p : Pkg) (l : Launch) (status : Nat) : Pkg :=
  let q := (undefinedOf l status).foldl freeRange p
  { q with fv := q.fv + b2n (!(undefinedOf l status).isEmpty) }

/-- A failure goes to the log, with every condition beyond the one reported (R10, Table 19.5). -/
def noteFailure (p : Pkg) (c : Clock) (l : Launch) (status : Nat) : Pkg :=
  let more := ((l.causes ++ l.told).map (fun e => e.2)).erase status
  if status < 0x20 then p
  else if more.isEmpty ∧ status < 0x30 then logEntry p c 0x0102 0xFF status l.L 0
  else noteFurther p c l.L status more

/-- How the last launch ended matters to the next cut (R370). -/
def noteEnd (p : Pkg) (l : Launch) (status : Nat) : Pkg :=
  if l.restore then p
  else { p with den := { p.den with lastBad := decide (0x20 ≤ status) && (decide (status < 0x30) || status == 0x3F) } }

/-- AUX of the completion entry (Table 16.5). -/
def Launch.aux (l : Launch) : Nat := if l.restore then l.found % 2 ^ 32 else popcount 128 l.tiles

/-- The launch's swarm and waggle operations end, the unfinished ones as failures; what came for them is forgotten. -/
def dropSwops (p : Pkg) (l : Launch) : Pkg :=
  let p := (p.swops.filter (fun o => o.launch == l.id && !o.closed)).foldl (fun q o => loseSw q o.id) p
  let mine (i : Ident) := decide (i.opc < 0xD) && i.llo == l.L % 2 ^ 32 && (planGroups p l.plan).contains i.group
  { p with swops := p.swops.filter (fun o => o.launch != l.id), swIn := p.swIn.filter (fun k => !mine k.ident),
           wg := p.wg.filter (fun v => !mine v.ident) }

/-- The launch or restore completes with a status. -/
def endLaunch (p : Pkg) (c : Clock) (l : Launch) (status : Nat) : Pkg :=
  let p := { p with active := c.gsc }
  let busy := p.jobs.any (fun j => j.launch == l.id && !j.closed)
  let p := dropSwops (scramble (releaseUnits p l) l status) l
  let p := { p with launches := if busy then p.launches.map (fun y => if y.id = l.id then { y with closed := true, running := false } else y)
                                else p.launches.filter (fun y => y.id != l.id) }
  let p := noteFailure (noteEnd (if l.restore then rsetb p rDenStatus 3 false else p) l status) c l status
  complete p c l.op status l.flags 0 l.aux false

/-- The status of a launch that fails (R10, R37, R283): its own causes and those that notices told of, the first of them. -/
def failStatus (l : Launch) : Nat :=
  match firstCause (l.causes ++ l.told) with
  | some (_, s) => s
  | none => 0x20

/-- The status that a launch has earned. -/
def doneStatus (l : Launch) : Nat :=
  if l.causes ≠ [] then failStatus l
  else if l.notConv then 0x02 else if Nat.land l.flags.toNat l.rmask ≠ 0 then 0x01 else 0x00

end Sys2Proof.Machine
end

