-- ==== Sys2Proof/Machine/Waggle.lean ====
section
/-! DEFINITION. Sending: the owl sampler, routes, answers (13_routing_and_machine R318 to R320, R336, R337; 12 R300); groups
and members (14_collectives R340 to R342); the waggle path (R358 to R364). -/

namespace Sys2Proof.Machine

/-! The owl sampler (R336, R337) -/

/-- The filter of R336. -/
def owlMatch (p : Pkg) (h : Hdr) : Bool :=
  let ft := rget p rFabOwlft
  let fp := rget p rFabOwlfp
  let fm := rget p rFabOwlfm % 2 ^ 18
  let place := if bit fp 31 then placeOf h.daddr else h.src
  Nat.land h.ty (bits ft 15 8) == Nat.land (bits ft 7 0) (bits ft 15 8) && Nat.land place fm == Nat.land (fp % 2 ^ 18) fm

/-- Writes a record into the ring, in partition 6 (Table 10.3), or counts a drop. -/
def owlRecord (p : Pkg) (c : Clock) (port : Nat) (tx counted filtered : Bool) (hdr : List Byte) : Pkg :=
  let size := 2 ^ rfld p rFabOwlsize 4 0
  let w := rget p rFabOwlwr % size
  let w' := (w + 1) % size
  if rget p rFabOwlrd % 2 ^ 24 = w' then bump p rFabOwldrop
  else
    let base := rget p rFabOwlbaseLo + rget p rFabOwlbaseHi * 2 ^ 32
    let r := hdr.take 64 ++ natLe 8 c.gsc ++ natLe 1 port ++ natLe 1 (b2n tx + 2 * b2n counted + 4 * b2n filtered)
      ++ List.replicate 54 0#8
    let a := base + 128 * w
    rset (enqueueAll (storeBytes p a r) 6 (chargeWrites .owl [(a, 128)])) rFabOwlwr w'

/-- A header crosses a port. -/
def owl (p : Pkg) (c : Clock) (port : Nat) (tx : Bool) (bytes : List Byte) : Pkg :=
  let o := rget p (rFabOwlcfg port)
  if !bit o (if tx then 5 else 6) then p
  else
    let k := o % 32
    let q := sget p.ports port {}
    let counting := decide (4 ≤ k) && decide (k ≤ 20)
    let counted := counting && decide (2 ^ k - 1 ≤ q.owl)
    let p := if counting then { p with ports := sset p.ports port { q with owl := if counted then 0 else q.owl + 1 } } else p
    let filtered := bit o 7 && owlMatch p (parseHdr bytes)
    if counted || filtered then owlRecord p c port tx counted filtered bytes else p

/-! Routes and the wire (R318, R320) -/

/-- The port that the active route tables give for a place; management and time packets may use MGMT entries. -/
def route (p : Pkg) (dst ty : Nat) : Option Nat :=
  let bank := rfld p rFabStatus 1 1
  let e := if dst / 64 = ownPlace p / 64 then rget p (rInpod bank (dst % 64)) else rget p (rPodtab bank (dst / 64))
  if !bit e 8 || (bit e 9 && !(decide (0x30 ≤ ty) && decide (ty ≤ 0x3F))) then none else some (e % 128)

/-- A packet leaves on a port. -/
def transmit (p : Pkg) (c : Clock) (port : Nat) (bytes : List Byte) (hops : Nat) (poison : Bool := false) : Pkg :=
  let p := owl p c port true bytes
  { p with wire := p.wire ++ [{ port := port, bytes := bytes, hops := hops, tick := c.gsc, poison := poison }] }

/-- An answer, or a waggle or link-local packet, waits for answer space on the port that the tables give (R300, R362). -/
def queueAnswer (p : Pkg) (c : Clock) (bytes : List Byte) : Pkg :=
  let h := parseHdr bytes
  match route p (placeOf h.daddr) h.ty with
  | none => bump p rFabNoroute
  | some q => { p with answers := p.answers ++ [{ port := q, bytes := bytes, hops := 0, tick := c.gsc }] }

def isWaggle (ty : Nat) : Bool := ty == 0x23 || ty == 0x24

/-- The start of a frame's count on a port: L of the launch that holds it, else 0 (R301). -/
def portBase (p : Pkg) (q : Nat) : Nat :=
  ((p.launches.find? (fun l => l.running && !l.closed && l.ports.contains q)).map (fun l => l.L)).getD 0

/-- The tick at which the current slot of a port began. -/
def slotStart (p : Pkg) (c : Clock) (q : Nat) : Nat := let b := portBase p q; b + (c.gsc - b) / 16 * 16
/-- The current slot's number in its frame. -/
def slotNow (p : Pkg) (c : Clock) (q : Nat) : Nat := (c.gsc - portBase p q) / 16 % 256

/-- The port's account of its current slot: flits used for data, answer flits used. -/
def openSlot (p : Pkg) (c : Clock) (q : Nat) : Pkg :=
  let x := sget p.ports q {}
  let s := slotStart p c q
  if x.slot = s then p else { p with ports := sset p.ports q { x with slot := s, used := 0, ans := 0, wgSent := false } }

def isTime (ty : Nat) : Bool := ty == 0x30 || ty == 0x31

/-- Takes the answers that fit in what is left of a slot's 4 answer flits: one waggle packet a slot at most, and time exchanges only
where no waggle packet is due (R362). -/
def takeAnswers (q : Nat) (due : Bool) : Nat → Bool → List Wire → List Wire × List Wire × Nat
  | used, _, [] => ([], [], used)
  | used, wgDone, a :: r =>
    let ty := field a.bytes 0 1
    let n := if isWaggle ty then 2 else flitsOf a.bytes
    if a.port = q ∧ used + n ≤ 4 ∧ !(isWaggle ty && wgDone) ∧ !(isTime ty && due) then
      let (s, k, u) := takeAnswers q due (used + n) (wgDone || isWaggle ty) r
      (a :: s, k, u)
    else
      let (s, k, u) := takeAnswers q due used wgDone r
      (s, a :: k, u)

/-- The waggle order of R362: plan operations by GROUP and OFF, then launch-protocol traffic, then time exchanges; ACK and NAK
in the order they arise. -/
def answerRank (a : Wire) : Nat :=
  let ty := field a.bytes 0 1
  if isWaggle ty then
    (if field a.bytes 34 1 % 16 < 0xD ∨ field a.bytes 34 1 % 16 = 0xE then field a.bytes 32 2 * 2 ^ 32 + field a.bytes 40 4
     else 2 ^ 60)
  else if isTime ty then 2 ^ 61 else 0

def insertRank (a : Wire) : List Wire → List Wire
  | [] => [a]
  | b :: r => if answerRank a ≤ answerRank b then a :: b :: r else b :: insertRank a r

def byRank (l : List Wire) : List Wire := l.foldr insertRank []

/-- A stamp of the present instant, in 1/16 tick, modulo 2^63 (R267). -/
def stampNow (p : Pkg) (c : Clock) : Nat := (c.gsc * 16 + c.sub * 16 / tickUnits p) % 2 ^ 63

/-- A time packet takes the stamp of its departure as it leaves (R267): t1 of a probe is kept here, a reply carries t3 in OP1, where
bit 63 stays. -/
def stampOut (p : Pkg) (c : Clock) (a : Wire) : Pkg × Wire :=
  let ty := field a.bytes 0 1
  if ty = 0x30 then ({ p with time := { p.time with t1 := some (stampNow p c) } }, a)
  else if ty = 0x31 then
    (p, { a with bytes := reseal a.bytes 40 8 (stampNow p c + field a.bytes 40 8 / 2 ^ 63 * 2 ^ 63) })
  else (p, a)

/-- Answers leave in the current slot of a port, as far as its answer space goes (R300). -/
def sendAnswers (p : Pkg) (c : Clock) (q : Nat) : Pkg :=
  let p := openSlot p c q
  let x := sget p.ports q {}
  let due := p.answers.any (fun a => a.port == q && isWaggle (field a.bytes 0 1))
  let (sent, keep, used) := takeAnswers q due x.ans x.wgSent (byRank p.answers)
  let wg := x.wgSent || sent.any (fun a => isWaggle (field a.bytes 0 1))
  let p := { p with answers := keep, ports := sset p.ports q { x with ans := used, wgSent := wg } }
  sent.foldl (fun p a => let (p, a) := stampOut p c a; transmit p c q a.bytes a.hops a.poison) p

/-! Groups (R340, R341) -/

def gWord (p : Pkg) (g k : Nat) : Nat := rget p (rGroup g + 4 * k)
def gValid (p : Pkg) (g : Nat) : Bool := decide (g < 4096) && bit (gWord p g 2) 7
def gTwo (p : Pkg) (g : Nat) : Bool := bit (gWord p g 2) 0
def gBase (p : Pkg) (g : Nat) : Nat := gWord p g 0 % 2 ^ 17
def gNent (p : Pkg) (g : Nat) : Nat := gWord p g 1 % 2 ^ 18
def gNmem (p : Pkg) (g : Nat) : Nat := gWord p g 3
def gSelf (p : Pkg) (g : Nat) : Nat := gWord p g 4
def gWwc (p : Pkg) (g : Nat) : Nat := gWord p g 5 % 2 ^ 16
def gNpod (p : Pkg) (g : Nat) : Nat := gWord p g 5 / 2 ^ 16 % 2 ^ 13

/-- The places that a member entry names. -/
def entryPlaces (two : Bool) (e : Nat) : List Nat :=
  if two then (List.range (bits e 23 18 + 1)).map (fun i => bits e 17 6 * 64 + (bits e 5 0 + i)) else [bits e 17 0]

/-- The places of a group's members in index order. -/
def groupPlaces (p : Pkg) (g : Nat) : List Nat :=
  (List.range (gNent p g)).flatMap (fun i => entryPlaces (gTwo p g) (rget p (rMember (gBase p g + i))))

/-- The member index of a place. -/
def memberOf (p : Pkg) (g place : Nat) : Option Nat := (groupPlaces p g).findIdx? (fun x => x == place)
def placeOfMember (p : Pkg) (g m : Nat) : Nat := (groupPlaces p g).getD m 0

/-- The pods that hold members, with the lowest member index of each, in ascending order of it (R360). -/
def groupPods (p : Pkg) (g : Nat) : List (Nat × Nat) :=
  (groupPlaces p g).zipIdx.foldl (fun l e => if l.any (fun x => x.1 == e.1 / 64) then l else l ++ [(e.1 / 64, e.2)]) []

/-- R317: the node that holds pod a's end of the link to pod b. -/
def gatewayPlace (a b : Nat) : Nat := a * 64 + (b + 4096 - a - 1) % 4096 % 64

/-! Combining (R350) -/

/-- Formats by DT of Table 14.5 in partial form: binary64, binary32, H16 decoded to binary32, int64. 4 stands for the int64 sum that
saturates, of a fixed-point DOT step (R175). -/
def partBytes (dt : Nat) : Nat := if dt = 0 ∨ dt = 3 ∨ dt = 4 then 8 else 4

/-- How a value of an identity is combined: the sums of engines saturate in int64 (R175, R364). -/
def sumDt (i : Ident) (dt : Nat) : Nat := if i.opc = 0xE ∧ dt = 3 then 4 else dt

/-- combine on one element: OPR 0 SUM, 1 MAX, 2 MIN, 3 AND, 4 OR, 5 XOR. -/
def combine1 (dt opr : Nat) (a b : W64) : R :=
  if dt = 4 then
    let s := a.toInt + b.toInt
    if s < -2 ^ 63 then (BitVec.ofInt 64 (-2 ^ 63), fSAT) else if 2 ^ 63 ≤ s then (BitVec.ofInt 64 (2 ^ 63 - 1), fSAT) else (BitVec.ofInt 64 s, 0#16)
  else if dt = 3 then
    (if opr = 0 then a + b
     else if opr = 1 then (if a.toInt ≥ b.toInt then a else b)
     else if opr = 2 then (if a.toInt ≤ b.toInt then a else b)
     else if opr = 3 then a &&& b else if opr = 4 then a ||| b else a ^^^ b, 0#16)
  else
    let f := if dt = 0 then Fmt.b64 else Fmt.b32
    if opr = 0 then fAdd f .rne a b else fMaxMin (opr == 1) f a b

/-- combine on byte strings of elements; flags are ORed. -/
def combineBytes (dt opr : Nat) (x y : List Byte × Nat) : List Byte × Nat :=
  let w := partBytes dt
  let el (l : List Byte) (i : Nat) : W64 := BitVec.ofNat 64 (field l (w * i) w)
  let rs := (List.range (x.1.length / w)).map (fun i => combine1 dt opr (el x.1 i) (el y.1 i))
  (rs.flatMap (fun r => natLe w r.1.toNat), rs.foldl (fun a r => Nat.lor a r.2.toNat) (Nat.lor x.2 y.2))

/-- A left fold with one combine per further value. -/
def foldBytes (dt opr : Nat) : List (List Byte × Nat) → Option (List Byte × Nat)
  | [] => none
  | a :: r => some (r.foldl (combineBytes dt opr) a)

/-! Swarm and waggle packets (Table 14.5) -/

structure SwHdr where
  ident : Ident
  opr : Nat
  dt : Nat
  chunk : Nat
  nelem : Nat
  frag : Nat
  hop : Nat
  fl : Nat := 0
  deriving DecidableEq, Repr

/-- Bytes 32 to 59. Bytes 54 and 55, which the table leaves reserved, carry the flag word of a relayed partial. -/
def swBytes (h : SwHdr) : List Byte :=
  natLe 2 h.ident.group ++ natLe 1 h.ident.opc ++ natLe 1 (h.opr + 16 * h.dt) ++ natLe 4 h.ident.llo ++ natLe 4 h.ident.off
    ++ natLe 4 h.chunk ++ natLe 4 h.nelem ++ natLe 1 h.frag ++ natLe 1 h.hop ++ natLe 2 h.fl ++ List.replicate 4 0#8

def parseSw (b : List Byte) : SwHdr :=
  { ident := { group := field b 32 2 % 4096, opc := field b 34 1 % 16, llo := field b 36 4, off := field b 40 4 },
    opr := field b 35 1 % 16, dt := field b 35 1 / 16, chunk := field b 44 4, nelem := field b 48 4, frag := field b 52 1 % 16,
    hop := field b 53 1, fl := field b 54 2 }

/-- A packet with swarm header bytes. -/
def mkSw (h : Hdr) (s : SwHdr) (payload : List Byte) : List Byte :=
  let b := (hdrBytes h).take 32 ++ swBytes s
  b ++ natLe 4 (crc32c (b ++ payload)).toNat ++ padFlit payload

/-- A waggle packet to a place: SEQ 0, not answered (R356). -/
def wgPacket (p : Pkg) (ty dst : Nat) (v : WgVal) (hop : Nat) : List Byte :=
  let payload := if ty = 0x23 then v.data else []
  mkSw { ty := ty, flags := 0, len := payload.length, seq := 0, daddr := dst * 2 ^ 46, src := ownPlace p, rctx := 0, sctx := 0,
         dso := 0, nreason := 0, aseq := 0, op0 := 0, op1 := 0 }
    { ident := v.ident, opr := v.opr, dt := v.dt, chunk := v.src, nelem := v.nelem, frag := 0, hop := hop, fl := v.fl } payload

/-- An outbound window allows a swarm or waggle packet to a place (R309): data as a store, a pull as a load, at offset 0, to which the
packet is addressed; the den's as class DEN, all others as class PLAN (log 129). -/
def swarmAllowed (p : Pkg) (dst : Nat) (pull den : Bool) : Bool :=
  windowOk p (dst * 2 ^ 46) 1 (if pull then 0 else 1) (if den then clsDen else clsPlan)

/-- L of a launch. -/
def launchTick (p : Pkg) (l : Nat) : Nat := ((findLaunch p l).map (fun y => y.L)).getD 0

/-- The identity of a job's waggle sum (R364). -/
def jobIdent (p : Pkg) (j : Job) : Ident :=
  { group := j.sparse.group, opc := 0xE, llo := launchTick p j.launch % 2 ^ 32, off := j.sparse.tick }

/-- A waggle packet that no window allows is not sent (R310): the tile that dispatched the operation stops, and what the den, the launch
protocol or a relay would have sent is an exception to keeper firmware. -/
def wgBarred (p : Pkg) (c : Clock) (i : Ident) : Pkg :=
  match p.swops.find? (fun o => o.ident == i && !o.closed && !o.failed),
      p.jobs.find? (fun j => j.sparse.waitSum && !j.closed && jobIdent p j == i) with
  | some o, _ => planFault (loseSw p o.id) c o.tile 0x0A 3 0 0
  | none, some j => jobFault p c j (if j.ue then 0 else (jobRecord p j).jstat) 0x0A
  | none, none => { p with excs := p.excs ++ [{ core := 192, subcause := 3, pc := 0 }] }

def sendWg (p : Pkg) (c : Clock) (ty dst : Nat) (v : WgVal) (hop : Nat) : Pkg :=
  if swarmAllowed p dst (ty == 0x24) (v.ident.opc == 0xD) then queueAnswer p c (wgPacket p ty dst v hop) else wgBarred p c v.ident

/-! The waggle path (R359, R360) -/

/-- Reductions among the waggle users: WREDUCE, the SLV and UE sums, the den's barrier; the others broadcast. -/
def isReduce (i : Ident) : Bool := i.opc == 3 || i.opc == 0xE || (i.opc == 0xD && i.off != 0)

/-- A value held, by hop class: members' values (hop 0), pod partials (hops 1, 2). -/
def wgFind (p : Pkg) (i : Ident) (part : Bool) (src : Nat) : Option WgVal :=
  p.wg.find? (fun v => v.ident == i && v.src == src && (v.hop != 0) == part)

/-- The value is held: one sender may broadcast several values under one identity (a commit, then a notice). -/
def wgHas (p : Pkg) (v : WgVal) : Bool :=
  p.wg.any (fun x => x.ident == v.ident && x.src == v.src && (x.hop != 0) == (v.hop != 0) && x.data == v.data)

def wgPut (p : Pkg) (v : WgVal) : Pkg := if wgHas p v then p else { p with wg := p.wg ++ [v] }

def myPod (p : Pkg) : Nat := ownPlace p / 64

/-- Members of the group in this pod: index and place. -/
def podMembers (p : Pkg) (g : Nat) : List (Nat × Nat) :=
  (groupPlaces p g).zipIdx.filterMap (fun e => if e.1 / 64 = myPod p then some (e.2, e.1) else none)

/-- Where the first phase goes from a place of the pod: the members of the pod and its gateways to the other pods. -/
def phaseOne (p : Pkg) (g : Nat) : List Nat :=
  sortNat ((podMembers p g).map (fun e => e.2)
    ++ (groupPods p g).filterMap (fun q => if q.1 = myPod p then none else some (gatewayPlace (myPod p) q.1)))

/-- The pod partial, once every value it folds is held: for a broadcast the one value that its source sent. -/
def podPartial (p : Pkg) (v : WgVal) : Option WgVal :=
  let ms := podMembers p v.ident.group
  if isReduce v.ident then
    let vals := ms.map (fun e => wgFind p v.ident false e.1)
    if ms.isEmpty || vals.any (fun o => o.isNone) then none
    else match foldBytes (sumDt v.ident v.dt) v.opr (vals.filterMap (fun o => o.map (fun x => (x.data, 0)))) with
      | none => none
      | some (d, fl) => some { v with src := (ms.headD (0, 0)).1, hop := 1, data := d, fl := fl }
  else if v.hop = 0 ∧ ms.any (fun e => e.1 == v.src) then some { v with hop := 1 } else none

/-- After a member's value: the partial is formed once and sent over the global links of this node. -/
def wgAdvance (p : Pkg) (c : Clock) (v : WgVal) : Pkg :=
  match podPartial p v with
  | none => p
  | some x =>
    if wgHas p x then p
    else
      let p := wgPut p x
      (groupPods p x.ident.group).foldl (fun q e =>
        if e.1 ≠ myPod q ∧ gatewayPlace (myPod q) e.1 = ownPlace q then sendWg q c 0x23 (gatewayPlace e.1 (myPod q)) x 1 else q) p

/-- This member's value enters the path. -/
def wgStart (p : Pkg) (c : Clock) (v : WgVal) : Pkg :=
  let p := wgPut p v
  let p := ((phaseOne p v.ident.group).filter (fun d => d != ownPlace p)).foldl (fun q d => sendWg q c 0x23 d v 0) p
  wgAdvance p c v

/-- A value arrives: a member's value, a partial over a global link, which goes on to every member of the pod, or a relayed one. -/
def wgArrive (p : Pkg) (c : Clock) (v : WgVal) : Pkg :=
  let p := wgPut p v
  if v.hop = 0 then wgAdvance p c v
  else if v.hop = 1 then
    ((podMembers p v.ident.group).filter (fun e => e.2 != ownPlace p)).foldl (fun q e => sendWg q c 0x23 e.2 v 2) p
  else p

/-- The result on this member: the partials folded in the order of R360, or the source's value. -/
def wgResult (p : Pkg) (i : Ident) (dt opr : Nat) : Option (List Byte × Nat) :=
  if isReduce i then
    let vals := (groupPods p i.group).map (fun e => wgFind p i true e.2)
    if vals.any (fun o => o.isNone) then none
    else foldBytes (sumDt i dt) opr (vals.filterMap (fun o => o.map (fun x => (x.data, x.fl))))
  else (p.wg.find? (fun x => x.ident == i)).map (fun x => (x.data, 0))

/-! The launch protocol's and the den's broadcasts (R364, R368) -/

/-- A launch's identity on the wire: OPC 0xF, OFF 0. -/
def launchIdent (group L : Nat) : Ident := { group := group, opc := 0xF, llo := L % 2 ^ 32, off := 0 }

/-- A broadcast of bytes from this member. -/
def wgBroadcast (p : Pkg) (c : Clock) (i : Ident) (data : List Byte) : Pkg :=
  wgStart p c { ident := i, opr := 0, dt := 3, nelem := data.length / 8, src := gSelf p i.group, hop := 0, data := data, fl := 0 }

/-- The abandonment notice of R283: status and member index. A commit is the same 8 bytes with status 0. -/
def noticeBytes (status member : Nat) : List Byte := natLe 1 status ++ List.replicate 3 0#8 ++ natLe 4 member

/-- Every launch that ends: a committed launch of several members that fails sends its notice (R283). -/
def finishLaunch (p : Pkg) (c : Clock) (l : Launch) (status : Nat) : Pkg :=
  let p := if l.multi && decide (0x20 ≤ status) && (l.committed || status == 0x24) then
      wgBroadcast p c (launchIdent l.group l.L) (noticeBytes status l.member) else p
  endLaunch p c l status

end Sys2Proof.Machine
end

