-- ==== Sys2Proof/Machine/Shards.lean ====
section
/-! DEFINITION. Shards and commit records (15_checkpoint R376 to R382): layouts, which slot is chosen, what a restore finds. -/

namespace Sys2Proof.Machine

/-- A commit copy is intact (R380): MAGIC, VERSION, CRC with byte 7 taken as zero, JOB. -/
def commitIntact (b : List Byte) (job : Nat) : Bool :=
  decide (b.length = 64) && field b 0 4 == 0x544D4D43 && field b 4 2 == 1 && field b 8 8 == job
  && field b 60 4 == (crc32c (putField (b.take 60) 7 1 0)).toNat

/-- The commit record of Table 15.5. -/
def commitRecord (slot copy job step cn shard n : Nat) : List Byte :=
  let b := natLe 4 0x544D4D43 ++ natLe 2 1 ++ natLe 1 slot ++ natLe 1 copy ++ natLe 8 job ++ natLe 8 step ++ natLe 8 cn
    ++ natLe 4 shard ++ natLe 4 n ++ List.replicate 20 0#8
  b ++ natLe 4 (crc32c (putField b 7 1 0)).toNat

/-- A slot is complete for a step (R381): its header has MAGIC and HCRC correct and names the job, the shard and the step. The
header bytes carry the extent table behind them. -/
def slotComplete (h : List Byte) (job shard step : Nat) : Bool :=
  let n := field h 6 2
  decide (256 + 32 * n ≤ h.length) && field h 0 4 == 0x44524853
  && field h 0xFC 4 == (crc32c (h.take 0xFC ++ (h.drop 256).take (32 * n))).toNat
  && field h 8 8 == job && field h 0x20 4 == shard && field h 0x10 8 == step

/-- R382: the slot that the commit copies choose. -/
def chooseSlot (job shard : Nat) (r : SlotReads) : Option Nat :=
  let hdr (s : Nat) := if s = 0 then r.hdrA else r.hdrB
  let step (b : List Byte) := field b 16 8
  let slot (b : List Byte) := field b 6 1 % 2
  match commitIntact r.commit0 job, commitIntact r.commit1 job with
  | false, false => none
  | true, false => some (slot r.commit0)
  | false, true => some (slot r.commit1)
  | true, true =>
    if slot r.commit0 = slot r.commit1 ∧ step r.commit0 = step r.commit1 then some (slot r.commit0)
    else
      let (hi, lo) := if step r.commit1 < step r.commit0 then (r.commit0, r.commit1) else (r.commit1, r.commit0)
      some (if slotComplete (hdr (slot hi)) job shard (step hi) then slot hi else slot lo)

/-- One extent (Table 15.4). -/
structure Extent where
  kind : Nat
  conv : Nat
  tile : Nat
  src : Nat
  len : Nat
  poff : Nat
  res : Nat := 0
  deriving DecidableEq, Repr

def parseExtent (b : List Byte) : Extent :=
  { kind := field b 0 1, conv := field b 1 1, tile := field b 2 2, src := field b 8 8, len := field b 16 8, poff := field b 24 8,
    res := field b 4 4 }

def extentBytes (e : Extent) : List Byte :=
  natLe 1 e.kind ++ natLe 1 e.conv ++ natLe 2 e.tile ++ natLe 4 0 ++ natLe 8 e.src ++ natLe 8 e.len ++ natLe 8 e.poff

/-- The ranges that R377 gives an extent. -/
def Extent.ok (e : Extent) : Bool :=
  decide (e.conv ≤ 2) && e.res == 0 && e.src % 64 == 0 && (e.conv == 0 || e.len % 4 == 0)
  && (if e.kind = 0 then e.tile == 0 && decide (e.src + e.len ≤ hbmUserEnd)
      else e.kind == 1 && decide (e.tile < 128) && decide (e.src + e.len ≤ 0x1E00000))

/-- Stored bytes of an extent (R378). -/
def Extent.stored (e : Extent) : Nat := if e.conv = 0 then e.len else e.len / 2

/-- The model address of an extent's source. -/
def Extent.addr (e : Extent) : Nat := if e.kind = 0 then e.src else sliceBase e.tile + e.src

/-- The extent table of a shard header. -/
def headerExtents (h : List Byte) : List Extent :=
  (List.range (field h 6 2)).map (fun i => parseExtent ((h.drop (256 + 32 * i)).take 32))

/-- The header, with its extent table, that was read for a slot. -/
def slotHeader (r : SlotReads) (s : Nat) : List Byte := if s = 0 then r.hdrA else r.hdrB

/-- What a member finds for a restore (R384): its slot and the step, when its shard is whole for it. Reserved bytes of an extent are
ignored (R6). -/
def restoreFind (rrec : List Byte) (m : Nat) (r : SlotReads) : Option (Nat × Nat) :=
  let job := field rrec 0 8
  let want := field rrec 16 8
  let hdr (s : Nat) := if s = 0 then r.hdrA else r.hdrB
  let good (s : Nat) : Option (Nat × Nat) :=
    let h := hdr s
    let step := if want = 0 then field h 0x10 8 else want
    if slotComplete h job m step && field h 0x24 4 == field rrec 8 4 && (headerExtents h).all (fun e => { e with res := 0 }.ok) then some (s, step) else none
  if want = 0 then (chooseSlot job m r).bind good
  else match good 0 with
    | some x => some x
    | none => good 1

end Sys2Proof.Machine
end

