-- ==== Sys2Proof/Machine/Launches.lean ====
section
/-! DEFINITION. The life of a launch (02_tiles R43 to R46, R489, R490; 05 R111 to R113) and the launch protocol
(11_determinism_and_time R279 to R283). -/

namespace Sys2Proof.Machine

/-! Preparation (R43, R113, R294, R489) -/

/-- Walks the tile records of a tile-streams section to the one of a tile: its offset from the section's start. -/
def findRecord (m : Mem) (sec t : Nat) : Nat → Nat → Option Nat
  | 0, _ => none
  | f + 1, o => if mnat m (sec + o) 2 = t then some o else findRecord m sec t f (o + cdiv (mnat m (sec + o + 4) 4) 64 * 64)

/-- The address of a tile's preload record in the plan store. -/
def tileRecord (p : Pkg) (plan t : Nat) : Option Nat :=
  match planSec p plan 1 with
  | none => none
  | some (sec, _) => (findRecord p.mem sec t (mnat p.mem sec 2) 64).map (fun o => sec + o)

/-- Address of a plan-area bank of a tile (R43). -/
def bankBase (t bank : Nat) : Nat := sliceBase t + 0x1E00000 + bank * 0x100000

/-- Position of a tile among those of a mask. -/
def rankIn (mask t : Nat) : Nat := popcount t mask

/-- The ring engine fills the inactive banks of a tile. -/
def fillBanks (p : Pkg) (plan mask t : Nat) : Pkg :=
  let b := 1 - (tile p t).bank
  let p := match tileRecord p plan t with
    | none => p
    | some r => storeBytes p (bankBase t b) (mread p.mem r (mnat p.mem (r + 4) 4))
  match planSec p plan 3 with
  | none => p
  | some (sec, _) =>
    let a := sec + 4096 * rankIn mask t
    modTile p t (fun x => (List.range 64).foldl (fun y i => y.setDesc b i (mread p.mem (a + 64 * i) 64)) x)

/-- A seed entry (Table 5.3): tile, words, DEST, GOV, address of the image. -/
structure Seed where
  t : Nat
  lenw : Nat
  dest : Nat
  gov : Nat
  img : Nat
  deriving DecidableEq, Repr

/-- The entries of a seeds section, back to back. -/
def readSeeds (m : Mem) (stop : Nat) : Nat → Nat → List Seed
  | 0, _ => []
  | f + 1, a =>
    if stop < a + 16 then []
    else
      let n := mnat m (a + 2) 2
      { t := mnat m a 2, lenw := n, dest := mnat m (a + 4) 4, gov := mnat m (a + 8) 4, img := a + 16 }
        :: readSeeds m stop f (a + 16 + 8 * n)

def planSeeds (p : Pkg) (plan : Nat) : List Seed :=
  match planSec p plan 7 with
  | none => []
  | some (sec, len) => readSeeds p.mem (sec + len) (len / 16) sec

/-- What seeding sets in a record image (R113, third step). -/
def freshRecord (epoch : Nat) (b : List Byte) : List Byte :=
  let f := field b 6 1
  let b := putField b 6 1 (Nat.land f 0x87 + 8)
  let b := putField b 8 4 0
  let b := putField b 32 16 0
  putField (putField b 48 8 epoch) 56 8 0

/-- Seeding of one tile: the governing records are read before anything is written. -/
def seedTile (p : Pkg) (plan t : Nat) : Pkg :=
  let ep := scaleEpoch p
  let es := ((planSeeds p plan).filter (fun e => e.t == t)).filter (fun e => mnat p.mem (sliceBase t + e.gov + 48) 8 != ep)
  let p := es.foldl (fun q e => storeBytes q (sliceBase t + e.dest) (mread q.mem e.img (8 * e.lenw))) p
  es.foldl (fun q e =>
    if e.dest = e.gov ∧ e.lenw = 8 then
      let a := sliceBase t + e.gov
      storeBytes q a (freshRecord ep (mread q.mem a 64))
    else q) p

/-- The lines that the preparation reads: the plan in the store, and the governing records. -/
def prepReads (p : Pkg) (l : Launch) : List (Nat × Nat) :=
  (match findPlan p l.plan with
   | some pl => [(pl.base, pl.len)]
   | none => [])
  ++ (planSeeds p l.plan).map (fun e => (sliceBase e.t + e.gov, 64))

/-- The plan's contexts take their peers (R294, R302). -/
def fillCtxs (p : Pkg) (plan : Nat) : Pkg :=
  (planCtxs p plan).foldl (fun q e => setCtx q e.1 { ctx q e.1 with peer := e.2.2, pctx := e.2.1 }) p

/-- `PREP_START` (R43): at L − PREP, with the stacks out of self-refresh (R256). Its reads take their tokens in partition 0 (Table
10.3). A restore fills nothing (R383). -/
def execPrepStart (l : Nat) (s : State) : Out :=
  run s (fun c p =>
    match findLaunch p l with
    | none => p
    | some y =>
      if y.prepped || y.closed || y.restore || y.refused.isSome || rbit p rMemStatus 2 || decide (c.gsc + y.prep < y.L) then p
      else
        let p := modLaunch p l (fun z => { z with prepped := true })
        let p := enqueueAll p 0 (chargeReads (.prep l) (prepReads p y))
        match firstBad p (prepReads p y) with
        | some b => addCause (noteUe p c b) c l 0x21
        | none =>
          let p := noteCes p (prepReads p y)
          let ts := bitList 128 y.tiles
          let p := ts.foldl (fun q t => fillBanks q y.plan y.tiles t) p
          let p := ts.foldl (fun q t => seedTile q y.plan t) p
          fillCtxs p y.plan)

/-! The start (R43, R211) -/

/-- The words of a queue in a tile record: n of them from an offset. -/
def recordWords (m : Mem) (a n : Nat) : List W128 := (List.range n).map (fun i => BitVec.ofNat 128 (mnat m (a + 16 * i) 16))

/-- One tile starts: banks switch, tokens clear, queues take their initial contents, the forager starts at its entry. -/
def startTile (p : Pkg) (l : Launch) (t : Nat) : Pkg :=
  let x := tile p t
  let b := 1 - x.bank
  let r := bankBase t b
  let m := p.mem
  let codeLen := mnat m (r + 12) 4
  let q0 := r + 64 + cdiv codeLen 64 * 64
  let n (k : Nat) := mnat m (r + 16 + 2 * k) 2
  let has := (tileRecord p l.plan t).isSome
  let q (k : Nat) : List W128 :=
    if has then recordWords m (q0 + 16 * ((List.range k).map n).foldl (fun a b => a + b) 0) (n k) else []
  let p := setTile p t { x with
    mxq := q 0, scq := q 1, dmq := q 2, syq := q 3, toks := [], bank := b, infl := [], launch := some l.id, start := l.L,
    running := true, stopped := false, ended := false, clocks := 0, wact := none, wshadow := none, actUse := 0, shadUse := 0,
    passFree := 0, loadRet := 0, combRet := [], passRet := [], qfree := [], scFree := 0 }
  let p := { p with cores := sset p.cores t {
    sched := true, pc := mnat m (r + 8) 4, codeAt := r, codeLen := codeLen } }
  let g := tReg p t
  rsetf (rsetb p g 2 false) (g + 0x14) 15 8 0

/-- `LAUNCH_START` (R43): at tick L, once PREP has run and, for several members, the commit is held. A launch whose preparation
failed completes here instead. -/
def execLaunchStart (l : Nat) (s : State) : Out :=
  run s (fun c p =>
    match findLaunch p l with
    | none => p
    | some y =>
      if !y.prepped || y.running || y.closed || y.restore || (y.multi && !y.committed) || decide (c.gsc < y.L) then p
      else if y.causes != [] then finishLaunch p c y (doneStatus y)
      else
        let p := modLaunch p l (fun z => { z with
          running := true, ports := planPorts p y.plan, bases := (planCtxs p y.plan).map (fun e => (e.1, (ctx p e.1).txseq)) })
        let p := (planPorts p y.plan).foldl (fun q k => { q with ports := sset q.ports k { sget q.ports k {} with ran := 0 } }) p
        let p := (planEntries p y.plan).foldl (fun q k => { q with ports := sset q.ports k { sget q.ports k {} with transit := [] } }) p
        (bitList 128 y.tiles).foldl (fun q t => startTile q y t) p)

/-! The end (R45 to R47, R276, R401) -/

/-- A tile of the launch has nothing left to do: it has retired `SY.END`, or has stopped with nothing in flight. -/
def tileSettled (p : Pkg) (id t : Nat) : Bool :=
  let x := tile p t
  x.launch != some id || x.ended || (x.stopped && x.infl.isEmpty)

def tileEnded (p : Pkg) (id t : Nat) : Bool := let x := tile p t; x.launch == some id && x.ended

/-- A launch that could not end fails, with FAILED_HARDWARE when no cause is recorded (R37). -/
def overdueStatus (y : Launch) (whole : Bool) : Nat := if whole then doneStatus y else failStatus y

/-- `LAUNCH_COMPLETE_TICK` (R401): at L + WC for a launch that has done its work; tiles that have not retired `SY.END` by then
overrun the plan (R47). A failed or cancelled launch completes once its tiles and its dispatched work are at rest. -/
def execLaunchCompleteTick (l : Nat) (s : State) : Out :=
  run s (fun c p =>
    match findLaunch p l with
    | none => p
    | some y =>
      let ts := bitList 128 y.tiles
      if !y.running || y.closed || y.restore then p
      else if y.L + y.wc ≤ c.gsc then
        let p := ts.foldl (fun q t =>
          let x := tile q t
          if x.launch = some l ∧ !x.ended ∧ !x.stopped then planFault q c t 0x04 0 0 0 else q) p
        match findLaunch p l with
        | none => p
        | some z => finishLaunch p c z (overdueStatus z (decide (z.work = 0) && ts.all (tileEnded p l)))
      else if y.causes != [] && decide (y.work = 0) && ts.all (tileSettled p l) then finishLaunch p c y (doneStatus y)
      else p)

/-! Sending for the ring engine, the den and firmware (R294, R303) -/

/-- The context that firmware keeps towards a place: the lowest of 0 to 4,095 whose PEER it is. -/
def ctxFor (p : Pkg) (place : Nat) : Option Nat :=
  ((p.ctxs.filter (fun e => decide (e.1 < 4096) && e.2.peer == place)).map (fun e => e.1)).head?

/-- Forms a swarm packet on a context. -/
def sendSw (p : Pkg) (cx : Nat) (who : Who) (opn : Bool) (ty dst : Nat) (h : SwHdr) (payload : List Byte) : Pkg :=
  let x := ctx p cx
  let hd : Hdr := { ty := ty, flags := b2n opn, len := payload.length, seq := x.txseq, daddr := dst * 2 ^ 46, src := ownPlace p,
                    rctx := x.pctx, sctx := cx, dso := 0, nreason := 0, aseq := 0, op0 := 0, op1 := 0 }
  { setCtx p cx { x with txseq := (x.txseq + 1) % 2 ^ 32 } with
    outs := p.outs ++ [{ ctx := cx, seq := x.txseq, bytes := mkSw hd h payload, who := who, opn := opn }] }

/-- A chunk's tail (R352, R356): the CRC-64 of the bytes that its producer formed, the flag word. -/
def tailBytes (formed : List Byte) (fl : Nat) : List Byte := natLe 8 (crc64 formed).toNat ++ natLe 2 fl ++ List.replicate 6 0#8

/-- Sends a chunk as fragments and a tail; `formed` is what its CRC-64 was computed over. -/
def sendChunk (p : Pkg) (cx : Nat) (who : Who) (opn : Bool) (dst : Nat) (h : SwHdr) (d : List Byte × Nat)
    (formed : List Byte := d.1) : Pkg :=
  let n := cdiv d.1.length 4096
  let p := (List.range n).foldl (fun q i => sendSw q cx who opn 0x20 dst { h with frag := i } ((d.1.drop (4096 * i)).take 4096)) p
  sendSw p cx who opn 0x21 dst { h with frag := 0 } (tailBytes formed d.2)

/-! Reads by the den (R303, R309, R381, R384, R386) -/

/-- Target k of a policy record: 0 SLOTA, 1 SLOTB, 2 COMMIT0, 3 COMMIT1; whether it is a host address, and the address. -/
def polTarget (b : List Byte) (k : Nat) : Bool × Nat := (bit (field b 104 1) k, field b (72 + 8 * k) 8)

/-- The restore record as a policy-like record: targets at 72 and TKIND at 104. -/
def restoreTargets (rrec : List Byte) : List Byte :=
  List.replicate 72 0#8 ++ (rrec.drop 24).take 32 ++ (rrec.drop 14).take 1 ++ List.replicate 151 0#8

/-- The pieces of a read: at most 4 KiB, none across a 4 KiB boundary (R292). -/
def readPieces : Nat → Nat → Nat → List (Nat × Nat)
  | 0, _, _ => []
  | f + 1, a, n => if n = 0 then [] else let k := min n (4096 - a % 4096); (a, k) :: readPieces f (a + k) (n - k)

def piecesOf (a n : Nat) : List (Nat × Nat) := readPieces (n / 4096 + 2) a n

/-- Keeper firmware takes the exception of a den access that no window allows (R310). -/
def denBarred (p : Pkg) : Pkg := { p with excs := p.excs ++ [{ core := 192, subcause := 3, pc := 0 }] }

/-- One piece of a read at the own place, in partition 2: its bytes, or none at an address that does not exist or a line that is
uncorrectable. -/
def denOwnRead (p : Pkg) (c : Clock) (a n : Nat) : Pkg × List Byte :=
  match srvLoad (enqueueAll p 2 (chargeReads .den [(a, n)])) c a n with
  | (p, .ok bs) => (p, bs)
  | (p, .error _) => (p, [])

/-- The den asks for one piece, unless it has: an open load of class DEN, which a window must allow. -/
def denAskPiece (c : Clock) (p : Pkg) (e : Nat × Nat) : Pkg :=
  let put (p : Pkg) (d : Option (List Byte)) : Pkg :=
    { p with den := { p.den with reads := p.den.reads ++ [{ addr := e.1, n := e.2, data := d }] } }
  if p.den.reads.any (fun r => r.addr == e.1 && r.n == e.2) then p
  else if !windowOk p e.1 e.2 0 clsDen then put (denBarred p) (some [])
  else if placeOf e.1 = ownPlace p then
    let (p, bs) := denOwnRead p c (localOf e.1) e.2
    put p (some bs)
  else match ctxFor p (placeOf e.1) with
    | none => put p (some [])
    | some cx => put (sendReq p cx .den true true { ty := 0x02, daddr := e.1, op0 := e.2 }) none

/-- A read of n bytes at a target: the target and the count. -/
abbrev DenAsk := (Bool × Nat) × Nat

/-- Asks for what of these reads has not been asked for. Host targets are read over ECL: the command brings what they returned. -/
def denAsk (p : Pkg) (c : Clock) (l : List DenAsk) : Pkg :=
  l.foldl (fun p x => if x.1.1 then p else (piecesOf x.1.2 x.2).foldl (denAskPiece c) p) p

/-- What a read returned: none while a piece is awaited, empty when one failed. -/
def denRead (p : Pkg) (x : DenAsk) (given : List Byte) : Option (List Byte) :=
  if x.1.1 then some given
  else
    let ps := (piecesOf x.1.2 x.2).map (fun e => (p.den.reads.find? (fun r => r.addr == e.1 && r.n == e.2)).bind (fun r => r.data))
    if ps.any (fun d => d.isNone) then none
    else
      let bs := (ps.filterMap id).flatten
      some (if bs.length = x.2 then bs else [])

/-- The reads are done with. -/
def denForget (p : Pkg) (l : List DenAsk) : Pkg :=
  let mine := l.flatMap (fun x => if x.1.1 then [] else piecesOf x.1.2 x.2)
  { p with den := { p.den with reads := p.den.reads.filter (fun r => !mine.contains (r.addr, r.n)) } }

/-- The reads of R381 and R384: commit copies, headers, and the headers with their extent tables as soon as the headers are in. -/
def slotAsks (p : Pkg) (b : List Byte) : List DenAsk :=
  let t (k : Nat) := polTarget b k
  [(t 2, 64), (t 3, 64), (t 0, 256), (t 1, 256)] ++ ([0, 1].filterMap (fun k =>
    (denRead p (t k, 256) []).map (fun h => (t k, 256 + 32 * field h 6 2))))

/-- Asks for the reads of a policy or restore record; own targets answer at once. -/
def askSlots (p : Pkg) (c : Clock) (b : List Byte) : Pkg :=
  let p := denAsk p c (slotAsks p b)
  denAsk p c (slotAsks p b)

/-- What they returned, once all have come. -/
def slotReads (p : Pkg) (b : List Byte) (rd : SlotReads) : Option SlotReads :=
  let t (k : Nat) := polTarget b k
  let hdr (k : Nat) (g : List Byte) : Option (List Byte) :=
    (denRead p (t k, 256) g).bind (fun h => denRead p (t k, 256 + 32 * field h 6 2) g)
  match denRead p (t 2, 64) rd.commit0, denRead p (t 3, 64) rd.commit1, hdr 0 rd.hdrA, hdr 1 rd.hdrB with
  | some a, some b, some x, some y => some { commit0 := a, commit1 := b, hdrA := x, hdrB := y }
  | _, _, _, _ => none

/-! The launch record (R279, R280, R364) -/

/-- The record of Table 11.4. -/
def launchRecord (L C D plan group root sobj resp nmem ring tag rmask : Nat) : List Byte :=
  let b := natLe 8 L ++ natLe 8 C ++ natLe 8 D ++ natLe 2 plan ++ natLe 2 group ++ natLe 4 root ++ natLe 8 sobj ++ natLe 8 resp
    ++ natLe 4 nmem ++ natLe 1 ring ++ natLe 1 0 ++ natLe 2 tag ++ natLe 2 rmask ++ natLe 2 0
  b ++ natLe 4 (crc32c b).toNat

/-- The record goes to this member's children in the tree rooted at member r, in open slots, where an outbound window allows it (R309).-/
def forwardRecord (p : Pkg) (group L r : Nat) (data : List Byte) : Pkg :=
  let n := gNmem p group
  let self := gSelf p group
  let pos := (self + n - r) % n
  let kids := ((List.range 8).map (fun k => 8 * pos + k + 1)).filter (fun q => decide (q < n))
  kids.foldl (fun p q =>
    let dst := placeOfMember p group ((q + r) % n)
    if !swarmAllowed p dst false false then p
    else match ctxFor p dst with
    | none => p
    | some cx => sendChunk p cx .firmware true dst
        { ident := launchIdent group L, opr := 0, dt := 3, chunk := 0, nelem := data.length / 8, frag := 0, hop := 0 } (data, 0)) p

/-- What a restore asks of admission (R383): every logical unit to D, PREP 2,500. -/
def restoreAsk (p : Pkg) (L D : Nat) (multi : Bool) : Ask :=
  { L := L, D := D, prep := 2500, wc := D - L, det := false, bad := b2n (multi && !rbit p rTimStatus 0),
    claim := { who := .launch 0, start := 0, stop := 0, tiles := allTiles, slvs := allSlvs, ues := allUes } }

/-- An operation that no descriptor of this package carries: a member's part (R282). None when its ring has no room. -/
def memberOp (p : Pkg) (c : Clock) (ring tag : Nat) : Option (Pkg × Nat) :=
  if !cqEn p ring || cqFree p ring = 0 || decide (2048 ≤ p.ops.length) then none
  else
    let o : Op := { id := p.nextOp, sq := 0, cq := ring, tag := tag, desc := [], arrival := c.gsc, begun := true, fromRing := false }
    let p := rset { p with ops := p.ops ++ [o], nextOp := p.nextOp + 1 } (rCq ring 0x14) (rfld p (rCq ring 0x14) 16 0 + 1)
    some (rset p rHifInflight p.ops.length, o.id)

/-- The response of a member to the root (R280): the store, then, once it is acknowledged, the fetch-add. -/
def respond (p : Pkg) (c : Clock) (rec : List Byte) (m code value : Nat) : Pkg :=
  let root := field rec 28 4 % 2 ^ 18
  let a := root * 2 ^ 46 + field rec 40 8 + 16 * m
  let so := root * 2 ^ 46 + field rec 32 8
  let bs := natLe 1 code ++ List.replicate 7 0#8 ++ natLe 8 value
  if !windowOk p a 16 1 clsPlan || !windowOk p so 8 2 clsPlan then p
  else if root = ownPlace p then
    match srvStore p c (localOf a) bs with
    | (p, .ok _) => addWord p (localOf so) 1
    | (p, .error _) => p
  else match ctxFor p root with
    | none => p
    | some cx =>
      let id := p.nextOp
      sendReq { p with nextOp := p.nextOp + 1, protos := sset p.protos id so } cx (.proto id) true true
        { ty := 0x01, daddr := a, payload := bs }

/-- The launch that an accepted record or descriptor makes. -/
def recordLaunch (id : Nat) (rec : List Byte) (root : Bool) (m : Nat) (a : Ask) : Launch :=
  { id := id, op := id, plan := field rec 24 2, L := a.L, C := field rec 8 8, D := a.D, prep := a.prep, wc := a.wc,
    tiles := a.claim.tiles, slvs := a.claim.slvs, ues := a.claim.ues, rmask := field rec 56 2, multi := true, root := root,
    group := field rec 26 2 % 4096, nmem := field rec 48 4, member := m, sobj := field rec 32 8, resp := field rec 40 8,
    restore := field rec 24 2 == 0xFFFF }

/-- `TIM.ACCEPTS` and `TIM.REFUSALS` count launches; a restore is none (R286, R383). -/
def countAnswer (p : Pkg) (restore : Bool) (r : Nat) : Pkg := if restore then p else bump p r

/-- A refusal: counted, and the conditions beyond the first logged (R10). -/
def noteRefusal (p : Pkg) (c : Clock) (a : Ask) (restore : Bool) : Pkg :=
  let codes := structural (prune p c) c a
  noteFurther (countAnswer p restore rTimRefusals) c a.L (codes.headD 0x10) codes.tail

/-- An accepted launch: its ledger entry, its count, its record. -/
def acceptLaunch (p : Pkg) (c : Clock) (l : Launch) (a : Ask) : Pkg :=
  let p := enterLedger (countAnswer p l.restore rTimAccepts) c { a.entry p with who := .launch l.id }
  { p with launches := p.launches ++ [l] }

/-- The fragments and the tail of a chunk from a sender, when all have come: the chunk and its flag word; `bad` when the CRC-64
of the tail does not hold. -/
def gather (p : Pkg) (i : Ident) (chunk src len : Nat) : Option (List Byte × Nat × Bool) :=
  let mine := p.swIn.filter (fun k => k.ident == i && k.chunk == chunk && k.src == src)
  let frag (n : Nat) := mine.find? (fun k => k.frag == n)
  match frag 16 with
  | none => none
  | some t =>
    let fs := (List.range (cdiv len 4096)).map frag
    if fs.any (fun f => f.isNone) then none
    else
      let d := (fs.filterMap id).flatMap (fun f => f.data)
      some (d, field t.data 8 2, decide (d.length ≠ len ∨ (crc64 d).toNat ≠ field t.data 0 8))

/-- Forgets what was received of a chunk from a sender. -/
def forget (p : Pkg) (i : Ident) (chunk src : Nat) : Pkg :=
  { p with swIn := p.swIn.filter (fun k => !(k.ident == i && k.chunk == chunk && k.src == src)) }

/-- A member admits a record and answers the root (R280, R282, R384). A restore's record is followed by the restore record. -/
def takeRecord (p : Pkg) (c : Clock) (data : List Byte) (rd : SlotReads) : Pkg :=
  let rc := data.take 64
  let group := field rc 26 2 % 4096
  let m := gSelf p group
  let isRestore := field rc 24 2 == 0xFFFF
  let rrec := data.drop 64
  let ask := if isRestore then restoreAsk p (field rc 0 8) (field rc 16 8) true
             else launchAsk p (field rc 24 2) (field rc 0 8) (field rc 16 8) true
  let p := forwardRecord p group (field rc 0 8) ((memberOf p group (field rc 28 4 % 2 ^ 18)).getD 0) data
  match admission p c c.gsc ask with
  | .refuse st d => respond (noteRefusal p c ask isRestore) c rc m st (if st = 0x10 then d else 0)
  | .accept =>
    match memberOp p c (field rc 52 1 % 64) (field rc 54 2) with
    | none => respond (countAnswer p isRestore rTimRefusals) c rc m 0x12 0
    | some (p, id) =>
      let l := recordLaunch id rc false m ask
      if isRestore then
        match restoreFind rrec m rd with
        | some (slot, step) =>
          respond (acceptLaunch p c { l with rrec := rrec, found := step, slotSel := slot, hdr := slotHeader rd slot } ask) c rc m 0x01 step
        | none => respond (acceptLaunch p c { l with rrec := rrec, slotSel := 2 } ask) c rc m 0x31 0
      else respond (acceptLaunch p c l ask) c rc m 0x01 0

/-- `LAUNCH_RECORD_RECEIVE` (R280): the broadcast chunk with this identity is whole; its CRC-64 and the record's CRC hold. A retired
package takes no launch (R254). A restore's record waits until the den has read its targets (R384). -/
def execLaunchRecordReceive (group llo src : Nat) (rd : SlotReads) (s : State) : Out :=
  run s (fun c p =>
    let i : Ident := { group := group, opc := 0xF, llo := llo, off := 0 }
    let len := ((p.swIn.find? (fun k => k.ident == i && k.src == src && k.frag == 0)).map (fun k => k.data.length)).getD 0
    match gather p i 0 src len with
    | none => p
    | some (d, _, bad) =>
      let q := forget p i 0 src
      if bad then bump q rSwmCrcbad
      else if retired p ∨ (crc32c (d.take 60)).toNat ≠ field d 60 4 ∨ field d 26 2 % 4096 ≠ group ∨ !gValid p group then q
      else if field d 24 2 ≠ 0xFFFF then takeRecord q c d rd
      else
        let b := restoreTargets (d.drop 64)
        let p := askSlots p c b
        match slotReads p b rd with
        | none => p
        | some r => takeRecord (denForget (forget p i 0 src) (slotAsks p b)) c d r)

/-! The decision (R280, R281, R385) -/

/-- The root's response array: byte 0 and the value of each member. -/
def responses (p : Pkg) (l : Launch) : List (Nat × Nat × Nat) :=
  (List.range l.nmem).map (fun i => (i, mnat p.mem (l.resp + 16 * i) 1, mnat p.mem (l.resp + 16 * i + 8) 8))

/-- Writes a report area: a count and the indices (R402). -/
def writeReport (p : Pkg) (a : Nat) (l : List Nat) : Pkg :=
  { p with host := mwrite p.host a (natLe 4 l.length ++ l.flatMap (natLe 4)) }

/-- Ends the root's part with a status, a value and a report of members. -/
def endRoot (p : Pkg) (c : Clock) (l : Launch) (status value : Nat) (report : Option (List Nat)) : Pkg :=
  let p := freeLedger { p with launches := p.launches.filter (fun y => y.id != l.id) } (.launch l.id)
  let p := noteFailure (noteEnd p l status) c l status
  match report with
  | none => complete p c l.op status 0#16 value l.aux false
  | some ms =>
    let p := if l.report = 0 then p else writeReport p l.report ms
    complete p c l.op status 0#16 ms.length l.aux (l.report != 0)

/-- The status that a member's refusal byte stands for. A byte that is no refusal code of Table 0.3 is never passed on (R8): the root
then reports that it reached no commit (log 128). -/
def refusalStatus (b : Nat) : Nat := if 0x10 ≤ b ∧ b ≤ 0x13 then b else 0x24

/-- The status that an abandonment notice carries: a failure or CANCELLED; any other byte stands for FAILED_HARDWARE (R8, R283,
log 128). -/
def noticeStatus (b : Nat) : Nat := if 0x20 ≤ b ∧ b ≤ 0x24 ∨ b = 0x3F then b else 0x20

/-- Why the root does not commit, when it does not: status, value, members to report. -/
def rootVerdict (p : Pkg) (l : Launch) : Option (Nat × Nat × Option (List Nat)) :=
  let rs := responses p l
  let count := mnat p.mem l.sobj 8
  let good := rs.filter (fun r => r.2.1 == 1)
  if !l.multi then (if l.slotSel < 2 then none else some (0x31, 0, some [0]))
  else if l.restore then
    let top := good.foldl (fun m r => max m r.2.2) 0
    let none_ (r : Nat × Nat × Nat) : Bool := r.2.1 == 0x31 || r.2.1 == 0
    if good.any (fun r => r.2.2 != top) then
      some (0x30, 0, some ((rs.filter (fun r => none_ r || (r.2.1 == 1 && r.2.2 != top))).map (fun r => r.1)))
    else if good.length = l.nmem ∧ count = l.nmem then none else some (0x31, 0, some ((rs.filter none_).map (fun r => r.1)))
  else if count ≠ l.nmem then some (0x24, 0, some ((rs.filter (fun r => r.2.1 == 0)).map (fun r => r.1)))
  else match rs.find? (fun r => r.2.1 != 1) with
    | none => none
    | some r =>
      let st := refusalStatus r.2.1
      some (st, if st = 0x10 then (rs.filter (fun q => q.2.1 == 0x10)).foldl (fun m q => max m q.2.2) 0 else 0, none)

/-- `COMMIT_DECISION` (R280): at tick C, on the root. -/
def execCommitDecision (l : Nat) (s : State) : Out :=
  run s (fun c p =>
    match findLaunch p l with
    | none => p
    | some y =>
      if !y.root || y.committed || y.closed || decide (c.gsc < y.C) then p
      else match rootVerdict p y with
        | some (st, v, rep) => endRoot p c y st v rep
        | none =>
          let p := modLaunch p l (fun z => { z with committed := true })
          if y.multi then wgBroadcast p c (launchIdent y.group y.L) (noticeBytes 0 y.member) else p)

/-- `COMMIT_RECEIVE` (R280): the commit of the launch with this identity is held. One that comes after L − 125 is ignored and
logged. -/
def execCommitReceive (group llo : Nat) (s : State) : Out :=
  run s (fun c p =>
    let i : Ident := { group := group, opc := 0xF, llo := llo, off := 0 }
    if !p.wg.any (fun v => v.ident == i && field v.data 0 1 == 0) then p
    else match p.launches.find? (fun y => y.multi && !y.root && y.group == group && y.L % 2 ^ 32 == llo && !y.closed) with
      | some y =>
        if y.committed then p
        else if c.gsc + 125 ≤ y.L then modLaunch p y.id (fun z => { z with committed := true })
        else event p c 0x0A 0xFF y.member y.L
      | none =>
        let back := (c.gsc + 125 + 2 ^ 32 - llo) % 2 ^ 32
        event p c 0x0A 0xFF (gSelf p group) (c.gsc + 125 - back))

/-- `COMMIT_DEADLINE` (R281): at L − 125 a member without a commit completes FAILED_LAUNCH and frees its ledger entry. -/
def execCommitDeadline (l : Nat) (s : State) : Out :=
  run s (fun c p =>
    match findLaunch p l with
    | none => p
    | some y =>
      if !y.multi || y.root || y.committed || y.closed || decide (c.gsc + 125 < y.L) then p
      else finishLaunch (freeLedger p (.launch l)) c y 0x24)

/-- `ABANDONMENT_NOTICE` (R283): the notice that a member sent for this launch is held; its status is the cause if the launch's
held work reaches its release tick unfinished. -/
def execAbandonmentNotice (l src : Nat) (s : State) : Out :=
  run s (fun c p =>
    match findLaunch p l with
    | none => p
    | some y =>
      if y.closed || !y.multi || y.restore then p
      else match p.wg.find? (fun v => v.ident == launchIdent y.group y.L && v.src == src && field v.data 0 1 != 0) with
        | none => p
        | some v => modLaunch p l (fun z => { z with told := z.told ++ [(c.gsc, noticeStatus (field v.data 0 1))] }))

end Sys2Proof.Machine
end

