-- ==== Sys2Proof/Machine/Plans.lean ====
section
/-! DEFINITION. Descriptors (16_host_interface R397 to R402) and plan load (02_tiles R40 to R42, R489, R490; 05 R112; 12 R302). -/

namespace Sys2Proof.Machine

/-! Descriptors in flight (R397, R402) -/

/-- `GLB.STATUS.READY`. -/
def pkgReady (p : Pkg) : Bool := rbit p rGlbStatus 0

/-- R397: the ring engine may fetch the next descriptor of a ring; a package that retired in service goes on answering (R254). -/
def mayFetch (p : Pkg) (r : Nat) : Bool :=
  let q := rfld p (rSq r 8) 13 8
  (pkgReady p || (retired p && stageOf p == 4)) && eclUp p && sqEn p r && cqEn p q && (rget p (rSq r 0xC) != rget p (rSq r 0x10)) && decide (0 < cqFree p q)
    && decide (p.ops.length < 2048)

/-- The ring that a ring engine fetches from next (R394, R397): the first, in round-robin order from the engine's turn, that may. -/
def nextRing (p : Pkg) (e : Nat) : Option Nat :=
  ((List.range 32).map (fun k => 32 * e + (sget p.turns e 0 + k) % 32)).find? (mayFetch p)

/-- `DESCRIPTOR_FETCH` (R397): the next descriptor of the ring whose turn it is is copied, its completion slot reserved; `bytes` is what the host's
memory holds there. -/
def execDescriptorFetch (r : Fin 64) (bytes : List Byte) (s : State) : Out :=
  run s (fun c p =>
    if nextRing p (r / 32) ≠ some r.val then p
    else
      let q := rfld p (rSq r 8) 13 8
      let d := (bytes ++ List.replicate 64 0#8).take 64
      let o : Op := { id := p.nextOp, sq := r, cq := q, tag := field d 2 2, desc := d, arrival := c.gsc }
      let p := { p with ops := p.ops ++ [o], nextOp := p.nextOp + 1, turns := sset p.turns (r / 32) ((r + 1) % 32) }
      let p := rset p (rCq q 0x14) (rfld p (rCq q 0x14) 16 0 + 1)
      let p := rset p (rSq r 0xC) ((rget p (rSq r 0xC) + 1) % sqDepth p r)
      syncOps (bump p rHifDescs) r)

/-- Bytes of a descriptor that Tables 16.4 and 16.5 leave reserved, by kind. -/
def usedBytes (kind : Nat) (multi : Bool) : List (Nat × Nat) :=
  if kind = 1 then [(0, 6), (8, 24)]
  else if kind = 2 ∨ kind = 3 then (if multi then [(0, 35), (36, 64)] else [(0, 24)])
  else if kind = 4 then [(0, 5), (8, 16)]
  else if kind = 5 then [(0, 4), (8, 48)]
  else if kind = 6 then [(0, 16)]
  else if kind = 7 then [(0, 4), (8, 20)]
  else if kind = 8 then [(0, 5), (8, 32)]
  else if kind = 9 then [(0, 5), (6, 8)]
  else []

/-- Flag bits that a kind defines (Table 16.4). -/
def usedFlags (kind : Nat) : Nat := if kind = 1 then 2 else if kind = 2 ∨ kind = 3 then 1 else 0

/-- R402: a listed kind whose reserved fields are zero. -/
def descOk (d : List Byte) : Bool :=
  let kind := field d 0 1
  let multi := bit (field d 1 1) 0
  let used := usedBytes kind multi
  decide (1 ≤ kind) && decide (kind ≤ 9) && (Nat.land (field d 1 1) (255 - usedFlags kind) == 0)
    && (d.zipIdx.all (fun e => e.1 == 0#8 || used.any (fun u => decide (u.1 ≤ e.2) && decide (e.2 < u.2))))

/-- The operation has been fetched, nothing has been done for it, and no earlier descriptor of its ring waits (R397). -/
def opWaits (p : Pkg) (o : Op) : Bool :=
  !o.begun && !p.ops.any (fun x => x.fromRing && x.sq == o.sq && !x.begun && decide (x.id < o.id))

def beginOp (p : Pkg) (id : Nat) : Pkg :=
  { p with ops := p.ops.map (fun o => if o.id = id then { o with begun := true } else o) }

/-- Carries out a fetched descriptor of a kind; a retired package does no work (R254). -/
def withOp (s : State) (id : Nat) (kinds : List Nat) (f : Clock → Pkg → Op → Pkg) : Out :=
  run s (fun c p =>
    match findOp p id with
    | none => p
    | some o =>
      if !opWaits p o || !kinds.contains (field o.desc 0 1) || !descOk o.desc then p
      else if retired p then complete p c id 0x20 0#16 0 0 false
      else f c (beginOp p id) o)

/-- Completes with a status and nothing else. -/
def plain (p : Pkg) (c : Clock) (id status : Nat) : Pkg := complete p c id status 0#16 0 0 false

/-- `DESCRIPTOR_UNKNOWN_KIND` (R402): an unlisted kind, or a reserved field that is not zero. A retired package answers every descriptor
with FAILED_HARDWARE (R254). -/
def execDescriptorUnknownKind (op : Nat) (s : State) : Out :=
  run s (fun c p =>
    match findOp p op with
    | none => p
    | some o => if opWaits p o && !descOk o.desc then plain p c op (if retired p then 0x20 else 0x12) else p)

/-! Plan load (R42). A candidate is checked as memory at a base -/

/-- Type, offset and length of the sections whose type is not 0. -/
def sections (m : Mem) (b : Nat) : List (Nat × Nat × Nat) :=
  ((List.range 8).map (fun i => let o := b + 0x60 + 16 * i; (mnat m o 4, mnat m (o + 4) 4, mnat m (o + 8) 4))).filter
    (fun e => e.1 != 0)

def planSection? (m : Mem) (b ty : Nat) : Option (Nat × Nat) :=
  ((sections m b).find? (fun e => e.1 == ty)).map (fun e => (b + e.2.1, e.2.2))

/-- A list without repeats. -/
def distinct : List Nat → Bool
  | [] => true
  | a :: r => !r.contains a && distinct r

/-- Every two of a list are apart. -/
def apart : List (Nat × Nat) → Bool
  | [] => true
  | (a, n) :: r => r.all (fun e => decide (n = 0) || decide (e.2 = 0) || decide (a + n ≤ e.1) || decide (e.1 + e.2 ≤ a)) && apart r

/-- Header and section table. -/
def headerOk (m : Mem) (b len : Nat) : Bool :=
  let ss := sections m b
  mnat m b 4 == 0x4E414C50 && mnat m (b + 4) 2 == 1 && mnat m (b + 0xFC) 4 == (crc32c (mread m b 0xFC)).toNat
    && mnat m (b + 8) 8 == len && len % 4096 == 0 && decide (4096 ≤ len) && decide (len ≤ 2 ^ 32)
    && decide (mnat m (b + 0x50) 4 ≤ 2 ^ 20) && decide (2500 ≤ mnat m (b + 0x54) 4)
    && ss.all (fun e => decide (e.1 ≤ 7) && decide (0x100 ≤ e.2.1) && decide (e.2.1 + e.2.2 ≤ len))
    && distinct (ss.map (fun e => e.1)) && apart (ss.map (fun e => e.2))

/-- One tile record (Table 2.11): its fields in their ranges and its parts inside RLEN. -/
def recordOk (m : Mem) (a stop t preload : Nat) : Bool :=
  let rlen := mnat m (a + 4) 4
  let entry := mnat m (a + 8) 4
  let code := mnat m (a + 12) 4
  let n (k : Nat) := mnat m (a + 16 + 2 * k) 2
  let words := n 0 + n 1 + n 2 + n 3
  let body := cdiv (64 + cdiv code 64 * 64 + 16 * words) 64 * 64
  decide (a + 64 ≤ stop) && mnat m a 2 == t && rlen % 64 == 0 && decide (rlen ≤ preload) && decide (a + rlen ≤ stop)
    && decide (4 ≤ code) && code % 4 == 0 && entry % 4 == 0 && decide (64 ≤ entry) && decide (entry < 64 + code)
    && (List.range 4).all (fun k => decide (n k ≤ 128)) && decide (body + mnat m (a + 24) 4 ≤ rlen)

/-- The tile records of a list of tiles, from an address on. -/
def recordsOk (m : Mem) (stop preload : Nat) : Nat → List Nat → Bool
  | _, [] => true
  | a, t :: r => recordOk m a stop t preload && recordsOk m stop preload (a + mnat m (a + 4) 4) r

/-- The initial descriptors of one tile. -/
def descsOk (m : Mem) (a t mask : Nat) : Bool :=
  (List.range 64).all (fun i =>
    let b := mread m (a + 64 * i) 64
    b.all (fun x => x == 0#8) || (parseDesc b).valid t mask true true)

/-- R489, R490. -/
def tilesOk (m : Mem) (b : Nat) : Bool :=
  let mask := mnat m (b + 0x30) 16
  let ts := bitList 128 mask
  if mask = 0 then true
  else match planSection? m b 1, planSection? m b 3 with
    | some (a, n), some (d, k) =>
      decide (16 ≤ n) && mnat m a 2 == ts.length && recordsOk m (a + n) (mnat m (b + 0x50) 4) (a + 64) ts
        && k == 4096 * ts.length && ts.zipIdx.all (fun e => descsOk m (d + 4096 * e.2) e.1 mask)
    | _, _ => false

/-- A count in the first word of a section and the records that it announces. -/
def countedOk (m : Mem) (b ty max size : Nat) : Bool :=
  match planSection? m b ty with
  | none => true
  | some (a, n) => decide (1 ≤ mnat m a 4) && decide (mnat m a 4 ≤ max) && decide (16 + size * mnat m a 4 ≤ n)

/-- The seed entries fill their section and lie in the ranges of Table 5.3; the images of one tile total at most 64 KiB. -/
def seedsOk (m : Mem) (b : Nat) : Bool :=
  match planSection? m b 7 with
  | none => true
  | some (a, n) =>
    let es := readSeeds m (a + n) (n / 16 + 1) a
    let mask := mnat m (b + 0x30) 16
    (es.foldl (fun x e => x + 16 + 8 * e.lenw) 0 == n)
      && es.all (fun e => decide (e.t < 128) && bit mask e.t && decide (1 ≤ e.lenw) && decide (e.lenw ≤ 8192) && e.dest % 8 == 0
          && decide (e.dest + 8 * e.lenw ≤ 0x1E00000) && e.gov % 64 == 0 && decide (e.gov < 0x1E00000))
      && (bitList 128 mask).all (fun t =>
          decide (((es.filter (fun e => e.t == t)).map (fun e => 8 * e.lenw)).foldl (fun x y => x + y) 0 ≤ 65536))

/-- Strictly ascending. -/
def rising : List Nat → Bool
  | [] => true
  | [_] => true
  | a :: b :: r => decide (a < b) && rising (b :: r)

/-- R302. -/
def trafficOk (m : Mem) (b : Nat) : Bool :=
  let g := mnat m (b + 0x48) 2
  match planSection? m b 5 with
  | none => g == 0
  | some (a, n) =>
    let nctx := mnat m (a + 4) 4
    let x := a + 16 + groupPad g
    let gs := (List.range g).map (fun i => mnat m (a + 16 + 2 * i) 2)
    let es := (List.range (mnat m a 4)).map (fun i => readSlot m (x + 8 * nctx + 16 * i))
    decide (16 + groupPad g + 8 * nctx + 16 * mnat m a 4 ≤ n)
      && gs.all (fun q => decide (q < 4096)) && rising gs
      && (List.range nctx).all (fun i => decide (4096 ≤ mnat m (x + 8 * i) 2) && decide (4096 ≤ mnat m (x + 8 * i + 2) 2))
      && es.all (fun e => decide (e.slot % 16 ≤ 12) && (e.ukind == 4 || decide (4096 ≤ e.cx))
          && decide (es.countP (fun f => f.frame == e.frame && f.slot == e.slot && f.port == e.port) ≤ 96))

/-- Every check of R42. -/
def planOk (m : Mem) (b len : Nat) : Bool :=
  headerOk m b len && tilesOk m b && countedOk m b 4 4096 128 && countedOk m b 6 256 256 && seedsOk m b && trafficOk m b

/-- First fit in the plan store: the lowest base, among its start and the ends of the plans, from which no plan is in the way. -/
def planSpace (ps : List Plan) (len : Nat) : Option Nat :=
  (sortNat (hbmUserEnd :: ps.map (fun x => x.base + x.len))).find? (fun a =>
    decide (a + len ≤ hbmEnd) && ps.all (fun x => decide (a + len ≤ x.base) || decide (x.base + x.len ≤ a)))

/-- A launch of the plan is admitted and has not completed. -/
def planBusy (p : Pkg) (plan : Nat) : Bool := p.launches.any (fun l => l.plan == plan && !l.restore && !l.closed && l.refused.isNone)

/-- Stores a plan whose bytes have been read. -/
def storePlan (p : Pkg) (c : Clock) (id plan len : Nat) (data : List Byte) : Pkg :=
  let others := p.plans.filter (fun e => e.1 != plan)
  match planSpace (others.map (fun e => e.2)) len with
  | none => plain p c id 0x12
  | some b =>
    let q := enqueueAll (storeBytes p b data) 4 (chargeWrites .firmware [(b, len)])
    if planOk q.mem b len then complete { q with plans := sset p.plans plan { base := b, len := len } } c id 0 0#16 0 (len / 4096) false
    else plain p c id 0x12

/-- `LOAD_PLAN` (R42): the source is HBM or, with HOSTSRC, the host memory whose bytes are `data`. -/
def execLoadPlan (op : Nat) (data : List Byte) (s : State) : Out :=
  withOp s op [1] (fun c p o =>
    let d := o.desc
    let plan := field d 4 2
    let src := field d 8 8
    let len := field d 16 8
    let fromHost := bit (field d 1 1) 1
    if 1024 ≤ plan ∨ planBusy p plan then plain p c op 0x12
    else if len = 0 then complete { p with plans := sdel p.plans plan } c op 0 0#16 0 0 false
    else if len % 4096 ≠ 0 ∨ 2 ^ 32 < len then plain p c op 0x12
    else if fromHost then (if data.length < len then plain p c op 0x12 else storePlan p c op plan len (data.take len))
    else if hbmUserEnd < src + len then plain p c op 0x12
    else match readMem (enqueueAll p 4 (chargeReads .firmware [(src, len)])) c src len with
      | (p, .error _) => plain p c op 0x21
      | (p, .ok bs) => storePlan p c op plan len bs)

end Sys2Proof.Machine
end

