-- ==== Sys2Proof/Machine/Host.lean ====
section
/-! DEFINITION. The host's work (16_host_interface R392 to R408): launches, self-tests, region hand-offs, cancels, aperture
accesses, ECL ports. -/

namespace Sys2Proof.Machine

/-! Launches (R273, R275, R280, R403) -/

/-- The launch of a descriptor of a single member. -/
def soloLaunch (o : Op) (a : Ask) : Launch :=
  { id := o.id, op := o.id, plan := field o.desc 4 2, L := a.L, D := a.D, prep := a.prep, wc := a.wc, tiles := a.claim.tiles,
    slvs := a.claim.slvs, ues := a.claim.ues, rmask := field o.desc 6 2 }

/-- A refusal of admission. Table 16.5 lists an AUX for a launch, and none for an admit-only descriptor. -/
def refuseOp (p : Pkg) (c : Clock) (o : Op) (a : Ask) (st dprime : Nat) : Pkg :=
  complete p c o.id st 0#16 (if st = 0x10 then dprime else 0) (if field o.desc 0 1 = 3 then 0 else popcount 128 a.claim.tiles) false

/-- The launch record that a descriptor builds (R403). -/
def descRecord (p : Pkg) (o : Op) : List Byte :=
  let d := o.desc
  launchRecord (field d 8 8) (field d 24 8) (field d 16 8) (field d 4 2) (field d 32 2) (ownPlace p) (field d 40 8) (field d 48 8)
    (field d 36 4) (field d 34 1) o.tag (field d 6 2)

/-- R280 and the ranges of R403 and Table 11.4 that keep the root from running the protocol. -/
def rootBars (p : Pkg) (c : Clock) (rec : List Byte) : Bool :=
  let g := field rec 26 2
  let n := field rec 48 4
  let L := field rec 0 8
  let C := field rec 8 8
  let so := field rec 32 8
  !gValid p g || gSelf p g == 0xFFFFFFFF || decide (n < 2) || decide (262144 < n) || decide (C < c.gsc + 500)
    || decide (L < C + gWwc p g + 125) || decide (hbmUserEnd < field rec 40 8 + 16 * n)
    || !(match target p so 8 with
         | some (.sync _) => so % 64 == 0
         | _ => false)

/-- The root's part of a launch or restore of several members: admitted here, sent to all, answered like every member's. `tail`
follows the record on the wire; `mine` is this member's answer when it admits. -/
def startRoot (p : Pkg) (c : Clock) (o : Op) (rec tail : List Byte) (a : Ask) (report slot found : Nat) (hdr : List Byte)
    (mine : Nat × Nat) : Pkg :=
  let g := field rec 26 2
  let l := { recordLaunch o.id rec true (gSelf p g) a with op := o.id, report := report, rrec := tail, slotSel := slot, found := found,
                                                                 hdr := hdr }
  let p := forwardRecord p g a.L (gSelf p g) (rec ++ tail)
  match admission p c o.arrival a with
  | .refuse st d =>
    let p := noteRefusal p c a l.restore
    respond { p with launches := p.launches ++ [{ l with refused := some (st, d) }] } c rec l.member st (if st = 0x10 then d else 0)
  | .accept => respond (acceptLaunch p c l a) c rec l.member mine.1 mine.2

/-- `LAUNCH` (R273, R280). -/
def execLaunch (op : Nat) (s : State) : Out :=
  withOp s op [2] (fun c p o =>
    let d := o.desc
    let multi := bit (field d 1 1) 0
    let a := launchAsk p (field d 4 2) (field d 8 8) (field d 16 8) multi
    if multi then
      let rec_ := descRecord p o
      if rootBars p c rec_ then refuseOp (bump p rTimRefusals) c o a 0x12 0
      else startRoot p c o rec_ [] a (field d 56 8) 0 0 [] (1, 0)
    else match admission p c o.arrival a with
      | .refuse st dp => refuseOp (noteRefusal p c a false) c o a st dp
      | .accept => acceptLaunch p c (soloLaunch o a) a)

/-- `ADMIT_ONLY` (R275): the answer of a launch, and no ledger entry. -/
def execAdmitOnly (op : Nat) (s : State) : Out :=
  withOp s op [3] (fun c p o =>
    let d := o.desc
    let multi := bit (field d 1 1) 0
    let a := launchAsk p (field d 4 2) (field d 8 8) (field d 16 8) multi
    if multi && rootBars p c (descRecord p o) then refuseOp p c o a 0x12 0
    else match admission p c o.arrival a with
      | .refuse st dp => refuseOp (noteFurther p c a.L st (structural (prune p c) c a).tail) c o a st dp
      | .accept => complete p c op 0 0#16 0 0 false)

/-! Self-tests (R406, Table 16.7) -/

/-- FREE spare tiles of an AD. -/
def freeTiles (p : Pkg) (ad : Nat) : List Nat :=
  ((List.range 18).map (fun k => ad * 32 + k)).filter (fun i => unitState p i == 1)

/-- Duration and claims of a test; none for an unlisted test or a unit that does not exist. -/
def testShape (p : Pkg) (test unit : Nat) : Option Placed :=
  let x : Placed := { id := 0, kind := test, unit := unit, dur := 0, deadline := 0, req := 0 }
  if test = 1 then (if tileInService p unit then some { x with dur := 25000, tiles := 2 ^ unit } else none)
  else if test = 2 then
    (if unit < 256 ∧ unit % 32 < 18 ∧ unitState p unit = 1 then some { x with dur := 125000, groups := [65536 + unit] } else none)
  else if test = 3 then (if unit < 16 ∧ slvInService p unit then some { x with dur := 62500, slvs := 2 ^ unit } else none)
  else if test = 4 then (if unit < 8 ∧ ueInService p unit then some { x with dur := 62500, ues := 2 ^ unit } else none)
  else if test = 5 then
    (if unit < 4 then some { x with dur := 25000, groups := (69632 + unit) :: (List.range 4096).filter (gValid p) } else none)
  else if test = 6 then (if unit < 128 then some { x with dur := 250000, ports := [unit] } else none)
  else none

/-- A test is asked for, by a descriptor or by the monitor (R484). A live test needs two FREE spares on its AD and leaves room for
its further parts (R461). -/
def askTest (p : Pkg) (c : Clock) (test unit deadline : Nat) (op : Option Nat) (mon : Bool) : Pkg :=
  match testShape p test unit with
  | none => answerTest p c { id := 0, kind := test, unit := unit, dur := 0, deadline := 0, req := 0, op := op, mon := mon } 0x12 0
  | some x =>
    let x := { x with op := op, mon := mon, deadline := if test = 1 then deadline - 225000 else deadline }
    if p.pins.refLost then answerTest p c x 0x12 0
    else if test = 1 ∧ (freeTiles p (unit / 16)).length < 2 then deferPlaced p c x
    else requestPlaced p c x

/-- `SELF_TEST` (R406). -/
def execSelfTest (op : Nat) (s : State) : Out :=
  withOp s op [6] (fun c p o => askTest p c (field o.desc 4 2) (field o.desc 6 2) (field o.desc 8 8) (some op) false)

/-! Region hand-off (R312) -/

/-- A region entry in use: base, bytes, owner, state, hand-off count. -/
structure Region where
  base : Nat
  size : Nat
  owner : Nat
  state : Nat
  gen : Nat
  deriving DecidableEq, Repr

def region (p : Pkg) (i : Nat) : Region :=
  let w (k : Nat) := rget p (rRegion i + 4 * k)
  { base := (w 0 + w 1 * 2 ^ 32) % 2 ^ 46, size := w 2 * 2 ^ 21, owner := bits (w 3) 17 0, state := bits (w 3) 19 18, gen := bits (w 3) 31 20 }

def setRegionState (p : Pkg) (i owner state gen : Nat) : Pkg :=
  rset p (rRegion i + 12) (owner % 2 ^ 18 + state * 2 ^ 18 + gen % 4096 * 2 ^ 20)

/-- `REGION_HANDOFF` (R312): the named region's STATE becomes HANDOFF. -/
def execRegionHandoff (op : Nat) (s : State) : Out :=
  withOp s op [7] (fun c p o =>
    let base := field o.desc 8 8
    match (List.range 8192).find? (fun i => (region p i).state != 0 && (region p i).base == base) with
    | none => plain p c op 0x12
    | some i =>
      let r := region p i
      if r.state ≠ 1 then plain p c op 0x12
      else
        { setRegionState p i r.owner 2 r.gen with
          handoffs := p.handoffs ++ [{ op := op, region := i, owner := field o.desc 16 4 % 2 ^ 18, start := c.gsc }] })

/-- A response is held for the old owner. -/
def owedTo (p : Pkg) (place : Nat) : Bool := p.resps.any (fun r => placeOf (parseHdr r.pkt.bytes).daddr == place)

/-- A base-die atomic in the region has not ended. -/
def atomicIn (p : Pkg) (r : Region) : Bool :=
  let mine (a : Nat) : Bool := decide (r.base ≤ a) && decide (a < r.base + r.size)
  p.queues.any (fun e => e.2.any (fun q => q.atom.isSome && mine q.line)) || p.passed.any (fun d => d.atom && mine d.line)

/-- `HANDOFF_COMPLETE` (R312): the old owner has no response left and no base-die atomic in the region is under way; the region's
write-combining entries are evicted. -/
def execHandoffComplete (op : Nat) (s : State) : Out :=
  run s (fun c p =>
    match p.handoffs.find? (fun h => h.op == op) with
    | none => p
    | some h =>
      let r := region p h.region
      if owedTo p r.owner || atomicIn p r then p
      else
        let g := (r.gen + 1) % 4096
        let q := { p with wc := p.wc.filter (fun e => decide (e.line < r.base) || decide (r.base + r.size ≤ e.line)),
                          handoffs := p.handoffs.filter (fun x => x.op != op) }
        complete (setRegionState q h.region h.owner 1 g) c op 0 0#16 0 g false)

/-! Cancel (R407, R46) -/

/-- R46 on a running launch: its tiles stop issuing and discard their queues; the launch is to complete with CANCELLED. -/
def cancelRunning (p : Pkg) (c : Clock) (l : Launch) : Pkg :=
  let p := (bitList 128 l.tiles).foldl (fun q t =>
    if (tile q t).launch = some l.id then modTile q t (fun x => { x with stopped := true, mxq := [], scq := [], dmq := [], syq := [] })
    else q) p
  addCause p c l.id 0x3F

/-- The effect of a cancel on a target and the outcome of Table 16.8; `done` writes the cancel's own entry first. -/
def cancelTarget (p : Pkg) (c : Clock) (t : Op) (done : Pkg → Nat → Pkg) : Pkg :=
  match p.launches.find? (fun l => l.op == t.id) with
  | some l =>
    if l.restore then
      (if l.root && !l.committed && decide (c.gsc < l.C) then endRoot (done p 1) c l 0x3F 0 none else done p 2)
    else if l.multi && !l.root then
      (if l.running then cancelRunning (done p 1) c l else done p 2)
    else if l.root && !l.committed then endRoot (done p 1) c l 0x3F 0 none
    else if l.running then cancelRunning (done p 1) c l
    else
      let q := done p 1
      let q := if l.prepped then q else freeLedger q (.launch l.id)
      finishLaunch q c l 0x3F
  | none =>
    match p.placed.find? (fun x => x.op == some t.id) with
    | some x =>
      if x.started || x.stage != 0 then done p 2
      else plain { done p 1 with placed := (done p 1).placed.filter (fun y => y.id != x.id) } c t.id 0x3F
    | none =>
      let k := field t.desc 0 1
      if !t.begun && (k == 2 || k == 3 || k == 6 || k == 5) then plain (done p 1) c t.id 0x3F else done p 2

/-- `CANCEL` (R407): the earliest-fetched descriptor in flight of ring TSQ with tag TTAG, other than the cancel itself. -/
def execCancel (op : Nat) (s : State) : Out :=
  withOp s op [9] (fun c p o =>
    let done (q : Pkg) (aux : Nat) := complete q c op 0 0#16 0 aux false
    match p.ops.find? (fun t => t.fromRing && t.id != op && t.sq == field o.desc 4 1 && t.tag == field o.desc 6 2) with
    | none => done p 0
    | some t => cancelTarget p c t done)

/-! Aperture accesses (R392, R393) -/

/-- The ECL answers an access. A load that is not served returns all ones; error responses are counted. -/
def eclReply (p : Pkg) (id err : Nat) (a : Access) (data : List Byte) : Pkg :=
  let n := match a with
    | .load n => n
    | .store _ => 0
    | _ => 8
  let p := if err = 0 then p else bump p rHifEclerr
  { p with hostOut := p.hostOut ++ [{ id := id, err := err, data := if err = 0 then data else List.replicate n 0xFF#8 }] }

/-- Bytes of an access. -/
def accessBytes : Access → Nat
  | .load n => n
  | .store d => d.length
  | _ => 8

/-- The PERM bit of R309 that an access needs. -/
def accessPerm : Access → Nat
  | .load _ => 0
  | .store _ => 1
  | _ => 2

/-- The ECL's error code for a refusal by the local map or by memory. -/
def eclCode (reason : Nat) : Nat :=
  if reason = nakMemory then 3 else if reason = nakRetired then 4 else if reason = nakRange then 1 else 5

/-- Table 16.1: 1 to 64 bytes within one line; atomics are 8-byte aligned. -/
def shapeOk (addr : Nat) (a : Access) : Bool :=
  match a with
  | .load n => decide (1 ≤ n) && decide (n ≤ 64) && decide (addr / 64 = (addr + n - 1) / 64)
  | .store d => decide (1 ≤ d.length) && decide (d.length ≤ 64) && decide (addr / 64 = (addr + d.length - 1) / 64)
  | _ => addr % 8 == 0

/-- An access served by the package itself (R287). Atomics reach sync objects and HBM only. -/
def serveLocal (p : Pkg) (c : Clock) (addr : Nat) (a : Access) : Served :=
  match a with
  | .load n => srvLoad p c addr n
  | .store d => srvStore p c addr d
  | .fetchAdd v =>
    match target p addr 8 with
    | some .hbm => srvFetchAdd p c addr v.toNat
    | some (.sync _) => srvFetchAdd p c addr v.toNat
    | _ => (p, .error nakRange)
  | .cas x y =>
    match target p addr 8 with
    | some .hbm => srvCas p c addr x.toNat y.toNat
    | some (.sync _) => srvCas p c addr x.toNat y.toNat
    | _ => (p, .error nakRange)

/-- The fabric operation of an access (Table 12.5). -/
def accessReq (a : Access) (daddr : Nat) : Req :=
  match a with
  | .load n => { ty := 0x02, daddr := daddr, op0 := n }
  | .store d => { ty := 0x01, daddr := daddr, payload := d }
  | .fetchAdd v => { ty := 0x04, daddr := daddr, op0 := v.toNat }
  | .cas x y => { ty := 0x05, daddr := daddr, op0 := x.toNat, op1 := y.toNat }

/-- The ECL's answer to an access that has been served or refused. -/
def replyServed (p : Pkg) (id : Nat) (a : Access) (r : Except Nat (List Byte)) : Pkg :=
  match r with
  | .ok d => eclReply p id 0 a d
  | .error e => eclReply p id (eclCode e) a []

/-- Checks in the order line, retirement, window, local map, memory, and the answer. An access to HBM waits for its turn in partition
1 (Table 10.3); in self-refresh the regulators stand, and it waits for the exit (R256). -/
def localAccess (p : Pkg) (c : Clock) (cmd : Instr) (id addr : Nat) (a : Access) : Pkg :=
  let r := accessReq a addr
  if !shapeOk addr a then eclReply p id 1 a []
  else if retired p then eclReply p id 4 a []
  else if !windowOk p (ownPlace p * 2 ^ 46 + addr) (accessBytes a) (accessPerm a) clsHost then eclReply p id 2 a []
  else match hbmAsks p r.ty addr r.op0 r.op1 r.payload with
    | some rs => openGate p 1 cmd rs
    | none => let (p, x) := serveLocal p c addr a; replyServed p id a x

/-- The HBM requests of a host access are done with. -/
def hostDone (p : Pkg) (g : Gate) (id addr : Nat) (a : Access) : Pkg :=
  replyServed p id a (gateResult p g addr (match a with
    | .load n => n
    | .store _ => 0
    | _ => 8))

/-- An ECL port carries traffic. -/
def eclPortUp (p : Pkg) (q : Nat) : Bool := rfld p rHifStatus (5 * q + 4) (5 * q) != 0 && !p.pins.tripped

/-- `HOST_LOCAL_ACCESS` (R392): an access through LOCAL, with an address in the local map. -/
def execHostLocalAccess (q : Fin 2) (id addr : Nat) (a : Access) (s : State) : Out :=
  run s (fun c p => if !eclPortUp p q then p else localAccess { p with active := c.gsc } c (.hostLocalAccess q id addr a) id addr a)

/-- The address that an access through REMOTE names: `addr` counts from the aperture's base. -/
def remoteAddr (p : Pkg) (addr : Nat) : Nat :=
  let i := addr / 2 ^ 30 % 16
  (rget p (rRslotLo i) + rget p (rRslotHi i) * 2 ^ 32) / 2 ^ 30 * 2 ^ 30 + addr % 2 ^ 30

/-- `HOST_REMOTE_ACCESS` (R392): an access through REMOTE; at the own place it goes on like one through LOCAL. -/
def execHostRemoteAccess (q : Fin 2) (id addr : Nat) (a : Access) (s : State) : Out :=
  run s (fun c p =>
    let fa := remoteAddr p addr
    if !eclPortUp p q then p
    else
      let p := { p with active := c.gsc }
      if placeOf fa = ownPlace p then localAccess p c (.hostLocalAccess q id (localOf fa) a) id (localOf fa) a
      else if !shapeOk addr a then eclReply p id 1 a []
      else if retired p then eclReply p id 4 a []
      else if !windowOk p fa (accessBytes a) (accessPerm a) clsHost then eclReply p id 2 a []
      else match ctxFor p (placeOf fa) with
        | none => eclReply p id 5 a []
        | some cx => sendReq p cx (.host id) true true (accessReq a fa))

/-! ECL ports (R390) -/

def lanesCount : Lanes → Nat
  | .l16 => 16
  | .l8 => 8
  | .l4 => 4
  | .down => 0

/-- The lanes of a port change: the status shows it, and an event reports it. -/
def eclLanes (p : Pkg) (c : Clock) (q n : Nat) : Pkg :=
  event (rsetf p rHifStatus (5 * q + 4) (5 * q) n) c 0x0B (8 + q) n q

/-- `ECL_PORT_LANE_LOSS` (R390): the port retrains at fewer lanes, or goes down. -/
def execEclPortLaneLoss (q : Fin 2) (lanes : Lanes) (s : State) : Out :=
  run s (fun c p => if (lanesCount lanes) < rfld p rHifStatus (5 * q + 4) (5 * q) then eclLanes p c q (lanesCount lanes) else p)

/-- `ECL_PORT_TRAIN` (R390, R433): the port completes training. -/
def execEclPortTrain (q : Fin 2) (lanes : Lanes) (s : State) : Out :=
  run s (fun c p => if lanes = .down then p else
    if rfld p rGlbStatus 10 8 < 3 then rsetf p rHifStatus (5 * q + 4) (5 * q) (lanesCount lanes) else eclLanes p c q (lanesCount lanes))

end Sys2Proof.Machine
end

