-- ==== Sys2Proof/Machine/Tables.lean ====
section
/-! DEFINITION. Table updates (16_host_interface R405, Table 16.6): windows (12 R309), regions (R311), route banks
(13 R319, R324), groups and members (14 R340 to R342), stream contexts (12 R294). -/

namespace Sys2Proof.Machine

/-- Entries and bytes an entry of a table. -/
def tableShape (t : Nat) : Option (Nat × Nat) :=
  if t = 1 then some (1024, 32) else if t = 2 then some (8192, 16) else if t = 3 then some (64, 4)
  else if t = 4 then some (4096, 4) else if t = 5 then some (4096, 32) else if t = 6 then some (131072, 4)
  else if t = 7 then some (4096, 64) else none

/-- A ledger entry holds the group (R342). -/
def groupHeld (p : Pkg) (c : Clock) (g : Nat) : Bool := p.ledger.any (fun e => decide (c.gsc < e.stop) && e.groups.contains g)

/-! Windows and regions -/

/-- The alignment rules of Table 12.10 bind an entry in use. -/
def windowEntryOk (b : List Byte) : Bool :=
  !bit (field b 26 1) 0 || (field b 0 8 % 4096 == 0 && field b 8 8 % 4096 == 4095)

/-- Reserved bits are not stored. -/
def windowClean (b : List Byte) : List Byte :=
  natLe 8 (field b 0 8 % 2 ^ 46) ++ natLe 8 (field b 8 8 % 2 ^ 46) ++ natLe 4 (field b 16 4 % 2 ^ 18) ++ natLe 4 (field b 20 4 % 2 ^ 18)
    ++ natLe 1 (field b 24 1 % 64) ++ natLe 1 (field b 25 1 % 16) ++ natLe 1 (field b 26 1 % 2) ++ List.replicate 5 0#8

def parseRegion (b : List Byte) : Region :=
  { base := field b 0 8 % 2 ^ 46, size := field b 8 4 * 2 ^ 21, owner := bits (field b 12 4) 17 0, state := bits (field b 12 4) 19 18,
    gen := bits (field b 12 4) 31 20 }

def regionClean (b : List Byte) : List Byte := natLe 8 (field b 0 8 % 2 ^ 46) ++ natLe 4 (field b 8 4) ++ natLe 4 (field b 12 4)

/-- Two regions in use do not overlap. -/
def regionsApart (x y : Region) : Bool :=
  x.state == 0 || y.state == 0 || decide (x.base + x.size ≤ y.base) || decide (y.base + y.size ≤ x.base)

/-- Creation of a region where none is, or removal; an entry in hand-off stays. -/
def regionEntryOk (old new : Region) : Bool :=
  old.state != 2 && (new.state == 0 || (new.state == 1 && old.state == 0 && new.base % 2 ^ 21 == 0 && decide (0 < new.size)))

/-- The region table after a write: entries in use only. -/
def regionsAfter (p : Pkg) (first : Nat) (es : List Region) : List Region :=
  ((List.range 8192).map (fun i => if first ≤ i ∧ i < first + es.length then es.getD (i - first) (region p i) else region p i)).filter
    (fun r => r.state != 0)

def pairwiseApart : List Region → Bool
  | [] => true
  | a :: r => r.all (regionsApart a) && pairwiseApart r

/-! Groups and members -/

/-- WWC's least value by Table 14.6: in one pod, and across pods. -/
def wwcLeast (npod : Nat) : Nat := if npod ≤ 1 then 250 else 875

/-- Two valid groups use a member entry in common. -/
def groupsMeet (p : Pkg) (g h : Nat) : Bool :=
  decide (gBase p g < gBase p h + gNent p h) && decide (gBase p h < gBase p g + gNent p g)

/-- The rules of R342 on one valid group. -/
def groupRulesOk (p : Pkg) (g : Nat) : Bool :=
  let pls := groupPlaces p g
  decide (1 ≤ gNent p g) && decide (gBase p g + gNent p g ≤ 131072)
    && (!gTwo p g || (List.range (gNent p g)).all (fun i =>
          let e := rget p (rMember (gBase p g + i)); decide (bits e 5 0 + bits e 23 18 ≤ 63)))
    && distinct pls && decide (pls.length ≤ 262144)
    && decide (wwcLeast (groupPods p g).length ≤ gWwc p g)
    && (List.range 4096).all (fun h => h == g || !gValid p h || !groupsMeet p g h)

/-- Computes NMEM, SELF and NPOD of a group (Table 14.1). -/
def groupCompute (p : Pkg) (g : Nat) : Pkg :=
  let pls := groupPlaces p g
  let p := rset p (rGroup g + 12) pls.length
  let p := rset p (rGroup g + 16) ((pls.findIdx? (fun x => x == ownPlace p)).getD 0xFFFFFFFF)
  rset p (rGroup g + 20) (gWwc p g + (groupPods p g).length * 2 ^ 16)

/-- `SWM.STATUS.NGROUP`. -/
def countGroups (p : Pkg) : Pkg := rsetf p rSwmStatus 28 16 ((List.range 4096).countP (gValid p))

/-- A group entry as stored before its computed fields. -/
def groupClean (b : List Byte) : List Byte :=
  natLe 4 (field b 0 4 % 2 ^ 17) ++ natLe 4 (field b 4 4 % 2 ^ 18) ++ natLe 4 (Nat.land (field b 8 1) 0x81) ++ natLe 4 0 ++ natLe 4 0
    ++ natLe 2 (field b 20 2) ++ List.replicate 10 0#8

/-- Group entries are written and computed; none when a rule of R342 is broken. -/
def updateGroups (p : Pkg) (c : Clock) (first : Nat) (es : List (List Byte)) : Option Pkg :=
  let gs := (List.range es.length).map (fun i => first + i)
  if gs.any (groupHeld p c) then none
  else
    let q := es.zipIdx.foldl (fun q e => rsetBytes q (rGroup (first + e.2)) (groupClean e.1)) p
    let live := gs.filter (gValid q)
    if !live.all (groupRulesOk q) then none else some (countGroups (live.foldl groupCompute q))

/-- Member entries are written; the groups that use them are computed again. -/
def updateMembers (p : Pkg) (c : Clock) (first : Nat) (es : List Nat) : Option Pkg :=
  let users := (List.range 4096).filter (fun g =>
    gValid p g && decide (gBase p g < first + es.length) && decide (first < gBase p g + gNent p g))
  if users.any (groupHeld p c) then none
  else
    let q := es.zipIdx.foldl (fun q e => rset q (rMember (first + e.2)) (e.1 % 2 ^ 24)) p
    if !users.all (groupRulesOk q) then none else some (users.foldl groupCompute q)

/-! Stream contexts: an entry of 64 bytes holds PEER, PCTX, TXSEQ, RXBASE and RXMAP in that order -/

def parseCtx (b : List Byte) : Ctx :=
  { peer := field b 0 4 % 2 ^ 18, pctx := field b 4 2, txseq := field b 8 4, rxbase := field b 12 4,
    rxmap := BitVec.ofNat 256 (field b 16 32) }

def ctxBytes (x : Ctx) : List Byte :=
  natLe 4 x.peer ++ natLe 2 x.pctx ++ [0#8, 0#8] ++ natLe 4 x.txseq ++ natLe 4 x.rxbase ++ natLe 32 x.rxmap.toNat
    ++ List.replicate 16 0#8

/-! Route banks (R324) -/

/-- Entries of the inactive bank are written and a switch at S is pending. -/
def updateRoutes (p : Pkg) (op t first S : Nat) (es : List Nat) : Pkg :=
  let bank := 1 - rfld p rFabStatus 1 1
  let o (i : Nat) := if t = 3 then rInpod bank (first + i) else rPodtab bank (first + i)
  let p := es.zipIdx.foldl (fun q e => rset q (o e.2) (Nat.land e.1 0x37F)) p
  let p := rset (rset (rsetb p rFabStatus 2 true) rFabSwLo (S % 2 ^ 32)) rFabSwHi (S / 2 ^ 32)
  match p.rswitch with
  | some w => { p with rswitch := some { w with ops := w.ops ++ [(op, es.length)] } }
  | none => { p with rswitch := some { stop := S, ops := [(op, es.length)] } }

/-- A switch at another count is pending. -/
def switchElsewhere (p : Pkg) (S : Nat) : Bool := (p.rswitch.map (fun w => w.stop != S)).getD false

/-- The entries of a source. -/
def chunksOf (n k : Nat) (data : List Byte) : List (List Byte) :=
  (List.range n).map (fun i => ((data.drop (k * i)).take k ++ List.replicate k 0#8).take k)

/-- The update of a table that is not a route bank: none when a rule is broken. -/
def updateTable (p : Pkg) (c : Clock) (t first : Nat) (es : List (List Byte)) : Option Pkg :=
  if t = 1 then
    if es.all windowEntryOk then some (es.zipIdx.foldl (fun q e => rsetBytes q (rWindow (first + e.2)) (windowClean e.1)) p) else none
  else if t = 2 then
    let rs := es.map parseRegion
    if rs.zipIdx.all (fun e => regionEntryOk (region p (first + e.2)) e.1) && pairwiseApart (regionsAfter p first rs) then
      some (es.zipIdx.foldl (fun q e => rsetBytes q (rRegion (first + e.2)) (regionClean e.1)) p)
    else none
  else if t = 5 then updateGroups p c first es
  else if t = 6 then updateMembers p c first (es.map leNat)
  else if t = 7 then some (es.zipIdx.foldl (fun q e => setCtx q (first + e.2) (parseCtx e.1)) p)
  else none

/-- `TABLE_UPDATE` (R405): `data` is what host memory holds at SRC. -/
def execTableUpdate (op : Nat) (data : List Byte) (s : State) : Out :=
  withOp s op [8] (fun c p o =>
    let t := field o.desc 4 1
    let n := field o.desc 8 4
    let first := field o.desc 12 4
    let S := field o.desc 24 8
    match tableShape t with
    | none => plain p c op 0x12
    | some (size, k) =>
      if !rbit p rHifTuperm t then plain p c op 0x13
      else if size ≤ first ∨ size < first + n then plain p c op 0x12
      else
        let es := chunksOf n k data
        if t = 3 ∨ t = 4 then
          (if S < o.arrival + 8192 ∨ switchElsewhere p S then plain p c op 0x12 else updateRoutes p op t first S (es.map leNat))
        else match updateTable p c t first es with
          | none => plain p c op 0x12
          | some q => complete q c op 0 0#16 0 n false)

end Sys2Proof.Machine
end

