-- ==== Sys2Proof/Machine/Den.lean ====
section
/-! DEFINITION. The den (15_checkpoint R366 to R387): policies, cuts, the shadow den, restores. -/

namespace Sys2Proof.Machine

/-! The policy record (Table 15.1). As armed it is followed by its manifest -/

def polGroup (b : List Byte) : Nat := field b 8 2
def polMode (b : List Byte) : Nat := field b 10 1
def polNext (b : List Byte) : Nat := field b 12 4
def polLead (b : List Byte) : Nat := field b 36 4
def polBaroff (b : List Byte) : Nat := field b 40 4
def polExtents (b : List Byte) : List Extent := (List.range (polNext b)).map (fun i => parseExtent ((b.drop (256 + 32 * i)).take 32))
/-- Count of window n, and its step (R366). -/
def polCut (b : List Byte) (n : Nat) : Nat := polBase b + n * polPeriod b
def polStep (b : List Byte) (cn : Nat) : Nat := (field b 48 8 + (cn - polBase b) / polPeriod b * field b 56 8) % 2 ^ 64

/-- n rounded up to 4 KiB. -/
def up4k (n : Nat) : Nat := cdiv n 4096 * 4096

/-- Each extent with its place: `size` gives its bytes, `start` the first offset; later ones start at 4 KiB boundaries. -/
def placeExtents (size : Extent → Nat) : Nat → List Extent → List (Extent × Nat)
  | _, [] => []
  | a, e :: r => (e, a) :: placeExtents size (up4k (a + size e)) r

/-- Payload offsets (R377) and shadow offsets (R374). -/
def payloadPlaces (b : List Byte) : List (Extent × Nat) := placeExtents Extent.stored (up4k (256 + 32 * polNext b)) (polExtents b)
def shadowPlaces (b : List Byte) : List (Extent × Nat) := placeExtents (fun e => e.len) 0 (polExtents b)

/-- Shard bytes from the header to the last payload byte. -/
def shardLength (b : List Byte) : Nat := (payloadPlaces b).foldl (fun _ e => e.2 + e.1.stored) (256 + 32 * polNext b)

/-- Reserved bytes and bits of a policy record. -/
def polReserved (b : List Byte) : Bool :=
  field b 44 4 == 0 && field b 105 7 == 0 && (b.drop 128).all (fun x => x == 0#8) && decide (field b 11 1 ≤ 1) && decide (field b 104 1 < 16)

/-- R367's grounds for REFUSED_RESOURCE, on a record with its manifest. -/
def polOk (p : Pkg) (b : List Byte) (man : List Byte) : Bool :=
  let g := polGroup b
  let wwc := gWwc p g
  let es := polExtents (b ++ man)
  polReserved b && decide (polMode b ≤ 1) && decide (1 ≤ polNext b) && decide (polNext b ≤ 1024) && polBase b % 5 == 0
    && polPeriod b % 5 == 0 && decide (polWindow b < polPeriod b) && gValid p g && (gSelf p g != 0xFFFFFFFF)
    && decide (8 * wwc ≤ polLead b)
    && decide (polBaroff b + 4 * wwc ≤ (if polMode b = 0 then polWindow b else polPeriod b))
    && es.all Extent.ok
    && (polMode b == 0 ||
        (field b 112 8 % 4096 == 0 && decide (field b 112 8 + field b 120 8 ≤ hbmUserEnd) && decide (field b 120 8 ≤ 1016 * 2 ^ 30)
          && (shadowPlaces (b ++ man)).all (fun e => decide (e.2 + e.1.len ≤ field b 120 8))))

/-- The window of a policy, from number `from_` on, that meets [a, z). -/
def windowMeets (b : List Byte) (from_ a z : Nat) : Bool :=
  let n := max from_ (if a < polBase b + polWindow b then 0 else (a - polBase b - polWindow b) / max 1 (polPeriod b) + 1)
  decide (polCut b n < z) && decide (a < polCut b n + polWindow b)

/-- The first window of a policy whose count is at or after t. -/
def firstWindow (b : List Byte) (t : Nat) : Nat := if t ≤ polBase b then 0 else cdiv (t - polBase b) (max 1 (polPeriod b))

/-- A window of the armed policy that has begun keeps its units to its end although the policy goes. -/
def keepBegun (p : Pkg) (c : Clock) : Pkg :=
  match p.den.pol with
  | none => p
  | some b =>
    let n := (c.gsc - polBase b) / max 1 (polPeriod b)
    if polBase b ≤ c.gsc ∧ p.den.from_ ≤ n ∧ c.gsc < polCut b n + polWindow b ∧ !p.den.released.contains n then
      { p with ledger := p.ledger ++ [{ who := .den n, start := polCut b n, stop := polCut b n + polWindow b,
                                        tiles := allTiles, slvs := allSlvs, ues := allUes }] }
    else p

/-! The end of a cut (R372, R373) -/

def findCut (p : Pkg) (cn : Nat) : Option Cut := p.den.cuts.find? (fun x => x.cn == cn)
def setCut (p : Pkg) (x : Cut) : Pkg :=
  { p with den := { p.den with cuts := p.den.cuts.map (fun y => if y.cn = x.cn then x else y) } }

/-- `DEN.STATUS.CUTTING` and DRAINING follow the cuts. -/
def syncDen (p : Pkg) : Pkg :=
  rsetb (rsetb p rDenStatus 1 (p.den.cuts.any (fun x => x.phase != 0))) rDenStatus 2 (p.den.cuts.any (fun x => x.drain))

/-- A den notice (R368): kind 1 CUT, 2 ABANDON. -/
def noticeSend (p : Pkg) (c : Clock) (group cn kind : Nat) : Pkg :=
  wgBroadcast p c { group := group, opc := 0xD, llo := cn % 2 ^ 32, off := 0 }
    (natLe 8 cn ++ natLe 1 kind ++ List.replicate 3 0#8 ++ natLe 4 (gSelf p group))

/-- The outcome of a cut: its event, the registers, the descriptors that asked for it. -/
def closeCut (p : Pkg) (c : Clock) (x : Cut) (status reason ev aux : Nat) : Pkg :=
  let p := syncDen { p with den := { p.den with cuts := p.den.cuts.filter (fun y => y.cn != x.cn) } }
  let p := rset p rDenLast (status + reason * 256)
  let p := event p c ev 0xFF aux x.cn
  x.ops.foldl (fun q o => complete q c o status 0#16 x.cn reason false) p

/-- A member abandons its cut (R373); `tell` when it also broadcasts ABANDON. -/
def abandonCut (p : Pkg) (c : Clock) (x : Cut) (reason : Nat) (tell : Bool) : Pkg :=
  let p := if tell then noticeSend p c (polGroup x.pol) x.cn 2 else p
  closeCut (bump p rDenAbandons) c x 0x32 reason 0x05 reason

/-- Cuts that have not begun end with the policy that they belong to. -/
def dropPending (p : Pkg) (c : Clock) : Pkg :=
  (p.den.cuts.filter (fun x => x.phase == 0 && decide (c.gsc < x.cn))).foldl (fun q x => abandonCut q c x 0 false) p

/-! Arming (R367, R381) -/

/-- The operation waits on: its descriptor is still to be carried out. -/
def opStays (p : Pkg) (o : Op) : Pkg := { p with ops := p.ops.map (fun y => if y.id = o.id then o else y) }

/-- The policy of an admitted ARM takes effect; `r` is what the reads of its targets returned. -/
def armWith (p : Pkg) (c : Clock) (b man : List Byte) (r : SlotReads) : Pkg :=
  let n := firstWindow b c.gsc
  let p := dropPending (keepBegun p c) c
  let p := { p with den := { p.den with pol := some (b ++ man), from_ := n, released := [] } }
  let next := match chooseSlot (field b 0 8) (gSelf p (polGroup b)) r with
    | some q => 1 - q
    | none => 0
  let p := rsetb (rsetb (rsetb p rDenStatus 0 true) rDenStatus 4 (next == 1)) rDenStatus 5 (polMode b == 1)
  let early := p.placed.filter (fun y => !y.started && holdsUnits (y.claim y.start) && windowMeets b n y.start (y.start + y.dur))
  early.foldl (fun q y => placeOne q c y) p

/-- `CHECKPOINT_ARM` (R367, R381): the record and its manifest lie in HBM. The den reads the targets on the fabric by open loads, for
whose answers the descriptor waits; `rd` is what reads of host targets returned. -/
def execCheckpointArm (op : Nat) (rd : SlotReads) (s : State) : Out :=
  withOp s op [4] (fun c p o =>
    let k := field o.desc 4 1
    let a := field o.desc 8 8
    if k ≠ 1 then
      (if k = 0 ∨ 3 < k then plain p c op 0x12 else opStays p o)
    else if p.pins.refLost ∨ hbmUserEnd < a + 256 then plain p c op 0x12
    else match readMem p c a 256 with
      | (p, .error _) => plain p c op 0x21
      | (p, .ok b) =>
        let m := field b 64 8
        if 1024 < polNext b ∨ hbmUserEnd < m + 32 * polNext b then plain p c op 0x12
        else match readMem p c m (32 * polNext b) with
          | (p, .error _) => plain p c op 0x21
          | (p, .ok man) =>
            if !polOk p b man || (p.den.pol.isNone && decide (2048 ≤ ledgerUsed p c)) then plain p c op 0x12
            else
              if (prune p c).ledger.any (fun e => holdsUnits e && windowMeets b (firstWindow b c.gsc) e.start e.stop) then
                complete { p with fv := p.fv + 1 } c op 0x10 0#16 (Config.freeWord p.fv).toNat 0 false
              else
                let p := askSlots p c b
                match slotReads p b rd with
                | none => opStays p o
                | some r => plain (armWith (denForget p (slotAsks p b)) c b man r) c op 0)

/-- The armed policy ends: cuts that have not begun are abandoned, a window that has begun is kept (R367). -/
def disarm (p : Pkg) (c : Clock) : Pkg :=
  let p := dropPending (keepBegun p c) c
  rsetb { p with den := { p.den with pol := none, released := [] } } rDenStatus 0 false

/-- `CHECKPOINT_DISARM` (R367): every window that has not begun is freed. -/
def execCheckpointDisarm (op : Nat) (s : State) : Out :=
  withOp s op [4] (fun c p o =>
    if field o.desc 4 1 ≠ 2 then opStays p o
    else plain (disarm p c) c op 0)

/-! Requests (R368, R369) -/

/-- A cut is known to this member. -/
def noteCut (p : Pkg) (cn : Nat) (b : List Byte) (op : Option Nat) : Pkg :=
  let p := rset (rset p rDenCutLo (cn % 2 ^ 32)) rDenCutHi (cn / 2 ^ 32)
  match findCut p cn with
  | some x => setCut p { x with ops := x.ops ++ op.toList }
  | none => { p with den := { p.den with cuts := p.den.cuts ++ [{ cn := cn, held := true, ops := op.toList, pol := b }] } }

/-- A request raised now names the least window with CUTLEAD ticks to go. -/
def requestCut (p : Pkg) (c : Clock) (b : List Byte) (op : Option Nat) : Pkg :=
  let cn := polCut b (max p.den.from_ (firstWindow b (c.gsc + polLead b)))
  if (findCut p cn).isSome then noteCut p cn b op
  else noticeSend (noteCut p cn b op) c (polGroup b) cn 1

/-- `CHECKPOINT_CUT` (R368). -/
def execCheckpointCut (op : Nat) (s : State) : Out :=
  withOp s op [4] (fun c p o =>
    if field o.desc 4 1 ≠ 3 then opStays p o
    else match p.den.pol with
      | none => plain p c op 0x12
      | some b => requestCut p c b (some op))

/-- A den notice of a kind from a member is held. -/
def noticeHeld (p : Pkg) (group cn kind src : Nat) : Bool :=
  p.wg.any (fun v => v.ident == { group := group, opc := 0xD, llo := cn % 2 ^ 32, off := 0 } && v.src == src
    && field v.data 0 8 == cn && field v.data 8 1 == kind)

/-- `DEN_NOTICE_CUT` (R368, R369): a notice that comes after the release of its window is ignored and logged. -/
def execDenNoticeCut (cn src : Nat) (s : State) : Out :=
  run s (fun c p =>
    match p.den.pol with
    | none => p
    | some b =>
      let n := (cn - polBase b) / max 1 (polPeriod b)
      if !noticeHeld p (polGroup b) cn 1 src || decide (cn < polBase b) || (polCut b n != cn) || decide (n < p.den.from_)
        || (findCut p cn).isSome then p
      else if p.den.released.contains n || decide (cn + 4 * gWwc p (polGroup b) < c.gsc + polLead b) then logEntry p c 0x05 0xFF 7 cn 0
      else noteCut p cn b none)

/-- `DEN_NOTICE_ABANDON` (R373): before its commit starts, the member abandons the cut. -/
def execDenNoticeAbandon (cn src : Nat) (s : State) : Out :=
  run s (fun c p =>
    match findCut p cn with
    | none => p
    | some x =>
      if !noticeHeld p (polGroup x.pol) cn 2 src || x.phase == 6 || x.phase == 7 then p else abandonCut p c x 7 false)

/-- `WINDOW_RELEASE` (R369): window n, for which no CUT notice is held at C_n − CUTLEAD + 4 × WWC. -/
def execWindowRelease (n : Nat) (s : State) : Out :=
  run s (fun c p =>
    match p.den.pol with
    | none => p
    | some b =>
      let cn := polCut b n
      if n < p.den.from_ ∨ c.gsc + polLead b < cn + 4 * gWwc p (polGroup b) ∨ (findCut p cn).isSome ∨ p.den.released.contains n
        ∨ cn + polWindow b ≤ c.gsc then p
      else { p with den := { p.den with released := p.den.released ++ [n] } })

/-! Writing a shard (R371, R374, R376 to R378) -/

/-- One den write: host memory, this package's own memory, or an open packet of class DEN. False when it fails. -/
def denWrite (p : Pkg) (c : Clock) (host : Bool) (a : Nat) (bs : List Byte) : Pkg × Bool :=
  if host then (if eclUp p then ({ p with host := mwrite p.host a bs }, true) else (p, false))
  else if !windowOk p a bs.length 1 clsDen then (denBarred p, false)
  else if placeOf a = ownPlace p then
    match srvStore (enqueueAll p 2 (chargeWrites .den [(localOf a, bs.length)])) c (localOf a) bs with
    | (p, .ok _) => (p, true)
    | (p, .error _) => (p, false)
  else match ctxFor p (placeOf a) with
    | none => (p, false)
    | some cx => (sendReq p cx .den true true { ty := 0x01, daddr := a, payload := bs }, true)

/-- A store of the den is not yet acknowledged. -/
def denStoring (p : Pkg) : Bool := p.outs.any (fun o => o.who == .den && field o.bytes 0 1 == 1)

/-- Open packets outstanding (R298). -/
def openOut (p : Pkg) : Nat := p.outs.countP (fun o => o.opn) + p.resps.countP (fun r => r.pkt.opn)

/-- Issues writes while the open limit of R298 allows: what is left, and whether none failed. -/
def denIssue (c : Clock) (host : Bool) : List (Nat × List Byte) → Pkg → Pkg × List (Nat × List Byte) × Bool
  | [], p => (p, [], true)
  | (a, bs) :: r, p =>
    if 512 ≤ openOut p then (p, (a, bs) :: r, true)
    else match denWrite p c host a bs with
      | (q, true) => denIssue c host r q
      | (q, false) => (q, [], false)

/-- Bytes cut into writes of at most 4 KiB that cross no 4 KiB boundary (R292). -/
def pieces : Nat → Nat → List Byte → List (Nat × List Byte)
  | 0, _, _ => []
  | f + 1, a, bs =>
    if bs.isEmpty then []
    else let n := 4096 - a % 4096; (a, bs.take n) :: pieces f (a + n) (bs.drop n)

def writesAt (a : Nat) (bs : List Byte) : List (Nat × List Byte) := pieces (bs.length / 4096 + 2) a bs

/-- CONV on the way out (R378): the stored bytes, elements that raised SAT and FLUSH. -/
def convOut (conv : Nat) (bs : List Byte) : List Byte × Nat × Nat :=
  if conv = 0 then (bs, 0, 0)
  else
    let rs := (List.range (bs.length / 4)).map (fun i =>
      let v := BitVec.ofNat 64 (field bs (4 * i) 4)
      convert .rne .b32 {} .h16 {} (if conv = 1 then v else (fSqrt .b32 .rne v).1))
    (rs.flatMap (fun r => natLe 2 r.1.toNat), rs.countP (fun r => r.2 &&& fSAT != 0#16), rs.countP (fun r => r.2 &&& fFLUSH != 0#16))

/-- CONV on the way back. -/
def convBack (conv : Nat) (bs : List Byte) : List Byte :=
  if conv = 0 then bs
  else (List.range (bs.length / 2)).flatMap (fun i =>
    let v := (convert .rne .h16 {} .b32 {} (BitVec.ofNat 64 (field bs (2 * i) 2))).1
    natLe 4 (if conv = 1 then v else (fMul .b32 .rne v v).1).toNat)

/-- Where an extent is read from: its source, or its place in the shadow region. -/
def sourceOf (x : Cut) (e : Extent) (i : Nat) : Nat :=
  if x.drain then field x.pol 112 8 + ((shadowPlaces x.pol).getD i (e, 0)).2 else e.addr

/-- The shard header with its extent table (Tables 15.3 and 15.4). -/
def shardHeader (p : Pkg) (x : Cut) (sat flush : Nat) : List Byte :=
  let b := x.pol
  let g := polGroup b
  let table := (payloadPlaces b).flatMap (fun e => extentBytes { e.1 with poff := e.2 })
  let h := natLe 4 0x44524853 ++ natLe 2 1 ++ natLe 2 (polNext b) ++ natLe 8 (field b 0 8) ++ natLe 8 (polStep b x.cn) ++ natLe 8 x.cn
    ++ natLe 4 (gSelf p g) ++ natLe 4 (gNmem p g) ++ natLe 4 (ownPlace p) ++ natLe 4 (rget p rGlbDcid) ++ natLe 8 (shardLength b)
    ++ natLe 4 (min sat (2 ^ 32 - 1)) ++ natLe 4 (min flush (2 ^ 32 - 1)) ++ natLe 1 (polMode b) ++ List.replicate 187 0#8
  h ++ natLe 4 (crc32c (h ++ table)).toNat ++ table

/-- Step 2 of R371: the payload's writes and the header that will follow them; none when a source line is uncorrectable. -/
def buildPayload (p : Pkg) (c : Clock) (x : Cut) : Pkg × Option (List (Nat × List Byte) × List Byte) :=
  let base := (polTarget x.pol x.slot).2
  let es := (payloadPlaces x.pol).zipIdx
  let src := es.map (fun e => (sourceOf x e.1.1 e.2, e.1.1.len))
  match firstBad p src with
  | some l => (noteUe p c l, none)
  | none =>
    let parts := es.map (fun e => (base + e.1.2, convOut e.1.1.conv (mread p.mem (sourceOf x e.1.1 e.2) e.1.1.len)))
    let sat := parts.foldl (fun n e => n + e.2.2.1) 0
    let flush := parts.foldl (fun n e => n + e.2.2.2) 0
    (enqueueAll (noteCes p src) 2 (chargeReads .den src), some (parts.flatMap (fun e => writesAt e.1 e.2.1), shardHeader p x sat flush))

/-- Commit copy 0 or 1 of a cut. -/
def cutCommit (p : Pkg) (x : Cut) (copy : Nat) : List Byte :=
  let g := polGroup x.pol
  commitRecord x.slot copy (field x.pol 0 8) (polStep x.pol x.cn) x.cn (gSelf p g) (gNmem p g)

/-- The target that a phase writes. -/
def phaseTarget (x : Cut) : Bool × Nat := polTarget x.pol (if x.phase = 6 then 2 else if x.phase = 7 then 3 else x.slot)

/-- The den goes on with a cut: it issues the writes of its phase and, once they are acknowledged, enters the next. -/
def denGo (c : Clock) (cn : Nat) : Nat → Pkg → Pkg
  | 0, p => p
  | f + 1, p =>
    match findCut p cn with
    | none => p
    | some x =>
      if x.shard ≠ [] then
        match denIssue c (phaseTarget x).1 x.shard p with
        | (p, _, false) => abandonCut p c x 3 false
        | (p, rest, true) => let p := setCut p { x with shard := rest }; if rest = [] then denGo c cn f p else p
      else if denStoring p then p
      else if x.phase = 1 then
        match buildPayload p c x with
        | (p, none) => abandonCut p c x 2 true
        | (p, some (ws, hdr)) => denGo c cn f (setCut p { x with phase := 2, shard := ws, header := hdr })
      else if x.phase = 2 then denGo c cn f (setCut p { x with phase := 3, shard := writesAt (polTarget x.pol x.slot).2 x.header })
      else if x.phase = 3 then
        let n := p.den.bytes + shardLength x.pol
        rset (setCut { p with den := { p.den with bytes := n } } { x with phase := 4 }) rDenMib (n / 2 ^ 20)
      else if x.phase = 6 then
        denGo c cn f (setCut p { x with phase := 7, shard := writesAt (polTarget x.pol 3).2 (cutCommit p x 1) })
      else p

/-- After an acknowledgement, the cut that is being written goes on. -/
def denAdvance (p : Pkg) (c : Clock) : Pkg :=
  match p.den.cuts.find? (fun x => decide (1 ≤ x.phase) && decide (x.phase ≤ 7)) with
  | some x => denGo c x.cn 12 p
  | none => p

/-- A den write failed at its target. -/
def denFail (p : Pkg) (c : Clock) : Pkg :=
  match p.den.cuts.find? (fun x => decide (1 ≤ x.phase) && decide (x.phase ≤ 7)) with
  | some x => abandonCut p c x 3 false
  | none => p

/-- Step 1 of R371. -/
def beginShard (p : Pkg) (c : Clock) (x : Cut) (drain : Bool) : Pkg :=
  let slot := rfld p rDenStatus 4 4
  let p := setCut p { x with phase := 1, slot := slot, drain := drain, shard := writesAt (polTarget x.pol slot).2 (List.replicate 4 0#8) }
  denGo c x.cn 12 (syncDen p)

/-- The quick copy of R374. -/
def quickCopy (p : Pkg) (c : Clock) (x : Cut) : Pkg :=
  let es := shadowPlaces x.pol
  match firstBad p (es.map (fun e => (e.1.addr, e.1.len))) with
  | some l => abandonCut (noteUe p c l) c x 2 true
  | none =>
    let src := es.map (fun e => (e.1.addr, e.1.len))
    let p := enqueueAll (noteCes p src) 2 (chargeReads .den src ++ chargeWrites .den (es.map (fun e => (field x.pol 112 8 + e.2, e.1.len))))
    let q := es.foldl (fun q e => storeBytes q (field x.pol 112 8 + e.2) (mread p.mem e.1.addr e.1.len)) p
    syncDen (setCut q { x with phase := 8 })

/-- An ABANDON notice for the cut is held. -/
def abandonHeld (p : Pkg) (x : Cut) : Bool :=
  p.wg.any (fun v => v.ident == { group := polGroup x.pol, opc := 0xD, llo := x.cn % 2 ^ 32, off := 0 } && field v.data 0 8 == x.cn
    && field v.data 8 1 == 2)

/-- `CUT_START` (R370, R375): at C_n. -/
def execCutStart (cn : Nat) (s : State) : Out :=
  run s (fun c p =>
    match findCut p cn with
    | none => p
    | some x =>
      if c.gsc < cn ∨ x.phase ≠ 0 then p
      else if p.den.cuts.any (fun y => y.cn != cn && y.phase != 0) then abandonCut p c x 6 true
      else if p.den.lastBad then abandonCut p c x 1 true
      else if abandonHeld p x then abandonCut p c x 7 false
      else if polMode x.pol = 0 then beginShard p c x false
      else quickCopy p c x)

/-- `SHADOW_DRAIN` (R374): after the window, when the quick copy is done. -/
def execShadowDrain (cn : Nat) (s : State) : Out :=
  run s (fun c p =>
    match findCut p cn with
    | none => p
    | some x => if x.phase = 8 ∧ cn + polWindow x.pol ≤ c.gsc ∧ !owesHbm p .den then beginShard p c x true else p)

/-- Identity of a cut's barrier (R372). -/
def barrierIdent (x : Cut) : Ident := { group := polGroup x.pol, opc := 0xD, llo := x.cn % 2 ^ 32, off := polBaroff x.pol }

/-- `CUT_BARRIER` (R371, R372): at C_n + BAROFF the member contributes 1, or 0 when it has not finished its header. -/
def execCutBarrier (cn : Nat) (s : State) : Out :=
  run s (fun c p =>
    match findCut p cn with
    | none => p
    | some x =>
      if c.gsc < cn + polBaroff x.pol ∨ x.phase = 0 ∨ (5 ≤ x.phase ∧ x.phase ≤ 7) then p
      else
        let i := barrierIdent x
        let p := setCut p { x with phase := 5, shard := [] }
        wgStart p c { ident := i, opr := 2, dt := 3, nelem := 1, src := gSelf p i.group, hop := 0,
                      data := natLe 8 (b2n (x.phase == 4)), fl := 0 })

/-- `BARRIER_RESULT` (R372): commit copies are written, or the cut is abandoned. -/
def execBarrierResult (cn : Nat) (s : State) : Out :=
  run s (fun c p =>
    match findCut p cn with
    | none => p
    | some x =>
      if x.phase ≠ 5 then p
      else match wgResult p (barrierIdent x) 3 2 with
        | none => p
        | some (d, _) =>
          if leNat d = 1 then
            denGo c cn 12 (setCut p { x with phase := 6, shard := writesAt (polTarget x.pol 2).2 (cutCommit p x 0) })
          else abandonCut p c x 4 false)

/-- `COMMIT_ACKED` (R372): both commit copies are acknowledged. -/
def execCommitAcked (cn : Nat) (s : State) : Out :=
  run s (fun c p =>
    match findCut p cn with
    | none => p
    | some x =>
      if x.phase ≠ 7 ∨ x.shard ≠ [] ∨ denStoring p then p
      else
        let st := polStep x.pol cn
        let p := rsetb p rDenStatus 4 (!(x.slot == 1))
        let p := rset (rset (bump p rDenCuts) rDenStepLo (st % 2 ^ 32)) rDenStepHi (st / 2 ^ 32)
        closeCut p c x 0 0 0x04 x.slot)

/-- `CUT_WINDOW_END` (R373, R374): at C_n + WINDOW; a quick copy that has not had its turn in the queues by then is not finished. -/
def execCutWindowEnd (cn : Nat) (s : State) : Out :=
  run s (fun c p =>
    match findCut p cn with
    | none => p
    | some x =>
      if c.gsc < cn + polWindow x.pol then p
      else if polMode x.pol = 0 ∨ x.phase = 0 ∨ (x.phase = 8 ∧ owesHbm p .den) then abandonCut p c x 5 false else p)

/-! Restore (R383 to R386) -/

/-- What a restore asks besides admission (R383, R384). -/
def restoreBars (p : Pkg) (rrec : List Byte) : Bool :=
  let g := field rrec 12 2
  let n := field rrec 8 4
  !gValid p g || gNmem p g != n || decide (16 ≤ field rrec 14 1) || decide (64 ≤ field rrec 15 1)
    || (n == 1 && gSelf p g != 0)

/-- A restore is asked of admission; `r` is what this member's reads of its targets returned. -/
def restoreWith (p : Pkg) (c : Clock) (o : Op) (rrec : List Byte) (r : SlotReads) : Pkg :=
  let d := o.desc
  let g := field rrec 12 2
  let n := field rrec 8 4
  let (L, D, C) := (field d 8 8, field d 16 8, field d 24 8)
  let found := restoreFind rrec (gSelf p g) r
  let slot := (found.map (fun x => x.1)).getD 2
  let step := (found.map (fun x => x.2)).getD 0
  let hdr := slotHeader r slot
  let a := restoreAsk p L D (decide (1 < n))
  if n = 1 then
    match admission p c o.arrival a with
    | .refuse st dp => complete (noteRefusal p c a true) c o.id st 0#16 (if st = 0x10 then dp else 0) 0 false
    | .accept =>
      acceptLaunch p c
        { id := o.id, op := o.id, plan := 0xFFFF, L := L, C := C, D := D, prep := a.prep, wc := a.wc, tiles := allTiles, slvs := allSlvs,
          ues := allUes, rmask := 0, root := true, group := g, restore := true, rrec := rrec, hdr := hdr, found := step,
          slotSel := slot, report := field d 40 8 } a
  else
    let rec_ := launchRecord L C D 0xFFFF g (ownPlace p) (field rrec 56 8) (field rrec 64 8) n (field rrec 15 1) o.tag 0
    if rootBars p c rec_ then plain p c o.id 0x12
    else startRoot p c o rec_ rrec a (field d 40 8) slot step hdr (if found.isSome then (1, step) else (0x31, 0))

/-- `RESTORE` (R383, R384): `rrec` is the restore record in host memory. The den reads the targets on the fabric by open loads, for
whose answers the descriptor waits; `rd` is what reads of host targets returned. -/
def execRestore (op : Nat) (rrec : List Byte) (rd : SlotReads) (s : State) : Out :=
  withOp s op [5] (fun c p o =>
    let rrec := (rrec ++ List.replicate 128 0#8).take 128
    let b := restoreTargets rrec
    if restoreBars p rrec || decide (field o.desc 16 8 < field o.desc 8 8) then plain p c op 0x12
    else
      let p := askSlots p c b
      match slotReads p b rd with
      | none => opStays p o
      | some r => restoreWith (denForget p (slotAsks p b)) c o rrec r)

/-- One extent is restored: its bytes, or the status of the failure. -/
def restoreExtent (p : Pkg) (c : Clock) (e : Extent) (bs : List Byte) : Pkg × Nat :=
  if bs.length ≠ e.stored then (p, 0x22)
  else if e.kind = 1 ∧ !tileInService p e.tile then (p, 0x20)
  else match writeMem (enqueueAll p 2 (chargeWrites .den [(e.addr, e.len)])) c e.addr (convBack e.conv bs) with
    | (p, .ok _) => (p, 0)
    | (p, .error _) => (p, 0x21)

/-- The extents in order, up to the first failure. -/
def restoreExtents (c : Clock) : List (Extent × List Byte) → Pkg → Pkg × Nat
  | [], p => (p, 0)
  | (e, bs) :: r, p =>
    match restoreExtent p c e bs with
    | (q, 0) => restoreExtents c r q
    | (q, st) => (q, st)

/-- The bytes of the extents that a failed restore leaves undefined. -/
def scrambleExtents (p : Pkg) (es : List Extent) : Pkg :=
  let q := es.foldl (fun q e => { q with mem := mwrite q.mem e.addr ((List.range e.len).map (fun i => Config.freeByte p.fv (e.addr + i))) }) p
  { q with fv := q.fv + 1 }

/-- Comb memory, TOUCHED bits and pass counters of every logical tile are cleared (R386). -/
def clearComb (p : Pkg) : Pkg :=
  let inComb (a : Nat) : Bool := decide (0x210000000000 ≤ a) && decide (a < 0x210040000000)
  { p with mem := mclear p.mem inComb, badLines := p.badLines.filter (fun l => !inComb l), ceLines := p.ceLines.filter (fun l => !inComb l),
           tiles := p.tiles.map (fun e => (e.1, { e.2 with rows := [] })) }

/-- `RESTORE_LOAD` (R386): from L, a committed restore reads its payload, and loads it when it has come; `payload` is what reads of
each extent at a host target returned, empty where a read failed. -/
def execRestoreLoad (l : Nat) (payload : List (List Byte)) (s : State) : Out :=
  run s (fun c p =>
    match findLaunch p l with
    | none => p
    | some y =>
      if !y.restore || !y.committed || y.running || decide (c.gsc < y.L) then p
      else
        let es := headerExtents y.hdr
        let tg := restoreTargets y.rrec
        let (host, base) := polTarget tg y.slotSel
        let asks : List DenAsk := es.map (fun e => ((host, base + e.poff), e.stored))
        let p := rsetb (denAsk p c asks) rDenStatus 3 true
        let parts := asks.zipIdx.map (fun e => denRead p e.1 (payload.getD e.2 []))
        if parts.any (fun d => d.isNone) then p
        else
          let p := denForget (modLaunch p l (fun z => { z with running := true })) asks
          match restoreExtents c (es.zip (parts.filterMap id)) p with
          | (q, 0) => clearComb q
          | (q, st) => scrambleExtents (addCause q c l st) es)

/-- `RESTORE_DONE` (R386): the restore completes; a success advances the scale epoch. -/
def execRestoreDone (l : Nat) (s : State) : Out :=
  run s (fun c p =>
    match findLaunch p l with
    | none => p
    | some y =>
      if !y.restore || !y.running then p
      else
        let st := (firstCause y.causes).map (fun e => e.2)
        let p := freeLedger (rsetb p rDenStatus 3 false) (.launch l)
        let p := { p with launches := p.launches.filter (fun z => z.id != l) }
        match st with
        | some st =>
          let p := if y.multi then wgBroadcast p c (launchIdent y.group y.L) (noticeBytes st y.member) else p
          complete (noteFailure p c y st) c y.op st 0#16 0 (y.found % 2 ^ 32) false
        | none => complete (bump (bump p rGlbRestcnt) rDenRestores) c y.op 0 0#16 0 (y.found % 2 ^ 32) false)

end Sys2Proof.Machine
end

