-- ==== Sys2Proof/Machine/Arrive.lean ====
section
/-! DEFINITION. Packets received and answered (12_fabric_semantics R291 to R299, R304, R305). -/

namespace Sys2Proof.Machine

/-- The final receiver drops a packet that is poisoned or fails its CRC (R293, R321). -/
def dropped (p : Pkg) : Pkg := bump p rFabCrcdrop

/-- Flits of a port's open-class buffer (R303). -/
def openBuffer : Nat := 256

/-- Flits of an open packet enter the buffer of a port. -/
def bufferTake (p : Pkg) (q n : Nat) : Pkg :=
  let x := sget p.ports q {}
  { p with ports := sset p.ports q { x with held := x.held + n } }

/-- Flits leave the buffer of a port, and their credit goes back to the neighbour (R303). -/
def bufferFree (p : Pkg) (q held n : Nat) : Pkg :=
  let x := sget p.ports q {}
  { p with ports := sset p.ports q { x with held := x.held - held, back := x.back + n } }

/-- A packet that arrives for this place takes no room in the open-class buffer for long: its credit goes back at once. -/
def creditBack (p : Pkg) (q : Nat) (pkt : List Byte) : Pkg := if bit (field pkt 1 1) 0 then bufferFree p q 0 (flitsOf pkt) else p

/-- A packet of one of these types arrives for this place on a port that is up: the owl samples its header, its CRC is checked.
None when nothing further happens to it. -/
def arrive (p : Pkg) (c : Clock) (q : Nat) (pkt : List Byte) (poison : Bool) (types : List Nat) : Pkg × Option Hdr :=
  let h := parseHdr pkt
  if !carries p q h.ty || !types.contains h.ty || placeOf h.daddr != ownPlace p then (p, none)
  else
    let p := creditBack (owl p c q false pkt) q pkt
    if poison || !packetOk pkt then (dropped p, none) else (p, some h)

/-! Answers (R296) -/

/-- The header of an answer: it goes back to the sender, on the sender's context. -/
def replyHdr (p : Pkg) (h : Hdr) (ty flags len seq reason op1 : Nat) : Hdr :=
  Hdr.mk ty flags len seq (h.src * 2 ^ 46) (ownPlace p) h.sctx h.rctx 0 reason h.seq 0 op1

/-- An ACK: RXBASE goes in OP1. -/
def sendAck (p : Pkg) (c : Clock) (h : Hdr) : Pkg :=
  queueAnswer p c (mkPacket (replyHdr p h 0x10 0 0 0 0 (ctx p h.rctx).rxbase) [])

/-- A NAK with its reason. -/
def sendNak (p : Pkg) (c : Clock) (h : Hdr) (reason : Nat) : Pkg := queueAnswer p c (mkPacket (replyHdr p h 0x11 0 0 0 reason 0) [])

/-- A response: sequenced on the reverse context, kept until the requester acknowledges it (R299). -/
def sendResp (p : Pkg) (h : Hdr) (ty : Nat) (data : List Byte) : Pkg :=
  let x := ctx p h.rctx
  let opn := bit h.flags 0
  let b := mkPacket (replyHdr p h ty (b2n opn) data.length x.txseq 0 0) data
  let o : OutPkt := { ctx := h.rctx, seq := x.txseq, bytes := b, who := .firmware, opn := opn }
  { setCtx p h.rctx { x with txseq := (x.txseq + 1) % 2 ^ 32 } with resps := p.resps ++ [{ rctx := h.rctx, rseq := h.seq, pkt := o }] }

/-! Sequence numbers (R295) -/

/-- How far a number lies above RXBASE, modulo 2^32. -/
def seqAhead (x : Ctx) (s : Nat) : Nat := (s + 2 ^ 32 - x.rxbase) % 2 ^ 32

/-- Advances RXBASE past marked numbers. -/
def slide : Nat → Ctx → Ctx
  | 0, x => x
  | f + 1, x => if x.rxmap.getLsbD 0 then slide f { x with rxbase := (x.rxbase + 1) % 2 ^ 32, rxmap := x.rxmap >>> 1 } else x

/-- Marks a number; `stall` takes the tick when RXBASE moves, and when a first number above it is marked. -/
def markSeq (x : Ctx) (d : Nat) (now : Nat) : Ctx :=
  let y := slide 256 { x with rxmap := x.rxmap ||| (1#256 <<< d) }
  if y.rxbase = x.rxbase ∧ x.rxmap ≠ 0#256 then y else { y with stall := now }

/-- R295 on a sequenced packet. `apply` makes its effect and gives the data of its response, or the NAK reason, which leaves the
number unmarked; `resp` is the type of the response, none for an ACK. -/
def sequenced (p : Pkg) (c : Clock) (h : Hdr) (resp : Option Nat) (apply : Pkg → Served) : Pkg :=
  let x := ctx p h.rctx
  let d := seqAhead x h.seq
  if 2 ^ 31 ≤ d ∨ (d < 256 ∧ x.rxmap.getLsbD d) then
    let p := bump p rFabDups
    match resp with
    | none => sendAck p c h
    | some _ =>
      { p with resps := p.resps.map (fun r =>
          if r.rctx = h.rctx ∧ r.rseq = h.seq ∧ r.pkt.sent.isSome then { r with pkt := { r.pkt with due := some c.gsc, again := true } } else r) }
  else if 256 ≤ d then sendNak p c h 1
  else if resp.isSome && decide (4096 ≤ p.resps.length) then sendNak p c h 2
  else match apply p with
    | (p, .error e) => sendNak p c h e
    | (p, .ok data) =>
      let p := setCtx p h.rctx (markSeq (ctx p h.rctx) d c.gsc)
      let p := if bit h.flags 2 then countDso p (some h.dso) else p
      match resp with
      | none => sendAck p c h
      | some ty => sendResp p h ty data

/-! What an answer means to its requester (R296, R304, R305) -/

/-- The access that a host's packet carried. -/
def packetAccess (h : Hdr) (bytes : List Byte) : Access :=
  if h.ty = 0x02 then .load (h.op0 % 2 ^ 13)
  else if h.ty = 0x01 then .store (payloadOf bytes)
  else if h.ty = 0x04 then .fetchAdd (BitVec.ofNat 64 h.op0)
  else .cas (BitVec.ofNat 64 h.op0) (BitVec.ofNat 64 h.op1)

/-- Stores, float adds and posted adds count in the destination tables. -/
def isStoreTy (ty : Nat) : Bool := ty == 0x01 || ty == 0x06 || ty == 0x07 || ty == 0x09

/-- Takes an answered packet out and counts SSO. -/
def takeOut (p : Pkg) (o : OutPkt) : Pkg :=
  countDso { p with outs := p.outs.filter (fun x => !(x.ctx == o.ctx && x.seq == o.seq)) } o.sso

/-- An answer for a core: the register awaited takes the old value; a remote float add goes on by compare-and-swap. -/
def coreAnswer (p : Pkg) (c : Clock) (k : Nat) (o : OutPkt) (data : Option (List Byte)) : Pkg :=
  let h := parseHdr o.bytes
  let p := if isTileCore k && isStoreTy h.ty then
      advanceTile (modTile p k (fun t => { t with dests := destAck t.dests (placeOf h.daddr) true })) c k else p
  let x := sget p.cores k {}
  if p.outs.any (fun y => y.who == .core k) then p
  else match x.answer, data with
    | some (.old rd), some bs => setCore p k { x.xset rd (BitVec.ofNat 64 (leNat bs)) with answer := none }
    | some (.fsum rd cx a v seen), some bs =>
      let got := leNat bs
      if seen = some (BitVec.ofNat 64 got) ∧ h.ty = 0x05 then setCore p k { x.fset k rd (BitVec.ofNat 64 got) with answer := none }
      else
        let sum := (fAdd .b64 .rne (BitVec.ofNat 64 got) v).1
        let p := sendReq p cx (.core k) true true { ty := 0x05, daddr := a, op0 := got, op1 := sum.toNat }
        setCore p k { x with answer := some (.fsum rd cx a v (some (BitVec.ofNat 64 got))) }
    | _, _ => p

/-- An answer for a tile's instruction. -/
def tileAnswer (p : Pkg) (c : Clock) (t n : Nat) (o : OutPkt) (data : Option (List Byte)) : Pkg :=
  let h := parseHdr o.bytes
  let p := modTile p t (fun x => { x with dests := destAck x.dests (placeOf h.daddr) data.isNone })
  match data with
  | none => advanceTile (modInfl p t n oneDone) c t
  | some bs =>
    let p := modInfl p t n (fun f => { f with got := f.got ++ [(h.daddr, bs)], pend := f.pend - 1 })
    match findInfl p t n with
    | none => p
    | some f => if f.pend = 0 ∧ !f.failed then dataDone p c t f else p

/-- What a read of the den returned, empty when it failed. -/
def denGot (p : Pkg) (a n : Nat) (bs : List Byte) : Pkg :=
  { p with den := { p.den with reads := p.den.reads.map (fun r => if r.addr = a ∧ r.n = n then { r with data := some bs } else r) } }

/-- The first answer to a request. -/
def answered (p : Pkg) (c : Clock) (o : OutPkt) (data : Option (List Byte)) : Pkg :=
  let h := parseHdr o.bytes
  let p := takeOut p o
  match o.who with
  | .tile t n => tileAnswer p c t n o data
  | .core k => coreAnswer p c k o data
  | .host id => eclReply p id 0 (packetAccess h o.bytes) (data.getD [])
  | .den =>
    match data with
    | some bs => denGot p h.daddr (h.op0 % 2 ^ 13) bs
    | none => denAdvance p c
  | .proto id =>
    let so := sget p.protos id 0
    let p := { p with protos := sdel p.protos id }
    sendReq p o.ctx .firmware true true { ty := 0x04, daddr := so, op0 := 1 }
  | _ => p

/-- A request has failed: a NAK of reason RANGE, MEMORY or RETIRED, or FAILED_FABRIC after its last resend. `st` is the status
of the failure, 0 for RANGE. -/
def failedOut (p : Pkg) (c : Clock) (o : OutPkt) (st : Nat) : Pkg :=
  let h := parseHdr o.bytes
  let p := { p with outs := p.outs.filter (fun x => !(x.ctx == o.ctx && x.seq == o.seq)) }
  let p := if st = 0x22 then bump p rFabFailed else p
  let failJobs (ue : Bool) (u : Nat) : Pkg :=
    match p.jobs.find? (fun j => j.ue == ue && j.unit == u && j.running && !j.closed) with
    | none => p
    | some j => if st = 0 then jobFault p c j (if ue then 0 else (jobRecord p j).jstat) 0x05 else if ue then failUp p c j [] st
      else failJob p c j (launchMask p j.launch) (jobRecord p j).jstat st
  match o.who with
  | .tile t n =>
    if st = 0 then nakTile p c t n nakRange else failHeld p c t n st
  | .core k =>
    let x := sget p.cores k {}
    if isTileCore k && x.sched then
      (if st = 0 then planFault p c k 0x05 0 0 0
       else match (tile p k).launch with
         | some l => addCause p c l st
         | none => p)
    else { p with excs := p.excs ++ [{ core := k, subcause := 3, pc := x.pc }], cores := sset p.cores k { x with answer := none } }
  | .slv u => failJobs false u
  | .ue u => failJobs true u
  | .swarm n =>
    match p.swops.find? (fun w => w.id == n) with
    | none => p
    | some w =>
      let p := loseSw p n
      if st = 0 then planFault p c w.tile 0x05 3 0 0 else failHeld p c w.tile w.seq st
  | .host id =>
    eclReply p id (if st = 0 then 1 else if st = 0x21 then 3 else if st = 0x20 then 4 else 5) (packetAccess h o.bytes) []
  | .den => if h.ty = 0x02 then denGot p h.daddr (h.op0 % 2 ^ 13) [] else denFail p c
  | .proto id => { p with protos := sdel p.protos id }
  | _ => p

/-- The status of a NAK's failure (Table 12.6). -/
def nakStatus (reason : Nat) : Nat := if reason = nakMemory then 0x21 else if reason = nakRetired then 0x20 else 0

/-- The request that an answer names: context and ASEQ. -/
def outFor (p : Pkg) (h : Hdr) : Option OutPkt := p.outs.find? (fun o => o.ctx == h.rctx && o.seq == h.aseq && o.sent.isSome)
def respFor (p : Pkg) (h : Hdr) : Option Resp := p.resps.find? (fun r => r.pkt.ctx == h.rctx && r.pkt.seq == h.aseq && r.pkt.sent.isSome)

/-- An ACK: a request is answered, or a retained response released. -/
def takeAck (p : Pkg) (c : Clock) (h : Hdr) : Pkg :=
  match outFor p h with
  | some o => answered p c o none
  | none =>
    match respFor p h with
    | some r => { p with resps := p.resps.filter (fun x => !(x.rctx == r.rctx && x.rseq == r.rseq)) }
    | none => p

/-- A packet is due for resending now (R297, R303). -/
def dueNow (p : Pkg) (c : Clock) (cx seq : Nat) : Pkg :=
  { p with outs := p.outs.map (fun o => if o.ctx = cx ∧ o.seq = seq then { o with due := some c.gsc } else o),
           resps := p.resps.map (fun r => if r.pkt.ctx = cx ∧ r.pkt.seq = seq then
             { r with pkt := { r.pkt with due := some c.gsc } } else r) }

/-- A NAK (Table 12.6). -/
def takeNak (p : Pkg) (c : Clock) (h : Hdr) : Pkg :=
  if h.nreason = 1 ∨ h.nreason = 2 then dueNow p c h.rctx h.aseq
  else if h.nreason = 3 ∨ h.nreason = 4 ∨ h.nreason = 5 then
    match outFor p h with
    | some o => failedOut p c o (nakStatus h.nreason)
    | none => p
  else p

end Sys2Proof.Machine
end

