-- ==== Sys2Proof/Machine/Swarm.lean ====
section
/-! DEFINITION. Collectives (14_collectives R343 to R364): the CL instructions, chunks over the swarm trees, values over the
waggle path. -/

namespace Sys2Proof.Machine

/-! The CL instructions (R343 to R346) -/

/-- DT of Table 14.5. -/
def dtOf (f : Fmt) : Option Nat := if f = .b64 then some 0 else if f = .b32 then some 1 else if f = .h16 then some 2 else if f = .i64 then some 3 else none

/-- Dense: LINEAR, each stride the product of the sizes before it. -/
def Desc.dense (d : Desc) : Bool :=
  d.layout == 0 && (List.range d.rank).all (fun k => d.st k == ((List.range k).map d.sz).foldl (fun a b => a * b) 1)

def Desc.sameShape (a d : Desc) : Bool := (List.range 4).all (fun k => a.sz k == d.sz k)

/-- Partial width of a reduction, element width of a broadcast (R345). -/
def clWidth (bcast : Bool) (f : Fmt) : Nat := if !bcast && f == .h16 then 4 else f.width / 8

/-- DC's format for DA's (Table 14.4). -/
def clTarget (bcast h16 : Bool) (fa fc : Fmt) : Bool :=
  if bcast then fc == fa else if fa = .h16 then (if h16 then fc == .h16 else fc == .b32) else fc == fa

/-- Another operation of this launch, or a packet received, that carries the same identity (R346). -/
def sameIdent (i j : Ident) : Bool := i.group == j.group && i.llo == j.llo && i.off == j.off

/-- What must agree between an operation and a packet of its identity; the traffic of other users of the path is no operation's. -/
def agrees (o : SwOp) (i : Ident) (opr dt nelem : Nat) : Bool :=
  !sameIdent o.ident i || decide (0xD ≤ i.opc) || (o.ident.opc == i.opc && o.opr == opr && o.dt == dt && o.nelem == nelem)

/-- A CL instruction at issue: opcode nibble `opc`, waggle from 3 on, broadcasts 2 and 4. -/
def goCl (t opc : Nat) (p : Pkg) (l : Nat) (x : Tile) (w _ : Nat) : Chk (Pkg × InFl) := do
  let mask := launchMask p l
  let bcast := opc == 2 || opc == 4
  let waggle := decide (3 ≤ opc)
  let g := bits w 15 4
  let self := gSelf p g
  let needA := !bcast || self == 0
  let needC := opc != 1 || self == 0
  let llo := launchTick p l % 2 ^ 32
  let ident : Ident := { group := g, opc := opc, llo := llo, off := bits w 45 16 }
  need (gValid p g && self != 0xFFFFFFFF && groupListed p l g) (fDesc (slotA w))
  let a := x.desc (slotA w)
  let d := x.desc (slotC w)
  need (!needA || a.valid t mask false false) (fDesc (slotA w))
  need (!needC || d.valid t mask false false) (fDesc (slotC w))
  let src := if needA then a else d
  let fa := src.fmt
  need ((dtOf fa).isSome) (fDesc (slotA w))
  let opr := bits w 3 0
  need (bcast || (decide (opr ≤ 5) && (fa == .i64 || decide (opr ≤ 2)))) (fDesc (slotA w))
  need (!(needA && needC) || (clTarget bcast (bit (wFlags w) 0) fa d.fmt && a.sameShape d)) (fDesc (slotC w))
  need ((!needA || a.dense) && (!needC || d.dense)) (fDesc (slotA w))
  let wid := clWidth bcast fa
  let e := src.count
  let inReach (y : Desc) := if waggle then y.own t else y.own t || y.hbm
  need ((!needA || inReach a) && (!needC || inReach d)) (fDesc (slotA w))
  need (!waggle || decide (e * wid ≤ 64)) (fDesc (slotA w))
  let b := x.desc (slotB w)
  need (waggle || (b.valid t mask false false && b.fmt == .i8 && b.layout == 0 && b.hbm && decide (e * wid ≤ b.count))) (fDesc (slotB w))
  need (!p.swops.any (fun o => o.launch == l && sameIdent o.ident ident)) (fDesc (slotA w))
  let o : SwOp := {
    id := p.nextSw, tile := t, seq := x.seq - 1, launch := l, ident := ident, opr := opr, dt := (dtOf fa).getD 0, nelem := e, w := wid,
    h16 := bit (wFlags w) 0, plim := bits (wFlags w) 2 1, self := self, n := gNmem p g, da := if needA then a.addr else 0,
    db := if waggle then 0 else b.addr, dc := if needC then d.addr else 0, daBytes := fa.width / 8 }
  .ok ({ p with swops := p.swops ++ [o], nextSw := p.nextSw + 1 }, heldFl p w .unit)

/-- The plan fault of R346. -/
def mismatchFault (p : Pkg) (c : Clock) (o : SwOp) : Pkg :=
  if o.failed then p else planFault (bump (loseSw p o.id) rSwmMismatch) c o.tile 0x0C 3 0 0

/-- The operation of this member that a packet disagrees with (R346). -/
def disagrees (p : Pkg) (i : Ident) (opr dt nelem : Nat) : Option SwOp := p.swops.find? (fun o => !agrees o i opr dt nelem)

/-- Packets that came before the operation issued are compared when it does. -/
def lateMismatch (p : Pkg) (c : Clock) : Pkg :=
  match p.swops.getLast? with
  | none => p
  | some o =>
    if o.started || (p.swIn.all (fun k => agrees o k.ident k.opr k.dt k.nelem)
        && p.wg.all (fun v => agrees o v.ident v.opr v.dt v.nelem)) then p
    else mismatchFault p c o

def clIssue (t : Fin 128) (opc : Nat) (s : State) : Out :=
  run s (fun c p =>
    let q := issue p c t 3 (0xD0 + opc) 1 (goCl t opc)
    if q.nextSw = p.nextSw then q else lateMismatch q c)

/-- `CL.ALLREDUCE` (R351). -/
def execClAllreduce (t : Fin 128) (s : State) : Out := clIssue t 0 s
/-- `CL.REDUCE` (R351). -/
def execClReduce (t : Fin 128) (s : State) : Out := clIssue t 1 s
/-- `CL.BCAST` (R351). -/
def execClBcast (t : Fin 128) (s : State) : Out := clIssue t 2 s
/-- `CL.WREDUCE` (R359). -/
def execClWreduce (t : Fin 128) (s : State) : Out := clIssue t 3 s
/-- `CL.WBCAST` (R359). -/
def execClWbcast (t : Fin 128) (s : State) : Out := clIssue t 4 s

/-! Operations -/

def findSw (p : Pkg) (n : Nat) : Option SwOp := p.swops.find? (fun o => o.id == n)
def modSw (p : Pkg) (n : Nat) (f : SwOp → SwOp) : Pkg := { p with swops := p.swops.map (fun o => if o.id = n then f o else o) }
def modChunk (p : Pkg) (n k : Nat) (f : Chunk → Chunk) : Pkg :=
  modSw p n (fun o => { o with chunks := sset o.chunks k (f (sget o.chunks k {})) })

def SwOp.bcast (o : SwOp) : Bool := o.ident.opc == 2 || o.ident.opc == 4
/-- The bytes of a chunk (R347). -/
def SwOp.clen (o : SwOp) (k : Nat) : Nat := min 65536 (o.nelem * o.w - 65536 * k)

/-- The operation fails with a status (R37, R353). -/
def failSw (p : Pkg) (c : Clock) (o : SwOp) (st : Nat) : Pkg :=
  failHeld (loseSw p o.id) c o.tile o.seq st

/-- The operation has done its part; its flags enter the instruction. -/
def endSw (p : Pkg) (o : SwOp) : Pkg :=
  let p := modSw (bump p rSwmOps) o.id (fun y => { y with closed := true })
  syncSwm (modInfl p o.tile o.seq (fun f => { f with fin := !f.failed, flags := f.flags ||| BitVec.ofNat 16 o.flags }))

/-- n elements from number i of DA in the stream's form: H16 of a reduction decoded (R60, R347). -/
def SwOp.own (o : SwOp) (m : Mem) (i n : Nat) : List Byte :=
  let bs := mread m (o.da + o.daBytes * i) (o.daBytes * n)
  if o.dt = 2 ∧ !o.bcast then (List.range n).flatMap (fun j =>
    natLe 4 (convert .rne .h16 {} .b32 {} (BitVec.ofNat 64 (field bs (2 * j) 2))).1.toNat)
  else bs

/-- A result in DC's format, with the flags of the conversion (R351). -/
def SwOp.toDc (o : SwOp) (bs : List Byte) : List Byte × Nat :=
  if o.dt = 2 ∧ !o.bcast ∧ o.h16 then
    let rs := (List.range (bs.length / 4)).map (fun j => convert .rne .b32 {} .h16 {} (BitVec.ofNat 64 (field bs (4 * j) 4)))
    (rs.flatMap (fun r => natLe 2 r.1.toNat), rs.foldl (fun a r => Nat.lor a r.2.toNat) 0)
  else (bs, 0)
def SwOp.dcBytes (o : SwOp) : Nat := if o.dt = 2 ∧ !o.bcast ∧ o.h16 then 2 else o.w

/-- HBM traffic of a swarm engine: partition 0, in its operation's name (Table 10.3). -/
def chargeSw (p : Pkg) (o : SwOp) (wr : Bool) (a n : Nat) : Pkg :=
  enqueueAll p 0 (if wr then chargeWrites (.swarm o.id) [(a, n)] else chargeReads (.swarm o.id) [(a, n)])

/-- A result from element i on is written to DC; none when a line of it refuses the write. -/
def SwOp.deliver (o : SwOp) (p : Pkg) (c : Clock) (i : Nat) (r : List Byte × Nat) : Option Pkg :=
  let (bs, fl) := o.toDc r.1
  let a := o.dc + o.dcBytes * i
  match writeMem (chargeSw p o true a bs.length) c a bs with
  | (p, .ok _) => some (modSw p o.id (fun y => { y with flags := Nat.lor y.flags (Nat.lor r.2 fl) }))
  | (_, .error _) => none

/-! Trees (R348) -/

/-- Position of a member in the tree of chunk k, and the member at a position. -/
def SwOp.posOf (o : SwOp) (k m : Nat) : Nat := (m + o.n - k % o.n) % o.n
def SwOp.memAt (o : SwOp) (k q : Nat) : Nat := (q + k) % o.n
def SwOp.kids (o : SwOp) (k : Nat) : List Nat :=
  ((List.range 8).map (fun j => 8 * o.posOf k o.self + j + 1)).filter (fun q => decide (q < o.n)) |>.map (o.memAt k)
def SwOp.parent (o : SwOp) (k : Nat) : Nat := o.memAt k ((o.posOf k o.self - 1) / 8)
def SwOp.root (o : SwOp) (k : Nat) : Nat := k % o.n

/-- The context on which the plan's schedule sends chunk k's packets to a place: that of the first entry of its engine whose peer
is the place. -/
def swCtx (p : Pkg) (o : SwOp) (k place : Nat) : Option Nat :=
  match findLaunch p o.launch with
  | none => none
  | some y =>
    let cs := planCtxs p y.plan
    ((planSlots p y.plan).find? (fun e => e.ukind == 3 && e.unit == k % 4
      && cs.any (fun x => x.1 == e.cx && x.2.2 == place))).map (fun e => e.cx)

def SwOp.hdr (o : SwOp) (k : Nat) : SwHdr :=
  { ident := o.ident, opr := o.opr, dt := o.dt, chunk := k, nelem := o.nelem, frag := 0, hop := 0 }

/-- A chunk goes to a member; an outbound window must allow it (R310). -/
def sendTo (p : Pkg) (c : Clock) (o : SwOp) (k m : Nat) (d : List Byte × Nat) : Pkg :=
  let dst := placeOfMember p o.ident.group m
  if !swarmAllowed p dst false false then planFault (loseSw p o.id) c o.tile 0x0A 3 0 0
  else match swCtx p o k dst with
    | none => p
    | some cx => sendChunk p cx (.swarm o.id) false dst (o.hdr k) d

/-- The chunk is kept in the staging area (R353); none when it covers an uncorrectable line only in part (R252). -/
def stage (p : Pkg) (c : Clock) (o : SwOp) (k : Nat) (d : List Byte × Nat) : Option Pkg :=
  let a := o.db + 65536 * k
  match writeMem (chargeSw p o true a d.1.length) c a d.1 with
  | (p, .ok _) => some p
  | (_, .error _) => none

/-- A chunk that its operation could not keep or deliver: the operation fails with FAILED_MEMORY (Table 10.5). -/
def badLineAt (p : Pkg) (c : Clock) (o : SwOp) (a n : Nat) : Pkg :=
  failSw ((firstBad p (partLines a n)).elim p (fun l => noteUe p c l)) c o 0x21

/-- Whether the operation has done everything on this member. -/
def swDone (o : SwOp) : Bool :=
  (List.range o.nc).all (fun k =>
    let x := sget o.chunks k {}
    if o.ident.opc = 1 ∧ o.self ≠ 0 then x.part.isSome else x.done && (o.bcast || x.part.isSome))

def closeSw (p : Pkg) (n : Nat) : Pkg :=
  match findSw p n with
  | none => p
  | some o => if !o.closed && !o.failed && swDone o then endSw p o else p

/-- The members that a chunk's result goes on to (R351). -/
def SwOp.onward (o : SwOp) (k : Nat) : List Nat := if o.ident.opc = 1 then [] else o.kids k

/-- A chunk's result is on this member: written and sent on; a chunk that is sent on is kept in staging. -/
def takeResult (p : Pkg) (c : Clock) (o : SwOp) (k : Nat) (d : List Byte × Nat) : Pkg :=
  match (if o.onward k = [] then some p else stage p c o k d) with
  | none => badLineAt p c o (o.db + 65536 * k) d.1.length
  | some p =>
  match o.deliver p c (65536 * k / o.w) d with
  | none => badLineAt p c o (o.dc + o.dcBytes * (65536 * k / o.w)) (o.toDc d.1).1.length
  | some q =>
    let q := modChunk q o.id k (fun x => { x with res := some d, done := true })
    closeSw ((o.onward k).foldl (fun q m => sendTo q c o k m d) q) o.id

/-- The chunk's result leaves its root (R351). -/
def rootResult (p : Pkg) (c : Clock) (o : SwOp) (k : Nat) (d : List Byte × Nat) : Pkg :=
  if o.ident.opc = 1 ∧ o.self ≠ 0 then closeSw (sendTo p c o k 0 d) o.id else takeResult p c o k d

/-! Checking and pulling (R353) -/

/-- The operation of this member that a packet's identity names. -/
def swFor (p : Pkg) (i : Ident) : Option SwOp := p.swops.find? (fun o => decide (i.opc < 0xD) && sameIdent o.ident i)

/-- A packet that goes in a retry slot. -/
def inRetry (p : Pkg) (c : Clock) (cx : Nat) (n0 : Nat) : Pkg :=
  { p with outs := p.outs.zipIdx.map (fun e => if n0 ≤ e.2 ∧ e.1.ctx = cx then { e.1 with due := some c.gsc } else e.1) }

/-- The consumer pulls a chunk again, or gives up (R353). -/
def pullChunk (p : Pkg) (c : Clock) (o : SwOp) (k src : Nat) : Pkg :=
  let done := sget (sget o.chunks k {}).pulls src 0
  if o.plim ≤ done then failSw p c o 0x22
  else
    let dst := placeOfMember p o.ident.group src
    if !swarmAllowed p dst true false then planFault (loseSw p o.id) c o.tile 0x0A 3 0 0
    else match swCtx p o k dst with
    | none => failSw p c o 0x22
    | some cx =>
      let n0 := p.outs.length
      let p := sendSw (bump p rSwmPulls) cx (.swarm o.id) false 0x22 dst (o.hdr k) []
      modChunk (inRetry p c cx n0) o.id k (fun x => { x with pulls := sset x.pulls src (done + 1), owed := src :: x.owed.erase src })

/-- The member whose result this member takes for a chunk: its parent, the root, or member 0. -/
def SwOp.above (o : SwOp) (k : Nat) : Nat :=
  if o.ident.opc = 1 then o.root k else if o.self = o.root k then 0 else o.parent k

/-- A chunk may have come whole: it is checked, and a result is taken. -/
def chunkCheck (p : Pkg) (c : Clock) (i : Ident) (k src : Nat) : Pkg :=
  match swFor p i with
  | none => p
  | some o =>
    if o.failed || o.closed || o.waggle then p
    else match gather p i k src (o.clen k) with
      | none => p
      | some (_, _, true) => pullChunk (bump (forget p i k src) rSwmCrcbad) c o k src
      | some (d, fl, false) =>
        let p := modChunk p o.id k (fun x => { x with owed := x.owed.erase src })
        if src = o.above k ∧ o.started ∧ !(sget o.chunks k {}).done ∧ (o.ident.opc ≠ 1 ∨ o.self = 0) then
          takeResult (forget p i k src) c o k (d, fl) else p

/-! Starting (R357) -/

/-- Data of a waggle value of this member. -/
def SwOp.value (o : SwOp) (data : List Byte) : WgVal :=
  { ident := o.ident, opr := o.opr, dt := o.dt, nelem := o.nelem, src := o.self, hop := 0, data := data, fl := 0 }

/-- The result of a waggle operation is delivered once every partial is held. -/
def wgFinish (p : Pkg) (c : Clock) (o : SwOp) : Pkg :=
  if !o.started || o.closed || o.failed then p
  else match wgResult p o.ident o.dt o.opr with
    | none => p
    | some r =>
      match o.deliver p c 0 r with
      | none => badLineAt p c o o.dc (o.toDc r.1).1.length
      | some q =>
        match findSw q o.id with
        | none => q
        | some o => endSw q o

/-- A job's sum is in (R173, R188). PASS1 raises no flag. -/
def jobFinish (p : Pkg) (c : Clock) (j : Job) : Pkg :=
  if !j.sparse.waitSum || j.closed || j.sum.isSome then p
  else match wgResult p (jobIdent p j) j.sparse.sumDt 0 with
    | none => p
    | some (d, fl) => modJob p j.id (fun k => { k with
        sum := some (BitVec.ofNat 64 (leNat d)), late := max k.late (jobCycle p c j),
        flags := if k.ue then k.flags else k.flags ||| BitVec.ofNat 16 fl })

/-- Whatever waits for a value of this identity goes on. -/
def wgCheck (p : Pkg) (c : Clock) (i : Ident) : Pkg :=
  let p := (p.swops.filter (fun o => o.ident == i)).foldl (fun q o => wgFinish q c o) p
  (p.jobs.filter (fun j => j.sparse.waitSum && jobIdent p j == i)).foldl (fun q j => jobFinish q c j) p

/-- An operation starts. -/
def startSw (p : Pkg) (c : Clock) (o : SwOp) : Pkg :=
  let fault := rfld p rSwmStatus 11 8
  let p := modSw p o.id (fun y => { y with started := true })
  if !o.waggle then
    if (List.range 4).any (fun d => decide (d < o.nc) && bit fault d) then failSw p c o 0x20
    else (p.swIn.filter (fun k => k.frag == 16 && sameIdent k.ident o.ident)).foldl (fun q k => chunkCheck q c k.ident k.chunk k.src)
      (syncSwm p)
  else if o.bcast ∧ o.self ≠ 0 then wgCheck p c o.ident
  else match firstBad p [(o.da, o.daBytes * o.nelem)] with
    | some l => failSw (noteUe p c l) c o 0x21
    | none =>
      let p := noteCes p [(o.da, o.daBytes * o.nelem)]
      wgCheck (wgStart p c (o.value (o.own p.mem 0 o.nelem))) c o.ident

/-- `SWARM_START` (R357, R364): the operation numbered n, or the waggle sum of job n, starts at its tick. -/
def execSwarmStart (job : Bool) (n : Nat) (s : State) : Out :=
  run s (fun c p =>
    if job then
      match findJob p n with
      | none => p
      | some j =>
        let i := jobIdent p j
        let L := launchTick p j.launch
        if !j.sparse.waitSum || j.closed || decide (c.gsc < L + i.off) || !gValid p i.group then p
        else if (wgFind p i false (gSelf p i.group)).isSome then p
        else
          wgCheck (wgStart p c { ident := i, opr := 0, dt := j.sparse.sumDt, nelem := 1, src := gSelf p i.group, hop := 0,
                                 data := natLe 8 j.sparse.loc.toNat, fl := 0 }) c i
    else
      match findSw p n with
      | none => p
      | some o =>
        let L := launchTick p o.launch
        if o.started || o.failed || decide (c.gsc < L + o.ident.off) then p else startSw p c o)

/-! Producing (R349) -/

/-- The children's checked chunks, when all are in. -/
def kidChunks (p : Pkg) (o : SwOp) (k : Nat) : Option (List (List Byte × Nat)) :=
  let xs := (o.kids k).map (fun m => gather p o.ident k m (o.clen k))
  if xs.any (fun x => (x.map (fun y => y.2.2)).getD true) then none
  else some (xs.filterMap (fun x => x.map (fun y => (y.1, y.2.1))))

/-- `CHUNK_PRODUCE` (R349, R351): this member's partial of a chunk, or member 0's chunk of a broadcast. -/
def execChunkProduce (n k : Nat) (s : State) : Out :=
  run s (fun c p =>
    match findSw p n with
    | none => p
    | some o =>
      if !o.started || o.closed || o.failed || o.waggle || decide (o.nc ≤ k) || (sget o.chunks k {}).part.isSome
          || (o.bcast && o.self != 0) then p
      else
        let first := 65536 * k / o.w
        let len := o.clen k / o.w
        match firstBad p [(o.da + o.daBytes * first, o.daBytes * len)] with
        | some l => failSw (noteUe p c l) c o 0x21
        | none =>
          let own := o.own p.mem first len
          let src := (o.da + o.daBytes * first, o.daBytes * len)
          let goOn (p : Pkg) (d : List Byte × Nat) : Pkg :=
            match stage (chargeSw (noteCes p [src]) o false src.1 src.2) c o k d with
            | none => badLineAt p c o (o.db + 65536 * k) d.1.length
            | some p =>
              let p := modChunk (bump p rSwmChunks) n k (fun x => { x with part := some d })
              if o.bcast then (if o.root k = 0 then takeResult p c o k d else sendTo p c o k (o.root k) d)
              else if o.self = o.root k then rootResult p c o k d else closeSw (sendTo p c o k (o.parent k) d) n
          if o.bcast then goOn p (own, 0)
          else match kidChunks p o k with
            | none => p
            | some xs => goOn p (xs.foldl (combineBytes (if o.dt = 2 then 1 else o.dt) o.opr) (own, 0)))

/-! Receiving (R346, R353, R356) -/

/-- A fragment or a tail is held; a packet of a known identity that does not agree stops the tile (R346). -/
def takeSw (p : Pkg) (c : Clock) (h : Hdr) (pkt : List Byte) (frag : Nat) : Pkg :=
  let w := parseSw pkt
  match disagrees p w.ident w.opr w.dt w.nelem with
  | some o => mismatchFault p c o
  | none =>
    let src := (memberOf p w.ident.group h.src).getD 0xFFFFFFFF
    let k : SwPkt := {
      ident := w.ident, opr := w.opr, dt := w.dt, nelem := w.nelem, chunk := w.chunk, src := src, frag := frag,
      data := payloadOf pkt }
    let same (x : SwPkt) := x.ident == k.ident && x.chunk == k.chunk && x.src == src && x.frag == frag
    chunkCheck { p with swIn := p.swIn.filter (fun x => !same x) ++ [k] } c w.ident w.chunk src

/-- `SW_DATA` (R356): a fragment of a chunk. -/
def execSwData (q : Fin 128) (pkt : List Byte) (poison : Bool) (s : State) : Out :=
  run s (fun c p => match arrive p c q pkt poison [0x20] with
    | (p, none) => p
    | (p, some h) => sequenced p c h none (fun p => (takeSw p c h pkt (parseSw pkt).frag, .ok [])))

/-- `SW_TAIL` (R352, R353, R356). -/
def execSwTail (q : Fin 128) (pkt : List Byte) (poison : Bool) (s : State) : Out :=
  run s (fun c p => match arrive p c q pkt poison [0x21] with
    | (p, none) => p
    | (p, some h) => sequenced p c h none (fun p => (takeSw p c h pkt 16, .ok [])))

/-- The producer sends a chunk again from its staging area; an uncorrectable staging line refuses the pull (R354). -/
def resendChunk (p : Pkg) (c : Clock) (h : Hdr) (pkt : List Byte) : Served :=
  let w := parseSw pkt
  match disagrees p w.ident w.opr w.dt w.nelem, swFor p w.ident with
  | some o, _ => (mismatchFault p c o, .ok [])
  | none, none => (p, .ok [])
  | none, some o =>
    let x := sget o.chunks w.chunk {}
    match (if x.res.isSome then x.res else x.part) with
    | none => (p, .ok [])
    | some d =>
      match firstBad p [(o.db + 65536 * w.chunk, d.1.length)] with
      | some l => (failSw (noteUe p c l) c o 0x21, .error nakMemory)
      | none =>
        if !swarmAllowed p h.src false false then (planFault (loseSw p o.id) c o.tile 0x0A 3 0 0, .ok [])
        else match swCtx p o w.chunk h.src with
        | none => (p, .ok [])
        | some cx =>
          let p := chargeSw (noteCes p [(o.db + 65536 * w.chunk, d.1.length)]) o false (o.db + 65536 * w.chunk) d.1.length
          let n0 := p.outs.length
          let bs := mread p.mem (o.db + 65536 * w.chunk) d.1.length
          (inRetry (sendChunk p cx (.swarm o.id) false h.src (o.hdr w.chunk) (bs, d.2) d.1) c cx n0, .ok [])

/-- `SW_PULL` (R353). -/
def execSwPull (q : Fin 128) (pkt : List Byte) (poison : Bool) (s : State) : Out :=
  run s (fun c p => match arrive p c q pkt poison [0x22] with
    | (p, none) => p
    | (p, some h) => sequenced p c h none (fun p => resendChunk p c h pkt))

/-! The waggle path's packets (R359, R363) -/

/-- The value that a waggle packet carries. -/
def wgOf (pkt : List Byte) : WgVal :=
  let w := parseSw pkt
  { ident := w.ident, opr := w.opr, dt := w.dt, nelem := w.nelem, src := w.chunk, hop := w.hop, data := payloadOf pkt, fl := w.fl }

/-- `WG_DATA` (R360): a value is folded or relayed; one that does not agree with an operation of its identity stops the tile. -/
def execWgData (q : Fin 128) (pkt : List Byte) (poison : Bool) (s : State) : Out :=
  run s (fun c p => match arrive p c q pkt poison [0x23] with
    | (p, none) => p
    | (p, some _) =>
      let v := wgOf pkt
      match disagrees p v.ident v.opr v.dt v.nelem with
      | some o => mismatchFault p c o
      | none => if wgHas p v then p else wgCheck (wgArrive p c v) c v.ident)

/-- Asks a place for a value: hop 0 a member's, 1 a pod partial, 2 a relayed one. -/
def sendPull (p : Pkg) (c : Clock) (dst hop src : Nat) (v : WgVal) : Pkg :=
  sendWg (bump p rSwmWpulls) c 0x24 dst { v with src := src } hop

/-- Pulls the values of this pod's members that are missing. -/
def pullMembers (p : Pkg) (c : Clock) (v : WgVal) : Pkg :=
  ((podMembers p v.ident.group).filter (fun e => e.2 != ownPlace p && (wgFind p v.ident false e.1).isNone)).foldl
    (fun q e => sendPull q c e.2 0 e.1 v) p

/-- Pulls the value of a broadcast from its source. -/
def pullSource (p : Pkg) (c : Clock) (v : WgVal) : Pkg :=
  let place := placeOfMember p v.ident.group v.src
  if place = ownPlace p then p else sendPull p c place 0 v.src v

/-- Pulls a far pod's partial: from the far gateway when this node is the near one, else from the near gateway. -/
def pullPod (p : Pkg) (c : Clock) (pod src : Nat) (v : WgVal) : Pkg :=
  let near := gatewayPlace (myPod p) pod
  if near = ownPlace p then sendPull p c (gatewayPlace pod (myPod p)) 1 src v else sendPull p c near 2 src v

/-- `WG_PULL` (R363): the node sends the value asked for, or pulls in turn what it lacks. -/
def execWgPull (q : Fin 128) (pkt : List Byte) (poison : Bool) (s : State) : Out :=
  run s (fun c p => match arrive p c q pkt poison [0x24] with
    | (p, none) => p
    | (p, some h) =>
      let v := wgOf pkt
      match disagrees p v.ident v.opr v.dt v.nelem, wgFind p v.ident (v.hop != 0) v.src with
      | some o, _ => mismatchFault p c o
      | none, some x => sendWg p c 0x23 h.src x v.hop
      | none, none =>
        if v.hop = 1 then (if isReduce v.ident then pullMembers p c v else pullSource p c v)
        else if v.hop = 2 then
          match (groupPods p v.ident.group).find? (fun e => e.2 == v.src) with
          | some e => pullPod p c e.1 v.src v
          | none => p
        else p)

/-- One pull round of a node that waits for the values of an identity. -/
def pullRound (p : Pkg) (c : Clock) (v : WgVal) : Pkg :=
  let g := v.ident.group
  if isReduce v.ident then
    let p := pullMembers p c v
    ((groupPods p g).filter (fun e => e.1 != myPod p && (wgFind p v.ident true e.2).isNone)).foldl (fun q e => pullPod q c e.1 e.2 v) p
  else
    let place := placeOfMember p g v.src
    if place / 64 = myPod p then pullSource p c v else pullPod p c (place / 64) v.src v

/-- What a waiting operation lacks, as a value to pull. -/
def lackOf (i : Ident) (opr dt nelem : Nat) : WgVal :=
  { ident := i, opr := opr, dt := dt, nelem := nelem, src := 0, hop := 0, data := [], fl := 0 }

/-- The r-th pull round has come: OFF + WWC × (r + 1) after the launch count. -/
def roundDue (p : Pkg) (c : Clock) (start : Nat) (i : Ident) (r : Nat) : Bool :=
  decide (start + i.off + gWwc p i.group * (r + 1) ≤ c.gsc)

/-- `WAGGLE_TIMEOUT` (R363): kind 0 the CL operation numbered n, 1 the sum of job n, 2 the barrier of cut n. -/
def execWaggleTimeout (kind : Fin 3) (n : Nat) (s : State) : Out :=
  run s (fun c p =>
    if kind = 0 then
      match findSw p n with
      | none => p
      | some o =>
        let L := launchTick p o.launch
        if !o.started || o.closed || o.failed || !o.waggle || !roundDue p c L o.ident o.wpulls then p
        else if o.plim ≤ o.wpulls then failSw p c o 0x22
        else pullRound (modSw p n (fun y => { y with wpulls := y.wpulls + 1 })) c (lackOf o.ident o.opr o.dt o.nelem)
    else if kind = 1 then
      match findJob p n with
      | none => p
      | some j =>
        let L := launchTick p j.launch
        if !j.sparse.waitSum || j.closed || j.sum.isSome || !roundDue p c L (jobIdent p j) j.wpulls then p
        else if 3 ≤ j.wpulls then (if j.ue then failUp p c j [] 0x22 else failJob p c j (launchMask p j.launch) (jobRecord p j).jstat 0x22)
        else pullRound (modJob p n (fun k => { k with wpulls := k.wpulls + 1 })) c (lackOf (jobIdent p j) 0 j.sparse.sumDt 1)
    else
      match findCut p n with
      | none => p
      | some x =>
        let i := barrierIdent x
        if x.phase ≠ 5 ∨ (wgResult p i 3 2).isSome ∨ !roundDue p c n i x.pulls then p
        else if 3 ≤ x.pulls then abandonCut p c x 4 false
        else pullRound (setCut p { x with pulls := x.pulls + 1 }) c (lackOf i 2 3 1))

end Sys2Proof.Machine
end

