-- ==== Sys2Proof/Machine/Packets.lean ====
section
/-! DEFINITION. Packet arrivals and the slots of a port (12_fabric_semantics R289, R291 to R305; 13_routing_and_machine R318 to
R322; 04_matrix_engine R95). -/

namespace Sys2Proof.Machine

/-! Requests served for another place (R288, R289) -/

/-- The setup window seen from the fabric. -/
def isSetup (p : Pkg) (a n : Nat) : Option Nat :=
  match target p a n with
  | some (.setup o) => some o
  | _ => none

/-- A store at its target; setup registers take it under the lock rules. -/
def fabStore (p : Pkg) (c : Clock) (a : Nat) (bs : List Byte) : Served :=
  match isSetup p a bs.length with
  | none => srvStore p c a bs
  | some o => if retired p then (p, .error nakRetired) else (regPut p c 1 o (leNat bs), .ok [])

/-- A load at its target. -/
def fabLoad (p : Pkg) (c : Clock) (a n : Nat) : Served :=
  match isSetup p a n with
  | none => srvLoad p c a n
  | some o => if retired p then (p, .error nakRetired) else
      let (p, v) := regReadBy p c 1 o
      (p, .ok (natLe 4 v))

/-- The packet of a command that waits for HBM. -/
def waitingPkt : Instr → List Byte
  | .store _ b _ | .loadReq _ b _ | .fetchAdd _ b _ | .cas _ b _ | .fadd64 _ b _ | .fadd32 _ b _ | .postedAdd _ b _ => b
  | _ => []

/-- The same packet came before and its access is under way. -/
def underWay (p : Pkg) (h : Hdr) : Bool :=
  p.gates.any (fun g =>
    let b := waitingPkt g.cmd
    let k := parseHdr b
    !b.isEmpty && k.rctx == h.rctx && k.seq == h.seq)

/-- A new packet within the window of its context (R295). -/
def inWindow (p : Pkg) (h : Hdr) : Bool :=
  let x := ctx p h.rctx
  let d := seqAhead x h.seq
  decide (d < 256) && !x.rxmap.getLsbD d

/-- A waiting command whose answer will be a response. -/
def answersResp : Instr → Bool
  | .loadReq _ _ _ | .fetchAdd _ _ _ | .cas _ _ _ => true
  | _ => false

/-- Entries of the response store that are in use or kept for accesses under way (R299). -/
def respsHeld (p : Pkg) : Nat := p.resps.length + p.gates.countP (fun g => answersResp g.cmd)

/-- Handles a request packet: one for HBM takes its turn in partition 0, in an open slot in partition 5 (Table 10.3), and is applied
and answered when its accesses have been delivered; a duplicate of it that comes meanwhile is ignored. Without room in the response store
a request has reason BUSY (R299). -/
def request (s : State) (cmd : Instr) (q : Fin 128) (pkt : List Byte) (poison : Bool) (ty : Nat) (resp : Option Nat)
    (serve : Clock → Hdr → Pkg → Served) : Out :=
  run s (fun c p =>
    match arrive p c q pkt poison [ty] with
    | (p, none) => p
    | (p, some h) =>
      if underWay p h then p
      else if resp.isSome && inWindow p h && decide (4096 ≤ respsHeld p) then sendNak p c h 2
      else match (if inWindow p h then hbmAsks p ty (localOf h.daddr) h.op0 h.op1 (payloadOf pkt) else none) with
        | some rs => openGate p (if bit h.flags 0 then 5 else 0) cmd rs
        | none => sequenced p c h resp (serve c h))

/-- The accesses of a request packet have been delivered. -/
def requestDone (p : Pkg) (c : Clock) (g : Gate) (pkt : List Byte) : Pkg :=
  let h := parseHdr pkt
  let a := localOf h.daddr
  let answer (resp : Option Nat) (n : Nat) := sequenced p c h resp (fun p => (p, gateResult p g a n))
  if h.ty = 0x02 then answer (some 0x03) (h.op0 % 2 ^ 13)
  else if h.ty = 0x04 ∨ h.ty = 0x05 then answer (some 0x08) 8
  else answer none 0

/-- `STORE` (R295). -/
def execStore (q : Fin 128) (pkt : List Byte) (poison : Bool) (s : State) : Out :=
  request s (.store q pkt poison) q pkt poison 0x01 none (fun c h p => fabStore p c (localOf h.daddr) (payloadOf pkt))

/-- `LOAD_REQ` (R296). -/
def execLoadReq (q : Fin 128) (pkt : List Byte) (poison : Bool) (s : State) : Out :=
  request s (.loadReq q pkt poison) q pkt poison 0x02 (some 0x03) (fun c h p => fabLoad p c (localOf h.daddr) (h.op0 % 2 ^ 13))

/-- `FETCH_ADD` (R289). -/
def execFetchAdd (q : Fin 128) (pkt : List Byte) (poison : Bool) (s : State) : Out :=
  request s (.fetchAdd q pkt poison) q pkt poison 0x04 (some 0x08) (fun c h p => srvFetchAdd p c (localOf h.daddr) h.op0)

/-- `CAS` (R289). -/
def execCas (q : Fin 128) (pkt : List Byte) (poison : Bool) (s : State) : Out :=
  request s (.cas q pkt poison) q pkt poison 0x05 (some 0x08) (fun c h p => srvCas p c (localOf h.daddr) h.op0 h.op1)

/-- `FADD64` (R289). -/
def execFadd64 (q : Fin 128) (pkt : List Byte) (poison : Bool) (s : State) : Out :=
  request s (.fadd64 q pkt poison) q pkt poison 0x06 none (fun c h p => srvFloatAdd p c .b64 (localOf h.daddr) (payloadOf pkt))

/-- `FADD32` (R289). -/
def execFadd32 (q : Fin 128) (pkt : List Byte) (poison : Bool) (s : State) : Out :=
  request s (.fadd32 q pkt poison) q pkt poison 0x07 none (fun c h p => srvFloatAdd p c .b32 (localOf h.daddr) (payloadOf pkt))

/-- `POSTED_ADD` (R289): acknowledged, no value returned. -/
def execPostedAdd (q : Fin 128) (pkt : List Byte) (poison : Bool) (s : State) : Out :=
  request s (.postedAdd q pkt poison) q pkt poison 0x09 none (fun c h p => srvFetchAdd p c (localOf h.daddr) h.op0)

/-! Answers received (R296, R305) -/

/-- A response: sequenced and acknowledged; it answers the request that ASEQ names. -/
def response (s : State) (q : Fin 128) (pkt : List Byte) (poison : Bool) (ty : Nat) : Out :=
  run s (fun c p => match arrive p c q pkt poison [ty] with
    | (p, none) => p
    | (p, some h) => sequenced p c h none (fun p =>
        match outFor p h with
        | some o => (answered p c o (some (payloadOf pkt)), .ok [])
        | none => (p, .ok [])))

/-- `LOAD_RESP` (R296). -/
def execLoadResp (q : Fin 128) (pkt : List Byte) (poison : Bool) (s : State) : Out := response s q pkt poison 0x03

/-- `ATOM_RESP` (R296). -/
def execAtomResp (q : Fin 128) (pkt : List Byte) (poison : Bool) (s : State) : Out := response s q pkt poison 0x08

/-- `ACK` (R305). -/
def execAck (q : Fin 128) (pkt : List Byte) (poison : Bool) (s : State) : Out :=
  run s (fun c p => match arrive p c q pkt poison [0x10] with
    | (p, none) => p
    | (p, some h) => takeAck p c h)

/-- `NAK` (R296). -/
def execNak (q : Fin 128) (pkt : List Byte) (poison : Bool) (s : State) : Out :=
  run s (fun c p => match arrive p c q pkt poison [0x11] with
    | (p, none) => p
    | (p, some h) => takeNak p c h)

/-- The listed TYPE values of Tables 12.5, 13.5 and R356. -/
def listedType (ty : Nat) : Bool :=
  (decide (1 ≤ ty) && decide (ty ≤ 9)) || ty == 0x10 || ty == 0x11 || (decide (0x20 ≤ ty) && decide (ty ≤ 0x24))
    || (decide (0x30 ≤ ty) && decide (ty ≤ 0x34))

/-- `PACKET_RESERVED_TYPE` (R291): dropped, as a packet that fails its CRC is. -/
def execPacketReservedType (q : Fin 128) (pkt : List Byte) (poison : Bool) (s : State) : Out :=
  run s (fun c p =>
    let h := parseHdr pkt
    if listedType h.ty || !carries p q h.ty || placeOf h.daddr != ownPlace p then p
    else match arrive p c q pkt poison [h.ty] with
      | (p, none) => p
      | (p, some _) => dropped p)

/-- `OUTSIDE_COMB_READ` (R95): the den or the comb window samples `len` bytes at an offset of a tile's comb memory, as every MX
instruction that has issued leaves them; nothing of it changes. -/
def execOutsideCombRead (t : Fin 128) (off len : Nat) (s : State) : Out :=
  run s (fun c p =>
    if len = 0 || decide (0x800000 < off + len) || !tileInService p t then p
    else match readMem p c (combBase t + off) len with
      | (p, .error _) => { p with combOut := [] }
      | (p, .ok bs) => { p with combOut := bs })

/-! Sending from the outstanding packets and the response store -/

/-- A packet of this package by context and sequence number, request or response. -/
def heldPkt (p : Pkg) (cx seq : Nat) : Option OutPkt :=
  match p.outs.find? (fun o => o.ctx == cx && o.seq == seq) with
  | some o => some o
  | none => (p.resps.find? (fun r => r.pkt.ctx == cx && r.pkt.seq == seq)).map (fun r => r.pkt)

def modHeld (p : Pkg) (cx seq : Nat) (f : OutPkt → OutPkt) : Pkg :=
  { p with outs := p.outs.map (fun o => if o.ctx = cx ∧ o.seq = seq then f o else o),
           resps := p.resps.map (fun r => if r.pkt.ctx = cx ∧ r.pkt.seq = seq then { r with pkt := f r.pkt } else r) }

/-- Packets sent and not yet answered (R298), and those of one context (R295). -/
def sentCount (p : Pkg) : Nat := p.outs.countP (fun o => o.sent.isSome)
def sentOn (p : Pkg) (cx : Nat) : Nat :=
  p.outs.countP (fun o => o.ctx == cx && o.sent.isSome) + p.resps.countP (fun r => r.pkt.ctx == cx && r.pkt.sent.isSome)

/-- The destination table of a tile has no entry for a place (R305): 256 entries. -/
def destFull (x : Tile) (place : Nat) : Bool :=
  match x.dests.findIdx? (fun e => e.place == place) with
  | some i => decide (256 ≤ i)
  | none => decide (256 ≤ x.dests.length)

/-- A packet may be sent again: resends are left, or a duplicate of its request has come (R295, R297). -/
def mayResend (o : OutPkt) : Bool := decide (o.resends < o.rlim) || o.again

/-- A packet leaves in a slot of a port: sent once more; a port that is not up loses it (R326). -/
def sendHeld (p : Pkg) (c : Clock) (q start : Nat) (o : OutPkt) (again : Bool) : Pkg :=
  let b := if again then reseal o.bytes 1 1 (Nat.lor (field o.bytes 1 1) 2) else o.bytes
  let p := modHeld p o.ctx o.seq (fun x => { x with
    bytes := b, sent := some start, due := none, again := false, resends := if again then x.resends + 1 else x.resends, port := q })
  let p := if again then bump p rFabResends else p
  if carries p q (field b 0 1) then transmit p c q b 0 else p

/-- Flits left of a slot's 96 data flits. -/
def slotFits (p : Pkg) (q n : Nat) : Bool := decide ((sget p.ports q {}).used + n ≤ 96)
def slotUse (p : Pkg) (q n : Nat) : Pkg :=
  let x := sget p.ports q {}
  { p with ports := sset p.ports q { x with used := x.used + n } }

/-! Scheduled slots (R297, R298, R302, R322) -/

/-- The number of an entry's packet: TXSEQ at L plus PKT. -/
def slotSeq (l : Launch) (e : Slot) : Nat := (((l.bases.find? (fun b => b.1 == e.cx)).map (fun b => b.2)).getD 0 + e.pkt) % 2 ^ 32

/-- The swarm operation that an entry's packet belongs to; the launch's first in progress when the packet is not formed. -/
def entrySwop (p : Pkg) (l : Launch) (e : Slot) : Option SwOp :=
  match heldPkt p e.cx (slotSeq l e) with
  | some { who := .swarm n, .. } => p.swops.find? (fun o => o.id == n)
  | _ => p.swops.find? (fun o => o.launch == l.id && !o.closed)

/-- The tile that answers for an entry's unit. -/
def unitTile (p : Pkg) (l : Launch) (e : Slot) : Option Nat :=
  if e.ukind = 0 then some e.unit
  else if e.ukind = 1 ∨ e.ukind = 2 then
    (p.jobs.find? (fun j => j.launch == l.id && (j.ue == (e.ukind == 2)) && j.unit == e.unit && !j.closed)).map (fun j => j.tile)
  else (entrySwop p l e).map (fun o => o.tile)

/-- The packet of an entry cannot go: its unit's tile stops with plan fault TRAFFIC. -/
def trafficFault (p : Pkg) (c : Clock) (l : Launch) (e : Slot) : Pkg :=
  match unitTile p l e with
  | none => p
  | some t => if (tile p t).stopped || (tile p t).launch != some l.id then p else planFault p c t 0x0B 0 0 0

/-- An entry of this package's own units. -/
def ownEntry (p : Pkg) (c : Clock) (l : Launch) (start : Nat) (e : Slot) : Pkg :=
  match heldPkt p e.cx (slotSeq l e) with
  | none => trafficFault p c l e
  | some o =>
    let n := flitsOf o.bytes
    if o.sent.isSome then p
    else if !o.ready || decide (2048 ≤ sentCount p) || decide (256 ≤ sentOn p e.cx) || !slotFits p e.port n
        || (e.ukind == 0 && destFull (tile p e.unit) (placeOf (parseHdr o.bytes).daddr)) then trafficFault p c l e
    else
      let p := modHeld p o.ctx o.seq (fun x => { x with rto := e.rto, rlim := e.rlim })
      sendHeld (slotUse p e.port n) c e.port start o false

/-- A transit entry, the n-th of its incoming port. -/
def transitEntry (p : Pkg) (c : Clock) (n : Nat) (e : Slot) : Pkg :=
  match (sget p.ports e.unit {}).transit[n]? with
  | none => bump p rFabTransitmiss
  | some w =>
    let k := flitsOf w.bytes
    if 5 < w.hops + 1 then bump p rFabHopdrop
    else if !slotFits p e.port k then bump p rFabTransitmiss
    else
      let p := slotUse p e.port k
      if portUp p e.port then transmit p c e.port w.bytes (w.hops + 1) w.poison else p

/-- Numbers each transit entry among those of its incoming port. -/
def numbered (l : List Slot) : List (Slot × Nat) :=
  l.zipIdx.map (fun e => (e.1, (l.take e.2).countP (fun x => x.ukind == 4 && x.unit == e.1.unit)))

/-- The slot of a port that begins at a tick is run: what has been sent in it so far counts. -/
def takeSlot (p : Pkg) (q start : Nat) : Pkg :=
  let x := sget p.ports q {}
  let y := if x.slot = start then x else { x with used := 0, ans := 0, wgSent := false }
  { p with ports := sset p.ports q { y with ran := start + 1, slot := start } }

/-- The slot of a port begins: its entries in order, then the answers. Answers alone leave in a slot without entries, and in one that
has been run and lasts (R300). -/
def runSlot (p : Pkg) (c : Clock) (l : Launch) (frame slot q : Nat) (kind : Slot → Bool) : Pkg :=
  let start := l.L + 4096 * frame + 16 * slot
  let mine := (numbered (planSlots p l.plan)).filter (fun e => e.1.frame == frame && e.1.slot == slot && e.1.port == q)
  if !l.running || l.closed || decide (c.gsc < start) || (!mine.isEmpty && !mine.any (fun e => kind e.1)) then p
  else if mine.isEmpty || decide (start < (sget p.ports q {}).ran) then (if slotStart p c q = start then sendAnswers p c q else p)
  else
    let p := takeSlot p q start
    let p := mine.foldl (fun p e => if e.1.ukind = 4 then transitEntry p c e.2 e.1 else ownEntry p c l start e.1) p
    sendAnswers p c q

/-- `SCHEDULED_SLOT` (R302). -/
def execScheduledSlot (l frame : Nat) (slot : Fin 256) (q : Fin 128) (s : State) : Out :=
  run s (fun c p => match findLaunch p l with
    | none => p
    | some y => runSlot p c y frame slot q (fun e => e.ukind != 4))

/-- `TRANSIT_SLOT` (R322). -/
def execTransitSlot (l frame : Nat) (slot : Fin 256) (q : Fin 128) (s : State) : Out :=
  run s (fun c p => match findLaunch p l with
    | none => p
    | some y => runSlot p c y frame slot q (fun e => e.ukind == 4))

/-! Timeouts (R297, R299, R303) -/

/-- A response is not acknowledged after its last resend: FAILED_FABRIC is counted, and is a cause for the launch that holds the port it
went by, when it is scheduled (R297, R299). It stays in the response store. -/
def respFails (p : Pkg) (c : Clock) (o : OutPkt) : Pkg :=
  let p := modHeld (bump p rFabFailed) o.ctx o.seq (fun x => { x with dead := true })
  match (if o.opn then none else p.launches.find? (fun l => l.running && !l.closed && l.ports.contains o.port)) with
  | some l => addCause p c l.id 0x22
  | none => p

/-- An unanswered packet reaches its timeout: it is due for resending, or it has failed. -/
def timeout (p : Pkg) (c : Clock) (opn : Bool) (cx seq : Nat) : Pkg :=
  match heldPkt p cx seq with
  | none => p
  | some o =>
    match o.sent with
    | none => p
    | some t =>
      if o.opn != opn || o.dead || decide (c.gsc < t + o.rto) then p
      else if o.resends < o.rlim then (if o.due.isSome then p else modHeld p cx seq (fun x => { x with due := some (t + o.rto) }))
      else match p.outs.find? (fun x => x.ctx == cx && x.seq == seq) with
        | some x => failedOut p c x 0x22
        | none => respFails p c o

/-- `RETRY_TIMEOUT` (R297). -/
def execRetryTimeout (cx seq : Nat) (s : State) : Out := run s (fun c p => timeout p c false cx seq)

/-- `OPEN_TIMEOUT` (R303): 12,500 ticks, 8 resends. -/
def execOpenTimeout (cx seq : Nat) (s : State) : Out := run s (fun c p => timeout p c true cx seq)

/-! Retry slots (R297, R322) -/

/-- A packet that waits for a slot: this package's own, or one of another place that is passing through. -/
inductive Waiting where
  | own (o : OutPkt)
  | pass (w : Wire)
  deriving DecidableEq, Repr

/-- The order of R297: due tick, context, SEQ; a passing packet counts from its arrival. -/
def Waiting.key : Waiting → Nat × Nat × Nat
  | .own o => (o.due.getD 0, o.ctx, o.seq)
  | .pass w => (w.tick, (parseHdr w.bytes).sctx, (parseHdr w.bytes).seq)

def keyLe (a b : Nat × Nat × Nat) : Bool := decide (a.1 < b.1 ∨ a.1 = b.1 ∧ (a.2.1 < b.2.1 ∨ a.2.1 = b.2.1 ∧ a.2.2 ≤ b.2.2))

def insertKey (a : Waiting) : List Waiting → List Waiting
  | [] => [a]
  | b :: r => if keyLe a.key b.key then a :: b :: r else b :: insertKey a r

def byKey (l : List Waiting) : List Waiting := l.foldr insertKey []

def Waiting.bytes : Waiting → List Byte
  | .own o => o.bytes
  | .pass w => w.bytes

/-- The port on which a packet of this package goes by the route tables; the port of its last slot when they give none. -/
def outPort (p : Pkg) (o : OutPkt) : Nat :=
  let h := parseHdr o.bytes
  (route p (placeOf h.daddr) h.ty).getD o.port

/-- A waiting packet leaves on a port. -/
def sendWaiting (p : Pkg) (c : Clock) (q start : Nat) : Waiting → Pkg
  | .own o =>
    let h := parseHdr o.bytes
    match route p (placeOf h.daddr) h.ty with
    | some _ => sendHeld p c q start o o.sent.isSome
    | none =>
      let again := o.sent.isSome
      let p := modHeld p o.ctx o.seq (fun x => { x with sent := some start, due := none, again := false, resends := x.resends + b2n again })
      bump p rFabNoroute
  | .pass w =>
    let p := { p with fwd := p.fwd.erase w }
    let p := match w.via with
      | some i => bufferFree p i (flitsOf w.bytes) (flitsOf w.bytes)
      | none => p
    if carries p q (field w.bytes 0 1) then transmit p c q w.bytes w.hops w.poison else p

/-- Due packets in order, until one does not fit. -/
def retrySend (c : Clock) (q start : Nat) : List Waiting → Pkg → Pkg
  | [], p => p
  | w :: r, p =>
    let n := flitsOf w.bytes
    if slotFits p q n then retrySend c q start r (sendWaiting (slotUse p q n) c q start w) else p

/-- `RETRY_SLOT` (R297, R322): slot k with k mod 16 = 15 begins on a port. -/
def execRetrySlot (q : Fin 128) (s : State) : Out :=
  run s (fun c p =>
    let start := slotStart p c q
    if slotNow p c q % 16 ≠ 15 then p
    else if start < (sget p.ports q {}).ran then sendAnswers p c q
    else
      let p := takeSlot p q start
      let isDue (o : OutPkt) : Bool := !o.opn && mayResend o && outPort p o == q.val
        && (match o.due with
            | some d => decide (d ≤ start)
            | none => false)
      let mine := ((p.outs ++ p.resps.map (fun r => r.pkt)).filter isDue).map Waiting.own
        ++ (p.fwd.filter (fun w => w.port == q.val && !bit (field w.bytes 1 1) 0 && decide (w.tick ≤ start))).map Waiting.pass
      sendAnswers (retrySend c q start (byKey mine) p) c q)

/-! Open slots (R298, R301, R303, R324) -/

/-- The current slot of a port is open: by its class while a launch holds the port, else outside the retry class. -/
def openNow (p : Pkg) (c : Clock) (q : Nat) : Bool :=
  let k := slotNow p c q % 16
  if p.launches.any (fun l => l.running && !l.closed && l.ports.contains q) then k == 13 || k == 14 else k != 15

/-- An open transmission in the current slot ends before the next L on the port. -/
def beforeNextL (p : Pkg) (c : Clock) (q : Nat) : Bool :=
  p.launches.all (fun l => l.running || l.closed || l.restore || decide (l.L ≤ c.gsc) || !(planPorts p l.plan).contains q
    || decide (slotStart p c q + 16 ≤ l.L))

/-- A port is being drained for a route switch. -/
def drained (p : Pkg) (q : Nat) : Bool := (p.rswitch.map (fun w => w.draining && w.ports.contains q)).getD false

/-- Open packets in order, as far as credit, the slot and the outstanding limits go. -/
def openGo (c : Clock) (q : Nat) : List Waiting → Pkg → Pkg
  | [], p => p
  | w :: r, p =>
    let n := flitsOf w.bytes
    let x := sget p.ports q {}
    let fresh : Bool := match w with
      | .own o => !o.sent.isSome && (decide (2048 ≤ sentCount p) || decide (256 ≤ sentOn p o.ctx)
          || decide (512 ≤ p.outs.countP (fun y => y.opn && y.sent.isSome)))
      | .pass _ => false
    if x.credit < n ∨ !slotFits p q n then p
    else if fresh then openGo c q r p
    else
      let p := slotUse p q n
      let y := sget p.ports q {}
      openGo c q r (sendWaiting { p with ports := sset p.ports q { y with credit := y.credit - n } } c q c.gsc w)

/-- `OPEN_CREDIT_SEND` (R303): the next hop returns credit for so many flits of its 256, and open packets advance in an open slot.
Answers leave in a slot of any class (R300). -/
def execOpenCreditSend (q : Fin 128) (flits : Nat) (s : State) : Out :=
  run s (fun c p =>
    let p := openSlot p c q
    let x := sget p.ports q {}
    let p := { p with ports := sset p.ports q { x with credit := min 256 (x.credit + flits) } }
    if !openNow p c q || !beforeNextL p c q || drained p q then sendAnswers p c q
    else
      let goes (o : OutPkt) : Bool := o.opn && o.ready && outPort p o == q.val && (!o.sent.isSome || (o.due.isSome && mayResend o))
      let mine := (p.fwd.filter (fun w => w.port == q.val && bit (field w.bytes 1 1) 0)).map Waiting.pass
        ++ ((p.resps.map (fun r => r.pkt) ++ p.outs).filter goes).map Waiting.own
      sendAnswers (openGo c q mine p) c q)

/-- `GAP_TIMER` (R295): RXBASE of a context has stood for 8,192 ticks while a higher number is marked. -/
def execGapTimer (cx : Nat) (s : State) : Out :=
  run s (fun c p =>
    let x := ctx p cx
    if x.rxmap = 0#256 ∨ c.gsc < x.stall + 8192 then p
    else
      logEntry (setCtx (bump p rFabGaps) cx { x with stall := c.gsc }) c Config.gapCode.toNat 0xFF cx x.rxbase 0)

/-! The router (R318, R320 to R322) -/

/-- The commands that wait for HBM end, when a stack is lost (R254): their requesters are refused. -/
def endGates (p : Pkg) (c : Clock) : Pkg :=
  p.gates.foldl (fun q g => match g.cmd with
    | .hostLocalAccess _ i a acc => hostDone q g i a acc
    | cmd => if (waitingPkt cmd).isEmpty then q else requestDone q c g (waitingPkt cmd)) { p with gates := [] }

/-- `PACKET_FORWARD` (R318): a packet for another place arrives on a port after `hops` hops. `sched` tells whether it came in a
scheduled slot: then it waits for its transit slot (R322). An open one takes room in the port's buffer until it goes on; one for which
the neighbour held no credit is lost (R303, log 130). -/
def execPacketForward (q : Fin 128) (hops : Nat) (pkt : List Byte) (poison sched : Bool) (s : State) : Out :=
  run s (fun c p =>
    let h := parseHdr pkt
    if !carries p q h.ty || placeOf h.daddr == ownPlace p || (decide (0x30 ≤ h.ty) && decide (h.ty ≤ 0x33)) then p
    else
      let p := owl p c q false pkt
      if sched then
        let x := sget p.ports q {}
        { p with ports := sset p.ports q { x with
            transit := x.transit ++ [{ port := q, bytes := pkt, hops := hops, tick := c.gsc, poison := poison }] } }
      else match route p (placeOf h.daddr) h.ty with
        | none => creditBack (bump p rFabNoroute) q pkt
        | some r =>
          let w : Wire := { port := r, bytes := pkt, hops := hops + 1, tick := c.gsc, poison := poison }
          if 5 < hops + 1 then creditBack (bump p rFabHopdrop) q pkt
          else if h.ty = 0x10 ∨ h.ty = 0x11 ∨ isWaggle h.ty then { p with answers := p.answers ++ [w] }
          else if !bit h.flags 0 then { p with fwd := p.fwd ++ [w] }
          else if openBuffer < (sget p.ports q {}).held + flitsOf pkt then p
          else bufferTake { p with fwd := p.fwd ++ [{ w with via := some q.val }] } q (flitsOf pkt))

end Sys2Proof.Machine
end

