-- ==== Sys2Proof/Machine/Routing.lean ====
section
/-! DEFINITION. Route changes, port training, lanes, lasers and connectors (13_routing_and_machine R324 to R335; 19 R467; 20 R478). -/

namespace Sys2Proof.Machine

/-! Changing routes (R324) -/

/-- A switch to the inactive bank is pending for count S. -/
def switchAt (p : Pkg) (S : Nat) (ports : List Nat) : Pkg :=
  { rset (rset (rsetb p rFabStatus 2 true) rFabSwLo (S % 2 ^ 32)) rFabSwHi (S / 2 ^ 32) with
    rswitch := some { stop := S, draining := true, ports := ports, ops := [] } }

/-- The next frame boundary of a port that lies at least 2,500 ticks ahead. -/
def boundaryAfter (p : Pkg) (c : Clock) (q : Nat) : Nat :=
  let b := portBase p q
  b + cdiv (c.gsc + 2500 - b) 4096 * 4096

/-- Firmware starts a switch of its own, to repair a failed link (R324, R325): with a drain of the ports that it names, at S 8,192
ticks on; without one, when a port has FAILED, at that port's next frame boundary at least 2,500 ticks ahead. -/
def ownSwitch (p : Pkg) (c : Clock) (ports : List Nat) : Pkg :=
  if ports ≠ [] then switchAt p (c.gsc + 8192) ports
  else match (List.range 128).find? (fun q => rfld p (rFabPstate q) 2 0 == 3) with
    | some q => switchAt p (boundaryAfter p c q) []
    | none => p

/-- `ROUTE_DRAIN_START` (R324, R325): from S − 8,192 the ports that firmware named start no open packet. With no switch pending,
firmware starts one of its own, for which it has written the inactive banks. -/
def execRouteDrainStart (ports : List (Fin 128)) (s : State) : Out :=
  run s (fun c p =>
    match p.rswitch with
    | none => ownSwitch p c (ports.map (fun q => q.val))
    | some w =>
      if w.draining || decide (c.gsc + 8192 < w.stop) then p
      else { p with rswitch := some { w with draining := true, ports := ports.map (fun q => q.val) } })

/-- `ROUTE_SWITCH` (R324): at S the inactive bank becomes active, the drained ports go on, and the table updates complete. -/
def execRouteSwitch (s : State) : Out :=
  run s (fun c p =>
    match p.rswitch with
    | none => p
    | some w =>
      if c.gsc < w.stop then p
      else
        let p := rsetb (rsetb p rFabStatus 1 (!rbit p rFabStatus 1)) rFabStatus 2 false
        w.ops.foldl (fun p o => complete p c o.1 0 0#16 0 o.2 false) { p with rswitch := none })

/-! Port states (Table 13.9) -/

/-- The configuration record in use (R464): of the intact copies, the one with the highest sequence number. -/
def recInUse (p : Pkg) : Option CfgRec :=
  (p.store.copies.filter (fun r => r.intact)).foldl (fun b r =>
    match b with
    | none => some r
    | some x => if x.seq < r.seq then some r else b) none

/-- A port in use fails: what was on it is lost (R326). -/
def failPort (p : Pkg) (c : Clock) (q : Nat) : Pkg :=
  setPort { p with ports := sset p.ports q { sget p.ports q {} with swap := none } } c q 3

/-- `PORT_FAILED` (R326). -/
def execPortFailed (q : Fin 128) (s : State) : Out :=
  run s (fun c p => if rfld p (rFabPstate q) 2 0 = 1 ∨ rfld p (rFabPstate q) 2 0 = 2 then failPort p c q else p)

/-- Ports that stay dark: port 127 unless it replaces a failed port (R316), port 126 of node 63, and the global ports whose far pod the
cabling record does not name (R317). -/
def mayTrain (p : Pkg) (q : Nat) : Bool :=
  if q = 127 then rbit p rFabPspare 7
  else if q < 63 then true
  else !(q == 126 && ownPlace p % 64 == 63) && ((recInUse p).map (fun r => r.cabling.any (fun e => e.1 == q))).getD false

/-- `PORT_TRAIN` (R332). -/
def execPortTrain (q : Fin 128) (s : State) : Out := run s (fun c p => if mayTrain p q then setPort p c q 1 else p)

/-- The peer place and port that the cabling record names for a port; port 127 has those of the port it replaces. -/
def expectedPeer (p : Pkg) (q : Nat) : Option (Nat × Nat) :=
  let k := if q = 127 then rfld p rFabPspare 6 0 else q
  match recInUse p with
  | none => none
  | some r => (r.cabling.find? (fun e => e.1 == k)).map (fun e => e.2)

/-- What one port's training found, applied to the port. A link that comes up starts with all its credit at both ends. -/
def trained (p : Pkg) (c : Clock) (q : Nat) (r : Training) : Pkg :=
  let d := q / 32
  let own := rfld p rHltProto 7 0
  if !r.held then setPort p c q 3
  else
    let p := if r.crossed && !rbit p (rFabFdstat d) 0 then event (rsetb p (rFabFdstat d) 0 true) c 7 (10 + d) 0 d
             else rsetb p (rFabFdstat d) 0 r.crossed
    let p := rset p (rFabPpeer q) (r.place % 2 ^ 18 + r.port % 128 * 2 ^ 18)
    if expectedPeer p q ≠ some (r.place, r.port) then setPort p c q 4
    else if own + 1 < r.level ∨ r.level + 1 < own then
      setPort (logEntry p c 0x0108 (10 + d) r.level q 0) c q 3
    else
      let p := rset p (rFabPflight q) (r.flight % 2 ^ 16 + wrapInt 16 r.asym * 2 ^ 16)
      let x := sget p.ports q {}
      let stays (w : Wire) : Wire := if w.via = some q then { w with via := none } else w
      setPort { p with fwd := p.fwd.map stays,
                       ports := sset p.ports q { x with level := min own r.level, credit := 256, held := 0, back := 0 } } c q 2

/-- `PORT_TRAIN_DONE` (R332, R467): the port is up, miswired, or failed. -/
def execPortTrainDone (q : Fin 128) (r : Training) (s : State) : Out :=
  run s (fun c p => if rfld p (rFabPstate q) 2 0 = 1 then trained p c q r else p)

/-! Lanes (R333) -/

/-- The frame that runs on a port now (R301). -/
def frameNow (p : Pkg) (c : Clock) (q : Nat) : Nat := (c.gsc - portBase p q) / 4096

/-- `LANE_SWAP` (R333): the ends agree on frame F, at least two frames ahead, the failing lane of the FD and a spare lane of it; for a
lane that failed without warning F is the frame that runs. With every spare lane in use the port fails. -/
def execLaneSwap (q : Fin 128) (frame : Nat) (lane spare : Fin 136) (s : State) : Out :=
  run s (fun c p =>
    let x := sget p.ports q {}
    let taken := (List.range 32).any (fun j => (sget p.ports (q / 32 * 32 + j) {}).lane.any (fun e => e.2 == spare.val))
    if rfld p (rFabPstate q) 2 0 ≠ 2 then p
    else if 8 ≤ rfld p (rFabFdstat (q / 32)) 11 8 then failPort p c q
    else if !(lane.val / 4 == q.val % 32 || x.lane.any (fun e => e.2 == lane.val)) || decide (spare.val < 128) || taken || x.swap.isSome
        || decide (frame < frameNow p c q ∨ frame = frameNow p c q + 1) then p
    else { p with ports := sset p.ports q { x with swap := some (frame, lane, spare, 0) } })

/-- A repaired resource starts an empty baseline (R452). -/
def clearBase (p : Pkg) (cls unit : Nat) : Pkg :=
  let k := cls * 2 ^ 16 + unit
  { p with health := { p.health with res := sset p.health.res k { sget p.health.res k {} with base := [] } } }

/-- A spare action is done: its event, of a kind of Table 19.5, and its count. -/
def actionDone (p : Pkg) (c : Clock) (kind die unit aux : Nat) : Pkg := event (bump p rHltSwaps) c 2 die aux (kind * 2 ^ 56 + unit)

/-- Drops the first request of a kind and unit that no interval is placed for. -/
def dropRequest (p : Pkg) (kind unit : Nat) : Pkg :=
  syncSwapPend { p with placed := p.placed.filter (fun y => !(y.kind == kind && y.unit == unit)) }

/-- `LANE_SWITCH` (R333): at F both ends send on the spare lane as well; at F + 1 they receive from it. -/
def execLaneSwitch (q : Fin 128) (s : State) : Out :=
  run s (fun c p =>
    let x := sget p.ports q {}
    match x.swap with
    | none => p
    | some (f, lane, spare, 0) =>
      if frameNow p c q < f then p
      else
        let d := q / 32
        let p := rsetf p (rFabFdstat d) 11 8 (rfld p (rFabFdstat d) 11 8 + 1)
        { p with ports := sset p.ports q { x with swap := some (f, lane, spare, 1) } }
    | some (f, lane, spare, _) =>
      if frameNow p c q < f + 1 then p
      else
        let p := { p with ports := sset p.ports q { x with swap := none, lane := x.lane ++ [(lane, spare)] } }
        let p := clearBase (clearBase (rsetb p (rFabPstate q) 3 true) 6 q) 7 q
        actionDone (dropRequest p 0x27 q) c 8 (10 + q / 32) q spare)

/-! Link-local and management packets (R330) -/

/-- `LINK_STATE` (R330): the peer's port state and training results are held for firmware. -/
def execLinkState (q : Fin 128) (pkt : List Byte) (poison : Bool) (s : State) : Out :=
  run s (fun c p => match arrive p c q pkt poison [0x33] with
    | (p, none) => p
    | (p, some _) => { p with ports := sset p.ports q { sget p.ports q {} with link := pkt } })

/-- `MGMT` (R330): a payload for keeper firmware, with the place that sent it. -/
def execMgmt (q : Fin 128) (pkt : List Byte) (poison : Bool) (s : State) : Out :=
  run s (fun c p => match arrive p c q pkt poison [0x34] with
    | (p, none) => p
    | (p, some h) => sequenced p c h none (fun p => ({ p with mgmt := p.mgmt ++ [(h.src, payloadOf pkt)] }, .ok [])))

/-! The spare port (R334) -/

/-- `PORT_SPARE_REPLACE` (R334): at a frame boundary. -/
def execPortSpareReplace (q : Fin 128) (s : State) : Out :=
  run s (fun c p =>
    if rfld p (rFabPstate q) 2 0 = 3 ∧ q.val ≠ 127 ∧ !rbit p rFabPspare 7 ∧ (c.gsc - portBase p q) % 4096 = 0 then
      rset p rFabPspare (128 + q)
    else p)

/-! Lasers and connectors (R335, R478) -/

/-- Ports of an FD that a laser input feeds: four lanes of a port on one fibre, fibre 16 for spare lanes. -/
def fedBy (p : Pkg) (d i : Nat) : List Nat :=
  ((List.range 32).filter (fun j => j / 2 / 6 == i || (i == 2 && !(sget p.ports (32 * d + j) {}).lane.isEmpty))).map (fun j => 32 * d + j)

/-- The ports of a list that are in use fail. -/
def failPorts (p : Pkg) (c : Clock) (l : List Nat) : Pkg :=
  l.foldl (fun p q => if rfld p (rFabPstate q) 2 0 = 1 ∨ rfld p (rFabPstate q) 2 0 = 2 then failPort p c q else p) p

/-- The fibres of input i move to input 3 of the FD, when it has power and is free. -/
def moveLaser (p : Pkg) (d i : Nat) : Option Pkg :=
  if rbit p (rFabFdstat d) 4 && !rbit p (rFabFdstat d) 5 then
    some { rsetb p (rFabFdstat d) 5 true with lasers := sset p.lasers d i }
  else none

/-- `LASER_LOSS` (R335): an input falls below the receiver threshold. -/
def execLaserLoss (d i : Fin 4) (s : State) : Out :=
  run s (fun c p =>
    let moved := if rbit p (rFabFdstat d) 5 then some (sget p.lasers d 0) else none
    if !rbit p (rFabFdstat d) (1 + i) then p
    else
      let p := rsetb p (rFabFdstat d) (1 + i) false
      if i = 3 then
        match moved with
        | some k => failPorts p c (fedBy p d k)
        | none => p
      else if moved = some i.val then p
      else match moveLaser p d i with
        | some p => p
        | none => failPorts p c (fedBy p d i))

/-- `CONNECTOR_REMOVE` (R478): the ports of the FD that are not dark fail. -/
def execConnectorRemove (d : Fin 4) (s : State) : Out :=
  run s (fun c p => ((List.range 32).map (fun j => 32 * d.val + j)).foldl (fun p q =>
    if rfld p (rFabPstate q) 2 0 = 0 then p else failPort p c q) p)

/-- `CONNECTOR_INSERT` (R478): the failed ports of the FD train. -/
def execConnectorInsert (d : Fin 4) (s : State) : Out :=
  run s (fun c p => ((List.range 32).map (fun j => 32 * d.val + j)).foldl (fun p q =>
    if rfld p (rFabPstate q) 2 0 = 3 ∧ mayTrain p q then setPort p c q 1 else p) p)

end Sys2Proof.Machine
end

