-- ==== Sys2Proof/Machine/Health.lean ====
section
/-! DEFINITION. Health windows, spare actions, self-tests, configuration records, the loss of units and stacks
(19_health_and_service R451 to R465; 10 R234, R253, R254; 16 R406; 11 R278; 07 R157). -/

namespace Sys2Proof.Machine

/-! Configuration records (R460, R465) -/

/-- `SEC.CFGSTAT.INTACT` and `SEC.CFGSEQ` after a change of the copies. -/
def syncCfg (p : Pkg) : Pkg :=
  let p := rsetf p rSecCfgstat 2 0 ((p.store.copies.zipIdx.map (fun e => b2n e.1.intact * 2 ^ e.2)).foldl (fun a b => a + b) 0)
  match recInUse p with
  | some r => rset p rSecCfgseq r.seq
  | none => p

/-- A swap of a tile, an SLV or a UE that is requested and not done. -/
def Placed.isSwap (x : Placed) : Bool := decide (0x20 ≤ x.kind) && decide (x.kind ≤ 0x22)

/-- The record that follows the one in use: the spare map as it will be when the requested swaps are done; a unit in test or in a swap
counts as FREE. -/
def nextRec (p : Pkg) (r : CfgRec) : CfgRec :=
  let settled (w : W32) : W32 := if w.toNat % 8 = 2 ∨ w.toNat % 8 = 4 then 1#32 else w
  let now := p.punits.map (fun e => (e.1, settled e.2))
  let map := (p.placed.filter Placed.isSwap).foldl (fun m x =>
    sset (sset m x.unit 3#32) x.spare (BitVec.ofNat 32 (256 * unitLogical p x.unit))) now
  { r with intact := true, seq := (r.seq + 1) % 2 ^ 32, spares := map, repairs := p.repairs }

/-- A change of the spare map, or of the repair map, goes into a new record, in all three copies, before it takes effect; the record of a swap is written when
the swap is requested (R460). -/
def recordMap (p : Pkg) (change : Pkg → Pkg) : Pkg :=
  let q := change p
  match recInUse p with
  | none => q
  | some r =>
    let n := nextRec q r
    if n.spares = r.spares ∧ n.repairs = r.repairs then q else syncCfg { q with store := { q.store with copies := [n, n, n] } }

/-- `CONFIG_RECORD_WRITE` (R465): copy k of a record is written and verifies, after the copies before it. A change starts a new
record, one number above the record in use; without one, a copy that is not intact or is older is rewritten. -/
def execConfigRecordWrite (k : Fin 3) (change : Option CfgRec) (s : State) : Out :=
  run s (fun _ p =>
    match (if keepersRun p then recInUse p else none) with
    | none => p
    | some r =>
      let p := match change, p.store.next with
        | some x, none => { p with store := { p.store with next := some { x with intact := true, seq := (r.seq + 1) % 2 ^ 32 } } }
        | _, _ => p
      let t := p.store.next.getD r
      if !(p.store.copies.take k).all (fun x => x == t) || p.store.copies.length ≤ k.val then p
      else
        let p := { p with store := { p.store with copies := p.store.copies.set k t } }
        syncCfg (if k = 2 then { p with store := { p.store with next := none } } else p))

/-! Requests for spare actions (R456, R458) -/

/-- The PUNIT indices of a unit's kind on its die: tiles and SLVs and UEs of the AD, keepers of the PD. -/
def kinOf (i : Nat) : List Nat :=
  if i < 256 then (List.range 18).map (fun k => i / 32 * 32 + k)
  else if i < 288 then (List.range 3).map (fun k => 256 + (i - 256) / 4 * 4 + k)
  else if i < 304 then (List.range 2).map (fun k => 288 + (i - 288) / 2 * 2 + k)
  else (List.range 4).map (fun k => 304 + (i - 304) / 4 * 4 + k)

/-- A FREE spare of the same kind on the same die that no requested swap is to take. -/
def freeSpare (p : Pkg) (i : Nat) : Option Nat :=
  (kinOf i).find? (fun k => unitState p k == 1 && !p.placed.any (fun x => x.isSwap && !x.started && x.spare == k))

/-- A unit has no spare: it stays in service (R458). -/
def degraded (p : Pkg) (c : Clock) (cls n : Nat) : Pkg :=
  logEntry (rsetb p rHltStatus 2 true) c Config.degradedCode.toNat (dieUnit cls n).1 0 (resOfUnit cls n 0) 0

/-- Duration and claims of a spare action (Table 19.3). -/
def actionShape (p : Pkg) (kind unit aux : Nat) : Placed :=
  let x : Placed := { id := 0, kind := kind, unit := unit, dur := 0, deadline := 0, req := 0, aux := aux }
  let l := unitLogical p unit
  if kind = 0x20 then { x with dur := 25000, tiles := 2 ^ l }
  else if kind = 0x21 then { x with dur := 12500, slvs := 2 ^ l }
  else if kind = 0x22 then { x with dur := 2500, ues := 2 ^ l }
  else if kind = 0x23 then { x with dur := 2500, tiles := 2 ^ l }
  else if kind = 0x24 then { x with dur := 2500, tiles := allTiles, slvs := allSlvs, ues := allUes }
  else if kind = 0x25 then { x with dur := 256, tiles := allTiles, slvs := allSlvs, ues := allUes }
  else if kind = 0x26 then { x with dur := 64, ports := fedBy p (unit / 4) (unit % 4) }
  else x

/-- A spare action is requested, with its own deadline, once. -/
def requestAction (p : Pkg) (c : Clock) (kind unit aux : Nat) : Pkg :=
  if p.placed.any (fun y => y.kind == kind && y.unit == unit) then p
  else requestPlaced p c { actionShape p kind unit aux with deadline := c.gsc + 2 ^ 32 }

/-- A swap of a unit, by PUNIT index, is requested when its die has a FREE spare, once; the record leads the map (R460). -/
def requestSwap (p : Pkg) (c : Clock) (i : Nat) : Pkg :=
  let kind := if i < 256 then 0x20 else if i < 288 then 0x21 else 0x22
  let x := actionShape p kind i 0
  if p.placed.any (fun y => y.kind == kind && y.unit == i) then p
  else match freeSpare p i with
    | none => degraded p c (actionRes x).1 (actionRes x).2
    | some k => recordMap (requestPlaced p c { x with deadline := c.gsc + 2 ^ 32, spare := k }) id

/-! The trend detector (R451 to R455) -/

def resKey (cls n : Nat) : Nat := cls * 2 ^ 16 + n

/-- The source counter of a resource. Classes 5, 8 and 9 count in the always-on domain. -/
def sourceCount (p : Pkg) (cls n : Nat) : Nat :=
  if cls = 1 then rget p (rMemCe n) else if cls = 2 then rget p (rMemUe n)
  else if cls = 3 then sget p.ceCount (0x3000 + n) 0 else if cls = 4 then sget p.ceCount (0x4000 + n) 0
  else if cls = 6 then rget p (rFabFeccorr n) else if cls = 7 then rget p (rFabFecunc n)
  else if cls = 0xA then rget p rPwrOvercnt + rget p rPwrHotcnt else sget p.ceCount (cls * 0x1000 + n) 0

/-- Errors that no command of their own reports enter their counters. -/
def addErrors (p : Pkg) (e : Nat × Nat × Nat) : Pkg :=
  let (cls, n, k) := e
  if cls = 6 ∧ n < 128 then rset p (rFabFeccorr n) (rget p (rFabFeccorr n) + k)
  else if cls = 7 ∧ n < 128 then rset p (rFabFecunc n) (rget p (rFabFecunc n) + k)
  else if cls = 5 ∨ cls = 8 ∨ cls = 9 then
    let p := if cls = 8 then rset p rHifEclretry (rget p rHifEclretry + k) else p
    { p with ceCount := sset p.ceCount (cls * 0x1000 + n) (sget p.ceCount (cls * 0x1000 + n) 0 + k) }
  else p

/-- The resources of Table 19.1: class and how many. -/
def trendClasses : List (Nat × Nat) :=
  [(1, 32), (2, 32), (3, 256), (4, 32), (5, 16), (6, 128), (7, 128), (8, 2), (9, 8), (0xA, 1)]

/-- R452: whether a window exceeds. -/
def exceeds (base : List Nat) (c floor mult abs : Nat) : Bool :=
  let n := base.length
  if n < 10 then decide (abs ≤ c) else decide (floor ≤ c) && decide (mult * base.foldl (fun a b => a + b) 0 < 8 * n * c)

/-- The baseline after a window that did not exceed: at most 64 counts. -/
def baseAdd (base : List Nat) (c : Nat) : List Nat := (base ++ [c]).drop (base.length + 1 - 64)

/-- Spare rows in use: of a pseudo-channel, of a scratchpad bank; spare lanes of an HBM channel. -/
def pcKey (stack pc : Nat) : Nat := stack * 64 + pc
def bankKey (u bank : Nat) : Nat := 0x10000 + u * 64 + bank
def laneKey (stack ch : Nat) : Nat := 0x20000 + stack * 32 + ch

/-- The row of a slice offset: bank and row within it (R233). -/
def sliceRow (o : Nat) : Nat := bits o 11 6 + 64 * bits o 24 15

/-- A line of the window's corrected errors whose row holds at least 4 of them. -/
def badRow (ls : List Nat) (same : Nat → Nat → Bool) : Option Nat := ls.find? (fun a => decide (4 ≤ ls.countP (same a)))

/-- Where the row lies that holds at least 4 of the window's corrected errors of a stack or a tile: an HBM line, or an offset of a slice. -/
def worstRow (p : Pkg) (cls n : Nat) : Option Nat :=
  if cls = 1 then badRow (p.ceSeen.filter (fun l => isHbm l && stackOf p l == n)) (sameHbmRow p)
  else if cls = 3 then
    badRow ((p.ceSeen.filter (fun l => isSlice l && (memKind p l).2.1 * 32 + (memKind p l).2.2.1 == n)).map
      (fun l => l - sliceBase (unitLogical p n))) (fun a b => sliceRow a == sliceRow b)
  else none

/-- SUB of a warning's identifier (Table 19.2): the row of a slice or the pseudo-channel of a stack, when one is known (log 134). -/
def warnSub (p : Pkg) (cls n : Nat) : Nat :=
  match worstRow p cls n with
  | none => 0
  | some o => if cls = 1 then bits o 11 6 else sliceRow o

/-- The spare action of a warning (R454). -/
def trendAction (p : Pkg) (c : Clock) (cls n : Nat) : Pkg :=
  if cls = 1 then
    match worstRow p 1 n with
    | some l => if sget p.repairs (pcKey n (bits l 11 6)) 0 < 8 then requestAction p c 0x24 n l else p
    | none => p
  else if cls = 3 then
    match p.placed.find? (fun y => y.kind == 1 && (y.stage == 2 || y.stage == 3) && y.spare == n) with
    | some y => { p with placed := p.placed.map (fun z => if z.id = y.id then { z with warned := true } else z) }
    | none =>
      if unitState p n ≠ 0 then p
      else match worstRow p 3 n with
        | some o => if sget p.repairs (bankKey n (bits o 11 6)) 0 < 32 then requestAction p c 0x23 n (sliceRow o) else requestSwap p c n
        | none => requestSwap p c n
  else if cls = 4 then (if unitState p (256 + n) = 0 then requestSwap p c (256 + n) else p)
  else if cls = 5 then (if unitState p (288 + n) = 0 then requestSwap p c (288 + n) else p)
  else if cls = 6 ∨ cls = 7 then requestAction p c 0x27 n 0
  else if cls = 9 then (if unitState p (304 + n) = 0 then requestAction p c 0x28 n 0 else p)
  else p

/-- A warning (R453, R454). -/
def warn (p : Pkg) (c : Clock) (cls n len : Nat) (evt cut spare : Bool) : Pkg :=
  let id := resOfUnit cls n (warnSub p cls n)
  let p := rset (rset (bump p rHltWarns) rHltLastLo (id % 2 ^ 32)) rHltLastHi (id / 2 ^ 32)
  let p := if evt then event p c 1 (dieUnit cls n).1 len id else p
  let p := match p.den.pol with
    | some b => if cut && bit (field b 11 1) 0 then requestCut p c b none else p
    | none => p
  if spare then trendAction p c cls n else p

/-- The count of one resource is formed and judged. -/
def judge (p : Pkg) (c : Clock) (cls n : Nat) : Pkg :=
  let r := sget p.health.res (resKey cls n) {}
  let src := sourceCount p cls n
  let d := (src + 2 ^ 32 - r.last % 2 ^ 32) % 2 ^ 32
  let cnt := if cls = 0xA then b2n (d != 0 || rbit p rPwrStatus 3 || rbit p rPwrStatus 4) else d
  let w := rget p (rHltTrendC cls)
  let ex := exceeds r.base cnt (rget p (rHltTrendA cls)) (bits w 7 0) (rget p (rHltTrendB cls))
  let now := ex && !r.warned && decide (bits w 11 8 ≤ r.run + 1)
  let r' : HRes := { last := src % 2 ^ 32, base := if ex then r.base else baseAdd r.base cnt, run := if ex then r.run + 1 else 0,
                     warned := ex && (r.warned || now) }
  let p := { p with health := { p.health with res := sset p.health.res (resKey cls n) r' } }
  let again := ex && p.health.swaps.contains (cls, n)
  let p := if again then { p with health := { p.health with swaps := p.health.swaps.filter (fun e => e != (cls, n)) } } else p
  if now then warn p c cls n (r.run + 1) (bit w 12) (bit w 13) (bit w 14)
  else if again then trendAction p c cls n else p

/-- A laser input has lain low for the whole window (R455). -/
def lowLaser (p : Pkg) (c : Clock) (d i : Nat) : Pkg :=
  let p := warn p c 0xB (d * 4 + i) 1 true false false
  if i < 3 ∧ !rbit p (rFabFdstat d) 5 then requestAction p c 0x26 (d * 4 + i) 0 else p

/-- Ticks of a window (R451). -/
def windowTicks : Nat := 15000000000

/-- `HEALTH_WINDOW_END` (R451): `errs` are the errors of the window, by class and resource, that no command of their own reports;
`low` the laser inputs, by FD, that lay low throughout. -/
def execHealthWindowEnd (errs : List (Nat × Nat × Nat)) (low : List (Fin 4 × Fin 4)) (s : State) : Out :=
  run s (fun c p =>
    if rfld p rGlbStatus 10 8 ≠ 4 ∨ c.up < p.health.ready + (rget p rHltWindow + 1) * windowTicks * tickUnits p then p
    else
      let p := bump (errs.foldl addErrors p) rHltWindow
      let p := trendClasses.foldl (fun p e => (List.range e.2).foldl (fun p n => judge p c e.1 n) p) p
      let p := low.foldl (fun p e => lowLaser p c e.1 e.2) p
      let hot := p.health.res.any (fun e => e.2.run != 0 && decide (rfld p (rHltTrendC (e.1 / 2 ^ 16)) 11 8 ≤ e.2.run))
      rsetb (rsetb { p with ceSeen := [] } rHltStatus 1 hot) rHltStatus 0 (decide (10 ≤ rget p rHltWindow)))

/-! Carrying out spare actions (R457, R461, R462) -/

def findPlaced (p : Pkg) (id : Nat) : Option Placed := p.placed.find? (fun x => x.id == id)
def modPlaced (p : Pkg) (id : Nat) (f : Placed → Placed) : Pkg :=
  syncSwapPend { p with placed := p.placed.map (fun x => if x.id = id then f x else x) }
def dropPlaced (p : Pkg) (id : Nat) : Pkg := syncSwapPend { p with placed := p.placed.filter (fun x => x.id != id) }

/-- The entry that a placed action holds once it starts. -/
def startPlaced (p : Pkg) (c : Clock) (x : Placed) (f : Placed → Placed) : Pkg :=
  let p := modPlaced p x.id (fun y => f { y with started := true })
  { p with ledger := (prune p c).ledger ++ [x.claim x.start] }

def freePlaced (p : Pkg) (x : Placed) : Pkg := freeLedger p (x.claim 0).who

/-- Lines of a logical tile or SLV. -/
def ownLine (kind l a : Nat) : Bool :=
  if kind = 0x20 then (decide (sliceBase l ≤ a) && decide (a < sliceBase (l + 1))) || (decide (combBase l ≤ a) && decide (a < combBase (l + 1)))
  else decide (panelBase l ≤ a) && decide (a < panelBase (l + 1))

/-- The copy of a swap: correctable lines are read, and lie corrected on the spare; uncorrectable ones carry over. -/
def copyLines (p : Pkg) (kind l : Nat) : Pkg :=
  if 0x22 ≤ kind then p
  else
    let ls := p.ceLines.filter (ownLine kind l)
    let p := ls.foldl noteCe p
    { p with ceLines := p.ceLines.filter (fun a => !ownLine kind l a) }

/-- The class of a unit's corrected errors, and its number in that class. -/
def unitClass (i : Nat) : Nat × Nat := if i < 256 then (3, i) else if i < 288 then (4, i - 256) else if i < 304 then (5, i - 288) else (9, i - 304)

/-- `new` serves the logical unit that `old` served, and `old` takes a state: record, map, event. -/
def takeOver (p : Pkg) (c : Clock) (old new st : Nat) : Pkg :=
  let l := unitLogical p old
  let kind := if old < 256 then 1 else if old < 288 then 2 else if old < 304 then 3 else 4
  let p := copyLines p (0x1F + kind) l
  let p := recordMap p (fun q => setPunit (setPunit q old st 0) new 0 l)
  let x := unitClass new
  let p := clearBase p x.1 x.2
  actionDone p c kind (dieUnit x.1 x.2).1 l new

/-- A swap starts: its spare, or another when that one is no longer FREE, takes state SWAPPING; without one the unit stays. -/
def beginSwap (p : Pkg) (c : Clock) (x : Placed) : Pkg :=
  if unitState p x.spare = 1 then startPlaced (setPunit p x.spare 4 0) c x (fun y => { y with stage := 1 })
  else match freeSpare p x.unit with
    | none => degraded (recordMap (dropPlaced p x.id) id) c (actionRes x).1 (actionRes x).2
    | some k => recordMap (startPlaced (setPunit p k 4 0) c x (fun y => { y with stage := 1, spare := k })) id

/-- A swap ends after its duration; a spare that failed is FAULTY and the swap is requested again. -/
def endSwap (p : Pkg) (c : Clock) (x : Placed) (fails : Bool) : Pkg :=
  let p := freePlaced (dropPlaced p x.id) x
  if fails then requestSwap (recordMap p (fun q => setPunit q x.spare 3 0)) c x.unit
  else takeOver p c x.unit x.spare 3

/-- The physical tile that serves a logical tile, by PUNIT index. -/
def tileUnit (p : Pkg) (t : Nat) : Nat := physTile p t

/-- A live test's swap-in starts (R461): its AD must hold two FREE spares. -/
def beginLive (p : Pkg) (c : Clock) (x : Placed) : Pkg :=
  let u := tileUnit p x.unit
  match freeTiles p (x.unit / 16) with
  | k :: _ :: _ => startPlaced (setPunit p k 4 0) c x (fun y => { y with stage := 1, spare := k, aux := u })
  | _ => deferPlaced p c x

/-- The swap-in ends: the tested tile takes state TESTING. A spare that failed leaves the test to be placed again. -/
def endSwapIn (p : Pkg) (c : Clock) (x : Placed) (fails : Bool) : Pkg :=
  let p := freePlaced p x
  if fails then
    let p := modPlaced (recordMap p (fun q => setPunit q x.spare 3 0)) x.id (fun y => { y with stage := 0, started := false, req := c.gsc })
    match findPlaced p x.id with
    | some y => placeOne p c y
    | none => p
  else
    let p := takeOver p c x.aux x.spare 2
    rsetb (modPlaced p x.id (fun y => { y with stage := 2, start := c.gsc, tiles := 0 })) rHltStatus 4 true

/-- The live test is over. -/
def endLive (p : Pkg) (c : Clock) (x : Placed) (status result : Nat) : Pkg :=
  let p := dropPlaced p x.id
  let p := rsetb p rHltStatus 4 (p.placed.any (fun y => y.kind == 1 && decide (2 ≤ y.stage)))
  let p := bump p rHltSelftests
  answerTest (if status = 0x20 then bump p rHltSelffail else p) c x status result

/-- The swap-back ends: the tested tile serves again; its spare is FREE, or FAULTY when it warned. When the tested tile fails
during the copy it is FAULTY and the spare goes on serving. -/
def endSwapBack (p : Pkg) (c : Clock) (x : Placed) (fails : Bool) : Pkg :=
  let p := freePlaced p x
  if fails then
    let p := endLive (recordMap p (fun q => setPunit q x.aux 3 0)) c x 0x20 0
    if x.warned then requestSwap p c x.spare else p
  else endLive (takeOver p c x.spare x.aux (if x.warned then 3 else 1)) c x 0 0

/-- `TILE_SWAP` (R457): the placed tile swap, or swap of a live test, starts when its tick has come and ends after its duration;
`fails` tells that the tile copied to failed. -/
def execTileSwap (id : Nat) (fails : Bool) (s : State) : Out :=
  run s (fun c p =>
    match findPlaced p id with
    | none => p
    | some x =>
      if x.kind = 0x20 then
        (if !x.started then (if c.gsc < x.start then p else beginSwap p c x)
         else if c.gsc < x.start + x.dur then p else endSwap p c x fails)
      else if x.kind ≠ 1 then p
      else if x.stage = 0 then (if c.gsc < x.start then p else beginLive p c x)
      else if x.stage = 1 then (if c.gsc < x.start + x.dur then p else endSwapIn p c x fails)
      else if x.stage = 3 then
        (if c.gsc < x.start then p else startPlaced (setPunit p x.aux 4 0) c x (fun y => { y with stage := 4 }))
      else if x.stage = 4 then (if c.gsc < x.start + x.dur then p else endSwapBack p c x fails)
      else p)

/-- A swap of an SLV or a UE. -/
def swapUnit (kind id : Nat) (fails : Bool) (s : State) : Out :=
  run s (fun c p =>
    match findPlaced p id with
    | none => p
    | some x =>
      if x.kind ≠ kind then p
      else if !x.started then (if c.gsc < x.start then p else beginSwap p c x)
      else if c.gsc < x.start + x.dur then p else endSwap p c x fails)

/-- `SLV_SWAP` (R457). -/
def execSlvSwap (id : Nat) (fails : Bool) (s : State) : Out := swapUnit 0x21 id fails s
/-- `UE_SWAP` (R457). -/
def execUeSwap (id : Nat) (fails : Bool) (s : State) : Out := swapUnit 0x22 id fails s

/-- `LIVE_TEST_PATTERN_END` (R461, R462): after 200,000 ticks. A tile that passes is swapped back in a gap of its own; one that
fails is FAULTY, and a warned spare is then itself swapped out. -/
def execLiveTestPatternEnd (id : Nat) (fails : Bool) (result : Nat) (s : State) : Out :=
  run s (fun c p =>
    match findPlaced p id with
    | none => p
    | some x =>
      if x.kind ≠ 1 ∨ x.stage ≠ 2 ∨ c.gsc < x.start + 200000 then p
      else if fails then
        let p := endLive (recordMap p (fun q => setPunit q x.aux 3 0)) c x 0x20 result
        if x.warned then requestSwap p c x.spare else p
      else
        let y := { x with stage := 3, started := false, req := c.gsc, dur := 25000, tiles := 2 ^ x.unit, deadline := c.gsc + 2 ^ 32 }
        match gapFor { p with placed := p.placed.filter (fun z => z.id != id) } c y with
        | none => p
        | some g =>
          let y := { y with start := g }
          displace (modPlaced p id (fun _ => y)) c (y.claim g) false)

/-! Rows, lanes and lasers -/

/-- A placed action of one stage starts when its tick has come, and is done after its duration. -/
def oneStage (p : Pkg) (c : Clock) (kind id : Nat) (done : Pkg → Placed → Pkg) (begins : Pkg → Placed → Pkg := fun p _ => p) : Pkg :=
  match findPlaced p id with
  | none => p
  | some x =>
    if x.kind ≠ kind then p
    else if !x.started then (if c.gsc < x.start then p else startPlaced (begins p x) c x (fun y => { y with stage := 1 }))
    else if c.gsc < x.start + x.dur then p
    else done (freePlaced (dropPlaced p x.id) x) x

/-- Correctable lines of a repaired row are read and lie corrected in the spare. -/
def repairLines (p : Pkg) (f : Nat → Bool) : Pkg :=
  let ls := p.ceLines.filter f
  let p := ls.foldl noteCe p
  { p with ceLines := p.ceLines.filter (fun l => !f l), ceOwed := p.ceOwed.filter (fun e => !f e.1) }

/-- A spare row or lane comes into use, and into the record's repair map (R443). -/
def useSpare (p : Pkg) (k : Nat) : Pkg := recordMap p (fun q => { q with repairs := sset q.repairs k (sget q.repairs k 0 + 1) })

/-- `SCRATCHPAD_ROW_REPAIR` (R234): the eight lines of a row go to a spare row of their bank. -/
def execScratchpadRowRepair (id : Nat) (s : State) : Out :=
  run s (fun c p => oneStage p c 0x23 id (fun p x =>
    let t := unitLogical p x.unit
    let p := repairLines p (fun l => isSlice l && decide (sliceBase t ≤ l) && decide (l < sliceBase (t + 1)) && sliceRow (l - sliceBase t) == x.aux)
    let p := clearBase (useSpare p (bankKey x.unit (x.aux % 64))) 3 x.unit
    actionDone p c 5 (x.unit / 32) t x.aux))

/-- The reads and writes of a row's copy, in partition 3; no rule says how many lines a row has. -/
def rowCopy (p : Pkg) (x : Placed) : List HbmReq :=
  let rd : HbmReq := { line := lineOf x.aux, bytes := 64, wr := [], sq := false, who := .repair (2 ^ 50 + x.id), chg := true }
  (List.range (Config.hbmRowLines (inStack p x.aux))).flatMap (fun _ => [rd, { rd with wr := [{ addr := 8 * rd.line, w := 512, v := 0 }] }])

/-- `HBM_ROW_REPAIR` (R253): the row of a pseudo-channel is copied into a spare. -/
def execHbmRowRepair (id : Nat) (s : State) : Out :=
  run s (fun c p => oneStage p c 0x24 id (fun p x =>
    let p := repairLines p (fun l => isHbm l && sameHbmRow p l x.aux)
    let p := clearBase (useSpare p (pcKey x.unit (bits x.aux 11 6))) 1 x.unit
    let p := rsetf p (rMemRepair x.unit) 9 0 (rfld p (rMemRepair x.unit) 9 0 + 1)
    actionDone p c 6 (16 + x.unit) x.unit (bits x.aux 11 6)) (fun p x => enqueueAll p 3 (rowCopy p x)))

/-- The cores whose reads were on their way to HBM learn that they failed. -/
def refuseCores (p : Pkg) : Pkg :=
  let lost := (p.queues.flatMap (fun e => e.2)).filterMap (fun r => if r.wr.isEmpty then some (r.who, r.line) else none)
    ++ p.passed.filterMap (fun d => if d.rd then some (d.who, d.line) else none)
  lost.foldl (fun q e => match e.1 with
    | .core k => let x := core q k; setCore q k { x with asked := x.asked - 1, grant := x.grant ++ [(e.2, [], true)] }
    | _ => q) p

/-- A stack is lost: the package retires; every operation in progress completes with FAILED_HARDWARE, and nothing is held for later
(R254). -/
def stackLost (p : Pkg) (c : Clock) (k : Nat) : Pkg :=
  let p := rsetb (rsetb (rsetb p rMemStatus 1 true) rMemStklost k true) rGlbStatus 0 false
  let p := { p with store := { p.store with retired := true } }
  let p := event p c 0x0003 (16 + k) 0 (rget p rMemStklost)
  let p := p.launches.foldl (fun q l => if l.closed then q else finishLaunch q c l 0x20) p
  let p := p.placed.foldl (fun q x => answerTest q c x 0x20 0) p
  let p := p.ops.foldl (fun q o => complete q c o.id 0x20 0#16 0 0 false) p
  let p := endGates (refuseCores p) c
  let p := syncSwapPend { p with launches := [], ledger := [], placed := [], jobs := [], queues := [], passed := [], handoffs := [], den := {} }
  rsetb (rsetb (syncDen p) rDenStatus 0 false) rDenStatus 3 false

/-- `STACK_LOSS` (R254): a channel that does not answer, or the base die's own check. -/
def execStackLoss (k : Fin 32) (s : State) : Out := run s (fun c p => if rbit p rMemStklost k then p else stackLost p c k)

/-- `HBM_LANE_REPLACEMENT` (R253, R254): a data lane of a channel has failed. The replacement is requested, starts in its gap and
takes 256 ticks; a channel without a spare lane loses its stack. -/
def execHbmLaneReplacement (k : Fin 32) (ch : Fin 32) (s : State) : Out :=
  run s (fun c p =>
    let unit := k.val * 32 + ch.val
    match p.placed.find? (fun x => x.kind == 0x25 && x.unit == unit) with
    | none => if 2 ≤ sget p.repairs (laneKey k ch) 0 then stackLost p c k else requestAction p c 0x25 unit 0
    | some x => oneStage p c 0x25 x.id (fun p _ =>
        let p := useSpare p (laneKey k ch)
        let p := rsetf p (rMemRepair k) 17 10 (rfld p (rMemRepair k) 17 10 + 1)
        actionDone (clearBase p 1 k) c 7 (16 + k) k ch))

/-- `LASER_SWITCHOVER` (R335, R455): the fibres of an input move to input 3 in their gap. -/
def execLaserSwitchover (id : Nat) (s : State) : Out :=
  run s (fun c p => oneStage p c 0x26 id (fun p x =>
    match moveLaser p (x.unit / 4) (x.unit % 4) with
    | some p => actionDone p c 9 (10 + x.unit / 4) x.unit 3
    | none => p))

/-- A keeper's duties go to the spare keeper of its die (R459); false when it has none. -/
def keeperSwap (p : Pkg) (c : Clock) (k : Nat) : Pkg × Bool :=
  let i := 304 + k
  if unitState p i ≠ 0 then (p, true)
  else match freeSpare p i with
    | none => (degraded p c 9 k, false)
    | some n =>
      let p := takeOver (dropRequest p 0x28 k) c i n 3
      ({ p with cores := sset (sset p.cores (192 + k) {}) (192 + (n - 304)) {} }, true)

/-- `KEEPER_SWAP` (R459): keeper k, 4 × PD + keeper, for a warning of class 9. -/
def execKeeperSwap (k : Fin 8) (s : State) : Out :=
  run s (fun c p => if p.placed.any (fun x => x.kind == 0x28 && x.unit == k.val) then (keeperSwap p c k).1 else p)

/-! Self-tests and calibrations (R278, R406) -/

/-- `SELF_TEST_START` (R278): the placed test or calibration starts and holds what it claims. -/
def execSelfTestStart (id : Nat) (s : State) : Out :=
  run s (fun c p =>
    match findPlaced p id with
    | none => p
    | some x =>
      if 0x20 ≤ x.kind ∨ x.started ∨ x.stage ≠ 0 ∨ c.gsc < x.start then p
      else if x.kind = 1 then beginLive p c x
      else startPlaced (if x.kind = 2 then setPunit p x.unit 2 0 else p) c x (fun y => { y with stage := 1 }))

/-- A unit found faulty leaves service: a swap where its die has a spare, else it is FAULTY and its logical number is
unavailable (R406, R458). -/
def faultyUnit (p : Pkg) (c : Clock) (i : Nat) : Pkg :=
  if (freeSpare p i).isSome then requestSwap p c i
  else
    let x := unitClass i
    degraded (recordMap p (fun q => setPunit q i 3 0)) c x.1 x.2

/-- `SELF_TEST_END` (R406): the test passes or finds its unit faulty; `result` is its result code. -/
def execSelfTestEnd (id : Nat) (fails : Bool) (result : Nat) (s : State) : Out :=
  run s (fun c p =>
    match findPlaced p id with
    | none => p
    | some x =>
      if x.kind = 1 ∨ 0x20 ≤ x.kind ∨ !x.started ∨ c.gsc < x.start + x.dur then p
      else
        let p := freePlaced (dropPlaced p id) x
        if x.kind = 0x10 then p
        else
          let p := bump p rHltSelftests
          let p := if fails then bump p rHltSelffail else p
          let p := if x.kind = 2 then
              (if fails then recordMap p (fun q => setPunit q x.unit 3 0) else setPunit p x.unit 1 0)
            else if !fails then p
            else if x.kind = 3 then faultyUnit p c (256 + physSlv p x.unit)
            else if x.kind = 4 then faultyUnit p c (288 + physUe p x.unit)
            else if x.kind = 5 then rsetb p rSwmStatus (8 + x.unit) true
            else if x.kind = 6 then failPorts p c [x.unit]
            else p
          answerTest p c x (if fails then 0x20 else 0) result)

/-- `CALIBRATION_REQUEST` (R278): a calibration of firmware's own, with its code, duration, claims and deadline. -/
def execCalibrationRequest (code dur deadline tiles slvs ues : Nat) (ports : List (Fin 128)) (s : State) : Out :=
  run s (fun c p => requestPlaced p c { id := 0, kind := 0x10, unit := code, dur := dur, deadline := deadline, req := 0, tiles := tiles,
                                        slvs := slvs, ues := ues, ports := ports.map (fun q => q.val) })

/-! Failures of units (R157, R353) -/

/-- `UNIT_FAILURE` (R157, R339): kind 0 tile, 1 SLV, 2 UE, 3 swarm engine, by logical number: what runs on it ends with
FAILED_HARDWARE. -/
def execUnitFailure (kind : Fin 4) (unit : Nat) (s : State) : Out :=
  run s (fun c p =>
    if kind = 0 then
      match (tile p unit).launch with
      | some l => if unit < 128 then addCause (stopTile p unit) c l 0x20 else p
      | none => p
    else if kind = 3 then
      let p := if unit < 4 then rsetb p rSwmStatus (8 + unit) true else p
      (p.swops.filter (fun o => o.started && !o.closed && !o.failed && !o.waggle && decide (unit < min 4 o.nc))).foldl
        (fun p o => failSw p c o 0x20) p
    else
      match p.jobs.find? (fun j => (j.ue == (kind == 2)) && j.unit == unit && j.running && !j.closed) with
      | none => p
      | some j => if j.ue then failUnit p c j 0x20 else failJob p c j (launchMask p j.launch) (jobRecord p j).jstat 0x20)

end Sys2Proof.Machine
end

