-- ==== Sys2Proof/Machine/Time.lean ====
section
/-! DEFINITION. The alignment of the count (11_determinism_and_time R265 to R271, R286). -/

namespace Sys2Proof.Machine

def timRole (p : Pkg) : Nat := rfld p rTimCfg 1 0
def timPport (p : Pkg) : Nat := rfld p rTimCfg 8 2

/-- Ticks between exchanges: 64 frames. -/
def exchangeTicks : Nat := 262144

/-- A link-local packet to the peer of a port. -/
def linkPacket (p : Pkg) (ty dst op0 op1 : Nat) : List Byte :=
  mkPacket (Hdr.mk ty 0 0 0 (dst * 2 ^ 46) (ownPlace p) 0 0 0 0 0 op0 op1) []

/-- It waits for answer space of the port (R330). -/
def sendLink (p : Pkg) (c : Clock) (q : Nat) (b : List Byte) : Pkg :=
  { p with answers := p.answers ++ [{ port := q, bytes := b, hops := 0, tick := c.gsc }] }

def peerPlace (p : Pkg) (q : Nat) : Nat := rfld p (rFabPpeer (physPort p q)) 17 0

/-- `TIME_EXCHANGE` (R267): every 64 frames a child sends a probe, whose departure is stamped when it leaves. -/
def execTimeExchange (s : State) : Out :=
  run s (fun c p =>
    let q := timPport p
    if timRole p = 2 ∨ !portUp p q ∨ c.gsc < p.time.nextAt then p
    else
      let open_ := p.time.t1.isSome || p.answers.any (fun a => field a.bytes 0 1 == 0x30)
      let p := if open_ then rsetb p rTimStatus 2 false else p
      sendLink { p with time := { p.time with t1 := none, nextAt := c.gsc + exchangeTicks } } c q
        (linkPacket p 0x30 (peerPlace p q) 0 0))

/-- `TIME_PROBE` (R267): a parent answers with the stamp of the arrival (OP0); OP1 takes the stamp of the reply's departure when it
leaves, and its bit 63 reports that the parent has lost synchronisation (R269). -/
def execTimeProbe (q : Fin 128) (pkt : List Byte) (poison : Bool) (s : State) : Out :=
  run s (fun c p => match arrive p c q pkt poison [0x30] with
    | (p, none) => p
    | (p, some h) =>
      let t := stampNow p c
      sendLink p c q (linkPacket p 0x31 h.src t (b2n (!rbit p rTimStatus 0) * 2 ^ 63)))

/-! Estimates (R267) -/

/-- The difference of two stamps, which lie within 2^62 of one another. -/
def stampDiff (a b : Nat) : Int := sext 63 ((a + 2 ^ 63 - b) % 2 ^ 63)

/-- θ = ((t2 − t1) − (t4 − t3)) / 2 − A / 2, in 1/16 tick. -/
def theta (p : Pkg) (t1 t2 t3 t4 : Nat) (asym : Int) : Int :=
  let d := stampDiff t2 t1 - stampDiff t4 t3 - asym
  if d % 2 = 0 ∨ !Config.thetaUp p.fv then d / 2 else d / 2 + 1

/-! Losing and gaining alignment (R268, R269) -/

def thetaWord (t : Int) : Nat := wrapInt 64 t

/-- Synchronisation is lost: running launches of several members end. -/
def loseSync (p : Pkg) (c : Clock) : Pkg :=
  if !rbit p rTimStatus 0 then p
  else
    let th := sext 32 (rget p rTimOffset)
    let p := event (bump (rsetb p rTimStatus 0 false) rTimSyncloss) c 8 8 0 (thetaWord th)
    let p := { p with time := { p.time with lost := true, bad := 0 } }
    (p.launches.filter (fun l => l.multi && decide (1 < l.nmem) && l.running && !l.closed && !l.restore)).foldl (fun p l =>
      let p := addCause p c l.id 0x23
      match findLaunch p l.id with
      | some y => finishLaunch p c y (doneStatus y)
      | none => p) p

/-- Alignment holds; firmware has set the lock again (R286). -/
def gainSync (p : Pkg) (c : Clock) : Pkg :=
  let p := rset (rsetb p rTimStatus 0 true) rTimLock 1
  if p.time.lost then
    event { p with time := { p.time with lost := false, bad := 0 } } c 9 8 0 (thetaWord (sext 32 (rget p rTimOffset)))
  else { p with time := { p.time with bad := 0 } }

/-- A test, calibration or spare action that holds an entry, or is placed, when the count steps (R270): what has begun is undone,
tests end DEFERRED, spare actions are requested again. The pattern of a live test holds no entry and goes on; a live test at its
swap-back has passed its pattern, so its tile becomes FREE and the spare goes on serving (log 131). -/
def unplace (p : Pkg) (c : Clock) (x : Placed) : Pkg :=
  if x.kind = 1 ∧ x.stage = 2 then p
  else if x.kind = 1 ∧ 3 ≤ x.stage then
    let p := deferPlaced (recordMap p (fun q => setPunit q x.aux 1 0)) c x
    let p := rsetb p rHltStatus 4 (p.placed.any (fun y => y.kind == 1 && decide (2 ≤ y.stage)))
    if x.warned then requestSwap p c x.spare else p
  else if x.kind < 0x20 then
    let p := if x.kind = 1 ∧ x.stage = 1 then setPunit p x.spare 1 0 else if x.kind = 2 ∧ x.started then setPunit p x.unit 1 0 else p
    deferPlaced p c x
  else
    let p := if x.started ∧ x.kind ≤ 0x22 then setPunit p x.spare 1 0 else p
    let p := dropPlaced p x.id
    requestPlaced p c { x with started := false, stage := 0, deadline := c.gsc + 2 ^ 32 }

/-- The ticks that the package holds move with the count. -/
def shiftTicks (p : Pkg) (d : Int) : Pkg :=
  let f (t : Nat) : Nat := ((t : Int) + d).toNat
  let g (o : OutPkt) : OutPkt := { o with sent := o.sent.map f, due := o.due.map f }
  { p with active := f p.active, pins := { p.pins with wake := p.pins.wake.map f }, outs := p.outs.map g, resps := p.resps.map (fun r => { r with pkt := g r.pkt }),
           ctxs := p.ctxs.map (fun e => (e.1, { e.2 with stall := f e.2.stall })),
           ports := p.ports.map (fun e => (e.1, { e.2 with ran := 0, slot := 0, used := 0, ans := 0, wgSent := false })),
           ops := p.ops.map (fun o => { o with arrival := f o.arrival }), fwd := p.fwd.map (fun w => { w with tick := f w.tick }),
           placed := p.placed.map (fun x => { x with start := f x.start, req := f x.req, deadline := f x.deadline }),
           handoffs := p.handoffs.map (fun h => { h with start := f h.start }),
           wc := p.wc.map (fun e => { e with tick := f e.tick }),
           passed := p.passed.map (fun e => { e with tick := f e.tick }),
           regTick := [], buckets := p.buckets,
           xfer := { p.xfer with last := f p.xfer.last },
           rswitch := p.rswitch,
           time := { p.time with last := f p.time.last, nextAt := f p.time.nextAt } }

/-- Cuts whose window has begun and not ended hold a ledger entry, and end (R270). -/
def dropInWindow (p : Pkg) (c : Clock) : Pkg :=
  (p.den.cuts.filter (fun x => decide (x.cn ≤ c.gsc) && decide (c.gsc < x.cn + polWindow x.pol))).foldl (fun q x => abandonCut q c x 0 false) p

/-- What ends in the tick of a step of the count (R270): launches and restores, cuts, the den policy, the ledger. A shadow drain runs
after its window and goes on. -/
def stepEnds (p : Pkg) (c : Clock) : Pkg :=
  let p := p.launches.foldl (fun p l =>
    if l.closed || l.refused.isSome then p
    else
      let p := addCause p c l.id 0x23
      match findLaunch p l.id with
      | some y => finishLaunch p c y (doneStatus y)
      | none => p) p
  { disarm (dropInWindow p c) c with ledger := [] }

/-- The clock moved by θ. -/
def moveClock (p : Pkg) (c : Clock) (th : Int) : Clock :=
  let u := tickUnits p
  let t := (c.gsc * 16 * u + c.sub * 16 : Int) + th * u
  let t := (t % (2 ^ 64 * 16 * u : Int)).toNat
  { c with gsc := t / (16 * u), sub := t % (16 * u) / 16 }

/-- One completed estimate: the count steps when it is to (R268), else the estimate is judged. -/
def estimate (c : Clock) (p : Pkg) (th : Int) (parentLost : Bool) : Clock × Pkg :=
  let p := rsetb (rset p rTimOffset (wrapInt 32 th)) rTimStatus 2 true
  let p := { p with fv := p.fv + 1, time := { p.time with t1 := none, last := c.gsc } }
  if p.time.step then
    let p := stepEnds p c
    let c' := moveClock p c th
    let p := shiftTicks p ((c'.gsc : Int) - c.gsc)
    let p := p.placed.foldl (fun p x => unplace p c' x) p
    (c', rsetb { p with time := { p.time with step := false, bad := 0 } } rTimStatus 1 true)
  else if parentLost then (c, loseSync p c)
  else if !rbit p rTimStatus 0 then (c, if th.natAbs ≤ 8 then gainSync p c else p)
  else
    let n := if 32 < th.natAbs then p.time.bad + 1 else 0
    let p := { p with time := { p.time with bad := n } }
    (c, if 2 ≤ n then loseSync p c else p)

/-- `TIME_REPLY` (R267 to R270): the child stamps the reply's arrival and estimates its offset. Slewing, which changes only the rate
of the clock, is not seen in the count. -/
def execTimeReply (q : Fin 128) (pkt : List Byte) (poison : Bool) (s : State) : Out :=
  match arrive s.pkg s.clk q pkt poison [0x31] with
  | (p, none) => .next { s with pkg := p }
  | (p, some h) =>
    match p.time.t1 with
    | none => .next { s with pkg := p }
    | some t1 =>
      if timRole p = 2 ∨ timPport p ≠ q.val then .next { s with pkg := p }
      else
        let th := theta p t1 (h.op0 % 2 ^ 63) (h.op1 % 2 ^ 63) (stampNow p s.clk) (sext 16 (rfld p (rFabPflight (physPort p q)) 31 16))
        let r := estimate s.clk p th (bit h.op1 63)
        .next { s with clk := r.1, pkg := r.2 }

/-- `EXCHANGE_TIMEOUT` (R269): no exchange has completed for 8 intervals. -/
def execExchangeTimeout (s : State) : Out :=
  run s (fun c p =>
    if timRole p = 2 ∨ c.gsc < p.time.last + 8 * exchangeTicks then p else loseSync { p with time := { p.time with t1 := none } } c)

/-- The TIM block right after a reset (R286): ROLE and PPORT come from the record in use, the DSR stays; the time master is
aligned with itself. -/
def resetTim (p : Pkg) (c : Clock) : Pkg :=
  let ever := rbit p rTimStatus 1
  let dsr := (List.range 4).map (fun i => rget p (rTimDsr i))
  let p := { p with regs := p.regs.filter (fun e => !(decide (0x400000 ≤ e.1) && decide (e.1 < 0x500000))) }
  let p := rsetb (dsr.zipIdx.foldl (fun p e => rset p (rTimDsr e.2) e.1) p) rTimStatus 1 ever
  let p := { p with time := { p.time with t1 := none, last := c.gsc, nextAt := c.gsc, bad := 0, step := true } }
  match recInUse p with
  | none => p
  | some r =>
    let p := rset p rTimCfg (r.role % 4 + r.pport % 128 * 4)
    if r.role % 4 = 2 then rset (rsetb p rTimStatus 0 true) rTimLock 1 else p

/-- `TIME_FUNCTION_RESET` (R269, R286): firmware resets the TIM block alone; work goes on. -/
def execTimeFunctionReset (s : State) : Out := run s (fun c p => resetTim p c)

/-- `TIME_IN_EDGE` (R271). -/
def execTimeInEdge (s : State) : Out :=
  run s (fun c p => rset (rset p rTimTimeinLo (c.gsc % 2 ^ 32)) rTimTimeinHi (c.gsc / 2 ^ 32))

/-- `GSC_MANAGER_TAKEOVER` (R266): the count goes on without a step. -/
def execGscManagerTakeover (s : State) : Out := run s (fun _ p => { p with time := { p.time with pd1 := true } })

end Sys2Proof.Machine
end

