-- ==== Sys2Proof/Machine/Boot.lean ====
section
/-! DEFINITION. Supplies, start-up, resets, thermal trip, clocks, deep idle (18_startup_power_security R429 to R447; 17 R418, R424
to R426; 10 R255, R256; 11 R259; 19 R464; 20 R473). -/

namespace Sys2Proof.Machine

/-! Supplies (R429 to R431) -/

/-- `V12_VALID` (R430): the 12 V input becomes valid. `made` is what manufacture put into a store that is still blank. -/
def execV12Valid (made : Factory) (s : State) : Out :=
  run s (fun _ p =>
    let p := rsetb (rsetb p rPwrStatus 1 true) rPwrStatus 5 (!p.pins.sensors.isEmpty)
    let st := p.store
    if st.imgA.isNone && st.imgB.isNone && st.copies.isEmpty then
      { p with store := { st with imgA := made.imgA, imgB := made.imgB, copies := made.copies, rollback := made.rollback,
                                  training := made.training, idhash := made.idhash } }
    else p)

/-- `V48_VALID` (R430): the 48 V input is valid at a voltage in mV. -/
def execV48Valid (mV : Nat) (s : State) : Out :=
  run s (fun _ p =>
    if mV < 40000 ∨ 60000 < mV then p else rsetf (rsetb p rPwrStatus 0 true) rPwrInput 15 0 mV)

/-- The package without power: the store, host memory and what stands on the pins remain. -/
def powerOff (p : Pkg) : Pkg :=
  { fv := p.fv, store := p.store, host := p.host,
    pins := { resetLow := p.pins.resetLow, refLost := p.pins.refLost, trstLow := p.pins.trstLow, sensors := p.pins.sensors } }

/-- `POWER_LOSS` (R431): the 12 V input, or the 48 V input, is no longer valid; every operation ends without a completion entry. -/
def execPowerLoss (v12 : Bool) (s : State) : Out :=
  let p := s.pkg
  if !rbit p rPwrStatus (b2n v12) then .next s
  else
    let q := rset (powerOff p) rPwrStatus (if v12 then b2n (rbit p rPwrStatus 0) else Nat.land (rget p rPwrStatus) 0x22)
    let q := if v12 then rset q rPwrInput (rget p rPwrInput) else q
    .next { s with pkg := q, clk := {} }

/-! Configuration (R443, R464) -/

/-- The intact copies of the highest sequence number, each with its position. -/
def topCopies (p : Pkg) : List (CfgRec × Nat) :=
  let ok := p.store.copies.zipIdx.filter (fun e => e.1.intact)
  let m := ok.foldl (fun m e => max m e.1.seq) 0
  ok.filter (fun e => e.1.seq == m)

/-- A trend class of the record (R451): class, FLOOR, ABS, `HLT.TRENDC`. -/
def loadTrend (p : Pkg) (e : Nat × Nat × Nat × Nat) : Pkg :=
  let (k, floor, abs, w) := e
  if 1 ≤ k ∧ k < 16 then rset (rset (rset p (rHltTrendA k) floor) (rHltTrendB k) abs) (rHltTrendC k) (w % 2 ^ 15) else p

/-- The REMOTE slot bases, when the record marks `HIF.LOCK.RSLOT` (R418). -/
def loadSlots (p : Pkg) (r : CfgRec) : Pkg :=
  if bit r.locks 3 then
    (r.rslots.take 16).zipIdx.foldl (fun q e => rset (rset q (rRslotLo e.2) (e.1 / 2 ^ 30 * 2 ^ 30)) (rRslotHi e.2) (e.1 / 2 ^ 32)) p
  else p

/-- The values that come from the record in use (R443), with the clock rates of its grade. Place, interleave mode and repair map are taken
at a power-up only, and stand through resets (R240, R315). -/
def loadRecord (p : Pkg) (r : CfgRec) : Pkg :=
  let g := r.grade.val
  let old := p.cfg
  let place := if old.taken then old.place else r.place % 2 ^ 18
  let ilv := if old.taken then old.ilv else r.ilv % 2
  let p := { p with cfg := { grade := g, ilv := ilv, radef := r.radef % 4, place := place, taken := true, booted := old.booted, mapIn := true },
                    punits := r.spares, repairs := if old.taken then p.repairs else r.repairs }
  let p := rset p rGlbId (0x0340B000 + g)
  let p := rset (rset p rGlbSerialLo r.serial) rGlbSerialHi (r.serial / 2 ^ 32)
  let p := rset p rFabPlace place
  let p := rsetf p rMemCfg 0 0 ilv
  let p := rset p rPwrTwarn (r.twarn % 2 ^ 16)
  let p := rset p rPwrLimit (r.limit.getD 7200)
  let p := rset p rPwrIdle (r.idle.getD 0 % 2 ^ 16)
  let p := rset p rPwrClk ((if g = 0 then 1700 else 1550) + 2400 * 2 ^ 16)
  let p := rset p rHifTuperm (Nat.land r.tuperm 0xFE)
  let p := rset p rDbgEnable (r.dbg % 16)
  let p := rset p rTimCfg (r.role % 4 + r.pport % 128 * 4)
  let p := if r.role % 4 = 2 then rsetb p rTimStatus 0 true else p
  loadSlots (r.trend.foldl loadTrend p) r

/-- The package refuses service over its configuration copies (R464): stage 5. -/
def cfgConflict (p : Pkg) (c : Clock) (seq : Nat) : Pkg :=
  let p := rsetf (rsetb p rSecCfgstat 8 true) rSecCfgstat 5 4 3
  let p := rsetf (rsetb p rGlbStatus 3 true) rGlbStatus 10 8 5
  logEntry p c 0x0105 0xFF (rget p rSecCfgstat) seq 0

/-! Firmware images (R444, R445) -/

def imgVersion (i : Image) : Nat := field i.header 4 4 % 2 ^ 31
def imgSvn (i : Image) : Nat := field i.header 8 4
def imgLength (i : Image) : Nat := field i.header 0x10 8

/-- The first check of R445 that an image fails: 1 MAGIC and LENGTH, 2 BODYHASH, 3 KEYS, 4 the signatures, 5 SVN. -/
def imageCheck (p : Pkg) (i : Option Image) : Option Nat :=
  match i with
  | none => some 1
  | some i =>
    if field i.header 0 4 ≠ 0x574D5247 ∨ imgLength i % 4096 ≠ 0 ∨ 2 ^ 26 < imgLength i then some 1
    else if !i.bodyOk then some 2
    else if !i.keysOk then some 3
    else if !i.rsaOk ∨ !i.slhOk then some 4
    else if imgSvn i < p.store.rollback then some 5
    else none

def image (p : Pkg) (k : Nat) : Option Image := if k = 0 then p.store.imgA else p.store.imgB

/-- The image tried first: the higher VERSION. -/
def firstImage (p : Pkg) : Nat :=
  let v (i : Option Image) := (i.map imgVersion).getD 0
  if v p.store.imgA < v p.store.imgB then 1 else 0

/-- A failure is logged with the image and the check. -/
def imageFailed (p : Pkg) (c : Clock) (k chk : Nat) : Pkg := logEntry p c 0x0104 0xFF (k + chk * 2 ^ 8) 0 0

/-- The DSR and the DCID (R258, R259). -/
def loadDsr (p : Pkg) (i : Image) : Pkg :=
  let d0 := field i.header 0xC 2 + 0xB0 * 2 ^ 16
  let d1 := field i.header 0xE 1 + p.cfg.radef * 2 ^ 8 + 0x01 * 2 ^ 16
  rset (rset (rset p (rTimDsr 0) d0) (rTimDsr 1) d1) rGlbDcid d0

/-- A verified image starts: stage 1. A retired package stops in stage 5 (R434). -/
def startImage (p : Pkg) (k : Nat) (i : Image) : Pkg :=
  let p := rsetb (rsetb p rSecStatus 0 true) rSecStatus 1 (k == 1)
  let p := rset p rGlbFwver (imgVersion i + k * 2 ^ 31)
  let p := rsetBytes p (rSecFwhash 0) (i.digest.take 48)
  let p := rset p rHltProto (i.proto % 2 ^ 8 * 0x101)
  let p := loadDsr p i
  if p.store.retired then rsetf (rsetb (rsetb p rMemStatus 1 true) rGlbStatus 1 true) rGlbStatus 10 8 5
  else rsetf p rGlbStatus 10 8 1

/-- Both images failed (R434, R446). -/
def recovery (p : Pkg) : Pkg := rsetf (rsetb (rsetb p rSecStatus 2 true) rGlbStatus 2 true) rGlbStatus 10 8 5

/-- The boot ROM tries an image, and the other when it fails. -/
def bootImages (p : Pkg) (c : Clock) : Pkg :=
  let k := firstImage p
  match imageCheck p (image p k), image p k with
  | none, some i => startImage p k i
  | e, _ =>
    let p := imageFailed p c k (e.getD 1)
    match imageCheck p (image p (1 - k)), image p (1 - k) with
    | none, some i => startImage p (1 - k) i
    | e, _ => recovery (imageFailed p c (1 - k) (e.getD 1))

/-- `BOOT_VERIFY` (R432, R443, R445, R464): stage 0 reads and verifies the configuration copies and the images. -/
def execBootVerify (s : State) : Out :=
  run s (fun c p =>
    if !live p ∨ p.pins.resetLow ∨ p.pins.tripped ∨ stageOf p ≠ 0 then p
    else
      let p := rset p rSecRollback p.store.rollback
      let p := rsetBytes p (rSecIdhash 0) (p.store.idhash.take 48)
      let p := rset p rGlbBootcnt p.store.bootCnt
      let p := rsetf p rSecCfgstat 2 0 ((p.store.copies.zipIdx.map (fun e => b2n e.1.intact * 2 ^ e.2)).foldl (fun a b => a + b) 0)
      match topCopies p with
      | [] => cfgConflict p c 0
      | (r, k) :: rest =>
        if rest.any (fun e => e.1 != r) then cfgConflict p c r.seq
        else bootImages (loadRecord (rset (rsetf p rSecCfgstat 5 4 k) rSecCfgseq r.seq) r) c)

/-! Stages 2 to 4 (R432, R435, R436, R447) -/

/-- `HBM_READY` (R432): the stacks are trained and every line is initialised; every port that may train begins to. -/
def execHbmReady (s : State) : Out :=
  run s (fun c p =>
    if stageOf p ≠ 1 ∨ !rbit p rPwrStatus 0 ∨ p.pins.tripped ∨ p.pins.resetLow ∨ rbit p rMemStatus 1 then p
    else
      let p := rsetf (rsetb p rMemStatus 0 true) rGlbStatus 10 8 2
      let p := { p with store := { p.store with training := true } }
      ((List.range 127).filter (mayTrain p)).foldl (fun p q => setPort p c q 1) p)

/-- `FABRIC_READY` (R432): a port that has not trained is FAILED; `lasers` are the inputs, by FD, that have power. -/
def execFabricReady (lasers : List (Fin 4 × Fin 4)) (s : State) : Out :=
  run s (fun c p =>
    if stageOf p ≠ 2 then p
    else
      let p := lasers.foldl (fun p e => rsetb p (rFabFdstat e.1) (1 + e.2) true) p
      let p := (List.range 128).foldl (fun p q => if rfld p (rFabPstate q) 2 0 = 1 then setPort p c q 3 else p) p
      rsetf (rsetb p rFabStatus 0 true) rGlbStatus 10 8 3)

/-- The lock bits in the order of Table 17.4. -/
def lockBits : List (Nat × Nat) :=
  [(rGlbLock, 0), (rPwrLock, 0), (rSecLock, 0), (rHifLock, 0), (rTimLock, 0), (rMemLock, 0), (rMemLock, 1), (rMemLock, 2),
   (rFabLock, 0), (rFabLock, 1), (rFabLock, 2), (rHltLock, 0), (rDbgLock, 0)]

/-- The bits that every record marks: all but `GLB.LOCK.RESET`, `SEC.LOCK.TOKEN` and `HIF.LOCK.RSLOT` (R418). -/
def alwaysLocked : Nat := 0x1FFF - 1 - 4 - 8

def setLocks (p : Pkg) (m : Nat) : Pkg :=
  lockBits.zipIdx.foldl (fun p e => if bit m e.2 then rsetb p e.1.1 e.1.2 true else p) p

/-- R436: contexts that were in doubt at the reset start from zero. -/
def resetCtxs (p : Pkg) : Pkg :=
  { p.ctxReset.foldl (fun p k => setCtx p k { ctx p k with txseq := 0, rxbase := 0, rxmap := 0#256 }) p with ctxReset := [] }

/-- R447: the rollback counter advances to the SVN of the image that runs, at most 4,096 times. -/
def advanceRollback (p : Pkg) (c : Clock) : Pkg :=
  match image p (rfld p rSecStatus 1 1) with
  | none => p
  | some i =>
    if imgSvn i ≤ p.store.rollback then p
    else if 4096 ≤ p.store.advances then logEntry p c 0x0109 0xFF (imgSvn i) 0 0
    else rset { p with store := { p.store with rollback := imgSvn i, advances := p.store.advances + 1 } } rSecRollback (imgSvn i)

/-- `PACKAGE_READY` (R432): the boot count, once in a power-up (R111), the locks, the contexts, READY; a package retired meanwhile stops in stage 5. -/
def execPackageReady (s : State) : Out :=
  run s (fun c p =>
    if stageOf p ≠ 3 then p
    else if rbit p rMemStatus 1 then rsetf p rGlbStatus 10 8 5
    else
      let p := if p.cfg.booted then p
        else { p with store := { p.store with bootCnt := (p.store.bootCnt + 1) % 2 ^ 32 }, cfg := { p.cfg with booted := true } }
      let p := rset p rGlbBootcnt p.store.bootCnt
      let p := setLocks p (Nat.lor alwaysLocked (((recInUse p).map (fun r => r.locks)).getD 0))
      let p := advanceRollback (resetCtxs p) c
      rsetf (rsetb { p with health := { p.health with ready := c.up }, active := c.gsc } rGlbStatus 0 true) rGlbStatus 10 8 4)

/-! Resets (R435 to R439) -/

/-- `RESET_N_ASSERT` (R435): low for 10 µs. A tripped package ignores it. -/
def execResetNAssert (s : State) : Out :=
  run s (fun _ p =>
    let p := { p with pins := { p.pins with resetLow := true } }
    if live p && !p.pins.tripped then resetPkg p 1 else p)

/-- `RESET_N_RELEASE` (R435). -/
def execResetNRelease (s : State) : Out := run s (fun _ p => { p with pins := { p.pins with resetLow := false } })

/-- Units of the always-on clock in a number of ticks. -/
def ticksUp (p : Pkg) (t : Nat) : Nat := t * tickUnits p

/-- `WATCHDOG_EXPIRY` (R437): keeper k, 4 × PD + keeper. -/
def execWatchdogExpiry (k : Fin 8) (s : State) : Out :=
  run s (fun c p =>
    if !keepersRun p ∨ unitState p (304 + k) ≠ 0 then p
    else
      let d := k.val / 4
      let p := logEntry p c 0x0107 (8 + d) k 0 0
      let again := p.pins.wdog.any (fun e => e.1 == d && decide (c.up ≤ e.2 + ticksUp p 2500000000))
      let r := keeperSwap { p with pins := { p.pins with wdog := sset p.pins.wdog d c.up } } c k
      if again || !r.2 then resetPkg r.1 3 else r.1)

/-- The trip threshold of a die, in units of 0.125 °C (R438). -/
def tripPoint (die : Nat) : Nat := if die < 14 then 920 else 840

/-- `THERMAL_TRIP` (R438): a die reaches its threshold. Every clock but the always-on one stops; all work ends without an answer;
the stacks keep their contents in self-refresh. -/
def execThermalTrip (die : Fin 48) (temp : Fin 32768) (s : State) : Out :=
  run s (fun _ p =>
    if !live p ∨ p.pins.tripped ∨ temp.val < tripPoint die ∨ (14 ≤ die.val ∧ die.val < 16) then p
    else
      let p := rset p rPwrTemp (temp.val + die.val * 2 ^ 16)
      let p := rsetb (rsetb p rMemStatus 2 true) rGlbStatus 0 false
      { p with pins := { p.pins with tripped := true }, ops := [], launches := [], ledger := [], placed := [], jobs := [], queues := [],
               passed := [], tiles := [], cores := [], swops := [], swIn := [], wg := [], handoffs := [], rswitch := none,
               fwd := [], den := {}, gates := [] })

/-- `THERMAL_TRIP_EXIT` (R438): a pulse of RESET_N, with the temperature of the hottest die (signed); it counts only below
`PWR.TWARN`. -/
def execThermalTripExit (temp : Nat) (s : State) : Out :=
  run s (fun _ p =>
    if !p.pins.tripped ∨ sext 16 (rget p rPwrTwarn) ≤ sext 16 temp then p
    else
      let p := resetPkg p 4
      { p with pins := { p.pins with tripped := false } })

/-! Clocks (R441, R442) -/

/-- `REFCLK_LOSS` (R442): every PLL unlocks; running launches end, and alignment is lost. -/
def execRefclkLoss (s : State) : Out :=
  run s (fun c p =>
    let p := (p.launches.filter (fun l => l.running && !l.closed && !l.restore)).foldl (fun p l =>
      let p := addCause p c l.id 0x20
      match findLaunch p l.id with
      | some y => finishLaunch p c y (doneStatus y)
      | none => p) p
    loseSync { p with pins := { p.pins with refLost := true } } c)

/-- `REFCLK_RETURN` (R442): the time master is aligned again with itself. -/
def execRefclkReturn (s : State) : Out :=
  run s (fun c p =>
    let was := p.pins.refLost
    let p := { p with pins := { p.pins with refLost := false } }
    if was && timRole p == 2 && !rbit p rTimStatus 0 then gainSync p c else p)

/-- The units that bit d of a `SY.CLKON` mask starts on a tile, as spare-map index. -/
def clkUnit (p : Pkg) (t d : Nat) : Nat :=
  if d = 3 then 256 + physSlv p (t / 8) else if d = 4 then 288 + physUe p (t / 16) else physTile p t

/-- `PLL_LOCK_FAIL` (R441): a unit that the `SY.CLKON` numbered n in flight on a tile starts, bit d of its mask, does not lock. -/
def execPllLockFail (t : Fin 128) (n : Nat) (d : Fin 5) (s : State) : Out :=
  run s (fun c p =>
    match (tile p t).infl.find? (fun f => f.seq == n && opcodeOf f.word.toNat == 0xA6) with
    | none => p
    | some f =>
      if !bit (bits f.word.toNat 7 0) d then p
      else
        let p := modTile p t (fun x => { x with infl := x.infl.map (fun g => if g.seq = n then { g with fin := false, failed := true } else g) })
        faultyUnit (rsetb p rPwrStatus 6 true) c (clkUnit p t d))

/-! Power and temperature (R424, R473) -/

/-- `OVERLIMIT` (R424): the average over 1 s, in watts, exceeds the limit. -/
def execOverlimit (watts : Nat) (s : State) : Out :=
  run s (fun c p =>
    if !live p ∨ watts ≤ rget p rPwrLimit then p
    else
      let was := rbit p rPwrStatus 3
      let p := rsetf p rPwrPower 31 16 watts
      if was then p else event (bump (rsetb p rPwrStatus 3 true) rPwrOvercnt) c 1 0xFF 0 (resOfUnit 0xA 0 0))

/-- `OVERLIMIT_END` (R424). -/
def execOverlimitEnd (watts : Nat) (s : State) : Out :=
  run s (fun _ p => if !live p ∨ rget p rPwrLimit < watts then p else rsetb (rsetf p rPwrPower 31 16 watts) rPwrStatus 3 false)

/-- The hottest die's temperature, signed in units of 0.125 °C, and the die. -/
def setTemp (p : Pkg) (temp die : Nat) : Pkg := rset p rPwrTemp (temp % 2 ^ 16 + die % 2 ^ 6 * 2 ^ 16)

/-- `HOT` (R424). -/
def execHot (temp : Nat) (die : Fin 48) (s : State) : Out :=
  run s (fun _ p =>
    if !live p ∨ sext 16 temp ≤ sext 16 (rget p rPwrTwarn) then p
    else
      let was := rbit p rPwrStatus 4
      let p := setTemp p temp die
      if was then p else bump (rsetb p rPwrStatus 4 true) rPwrHotcnt)

/-- `HOT_END` (R424). -/
def execHotEnd (temp : Nat) (die : Fin 48) (s : State) : Out :=
  run s (fun _ p =>
    if !live p ∨ sext 16 (rget p rPwrTwarn) < sext 16 temp then p else rsetb (setTemp p temp die) rPwrStatus 4 false)

/-- The open sensors, and `PWR.STATUS.SENSOPEN`. -/
def setSensors (p : Pkg) (l : List Nat) : Pkg := rsetb { p with pins := { p.pins with sensors := l } } rPwrStatus 5 (!l.isEmpty)

/-- `SENSOR_OPEN` (R473). -/
def execSensorOpen (die : Fin 48) (s : State) : Out :=
  run s (fun c p =>
    if !live p ∨ p.pins.sensors.contains die.val then p
    else logEntry (setSensors p (die.val :: p.pins.sensors)) c Config.sensorCode.toNat die 0 0 0)

/-- `SENSOR_READS_AGAIN` (R473). -/
def execSensorReadsAgain (die : Fin 48) (s : State) : Out :=
  run s (fun _ p => if live p then setSensors p (p.pins.sensors.filter (fun d => d != die.val)) else p)

/-! Deep idle (R256, R426) -/

/-- `DEEP_IDLE_ENTRY` (R256): DELAY ms without a ledger entry and without a host access. -/
def execDeepIdleEntry (s : State) : Out :=
  run s (fun c p =>
    let p := prune p c
    let d := rfld p rPwrIdle 15 0
    if stageOf p ≠ 4 ∨ d = 0 ∨ rbit p rPwrStatus 2 ∨ p.pins.tripped ∨ ledgerUsed p c ≠ 0 ∨ c.gsc < p.active + d * 250000 then p
    else rsetb (rsetb p rPwrStatus 2 true) rMemStatus 2 true)

/-- `DEEP_IDLE_EXIT` (R256, R426): the exit begins, and 2,500 ticks later the stacks are out of self-refresh. -/
def execDeepIdleExit (s : State) : Out :=
  run s (fun c p =>
    if !rbit p rPwrStatus 2 then p
    else match p.pins.wake with
      | none => { p with pins := { p.pins with wake := some (c.gsc + 2500) } }
      | some g =>
        if c.gsc < g then p
        else rsetb (rsetb { p with active := c.gsc, pins := { p.pins with wake := none } } rPwrStatus 2 false) rMemStatus 2 false)

end Sys2Proof.Machine
end

