-- ==== Sys2Proof/Machine/Deliver.lean ====
section
/-! DEFINITION. The regulators' ticks, and what an HBM access means to its requester when it is delivered (10_memory_system R243,
R245, R247, R256). -/

namespace Sys2Proof.Machine

/-- The AD of a requester, if it lies on one. -/
def whoAd : Who → Option Nat
  | .tile t _ => some (t / 16)
  | .core k | .post k _ => if k < 128 then some (k / 16) else if 200 ≤ k then some ((k - 200) / 2) else none
  | _ => none

/-- Ticks after its pass by which an access is delivered (Table 10.4): to a requester on another die, 12 more. -/
def accessBound (p : Pkg) (d : HbmDone) : Nat :=
  (if d.atom || (d.sq && d.rd) then 120 else if d.rd then 80 else 4) + (if whoAd d.who = some (stackOf p d.line / 4) then 0 else 12)

/-- One access of a waiting command is delivered; the last one serves the command. -/
def gateStep (p : Pkg) (c : Clock) (id : Nat) (d : HbmDone) : Pkg :=
  match p.gates.find? (fun g => g.id == id) with
  | none => p
  | some g =>
    let g := { g with left := g.left - 1, got := if d.rd then g.got ++ [(d.line, d.data)] else g.got,
                      bad := if d.bad then g.bad ++ [d.line] else g.bad }
    if g.left ≠ 0 then { p with gates := p.gates.map (fun x => if x.id = id then g else x) }
    else
      let p := { p with gates := p.gates.filter (fun x => x.id != id) }
      match g.cmd with
      | .hostLocalAccess _ i a acc => hostDone p g i a acc
      | cmd => if (waitingPkt cmd).isEmpty then p else requestDone p c g (waitingPkt cmd)

/-- One access of a core is delivered: what it read, or the failure of a store. -/
def coreStep (p : Pkg) (k : Nat) (d : HbmDone) : Pkg :=
  let x := core p k
  if d.rd then setCore p k { x with asked := x.asked - 1, grant := x.grant ++ [(d.line, d.data, d.bad)] }
  else if d.bad then { p with excs := p.excs ++ [{ core := k, subcause := 0x100, pc := x.pc }] }
  else p

/-- One access of a tile's instruction is delivered; the last one finishes it. -/
def tileStep (p : Pkg) (c : Clock) (t q : Nat) (d : HbmDone) : Pkg :=
  if d.bad then p
  else if d.rd then
    let p := modInfl p t q (fun f => { f with got := f.got ++ [(d.line, d.data)], pend := f.pend - 1 })
    match findInfl p t q with
    | none => p
    | some f => if f.pend = 0 then dataDone p c t f else p
  else modInfl p t q oneDone

/-- Delivers a passed access to its requester. -/
def deliver (p : Pkg) (c : Clock) (d : HbmDone) : Pkg :=
  match d.who with
  | .tile t q => tileStep p c t q d
  | .core k => coreStep p k d
  | .post k place => if d.bad then postFails p c k nakMemory else postDone p c k place
  | .gate id => gateStep p c id d
  | _ => p

/-- A squirrel read of this access's requester. -/
def sqMate (d e : HbmDone) : Bool := e.sq && e.rd && e.who == d.who

/-- The accesses that go back with the n-th passed one: a squirrel read fills a line of 64 bytes with those of its requester that
follow it (R247). -/
def together (l : List HbmDone) (n : Nat) (d : HbmDone) : List HbmDone :=
  if d.sq && d.rd then ((l.drop n).filter (sqMate d)).take (64 / max d.bytes 1) else [d]

/-- The n-th passed access is delivered; squirrel reads go back to a requester in its order (R247). -/
def deliverNth (p : Pkg) (c : Clock) (n : Nat) : Pkg :=
  match p.passed[n]? with
  | none => p
  | some d =>
    if d.sq && d.rd && (p.passed.take n).any (sqMate d) then p
    else
      let ds := together p.passed n d
      ds.foldl (fun q e => deliver q c e) { p with passed := ds.foldl (fun l e => l.erase e) p.passed }

/-- Delivers the accesses of a stack whose bound has come (R245). -/
def deliverDue (p : Pkg) (c : Clock) (k : Nat) : Pkg :=
  (p.passed.filter (fun d => stackOf p d.line == k && decide (d.tick + accessBound p d ≤ c.gsc))).foldl (fun q d =>
    match q.passed.findIdx? (fun e => e == d) with
    | some i => deliver { q with passed := q.passed.eraseIdx i } c d
    | none => q) p

/-- `REGULATOR_TICK` (R243): once in a tick on each stack; `errs` are lines of the stack and the erroneous symbols they show. In
self-refresh requests wait (R256). What a bound of R245 or R251 requires by this tick has happened. -/
def execRegulatorTick (k : Fin 32) (errs : List (Nat × Nat)) (s : State) : Out :=
  run s (fun c p =>
    if rbit p rMemStatus 2 ∨ sget p.regTick k (2 ^ 64) = c.gsc then p
    else
      let p := errs.foldl (fun q e => if isHbm e.1 && stackOf q e.1 == k.val then lineErrors q e.1 e.2 else q) p
      let p := ageRewrites { p with regTick := sset p.regTick k c.gsc } k
      deliverDue (regulate p c k) c k)

/-- `HBM_ACCESS_COMPLETE` (R245): the n-th passed access delivers its data, its old value or its acceptance. -/
def execHbmAccessComplete (n : Nat) (s : State) : Out := run s (fun c p => deliverNth p c n)

end Sys2Proof.Machine
end

