-- ==== Sys2Proof/Machine/Mgmt.lean ====
section
/-! DEFINITION. The management bus, attestation, image transfers, the Badger monitor, the test port, line faults
(20_package_and_signals R473 to R488; 18 R446, R448 to R450; 19 R466). -/

namespace Sys2Proof.Machine

/-! Line faults (R479) -/

/-- A fault of the table is logged once, when it appears. -/
def lineFault (p : Pkg) (c : Clock) (b : Nat) : Pkg :=
  if !live p || rbit p rDbgStatus b then p
  else
    let p := bump (rsetb p rDbgStatus b true) rDbgLineflt
    logEntry p c 0x010A 0xFF (rget p rDbgStatus) 0 0

/-- `SMB_LINE_FAULT` (R479): a line low for 35 ms, or SDA read high while driven low (`high`), which shows for 1 s. -/
def execSmbLineFault (high : Bool) (s : State) : Out :=
  run s (fun c p =>
    if !live p then p
    else lineFault { p with pins := { p.pins with smb := if high then 2 else 1, smbAt := c.up + ticksUp p 250000000 } } c 0)

/-- `SMB_LINE_RELEASE` (R479): the line is high again; after SDA read high, 1 s has passed. -/
def execSmbLineRelease (s : State) : Out :=
  run s (fun c p =>
    if p.pins.smb = 2 ∧ c.up < p.pins.smbAt then p
    else rsetb { p with pins := { p.pins with smb := 0 } } rDbgStatus 0 false)

/-- `MON_RX_STUCK` (R479): MON_RX low for more than 2 s. -/
def execMonRxStuck (s : State) : Out :=
  run s (fun c p => if live p then lineFault { p with pins := { p.pins with rxIgnored := true } } c 1 else p)

/-- `MON_RX_RELEASE` (R479): MON_RX has been high for 100 ms. -/
def execMonRxRelease (s : State) : Out :=
  run s (fun _ p => rsetb { p with pins := { p.pins with rxIgnored := false } } rDbgStatus 1 false)

/-- `MON_TX_FAULT` (R479): the transmitter is released for 1 s. -/
def execMonTxFault (s : State) : Out :=
  run s (fun c p =>
    if live p then lineFault { p with pins := { p.pins with txReleased := true, txAt := c.up + ticksUp p 250000000 } } c 2 else p)

/-- `MON_TX_RETRY` (R479). -/
def execMonTxRetry (s : State) : Out :=
  run s (fun c p =>
    if c.up < p.pins.txAt then p else rsetb { p with pins := { p.pins with txReleased := false } } rDbgStatus 2 false)

/-- `OUTPUT_LINE_FAULT` (R479): ALERT_N, or THERMTRIP_N (`trip`), reads high while it is driven low, or no longer does. -/
def execOutputLineFault (trip high : Bool) (s : State) : Out :=
  run s (fun c p =>
    let b := if trip then 4 else 3
    if !high then rsetb p rDbgStatus b false
    else if (if trip then p.pins.tripped else alertN p) then lineFault p c b else p)

/-! Management bus (R480) -/

def busReply (p : Pkg) (l : List Byte) : Pkg := { p with pins := { p.pins with busOut := p.pins.busOut ++ [l] } }

/-- A bus command with a right PEC byte; a line held low carries none. -/
def busCmd (s : State) (pec : Bool) (f : Clock → Pkg → Pkg) : Out :=
  run s (fun c p => if !live p || p.pins.smb == 1 || !pec then p else f c p)

/-- `MGMT_STATUS` (Table 20.6). -/
def execMgmtStatus (s : State) : Out := busCmd s true (fun c p => busReply p (natLe 4 (regRead p c rGlbStatus)))

/-- `MGMT_IDENT` (Table 20.6). -/
def execMgmtIdent (s : State) : Out :=
  busCmd s true (fun _ p => busReply p (natLe 4 (rget p rGlbId) ++ natLe 4 (rget p rGlbSerialLo) ++ natLe 4 (rget p rGlbSerialHi)
    ++ natLe 4 (rget p rGlbDcid)))

/-- `MGMT_POWER` (Table 20.6). -/
def execMgmtPower (s : State) : Out :=
  busCmd s true (fun _ p => busReply p (natLe 4 (rget p rPwrInput) ++ natLe 4 (rget p rPwrPower) ++ natLe 4 (rget p rPwrTemp)))

/-! Attestation (R449) -/

/-- A held MGMT payload of a place is taken up. -/
def takeMgmt (l : List (Nat × List Byte)) (place : Nat) : List (Nat × List Byte) :=
  match l with
  | [] => []
  | e :: r => if e.1 = place then r else e :: takeMgmt r place

/-- A request over the bus (`asker` none) has a right PEC byte and a line; one in a MGMT packet of a place is held for firmware. -/
def asked (p : Pkg) (asker : Option Nat) (pec : Bool) : Bool :=
  match asker with
  | none => pec && p.pins.smb != 1
  | some x => p.mgmt.any (fun e => e.1 == x)

def dropAsk (p : Pkg) (asker : Option Nat) : Pkg :=
  match asker with
  | none => p
  | some x => { p with mgmt := takeMgmt p.mgmt x }

/-- `ATTEST_REQ` (R449, R480): a new request discards the previous report. -/
def execAttestReq (asker : Option Nat) (nonce : List Byte) (pec : Bool) (s : State) : Out :=
  run s (fun c p =>
    if !live p || !asked p asker pec || (stageOf p != 4 && stageOf p != 5) || nonce.length != 32 then p
    else
      let p := dropAsk p asker
      { p with pins := { p.pins with nonce := nonce, reqStatus := regRead p c rGlbStatus, asker := asker, report := [], reportState := 1 } })

/-- Neither image runs: the boot ROM answers (R449). -/
def romAnswers (p : Pkg) : Bool := rbit p rGlbStatus 2 || rbit p rGlbStatus 3

/-- Bytes 0x00 to 0xFF of the report (Table 18.6). -/
def reportBody (p : Pkg) (c : Clock) : List Byte :=
  let rom := romAnswers p
  natLe 4 0x54525441 ++ natLe 4 p.pins.reqStatus ++ natLe 4 (rget p rGlbSerialLo) ++ natLe 4 (rget p rGlbSerialHi)
    ++ natLe 4 (ownPlace p) ++ natLe 4 (rget p rGlbDcid) ++ natLe 4 (if rom then 0 else rget p rGlbFwver)
    ++ natLe 4 (rget p rSecRollback) ++ natLe 4 (rget p rSecCfgseq) ++ natLe 4 (rget p rGlbBootcnt) ++ natLe 8 c.gsc
    ++ (if rom then List.replicate 48 0#8 else rbytes p (rSecFwhash 0) 48)
    ++ ((((recInUse p).map (fun r => r.digest)).getD []) ++ List.replicate 48 0#8).take 48
    ++ p.pins.nonce ++ List.replicate 80 0#8

/-- Bytes with a length. -/
def fitBytes (n : Nat) (l : List Byte) : List Byte := (l ++ List.replicate n 0#8).take n

/-- Keeper firmware sends a report to the place that asked, in MGMT packets of at most 4,096 bytes. -/
def mailReport (p : Pkg) (place : Nat) (l : List Byte) : Pkg :=
  match ctxFor p place with
  | none => p
  | some cx => (List.range (cdiv l.length 4096)).foldl (fun p i =>
      sendReq p cx .firmware true true { ty := 0x34, daddr := place * 2 ^ 46, payload := (l.drop (4096 * i)).take 4096 }) p

/-- `ATTEST_REPORT_READY` (R449): the body is signed under both identity keys; the two signatures are given. -/
def execAttestReportReady (rsa slh : List Byte) (s : State) : Out :=
  run s (fun c p =>
    if p.pins.reportState ≠ 1 then p
    else
      let r := reportBody p c ++ fitBytes 384 rsa ++ fitBytes 16224 slh
      let p := { p with pins := { p.pins with report := r, reportState := 2 } }
      match p.pins.asker with
      | none => p
      | some x => mailReport p x r)

/-- Bytes beyond the report's end are open. -/
def reportBytes (p : Pkg) (off : Nat) : List Byte :=
  (List.range 32).map (fun i => p.pins.report.getD (off + i) (Config.freeByte p.fv (off + i)))

/-- `ATTEST_READ` (R480): not acknowledged before the report is ready. -/
def execAttestRead (off : W32) (pec : Bool) (s : State) : Out :=
  busCmd s pec (fun _ p =>
    if p.pins.reportState ≠ 2 ∨ p.pins.asker.isSome then p
    else
      let q := busReply p (reportBytes p off.toNat)
      if p.pins.report.length < off.toNat + 32 then { q with fv := q.fv + 1 } else q)

/-! Image transfers (R466, R480) -/

/-- Writes the bytes of a transfer. -/
def imageBytes (m : SMap Byte) (off : Nat) : List Byte → SMap Byte
  | [] => m
  | b :: r => imageBytes (sset m off b) (off + 1) r

/-- A transfer of the other source is in progress. -/
def otherBusy (p : Pkg) (bus : Bool) : Bool := p.xfer.state == 1 && p.xfer.bus != bus

/-- A command of a transfer is taken up: over the bus, or in a MGMT packet held from a place. -/
def transferCmd (s : State) (asker : Option Nat) (pec : Bool) (f : Clock → Pkg → Bool → Pkg) : Out :=
  run s (fun c p =>
    if !live p || stageOf p != 4 || !asked p asker pec then p
    else
      let bus := asker.isNone
      let p := dropAsk p asker
      if otherBusy p bus then { p with xfer := { p.xfer with busRef := p.xfer.busRef || bus } } else f c p bus)

/-- `IMAGE_WRITE` (R480): up to 28 bytes of the image at an offset over the bus. -/
def execImageWrite (asker : Option Nat) (off : W32) (data : List Byte) (pec : Bool) (s : State) : Out :=
  transferCmd s asker pec (fun c p bus =>
    if bus && decide (28 < data.length) then p
    else
      let old := if p.xfer.state = 1 then p.xfer.bytes else []
      { p with xfer := { bus := bus, state := 1, last := c.gsc, bytes := imageBytes old off.toNat data } })

/-- The header that was received, and whether every byte of a length was. -/
def gotHeader (p : Pkg) : List Byte := (List.range 256).map (fun i => sget p.xfer.bytes i 0#8)
def gotAll (p : Pkg) (len : Nat) : Bool := p.xfer.bytes.length == len && p.xfer.bytes.all (fun e => decide (e.1 < len))

/-- `IMAGE_COMMIT` (R466): the image is verified by R445 and written into the slot that does not run; `img` holds what verification
finds of its body and signatures. -/
def execImageCommit (asker : Option Nat) (len : W32) (img : Image) (pec : Bool) (s : State) : Out :=
  transferCmd s asker pec (fun c p bus =>
    if p.xfer.state ≠ 1 then p
    else
      let i : Image := { img with header := gotHeader p }
      let ok := gotAll p len.toNat && decide (len.toNat = 0x100 + imgLength i + 17044) && (imageCheck p (some i)).isNone
      let p := { p with xfer := { bus := bus, state := if ok then 3 else 4, last := c.gsc } }
      if !ok then p
      else if rbit p rSecStatus 1 then { p with store := { p.store with imgA := some i } }
      else { p with store := { p.store with imgB := some i } })

/-- `IMAGE_STATE` (R480). -/
def execImageState (s : State) : Out :=
  busCmd s true (fun _ p =>
    if stageOf p ≠ 4 then p else busReply p (natLe 4 (if p.xfer.busRef then 4 else p.xfer.state)))

/-- `IMAGE_TRANSFER_TIMEOUT` (R480): nothing received for 10 s. -/
def execImageTransferTimeout (s : State) : Out :=
  run s (fun c p => if p.xfer.state ≠ 1 ∨ c.gsc < p.xfer.last + 2500000000 then p else { p with xfer := {} })

/-! The Badger monitor (R482 to R487) -/

/-- An enable of `DBG.ENABLE` is in effect (R486). -/
def dbgOn (p : Pkg) (b : Nat) : Bool := rbit p rDbgEnable b || rbit p rSecStatus 3

/-- A self-test of the monitor runs: characters are discarded. -/
def monBusy (p : Pkg) : Bool := p.placed.any (fun x => x.mon)

def spaceByte : Byte := 0x20#8
/-- `OK`, and numbers after it. -/
def okWords (l : List Nat) : List Byte := okBytes ++ l.flatMap (fun n => spaceByte :: hexDigits 8 n)
/-- `OK END`. -/
def okEnd : List Byte := okBytes ++ [0x20#8, 0x45#8, 0x4E#8, 0x44#8]
/-- `ERR` and a code. -/
def errLine (e : Nat) : List Byte := [0x45#8, 0x52#8, 0x52#8, 0x20#8] ++ hexDigits 2 e

def monLines (p : Pkg) (l : List (List Byte)) : Pkg := l.foldl monLine p

/-- A monitor command: it is counted, and answered. -/
def mon (s : State) (f : Clock → Pkg → Except Nat Pkg) : Out :=
  run s (fun c p =>
    if !live p || p.pins.rxIgnored || monBusy p then p
    else
      let p := bump p rDbgMoncmds
      match f c p with
      | .ok q => q
      | .error e => monLine (bump p rDbgMonerrs) (errLine e))

/-- When a command is available (Table 20.8): before stage 4; in stage 4, always or under an enable; in recovery; in conflict or
retirement, always or under an enable. -/
structure MonAvail where
  early : Bool
  ready : Option (Option Nat)
  rec_ : Bool
  stopped : Option (Option Nat)
  deriving DecidableEq, Repr

/-- Refusals by R486. -/
def monGate (p : Pkg) (a : MonAvail) : Except Nat Unit :=
  let under (x : Option (Option Nat)) : Except Nat Unit :=
    match x with
    | none => .error 4
    | some none => .ok ()
    | some (some b) => if dbgOn p b then .ok () else .error 2
  if stageOf p < 4 then (if a.early then .ok () else .error 4)
  else if stageOf p = 4 then under a.ready
  else if rbit p rGlbStatus 2 then (if a.rec_ then .ok () else .error 4)
  else under a.stopped

def availS : MonAvail := { early := true, ready := some none, rec_ := true, stopped := some none }
def availB : MonAvail := { early := true, ready := some none, rec_ := false, stopped := some none }
def availK : MonAvail := { early := false, ready := some none, rec_ := false, stopped := some none }
def availR : MonAvail := { early := false, ready := some (some 0), rec_ := false, stopped := some none }
def availC : MonAvail := { early := true, ready := some (some 0), rec_ := true, stopped := some none }
def availW : MonAvail := { early := false, ready := some (some 1), rec_ := false, stopped := some (some 1) }
def availT : MonAvail := { early := false, ready := some (some 2), rec_ := false, stopped := none }

/-- A field that is present and well formed (`ERR 05`). -/
def fieldOf {α : Type} (x : Option α) : Except Nat α :=
  match x with
  | none => .error 5
  | some v => .ok v

/-- `MON_STATUS` (R483): `S`. -/
def execMonStatus (s : State) : Out :=
  mon s (fun c p => do
    monGate p availS
    .ok (monLine p (okWords [regRead p c rGlbStatus, regRead p c rHltStatus, regRead p c rDbgStatus])))

/-- `MON_VERSION` (R483): `V`. -/
def execMonVersion (s : State) : Out :=
  mon s (fun _ p => do
    monGate p availS
    .ok (monLine p (okWords [rfld p rGlbId 1 0, rfld p rGlbId 15 8, rget p rGlbFwver, rget p rGlbDcid, rget p rSecCfgseq])))

/-- An offset that R412 admits. -/
def offsetOk (o : Nat) : Bool := o % 4 == 0 && decide (o < 0x4000000)

/-- `MON_REGISTER_READ` (R483): `R offset`; none: the field is missing or malformed. -/
def execMonRegisterRead (o : Option Nat) (s : State) : Out :=
  mon s (fun c p => do
    monGate p availR
    let o ← fieldOf o
    if !offsetOk o then .error 3
    else
      let r := regReadBy p c 2 o
      .ok (monLine r.1 (okWords [r.2])))

/-- `MON_REGISTER_WRITE` (R483): `W offset value`. -/
def execMonRegisterWrite (a : Option (Nat × W32)) (s : State) : Out :=
  mon s (fun c p => do
    monGate p availW
    let a ← fieldOf a
    if !offsetOk a.1 then .error 3 else .ok (monLine (regPut p c 2 a.1 a.2.toNat) okBytes))

/-- The event counters (R421) of a block: name, offset, how many. -/
def counters (b : Nat) : List (String × Nat × Nat) :=
  if b = 1 then [("OVERCNT", rPwrOvercnt, 1), ("HOTCNT", rPwrHotcnt, 1)]
  else if b = 2 then [("TOKCNT", rSecTokcnt, 1)]
  else if b = 3 then [("DESCS", rHifDescs, 1), ("BADDB", rHifBaddb, 1), ("EVDROP", rHifEvdrop, 1), ("ECLERR", rHifEclerr, 1),
                      ("ECLRETRY", rHifEclretry, 1)]
  else if b = 4 then [("SYNCLOSS", rTimSyncloss, 1), ("ACCEPTS", rTimAccepts, 1), ("REFUSALS", rTimRefusals, 1), ("DEFERS", rTimDefers, 1),
                      ("LAUNCHFAIL", rTimLaunchfail, 1)]
  else if b = 5 then [("SCRUBPASS", rMemScrubpass, 1), ("CE", rMemCe 0, 32), ("UE", rMemUe 0, 32), ("SRAMCE", rMemSramce, 1),
                      ("SRAMUE", rMemSramue, 1)]
  else if b = 6 then [("FECCORR", rFabFeccorr 0, 128), ("FECUNC", rFabFecunc 0, 128), ("CRCDROP", rFabCrcdrop, 1), ("DUPS", rFabDups, 1),
                      ("GAPS", rFabGaps, 1), ("RESENDS", rFabResends, 1), ("FAILED", rFabFailed, 1), ("NOROUTE", rFabNoroute, 1),
                      ("HOPDROP", rFabHopdrop, 1), ("TRANSITMISS", rFabTransitmiss, 1), ("OWLDROP", rFabOwldrop, 1)]
  else if b = 7 then [("CHUNKS", rSwmChunks, 1), ("CRCBAD", rSwmCrcbad, 1), ("PULLS", rSwmPulls, 1), ("WPULLS", rSwmWpulls, 1),
                      ("OPS", rSwmOps, 1), ("FAILED", rSwmFailed, 1), ("MISMATCH", rSwmMismatch, 1)]
  else if b = 8 then [("CUTS", rDenCuts, 1), ("ABANDONS", rDenAbandons, 1), ("RESTORES", rDenRestores, 1), ("MIB", rDenMib, 1)]
  else if b = 9 then [("WARNS", rHltWarns, 1), ("SWAPS", rHltSwaps, 1), ("SWAPDEFER", rHltSwapdefer, 1), ("SELFTESTS", rHltSelftests, 1),
                      ("SELFFAIL", rHltSelffail, 1), ("LOGLOST", rHltLoglost, 1)]
  else if b = 10 then [("LINEFLT", rDbgLineflt, 1), ("MONCMDS", rDbgMoncmds, 1), ("MONERRS", rDbgMonerrs, 1)]
  else []

/-- The bytes of a name; one of several has its number behind it. -/
def counterName (n : String) (i k : Nat) : List Byte :=
  n.toList.map (fun x => BitVec.ofNat 8 x.toNat) ++ (if k = 1 then [] else hexDigits 2 i)

/-- The stream contexts, which no register shows: with the counters of the FAB block each one in use is a line, its entry of 64 bytes
behind its number (Table 12.12; the form of the line is the model's, log 133). -/
def ctxLines (p : Pkg) : List (List Byte) :=
  p.ctxs.map (fun e => okBytes ++ [spaceByte] ++ counterName "CTX" 0 1 ++ hexDigits 4 e.1 ++ [spaceByte]
    ++ (ctxBytes e.2).flatMap (fun b => hexDigits 2 b.toNat))

/-- `MON_COUNTERS` (R483): `C block`, the block by number. -/
def execMonCounters (b : Option Nat) (s : State) : Out :=
  mon s (fun c p => do
    monGate p availC
    let b ← fieldOf b
    let lines := (counters b).flatMap (fun e => (List.range e.2.2).map (fun i =>
      okBytes ++ [spaceByte] ++ counterName e.1 i e.2.2 ++ [spaceByte] ++ hexDigits 8 (regRead p c (e.2.1 + 4 * i))))
    .ok (monLines p (lines ++ (if b = 6 then ctxLines p else []) ++ [okEnd])))

/-- `MON_SPARE_MAP` (R483): `M`. -/
def execMonSpareMap (s : State) : Out :=
  mon s (fun _ p => do
    monGate p availR
    .ok (monLines p (punitIndices.map (fun i => okWords [i, punit p i]) ++ [okEnd])))

/-- The entries of the log, newest first, at most n. -/
def logNewest (p : Pkg) (n : Nat) : List (List Byte) :=
  let h := rfld p rHltLoghead 11 0
  ((List.range (min n 4096)).map (fun i => rbytes p (rHltLog ((h + 4095 - i) % 4096)) 32)).filter (fun e => field e 8 2 != 0)

/-- `MON_EVENT_LOG` (R483): `L n`. -/
def execMonEventLog (n : Option Nat) (s : State) : Out :=
  mon s (fun _ p => do
    monGate p availC
    let n ← fieldOf n
    .ok (monLines p ((logNewest p n).map (fun e => okBytes ++ [spaceByte] ++ e.flatMap (fun b => hexDigits 2 b.toNat)) ++ [okEnd])))

/-- `MON_SELF_TEST` (R484): `T test unit`; the reply comes when the test completes. -/
def execMonSelfTest (a : Option (Nat × Nat)) (s : State) : Out :=
  mon s (fun c p => do
    monGate p availT
    let a ← fieldOf a
    .ok (askTest p c a.1 a.2 (c.gsc + 250000000) none true))

/-- The rates of R482. -/
def monRates : List Nat := [115200, 230400, 460800, 921600, 1000000, 1500000, 2000000, 3000000]

/-- `MON_BAUD_RATE` (R482): `B rate`; the rate applies 10 ms later. -/
def execMonBaudRate (rate : Option Nat) (s : State) : Out :=
  mon s (fun c p => do
    monGate p availB
    let r ← fieldOf rate
    if !monRates.contains r then .error 5
    else
      let q := monLine p okBytes
      .ok { q with pins := { q.pins with baudNext := some (r, c.up + ticksUp p 2500000) } })

/-- `MON_BAUD_APPLY` (R482). -/
def execMonBaudApply (s : State) : Out :=
  run s (fun c p =>
    match p.pins.baudNext with
    | none => p
    | some (r, t) => if c.up < t then p else rset { p with pins := { p.pins with baudNext := none } } rDbgMoncfg r)

/-- `MON_BREAK` (R479). -/
def execMonBreak (s : State) : Out :=
  run s (fun _ p => if live p then rset { p with pins := { p.pins with baudNext := none } } rDbgMoncfg 115200 else p)

def dropToken (p : Pkg) : Pkg := { p with pins := { p.pins with token := [], tokNext := 0 } }

/-- `ERR 06`: the token is refused, and its chunks are discarded. -/
def tokenRefused (p : Pkg) : Pkg := monLine (bump (dropToken p) rDbgMonerrs) (errLine 6)

/-- `MON_TOKEN_CHUNK` (R485): `K index data`. -/
def execMonTokenChunk (a : Option (Nat × List Byte)) (s : State) : Out :=
  mon s (fun _ p => do
    monGate p availK
    let a ← fieldOf a
    if a.2 = [] ∨ 256 < a.2.length then .error 5
    else if a.1 ≠ p.pins.tokNext then .ok (tokenRefused p)
    else .ok (monLine { p with pins := { p.pins with token := p.pins.token ++ a.2, tokNext := a.1 + 1 } } okBytes))

/-- What of a token can be read off it (R450, R485): its length, MAGIC, VERSION, and the serial number of this package. -/
def tokenFits (p : Pkg) : Bool :=
  let t := p.pins.token
  t.length == 17108 && field t 0 4 == 0x4E4B5442 && field t 4 4 == 1
    && field t 8 8 == rget p rGlbSerialLo + rget p rGlbSerialHi * 2 ^ 32

/-- `MON_TOKEN_END` (R450, R485): `K END`; given are the outcomes of the check of KEYS and of both signatures. -/
def execMonTokenEnd (keysOk rsaOk slhOk : Bool) (s : State) : Out :=
  mon s (fun _ p => do
    monGate p availK
    let q := if p.pins.token.length = 17108 then bump p rSecTokcnt else p
    if tokenFits p && keysOk && rsaOk && slhOk && !rbit p rSecLock 0 then .ok (monLine (rsetb (dropToken q) rSecStatus 3 true) okBytes)
    else .ok (tokenRefused q))

/-- `MON_UNKNOWN_COMMAND` (R487): a line whose command is unknown; a line that is too long, or that has a field too many or a
malformed one where the other commands have no operand for it (`bad`), has `ERR 05`. -/
def execMonUnknownCommand (bad : Bool) (s : State) : Out := mon s (fun _ _ => .error (if bad then 5 else 1))

/-! The test port (R475, R481) -/

/-- An instruction of the test port, which TRST_N held low does not take. -/
def tap (s : State) (f : Clock → Pkg → Pkg) : Out := run s (fun c p => if !live p || p.pins.trstLow then p else f c p)

def tapIs (p : Pkg) (ir out : Nat) : Pkg := { p with pins := { p.pins with tapIr := ir, tapOut := out } }

/-- `TAP_BYPASS`. -/
def execTapBypass (s : State) : Out := tap s (fun _ p => tapIs p 0 0)

/-- `TAP_IDCODE`. -/
def execTapIdcode (s : State) : Out := tap s (fun _ p => tapIs p 1 0x10340A6D)

/-- The levels of the signals with cells, TIME_IN in bit 0 to MON_RX in bit 7: RESET_N, an asserted ALERT_N and THERMTRIP_N are the
package's own, the rest is given. -/
def signalLevels (p : Pkg) (ext : Nat) : Nat :=
  let w := setBits (ext % 256) 3 3 (b2n (!p.pins.resetLow))
  let w := if alertN p then setBits w 4 4 (b2n (rbit p rDbgStatus 3)) else w
  if p.pins.tripped then setBits w 5 5 (b2n (rbit p rDbgStatus 4)) else w

/-- `TAP_SAMPLE_PRELOAD`: the boundary register captures the levels and takes new contents. -/
def execTapSamplePreload (ext cells : Fin 256) (s : State) : Out :=
  tap s (fun _ p =>
    let q := tapIs p 2 (signalLevels p ext)
    { q with pins := { q.pins with cells := cells } })

/-- `TAP_EXTEST`: while RESET_N is low the cells drive the signals; at any other time BYPASS. -/
def execTapExtest (ext cells : Fin 256) (s : State) : Out :=
  tap s (fun _ p =>
    if p.pins.resetLow then
      let q := tapIs p 3 (signalLevels p ext)
      { q with pins := { q.pins with cells := cells } }
    else tapIs p 3 0)

/-- `TAP_CLAMP`. -/
def execTapClamp (s : State) : Out := tap s (fun _ p => tapIs p 4 0)

/-- `TAP_HIGHZ`. -/
def execTapHighz (s : State) : Out := tap s (fun _ p => tapIs p 5 0)

/-- What the test port does to the signals: 0 nothing, 1 the cells drive them, 2 they are high-impedance (R481). -/
def tapDrives (p : Pkg) : Nat :=
  if !p.pins.resetLow || p.pins.trstLow then 0 else if p.pins.tapIr = 3 ∨ p.pins.tapIr = 4 then 1 else if p.pins.tapIr = 5 then 2 else 0

/-- `TAP_SETUP_ACCESS` (R481): codes 0x80 to 0xFE; a read, or a write of a value, with the rights of the monitor. -/
def execTapSetupAccess (code : Fin 256) (o : Nat) (v : Option W32) (s : State) : Out :=
  tap s (fun c p =>
    if !dbgOn p 3 || decide (code.val < 0x80) || code.val == 0xFF then tapIs p 0 0
    else if !offsetOk o then tapIs p code 0
    else match v with
      | some v => tapIs (regPut p c 2 o v.toNat) code 0
      | none =>
        let r := regReadBy p c 2 o
        tapIs r.1 code r.2)

/-- `TRST_N_ASSERT` (R475). -/
def execTrstNAssert (s : State) : Out :=
  run s (fun _ p => { p with pins := { p.pins with trstLow := true, tapIr := 1, cells := 0, tapOut := 0 } })

/-- `TRST_N_RELEASE` (R475). -/
def execTrstNRelease (s : State) : Out := run s (fun _ p => { p with pins := { p.pins with trstLow := false } })

end Sys2Proof.Machine
end

