-- ==== Sys2Proof/Machine/SparseSteps.lean ====
section
/-! DEFINITION. Compiled sparse schedules (07_solver_engines R172 to R178): the program, its steps, factor generations. -/

namespace Sys2Proof.Machine

/-- The header of a sparse program (R172); the offsets are made addresses. -/
structure Prog where
  nstep : Nat
  vcount : Nat
  fkind : Nat
  vtab : Nat
  steps : Nat
  deriving DecidableEq, Repr

/-- A step (R173). -/
structure StepRec where
  op : Nat
  fn : Nat
  v0 : Nat
  v1 : Nat
  v2 : Nat
  sa : Nat
  sb : Nat
  sc : Nat
  at_ : Nat
  arg0 : Nat
  arg1 : Nat
  deriving DecidableEq, Repr

/-- A vector table entry: address, length, n. -/
structure Vec where
  addr : Nat
  len : Nat
  n : Nat
  deriving DecidableEq, Repr

def readProg (m : Mem) (sec prog : Nat) : Prog :=
  let b := mread m (sec + prog) 64
  { nstep := field b 0 4, vcount := field b 4 1, fkind := field b 5 1, vtab := sec + field b 8 4, steps := sec + field b 12 4 }

def readStep (m : Mem) (g : Prog) (i : Nat) : StepRec :=
  let b := mread m (g.steps + 32 * i) 32
  let f (o n : Nat) := field b o n
  { op := f 0 1, fn := f 1 1, v0 := f 2 1, v1 := f 3 1, v2 := f 4 1, sa := f 5 1, sb := f 6 1, sc := f 7 1, at_ := f 8 4,
    arg0 := f 16 8, arg1 := f 24 8 }

def readVec (m : Mem) (g : Prog) (i : Nat) : Vec :=
  let b := mread m (g.vtab + 16 * i) 16
  { addr := field b 0 8, len := field b 8 4, n := field b 12 1 }

def stepOps : List Nat := [1, 2, 3, 0x10, 0x11, 0x12, 0x13, 0x14, 0x15, 0x16, 0x17, 0x18, 0x19, 0x20, 0x21, 0x22, 0x3F]

/-- The vectors that a step names. -/
def StepRec.vecs (s : StepRec) : List Nat :=
  if s.op = 0x10 then (if s.fn = 1 then [s.v0, s.v1, s.v2] else [s.v0, s.v2])
  else if s.op = 0x11 ∨ s.op = 0x12 ∨ s.op = 0x13 ∨ s.op = 0x14 then [s.v0, s.v1]
  else if s.op = 0x16 then [s.v0]
  else if s.op = 0x17 then (if s.fn = 1 then [s.v1] else [s.v0, s.v1])
  else if s.op = 0x19 then s.v0 :: (List.range s.arg1).map (fun j => s.v1 + j)
  else []

/-- The scalar slots that a step names. -/
def StepRec.slots (s : StepRec) : List Nat :=
  if s.op = 0x12 ∨ s.op = 0x13 ∨ s.op = 0x14 ∨ (s.op = 0x17 ∧ s.fn = 1) then [s.sa]
  else if s.op = 0x15 then (if s.fn = 4 ∨ s.fn = 5 then [s.sa, s.sc] else [s.sa, s.sb, s.sc])
  else if s.op = 0x21 then [s.sa, s.sb]
  else []

/-- What the placement rules of R174 have seen so far: open loops (AT, limit, ticks an iteration), the earliest AT at each
level, whether the last step was TEST. -/
structure Walk where
  stack : List (Nat × Nat × Nat) := []
  floors : List Nat := [0]
  test : Bool := false
  ok : Bool := true
  deriving DecidableEq, Repr

def walkStep (k : Walk) (s : StepRec) : Walk :=
  let fl := k.floors.headD 0
  let ok := k.ok && decide (fl ≤ s.at_) && (!k.test || s.op == 0x22)
  let lim := s.arg0 % 2 ^ 32
  let span := s.arg1 % 2 ^ 32
  if s.op = 0x20 then
    let fits := match k.stack with
      | [] => true
      | [o] => decide (s.at_ + lim * span ≤ o.2.2)
      | _ => false
    { stack := (s.at_, lim, span) :: k.stack, floors := 0 :: k.floors, test := false, ok := ok && fits }
  else if s.op = 0x22 then
    match k.stack with
    | [] => { k with ok := false }
    | o :: r => { stack := r, floors := max (((k.floors.drop 1).headD 0)) (o.1 + o.2.1 * o.2.2) :: k.floors.drop 2, test := false, ok := ok }
  else { k with test := s.op == 0x21, ok := ok && (s.op != 0x21 || !k.stack.isEmpty) }

/-- R172 to R174: a program that a job may run. Its reserved bytes are ignored (R6). -/
def progOk (m : Mem) (g : Prog) : Bool :=
  decide (1 ≤ g.nstep) && decide (g.nstep ≤ 65536) && decide (1 ≤ g.vcount) && decide (g.vcount ≤ 64)
  && decide (g.fkind ≤ 3)
  && (let ss := (List.range g.nstep).map (readStep m g)
      let k := ss.foldl walkStep {}
      k.ok && k.stack.isEmpty
      && ss.all (fun s => stepOps.contains s.op && (s.op != 0x15 || decide (s.fn ≤ 5))
          && s.vecs.all (fun v => decide (v < g.vcount)) && s.slots.all (fun k => decide (k < 64))))

/-- The lines of the plan's section that a program occupies: header, vector table, steps. -/
def progRanges (sec prog : Nat) (g : Prog) : List (Nat × Nat) :=
  [(sec + prog, 64), (g.vtab, 16 * min g.vcount 64), (g.steps, 32 * min g.nstep 65536)]

/-- What a program faults with when its job starts. -/
def progCheck (p : Pkg) (j : Job) (r : JRec) (mask : Nat) (g : Prog) : Option Nat :=
  if !progOk p.mem g then some 0x01
  else if (List.range g.nstep).any (fun i =>
      let s := readStep p.mem g i
      s.op == 0x14 && !(s.arg0 % 65536 == 0xFFFF) && !groupListed p j.launch (s.arg0 % 65536)) then some 0x01
  else if (List.range g.vcount).any (fun i => let v := readVec p.mem g i; (slvMap mask j.unit v.addr (r.eb * v.len)).isNone) then
    some 0x05
  else none

/-- `JOB_SPARSE` (R172): the job starts; its slots are +0. -/
def startSparse (p : Pkg) (c : Clock) (n : Nat) : Pkg :=
  match findJob p n with
  | none => p
  | some j =>
    let r := jobRecord p j
    let mask := launchMask p j.launch
    if j.ue || !mayStart p c j then p
    else if r.ok (j.op == 0xB1) && r.kind != 0x10 then p
    else match firstBad p [(recordAt p j, 128)] with
    | some l => badRecord p c j l
    | none =>
    match startCheck p j r mask with
    | some cause => refuseJob p c j cause
    | none =>
      let sec := ((launchSec p j.launch 4).getD (0, 0)).1
      let g := readProg p.mem sec r.prog
      let reads := (recordAt p j, 128) :: progRanges sec r.prog g
      match firstBad p reads with
      | some l => failJob (noteUe (takeJob p j) c l) c { j with ends := j.began } mask r.jstat 0x21
      | none =>
      let p := noteCes p reads
      match progCheck p j r mask g with
      | some cause => refuseJob p c j cause
      | none =>
        let p := takeJob (chargeJob p j false reads) j
        modJob p n (fun x => { x with sparse := {}, ends := x.began })

/-! Steps -/

/-- What a step works with. -/
structure StepCx where
  job : Job
  r : JRec
  ar : Ar
  mask : Nat
  g : Prog
  s : StepRec
  mem : Mem
  deriving DecidableEq, Repr

def StepCx.at_ (x : StepCx) (a : Nat) : Nat := slvAt x.mask x.job.unit a
def StepCx.vec (x : StepCx) (i : Nat) : Vec := readVec x.mem x.g i
def StepCx.slot (x : StepCx) (i : Nat) : W64 := sget x.job.sparse.slots i 0#64
/-- Elements of a vector. -/
def StepCx.elems (x : StepCx) (i : Nat) : List W64 :=
  let v := x.vec i
  (List.range v.len).map (fun k => BitVec.ofNat 64 (mnat x.mem (x.at_ v.addr + x.r.eb * k) x.r.eb))
/-- Stores of a vector's elements. -/
def StepCx.store (x : StepCx) (i : Nat) (l : List W64) : List BitW :=
  let v := x.vec i
  (l.take v.len).zipIdx.map (fun e =>
    { addr := 8 * (x.at_ v.addr + x.r.eb * e.2), w := 8 * x.r.eb, v := e.1.toNat % 2 ^ (8 * x.r.eb) })
/-- The bytes of a vector. -/
def StepCx.vspan (x : StepCx) (i : Nat) : Nat × Nat := let v := x.vec i; (v.addr, x.r.eb * v.len)
/-- V of R173. -/
def StepCx.lanes (x : StepCx) : Nat := if x.r.eb = 4 then 1024 else 256
def StepCx.len0 (x : StepCx) : Nat := (x.vec x.s.v0).len

/-- The tick offset at which the step at the program position starts (R174). -/
def stepOffset (q : Sparse) (s : StepRec) : Nat :=
  match q.loops with
  | [] => s.at_
  | l :: _ => l.base + l.iter * l.span + s.at_

/-- The step that a running sparse job is at, when it holds the operation. -/
def stepAt (p : Pkg) (n op : Nat) : Option StepCx :=
  match findJob p n with
  | none => none
  | some j =>
    let r := jobRecord p j
    let g := readProg p.mem (((launchSec p j.launch 4).getD (0, 0)).1) r.prog
    let s := readStep p.mem g j.sparse.pc
    if j.ue || !j.running || j.op != 0xB1 || j.sparse.ended || decide (g.nstep ≤ j.sparse.pc) || s.op != op then none
    else some { job := j, r := r, ar := r.ar p.cfg.radef, mask := launchMask p j.launch, g := g, s := s, mem := p.mem }

/-- The cycle in which the step starts (R174): that of its tick, or the one after a step that was still running then. -/
def stepStart (p : Pkg) (x : StepCx) : Nat :=
  let a := cycleAt p (x.job.s + stepOffset x.job.sparse x.s)
  max x.job.began (if a < x.job.sparse.free then x.job.sparse.free + 1 else a)

/-- The stores of a step that are outputs of its launch: all but those of PANEL and COMMIT, which R177 keeps. -/
def stepOuts (p : Pkg) (x : StepCx) (ws : List BitW) : Pkg :=
  if x.s.op = 1 ∨ x.s.op = 3 then p else noteOuts p (some x.job.launch) (storeRanges ws)

/-- Sends one packet of an EXCH step; at the own place it is served here, and a refusal is what a NAK would be (R287, Table 12.6). -/
def sendStep (p : Pkg) (c : Clock) (x : StepCx) (e : Nat × Req) : Pkg :=
  if placeOf e.2.daddr = ownPlace p then
    match srvStore p c (localOf e.2.daddr) e.2.payload with
    | (p, .ok _) => chargeJob p x.job true [(localOf e.2.daddr, e.2.payload.length)]
    | (p, .error r) =>
      match findJob p x.job.id with
      | none => p
      | some j =>
        if j.closed then p
        else if r = nakRange then jobFault p c j x.r.jstat 0x05
        else failJob p c j x.mask x.r.jstat (if r = nakMemory then 0x21 else 0x20)
  else sendReq p e.1 (.slv x.job.unit) false true e.2

/-- The end of a step: its writes become visible (R155), its packets leave. -/
def endStep (p : Pkg) (c : Clock) (x : StepCx) (o : StepOut) (due : Nat) : Pkg :=
  let fin := max due x.job.late
  if jobCycle p c x.job < fin || owesHbm p (.job x.job.id) then p
  else match visible p x.job o.ws with
  | (p, some l) => failJob (noteUe p c l) c x.job x.mask x.r.jstat 0x21
  | (p, none) =>
    let p := modJob (stepOuts p x o.ws) x.job.id (fun k =>
      { k with sparse := { o.sp with free := fin, piv := o.sp.piv ++ o.piv }, staged := none,
               flags := k.flags ||| o.fl, piv := k.piv + o.piv.length, ends := fin })
    o.sends.foldl (fun q e => sendStep q c x e) p

/-- A step starts: it reads what stands then, and stages what it leaves. -/
def startStep (p : Pkg) (c : Clock) (x : StepCx) (dur : Nat) (sp : List (Nat × Nat × Bool)) (act : StepCx → StepOut) : Pkg :=
  if sp.any (fun s => (slvMap x.mask x.job.unit s.1 s.2.1).isNone) then jobFault p c x.job x.r.jstat 0x05
  else
    let reads := (sp.filter (fun s => s.2.2)).map (fun s => (x.at_ s.1, s.2.1))
    match firstBad p reads with
    | some l => failJob (noteUe p c l) c x.job x.mask x.r.jstat 0x21
    | none =>
      let o := act { x with mem := p.mem }
      if o.sends.any (fun e => !windowOk p e.2.daddr e.2.payload.length 1 clsPlan) then jobFault p c x.job x.r.jstat 0x0A
      else
        modJob (chargeJob (noteCes p reads) x.job false reads) x.job.id (fun k => { k with staged := some (o, stepStart p x + dur) })

/-- A step of an operation: it starts when its cycle has come, and ends, in the same command or a later one, when its time and its
HBM traffic are over. -/
def runStep (p : Pkg) (c : Clock) (n op : Nat) (dur : StepCx → Nat) (spans : StepCx → List (Nat × Nat × Bool))
    (act : StepCx → StepOut) : Pkg :=
  match stepAt p n op with
  | none => p
  | some x =>
    if x.job.staged.isNone && decide (jobCycle p c x.job < stepStart p x) then p
    else
      let p := if x.job.staged.isNone then startStep p c x (dur x) (spans x) act else p
      match stepAt p n op with
      | none => p
      | some x =>
        match x.job.staged with
        | none => p
        | some (o, due) => endStep p c x o due

/-- The next step. -/
def StepCx.next (x : StepCx) : Sparse := { x.job.sparse with pc := x.job.sparse.pc + 1 }

/-- Element-wise results with their flags. -/
def outR (x : StepCx) (v : Nat) (l : List R) : StepOut :=
  { ws := x.store v (l.map (fun r => r.1)), sp := x.next, fl := orFlags l }

/-! PANEL, ASSEMBLE, COMMIT (R173, R176) -/

/-- Addresses of the factor slot that is current, or of the other. -/
def StepCx.factor (x : StepCx) (current : Bool) : Nat :=
  let h := x.at_ x.r.fact
  let cur := mnat x.mem (h + 8) 1 % 2
  let k := if current then cur else 1 - cur
  mnat x.mem (h + 16 + 8 * k) 8

/-- Fraction bits of the factor, in fixed point (DESIGN CHOICE, log entry 122: no rule names them, so they are free). -/
def StepCx.nf (x : StepCx) : Nat := if x.ar.mode = 0 then 0 else (Config.factorFraction x.r.fact).val % x.ar.w

/-- One elimination step of the diagonal block and the rows below it, LU without interchange. -/
def panelLu (r : Ar) (nf : Nat) (q : PanelRec) (tau : W64) (norms : List W64) (k : Wk) (s : Nat) : Wk :=
  let k := k.pivot r false tau (norms.getD s 0#64) q.snode (q.first + s) (kA s s)
  let k := (rng (s + 1) (q.n + q.rows)).foldl (fun k i => k.quot r nf (kA i s) (kA s s)) k
  (rng (s + 1) (q.n + q.cols)).foldl (fun k j => (rng (s + 1) (q.n + q.rows)).foldl (fun k i =>
    if i < q.n ∨ j < q.n then k.sub r nf (kA i j) (kA i s) (kA s j) else k) k) k

def panelChol (r : Ar) (nf : Nat) (q : PanelRec) (tau : W64) (norms : List W64) (k : Wk) (j : Nat) : Wk :=
  let k := (List.range j).foldl (fun k u => k.sub r nf (kA j j) (kA j u) (kA j u)) k
  let k := k.pivot r true tau (norms.getD j 0#64) q.snode (q.first + j) (kA j j)
  let k := k.put (kA j j) (r.sqrt nf (k.g (kA j j)))
  (rng (j + 1) (q.n + q.rows)).foldl (fun k i =>
    let k := (List.range j).foldl (fun k u => k.sub r nf (kA i j) (kA i u) (kA j u)) k
    k.quot r nf (kA i j) (kA j j)) k

def panelLdl (r : Ar) (nf : Nat) (q : PanelRec) (tau : W64) (norms : List W64) (k : Wk) (s : Nat) : Wk :=
  let tot := q.n + q.rows
  let k := k.pivot r false tau (norms.getD s 0#64) q.snode (q.first + s) (kA s s)
  let k := (rng (s + 1) tot).foldl (fun k i =>
    let k := k.quot r nf (kA i s) (kA s s)
    k.put (kW i) (r.mul nf (k.g (kA i s)) (k.g (kA s s)))) k
  (rng (s + 1) q.n).foldl (fun k j => (rng j tot).foldl (fun k i => k.sub r nf (kA i j) (kW i) (kA j s)) k) k

def panelLd (q : PanelRec) : Nat := cdiv (q.n + q.rows) 8 * 8
def panelBytes (e : Nat) (q : PanelRec) : Nat := e * (panelLd q * (q.n + q.cols))

/-- A PANEL step (R167, R169, R173). -/
def panelOut (q : PanelRec) (x : StepCx) : StepOut :=
  let tot := q.n + q.rows
  let wid := q.n + q.cols
  let e := x.r.eb
  let src (i j : Nat) := x.at_ q.src + e * (panelLd q * j + i)
  let dst (i j : Nat) := x.at_ (x.factor false) + q.dst + e * (panelLd q * j + i)
  let cells := (List.range wid).flatMap (fun j => (List.range tot).filterMap (fun i =>
    if i < q.n ∨ j < q.n then some (i, j) else none))
  let put (i j : Nat) (v : W64) : BitW := { addr := 8 * dst i j, w := 8 * e, v := v.toNat % 2 ^ (8 * e) }
  let k : Wk := { m := cells.foldl (fun m c => sset m (kA c.1 c.2) (BitVec.ofNat 64 (mnat x.mem (src c.1 c.2) e))) [] }
  let norms := (List.range q.n).map (fun j => x.ar.norm ((List.range tot).map (fun i =>
    k.g (if x.g.fkind ≠ 1 ∧ i < j then kA j i else kA i j))))
  let step := if x.g.fkind = 1 then panelLu x.ar x.nf q x.r.tau' norms
    else if x.g.fkind = 2 then panelChol x.ar x.nf q x.r.tau' norms else panelLdl x.ar x.nf q x.r.tau' norms
  let k := (List.range q.n).foldl step k
  { ws := cells.map (fun c => put c.1 c.2 (k.g (kA c.1 c.2))), sp := x.next, fl := k.fl, piv := k.piv }

def panelDur (r : PanelRec) (x : StepCx) : Nat := 32 + cdiv r.f x.lanes
def panelSpans (r : PanelRec) (x : StepCx) : List (Nat × Nat × Bool) :=
  [(x.s.arg0, 1, true), (r.src, panelBytes x.r.eb r, true), (x.factor false + r.dst, panelBytes x.r.eb r, false)]

/-- `STEP_PANEL` (R173): the record at ARG0 is the operand. -/
def execStepPanel (n : Nat) (r : PanelRec) (s : State) : Out :=
  run s (fun c p => runStep p c n 0x01 (panelDur r) (panelSpans r) (panelOut r))

/-- Adds the blocks in list order. -/
def assembleOut (l : List SchurBlk) (x : StepCx) : StepOut :=
  let cells := l.flatMap (fun b => (List.range b.cols).flatMap (fun j => (List.range b.rows).map (fun i =>
    (x.at_ b.src + 8 * (b.lds * j + i), x.at_ b.dst + 8 * (b.ldd * j + i)))))
  let res := cells.foldl (fun (st : Mem × List BitW × Flags) e =>
    let r := fAdd .b64 x.ar.rm (BitVec.ofNat 64 (mnat st.1 e.2 8)) (BitVec.ofNat 64 (mnat x.mem e.1 8))
    (mwrite st.1 e.2 (natLe 8 r.1.toNat), st.2.1 ++ [bytesW e.2 (natLe 8 r.1.toNat)], st.2.2 ||| r.2)) (x.mem, [], 0#16)
  { ws := res.2.1, sp := x.next, fl := res.2.2 }

def assembleDur (l : List SchurBlk) (x : StepCx) : Nat := 16 + cdiv (l.foldl (fun a b => a + b.rows * b.cols) 0) x.lanes
def assembleSpans (l : List SchurBlk) (x : StepCx) : List (Nat × Nat × Bool) :=
  (x.s.arg0, 1, true) :: l.flatMap (fun b =>
    [(b.src, 8 * (b.lds * (b.cols - 1) + b.rows), true), (b.dst, 8 * (b.ldd * (b.cols - 1) + b.rows), true)])

/-- `STEP_ASSEMBLE` (R173): the list at ARG0 is the operand. -/
def execStepAssemble (n : Nat) (l : List SchurBlk) (s : State) : Out :=
  run s (fun c p => runStep p c n 0x02 (assembleDur l) (assembleSpans l) (assembleOut l))

/-- A step of one cycle, and one that touches no memory. -/
def oneCycle (_ : StepCx) : Nat := 1
def noSpans (_ : StepCx) : List (Nat × Nat × Bool) := []

def commitSpans (x : StepCx) : List (Nat × Nat × Bool) := [(x.r.fact, 16, true)]
def commitOut (x : StepCx) : StepOut :=
  let h := x.at_ x.r.fact
  let b := mread x.mem h 16
  { ws := [bytesW h (natLe 8 ((field b 0 8 + 1) % 2 ^ 64) ++ natLe 1 (Nat.xor (field b 8 1) 1) ++ b.drop 9)], sp := x.next }

/-- `STEP_COMMIT` (R176): GEN counts, CUR inverts, in one write. -/
def execStepCommit (n : Nat) (s : State) : Out := run s (fun c p => runStep p c n 0x03 oneCycle commitSpans commitOut)

/-! Vectors (R173, R175) -/

/-- An exact sum of products, with its n, rounded once to n of the destination. -/
def fxOut (x : StepCx) (v : Nat) (num : Int) (n : Nat) : R := xRound x.ar.w n (num * 2 ^ (x.vec v).n)

/-- Row r of a CSR matrix: column and value of its entries in order. -/
def csrRow (x : StepCx) (a : CsrRec) (r : Nat) : List (Nat × W64) :=
  let o := x.at_ a.off
  (rng (mnat x.mem (o + 4 * r) 4) (mnat x.mem (o + 4 * (r + 1)) 4)).map (fun i =>
    (mnat x.mem (x.at_ a.idx + 4 * i) 4, BitVec.ofNat 64 (mnat x.mem (x.at_ a.val + x.r.eb * i) x.r.eb)))

def spmvRow (a : CsrRec) (x : StepCx) (v0 v1 : List W64) (r : Nat) : R :=
  let row := csrRow x a r
  if x.ar.mode = 0 then
    row.foldl (fun (s : R) e =>
      let y := if x.s.fn = 1 then x.ar.nma 0 e.2 (v0.getD e.1 0#64) s.1 else x.ar.fma 0 e.2 (v0.getD e.1 0#64) s.1
      (y.1, s.2 ||| y.2)) (if x.s.fn = 1 then v1.getD r 0#64 else 0#64, 0#16)
  else
    let n := a.n + (x.vec x.s.v0).n
    let sum := row.foldl (fun (s : Int) e => s + x.ar.int e.2 * x.ar.int (v0.getD e.1 0#64)) 0
    if x.s.fn = 1 then
      let n1 := (x.vec x.s.v1).n
      fxOut x x.s.v2 (x.ar.int (v1.getD r 0#64) * 2 ^ n - sum * 2 ^ n1) (n + n1)
    else fxOut x x.s.v2 sum n

def spmvDur (r : CsrRec) (x : StepCx) : Nat := 16 + cdiv r.nnz x.lanes + cdiv r.rows x.lanes
def spmvSpans (r : CsrRec) (x : StepCx) : List (Nat × Nat × Bool) :=
  [(x.s.arg0, 1, true), (r.off, 4 * (r.rows + 1), true), (r.idx, 4 * r.nnz, true), (r.val, x.r.eb * r.nnz, true)]
    ++ x.s.vecs.map (fun v => ((x.vspan v).1, (x.vspan v).2, v != x.s.v2))
def spmvOut (r : CsrRec) (x : StepCx) : StepOut :=
  let v0 := x.elems x.s.v0
  let v1 := x.elems x.s.v1
  outR x x.s.v2 ((List.range r.rows).map (spmvRow r x v0 v1))

/-- `STEP_SPMV` (R173, R175): the CSR record at ARG0 is the operand. -/
def execStepSpmv (n : Nat) (r : CsrRec) (s : State) : Out :=
  run s (fun c p => runStep p c n 0x10 (spmvDur r) (spmvSpans r) (spmvOut r))

/-- Forward substitution column by column, then back substitution, in place (R175). `kind` is FKIND. In fixed point the elements stand
at V1's n. -/
def fsolveRun (x : StepCx) (l : List FacCol) (k : Wk) : Wk :=
  let base := x.at_ (x.factor true)
  let e := x.r.eb
  let el (o : Nat) : W64 := BitVec.ofNat 64 (mnat x.mem (base + o) e)
  let kind := x.g.fkind
  let upd (k : Wk) (dst src o : Nat) : Wk := k.put (kX dst 0) (x.ar.nma x.nf (el o) (k.g (kX src 0)) (k.g (kX dst 0)))
  let dvd (k : Wk) (i o : Nat) : Wk := k.put (kX i 0) (x.ar.div x.nf (k.g (kX i 0)) (el o))
  let cols := l.zipIdx
  let k := cols.foldl (fun k c =>
    let k := if kind = 2 then dvd k c.2 c.1.diag else k
    c.1.low.foldl (fun k e => upd k e.1 c.2 e.2) k) k
  let k := if kind = 3 then cols.foldl (fun k c => dvd k c.2 c.1.diag) k else k
  cols.reverse.foldl (fun k c =>
    if kind = 1 then
      let k := dvd k c.2 c.1.diag
      c.1.up.foldl (fun k e => upd k e.1 c.2 e.2) k
    else
      let k := c.1.low.foldl (fun k e => upd k c.2 e.1 e.2) k
      if kind = 2 then dvd k c.2 c.1.diag else k) k

/-- V0's elements as elements of V1: in fixed point aligned to its n. -/
def asV1 (x : StepCx) (c : W64) : R :=
  if x.ar.mode = 0 then (c, 0#16) else fxOut x x.s.v1 (x.ar.int c) (x.vec x.s.v0).n

def fsolveDur (l : List FacCol) (x : StepCx) : Nat :=
  16 + cdiv (2 * l.foldl (fun a k => a + 1 + k.low.length + k.up.length) 0) x.lanes
def fsolveSpans (l : List FacCol) (x : StepCx) : List (Nat × Nat × Bool) :=
  (x.r.fact, 64, true) :: ((x.vspan x.s.v0).1, (x.vspan x.s.v0).2, true) :: ((x.vspan x.s.v1).1, (x.vspan x.s.v1).2, false)
    :: l.flatMap (fun k => (k.diag :: (k.low ++ k.up).map (fun e => e.2)).map (fun o => (x.factor true + o, x.r.eb, true)))
def fsolveOut (l : List FacCol) (x : StepCx) : StepOut :=
  let v := (x.elems x.s.v0).map (asV1 x)
  if factGen { mem := x.mem } x.at_ x.r.fact = 0 then
    { outR x x.s.v1 v with sp := { x.next with nofactor := true } }
  else
    let k := fsolveRun x l { m := v.zipIdx.map (fun e => (kX e.2 0, e.1.1)), fl := orFlags v }
    { ws := x.store x.s.v1 ((List.range v.length).map (fun i => k.g (kX i 0))), sp := x.next, fl := k.fl }

/-- `STEP_FSOLVE` (R173, R175, R176): the pattern of the factor is the operand. With GEN = 0, V1 := V0 and NOFACTOR. -/
def execStepFsolve (n : Nat) (l : List FacCol) (s : State) : Out :=
  run s (fun c p => runStep p c n 0x11 (fsolveDur l) (fsolveSpans l) (fsolveOut l))

/-- The spans of a step that reads V0 and V1 and writes V1. -/
def twoVecs (x : StepCx) : List (Nat × Nat × Bool) :=
  x.s.vecs.map (fun v => ((x.vspan v).1, (x.vspan v).2, true))
/-- The duration of an element-wise step. -/
def vecDur (x : StepCx) : Nat := 8 + cdiv x.len0 x.lanes

def axpyOut (x : StepCx) : StepOut :=
  let sa := x.slot x.s.sa
  let n0 := (x.vec x.s.v0).n
  let n1 := (x.vec x.s.v1).n
  outR x x.s.v1 (List.zipWith (fun a b =>
    if x.ar.mode = 0 then (if x.s.fn = 1 then x.ar.nma 0 sa a b else x.ar.fma 0 sa a b)
    else
      let pr := sext 64 sa.toNat * x.ar.int a * 2 ^ n1
      let num := x.ar.int b * 2 ^ (32 + n0) + (if x.s.fn = 1 then -pr else pr)
      fxOut x x.s.v1 num (32 + n0 + n1)) (x.elems x.s.v0) (x.elems x.s.v1))

/-- `STEP_AXPY` (R173). -/
def execStepAxpy (n : Nat) (s : State) : Out := run s (fun c p => runStep p c n 0x12 vecDur twoVecs axpyOut)

def xpayOut (x : StepCx) : StepOut :=
  let sa := x.slot x.s.sa
  let n0 := (x.vec x.s.v0).n
  let n1 := (x.vec x.s.v1).n
  outR x x.s.v1 (List.zipWith (fun a b =>
    if x.ar.mode = 0 then x.ar.fma 0 sa b a
    else fxOut x x.s.v1 (x.ar.int a * 2 ^ (32 + n1) + sext 64 sa.toNat * x.ar.int b * 2 ^ n0) (32 + n0 + n1))
    (x.elems x.s.v0) (x.elems x.s.v1))

/-- `STEP_XPAY` (R173). -/
def execStepXpay (n : Nat) (s : State) : Out := run s (fun c p => runStep p c n 0x13 vecDur twoVecs xpayOut)

/-- The local sum of a DOT step (R175): 256 lanes, then the tree of R78; in fixed point exact, rounded once at n = 32. -/
def dotLocal (x : StepCx) : R :=
  let prods := (x.elems x.s.v0).zip (x.elems x.s.v1)
  if x.ar.mode = 0 then
    let lanes := (List.range 256).map (fun k =>
      (prods.zipIdx.filter (fun e => e.2 % 256 == k)).foldl (fun (s : R) e =>
        let y := x.ar.fma 0 e.1.1 e.1.2 s.1
        (y.1, s.2 ||| y.2)) (0#64, 0#16))
    treeSum .b64 x.ar.rm 8 lanes
  else
    let sum := prods.foldl (fun (s : Int) e => s + x.ar.int e.1 * x.ar.int e.2) 0
    xRound 64 ((x.vec x.s.v0).n + (x.vec x.s.v1).n) (sum * 2 ^ 32)

/-- The group of a DOT step, when it sums over one. -/
def dotGroup (s : StepRec) : Option Nat := if s.arg0 % 65536 = 0xFFFF then none else some (s.arg0 % 65536)

/-- A slot takes a value. -/
def setSlot (q : Sparse) (i : Nat) (v : W64) : Sparse := { q with slots := sset q.slots i v }

def dotDur (x : StepCx) : Nat := 24 + cdiv x.len0 x.lanes
def dotOut (x : StepCx) : StepOut :=
  let d := dotLocal x
  match dotGroup x.s with
  | none => { sp := setSlot x.next x.s.sa d.1, fl := d.2 }
  | some g =>
    let sp : Sparse := { x.job.sparse with
      waitSum := true, loc := d.1, group := g, tick := x.job.s + stepOffset x.job.sparse x.s, sumDt := if x.ar.mode = 0 then 0 else 3 }
    { sp := sp, fl := d.2 }

/-- The group's sum is in: the step ends at cycle `fin`. -/
def dotSum (x : StepCx) (v : W64) (fin : Nat) (k : Job) : Job :=
  { k with sum := none, ends := fin, sparse := { setSlot x.next x.s.sa v with waitSum := false, free := fin } }

/-- A step that waits for its group's sum: it ends when the waggle worst case is over, or with a sum that comes later. -/
def awaitSum (p : Pkg) (c : Clock) (n : Nat) (x : StepCx) : Pkg :=
  let due := x.job.ends + wwcCycles p x.job.sparse.group
  if jobCycle p c x.job < due then p
  else match x.job.sum with
    | none => modJob p n (fun k => { k with late := jobCycle p c x.job })
    | some v => modJob p n (dotSum x v (max due x.job.late))

/-- `STEP_DOT` (R173, R175). With a group the local sum enters the waggle path. -/
def execStepDot (n : Nat) (s : State) : Out :=
  run s (fun c p =>
    match stepAt p n 0x14 with
    | none => p
    | some x =>
      if x.job.sparse.waitSum then awaitSum p c n x
      else runStep p c n 0x14 dotDur twoVecs dotOut)

/-- SC := SA op SB (R173). -/
def scalOp (x : StepCx) : R :=
  let a := x.slot x.s.sa
  let b := x.slot x.s.sb
  let rm := x.ar.rm
  let i (v : W64) := sext 64 v.toNat
  if x.ar.mode = 0 then
    (if x.s.fn = 0 then fAdd .b64 rm a b else if x.s.fn = 1 then fSub .b64 rm a b else if x.s.fn = 2 then fMul .b64 rm a b
     else if x.s.fn = 3 then fDiv .b64 rm a b else if x.s.fn = 4 then fSqrt .b64 rm a else (a, 0#16))
  else
    (if x.s.fn = 0 then xAdd 64 (i a) (i b) else if x.s.fn = 1 then xAdd 64 (i a) (-(i b)) else if x.s.fn = 2 then xMul 64 32 (i a) (i b)
     else if x.s.fn = 3 then xDiv 64 32 (i a) (i b) else if x.s.fn = 4 then xSqrt 64 32 (i a) else (a, 0#16))

def scalDur (x : StepCx) : Nat := if x.s.fn = 3 ∨ x.s.fn = 4 then 24 else 4
def scalOut (x : StepCx) : StepOut :=
  let r := scalOp x
  { sp := setSlot x.next x.s.sc r.1, fl := r.2 }

/-- `STEP_SCAL` (R173). -/
def execStepScal (n : Nat) (s : State) : Out := run s (fun c p => runStep p c n 0x15 scalDur noSpans scalOut)

/-- The cycle in which the slot of a traffic-schedule entry of a launch ends (R300, R302); 0 for an entry that is not there. -/
def slotEndCycle (p : Pkg) (l i : Nat) : Nat :=
  match findLaunch p l, launchSec p l 5 with
  | some y, some (o, _) =>
    let g := ((findPlan p y.plan).map (fun pl => mnat p.mem (pl.base + 0x48) 2)).getD 0
    let a := o + 16 + cdiv (2 * g) 8 * 8 + 8 * mnat p.mem (o + 4) 4 + 16 * i
    if i < mnat p.mem o 4 then cycleAt p (4096 * mnat p.mem a 4 + 16 * mnat p.mem (a + 4) 1 + 16) else 0
  | _, _ => 0

/-- An exchange lasts to the end of the slot of its traffic-schedule entry (Table 7.7; DEDUCED, log entry 123). -/
def exchDur (p : Pkg) (x : StepCx) : Nat := slotEndCycle p x.job.launch x.s.arg0 - stepStart p x
def exchSpans (x : StepCx) : List (Nat × Nat × Bool) := [((x.vspan x.s.v0).1, (x.vspan x.s.v0).2, true)]
def exchOut (l : List ExchSend) (x : StepCx) : StepOut :=
  let v := x.vec x.s.v0
  { sp := x.next,
    sends := l.flatMap (fun e =>
      let bs := mread x.mem (x.at_ v.addr + x.r.eb * e.first) (x.r.eb * min e.count (v.len - e.first))
      (runs ((List.range bs.length).map (fun i => e.daddr + i))).map (fun r =>
        (e.ctx, { ty := 0x01, daddr := r.1, payload := (bs.drop (r.1 - e.daddr)).take r.2 }))) }

/-- `STEP_EXCH` (R173): the boundary entries that the host's record names leave in packets of their contexts, for the slots of
traffic-schedule entry ARG0; what the peers send arrives in their STORE packets. -/
def execStepExch (n : Nat) (l : List ExchSend) (s : State) : Out :=
  run s (fun c p => runStep p c n 0x16 (exchDur p) exchSpans (exchOut l))

def copySpans (x : StepCx) : List (Nat × Nat × Bool) :=
  x.s.vecs.map (fun v => ((x.vspan v).1, (x.vspan v).2, v != x.s.v1))
def copyOut (x : StepCx) : StepOut :=
  if x.s.fn = 1 then
    let sa := x.slot x.s.sa
    outR x x.s.v1 (List.replicate (x.vec x.s.v1).len
      (if x.ar.mode = 0 then (sa, 0#16) else fxOut x x.s.v1 (sext 64 sa.toNat) 32))
  else outR x x.s.v1 ((x.elems x.s.v0).map (fun a =>
    if x.ar.mode = 0 then (a, 0#16) else fxOut x x.s.v1 (x.ar.int a) (x.vec x.s.v0).n))

/-- `STEP_COPY` (R173). -/
def execStepCopy (n : Nat) (s : State) : Out := run s (fun c p => runStep p c n 0x17 vecDur copySpans copyOut)

def givensDur (x : StepCx) : Nat := 24 + 8 * x.s.arg1
def givensSpans (l : List Nat) (x : StepCx) : List (Nat × Nat × Bool) := (x.s.arg0, 1, true) :: l.map (fun a => (a, x.r.eb, true))
def givensOut (l : List Nat) (x : StepCx) : StepOut :=
  let seen := l.map (fun a => mnat x.mem (x.at_ a) x.r.eb)
  { ws := l.zipIdx.map (fun e => bytesW (x.at_ e.1) (natLe x.r.eb (Config.operandWord 7 seen e.2).toNat)), sp := x.next }

/-- `STEP_GIVENS` (R173): the operand lists the elements that the step rewrites, the rotated column, the new rotation and its
right-hand side; the spec states no arithmetic for a rotation of GMRES, so each takes a free value. -/
def execStepGivens (n : Nat) (l : List Nat) (s : State) : Out :=
  run s (fun c p => runStep p c n 0x18 givensDur (givensSpans l) (givensOut l))

def hsolveDur (x : StepCx) : Nat := 16 + x.s.arg1 * x.s.arg1 + cdiv (x.s.arg1 * x.len0) x.lanes
def hsolveSpans (h : HessRec) (x : StepCx) : List (Nat × Nat × Bool) :=
  (x.s.arg0, 1, true) :: (h.tri, x.r.eb * (h.ld * (x.s.arg1 - 1) + x.s.arg1), true) :: (h.rhs, x.r.eb * x.s.arg1, true)
    :: x.s.vecs.map (fun v => ((x.vspan v).1, (x.vspan v).2, true))
/-- V0 := V0 + y·V, element by element; y stands at `ny` fraction bits in fixed point. -/
def addScaled (x : StepCx) (ny : Nat) (y : W64) (v : Nat) (acc : List R) : List R :=
  let n0 := (x.vec x.s.v0).n
  let nv := (x.vec v).n
  List.zipWith (fun a b =>
    let r := if x.ar.mode = 0 then x.ar.fma 0 y b a.1
      else fxOut x x.s.v0 (x.ar.int a.1 * 2 ^ (ny + nv) + x.ar.int y * x.ar.int b * 2 ^ n0) (n0 + ny + nv)
    (r.1, a.2 ||| r.2)) acc (x.elems v)

def hsolveOut (h : HessRec) (x : StepCx) : StepOut :=
  let m := x.s.arg1
  let e := x.r.eb
  let ny := if x.ar.mode = 0 then 0 else (Config.factorFraction x.s.arg0).val % x.ar.w
  let el (a : Nat) : W64 := BitVec.ofNat 64 (mnat x.mem a e)
  let k : Wk := {}
  let k := (List.range m).foldl (fun k j =>
    let k := (List.range m).foldl (fun k i => k.put (kA i j) (el (x.at_ h.tri + e * (h.ld * j + i)), 0#16)) k
    k.put (kX j 0) (el (x.at_ h.rhs + e * j), 0#16)) k
  let k := triCol x.ar ny m false false kA k 0
  let out := (List.range m).foldl (fun acc j => addScaled x ny (k.g (kX j 0)) (x.s.v1 + j) acc)
    ((x.elems x.s.v0).map (fun c => (c, (0#16 : Flags))))
  let o := outR x x.s.v0 out
  { o with fl := o.fl ||| k.fl }

/-- `STEP_HSOLVE` (R173, R164): the triangle by back substitution, then V0 := V0 + Σ y_j V(1+j) in ascending j. In fixed point
the triangle, its right-hand side and y stand at a free number of fraction bits (log entry 122). -/
def execStepHsolve (n : Nat) (h : HessRec) (s : State) : Out :=
  run s (fun c p => runStep p c n 0x19 hsolveDur (hsolveSpans h) (hsolveOut h))

/-! Loops (R174) -/

/-- The ENDLOOP of the LOOP at index i. -/
def loopEnd (m : Mem) (g : Prog) : Nat → Nat → Nat → Nat
  | 0, _, i => i
  | f + 1, d, i =>
    let o := (readStep m g i).op
    if o = 0x22 ∧ d = 0 then i else loopEnd m g f (if o = 0x20 then d + 1 else if o = 0x22 then d - 1 else d) (i + 1)

def loopOut (x : StepCx) : StepOut :=
  let q := x.next
  let lim := x.s.arg0 % 2 ^ 32
  let conv := bit x.s.fn 0
  let q := if conv then { q with convIter := 0, convRun := true, convMet := false } else q
  if lim = 0 then { sp := { q with pc := loopEnd x.mem x.g x.g.nstep 0 q.pc + 1 } }
  else
    { sp := { q with loops := { at_ := x.job.sparse.pc, base := stepOffset x.job.sparse x.s, iter := 0, limit := lim,
                                span := x.s.arg1 % 2 ^ 32, conv := conv, met := false } :: q.loops } }

/-- `STEP_LOOP` (R174): opens a loop; a limit of 0 runs no iteration. -/
def execStepLoop (n : Nat) (s : State) : Out := run s (fun c p => runStep p c n 0x20 oneCycle noSpans loopOut)

/-- SA ≤ SB, quietly. -/
def testMet (x : StepCx) : Bool :=
  let a := x.slot x.s.sa
  let b := x.slot x.s.sb
  if x.ar.mode = 0 then
    !isNan (decodeFloat .b64 a) && !isNan (decodeFloat .b64 b) && !lt64 b a
  else decide (sext 64 a.toNat ≤ sext 64 b.toNat)

def testOut (x : StepCx) : StepOut :=
  let met := testMet x
  let q := x.next
  let q := { q with breakdown := x.ar.mode == 0 && isNan (decodeFloat .b64 (x.slot x.s.sa)) }
  match q.loops with
  | [] => { sp := q }
  | l :: r =>
    let q := if l.conv then { q with resid := x.slot x.s.sa, convMet := q.convMet || met } else q
    { sp := { q with loops := { l with met := met } :: r } }

/-- `STEP_TEST` (R174, R175, R178). -/
def execStepTest (n : Nat) (s : State) : Out := run s (fun c p => runStep p c n 0x21 oneCycle noSpans testOut)

def endloopOut (x : StepCx) : StepOut :=
  let q := x.next
  match q.loops with
  | [] => { sp := q }
  | l :: r =>
    let q := if l.conv then { q with convIter := q.convIter + 1 } else q
    if !l.met ∧ l.iter + 1 < l.limit then { sp := { q with pc := l.at_ + 1, loops := { l with iter := l.iter + 1 } :: r } }
    else { sp := { q with loops := r } }

/-- `STEP_ENDLOOP` (R174): the next iteration, or the step after the loop. -/
def execStepEndloop (n : Nat) (s : State) : Out := run s (fun c p => runStep p c n 0x22 oneCycle noSpans endloopOut)

def endOut (x : StepCx) : StepOut := { sp := { x.next with ended := true } }

/-- `STEP_END` (R173): the job ends with this step. -/
def execStepEnd (n : Nat) (s : State) : Out := run s (fun c p => runStep p c n 0x3F oneCycle noSpans endOut)

/-- `JOB_SPARSE` (R172). -/
def execJobSparse (n : Nat) (s : State) : Out := run s (fun c p => startSparse p c n)

end Sys2Proof.Machine
end

