-- ==== Sys2Proof/Machine/Vectors.lean ====
section
/-! DEFINITION. The vector extension of the Grenum core ISA (09_cores R221 to R226). -/

namespace Sys2Proof.Machine

/-- The second operand of every element: a vector group, or an integer register broadcast. -/
def vSource (k : Nat) (x : Core) (src : VSrc) : Nat → W64 :=
  let w := x.sewBits
  match src with
  | .v r => let b := groupBits k x r x.g; fun i => elemOf b w i
  | .x r => let v := BitVec.ofNat 64 ((x.xget r).toNat % 2 ^ w); fun _ => v

def srcRegs : VSrc → List Nat
  | .v r => [r.val]
  | .x _ => []

/-- The kind is defined at this element width: no floating point at 8 bits. -/
def kindOk (x : Core) (kind : VKind) : Bool := kind != .flt || (floatOf x.sew).isSome

/-- `V_ARITH` (Table 9.4). -/
def execVArith (k : Fin 216) (op : VOp) (kind : VKind) (m : Bool) (ra : Fin 8) (vd vs1 : Fin 32) (src : VSrc) (s : State) : Out :=
  coreExec k true s (fun _ p x => do
    cneed (op != .undef && kindOk x kind) 1
    cneed (groupOk k x ([vd.val, vs1.val] ++ srcRegs src)) 5
    let w := x.sewBits
    let rm := rndOfRa ra p.cfg.radef
    let a := groupBits k x vs1 x.g
    let d := groupBits k x vd x.g
    let b := vSource k x src
    .ok (p, writeActive k x vd w ((actives x m).map (fun i =>
      (i, vElem (floatOf x.sew) rm op kind w (elemOf a w i) (b i) (elemOf d w i))))))

/-- `V.DIV`, `V.SQRT` (Table 9.4). -/
def execVDivSqrt (k : Fin 216) (sqrt m : Bool) (ra : Fin 8) (vd vs1 vs2 : Fin 32) (s : State) : Out :=
  coreExec k true s (fun _ p x =>
    match floatOf x.sew with
    | none => .error { sub := 1 }
    | some f => do
      cneed (groupOk k x [vd, vs1, vs2]) 5
      let w := x.sewBits
      let rm := rndOfRa ra p.cfg.radef
      let a := groupBits k x vs1 x.g
      let b := groupBits k x vs2 x.g
      .ok (p, writeActive k x vd w ((actives x m).map (fun i =>
        (i, if sqrt then viaWork f (fun g u _ => fSqrt g rm u) (elemOf a w i) 0#64
            else viaWork f (fun g u v => fDiv g rm u v) (elemOf a w i) (elemOf b w i))))))

/-- `V.CVT` (R58 to R62): element i at its own width in each group; a packed result's last unit is filled with zeros. Table 9.4
gives it no fixed-point formats. An A16 element has scale 1.0 and zero point 0, for a vector register names neither (DESIGN CHOICE,
log entry 121). -/
def execVCvt (k : Fin 216) (src dst : Fin 256) (m : Bool) (ra : Fin 8) (vd vs1 : Fin 32) (s : State) : Out :=
  coreExec k true s (fun _ p x =>
    match fmtOfCode src, fmtOfCode dst with
    | some f, some g => do
      let n (h : Fmt) := max x.g (cdiv (h.width * x.vl) (vbits k))
      cneed (!f.isFixed && !g.isFixed) 1
      cneed (groupOk k x [vd, vs1] && decide (vs1.val + n f ≤ vregs k) && decide (vd.val + n g ≤ vregs k)) 5
      let a := groupBits k x vs1 (n f)
      let out := (actives x m).map (fun i => (i, convert (rndOfRa ra p.cfg.radef) f {} g {} (elemOf a f.width i)))
      let per := if g = .h6 then 4 else if g = .q4 then 2 else 1
      let pads := (List.range ((per - x.vl % per) % per)).map (fun j => (x.vl + j, ((0#64, 0#16) : R)))
      .ok (p, writeActive k x vd g.width (out ++ pads))
    | _, _ => .error { sub := 1 })

/-- Element loads of active elements, in ascending order. -/
def loadElems (p : Pkg) (c : Clock) (k : Nat) (x : Core) (n : Nat) : List (Nat × Nat) → CoreR (Pkg × Core × List (Nat × R))
  | [] => .ok (p, x, [])
  | (i, a) :: r => do
    let (p, x, bs) ← coreLoad p c k x false true a n
    let (p, x, l) ← loadElems p c k x n r
    .ok (p, x, (i, (BitVec.ofNat 64 (leNat bs), 0#16)) :: l)

/-- Element stores of active elements, in ascending order. -/
def storeElems (p : Pkg) (c : Clock) (k : Nat) (x : Core) (n : Nat) : List (Nat × W64) → CoreR (Pkg × Core)
  | [] => .ok (p, x)
  | (a, v) :: r => do
    let (p, x) ← coreStore p c k x a n (natLe n v.toNat)
    storeElems p c k x n r

/-- Address of element i: rs1 + i × stride. -/
def elemAddr (x : Core) (rs1 : Nat) (stride : Int) (i : Nat) : Nat := wrapInt 64 (((x.xget rs1).toNat : Int) + stride * i)

/-- `V.LD`, `V.ST`, `V.LDS`, `V.STS` (Table 9.4). -/
def execVLdSt (k : Fin 216) (op : VMemOp) (m : Bool) (v : Fin 32) (s : State) : Out :=
  coreExec k true s (fun c p x => do
    cneed (op != .undef) 1
    cneed (groupOk k x [v]) 5
    let n := x.sewBits / 8
    let strideOf (r : Fin 32) : Int := sext 64 (x.xget r).toNat
    let load (rs1 : Nat) (st : Int) : CoreR (Pkg × Core) := do
      let (p, x, l) ← loadElems p c k x n ((actives x m).map (fun i => (i, elemAddr x rs1 st i)))
      .ok (p, writeActive k x v x.sewBits l)
    let store (rs1 : Nat) (st : Int) : CoreR (Pkg × Core) :=
      let b := groupBits k x v x.g
      storeElems p c k x n ((actives x m).map (fun i => (elemAddr x rs1 st i, elemOf b x.sewBits i)))
    match op with
    | .ld rs1 => load rs1 n
    | .st rs1 => store rs1 n
    | .lds rs1 rs2 => load rs1 (strideOf rs2)
    | .sts rs1 rs2 => store rs1 (strideOf rs2)
    | .undef => .error { sub := 1 })

/-- R224: the address of element i, aligned and in the own slice window. -/
def gathAddr (k : Nat) (x : Core) (rs1 idx : Nat) (i : Nat) : CoreR Nat := do
  let a := ((x.xget rs1).toNat + (elemOf idx x.sewBits i).toNat * (x.sewBits / 8)) % 2 ^ 64
  cneed (a % (x.sewBits / 8) == 0) 2
  cneed (inOwn k a (x.sewBits / 8)) 3
  .ok a

/-- `V.GATH` (R224). -/
def execVGath (k : Fin 216) (m : Bool) (vd rs1 vs2 : Fin 32) (s : State) : Out :=
  coreExec k true s (fun c p x => do
    cneed (groupOk k x [vd, vs2]) 5
    let idx := groupBits k x vs2 x.g
    let as ← (actives x m).mapM (fun i => (gathAddr k x rs1 idx i).map (fun a => (i, a)))
    let (p, x, l) ← loadElems p c k x (x.sewBits / 8) as
    .ok (p, writeActive k x vd x.sewBits l))

/-- `V.SCAT` (R224): ascending, so the highest index wins. -/
def execVScat (k : Fin 216) (m : Bool) (vs1 rs1 vs2 : Fin 32) (s : State) : Out :=
  coreExec k true s (fun c p x => do
    cneed (groupOk k x [vs1, vs2]) 5
    let idx := groupBits k x vs2 x.g
    let v := groupBits k x vs1 x.g
    let as ← (actives x m).mapM (fun i => (gathAddr k x rs1 idx i).map (fun a => (a, elemOf v x.sewBits i)))
    storeElems p c k x (x.sewBits / 8) as)

/-- Scatter-add of active elements one at a time (R224). -/
def scatAdd (p : Pkg) (c : Clock) (k : Nat) (x : Core) (f : W64 → W64 → R) : List (Nat × W64) → CoreR (Pkg × Core)
  | [] => .ok (p, x)
  | (a, v) :: r => do
    let n := x.sewBits / 8
    let (p, x, bs) ← coreLoad p c k x false true a n
    let s := f (BitVec.ofNat 64 (leNat bs)) v
    let (p, x) ← coreStore p c k x a n (natLe n s.1.toNat)
    scatAdd p c k (x.raise s.2) f r

/-- `V.SCADD` (R224). -/
def execVScadd (k : Fin 216) (kind : VKind) (m : Bool) (ra : Fin 8) (vs1 rs1 vs2 : Fin 32) (s : State) : Out :=
  coreExec k true s (fun c p x => do
    cneed (kindOk x kind) 1
    cneed (groupOk k x [vs1, vs2]) 5
    let idx := groupBits k x vs2 x.g
    let v := groupBits k x vs1 x.g
    let as ← (actives x m).mapM (fun i => (gathAddr k x rs1 idx i).map (fun a => (a, elemOf v x.sewBits i)))
    scatAdd p c k x (fun o e => vElem (floatOf x.sew) (rndOfRa ra p.cfg.radef) .add kind x.sewBits o e 0#64) as)

/-- New bits of a predicate register: an inactive element keeps its bit (R222). -/
def keepBits (x : Core) (m : Bool) (q : Nat) (f : Nat → Bool) : Nat → Bool :=
  let act := actives x m
  fun i => if act.contains i then f i else (x.qget q).getLsbD i

def predStores : QMemOp → Bool
  | .ld _ => false
  | .st _ => true
def predMask : QMemOp → Bool
  | .ld m => m
  | .st m => m

/-- `V.QLD`, `V.QST` (Table 9.4): ⌈VL/8⌉ bytes in the own slice; of a store's last byte the bits above VL are free, the bits of
inactive elements stay. -/
def execVQldQst (k : Fin 216) (op : QMemOp) (q rs1 : Fin 32) (s : State) : Out :=
  coreExec k true s (fun c p x => do
    let store := predStores op
    let m := predMask op
    cneed (decide (q.val ≤ 7)) 5
    let n := cdiv x.vl 8
    let a := (x.xget rs1).toNat
    cneed (inOwn k a n) 3
    if n = 0 then .ok (p, if store then x else writePred x q (fun _ => false))
    else
      match firstBad p (if store && !m then partLines a n else [(a, n)]) with
      | some b => .error { sub := 0x100, line := some b }
      | none =>
        let p := if store && !m then p else noteCes p [(a, n)]
        let mem := if x.sched then coreView p c x else p.mem
        let old := mnat mem a n
        if store then
          let act := actives x m
          let v := (List.range x.vl).foldl (fun b i =>
            b + (if (if act.contains i then (x.qget q).getLsbD i else bit old i) then 2 ^ i else 0)) 0
          let free := (Config.operandWord 3 [a, v] 0).toNat % 2 ^ 8
          let v := if x.vl % 8 = 0 then v else v + free / 2 ^ (x.vl % 8) * 2 ^ x.vl
          coreStore p c k x a 1 (natLe n v)
        else .ok (p, writePred x q (keepBits x m q (bit old))))

/-- `V.CMP` (R135) into predicate register vd: inactive elements keep their bit. -/
def execVCmp (k : Fin 216) (rel : CmpOp) (kind : VKind) (m : Bool) (vd vs1 : Fin 32) (src : VSrc) (s : State) : Out :=
  coreExec k true s (fun _ p x => do
    cneed (kindOk x kind) 1
    cneed (decide (vd.val ≤ 7) && groupOk k x ([vs1.val] ++ srcRegs src)) 5
    let w := x.sewBits
    let a := groupBits k x vs1 x.g
    let b := vSource k x src
    let one (i : Nat) : Bool × Flags := match kind, floatOf x.sew with
      | .flt, some f => cmpRel (relOf rel) (decodeFloat f (elemOf a w i)) (decodeFloat f (b i))
      | _, _ => (relHolds (relOf rel) (kindInt kind w (elemOf a w i) - kindInt kind w (b i)), 0#16)
    let fl := (actives x m).foldl (fun f i => f ||| (one i).2) 0#16
    .ok (p, (writePred x vd (keepBits x m vd (fun i => (one i).1))).raise fl))

/-- `V.QAND`, `V.QOR`, `V.QNOT`, `V.QPOP` (Table 9.4). -/
def execVPredicateLogic (k : Fin 216) (op : PredOp) (s : State) : Out :=
  coreExec k true s (fun _ p x =>
    match op with
    | .qand m vd a b => do
      cneed (decide (vd.val ≤ 7) && decide (a.val ≤ 7) && decide (b.val ≤ 7)) 5
      .ok (p, writePred x vd (keepBits x m vd (fun i => (x.qget a).getLsbD i && (x.qget b).getLsbD i)))
    | .qor m vd a b => do
      cneed (decide (vd.val ≤ 7) && decide (a.val ≤ 7) && decide (b.val ≤ 7)) 5
      .ok (p, writePred x vd (keepBits x m vd (fun i => (x.qget a).getLsbD i || (x.qget b).getLsbD i)))
    | .qnot m vd a => do
      cneed (decide (vd.val ≤ 7) && decide (a.val ≤ 7)) 5
      .ok (p, writePred x vd (keepBits x m vd (fun i => !(x.qget a).getLsbD i)))
    | .qpop rd => .ok (p, x.xset rd (BitVec.ofNat 64 (popcount x.vl (x.qget x.qsel).toNat)))
    | .undef => .error { sub := 1 })

/-- The permutations (Table 9.4, R144, R145). What a slide brings in from outside the elements below VL, and the active elements
that a compression leaves over, no rule states: free values of the operands. -/
def execVPermute (k : Fin 216) (op : PermOp) (m : Bool) (vd : Fin 32) (s : State) : Out :=
  coreExec k true s (fun _ p x => do
    let w := x.sewBits
    let act := actives x m
    let free (a n i : Nat) : W64 := BitVec.ofNat 64 ((Config.operandWord 2 [a, n, x.vl] i).toNat % 2 ^ w)
    let fin (f : Nat → W64) : CoreR (Pkg × Core) := .ok (p, writeActive k x vd w (act.map (fun i => (i, (f i, 0#16)))))
    match op with
    | .bcast rs1 => do
      cneed (groupOk k x [vd]) 5
      fin (fun _ => BitVec.ofNat 64 ((x.xget rs1).toNat % 2 ^ w))
    | .slup vs1 rs2 => do
      cneed (groupOk k x [vd, vs1]) 5
      let a := groupBits k x vs1 x.g
      let n := (x.xget rs2).toNat
      fin (fun i => if n ≤ i then elemOf a w (i - n) else free a n i)
    | .sldn vs1 rs2 => do
      cneed (groupOk k x [vd, vs1]) 5
      let a := groupBits k x vs1 x.g
      let n := (x.xget rs2).toNat
      fin (fun i => if i + n < x.vl then elemOf a w (i + n) else free a n i)
    | .cmpr vs1 => do
      cneed (groupOk k x [vd, vs1]) 5
      let a := groupBits k x vs1 x.g
      .ok (p, writeActive k x vd w ((List.range x.vl).filterMap (fun j =>
        match act[j]? with
        | some i => some (j, (elemOf a w i, 0#16))
        | none => if act.contains j then some (j, (free a act.length j, 0#16)) else none)))
    | .expd vs1 => do
      cneed (groupOk k x [vd, vs1]) 5
      let a := groupBits k x vs1 x.g
      .ok (p, writeActive k x vd w (act.zipIdx.map (fun e => (e.1, (elemOf a w e.2, 0#16)))))
    | .undef => .error { sub := 1 })

/-- The integer tree is exact and wraps, so it is a fold; the floating-point tree is that of R141. -/
def vReduce (op : RedOp) (kind : VKind) (sew w vl : Nat) (act : List Nat) (el : Nat → W64) : R :=
  let fn := match op with
    | .sum => 0
    | .max => 2
    | .min => 3
  match kind, floatOf sew with
  | .flt, some f =>
    let g : Fmt := if f = .h16 then .b32 else f
    let leaf (i : Nat) : RedVal := if act.contains i then some (if f = .h16 then h16to32 (el i) else el i, 0, 0#16) else none
    let r := redResult g 0 fn (redTree g 0 fn (clog2 vl) ((List.range vl).map leaf))
    if f = .h16 then viaB32 (r.1, r.2.2) else (r.1, r.2.2)
  | _, _ =>
    let vs := act.map (fun i => kindInt kind w (el i))
    match vs with
    | [] =>
      let lo : Int := if kind = .uint then 0 else intMin w
      let hi : Int := if kind = .uint then 2 ^ w - 1 else intMax w
      (BitVec.ofNat 64 (wrapInt w (match op with
        | .sum => 0
        | .max => lo
        | .min => hi)), fEMPTY)
    | v :: r => (BitVec.ofNat 64 (wrapInt w (r.foldl (fun a b => match op with
        | .sum => a + b
        | .max => max a b
        | .min => min a b) v)), 0#16)

/-- Element 0 of vd takes a result, whatever VL (R225). -/
def writeFirst (k : Nat) (x : Core) (vd : Nat) (r : R) : Core :=
  (setGroup k x vd 1 (setElem (groupBits k x vd 1) x.sewBits 0 r.1)).raise r.2

/-- `V.RSUM`, `V.RMAX`, `V.RMIN` (R225). -/
def execVRsum (k : Fin 216) (op : RedOp) (kind : VKind) (m : Bool) (vd vs1 : Fin 32) (s : State) : Out :=
  coreExec k true s (fun _ p x => do
    cneed (kindOk x kind) 1
    cneed (groupOk k x [vd, vs1]) 5
    let a := groupBits k x vs1 x.g
    .ok (p, writeFirst k x vd (vReduce op kind x.sew x.sewBits x.vl (actives x m) (elemOf a x.sewBits))))

/-- `V.RSUMO`: the ordered sum of the active elements. -/
def execVRsumo (k : Fin 216) (kind : VKind) (m : Bool) (ra : Fin 8) (vd vs1 : Fin 32) (s : State) : Out :=
  coreExec k true s (fun _ p x => do
    cneed (kindOk x kind) 1
    cneed (groupOk k x [vd, vs1]) 5
    let w := x.sewBits
    let a := groupBits k x vs1 x.g
    match actives x m with
    | [] => .ok (p, writeFirst k x vd (Config.operandWord 4 [a, x.vl, w] 0, 0#16))
    | i :: r =>
      let rm := rndOfRa ra p.cfg.radef
      let sum := r.foldl (fun (t : R) j =>
        let u := vElem (floatOf x.sew) rm .add kind w t.1 (elemOf a w j) 0#64
        (u.1, t.2 ||| u.2)) (elemOf a w i, 0#16)
      .ok (p, writeFirst k x vd sum))

/-- An element beyond the group's capacity has no value in the spec: a free one. -/
def pickElem (k : Nat) (x : Core) (vs1 i : Nat) : W64 :=
  let a := groupBits k x vs1 x.g
  if i < x.cap k then elemOf a x.sewBits i
  else BitVec.ofNat 64 ((Config.operandWord 5 [a, x.sewBits] i).toNat % 2 ^ x.sewBits)

/-- `V.MVX`, `V.MVF` (Table 9.4); only `V.MVX` needs the unit awake (R227). -/
def execVMvx (k : Fin 216) (toF : Bool) (rd vs1 rs2 : Fin 32) (s : State) : Out :=
  coreExec k (!toF) s (fun _ p x => do
    cneed (groupOk k x [vs1]) 5
    let i := (x.xget rs2).toNat
    let v := pickElem k x vs1 i
    .ok (p, if toF then x.fset k rd v else x.xset rd (extendTo64 x.sewBits v.toNat)))

/-- `V.SHAPE` (R221); keepers accept G = 1 only (R230). -/
def execVShape (k : Fin 216) (imm : Fin 16) (s : State) : Out :=
  coreExec k false s (fun _ p x => do
    cneed (!isKeeper k || imm.val / 4 == 0) 5
    .ok (p, { x with sew := imm.val % 4, grp := imm.val / 4, vl := 0 }))

/-- `V.TRIP` (R221). -/
def execVTrip (k : Fin 216) (rd rs1 : Fin 32) (s : State) : Out :=
  coreExec k false s (fun _ p x =>
    let n := (x.xget rs1).toNat
    let vl := min n (x.cap k)
    .ok (p, { x.xset rd (BitVec.ofNat 64 (n - vl)) with vl := vl }))

/-- `V.QSEL` (R221). -/
def execVQsel (k : Fin 216) (imm : Fin 8) (s : State) : Out :=
  coreExec k false s (fun _ p x => .ok (p, { x with qsel := imm.val }))

end Sys2Proof.Machine
end

