-- ==== Sys2Proof/Machine/Dispatch.lean ====
section
/-! DEFINITION. One arm per command, each one direct call of its meaning. -/

namespace Sys2Proof.Machine

def exec (i : Instr) (s : State) : Host.Outcome State Fault Refusal :=
  match i with
  | .mxLoadw t => Sys2Proof.Machine.execMxLoadw t s
  | .mxPass t => Sys2Proof.Machine.execMxPass t s
  | .mxPreload t => Sys2Proof.Machine.execMxPreload t s
  | .mxDrain t => Sys2Proof.Machine.execMxDrain t s
  | .mxZero t => Sys2Proof.Machine.execMxZero t s
  | .scRun t => Sys2Proof.Machine.execScRun t s
  | .dmCopy t => Sys2Proof.Machine.execDmCopy t s
  | .dmGather t => Sys2Proof.Machine.execDmGather t s
  | .dmScatter t => Sys2Proof.Machine.execDmScatter t s
  | .dmFill t => Sys2Proof.Machine.execDmFill t s
  | .dmCombine t => Sys2Proof.Machine.execDmCombine t s
  | .combineStart t => Sys2Proof.Machine.execCombineStart t s
  | .dmPut t => Sys2Proof.Machine.execDmPut t s
  | .dmGet t => Sys2Proof.Machine.execDmGet t s
  | .dmFadd t => Sys2Proof.Machine.execDmFadd t s
  | .syWait t => Sys2Proof.Machine.execSyWait t s
  | .sySignal t => Sys2Proof.Machine.execSySignal t s
  | .syUntil t => Sys2Proof.Machine.execSyUntil t s
  | .syAcquire t => Sys2Proof.Machine.execSyAcquire t s
  | .syncAcquireDone t n => Sys2Proof.Machine.execSyncAcquireDone t n s
  | .syRelease t => Sys2Proof.Machine.execSyRelease t s
  | .syFence t => Sys2Proof.Machine.execSyFence t s
  | .syClkon t => Sys2Proof.Machine.execSyClkon t s
  | .syEnd t => Sys2Proof.Machine.execSyEnd t s
  | .svBatch t => Sys2Proof.Machine.execSvBatch t s
  | .svSparse t => Sys2Proof.Machine.execSvSparse t s
  | .upInit t => Sys2Proof.Machine.execUpInit t s
  | .upPass1 t => Sys2Proof.Machine.execUpPass1 t s
  | .upPass2 t => Sys2Proof.Machine.execUpPass2 t s
  | .upRoot t => Sys2Proof.Machine.execUpRoot t s
  | .clAllreduce t => Sys2Proof.Machine.execClAllreduce t s
  | .clReduce t => Sys2Proof.Machine.execClReduce t s
  | .clBcast t => Sys2Proof.Machine.execClBcast t s
  | .clWreduce t => Sys2Proof.Machine.execClWreduce t s
  | .clWbcast t => Sys2Proof.Machine.execClWbcast t s
  | .undefinedOpcode t q => Sys2Proof.Machine.execUndefinedOpcode t q s
  | .instructionRetire t n => Sys2Proof.Machine.execInstructionRetire t n s
  | .heldRelease t n => Sys2Proof.Machine.execHeldRelease t n s
  | .iIntegerReg k op rd rs1 rs2 => Sys2Proof.Machine.execIIntegerReg k op rd rs1 rs2 s
  | .iIntegerImm k op rd rs1 imm => Sys2Proof.Machine.execIIntegerImm k op rd rs1 imm s
  | .lLoad k direct w rd rs1 imm => Sys2Proof.Machine.execLLoad k direct w rd rs1 imm s
  | .sStore k w rs2 rs1 imm => Sys2Proof.Machine.execSStore k w rs2 rs1 imm s
  | .bBranch k op => Sys2Proof.Machine.execBBranch k op s
  | .mMuldiv k op w32 rd rs1 rs2 => Sys2Proof.Machine.execMMuldiv k op w32 rd rs1 rs2 s
  | .fScalar k op wide ra rd rs1 rs2 => Sys2Proof.Machine.execFScalar k op wide ra rd rs1 rs2 s
  | .sysRdgsc k rd => Sys2Proof.Machine.execSysRdgsc k rd s
  | .sysRdcyc k rd => Sys2Proof.Machine.execSysRdcyc k rd s
  | .sysCsrr k rd r => Sys2Proof.Machine.execSysCsrr k rd r s
  | .sysCsrw k r rs1 => Sys2Proof.Machine.execSysCsrw k r rs1 s
  | .sysFence k => Sys2Proof.Machine.execSysFence k s
  | .sysDcinv k rs1 => Sys2Proof.Machine.execSysDcinv k rs1 s
  | .sysDcinva k => Sys2Proof.Machine.execSysDcinva k s
  | .sysWaitany k rd rs1 => Sys2Proof.Machine.execSysWaitany k rd rs1 s
  | .waitanyWake k => Sys2Proof.Machine.execWaitanyWake k s
  | .sysVwake k => Sys2Proof.Machine.execSysVwake k s
  | .sysVsleep k => Sys2Proof.Machine.execSysVsleep k s
  | .vwakeDone k => Sys2Proof.Machine.execVwakeDone k s
  | .tQpush k q rs1 rs2 => Sys2Proof.Machine.execTQpush k q rs1 rs2 s
  | .tDscw k slot vs1 => Sys2Proof.Machine.execTDscw k slot vs1 s
  | .tDscr k vd slot => Sys2Proof.Machine.execTDscr k vd slot s
  | .tTsig k token => Sys2Proof.Machine.execTTsig k token s
  | .tTwait k token => Sys2Proof.Machine.execTTwait k token s
  | .tTread k rd token => Sys2Proof.Machine.execTTread k rd token s
  | .aAdd64 k rd rs1 rs2 => Sys2Proof.Machine.execAAdd64 k rd rs1 rs2 s
  | .aCas64 k rd rs1 rs2 => Sys2Proof.Machine.execACas64 k rd rs1 rs2 s
  | .aRiadd k ctx rs1 rs2 => Sys2Proof.Machine.execARiadd k ctx rs1 rs2 s
  | .aRfadd k ctx wide rs1 rs2 => Sys2Proof.Machine.execARfadd k ctx wide rs1 rs2 s
  | .aFadd64 k ctx rd rs1 rs2 => Sys2Proof.Machine.execAFadd64 k ctx rd rs1 rs2 s
  | .aRcas64 k ctx rd rs1 rs2 => Sys2Proof.Machine.execARcas64 k ctx rd rs1 rs2 s
  | .vArith k op kind m ra vd vs1 src => Sys2Proof.Machine.execVArith k op kind m ra vd vs1 src s
  | .vDivSqrt k sqrt m ra vd vs1 vs2 => Sys2Proof.Machine.execVDivSqrt k sqrt m ra vd vs1 vs2 s
  | .vCvt k src dst m ra vd vs1 => Sys2Proof.Machine.execVCvt k src dst m ra vd vs1 s
  | .vLdSt k op m v => Sys2Proof.Machine.execVLdSt k op m v s
  | .vGath k m vd rs1 vs2 => Sys2Proof.Machine.execVGath k m vd rs1 vs2 s
  | .vScat k m vs1 rs1 vs2 => Sys2Proof.Machine.execVScat k m vs1 rs1 vs2 s
  | .vScadd k kind m ra vs1 rs1 vs2 => Sys2Proof.Machine.execVScadd k kind m ra vs1 rs1 vs2 s
  | .vQldQst k op q rs1 => Sys2Proof.Machine.execVQldQst k op q rs1 s
  | .vCmp k rel kind m vd vs1 src => Sys2Proof.Machine.execVCmp k rel kind m vd vs1 src s
  | .vPredicateLogic k op => Sys2Proof.Machine.execVPredicateLogic k op s
  | .vPermute k op m vd => Sys2Proof.Machine.execVPermute k op m vd s
  | .vRsum k op kind m vd vs1 => Sys2Proof.Machine.execVRsum k op kind m vd vs1 s
  | .vRsumo k kind m ra vd vs1 => Sys2Proof.Machine.execVRsumo k kind m ra vd vs1 s
  | .vMvx k toF rd vs1 rs2 => Sys2Proof.Machine.execVMvx k toF rd vs1 rs2 s
  | .vShape k imm => Sys2Proof.Machine.execVShape k imm s
  | .vTrip k rd rs1 => Sys2Proof.Machine.execVTrip k rd rs1 s
  | .vQsel k imm => Sys2Proof.Machine.execVQsel k imm s
  | .svDispatchArrive n => Sys2Proof.Machine.execSvDispatchArrive n s
  | .jobLu n => Sys2Proof.Machine.execJobLu n s
  | .jobCholesky n => Sys2Proof.Machine.execJobCholesky n s
  | .jobLdlt n => Sys2Proof.Machine.execJobLdlt n s
  | .jobQr n => Sys2Proof.Machine.execJobQr n s
  | .jobTrsv n => Sys2Proof.Machine.execJobTrsv n s
  | .jobInverse n => Sys2Proof.Machine.execJobInverse n s
  | .jobJacobi n => Sys2Proof.Machine.execJobJacobi n s
  | .jobSparse n => Sys2Proof.Machine.execJobSparse n s
  | .stepPanel n r => Sys2Proof.Machine.execStepPanel n r s
  | .stepAssemble n l => Sys2Proof.Machine.execStepAssemble n l s
  | .stepCommit n => Sys2Proof.Machine.execStepCommit n s
  | .stepSpmv n r => Sys2Proof.Machine.execStepSpmv n r s
  | .stepFsolve n l => Sys2Proof.Machine.execStepFsolve n l s
  | .stepAxpy n => Sys2Proof.Machine.execStepAxpy n s
  | .stepXpay n => Sys2Proof.Machine.execStepXpay n s
  | .stepDot n => Sys2Proof.Machine.execStepDot n s
  | .stepScal n => Sys2Proof.Machine.execStepScal n s
  | .stepExch n l => Sys2Proof.Machine.execStepExch n l s
  | .stepCopy n => Sys2Proof.Machine.execStepCopy n s
  | .stepGivens n l => Sys2Proof.Machine.execStepGivens n l s
  | .stepHsolve n h => Sys2Proof.Machine.execStepHsolve n h s
  | .stepLoop n => Sys2Proof.Machine.execStepLoop n s
  | .stepTest n => Sys2Proof.Machine.execStepTest n s
  | .stepEndloop n => Sys2Proof.Machine.execStepEndloop n s
  | .stepEnd n => Sys2Proof.Machine.execStepEnd n s
  | .slvJobEnd n => Sys2Proof.Machine.execSlvJobEnd n s
  | .upDispatchArrive n => Sys2Proof.Machine.execUpDispatchArrive n s
  | .ueInitJob n => Sys2Proof.Machine.execUeInitJob n s
  | .uePass1Job n => Sys2Proof.Machine.execUePass1Job n s
  | .uePass2Job n => Sys2Proof.Machine.execUePass2Job n s
  | .ueRootJob n => Sys2Proof.Machine.execUeRootJob n s
  | .ueJobEnd n => Sys2Proof.Machine.execUeJobEnd n s
  | .sqDoorbell r v => Sys2Proof.Machine.execSqDoorbell r v s
  | .cqDoorbell r v => Sys2Proof.Machine.execCqDoorbell r v s
  | .sqEnable r v => Sys2Proof.Machine.execSqEnable r v s
  | .sqDisable r => Sys2Proof.Machine.execSqDisable r s
  | .cqEnable r v => Sys2Proof.Machine.execCqEnable r v s
  | .cqDisable r => Sys2Proof.Machine.execCqDisable r s
  | .descriptorFetch r bytes => Sys2Proof.Machine.execDescriptorFetch r bytes s
  | .loadPlan op data => Sys2Proof.Machine.execLoadPlan op data s
  | .launch op => Sys2Proof.Machine.execLaunch op s
  | .admitOnly op => Sys2Proof.Machine.execAdmitOnly op s
  | .checkpointArm op rd => Sys2Proof.Machine.execCheckpointArm op rd s
  | .checkpointDisarm op => Sys2Proof.Machine.execCheckpointDisarm op s
  | .checkpointCut op => Sys2Proof.Machine.execCheckpointCut op s
  | .restore op rrec rd => Sys2Proof.Machine.execRestore op rrec rd s
  | .selfTest op => Sys2Proof.Machine.execSelfTest op s
  | .regionHandoff op => Sys2Proof.Machine.execRegionHandoff op s
  | .handoffComplete op => Sys2Proof.Machine.execHandoffComplete op s
  | .tableUpdate op data => Sys2Proof.Machine.execTableUpdate op data s
  | .cancel op => Sys2Proof.Machine.execCancel op s
  | .descriptorUnknownKind op => Sys2Proof.Machine.execDescriptorUnknownKind op s
  | .hostLocalAccess p id addr a => Sys2Proof.Machine.execHostLocalAccess p id addr a s
  | .hostRemoteAccess p id addr a => Sys2Proof.Machine.execHostRemoteAccess p id addr a s
  | .eclPortLaneLoss p lanes => Sys2Proof.Machine.execEclPortLaneLoss p lanes s
  | .prepStart l => Sys2Proof.Machine.execPrepStart l s
  | .launchStart l => Sys2Proof.Machine.execLaunchStart l s
  | .launchCompleteTick l => Sys2Proof.Machine.execLaunchCompleteTick l s
  | .launchRecordReceive group llo src rd => Sys2Proof.Machine.execLaunchRecordReceive group llo src rd s
  | .commitDecision l => Sys2Proof.Machine.execCommitDecision l s
  | .commitReceive group llo => Sys2Proof.Machine.execCommitReceive group llo s
  | .commitDeadline l => Sys2Proof.Machine.execCommitDeadline l s
  | .abandonmentNotice l src => Sys2Proof.Machine.execAbandonmentNotice l src s
  | .store p pkt poison => Sys2Proof.Machine.execStore p pkt poison s
  | .loadReq p pkt poison => Sys2Proof.Machine.execLoadReq p pkt poison s
  | .loadResp p pkt poison => Sys2Proof.Machine.execLoadResp p pkt poison s
  | .fetchAdd p pkt poison => Sys2Proof.Machine.execFetchAdd p pkt poison s
  | .cas p pkt poison => Sys2Proof.Machine.execCas p pkt poison s
  | .fadd64 p pkt poison => Sys2Proof.Machine.execFadd64 p pkt poison s
  | .fadd32 p pkt poison => Sys2Proof.Machine.execFadd32 p pkt poison s
  | .atomResp p pkt poison => Sys2Proof.Machine.execAtomResp p pkt poison s
  | .postedAdd p pkt poison => Sys2Proof.Machine.execPostedAdd p pkt poison s
  | .ack p pkt poison => Sys2Proof.Machine.execAck p pkt poison s
  | .nak p pkt poison => Sys2Proof.Machine.execNak p pkt poison s
  | .packetReservedType p pkt poison => Sys2Proof.Machine.execPacketReservedType p pkt poison s
  | .outsideCombRead t off len => Sys2Proof.Machine.execOutsideCombRead t off len s
  | .packetForward p hops pkt poison sched => Sys2Proof.Machine.execPacketForward p hops pkt poison sched s
  | .scheduledSlot l frame slot p => Sys2Proof.Machine.execScheduledSlot l frame slot p s
  | .transitSlot l frame slot p => Sys2Proof.Machine.execTransitSlot l frame slot p s
  | .retryTimeout ctx seq => Sys2Proof.Machine.execRetryTimeout ctx seq s
  | .retrySlot p => Sys2Proof.Machine.execRetrySlot p s
  | .openTimeout ctx seq => Sys2Proof.Machine.execOpenTimeout ctx seq s
  | .openCreditSend p flits => Sys2Proof.Machine.execOpenCreditSend p flits s
  | .gapTimer ctx => Sys2Proof.Machine.execGapTimer ctx s
  | .routeDrainStart ports => Sys2Proof.Machine.execRouteDrainStart ports s
  | .routeSwitch => Sys2Proof.Machine.execRouteSwitch s
  | .portFailed p => Sys2Proof.Machine.execPortFailed p s
  | .portTrain p => Sys2Proof.Machine.execPortTrain p s
  | .portTrainDone p r => Sys2Proof.Machine.execPortTrainDone p r s
  | .laneSwap p frame lane spare => Sys2Proof.Machine.execLaneSwap p frame lane spare s
  | .laneSwitch p => Sys2Proof.Machine.execLaneSwitch p s
  | .linkState p pkt poison => Sys2Proof.Machine.execLinkState p pkt poison s
  | .mgmt p pkt poison => Sys2Proof.Machine.execMgmt p pkt poison s
  | .portSpareReplace p => Sys2Proof.Machine.execPortSpareReplace p s
  | .laserLoss d j => Sys2Proof.Machine.execLaserLoss d j s
  | .connectorRemove d => Sys2Proof.Machine.execConnectorRemove d s
  | .connectorInsert d => Sys2Proof.Machine.execConnectorInsert d s
  | .owlcfgWrite q v => Sys2Proof.Machine.execOwlcfgWrite q v s
  | .timeExchange => Sys2Proof.Machine.execTimeExchange s
  | .timeProbe q pkt poison => Sys2Proof.Machine.execTimeProbe q pkt poison s
  | .timeReply q pkt poison => Sys2Proof.Machine.execTimeReply q pkt poison s
  | .exchangeTimeout => Sys2Proof.Machine.execExchangeTimeout s
  | .timeFunctionReset => Sys2Proof.Machine.execTimeFunctionReset s
  | .timeInEdge => Sys2Proof.Machine.execTimeInEdge s
  | .swarmStart job n => Sys2Proof.Machine.execSwarmStart job n s
  | .swData q pkt poison => Sys2Proof.Machine.execSwData q pkt poison s
  | .swTail q pkt poison => Sys2Proof.Machine.execSwTail q pkt poison s
  | .chunkProduce n k => Sys2Proof.Machine.execChunkProduce n k s
  | .swPull q pkt poison => Sys2Proof.Machine.execSwPull q pkt poison s
  | .wgData q pkt poison => Sys2Proof.Machine.execWgData q pkt poison s
  | .wgPull q pkt poison => Sys2Proof.Machine.execWgPull q pkt poison s
  | .waggleTimeout kind n => Sys2Proof.Machine.execWaggleTimeout kind n s
  | .denNoticeCut cn src => Sys2Proof.Machine.execDenNoticeCut cn src s
  | .denNoticeAbandon cn src => Sys2Proof.Machine.execDenNoticeAbandon cn src s
  | .windowRelease n => Sys2Proof.Machine.execWindowRelease n s
  | .cutStart cn => Sys2Proof.Machine.execCutStart cn s
  | .shadowDrain cn => Sys2Proof.Machine.execShadowDrain cn s
  | .cutBarrier cn => Sys2Proof.Machine.execCutBarrier cn s
  | .barrierResult cn => Sys2Proof.Machine.execBarrierResult cn s
  | .commitAcked cn => Sys2Proof.Machine.execCommitAcked cn s
  | .cutWindowEnd cn => Sys2Proof.Machine.execCutWindowEnd cn s
  | .restoreLoad l payload => Sys2Proof.Machine.execRestoreLoad l payload s
  | .restoreDone l => Sys2Proof.Machine.execRestoreDone l s
  | .healthWindowEnd errs low => Sys2Proof.Machine.execHealthWindowEnd errs low s
  | .tileSwap id fails => Sys2Proof.Machine.execTileSwap id fails s
  | .slvSwap id fails => Sys2Proof.Machine.execSlvSwap id fails s
  | .ueSwap id fails => Sys2Proof.Machine.execUeSwap id fails s
  | .scratchpadRowRepair id => Sys2Proof.Machine.execScratchpadRowRepair id s
  | .hbmRowRepair id => Sys2Proof.Machine.execHbmRowRepair id s
  | .hbmLaneReplacement k ch => Sys2Proof.Machine.execHbmLaneReplacement k ch s
  | .laserSwitchover id => Sys2Proof.Machine.execLaserSwitchover id s
  | .keeperSwap k => Sys2Proof.Machine.execKeeperSwap k s
  | .liveTestPatternEnd id fails result => Sys2Proof.Machine.execLiveTestPatternEnd id fails result s
  | .selfTestStart id => Sys2Proof.Machine.execSelfTestStart id s
  | .selfTestEnd id fails result => Sys2Proof.Machine.execSelfTestEnd id fails result s
  | .configRecordWrite k change => Sys2Proof.Machine.execConfigRecordWrite k change s
  | .regulatorTick k errs => Sys2Proof.Machine.execRegulatorTick k errs s
  | .patrolScrub k => Sys2Proof.Machine.execPatrolScrub k s
  | .staticScrub line nerr => Sys2Proof.Machine.execStaticScrub line nerr s
  | .wcEvict line => Sys2Proof.Machine.execWcEvict line s
  | .ceRewrite line => Sys2Proof.Machine.execCeRewrite line s
  | .stackLoss k => Sys2Proof.Machine.execStackLoss k s
  | .deepIdleEntry => Sys2Proof.Machine.execDeepIdleEntry s
  | .deepIdleExit => Sys2Proof.Machine.execDeepIdleExit s
  | .v12Valid made => Sys2Proof.Machine.execV12Valid made s
  | .v48Valid mV => Sys2Proof.Machine.execV48Valid mV s
  | .powerLoss v12 => Sys2Proof.Machine.execPowerLoss v12 s
  | .bootVerify => Sys2Proof.Machine.execBootVerify s
  | .hbmReady => Sys2Proof.Machine.execHbmReady s
  | .fabricReady lasers => Sys2Proof.Machine.execFabricReady lasers s
  | .packageReady => Sys2Proof.Machine.execPackageReady s
  | .resetNAssert => Sys2Proof.Machine.execResetNAssert s
  | .resetNRelease => Sys2Proof.Machine.execResetNRelease s
  | .glbReset w v => Sys2Proof.Machine.execGlbReset w v s
  | .watchdogExpiry k => Sys2Proof.Machine.execWatchdogExpiry k s
  | .thermalTrip die temp => Sys2Proof.Machine.execThermalTrip die temp s
  | .thermalTripExit temp => Sys2Proof.Machine.execThermalTripExit temp s
  | .refclkLoss => Sys2Proof.Machine.execRefclkLoss s
  | .refclkReturn => Sys2Proof.Machine.execRefclkReturn s
  | .pllLockFail t n d => Sys2Proof.Machine.execPllLockFail t n d s
  | .overlimit watts => Sys2Proof.Machine.execOverlimit watts s
  | .hot temp die => Sys2Proof.Machine.execHot temp die s
  | .sensorOpen die => Sys2Proof.Machine.execSensorOpen die s
  | .registerWrite w o v => Sys2Proof.Machine.execRegisterWrite w o v s
  | .loReadLatch w o => Sys2Proof.Machine.execLoReadLatch w o s
  | .mgmtStatus => Sys2Proof.Machine.execMgmtStatus s
  | .mgmtIdent => Sys2Proof.Machine.execMgmtIdent s
  | .mgmtPower => Sys2Proof.Machine.execMgmtPower s
  | .attestReq asker nonce pec => Sys2Proof.Machine.execAttestReq asker nonce pec s
  | .attestReportReady rsa slh => Sys2Proof.Machine.execAttestReportReady rsa slh s
  | .attestRead off pec => Sys2Proof.Machine.execAttestRead off pec s
  | .imageWrite asker off data pec => Sys2Proof.Machine.execImageWrite asker off data pec s
  | .imageCommit asker len img pec => Sys2Proof.Machine.execImageCommit asker len img pec s
  | .imageState => Sys2Proof.Machine.execImageState s
  | .imageTransferTimeout => Sys2Proof.Machine.execImageTransferTimeout s
  | .monStatus => Sys2Proof.Machine.execMonStatus s
  | .monVersion => Sys2Proof.Machine.execMonVersion s
  | .monRegisterRead o => Sys2Proof.Machine.execMonRegisterRead o s
  | .monRegisterWrite a => Sys2Proof.Machine.execMonRegisterWrite a s
  | .monCounters b => Sys2Proof.Machine.execMonCounters b s
  | .monSpareMap => Sys2Proof.Machine.execMonSpareMap s
  | .monEventLog n => Sys2Proof.Machine.execMonEventLog n s
  | .monSelfTest a => Sys2Proof.Machine.execMonSelfTest a s
  | .monBaudRate rate => Sys2Proof.Machine.execMonBaudRate rate s
  | .monBaudApply => Sys2Proof.Machine.execMonBaudApply s
  | .monTokenChunk a => Sys2Proof.Machine.execMonTokenChunk a s
  | .monTokenEnd keysOk rsaOk slhOk => Sys2Proof.Machine.execMonTokenEnd keysOk rsaOk slhOk s
  | .monUnknownCommand bad => Sys2Proof.Machine.execMonUnknownCommand bad s
  | .monBreak => Sys2Proof.Machine.execMonBreak s
  | .monRxStuck => Sys2Proof.Machine.execMonRxStuck s
  | .monTxFault => Sys2Proof.Machine.execMonTxFault s
  | .smbLineFault high => Sys2Proof.Machine.execSmbLineFault high s
  | .outputLineFault trip high => Sys2Proof.Machine.execOutputLineFault trip high s
  | .tapBypass => Sys2Proof.Machine.execTapBypass s
  | .tapIdcode => Sys2Proof.Machine.execTapIdcode s
  | .tapSamplePreload ext cells => Sys2Proof.Machine.execTapSamplePreload ext cells s
  | .tapExtest ext cells => Sys2Proof.Machine.execTapExtest ext cells s
  | .tapClamp => Sys2Proof.Machine.execTapClamp s
  | .tapHighz => Sys2Proof.Machine.execTapHighz s
  | .tapSetupAccess code o v => Sys2Proof.Machine.execTapSetupAccess code o v s
  | .trstNAssert => Sys2Proof.Machine.execTrstNAssert s
  | .hbmAccessComplete n => Sys2Proof.Machine.execHbmAccessComplete n s
  | .unitFailure kind unit => Sys2Proof.Machine.execUnitFailure kind unit s
  | .calibrationRequest code dur deadline tiles slvs ues ports => Sys2Proof.Machine.execCalibrationRequest code dur deadline tiles slvs ues ports s
  | .gscManagerTakeover => Sys2Proof.Machine.execGscManagerTakeover s
  | .eclPortTrain q lanes => Sys2Proof.Machine.execEclPortTrain q lanes s
  | .hotEnd temp die => Sys2Proof.Machine.execHotEnd temp die s
  | .overlimitEnd watts => Sys2Proof.Machine.execOverlimitEnd watts s
  | .sensorReadsAgain die => Sys2Proof.Machine.execSensorReadsAgain die s
  | .monRxRelease => Sys2Proof.Machine.execMonRxRelease s
  | .monTxRetry => Sys2Proof.Machine.execMonTxRetry s
  | .smbLineRelease => Sys2Proof.Machine.execSmbLineRelease s
  | .trstNRelease => Sys2Proof.Machine.execTrstNRelease s

end Sys2Proof.Machine
end

