-- ==== Sys2Proof/Safety.lean ====
section
/-! DEFINITION. What counts as a safe state and a safe run of the block. -/

namespace Sys2Proof.Safety
open Sys2Proof.Machine

/-- A state with another package; the queue and the clock stay. -/
abbrev withPkg (s : State) (p : Pkg) : State := { s with pkg := p }

/-- The count is a 64-bit number and the phase lies within a tick (R265). -/
def ClockOk (s : State) : Prop := s.clk.gsc < 2 ^ 64 ∧ s.clk.sub < 34

/-- Package memory and host memory are in their canonical form. -/
def MemOk (s : State) : Prop := memWf s.pkg.mem = true ∧ memWf s.pkg.host = true

/-- A step that goes on: no fault, no refusal. -/
def GoesOn (s : State) : Prop := ∃ t, step s = .next t

/-- What holds of the package after a reset of kinds 1 to 4 (Table 18.3, R435, R436): HBM contents are kept and every byte outside HBM
reads zero; plans stay loaded; the package store, the stream contexts and host memory are kept; the ledger, the operations in flight, the
launches, the response store and the outstanding packets are emptied; the den is disarmed; the count runs on. -/
def ResetDone (s t : State) (kind : Nat) : Prop :=
  (∀ a, mget t.pkg.mem a = if isHbm a then mget s.pkg.mem a else 0) ∧ t.pkg.plans = s.pkg.plans ∧ t.pkg.store = s.pkg.store ∧
  t.pkg.ctxs = s.pkg.ctxs ∧ t.pkg.host = s.pkg.host ∧ t.pkg.ledger = [] ∧ t.pkg.ops = [] ∧ t.pkg.launches = [] ∧ t.pkg.resps = [] ∧
  t.pkg.outs = [] ∧ t.pkg.den = {} ∧ t.clk = s.clk ∧ rfld t.pkg rGlbResetcause 2 0 = kind ∧ stageOf t.pkg = 0

/-- The monitor hears a command: the 12 V input is valid, the receiver is in use, and no command runs (R479, R480, R482). -/
def Hears (p : Pkg) : Prop := live p = true ∧ p.pins.rxIgnored = false ∧ monBusy p = false

/-- A packet of type `ty` for this place arrives whole on a port that carries it (R291, R293). -/
def Arrives (p : Pkg) (q : Nat) (pkt : List Byte) (ty : Nat) : Prop :=
  (parseHdr pkt).ty = ty ∧ carries p q ty = true ∧ placeOf (parseHdr pkt).daddr = ownPlace p ∧ packetOk pkt = true

/-- A packet that goes on to another place by port r with one more hop (R318). -/
def onward (c : Clock) (r hops : Nat) (pkt : List Byte) : Wire :=
  { port := r, bytes := pkt, hops := hops + 1, tick := c.gsc, poison := false }

/-- The package after a packet for it has been sampled by the owl; the credit of an open one goes back (R303, R336). -/
abbrev heard (p : Pkg) (c : Clock) (q : Nat) (pkt : List Byte) : Pkg := creditBack (owl p c q false pkt) q pkt

/-- The package with no probe of its own awaiting a reply. -/
def noStamp (p : Pkg) : Pkg := { p with time := { p.time with t1 := none } }

/-- A packet's sequence number is within the window above RXBASE and not marked: its effect is made now (R295). -/
def Fresh (p : Pkg) (h : Hdr) : Prop := seqAhead (ctx p h.rctx) h.seq < 256 ∧ (ctx p h.rctx).rxmap.getLsbD (seqAhead (ctx p h.rctx) h.seq) = false

/-- Below RXBASE, or marked: a duplicate (R295). -/
def Duplicate (p : Pkg) (h : Hdr) : Prop :=
  2 ^ 31 ≤ seqAhead (ctx p h.rctx) h.seq ∨
    (seqAhead (ctx p h.rctx) h.seq < 256 ∧ (ctx p h.rctx).rxmap.getLsbD (seqAhead (ctx p h.rctx) h.seq) = true)

/-- After a packet's effect (from `p` to `p'`) its number is marked, and its DSO object counts (R295, R304). -/
def took (p p' : Pkg) (c : Clock) (h : Hdr) : Pkg :=
  let q := setCtx p' h.rctx (markSeq (ctx p' h.rctx) (seqAhead (ctx p h.rctx) h.seq) c.gsc)
  if bit h.flags 2 then countDso q (some h.dso) else q

/-- A served access that is not refused: n bytes in HBM's user range or in the slice of a tile in service, in a package that is not
retired and has no erroneous lines (R288, R289). -/
def PlainAccess (p : Pkg) (a n : Nat) : Prop :=
  retired p = false ∧ p.badLines = [] ∧ p.ceLines = [] ∧ 0 < n ∧ n ≤ 4096 ∧ (target p a n = some .hbm ∨ ∃ t, target p a n = some (.slice t))

/-- A new request that is applied now: its number is fresh, no earlier copy of it waits for HBM, and the response store has room if it
needs a response (R295, R299). -/
def New (p : Pkg) (h : Hdr) (resp : Bool) : Prop :=
  Fresh p h ∧ underWay p h = false ∧ (resp = true → respsHeld p < 4096)

/-- A management payload held for firmware (R330). -/
def withMgmt (p : Pkg) (e : Nat × List Byte) : Pkg := { p with mgmt := p.mgmt ++ [e] }

/-- A packet with the retry limits of its traffic entry (R297). -/
def limits (o : OutPkt) (e : Slot) : OutPkt := { o with rto := e.rto, rlim := e.rlim }

/-- Credit for n flits comes back to a port, of 256 in all (R303). -/
def credited (p : Pkg) (c : Clock) (q n : Nat) : Pkg :=
  let p := openSlot p c q
  let x := sget p.ports q {}
  { p with ports := sset p.ports q { x with credit := min 256 (x.credit + n) } }

/-- The packets that are due on a port at the start of a retry slot: this package's own and those that pass through (R297, R322). -/
def dueOnes (p : Pkg) (q start : Nat) : List Waiting :=
  let isDue (o : OutPkt) : Bool := !o.opn && mayResend o && outPort p o == q
    && (match o.due with
        | some d => decide (d ≤ start)
        | none => false)
  ((p.outs ++ p.resps.map (fun r => r.pkt)).filter isDue).map Waiting.own
    ++ (p.fwd.filter (fun w => w.port == q && !bit (field w.bytes 1 1) 0 && decide (w.tick ≤ start))).map Waiting.pass

/-- The open packets that may leave on a port: those that pass through, then responses, then requests (R303). -/
def openOnes (p : Pkg) (q : Nat) : List Waiting :=
  let goes (o : OutPkt) : Bool := o.opn && o.ready && outPort p o == q && (!o.sent.isSome || (o.due.isSome && mayResend o))
  (p.fwd.filter (fun w => w.port == q && bit (field w.bytes 1 1) 0)).map Waiting.pass
    ++ ((p.resps.map (fun r => r.pkt) ++ p.outs).filter goes).map Waiting.own

/-- A placed action whose tick has come and that has not started, or whose duration has passed (R278, R456). -/
def DueToStart (s : State) (id : Nat) (x : Placed) : Prop := findPlaced s.pkg id = some x ∧ x.started = false ∧ x.stage = 0 ∧ x.start ≤ s.clk.gsc
def DueToEnd (s : State) (id : Nat) (x : Placed) : Prop := findPlaced s.pkg id = some x ∧ x.started = true ∧ x.start + x.dur ≤ s.clk.gsc

/-- A descriptor in flight that the ring engine carries out next, of a listed kind and with its reserved fields zero, in a package that is not
retired (R397, R402). -/
def Begins (p : Pkg) (id kind : Nat) (o : Op) : Prop :=
  findOp p id = some o ∧ opWaits p o = true ∧ field o.desc 0 1 = kind ∧ descOk o.desc = true ∧ retired p = false

/-- A host access is activity: `PWR.IDLE.DELAY` counts anew from it (R426). -/
def hostActive (p : Pkg) (c : Clock) : Pkg := { p with active := c.gsc }

/-- A cut at its barrier, and one whose first commit copy is to be written (R372). -/
def atBarrier (x : Cut) : Cut := { x with phase := 5, shard := [] }
def atCommit (p : Pkg) (x : Cut) : Cut := { x with phase := 6, shard := writesAt (polTarget x.pol 2).2 (cutCommit p x 0) }

/-- What a member contributes to a cut's barrier: 1 when its shard and header are written, else 0 (R372). -/
def barrierValue (p : Pkg) (x : Cut) : WgVal :=
  { ident := barrierIdent x, opr := 2, dt := 3, nelem := 1, src := gSelf p (polGroup x.pol), hop := 0, data := natLe 8 (b2n (x.phase == 4)), fl := 0 }

/-- This member's value of a job's waggle sum (R173, R364). -/
def sumValue (p : Pkg) (j : Job) : WgVal :=
  { ident := jobIdent p j, opr := 0, dt := j.sparse.sumDt, nelem := 1, src := gSelf p j.sparse.group, hop := 0, data := natLe 8 j.sparse.loc.toNat, fl := 0 }

/-- The bytes of a member's own part of a chunk. -/
def ownPart (o : SwOp) (k : Nat) : Nat × Nat := (o.da + o.daBytes * (65536 * k / o.w), o.daBytes * (o.clen k / o.w))

/-- A produced chunk: its own part read, kept in the staging area, counted, and noted (R349, R353); both ways are charged to partition 0. -/
def produced (p : Pkg) (c : Clock) (n k : Nat) (o : SwOp) (d : List Byte × Nat) : Pkg :=
  (stage (chargeSw (noteCes p [ownPart o k]) o false (ownPart o k).1 (ownPart o k).2) c o k d).elim p (fun q => modChunk (bump q rSwmChunks) n k (fun x => { x with part := some d }))

/-- One more pull round of an operation. -/
def pulled (o : SwOp) : SwOp := { o with wpulls := o.wpulls + 1 }

/-- A stack's regulator has run in this tick. -/
def ticked (p : Pkg) (c : Clock) (k : Nat) : Pkg := { p with regTick := sset p.regTick k c.gsc }

/-! Tile instructions -/

/-- The package as the checks and the work of an issuing instruction find it: its word has left its queue, and memory reads as it stood
before the writes that retired in this cycle (R21, R33). -/
def issuing (s : State) (t q w cyc : Nat) : Pkg := { headIssued s.pkg t q w cyc 1 with mem := oldView s.pkg s.clk }

/-- A command that issues the head word of queue q when its opcode is `op`: where the checks `go` of its operation pass, the word leaves
its queue and the instruction is in flight; where they find a plan fault, the tile stops with it and nothing is in flight (R21, R31, R47).
`after` is what follows at once. -/
def IssuesAs (i : Instr) (t q op : Nat) (go : Pkg → Nat → Tile → Nat → Nat → Chk (Pkg × InFl)) (after : Pkg → Clock → Nat → Pkg) : Prop :=
  ∀ (s : State) (l : Nat) (x : Tile) (w cyc : Nat), ready s.pkg s.clk t q = some (l, x, w, cyc) → opcodeOf w = op →
    (∀ p f, go (issuing s t q w cyc) l (x.headTaken q w cyc 1) w cyc = .ok (p, f) →
      exec i s = .next (withPkg s (after (enterFlight (newView s.pkg s.clk p) t q x.seq w cyc f) s.clk x.seq))) ∧
    (∀ e, go (issuing s t q w cyc) l (x.headTaken q w cyc 1) w cyc = .error e → e.cause ≠ 0x100 →
      exec i s = .next (withPkg s (after (planFault (headIssued s.pkg t q w cyc 1) s.clk t e.cause q e.slot e.detail) s.clk x.seq)))

/-- Nothing follows an issue. -/
def nothing (p : Pkg) (_ : Clock) (_ : Nat) : Pkg := p

/-- What a token counts in all: what waits may take now and the signals of this cycle (R23). -/
def tokCount (x : Tile) (n : Nat) : Nat := (sget x.toks n {}).val + (sget x.toks n {}).pend

/-- An instruction has retired (R22, R23, R25, R33): it is no longer in flight; memory changed only where its effects store; its signal
token counts one more, from the next cycle on, or, above 255, the tile stopped with plan fault TOKEN_OVERFLOW. -/
def Retired (s u : State) (t n : Nat) (f : InFl) (cyc : Nat) : Prop :=
  findInfl u.pkg t n = none ∧ u.clk = s.clk ∧ u.pending = s.pending ∧
  (∀ a, (∀ r ∈ effStores f.effs, a < r.1 ∨ r.1 + r.2 ≤ a) → mget u.pkg.mem a = mget s.pkg.mem a) ∧
  (∀ k, k ≠ stok f.word.toNat → sget (tile u.pkg t).toks k {} = sget (tile s.pkg t).toks k {}) ∧
  (stok f.word.toNat = 0 → (tile u.pkg t).toks = (tile s.pkg t).toks) ∧
  (stok f.word.toNat ≠ 0 → tokCount (tile s.pkg t) (stok f.word.toNat) < 255 →
    tokCount (tile u.pkg t) (stok f.word.toNat) = tokCount (tile s.pkg t) (stok f.word.toNat) + 1 ∧
    ((sget (tile s.pkg t).toks (stok f.word.toNat) {}).pcyc ≤ cyc →
      (tile u.pkg t).tokAt (stok f.word.toNat) cyc = (tile s.pkg t).tokAt (stok f.word.toNat) cyc ∧
      (tile u.pkg t).tokAt (stok f.word.toNat) (cyc + 1) = tokCount (tile s.pkg t) (stok f.word.toNat) + 1)) ∧
  (stok f.word.toNat ≠ 0 → 255 ≤ tokCount (tile s.pkg t) (stok f.word.toNat) →
    (tile u.pkg t).stopped = true ∧ rget u.pkg (tReg s.pkg t + 8) % 256 = 0x03)

/-- A word moved on by a tile's queue: the tile runs, has not stopped, and holds the word at the head of queue q. -/
def AtHead (p : Pkg) (t q : Nat) (h : W128) : Prop :=
  (tile p t).running = true ∧ (tile p t).stopped = false ∧ (tile p t).queue q = h :: ((tile p t).queue q).drop 1

/-! Core instructions -/

/-- A core runs its next instruction: nothing holds it back and its pc may be fetched from (R211, R216). -/
def Runs (s : State) (k : Nat) : Prop :=
  coreReady s.pkg s.clk k (Machine.core s.pkg k) = true ∧ (Machine.core s.pkg k).fetchOk = true

/-- The core with its pc on the next instruction; the line it fetched is the most recently used of its set (R211, R216). -/
def stepped (s : State) (k : Nat) : Core :=
  let x := Machine.core s.pkg k
  { x.fetchLine with pc := x.pc + 4 }

/-- A state with another core k; everything else stays. -/
def withCore (s : State) (k : Nat) (x : Core) : State := withPkg s (setCore s.pkg k x)

/-- A core that has completed an instruction holds nothing that HBM brought for it. -/
def atRest (x : Core) : Core := { x with grant := [] }

/-- A state in which core k has completed an instruction; everything else stays. -/
def goneOn (s : State) (k : Nat) (x : Core) : State := withCore s k (atRest x)

/-- An exception of core k to keeper firmware (R229). -/
def excepted (p : Pkg) (k sub pc : Nat) : Pkg :=
  let e : CoreExc := { core := k, subcause := sub, pc := pc }
  { p with excs := p.excs ++ [e] }

/-- A core instruction raised an exception to keeper firmware with this subcause (R229): nothing else happens, but that the core is done
with what HBM brought for the instruction. -/
def raised (s : State) (k sub : Nat) : State :=
  let x := Machine.core s.pkg k
  withPkg s (excepted (endAccess s.pkg k x) k sub x.pc)

/-- Memory as an instruction of core k that issues now reads it: what stood before the writes of other units in this cycle, and the core's
own stores (R33, R217). -/
def seen (s : State) (k : Nat) : Mem := coreView s.pkg s.clk (stepped s k)

/-- n bytes that lie in the slice of tile k. -/
def InSlice (k a n : Nat) : Prop := sliceBase k ≤ a ∧ a + n ≤ sliceBase k + 0x1E00000

/-- n bytes in the slice of a scheduled forager, in a package without erroneous lines (Table 9.3). -/
def OwnBytes (s : State) (k a n : Nat) : Prop :=
  k < 128 ∧ (Machine.core s.pkg k).sched = true ∧ s.pkg.badLines = [] ∧ s.pkg.ceLines = [] ∧ 0 < n ∧ sliceBase k ≤ a ∧
    a + n ≤ sliceBase k + 0x1E00000

/-- n bytes of a scratchpad slice that service-mode code reaches: one in service, or the own one of a spare tile's forager; in a package that
is not retired and has no erroneous lines (R210, R287, R288). -/
def SliceBytes (s : State) (k a n : Nat) : Prop :=
  (Machine.core s.pkg k).sched = false ∧ retired s.pkg = false ∧ s.pkg.badLines = [] ∧ s.pkg.ceLines = [] ∧ 0 < n ∧ n ≤ 4096 ∧
    ((k < 200 ∧ ∃ t, target s.pkg a n = some (.slice t)) ∨ (200 ≤ k ∧ inOwn k a n = true))

/-- Aligned accesses of these kinds. -/
def OwnAccess (s : State) (k a n : Nat) : Prop := OwnBytes s k a n ∧ a % n = 0
def SliceAccess (s : State) (k a n : Nat) : Prop := SliceBytes s k a n ∧ a % n = 0

/-- What core k's instruction reads memory as: in scheduled mode as `seen`, in service mode as it stands. -/
def viewOf (s : State) (k : Nat) : Mem := if (Machine.core s.pkg k).sched then seen s k else s.pkg.mem

/-- Element i of the group at vN. -/
def vElemAt (k : Nat) (x : Core) (r i : Nat) : W64 := elemOf (groupBits k x r x.g) x.sewBits i

/-! Jobs of the engines -/

/-- A sparse step has begun (R155, R173): what it leaves is staged for its last cycle, and its HBM reads wait in partition 0. -/
def stepBegun (p : Pkg) (x : StepCx) (dur : Nat) (spans : List (Nat × Nat × Bool)) (o : StepOut) : Pkg :=
  modJob (chargeJob p x.job false ((spans.filter (fun s => s.2.2)).map (fun s => (x.at_ s.1, s.2.1)))) x.job.id
    (fun k => { k with staged := some (o, stepStart p x + dur) })

/-- A sparse step has ended (R155, R172, R173): its stores are in memory and its packets leave, the program moves on, its flags and pivot
events join the job's. -/
def stepDone (p : Pkg) (c : Clock) (x : StepCx) (o : StepOut) (due : Nat) : Pkg :=
  let fin := max due x.job.late
  let sp : Sparse := { o.sp with free := fin, piv := o.sp.piv ++ o.piv }
  let p := stepOuts (chargeJob { p with mem := applyWs p.mem o.ws } x.job true (storeRanges o.ws)) x o.ws
  let p := modJob p x.job.id (fun k =>
    { k with sparse := sp, staged := none, flags := k.flags ||| o.fl, piv := k.piv + o.piv.length, ends := fin })
  o.sends.foldl (fun q e => sendStep q c x e) p

/-- A step's operands lie within reach (R152), and each packet it sends within an outbound window of class PLAN (R309). -/
def StepSound (s : State) (x : StepCx) (spans : List (Nat × Nat × Bool)) (o : StepOut) : Prop :=
  (∀ e ∈ spans, (slvMap x.mask x.job.unit e.1 e.2.1).isSome = true) ∧
  ∀ e ∈ o.sends, windowOk s.pkg e.2.daddr e.2.payload.length 1 clsPlan = true

/-- A command that runs the step at a job's program position when its operation is `op`, in a package without erroneous lines. When its
start cycle has come it begins, and where its time has passed and none of its traffic waits, it ends at once; a step that has begun
ends when its time has passed and none of its traffic waits; before its start, and before its end, the command does nothing. An
operand out of reach is plan fault RANGE. -/
def StepRuns (i : Instr) (n op : Nat) (dur : Pkg → StepCx → Nat) (spans : StepCx → List (Nat × Nat × Bool)) (act : StepCx → StepOut) : Prop :=
  ∀ (s : State) (x : StepCx), stepAt s.pkg n op = some x → (op = 0x14 → x.job.sparse.waitSum = false) →
    s.pkg.badLines = [] → s.pkg.ceLines = [] →
    let cyc := jobCycle s.pkg s.clk x.job
    let due := stepStart s.pkg x + dur s.pkg x
    let begun := stepBegun s.pkg x (dur s.pkg x) (spans x) (act x)
    (x.job.staged = none → stepStart s.pkg x ≤ cyc → StepSound s x (spans x) (act x) →
      (cyc < max due x.job.late → exec i s = .next (withPkg s begun)) ∧
      (owesHbm begun (.job n) = true → exec i s = .next (withPkg s begun)) ∧
      (max due x.job.late ≤ cyc → owesHbm begun (.job n) = false → exec i s = .next (withPkg s (stepDone begun s.clk x (act x) due)))) ∧
    (∀ o d, x.job.staged = some (o, d) → max d x.job.late ≤ cyc → owesHbm s.pkg (.job n) = false →
      exec i s = .next (withPkg s (stepDone s.pkg s.clk x o d))) ∧
    (∀ o d, x.job.staged = some (o, d) → cyc < max d x.job.late → exec i s = .next s) ∧
    (x.job.staged = none → cyc < stepStart s.pkg x → exec i s = .next s) ∧
    (x.job.staged = none → stepStart s.pkg x ≤ cyc → (∃ e ∈ spans x, (slvMap x.mask x.job.unit e.1 e.2.1).isNone = true) →
      exec i s = .next (withPkg s (jobFault s.pkg s.clk x.job x.r.jstat 0x05)))

/-- A job that may start, found by its number, of an SLV or a UE (R154, R155, R181). -/
def Startable (s : State) (n : Nat) (j : Job) (ue : Bool) : Prop :=
  findJob s.pkg n = some j ∧ j.ue = ue ∧ mayStart s.pkg s.clk j = true

end Sys2Proof.Safety
end

