-- ==== Sys2Proof/Certificates/Slice0/Obligations.lean ====
section
/-! DEFINITION. The statements for the provers: what the commands do and what every step keeps. -/

open Sys2Proof Sys2Proof.Machine

/-- A step takes the command at the front of the queue and answers what that command's meaning answers on the state with the rest of
the queue. -/
def Obligations.StepRunsFront : Prop :=
  ∀ (s : State) (c : Instr) (rest : List Instr), s.pending = c :: rest → step s = exec c { s with pending := rest }

/-- On an empty queue time passes (log entry 1): one unit, 34 (grade H) or 31 (grade S) to a tick; at the end of a tick the count
advances by one, modulo 2^64; the cycles since the last reset count on (R228); and while the 12 V input is not valid everything
stands. Nothing else changes. -/
def Obligations.IdleStepPassesTime : Prop :=
  ∀ s : State, s.pending = [] → ∃ t, step s = .next t ∧ t.pending = [] ∧
    (live s.pkg = false → t.pkg = s.pkg ∧ t.clk = s.clk) ∧ (live s.pkg = true → t.pkg = { s.pkg with since := s.pkg.since + 1 }) ∧
    (live s.pkg = true → s.clk.sub + 1 < tickUnits s.pkg → t.clk.gsc = s.clk.gsc ∧ t.clk.sub = s.clk.sub + 1) ∧
    (live s.pkg = true → tickUnits s.pkg ≤ s.clk.sub + 1 → t.clk.gsc = (s.clk.gsc + 1) % 2 ^ 64 ∧ t.clk.sub = 0)

/-- No command is refused and none ends the machine: from every state a step goes on. First in, first out: a step removes exactly the
command at the front, and no meaning touches the queue. -/
def Obligations.StepsGoOn : Prop :=
   (∀ s : State, Safety.GoesOn s) ∧
   (∀ (s t : State), step s = .next t → t.pending = s.pending.drop 1)

/-- Only an estimate of the offset (R268) and the loss of power (Table 18.3) change the clock; every other command leaves the count and
its phase. -/
def Obligations.ClockChangesOnlyBy : Prop :=
  ∀ (c : Instr) (s t : State), exec c s = .next t →
    (match c with
      | .timeReply _ _ _ => False
      | .powerLoss _ => False
      | _ => True) → t.clk = s.clk

/-- The count is a 64-bit number and its phase lies within a tick: every step keeps this. -/
def Obligations.ClockInvariant : Prop :=
  ∀ s t : State, Safety.ClockOk s → step s = .next t → Safety.ClockOk t

/-- The clock is in order at reset. -/
def Obligations.ClockInvariantAtReset : Prop := Safety.ClockOk State.reset

/-- A packet's header survives its encoding (R291, Table 12.4): for every header whose fields fit, and a payload of the length it
states, the packet formed of them reads back as the same header and the same payload, and its CRC holds. -/
def Obligations.PacketsRoundTrip : Prop :=
  ∀ (h : Hdr) (payload : List Byte), h.ty < 256 → h.flags < 256 → h.len < 2 ^ 13 → h.seq < 2 ^ 32 → h.daddr < 2 ^ 64 → h.src < 2 ^ 18 →
    h.rctx < 2 ^ 16 → h.sctx < 2 ^ 16 → h.dso < 2 ^ 14 → h.nreason < 256 → h.aseq < 2 ^ 32 → h.op0 < 2 ^ 64 → h.op1 < 2 ^ 64 →
    payload.length = h.len →
    parseHdr (mkPacket h payload) = h ∧ payloadOf (mkPacket h payload) = payload ∧ packetOk (mkPacket h payload) = true ∧
      flitsOf (mkPacket h payload) = 1 + (h.len + 63) / 64

/-- State.reset (R255, R265, R417, R435; Tables 17.5, 17.9, 20.11): nothing waits, every byte of memory reads zero, no operation,
launch or ledger entry exists, the count is 0, the package is at stage 0 without READY, neither input is valid, the alarm threshold
is 7,200 W and the monitor runs at 115,200 baud. -/
def Obligations.ResetState : Prop :=
  State.reset.pending = [] ∧ (∀ a, mget State.reset.pkg.mem a = 0) ∧ State.reset.pkg.ops = [] ∧ State.reset.pkg.launches = [] ∧
  State.reset.pkg.ledger = [] ∧ State.reset.clk.gsc = 0 ∧ stageOf State.reset.pkg = 0 ∧ rbit State.reset.pkg rGlbStatus 0 = false ∧
  rfld State.reset.pkg rPwrStatus 1 0 = 0 ∧ rget State.reset.pkg rPwrLimit = 7200 ∧ rget State.reset.pkg rDbgMoncfg = 115200

/-- `V12_VALID` and `V48_VALID` (R430) complete from every state, the second for 40 to 60 V: V12OK, or V48OK and the voltage, are set;
no register but `PWR.STATUS` and `PWR.INPUT`, no memory, no operation changes. R431: when a valid input is lost, every operation
ends without a completion entry (host memory stays as it is), HBM, scratchpad, comb and panel-store contents are lost, and the
package store is kept. The count restarts from 0 (Table 18.3). -/
def Obligations.SuppliesComeAndGo : Prop :=
   ((∀ (s : State) (made : Factory), ∃ t, exec (.v12Valid made) s = .next t ∧ rbit t.pkg rPwrStatus 1 = true ∧
      (∀ o, o ≠ rPwrStatus → rget t.pkg o = rget s.pkg o) ∧ t.pkg.mem = s.pkg.mem ∧ t.pkg.ops = s.pkg.ops) ∧
    (∀ (s : State) (mV : Nat), 40000 ≤ mV → mV ≤ 60000 → ∃ t, exec (.v48Valid mV) s = .next t ∧ rbit t.pkg rPwrStatus 0 = true ∧
      rfld t.pkg rPwrInput 15 0 = mV ∧ (∀ o, o ≠ rPwrStatus → o ≠ rPwrInput → rget t.pkg o = rget s.pkg o) ∧
      t.pkg.mem = s.pkg.mem ∧ t.pkg.ops = s.pkg.ops ∧ t.pkg.store = s.pkg.store)) ∧
   (∀ (s : State) (v12 : Bool), rbit s.pkg rPwrStatus (b2n v12) = true → ∃ t, exec (.powerLoss v12) s = .next t ∧
      (∀ a, mget t.pkg.mem a = 0) ∧ t.pkg.ops = [] ∧ t.pkg.launches = [] ∧ t.pkg.jobs = [] ∧ t.pkg.ledger = [] ∧ t.pkg.plans = [] ∧
      t.pkg.host = s.pkg.host ∧ t.pkg.store = s.pkg.store ∧ t.clk.gsc = 0 ∧ stageOf t.pkg = 0 ∧ rbit t.pkg rPwrStatus (b2n v12) = false)

/-- The resets of kinds 1, 2 and 4: RESET_N low (R435), the keyed write of `GLB.RESET` while its lock is clear (R423), and the exit
from thermal trip below `PWR.TWARN` (R438), each with the 12 V input valid; the first two while the package is not tripped, the
second while RESET_N is not low (R439). R417, R422, R423: while `GLB.LOCK.RESET` is set, with another KEY, or with PKG zero, a
write of `GLB.RESET` changes nothing. -/
def Obligations.ResetKinds : Prop :=
   ((∀ s : State, live s.pkg = true → s.pkg.pins.tripped = false →
      ∃ t, exec .resetNAssert s = .next t ∧ Safety.ResetDone s t 1 ∧ t.pkg.pins.resetLow = true) ∧
    (∀ (s : State) (w : Fin 4) (v : W32), live s.pkg = true → s.pkg.pins.tripped = false → s.pkg.pins.resetLow = false → rbit s.pkg rGlbLock 0 = false → v.toNat / 2 ^ 16 = 0x5A5A →
      bit v.toNat 0 = true → ∃ t, exec (.glbReset w v) s = .next t ∧ Safety.ResetDone s t 2) ∧
    (∀ (s : State) (temp : Nat), s.pkg.pins.tripped = true → sext 16 temp < sext 16 (rget s.pkg rPwrTwarn) →
      ∃ t, exec (.thermalTripExit temp) s = .next t ∧ Safety.ResetDone s t 4 ∧ t.pkg.pins.tripped = false) ∧
    (∀ s : State, ∃ t, exec .resetNRelease s = .next t ∧ t.pkg.pins.resetLow = false ∧ t.pkg.regs = s.pkg.regs ∧ t.pkg.mem = s.pkg.mem)) ∧
   (∀ (s : State) (w : Fin 4) (v : W32), (rbit s.pkg rGlbLock 0 = true ∨ v.toNat / 2 ^ 16 ≠ 0x5A5A ∨ bit v.toNat 0 = false) → exec (.glbReset w v) s = .next s)

/-- R424, R473: OVERLIMIT, HOT and SENSOPEN rise and fall with their causes; the counts of OVERLIMIT and HOT rise when the bit is set.
No memory and no operation changes. R438: at its threshold a die trips the package: operations end without a completion entry, HBM
is in self-refresh with its contents kept, and no port and no ECL port carries anything. The package then ignores RESET_N low and
the keyed reset write. -/
def Obligations.AlarmsAndTrip : Prop :=
   ((∀ (s : State) (w : Nat), live s.pkg = true → rget s.pkg rPwrLimit < w → rbit s.pkg rPwrStatus 3 = false →
      ∃ t, exec (.overlimit w) s = .next t ∧ rbit t.pkg rPwrStatus 3 = true ∧
        rget t.pkg rPwrOvercnt = (rget s.pkg rPwrOvercnt + 1) % 2 ^ 32 ∧ t.pkg.mem = s.pkg.mem ∧ t.pkg.ops = s.pkg.ops) ∧
    (∀ (s : State) (w : Nat), live s.pkg = true → w ≤ rget s.pkg rPwrLimit →
      ∃ t, exec (.overlimitEnd w) s = .next t ∧ rbit t.pkg rPwrStatus 3 = false ∧ t.pkg.mem = s.pkg.mem ∧ t.pkg.ops = s.pkg.ops) ∧
    (∀ (s : State) (temp : Nat) (die : Fin 48), live s.pkg = true → sext 16 (rget s.pkg rPwrTwarn) < sext 16 temp → rbit s.pkg rPwrStatus 4 = false →
      ∃ t, exec (.hot temp die) s = .next t ∧ rbit t.pkg rPwrStatus 4 = true ∧ rfld t.pkg rPwrTemp 15 0 = temp % 2 ^ 16 ∧
        rfld t.pkg rPwrTemp 21 16 = die ∧ rget t.pkg rPwrHotcnt = (rget s.pkg rPwrHotcnt + 1) % 2 ^ 32 ∧ t.pkg.mem = s.pkg.mem) ∧
    (∀ (s : State) (temp : Nat) (die : Fin 48), live s.pkg = true → sext 16 temp ≤ sext 16 (rget s.pkg rPwrTwarn) →
      ∃ t, exec (.hotEnd temp die) s = .next t ∧ rbit t.pkg rPwrStatus 4 = false ∧ t.pkg.mem = s.pkg.mem) ∧
    (∀ (s : State) (die : Fin 48), live s.pkg = true → die.val ∉ s.pkg.pins.sensors →
      ∃ t, exec (.sensorOpen die) s = .next t ∧ rbit t.pkg rPwrStatus 5 = true ∧ t.pkg.pins.sensors = die.val :: s.pkg.pins.sensors) ∧
    (∀ (s : State) (die : Fin 48), live s.pkg = true →
      ∃ t, exec (.sensorReadsAgain die) s = .next t ∧ t.pkg.pins.sensors = s.pkg.pins.sensors.filter (fun d => d != die.val) ∧
        rbit t.pkg rPwrStatus 5 = !t.pkg.pins.sensors.isEmpty)) ∧
   (∀ (s : State) (die : Fin 48) (temp : Fin 32768), live s.pkg = true → s.pkg.pins.tripped = false →
      (die.val < 14 ∧ 920 ≤ temp.val ∨ 16 ≤ die.val ∧ 840 ≤ temp.val) →
      ∃ t, exec (.thermalTrip die temp) s = .next t ∧ t.pkg.pins.tripped = true ∧ t.pkg.ops = [] ∧ t.pkg.launches = [] ∧ t.pkg.jobs = [] ∧
        t.pkg.host = s.pkg.host ∧ t.pkg.mem = s.pkg.mem ∧ rbit t.pkg rMemStatus 2 = true ∧ (∀ q, portUp t.pkg q = false) ∧ eclUp t.pkg = false ∧
        (∀ w v, exec (.glbReset w v) t = .next t))

/-- R476: ALERT_N is asserted, and `GLB.STATUS.ALERT` reads 1, exactly while the package is in stage 5, is retired, or shows OVERLIMIT,
HOT or WARN. -/
def Obligations.AlertFollowsItsCauses : Prop :=
  ∀ (p : Pkg) (c : Clock), bit (regRead p c rGlbStatus) 5 = (stageOf p == 5 || rbit p rMemStatus 1 || rbit p rPwrStatus 3 || rbit p rPwrStatus 4 || rbit p rHltStatus 1)

/-- R256, R426: after DELAY ms in service without a ledger entry and without a host access, the package enters deep idle and the stacks
self-refresh; the exit takes 2,500 ticks, and then both have ended. Memory contents are kept. -/
def Obligations.DeepIdleRoundTrip : Prop :=
  (∀ s : State, stageOf s.pkg = 4 → rfld s.pkg rPwrIdle 15 0 ≠ 0 → rbit s.pkg rPwrStatus 2 = false → s.pkg.pins.tripped = false →
    s.pkg.ledger = [] → s.pkg.den.pol = none → s.pkg.active + rfld s.pkg rPwrIdle 15 0 * 250000 ≤ s.clk.gsc →
    ∃ t, exec .deepIdleEntry s = .next t ∧ rbit t.pkg rPwrStatus 2 = true ∧ rbit t.pkg rMemStatus 2 = true ∧ t.pkg.mem = s.pkg.mem) ∧
  (∀ s : State, rbit s.pkg rPwrStatus 2 = true → s.pkg.pins.wake = none →
    ∃ t, exec .deepIdleExit s = .next t ∧ t.pkg.pins.wake = some (s.clk.gsc + 2500) ∧ t.pkg.regs = s.pkg.regs ∧ t.pkg.mem = s.pkg.mem) ∧
  (∀ (s : State) (g : Nat), rbit s.pkg rPwrStatus 2 = true → s.pkg.pins.wake = some g → g ≤ s.clk.gsc →
    ∃ t, exec .deepIdleExit s = .next t ∧ rbit t.pkg rPwrStatus 2 = false ∧ rbit t.pkg rMemStatus 2 = false ∧ t.pkg.mem = s.pkg.mem)

/-- R445, R464: at stage 0, with the 12 V input valid and RESET_N high, `BOOT_VERIFY` (1) refuses service when no copy of the
configuration is intact or two intact copies of the highest number differ: stage 5, CONFLICT, CHOSEN 3; (2) with a record in use
and the image of the higher VERSION passing every check, runs that image at stage 1; (3) runs the other image when only the first
fails; (4) enters stage 5 with RECOVERY when both fail. Cases 2 and 3 are those of a package that is not retired. R432 (Table
18.2), R111, R418: from stage 1 with both inputs valid `HBM_READY` sets `MEM.STATUS.READY` at stage 2 and every port that may train
is TRAINING; from stage 2 `FABRIC_READY` sets `FAB.STATUS.READY` at stage 3, and no port is left in TRAINING; from stage 3
`PACKAGE_READY` sets READY at stage 4, counts the boot once in a power-up, and sets the lock bits of Table 17.4 that every record
marks. -/
def Obligations.StartupPath : Prop :=
   (∀ s : State, live s.pkg = true → s.pkg.pins.resetLow = false → s.pkg.pins.tripped = false → stageOf s.pkg = 0 →
      ((topCopies s.pkg = [] ∨ ∃ r k rest, topCopies s.pkg = (r, k) :: rest ∧ ∃ e ∈ rest, e.1 ≠ r) →
        ∃ t, exec .bootVerify s = .next t ∧ stageOf t.pkg = 5 ∧ rbit t.pkg rGlbStatus 3 = true ∧ rbit t.pkg rSecCfgstat 8 = true ∧
          rfld t.pkg rSecCfgstat 5 4 = 3) ∧
      (∀ r k rest, topCopies s.pkg = (r, k) :: rest → (∀ e ∈ rest, e.1 = r) →
        (∀ i, s.pkg.store.retired = false → imageCheck s.pkg (image s.pkg (firstImage s.pkg)) = none →
          image s.pkg (firstImage s.pkg) = some i →
          ∃ t, exec .bootVerify s = .next t ∧ stageOf t.pkg = 1 ∧ rbit t.pkg rSecStatus 0 = true ∧
            rbit t.pkg rSecStatus 1 = (firstImage s.pkg == 1) ∧ rget t.pkg rGlbFwver = imgVersion i + firstImage s.pkg * 2 ^ 31) ∧
        (∀ i, s.pkg.store.retired = false → imageCheck s.pkg (image s.pkg (firstImage s.pkg)) ≠ none →
          imageCheck s.pkg (image s.pkg (1 - firstImage s.pkg)) = none → image s.pkg (1 - firstImage s.pkg) = some i →
          ∃ t, exec .bootVerify s = .next t ∧ stageOf t.pkg = 1 ∧ rbit t.pkg rSecStatus 0 = true ∧
            rbit t.pkg rSecStatus 1 = (1 - firstImage s.pkg == 1) ∧ rget t.pkg rGlbFwver = imgVersion i + (1 - firstImage s.pkg) * 2 ^ 31) ∧
        (imageCheck s.pkg (image s.pkg (firstImage s.pkg)) ≠ none → imageCheck s.pkg (image s.pkg (1 - firstImage s.pkg)) ≠ none →
          ∃ t, exec .bootVerify s = .next t ∧ stageOf t.pkg = 5 ∧ rbit t.pkg rGlbStatus 2 = true ∧ rbit t.pkg rSecStatus 2 = true))) ∧
   ((∀ s : State, stageOf s.pkg = 1 → rbit s.pkg rPwrStatus 0 = true → s.pkg.pins.tripped = false → s.pkg.pins.resetLow = false →
      rbit s.pkg rMemStatus 1 = false →
      ∃ t, exec .hbmReady s = .next t ∧ rbit t.pkg rMemStatus 0 = true ∧ stageOf t.pkg = 2 ∧
        (∀ q, q < 127 → mayTrain s.pkg q = true → rfld t.pkg (rFabPstate q) 2 0 = 1) ∧ t.pkg.mem = s.pkg.mem) ∧
    (∀ (s : State) (lasers : List (Fin 4 × Fin 4)), stageOf s.pkg = 2 →
      ∃ t, exec (.fabricReady lasers) s = .next t ∧ rbit t.pkg rFabStatus 0 = true ∧ stageOf t.pkg = 3 ∧
        (∀ q, q < 128 → rfld t.pkg (rFabPstate q) 2 0 ≠ 1) ∧ t.pkg.mem = s.pkg.mem) ∧
    (∀ s : State, stageOf s.pkg = 3 → rbit s.pkg rMemStatus 1 = false →
      ∃ t, exec .packageReady s = .next t ∧ rbit t.pkg rGlbStatus 0 = true ∧ stageOf t.pkg = 4 ∧
        t.pkg.store.bootCnt = (if s.pkg.cfg.booted then s.pkg.store.bootCnt else (s.pkg.store.bootCnt + 1) % 2 ^ 32) ∧
        rget t.pkg rGlbBootcnt = t.pkg.store.bootCnt % 2 ^ 32 ∧ rbit t.pkg rPwrLock 0 = true ∧ rbit t.pkg rTimLock 0 = true ∧
        rget t.pkg rMemLock % 8 = 7 ∧ rget t.pkg rFabLock % 8 = 7 ∧ rbit t.pkg rHltLock 0 = true ∧ rbit t.pkg rDbgLock 0 = true))

/-- R437: when the watchdog of keeper k, 4 × PD + keeper, expires on a die without a spare keeper, a reset of kind 3 follows:
operations end, HBM and loaded plans are kept. With a spare, and without another expiry on the die within 10 s, the spare takes the
keeper's role and the keeper is FAULTY; no operation and no launch is touched. R442, R441: without REFCLK alignment is lost and
admission refuses every request with REFUSED_RESOURCE; the return of REFCLK ends that, without a reset. A PLL that does not lock
sets PLLERR, and the `SY.CLKON` that started it does not finish. -/
def Obligations.WatchdogAndClockFailures : Prop :=
   (∀ (s : State) (k : Fin 8), keepersRun s.pkg = true → unitState s.pkg (304 + k) = 0 →
      (freeSpare s.pkg (304 + k) = none → ∃ t, exec (.watchdogExpiry k) s = .next t ∧ rfld t.pkg rGlbResetcause 2 0 = 3 ∧ stageOf t.pkg = 0 ∧
        t.pkg.ops = [] ∧ t.pkg.launches = [] ∧ t.pkg.plans = s.pkg.plans ∧ t.pkg.host = s.pkg.host ∧
        (∀ a, mget t.pkg.mem a = if isHbm a then mget s.pkg.mem a else 0)) ∧
      (∀ n, freeSpare s.pkg (304 + k) = some n → s.pkg.pins.wdog = [] → ∃ t, exec (.watchdogExpiry k) s = .next t ∧
        unitState t.pkg n = 0 ∧ unitLogical t.pkg n = unitLogical s.pkg (304 + k) ∧ unitState t.pkg (304 + k) = 3 ∧
        t.pkg.ops = s.pkg.ops ∧ t.pkg.launches = s.pkg.launches)) ∧
   ((∀ s : State, ∃ t, exec .refclkLoss s = .next t ∧ t.pkg.pins.refLost = true ∧ rbit t.pkg rTimStatus 0 = false ∧
      (∀ c arr a, admission t.pkg c arr a = .refuse 0x12 0)) ∧
    (∀ s : State, ∃ t, exec .refclkReturn s = .next t ∧ t.pkg.pins.refLost = false ∧ t.pkg.mem = s.pkg.mem ∧ t.pkg.launches = s.pkg.launches) ∧
    (∀ (s : State) (t : Fin 128) (n : Nat) (d : Fin 5) (f : InFl),
      (tile s.pkg t).infl.find? (fun g => g.seq == n && opcodeOf g.word.toNat == 0xA6) = some f → bit (bits f.word.toNat 7 0) d = true →
      ∃ u, exec (.pllLockFail t n d) s = .next u ∧ rbit u.pkg rPwrStatus 6 = true ∧
        (∀ g ∈ (tile u.pkg t).infl, g.seq = n → g.fin = false ∧ g.failed = true)))

/-- The management bus (R480, Table 20.6), while the 12 V input is valid and no line is held low: STATUS, IDENT and POWER answer at any
stage, IMAGE_STATE at stage 4; each adds its reply and changes nothing else. Attestation over the bus (R449, R480): at stages 4 and
5 a request with a nonce of 32 bytes discards the previous report; the report that becomes ready is 16,864 bytes long, carries
MAGIC at 0, the GLB.STATUS of the request at 4, the nonce at 0x90 and the signatures at 0x100 and 0x280; a read of 32 bytes within
it answers those bytes. Image transfers over the bus (R466, R480) at stage 4: a write of up to 28 bytes stores them at their
offsets in a transfer in state 1; a commit of a transfer whose bytes are all there and whose image verifies writes it into the slot
that does not run, and the running slot stays; a commit that does not verify writes neither slot and reads 4; a transfer of one
source refuses the other's write; 10 s without a write discard it. -/
def Obligations.ManagementBus : Prop :=
   (∀ s : State, live s.pkg = true → s.pkg.pins.smb ≠ 1 →
      exec .mgmtStatus s = .next (Safety.withPkg s (busReply s.pkg (natLe 4 (regRead s.pkg s.clk rGlbStatus)))) ∧
      exec .mgmtIdent s = .next (Safety.withPkg s (busReply s.pkg (natLe 4 (rget s.pkg rGlbId) ++ natLe 4 (rget s.pkg rGlbSerialLo)
        ++ natLe 4 (rget s.pkg rGlbSerialHi) ++ natLe 4 (rget s.pkg rGlbDcid)))) ∧
      exec .mgmtPower s = .next (Safety.withPkg s (busReply s.pkg (natLe 4 (rget s.pkg rPwrInput) ++ natLe 4 (rget s.pkg rPwrPower)
        ++ natLe 4 (rget s.pkg rPwrTemp)))) ∧
      (stageOf s.pkg = 4 → exec .imageState s =
        .next (Safety.withPkg s (busReply s.pkg (natLe 4 (if s.pkg.xfer.busRef then 4 else s.pkg.xfer.state)))))) ∧
   ((∀ (s : State) (nonce : List Byte), live s.pkg = true → s.pkg.pins.smb ≠ 1 → stageOf s.pkg = 4 ∨ stageOf s.pkg = 5 → nonce.length = 32 →
      ∃ t, exec (.attestReq none nonce true) s = .next t ∧ t.pkg.pins.reportState = 1 ∧ t.pkg.pins.report = [] ∧ t.pkg.pins.nonce = nonce ∧
        t.pkg.pins.reqStatus = regRead s.pkg s.clk rGlbStatus ∧ t.pkg.pins.asker = none ∧ t.pkg.regs = s.pkg.regs ∧ t.pkg.mem = s.pkg.mem) ∧
    (∀ (s : State) (rsa slh : List Byte), s.pkg.pins.reportState = 1 → s.pkg.pins.asker = none → s.pkg.pins.nonce.length = 32 → rsa.length = 384 →
      slh.length = 16224 → ∃ t, exec (.attestReportReady rsa slh) s = .next t ∧ t.pkg.pins.reportState = 2 ∧ t.pkg.pins.report.length = 16864 ∧
        field t.pkg.pins.report 0 4 = 0x54525441 ∧ (t.pkg.pins.report.drop 4).take 4 = natLe 4 s.pkg.pins.reqStatus ∧
        (t.pkg.pins.report.drop 0x90).take 32 = s.pkg.pins.nonce ∧ (t.pkg.pins.report.drop 0x100).take 384 = rsa ∧
        t.pkg.pins.report.drop 0x280 = slh ∧ t.pkg.regs = s.pkg.regs) ∧
    (∀ (s : State) (off : W32), live s.pkg = true → s.pkg.pins.smb ≠ 1 → s.pkg.pins.reportState = 2 → s.pkg.pins.asker = none →
      off.toNat + 32 ≤ s.pkg.pins.report.length →
      exec (.attestRead off true) s = .next (Safety.withPkg s (busReply s.pkg ((s.pkg.pins.report.drop off.toNat).take 32))))) ∧
   ((∀ (s : State) (off : W32) (data : List Byte), live s.pkg = true → stageOf s.pkg = 4 → s.pkg.pins.smb ≠ 1 → data.length ≤ 28 →
      otherBusy s.pkg true = false → ∃ t, exec (.imageWrite none off data true) s = .next t ∧ t.pkg.xfer.state = 1 ∧ t.pkg.xfer.bus = true ∧
        (∀ (i : Nat) (h : i < data.length), sget t.pkg.xfer.bytes (off.toNat + i) 0 = data[i]) ∧ t.pkg.store = s.pkg.store ∧ t.pkg.regs = s.pkg.regs) ∧
    (∀ (s : State) (len : W32) (img : Image), live s.pkg = true → stageOf s.pkg = 4 → s.pkg.pins.smb ≠ 1 → s.pkg.xfer.state = 1 → s.pkg.xfer.bus = true →
      (gotAll s.pkg len.toNat = true → len.toNat = 0x100 + imgLength { img with header := gotHeader s.pkg } + 17044 →
        imageCheck s.pkg (some { img with header := gotHeader s.pkg }) = none →
        ∃ t, exec (.imageCommit none len img true) s = .next t ∧ t.pkg.xfer.state = 3 ∧
          image t.pkg (1 - rfld s.pkg rSecStatus 1 1) = some { img with header := gotHeader s.pkg } ∧
          image t.pkg (rfld s.pkg rSecStatus 1 1) = image s.pkg (rfld s.pkg rSecStatus 1 1) ∧ t.pkg.regs = s.pkg.regs) ∧
      (imageCheck s.pkg (some { img with header := gotHeader s.pkg }) ≠ none →
        ∃ t, exec (.imageCommit none len img true) s = .next t ∧ t.pkg.xfer.state = 4 ∧ t.pkg.store = s.pkg.store ∧ t.pkg.regs = s.pkg.regs)) ∧
    (∀ (s : State) (off : W32) (data : List Byte), live s.pkg = true → stageOf s.pkg = 4 → s.pkg.pins.smb ≠ 1 → otherBusy s.pkg true = true →
      ∃ t, exec (.imageWrite none off data true) s = .next t ∧ t.pkg.xfer.bytes = s.pkg.xfer.bytes ∧ t.pkg.xfer.busRef = true) ∧
    (∀ s : State, s.pkg.xfer.state = 1 → s.pkg.xfer.last + 2500000000 ≤ s.clk.gsc →
      ∃ t, exec .imageTransferTimeout s = .next t ∧ t.pkg.xfer.state = 0 ∧ t.pkg.xfer.bytes = [] ∧ t.pkg.store = s.pkg.store))

/-- Monitor commands that only read (R483, R486), heard while the 12 V input is valid, the receiver is in use and no command runs: S
and V at any stage; R, with MONREAD or a token at stage 4, at an offset that R412 admits. Each is counted in `DBG.MONCMDS` and
answered with one line; R changes nothing else but the monitor's latch. Lists of the monitor (R483, R486) at stage 4 with MONREAD
or a token: C answers one line for each counter of the block, M one for each physical unit, L the newest entries of the log, each
list ended by `OK END`; registers but `DBG.MONCMDS`, and memory, stay. -/
def Obligations.MonitorReadsAndLists : Prop :=
   (∀ s : State, Safety.Hears s.pkg →
      (∃ t, exec .monStatus s = .next t ∧ t = (Safety.withPkg s (monLine (bump s.pkg rDbgMoncmds)
        (okWords [regRead (bump s.pkg rDbgMoncmds) s.clk rGlbStatus, regRead (bump s.pkg rDbgMoncmds) s.clk rHltStatus,
          regRead (bump s.pkg rDbgMoncmds) s.clk rDbgStatus])))) ∧
      (∃ t, exec .monVersion s = .next t ∧ t = (Safety.withPkg s (monLine (bump s.pkg rDbgMoncmds)
        (okWords [rfld s.pkg rGlbId 1 0, rfld s.pkg rGlbId 15 8, rget s.pkg rGlbFwver, rget s.pkg rGlbDcid, rget s.pkg rSecCfgseq])))) ∧
      (∀ o, stageOf s.pkg = 4 → dbgOn s.pkg 0 = true → offsetOk o = true → ∃ t, exec (.monRegisterRead (some o)) s = .next t ∧
        t = (Safety.withPkg s (monLine (regReadBy (bump s.pkg rDbgMoncmds) s.clk 2 o).1 (okWords [(regReadBy (bump s.pkg rDbgMoncmds) s.clk 2 o).2]))))) ∧
   (∀ s : State, Safety.Hears s.pkg → stageOf s.pkg = 4 → dbgOn s.pkg 0 = true → s.pkg.pins.txReleased = false →
      (∀ b, ∃ t, exec (.monCounters (some b)) s = .next t ∧ t.pkg.pins.monOut.getLast? = some okEnd ∧
        t.pkg.regs = (bump s.pkg rDbgMoncmds).regs ∧ t.pkg.mem = s.pkg.mem) ∧
      (∃ t, exec .monSpareMap s = .next t ∧ t.pkg.pins.monOut = s.pkg.pins.monOut ++ punitIndices.map (fun i => okWords [i, punit s.pkg i]) ++ [okEnd] ∧
        t.pkg.regs = (bump s.pkg rDbgMoncmds).regs ∧ t.pkg.mem = s.pkg.mem) ∧
      (∀ n, ∃ t, exec (.monEventLog (some n)) s = .next t ∧ t.pkg.pins.monOut.length ≤ s.pkg.pins.monOut.length + min n 4096 + 1 ∧
        t.pkg.pins.monOut.getLast? = some okEnd ∧ t.pkg.regs = (bump s.pkg rDbgMoncmds).regs ∧ t.pkg.mem = s.pkg.mem))

/-- Monitor commands that act (R482 to R485), heard at stage 4: W with MONWRITE or a token writes as the monitor; B takes a rate of
R482, which applies 10 ms later; a token chunk in order is kept; a complete token with the right serial number, whose keys and
signatures verify, sets DBGTOKEN while `SEC.LOCK.TOKEN` is clear; T with MONTEST or a token asks for a self-test whose deadline
lies 1 s later; an unknown command has `ERR 01`. R428, R485: a token is refused with `ERR 06`, and its chunks are discarded, when
`SEC.LOCK.TOKEN` is set, when a signature or the keys fail, when bytes are missing or the serial number is another; DBGTOKEN stays
as it is, and a complete token is counted in `SEC.TOKCNT`. R486 (Table 20.8), R487: before stage 4 the commands R, W, M, K and T
have `ERR 04`; at stage 4 without a token R, C, M and L need MONREAD, W needs MONWRITE and T needs MONTEST, else `ERR 02`; in
recovery B has `ERR 04`. A refused command changes nothing but the two counts and the line sent. -/
def Obligations.MonitorActsAndRefusals : Prop :=
   (∀ s : State, Safety.Hears s.pkg → stageOf s.pkg = 4 →
      (∀ o v, dbgOn s.pkg 1 = true → offsetOk o = true →
        exec (.monRegisterWrite (some (o, v))) s = .next (Safety.withPkg s (monLine (regPut (bump s.pkg rDbgMoncmds) s.clk 2 o v.toNat) okBytes))) ∧
      (∀ r ∈ monRates, ∃ t, exec (.monBaudRate (some r)) s = .next t ∧ t.pkg.pins.baudNext = some (r, s.clk.up + ticksUp s.pkg 2500000) ∧
        t.pkg.regs = (bump s.pkg rDbgMoncmds).regs) ∧
      (∀ data, data ≠ [] → data.length ≤ 256 → ∃ t, exec (.monTokenChunk (some (s.pkg.pins.tokNext, data))) s = .next t ∧
        t.pkg.pins.token = s.pkg.pins.token ++ data ∧ t.pkg.pins.tokNext = s.pkg.pins.tokNext + 1 ∧ t.pkg.regs = (bump s.pkg rDbgMoncmds).regs) ∧
      (tokenFits s.pkg = true → rbit s.pkg rSecLock 0 = false → ∃ t, exec (.monTokenEnd true true true) s = .next t ∧
        rbit t.pkg rSecStatus 3 = true ∧ rget t.pkg rSecTokcnt = (rget s.pkg rSecTokcnt + 1) % 2 ^ 32 ∧ t.pkg.pins.token = []) ∧
      (∀ test unit, dbgOn s.pkg 2 = true → exec (.monSelfTest (some (test, unit))) s =
        .next (Safety.withPkg s (askTest (bump s.pkg rDbgMoncmds) s.clk test unit (s.clk.gsc + 250000000) none true))) ∧
      exec (.monUnknownCommand false) s = .next (Safety.withPkg s (monLine (bump (bump s.pkg rDbgMoncmds) rDbgMonerrs) (errLine 1)))) ∧
   (∀ (s : State) (keys rsa slh : Bool), Safety.Hears s.pkg → stageOf s.pkg = 4 → s.pkg.pins.txReleased = false →
      (rbit s.pkg rSecLock 0 = true ∨ keys = false ∨ rsa = false ∨ slh = false ∨ tokenFits s.pkg = false) →
      ∃ t, exec (.monTokenEnd keys rsa slh) s = .next t ∧ t.pkg.pins.monOut = s.pkg.pins.monOut ++ [errLine 6] ∧ t.pkg.pins.token = [] ∧
        rbit t.pkg rSecStatus 3 = rbit s.pkg rSecStatus 3 ∧
        rget t.pkg rSecTokcnt = (if s.pkg.pins.token.length = 17108 then (rget s.pkg rSecTokcnt + 1) % 2 ^ 32 else rget s.pkg rSecTokcnt)) ∧
   (∀ s : State, Safety.Hears s.pkg →
      let refused (e : Nat) : Host.Outcome State Fault Refusal :=
        .next (Safety.withPkg s (monLine (bump (bump s.pkg rDbgMoncmds) rDbgMonerrs) (errLine e)))
      (stageOf s.pkg < 4 → ∀ o a k x, exec (.monRegisterRead o) s = refused 4 ∧ exec (.monRegisterWrite a) s = refused 4 ∧
        exec .monSpareMap s = refused 4 ∧ exec (.monTokenChunk k) s = refused 4 ∧ exec (.monSelfTest x) s = refused 4) ∧
      (stageOf s.pkg = 4 → dbgOn s.pkg 0 = false → ∀ o b n, exec (.monRegisterRead o) s = refused 2 ∧ exec (.monCounters b) s = refused 2 ∧
        exec .monSpareMap s = refused 2 ∧ exec (.monEventLog n) s = refused 2) ∧
      (stageOf s.pkg = 4 → dbgOn s.pkg 1 = false → ∀ a, exec (.monRegisterWrite a) s = refused 2) ∧
      (stageOf s.pkg = 4 → dbgOn s.pkg 2 = false → ∀ x, exec (.monSelfTest x) s = refused 2) ∧
      (4 < stageOf s.pkg → rbit s.pkg rGlbStatus 2 = true → ∀ r, exec (.monBaudRate r) s = refused 4))

/-- Line faults and monitor lines (R479), with the 12 V input valid: each reported fault that is not yet shown sets its bit of
`DBG.STATUS`, counts in `DBG.LINEFLT`, and takes its effect; the bit clears when the condition ends. A break restores 115,200 baud;
a rate asked for applies when its 10 ms are over. The test port (R475, R481), with the 12 V input valid and TRST_N high: each
instruction is taken up; IDCODE shifts out 0x1034_0A6D; SAMPLE/PRELOAD loads the cells; EXTEST loads them while RESET_N is low and
acts as BYPASS otherwise; setup access without the TAP enable acts as BYPASS, and with it writes and reads with the rights of the
monitor. Outside RESET_N the port drives no signal. TRST_N low resets the port, and then no instruction is taken. -/
def Obligations.LineFaultsAndTestPort : Prop :=
   ((∀ s : State, live s.pkg = true →
      (rbit s.pkg rDbgStatus 1 = false → ∃ t, exec .monRxStuck s = .next t ∧ t.pkg.pins.rxIgnored = true ∧ rbit t.pkg rDbgStatus 1 = true ∧
        rget t.pkg rDbgLineflt = (rget s.pkg rDbgLineflt + 1) % 2 ^ 32) ∧
      (rbit s.pkg rDbgStatus 2 = false → ∃ t, exec .monTxFault s = .next t ∧ t.pkg.pins.txReleased = true ∧ rbit t.pkg rDbgStatus 2 = true ∧
        rget t.pkg rDbgLineflt = (rget s.pkg rDbgLineflt + 1) % 2 ^ 32) ∧
      (rbit s.pkg rDbgStatus 0 = false → ∀ high, ∃ t, exec (.smbLineFault high) s = .next t ∧ rbit t.pkg rDbgStatus 0 = true ∧
        rget t.pkg rDbgLineflt = (rget s.pkg rDbgLineflt + 1) % 2 ^ 32) ∧
      (alertN s.pkg = true → rbit s.pkg rDbgStatus 3 = false → ∃ t, exec (.outputLineFault false true) s = .next t ∧ rbit t.pkg rDbgStatus 3 = true ∧
        rget t.pkg rDbgLineflt = (rget s.pkg rDbgLineflt + 1) % 2 ^ 32) ∧
      (∃ t, exec .monBreak s = .next t ∧ rget t.pkg rDbgMoncfg = 115200 ∧ t.pkg.pins.baudNext = none)) ∧
    (∀ s : State, ∃ t, exec .monRxRelease s = .next t ∧ t.pkg.pins.rxIgnored = false ∧ rbit t.pkg rDbgStatus 1 = false) ∧
    (∀ s : State, s.pkg.pins.txAt ≤ s.clk.up → ∃ t, exec .monTxRetry s = .next t ∧ t.pkg.pins.txReleased = false ∧ rbit t.pkg rDbgStatus 2 = false) ∧
    (∀ s : State, s.pkg.pins.smb ≠ 2 ∨ s.pkg.pins.smbAt ≤ s.clk.up → ∃ t, exec .smbLineRelease s = .next t ∧ t.pkg.pins.smb = 0 ∧
      rbit t.pkg rDbgStatus 0 = false) ∧
    (∀ (s : State) (r u : Nat), r < 2 ^ 24 → s.pkg.pins.baudNext = some (r, u) → u ≤ s.clk.up → ∃ t, exec .monBaudApply s = .next t ∧
      rget t.pkg rDbgMoncfg = r ∧ t.pkg.pins.baudNext = none)) ∧
   ((∀ s : State, live s.pkg = true → s.pkg.pins.trstLow = false →
      exec .tapBypass s = .next (Safety.withPkg s (tapIs s.pkg 0 0)) ∧ exec .tapIdcode s = .next (Safety.withPkg s (tapIs s.pkg 1 0x10340A6D)) ∧
      exec .tapClamp s = .next (Safety.withPkg s (tapIs s.pkg 4 0)) ∧ exec .tapHighz s = .next (Safety.withPkg s (tapIs s.pkg 5 0)) ∧
      (∀ ext cells, ∃ t, exec (.tapSamplePreload ext cells) s = .next t ∧ t.pkg.pins.tapIr = 2 ∧ t.pkg.pins.cells = cells ∧
        t.pkg.pins.tapOut = signalLevels s.pkg ext ∧ t.pkg.regs = s.pkg.regs) ∧
      (∀ ext cells, s.pkg.pins.resetLow = true → ∃ t, exec (.tapExtest ext cells) s = .next t ∧ t.pkg.pins.cells = cells ∧ tapDrives t.pkg = 1) ∧
      (∀ ext cells, s.pkg.pins.resetLow = false → exec (.tapExtest ext cells) s = .next (Safety.withPkg s (tapIs s.pkg 3 0))) ∧
      (∀ code o v, dbgOn s.pkg 3 = false → exec (.tapSetupAccess code o v) s = .next (Safety.withPkg s (tapIs s.pkg 0 0))) ∧
      (∀ (code : Fin 256) o, dbgOn s.pkg 3 = true → 0x80 ≤ code.val → code.val ≠ 0xFF → offsetOk o = true →
        (∀ v, exec (.tapSetupAccess code o (some v)) s = .next (Safety.withPkg s (tapIs (regPut s.pkg s.clk 2 o v.toNat) code 0))) ∧
        exec (.tapSetupAccess code o none) s = .next (Safety.withPkg s (tapIs (regReadBy s.pkg s.clk 2 o).1 code (regReadBy s.pkg s.clk 2 o).2)))) ∧
    (∀ p : Pkg, p.pins.resetLow = false → tapDrives p = 0) ∧
    (∀ s : State, ∃ t, exec .trstNAssert s = .next t ∧ t.pkg.pins.trstLow = true ∧ t.pkg.regs = s.pkg.regs ∧
      exec .tapBypass t = .next t ∧ exec .tapIdcode t = .next t) ∧
    (∀ s : State, ∃ t, exec .trstNRelease s = .next t ∧ t.pkg.pins.trstLow = false ∧ t.pkg.regs = s.pkg.regs))

/-- R416, R417, R421: a register write at the setup window, by any requester, while the 12 V input is valid. A word whose lock bit is
set and a read-only word stay as they are; a scratch word takes the value; `PWR.LIMIT` takes 1,000 to 7,200 W and keeps its old
value otherwise; a LOCK register's bits can only be set. Nothing but the word written changes. `OWLCFG_WRITE` restarts its port's
sampling count and keeps K when the new one is neither 0 nor 4 to 20 (R336). -/
def Obligations.RegisterWrites : Prop :=
  ∀ (s : State) (w : Fin 4), live s.pkg = true →
    (∀ o v, o % 4 = 0 → locked s.pkg w o = true → exec (.registerWrite w o v) s = .next s) ∧
    (∀ o v, o ∈ [rGlbStatus, rGlbId, rGlbBootcnt, rGlbResetcause, rGlbLocks, rPwrStatus, rPwrOvercnt, rPwrHotcnt, rSecStatus, rSecTokcnt, rHifInflight,
        rTimStatus, rTimGscLo, rTimOffset, rTimRefusals, rMemStatus, rMemCe 0, rMemErrA, rFabStatus, rFabPlace, rFabDups, rSwmStatus, rDenStatus,
        rHltStatus, rHltWarns, rDbgStatus, rDbgMoncmds] → exec (.registerWrite w o v) s = .next s) ∧
    (∀ (i : Fin 4) (v : W32), ∃ t, exec (.registerWrite w (rGlbScratch i) v) s = .next t ∧ rget t.pkg (rGlbScratch i) = v.toNat ∧
      (∀ o, o ≠ rGlbScratch i → rget t.pkg o = rget s.pkg o) ∧ t.pkg.mem = s.pkg.mem ∧ t.pkg.ops = s.pkg.ops) ∧
    (∀ v : W32, rbit s.pkg rPwrLock 0 = false → ∃ t, exec (.registerWrite w rPwrLimit v) s = .next t ∧
      rfld t.pkg rPwrLimit 15 0 = (if 1000 ≤ v.toNat % 2 ^ 16 ∧ v.toNat % 2 ^ 16 ≤ 7200 then v.toNat % 2 ^ 16 else rfld s.pkg rPwrLimit 15 0) ∧
      (∀ o, o ≠ rPwrLimit → rget t.pkg o = rget s.pkg o) ∧ t.pkg.mem = s.pkg.mem) ∧
    (∀ o (v : W32), o ∈ [rGlbLock, rPwrLock, rSecLock, rHifLock, rTimLock, rMemLock, rFabLock, rHltLock, rDbgLock] →
      ∃ t, exec (.registerWrite w o v) s = .next t ∧ rget t.pkg o = Nat.lor (rget s.pkg o) (Nat.land v.toNat (lockMask o)) ∧
        (∀ o', o' ≠ o → rget t.pkg o' = rget s.pkg o') ∧ t.pkg.mem = s.pkg.mem) ∧
    (∀ (q : Fin 128) (v : W32), ∃ t, exec (.owlcfgWrite q v) s = .next t ∧ (sget t.pkg.ports q.val {}).owl = 0 ∧
      rfld t.pkg (rFabOwlcfg q) 7 5 = bits v.toNat 7 5 ∧
      rfld t.pkg (rFabOwlcfg q) 4 0 = (if v.toNat % 32 = 0 ∨ 4 ≤ v.toNat % 32 ∧ v.toNat % 32 ≤ 20 then v.toNat % 32 else rfld s.pkg (rFabOwlcfg q) 4 0) ∧
      (∀ o, o ≠ rFabOwlcfg q → rget t.pkg o = rget s.pkg o) ∧ t.pkg.mem = s.pkg.mem)

/-- R419: a read of a LO register latches the upper half for the requester that read it, and for no other; a HI register without an
earlier read of its LO register reads zero. No register and no memory changes. -/
def Obligations.LoReadLatchesHi : Prop :=
  (∀ (s : State) (w : Fin 4) (lo : Nat), latchHi lo = some (lo + 4) → ∃ t, exec (.loReadLatch w lo) s = .next t ∧
    (∀ c, (regReadBy t.pkg c w (lo + 4)).2 = regRead s.pkg s.clk (lo + 4) % 2 ^ 32) ∧
    (∀ (w' : Fin 4) c, w' ≠ w → (regReadBy t.pkg c w' (lo + 4)).2 = (regReadBy s.pkg c w' (lo + 4)).2) ∧
    t.pkg.regs = s.pkg.regs ∧ t.pkg.mem = s.pkg.mem) ∧
  (∀ (p : Pkg) (c : Clock) (w : Fin 4) (lo : Nat), latchHi lo = some (lo + 4) → p.latch = [] → (regReadBy p c w (lo + 4)).2 = 0)

/-- R266, R269, R271: an edge of TIME_IN captures the count; the takeover by the other manager leaves the count, every register and all
work; a reset of the time function keeps EVERSYNC, all work and memory and forgets synchronisation unless the record in use makes
the package the time master; without a completed exchange for 8 intervals a package that is not the master loses SYNC, and counts
it when it held it. R267: at its interval a child queues one probe for its parent; a probe that arrives is answered with the stamp
of its arrival, and with bit 63 of OP1 when this package has lost synchronisation. Each takes the stamp of its departure as it
leaves: the probe's is kept as t1, the reply carries it in OP1, where bit 63 stays. R267 to R270: a reply that completes an
exchange of a child with its parent: OFFSET takes the estimate; the first estimate after a start steps the count by it, sets
EVERSYNC and, here in a package without launches, tests or den policy, empties the ledger; later estimates leave the count, and one
within 8/16 tick sets SYNC unless the parent has lost it. -/
def Obligations.TimeFunction : Prop :=
   (∀ s : State,
      (∃ t, exec .timeInEdge s = .next t ∧ rget t.pkg rTimTimeinLo = s.clk.gsc % 2 ^ 32 ∧ rget t.pkg rTimTimeinHi = s.clk.gsc / 2 ^ 32 % 2 ^ 32 ∧
        (∀ o, o ≠ rTimTimeinLo → o ≠ rTimTimeinHi → rget t.pkg o = rget s.pkg o) ∧ t.pkg.mem = s.pkg.mem ∧ t.clk = s.clk) ∧
      (∃ t, exec .gscManagerTakeover s = .next t ∧ t.clk = s.clk ∧ t.pkg.time.pd1 = true ∧ t.pkg.regs = s.pkg.regs ∧ t.pkg.mem = s.pkg.mem ∧
        t.pkg.launches = s.pkg.launches) ∧
      (∃ t, exec .timeFunctionReset s = .next t ∧ t.clk = s.clk ∧ t.pkg.mem = s.pkg.mem ∧ t.pkg.launches = s.pkg.launches ∧ t.pkg.ops = s.pkg.ops ∧
        t.pkg.ledger = s.pkg.ledger ∧ rbit t.pkg rTimStatus 1 = rbit s.pkg rTimStatus 1 ∧
        rbit t.pkg rTimStatus 0 = (match recInUse s.pkg with
          | some r => r.role % 4 == 2
          | none => false)) ∧
      (timRole s.pkg ≠ 2 → s.pkg.time.last + 8 * exchangeTicks ≤ s.clk.gsc →
        exec .exchangeTimeout s = .next (Safety.withPkg s (loseSync (Safety.noStamp s.pkg) s.clk)) ∧
        (rbit s.pkg rTimStatus 0 = true → (∀ l ∈ s.pkg.launches, l.multi = false) →
          rbit (loseSync (Safety.noStamp s.pkg) s.clk) rTimStatus 0 = false ∧
          rget (loseSync (Safety.noStamp s.pkg) s.clk) rTimSyncloss = (rget s.pkg rTimSyncloss + 1) % 2 ^ 32))) ∧
   ((∀ s : State, timRole s.pkg ≠ 2 → portUp s.pkg (timPport s.pkg) = true → s.pkg.time.nextAt ≤ s.clk.gsc →
      ∃ t w, exec .timeExchange s = .next t ∧ t.pkg.time.nextAt = s.clk.gsc + exchangeTicks ∧ t.pkg.time.t1 = none ∧
        t.pkg.answers = s.pkg.answers ++ [w] ∧ w.port = timPport s.pkg ∧ field w.bytes 0 1 = 0x30 ∧ t.clk = s.clk ∧ t.pkg.mem = s.pkg.mem) ∧
    (∀ (s : State) (q : Fin 128) (pkt : List Byte), Safety.Arrives s.pkg q pkt 0x30 →
      let p := Safety.heard s.pkg s.clk q pkt
      exec (.timeProbe q pkt false) s = .next (Safety.withPkg s (sendLink p s.clk q (linkPacket p 0x31 (parseHdr pkt).src (stampNow p s.clk)
        (b2n (!rbit p rTimStatus 0) * 2 ^ 63))))) ∧
    (∀ (p : Pkg) (c : Clock) (a : Wire), field a.bytes 0 1 = 0x30 →
      (stampOut p c a).1.time.t1 = some (stampNow p c) ∧ (stampOut p c a).2 = a) ∧
    (∀ (p : Pkg) (c : Clock) (a : Wire) (dst op0 : Nat) (lost : Bool), a.bytes = linkPacket p 0x31 dst op0 (b2n lost * 2 ^ 63) →
      (stampOut p c a).1 = p ∧ (parseHdr (stampOut p c a).2.bytes).op0 = op0 % 2 ^ 64 ∧
        (parseHdr (stampOut p c a).2.bytes).op1 = stampNow p c + b2n lost * 2 ^ 63)) ∧
   (∀ (s : State) (q : Fin 128) (pkt : List Byte) (t1 : Nat), Safety.Arrives s.pkg q pkt 0x31 →
      (Safety.heard s.pkg s.clk q pkt).time.t1 = some t1 → timRole (Safety.heard s.pkg s.clk q pkt) ≠ 2 → timPport (Safety.heard s.pkg s.clk q pkt) = q.val →
      let p := Safety.heard s.pkg s.clk q pkt
      let h := parseHdr pkt
      let th := theta p t1 (h.op0 % 2 ^ 63) (h.op1 % 2 ^ 63) (stampNow p s.clk) (sext 16 (rfld p (rFabPflight (physPort p q)) 31 16))
      let e := estimate s.clk p th (bit h.op1 63)
      exec (.timeReply q pkt false) s = .next { s with clk := e.1, pkg := e.2 } ∧
        (p.time.step = true → p.launches = [] → p.placed = [] → p.den = {} →
          e.1 = moveClock p s.clk th ∧ e.2.ledger = [] ∧ rbit e.2 rTimStatus 1 = true ∧ e.2.mem = p.mem) ∧
        (p.time.step = false → e.1 = s.clk ∧
          (bit h.op1 63 = false → rbit p rTimStatus 0 = false → th.natAbs ≤ 8 → rbit e.2 rTimStatus 0 = true ∧ rget e.2 rTimOffset = wrapInt 32 th ∧ e.2.mem = p.mem)))

/-- Table 13.9, R326, R332, R334, R478: a port in use that fails is FAILED; a port that may train goes to TRAINING; training that does
not hold fails the port, a peer that differs from the cabling record makes it MISWIRED, and one that agrees, at a protocol level at
most one away, brings it UP with credit for 256 flits and an empty buffer; the spare port takes the place of a failed port at a
frame boundary; removing a connector fails the ports of its FD that are not dark, inserting it trains those that had failed. Only
port states of the named ports change, and memory stays. -/
def Obligations.PortStates : Prop :=
  (∀ (s : State) (q : Fin 128), (rfld s.pkg (rFabPstate q) 2 0 = 1 ∨ rfld s.pkg (rFabPstate q) 2 0 = 2) →
    ∃ t, exec (.portFailed q) s = .next t ∧ rfld t.pkg (rFabPstate q) 2 0 = 3 ∧
      (∀ r, r < 128 → r ≠ q.val → rget t.pkg (rFabPstate r) = rget s.pkg (rFabPstate r)) ∧ t.pkg.mem = s.pkg.mem ∧ t.pkg.outs = s.pkg.outs) ∧
  (∀ (s : State) (q : Fin 128), mayTrain s.pkg q = true →
    ∃ t, exec (.portTrain q) s = .next t ∧ rfld t.pkg (rFabPstate q) 2 0 = 1 ∧
      (∀ r, r < 128 → r ≠ q.val → rget t.pkg (rFabPstate r) = rget s.pkg (rFabPstate r)) ∧ t.pkg.mem = s.pkg.mem) ∧
  (∀ (s : State) (q : Fin 128) (r : Training), rfld s.pkg (rFabPstate q) 2 0 = 1 →
    (r.held = false → ∃ t, exec (.portTrainDone q r) s = .next t ∧ rfld t.pkg (rFabPstate q) 2 0 = 3 ∧ t.pkg.mem = s.pkg.mem) ∧
    (r.held = true → expectedPeer s.pkg q ≠ some (r.place, r.port) →
      ∃ t, exec (.portTrainDone q r) s = .next t ∧ rfld t.pkg (rFabPstate q) 2 0 = 4 ∧ t.pkg.mem = s.pkg.mem) ∧
    (r.held = true → expectedPeer s.pkg q = some (r.place, r.port) → r.level ≤ rfld s.pkg rHltProto 7 0 + 1 →
      rfld s.pkg rHltProto 7 0 ≤ r.level + 1 →
      ∃ t, exec (.portTrainDone q r) s = .next t ∧ rfld t.pkg (rFabPstate q) 2 0 = 2 ∧ (sget t.pkg.ports q.val {}).credit = 256 ∧
        (sget t.pkg.ports q.val {}).held = 0 ∧ (sget t.pkg.ports q.val {}).back = 0 ∧
        (sget t.pkg.ports q.val {}).level = min (rfld s.pkg rHltProto 7 0) r.level ∧
        rget t.pkg (rFabPpeer q) = r.place % 2 ^ 18 + r.port % 128 * 2 ^ 18 ∧ t.pkg.mem = s.pkg.mem)) ∧
  (∀ (s : State) (q : Fin 128), rfld s.pkg (rFabPstate q) 2 0 = 3 → q.val ≠ 127 → rbit s.pkg rFabPspare 7 = false →
    (s.clk.gsc - portBase s.pkg q) % 4096 = 0 →
    ∃ t, exec (.portSpareReplace q) s = .next t ∧ rget t.pkg rFabPspare = 128 + q.val ∧ physPort t.pkg q = 127 ∧
      (∀ o, o ≠ rFabPspare → rget t.pkg o = rget s.pkg o) ∧ t.pkg.mem = s.pkg.mem) ∧
  (∀ (s : State) (d : Fin 4), ∃ t, exec (.connectorRemove d) s = .next t ∧ t.pkg.mem = s.pkg.mem ∧
    ∀ r, r < 128 → rfld t.pkg (rFabPstate r) 2 0 = (if r / 32 = d.val ∧ rfld s.pkg (rFabPstate r) 2 0 ≠ 0 then 3 else rfld s.pkg (rFabPstate r) 2 0)) ∧
  (∀ (s : State) (d : Fin 4), ∃ t, exec (.connectorInsert d) s = .next t ∧ t.pkg.mem = s.pkg.mem ∧
    ∀ r, r < 128 → rfld t.pkg (rFabPstate r) 2 0 =
      (if r / 32 = d.val ∧ rfld s.pkg (rFabPstate r) 2 0 = 3 ∧ mayTrain s.pkg r = true then 1 else rfld s.pkg (rFabPstate r) 2 0))

/-- R324, R325: from S − 8,192 the named ports start no open packet; at S the inactive route bank becomes the active one, the entries
of both banks stay, and the requests complete; the drained ports go on. With no switch pending firmware starts one of its own: with
ports to drain at S 8,192 ticks on; without one, after a port has FAILED, at a frame boundary of that port at least 2,500 ticks
ahead. R333: on a port that is up the ends agree on a frame to come, a lane of the port and a free spare lane of the FD; at that
frame both lanes send and the spare counts as in use; at the next frame the spare lane serves, the port shows it, and the
replacement is reported and counted. With all eight spare lanes in use the port fails. R335: when a laser input that feeds no moved
fibre falls below the threshold, its fibres move to input 3, if that has power and is free; otherwise the ports it feeds that are
in use fail. -/
def Obligations.RoutesLanesLasers : Prop :=
   ((∀ (s : State) (w : RouteSwitch) (ports : List (Fin 128)), s.pkg.rswitch = some w → w.draining = false → w.stop ≤ s.clk.gsc + 8192 →
      ∃ t, exec (.routeDrainStart ports) s = .next t ∧ (∀ q : Fin 128, drained t.pkg q = ports.contains q) ∧ t.pkg.regs = s.pkg.regs ∧ t.pkg.mem = s.pkg.mem) ∧
    (∀ (s : State) (ports : List (Fin 128)), s.pkg.rswitch = none → ports ≠ [] →
      ∃ t w, exec (.routeDrainStart ports) s = .next t ∧ t.pkg.rswitch = some w ∧ w.stop = s.clk.gsc + 8192 ∧ rbit t.pkg rFabStatus 2 = true ∧
        (∀ q : Fin 128, drained t.pkg q = ports.contains q) ∧ t.pkg.mem = s.pkg.mem) ∧
    (∀ (s : State) (q : Fin 128), s.pkg.rswitch = none → rfld s.pkg (rFabPstate q) 2 0 = 3 →
      (∀ r, r < q.val → rfld s.pkg (rFabPstate r) 2 0 ≠ 3) →
      ∃ t w, exec (.routeDrainStart []) s = .next t ∧ t.pkg.rswitch = some w ∧ s.clk.gsc + 2500 ≤ w.stop ∧
        (portBase s.pkg q ≤ w.stop ∧ (w.stop - portBase s.pkg q) % 4096 = 0) ∧ w.stop < max (portBase s.pkg q) (s.clk.gsc + 2500) + 4096 ∧
        rbit t.pkg rFabStatus 2 = true ∧ t.pkg.mem = s.pkg.mem) ∧
    (∀ (s : State) (w : RouteSwitch), s.pkg.rswitch = some w → w.stop ≤ s.clk.gsc →
      ∃ t p, exec .routeSwitch s = .next t ∧ t.pkg = w.ops.foldl (fun q o => complete q s.clk o.1 0 0#16 0 o.2 false) p ∧
        rbit p rFabStatus 1 = (!rbit s.pkg rFabStatus 1) ∧ rbit p rFabStatus 2 = false ∧ p.rswitch = none ∧ p.mem = s.pkg.mem ∧
        (∀ o, o ≠ rFabStatus → rget p o = rget s.pkg o) ∧ (∀ q, drained t.pkg q = false))) ∧
   ((∀ (s : State) (q : Fin 128) (f : Nat) (lane spare : Fin 136), rfld s.pkg (rFabPstate q) 2 0 = 2 →
      (rfld s.pkg (rFabFdstat (q / 32)) 11 8 < 8 → lane.val / 4 = q.val % 32 → 128 ≤ spare.val →
        (∀ j, j < 32 → ∀ e ∈ (sget s.pkg.ports (q / 32 * 32 + j) {}).lane, e.2 ≠ spare.val) → (sget s.pkg.ports q.val {}).swap = none →
        (frameNow s.pkg s.clk q = f ∨ frameNow s.pkg s.clk q + 2 ≤ f) →
        ∃ t, exec (.laneSwap q f lane spare) s = .next t ∧ (sget t.pkg.ports q.val {}).swap = some (f, lane.val, spare.val, 0) ∧
          t.pkg.regs = s.pkg.regs ∧ t.pkg.mem = s.pkg.mem) ∧
      (8 ≤ rfld s.pkg (rFabFdstat (q / 32)) 11 8 →
        ∃ t, exec (.laneSwap q f lane spare) s = .next t ∧ rfld t.pkg (rFabPstate q) 2 0 = 3 ∧ t.pkg.mem = s.pkg.mem)) ∧
    (∀ (s : State) (q : Fin 128) (f lane spare : Nat), (sget s.pkg.ports q.val {}).swap = some (f, lane, spare, 0) → f ≤ frameNow s.pkg s.clk q →
      ∃ t, exec (.laneSwitch q) s = .next t ∧ (sget t.pkg.ports q.val {}).swap = some (f, lane, spare, 1) ∧
        rfld t.pkg (rFabFdstat (q.val / 32)) 11 8 = (rfld s.pkg (rFabFdstat (q.val / 32)) 11 8 + 1) % 16 ∧ t.pkg.mem = s.pkg.mem) ∧
    (∀ (s : State) (q : Fin 128) (f lane spare : Nat), (sget s.pkg.ports q.val {}).swap = some (f, lane, spare, 1) → f + 1 ≤ frameNow s.pkg s.clk q →
      ∃ t, exec (.laneSwitch q) s = .next t ∧ (sget t.pkg.ports q.val {}).swap = none ∧
        (sget t.pkg.ports q.val {}).lane = (sget s.pkg.ports q.val {}).lane ++ [(lane, spare)] ∧ rbit t.pkg (rFabPstate q) 3 = true ∧
        rget t.pkg rHltSwaps = (rget s.pkg rHltSwaps + 1) % 2 ^ 32 ∧ t.pkg.mem = s.pkg.mem)) ∧
   (∀ (s : State) (d i : Fin 4), rbit s.pkg (rFabFdstat d) (1 + i) = true → i.val ≠ 3 → rbit s.pkg (rFabFdstat d) 5 = false →
      (rbit s.pkg (rFabFdstat d) 4 = true → ∃ t, exec (.laserLoss d i) s = .next t ∧ rbit t.pkg (rFabFdstat d) (1 + i) = false ∧
        rbit t.pkg (rFabFdstat d) 5 = true ∧ sget t.pkg.lasers d.val 0 = i.val ∧ (∀ o, o ≠ rFabFdstat d → rget t.pkg o = rget s.pkg o) ∧
        t.pkg.mem = s.pkg.mem) ∧
      (rbit s.pkg (rFabFdstat d) 4 = false → ∃ t, exec (.laserLoss d i) s = .next t ∧ rbit t.pkg (rFabFdstat d) (1 + i) = false ∧
        t.pkg.mem = s.pkg.mem ∧ ∀ q ∈ fedBy s.pkg d i, rfld t.pkg (rFabPstate q) 2 0 ≠ 1 ∧ rfld t.pkg (rFabPstate q) 2 0 ≠ 2))

/-- R289 (Table 12.2), R288, R290: what the accesses served for another agent do in HBM's user range and in the slices of tiles in
service: a load answers the bytes; a store writes its bytes; a fetch-and-add and a compare-and-swap on an aligned word answer the
old value, and write the sum modulo 2^64, or the new value when the old one equals the operand; a binary64 add adds element by
element, rounded to nearest even. Memory changes by exactly the write named. -/
def Obligations.ServedAccesses : Prop :=
  ∀ (p : Pkg) (c : Clock) (a : Nat),
    (∀ n, Safety.PlainAccess p a n → srvLoad p c a n = (p, .ok (mread p.mem a n))) ∧
    (∀ bs : List Byte, Safety.PlainAccess p a bs.length → (srvStore p c a bs).1.mem = mwrite p.mem a bs ∧ (srvStore p c a bs).2 = .ok [] ∧
      (srvStore p c a bs).1.regs = p.regs ∧
      (∀ b, b < a ∨ a + bs.length ≤ b → mget (srvStore p c a bs).1.mem b = mget p.mem b)) ∧
    (∀ v, Safety.PlainAccess p a 8 → a % 8 = 0 → (srvFetchAdd p c a v).1.mem = mwrite p.mem a (natLe 8 ((mnat p.mem a 8 + v) % 2 ^ 64)) ∧
      (srvFetchAdd p c a v).2 = .ok (mread p.mem a 8)) ∧
    (∀ x y, Safety.PlainAccess p a 8 → a % 8 = 0 →
      (srvCas p c a x y).1.mem = (if mnat p.mem a 8 = x then mwrite p.mem a (natLe 8 y) else p.mem) ∧ (srvCas p c a x y).2 = .ok (mread p.mem a 8)) ∧
    (∀ v : W64, Safety.PlainAccess p a 8 → (srvFloatAdd p c .b64 a (natLe 8 v.toNat)).1.mem =
      mwrite p.mem a (natLe 8 (fAdd .b64 .rne (BitVec.ofNat 64 (mnat p.mem a 8)) v).1.toNat)) ∧
    (∀ bs : List Byte, retired p = true → srvStore p c a bs = (p, .error nakRetired)) ∧
    (∀ bs : List Byte, retired p = false → 0 < bs.length → bs.length ≤ 4096 → target p a bs.length = none → srvStore p c a bs = (p, .error nakRange))

/-- R293, R295, R296, R245: a new request is applied once, its number marked, and it is acknowledged or its response retained and
sequenced on the reverse context; the owl of its port samples it first (R336). A request for HBM queues its accesses in partition
0, or 5 when it came open (Table 10.3), and is applied when the last of them is delivered; one for another target is applied at
once, as R289 says. R293, R295, R299: a store that fails its CRC, or is poisoned, is dropped and counted; a duplicate is not
applied again, but counted and acknowledged again; one more than 255 above RXBASE has a NAK with reason WINDOW; one that its target
refuses has a NAK with the reason, and its number stays unmarked; a load without room in the response store has reason BUSY. A
packet of a reserved type is dropped (R291). -/
def Obligations.PacketsApplied : Prop :=
   (∀ (s : State) (q : Fin 128) (pkt : List Byte),
      let p := Safety.heard s.pkg s.clk q pkt
      let h := parseHdr pkt
      let a := localOf h.daddr
      let now (ty : Nat) (resp : Bool) : Prop := Safety.Arrives s.pkg q pkt ty ∧ Safety.New p h resp ∧ hbmAsks p ty a h.op0 h.op1 (payloadOf pkt) = none
      let acked (c : Instr) (r : Served) : Prop := ∀ p' d, r = (p', .ok d) → exec c s = .next (Safety.withPkg s (sendAck (Safety.took p p' s.clk h) s.clk h))
      let answered (c : Instr) (ty : Nat) (r : Served) : Prop := ∀ p' d, r = (p', .ok d) →
        exec c s = .next (Safety.withPkg s (sendResp (Safety.took p p' s.clk h) h ty d))
      let queued (c : Instr) (ty : Nat) (resp : Bool) : Prop := ∀ rs, Safety.Arrives s.pkg q pkt ty → Safety.New p h resp →
        hbmAsks p ty a h.op0 h.op1 (payloadOf pkt) = some rs → exec c s = .next (Safety.withPkg s (openGate p (if bit h.flags 0 then 5 else 0) c rs))
      (now 0x01 false → acked (.store q pkt false) (fabStore p s.clk a (payloadOf pkt))) ∧ queued (.store q pkt false) 0x01 false ∧
      (now 0x06 false → acked (.fadd64 q pkt false) (srvFloatAdd p s.clk .b64 a (payloadOf pkt))) ∧ queued (.fadd64 q pkt false) 0x06 false ∧
      (now 0x07 false → acked (.fadd32 q pkt false) (srvFloatAdd p s.clk .b32 a (payloadOf pkt))) ∧ queued (.fadd32 q pkt false) 0x07 false ∧
      (now 0x09 false → acked (.postedAdd q pkt false) (srvFetchAdd p s.clk a h.op0)) ∧ queued (.postedAdd q pkt false) 0x09 false ∧
      (Safety.Arrives s.pkg q pkt 0x34 → Safety.Fresh p h → acked (.mgmt q pkt false) (Safety.withMgmt p (h.src, payloadOf pkt), .ok [])) ∧
      (now 0x02 true → answered (.loadReq q pkt false) 0x03 (fabLoad p s.clk a (h.op0 % 2 ^ 13))) ∧ queued (.loadReq q pkt false) 0x02 true ∧
      (now 0x04 true → answered (.fetchAdd q pkt false) 0x08 (srvFetchAdd p s.clk a h.op0)) ∧ queued (.fetchAdd q pkt false) 0x04 true ∧
      (now 0x05 true → answered (.cas q pkt false) 0x08 (srvCas p s.clk a h.op0 h.op1)) ∧ queued (.cas q pkt false) 0x05 true) ∧
   (∀ (s : State) (q : Fin 128) (pkt : List Byte) (poison : Bool), carries s.pkg q (parseHdr pkt).ty = true →
      placeOf (parseHdr pkt).daddr = ownPlace s.pkg →
      let p := Safety.heard s.pkg s.clk q pkt
      let h := parseHdr pkt
      (h.ty = 0x01 → (poison = true ∨ packetOk pkt = false) → exec (.store q pkt poison) s = .next (Safety.withPkg s (bump p rFabCrcdrop))) ∧
      (h.ty = 0x01 → packetOk pkt = true → underWay p h = false →
        (Safety.Duplicate p h → exec (.store q pkt false) s = .next (Safety.withPkg s (sendAck (bump p rFabDups) s.clk h))) ∧
        (256 ≤ seqAhead (ctx p h.rctx) h.seq → seqAhead (ctx p h.rctx) h.seq < 2 ^ 31 →
          exec (.store q pkt false) s = .next (Safety.withPkg s (sendNak p s.clk h 1))) ∧
        (Safety.Fresh p h → hbmAsks p 0x01 (localOf h.daddr) h.op0 h.op1 (payloadOf pkt) = none →
          ∀ p' e, fabStore p s.clk (localOf h.daddr) (payloadOf pkt) = (p', .error e) →
          exec (.store q pkt false) s = .next (Safety.withPkg s (sendNak p' s.clk h e)))) ∧
      (h.ty = 0x02 → packetOk pkt = true → underWay p h = false → Safety.Fresh p h → 4096 ≤ respsHeld p →
        exec (.loadReq q pkt false) s = .next (Safety.withPkg s (sendNak p s.clk h 2))) ∧
      (listedType h.ty = false → exec (.packetReservedType q pkt poison) s = .next (Safety.withPkg s (bump p rFabCrcdrop))))

/-- R296, R304, R305: an answer is taken by the request that its context and ASEQ name. A response is applied once, marked and
acknowledged; an ACK ends the request and counts its SSO object, or releases the retained response it names; a NAK of reason WINDOW
or BUSY has the packet sent again from now on, one of reason RANGE, MEMORY or RETIRED fails the request. LINK_STATE is held for
firmware (R330). -/
def Obligations.AnswersTaken : Prop :=
  ∀ (s : State) (q : Fin 128) (pkt : List Byte),
    let p := Safety.heard s.pkg s.clk q pkt
    let h := parseHdr pkt
    (∀ o, outFor p h = some o → Safety.Fresh p h →
      (Safety.Arrives s.pkg q pkt 0x03 → exec (.loadResp q pkt false) s =
        .next (Safety.withPkg s (sendAck (Safety.took p (answered p s.clk o (some (payloadOf pkt))) s.clk h) s.clk h))) ∧
      (Safety.Arrives s.pkg q pkt 0x08 → exec (.atomResp q pkt false) s =
        .next (Safety.withPkg s (sendAck (Safety.took p (answered p s.clk o (some (payloadOf pkt))) s.clk h) s.clk h)))) ∧
    (Safety.Arrives s.pkg q pkt 0x10 →
      (∀ o, outFor p h = some o → exec (.ack q pkt false) s = .next (Safety.withPkg s (answered p s.clk o none))) ∧
      (∀ r, outFor p h = none → respFor p h = some r → ∃ t, exec (.ack q pkt false) s = .next t ∧
        t.pkg.resps = p.resps.filter (fun x => !(x.rctx == r.rctx && x.rseq == r.rseq)) ∧ t.pkg.mem = p.mem)) ∧
    (Safety.Arrives s.pkg q pkt 0x11 →
      (h.nreason = 1 ∨ h.nreason = 2 → ∃ t, exec (.nak q pkt false) s = .next t ∧ t.pkg.mem = p.mem ∧
        ∀ o ∈ t.pkg.outs, o.ctx = h.rctx → o.seq = h.aseq → o.due = some s.clk.gsc) ∧
      (∀ o, h.nreason = 3 ∨ h.nreason = 4 ∨ h.nreason = 5 → outFor p h = some o →
        exec (.nak q pkt false) s = .next (Safety.withPkg s (failedOut p s.clk o (nakStatus h.nreason))))) ∧
    (Safety.Arrives s.pkg q pkt 0x33 → ∃ t, exec (.linkState q pkt false) s = .next t ∧ (sget t.pkg.ports q.val {}).link = pkt ∧ t.pkg.mem = p.mem)

/-- R297, R299, R303: a packet without an answer at its timeout (the plan's RTO, 12,500 ticks for an open one) becomes due for sending
again while resends are left; a request whose resends are used up fails with FAILED_FABRIC, and so does a response, which stays in
its store. R295: after 8,192 ticks without progress below a marked number the gap is counted. R297, R303: at the start of a retry
slot the packets that are due on the port, in the order of their due ticks, leave as far as the slot goes; credit that comes back,
of 256 flits in all, lets open packets leave in an open slot that ends before the port's next launch; answers leave in a slot of
any class (R300). R95: a read of comb memory from outside answers its bytes as every MX instruction that has issued leaves them,
and changes nothing. -/
def Obligations.TimeoutsRetriesOpenSlots : Prop :=
   ((∀ (s : State) (cx seq : Nat) (o : OutPkt) (t0 : Nat), heldPkt s.pkg cx seq = some o → o.sent = some t0 → t0 + o.rto ≤ s.clk.gsc →
      o.dead = false →
      let c : Instr := if o.opn then .openTimeout cx seq else .retryTimeout cx seq
      (o.resends < o.rlim → o.due = none → ∃ t, exec c s = .next t ∧ t.pkg.mem = s.pkg.mem ∧ t.pkg.regs = s.pkg.regs ∧
        ∀ x ∈ t.pkg.outs, x.ctx = cx → x.seq = seq → x.due = some (t0 + o.rto)) ∧
      (o.rlim ≤ o.resends → s.pkg.outs.find? (fun x => x.ctx == cx && x.seq == seq) = some o →
        exec c s = .next (Safety.withPkg s (failedOut s.pkg s.clk o 0x22))) ∧
      (o.rlim ≤ o.resends → s.pkg.outs.find? (fun x => x.ctx == cx && x.seq == seq) = none →
        exec c s = .next (Safety.withPkg s (respFails s.pkg s.clk o)))) ∧
    (∀ (s : State) (cx : Nat), (ctx s.pkg cx).rxmap ≠ 0#256 → (ctx s.pkg cx).stall + 8192 ≤ s.clk.gsc →
      ∃ t, exec (.gapTimer cx) s = .next t ∧ rget t.pkg rFabGaps = (rget s.pkg rFabGaps + 1) % 2 ^ 32 ∧ (ctx t.pkg cx).stall = s.clk.gsc ∧
        (ctx t.pkg cx).rxbase = (ctx s.pkg cx).rxbase ∧ t.pkg.mem = s.pkg.mem)) ∧
   ((∀ (s : State) (q : Fin 128), slotNow s.pkg s.clk q % 16 = 15 → (sget s.pkg.ports q.val {}).ran ≤ slotStart s.pkg s.clk q →
      let p := takeSlot s.pkg q (slotStart s.pkg s.clk q)
      exec (.retrySlot q) s = .next (Safety.withPkg s (sendAnswers (retrySend s.clk q (slotStart s.pkg s.clk q)
        (byKey (Safety.dueOnes p q (slotStart s.pkg s.clk q))) p) s.clk q))) ∧
    (∀ a b : Waiting, keyLe a.key b.key = false → byKey [a, b] = [b, a]) ∧
    (∀ a b : Waiting, keyLe a.key b.key = true → byKey [a, b] = [a, b]) ∧
    (∀ (s : State) (q : Fin 128) (n : Nat), let p := Safety.credited s.pkg s.clk q n
      (openNow p s.clk q = false ∨ beforeNextL p s.clk q = false ∨ drained p q = true) →
      exec (.openCreditSend q n) s = .next (Safety.withPkg s (sendAnswers p s.clk q))) ∧
    (∀ (s : State) (q : Fin 128) (n : Nat), (sget (Safety.credited s.pkg s.clk q n).ports q.val {}).credit =
      min 256 ((sget s.pkg.ports q.val {}).credit + n)) ∧
    (∀ (s : State) (q : Fin 128) (n : Nat), let p := Safety.credited s.pkg s.clk q n
      openNow p s.clk q = true → beforeNextL p s.clk q = true → drained p q = false →
      exec (.openCreditSend q n) s = .next (Safety.withPkg s (sendAnswers (openGo s.clk q (Safety.openOnes p q) p) s.clk q))) ∧
    (∀ (s : State) (t : Fin 128) (off len : Nat), 0 < len → off + len ≤ 0x800000 → tileInService s.pkg t = true →
      s.pkg.badLines = [] → s.pkg.ceLines = [] →
      ∃ u, exec (.outsideCombRead t off len) s = .next u ∧ u.pkg.combOut = mread (combView s.pkg t) (combBase t + off) len ∧ u.pkg.mem = s.pkg.mem ∧
        u.pkg.regs = s.pkg.regs ∧ ((∀ f ∈ (tile s.pkg t).infl, combWriter f = false) → u.pkg.combOut = mread s.pkg.mem (combBase t + off) len)))

/-- R301, R302, R322: at the start of a slot that a running launch's traffic section gives entries of its own units, or transit
entries, the entries are carried out in order and the answers follow. R298, R302: a packet of the launch's own that is ready and
fits its slot leaves once, with the traffic entry's retry limits; one that is not formed or not ready when its slot comes stops the
tile of its unit. R320 to R322: a packet in transit leaves in its slot with one more hop, at most 5; a slot without its packet
counts a miss. -/
def Obligations.SlotsRun : Prop :=
   (∀ (s : State) (l frame : Nat) (slot : Fin 256) (q : Fin 128) (y : Launch) (transit : Bool), findLaunch s.pkg l = some y → y.running = true →
      y.closed = false → y.L + 4096 * frame + 16 * slot.val ≤ s.clk.gsc → (sget s.pkg.ports q.val {}).ran ≤ y.L + 4096 * frame + 16 * slot.val →
      let start := y.L + 4096 * frame + 16 * slot.val
      let mine := (numbered (planSlots s.pkg y.plan)).filter (fun e => e.1.frame == frame && e.1.slot == slot.val && e.1.port == q.val)
      mine.any (fun e => (e.1.ukind == 4) == transit) = true →
      exec (if transit then .transitSlot l frame slot q else .scheduledSlot l frame slot q) s = .next (Safety.withPkg s
        (sendAnswers (mine.foldl (fun p e => if e.1.ukind = 4 then transitEntry p s.clk e.2 e.1 else ownEntry p s.clk y start e.1)
          (takeSlot s.pkg q start)) s.clk q))) ∧
   ((∀ (p : Pkg) (c : Clock) (l : Launch) (start : Nat) (e : Slot) (o : OutPkt), heldPkt p e.cx (slotSeq l e) = some o → o.sent = none → o.ready = true →
      sentCount p < 2048 → sentOn p e.cx < 256 → slotFits p e.port (flitsOf o.bytes) = true →
      (e.ukind = 0 → destFull (tile p e.unit) (placeOf (parseHdr o.bytes).daddr) = false) →
      ownEntry p c l start e = sendHeld (slotUse (modHeld p o.ctx o.seq (fun x => Safety.limits x e)) e.port (flitsOf o.bytes)) c e.port start o false) ∧
    (∀ (p : Pkg) (c : Clock) (l : Launch) (start : Nat) (e : Slot), (heldPkt p e.cx (slotSeq l e) = none ∨
        ∃ o, heldPkt p e.cx (slotSeq l e) = some o ∧ o.sent = none ∧ o.ready = false) → ownEntry p c l start e = trafficFault p c l e) ∧
    (∀ (p : Pkg) (c : Clock) (n : Nat) (e : Slot), (sget p.ports e.unit {}).transit[n]? = none → transitEntry p c n e = bump p rFabTransitmiss) ∧
    (∀ (p : Pkg) (c : Clock) (n : Nat) (e : Slot) (w : Wire), (sget p.ports e.unit {}).transit[n]? = some w →
      (5 ≤ w.hops → transitEntry p c n e = bump p rFabHopdrop) ∧
      (w.hops < 5 → slotFits p e.port (flitsOf w.bytes) = true → portUp p e.port = true →
        transitEntry p c n e = transmit (slotUse p e.port (flitsOf w.bytes)) c e.port w.bytes (w.hops + 1) w.poison)))

/-- R318, R320, R322: a packet for another place: one of a scheduled slot waits for its transit slot; another is queued for the port
that the route tables give, with one more hop; an open one takes room in the port's buffer of 256 flits until it goes on (R303);
without a route, or past 5 hops, it is dropped and counted. -/
def Obligations.PacketsForwarded : Prop :=
  ∀ (s : State) (q : Fin 128) (hops : Nat) (pkt : List Byte), carries s.pkg q (parseHdr pkt).ty = true → placeOf (parseHdr pkt).daddr ≠ ownPlace s.pkg →
    ((parseHdr pkt).ty < 0x30 ∨ 0x33 < (parseHdr pkt).ty) →
    let p := owl s.pkg s.clk q false pkt
    let ty := (parseHdr pkt).ty
    let answer : Prop := ty = 0x10 ∨ ty = 0x11 ∨ isWaggle ty = true
    (∃ t, exec (.packetForward q hops pkt false true) s = .next t ∧
      (sget t.pkg.ports q.val {}).transit = (sget p.ports q.val {}).transit ++ [{ port := q, bytes := pkt, hops := hops, tick := s.clk.gsc, poison := false }] ∧
      t.pkg.mem = p.mem ∧ t.pkg.regs = p.regs) ∧
    (route p (placeOf (parseHdr pkt).daddr) ty = none →
      exec (.packetForward q hops pkt false false) s = .next (Safety.withPkg s (creditBack (bump p rFabNoroute) q pkt))) ∧
    (∀ r, route p (placeOf (parseHdr pkt).daddr) ty = some r →
      let w := Safety.onward s.clk r hops pkt
      (5 ≤ hops → exec (.packetForward q hops pkt false false) s = .next (Safety.withPkg s (creditBack (bump p rFabHopdrop) q pkt))) ∧
      (hops < 5 → answer → exec (.packetForward q hops pkt false false) s = .next (Safety.withPkg s { p with answers := p.answers ++ [w] })) ∧
      (hops < 5 → ¬ answer → bit (parseHdr pkt).flags 0 = false →
        exec (.packetForward q hops pkt false false) s = .next (Safety.withPkg s { p with fwd := p.fwd ++ [w] })) ∧
      (hops < 5 → ¬ answer → bit (parseHdr pkt).flags 0 = true → (sget p.ports q.val {}).held + flitsOf pkt ≤ 256 →
        exec (.packetForward q hops pkt false false) s =
          .next (Safety.withPkg s (bufferTake { p with fwd := p.fwd ++ [{ w with via := some q.val }] } q (flitsOf pkt)))))

/-- R456 to R459, R234, R253, R335: a placed swap of a tile, an SLV or a UE takes its spare, when FREE, when its tick comes and holds
its ledger entry; after its duration the spare serves the unit's logical number and the unit is FAULTY. A placed row repair, lane
replacement or laser switchover starts when its tick comes, and is done after its duration: one more spare is in use, or the fibres
are on input 3. A keeper that is to be swapped gives its role to the spare keeper of its die. Memory contents stay. R278, R406,
R461, R462: a placed test or calibration starts when its tick comes and holds its entry; a calibration that has run leaves nothing
behind; a spare tile that passes its test is FREE again, one that fails is FAULTY, and both count; the pattern of a live test runs
for 200,000 ticks, and a tile that fails it is FAULTY, its spare going on. A calibration that firmware asks for is placed. -/
def Obligations.PlacedActions : Prop :=
   ((∀ (s : State) (id : Nat) (x : Placed) (fails : Bool), Safety.DueToStart s id x → unitState s.pkg x.spare = 1 →
      let c : Instr := if x.kind = 0x20 then .tileSwap id fails else if x.kind = 0x21 then .slvSwap id fails else .ueSwap id fails
      x.kind = 0x20 ∨ x.kind = 0x21 ∨ x.kind = 0x22 →
      ∃ t, exec c s = .next t ∧ unitState t.pkg x.spare = 4 ∧ t.pkg.ledger.getLast? = some (x.claim x.start) ∧ t.pkg.mem = s.pkg.mem ∧ t.pkg.store = s.pkg.store) ∧
    (∀ (s : State) (id : Nat) (x : Placed), Safety.DueToEnd s id x → x.unit ≠ x.spare →
      let c : Instr := if x.kind = 0x20 then .tileSwap id false else if x.kind = 0x21 then .slvSwap id false else .ueSwap id false
      x.kind = 0x20 ∨ x.kind = 0x21 ∨ x.kind = 0x22 →
      ∃ t, exec c s = .next t ∧ unitState t.pkg x.spare = 0 ∧ unitLogical t.pkg x.spare = unitLogical s.pkg x.unit ∧ unitState t.pkg x.unit = 3 ∧
        t.pkg.mem = s.pkg.mem) ∧
    (∀ (s : State) (id : Nat) (x : Placed), Safety.DueToStart s id x →
      let c : Instr := if x.kind = 0x23 then .scratchpadRowRepair id else if x.kind = 0x24 then .hbmRowRepair id else .laserSwitchover id
      x.kind = 0x23 ∨ x.kind = 0x24 ∨ x.kind = 0x26 →
      ∃ t, exec c s = .next t ∧ t.pkg.ledger.getLast? = some (x.claim x.start) ∧ t.pkg.mem = s.pkg.mem ∧ t.pkg.repairs = s.pkg.repairs) ∧
    (∀ (s : State) (id : Nat) (x : Placed), Safety.DueToEnd s id x →
      (x.kind = 0x23 → ∃ t, exec (.scratchpadRowRepair id) s = .next t ∧ sget t.pkg.repairs (bankKey x.unit (x.aux % 64)) 0 =
        sget s.pkg.repairs (bankKey x.unit (x.aux % 64)) 0 + 1 ∧ t.pkg.mem = s.pkg.mem ∧ findPlaced t.pkg id = none) ∧
      (x.kind = 0x24 → ∃ t, exec (.hbmRowRepair id) s = .next t ∧ sget t.pkg.repairs (pcKey x.unit (bits x.aux 11 6)) 0 =
        sget s.pkg.repairs (pcKey x.unit (bits x.aux 11 6)) 0 + 1 ∧ t.pkg.mem = s.pkg.mem ∧ findPlaced t.pkg id = none) ∧
      (x.kind = 0x26 → rbit s.pkg (rFabFdstat (x.unit / 4)) 4 = true → rbit s.pkg (rFabFdstat (x.unit / 4)) 5 = false →
        ∃ t, exec (.laserSwitchover id) s = .next t ∧ sget t.pkg.lasers (x.unit / 4) 0 = x.unit % 4 ∧ t.pkg.mem = s.pkg.mem)) ∧
    (∀ (s : State) (k ch : Fin 32),
      (∀ x, s.pkg.placed.find? (fun y => y.kind == 0x25 && y.unit == k.val * 32 + ch.val) = some x → Safety.DueToEnd s x.id x →
        ∃ t, exec (.hbmLaneReplacement k ch) s = .next t ∧ sget t.pkg.repairs (laneKey k ch) 0 = sget s.pkg.repairs (laneKey k ch) 0 + 1 ∧
          t.pkg.mem = s.pkg.mem) ∧
      (s.pkg.placed.find? (fun y => y.kind == 0x25 && y.unit == k.val * 32 + ch.val) = none → 2 ≤ sget s.pkg.repairs (laneKey k ch) 0 →
        exec (.hbmLaneReplacement k ch) s = .next (Safety.withPkg s (stackLost s.pkg s.clk k))) ∧
      (s.pkg.placed.find? (fun y => y.kind == 0x25 && y.unit == k.val * 32 + ch.val) = none → sget s.pkg.repairs (laneKey k ch) 0 < 2 →
        exec (.hbmLaneReplacement k ch) s = .next (Safety.withPkg s (requestAction s.pkg s.clk 0x25 (k.val * 32 + ch.val) 0)))) ∧
    (∀ (s : State) (k : Fin 8) (n : Nat), (∃ x ∈ s.pkg.placed, x.kind = 0x28 ∧ x.unit = k.val) → unitState s.pkg (304 + k) = 0 →
      freeSpare s.pkg (304 + k) = some n →
      ∃ t, exec (.keeperSwap k) s = .next t ∧ unitState t.pkg n = 0 ∧ unitLogical t.pkg n = unitLogical s.pkg (304 + k) ∧ unitState t.pkg (304 + k) = 3 ∧
        t.pkg.mem = s.pkg.mem ∧ t.pkg.ops = s.pkg.ops)) ∧
   ((∀ (s : State) (id : Nat) (x : Placed), Safety.DueToStart s id x → x.kind < 0x20 → x.kind ≠ 1 →
      ∃ t, exec (.selfTestStart id) s = .next t ∧ t.pkg.ledger.getLast? = some (x.claim x.start) ∧ t.pkg.mem = s.pkg.mem ∧
        (x.kind = 2 → unitState t.pkg x.unit = 2)) ∧
    (∀ (s : State) (id : Nat) (x : Placed) (result : Nat), Safety.DueToEnd s id x →
      (x.kind = 0x10 → ∃ t, exec (.selfTestEnd id false result) s = .next t ∧ findPlaced t.pkg id = none ∧ t.pkg.mem = s.pkg.mem ∧
        t.pkg.punits = s.pkg.punits) ∧
      (x.kind = 2 → (∃ t, exec (.selfTestEnd id false result) s = .next t ∧ unitState t.pkg x.unit = 1 ∧ t.pkg.mem = s.pkg.mem) ∧
        (∃ t, exec (.selfTestEnd id true result) s = .next t ∧ unitState t.pkg x.unit = 3 ∧ t.pkg.mem = s.pkg.mem))) ∧
    (∀ (s : State) (id : Nat) (x : Placed) (result : Nat), findPlaced s.pkg id = some x → x.kind = 1 → x.stage = 2 → x.start + 200000 ≤ s.clk.gsc →
      x.warned = false →
      ∃ t, exec (.liveTestPatternEnd id true result) s = .next t ∧ unitState t.pkg x.aux = 3 ∧ findPlaced t.pkg id = none ∧ t.pkg.mem = s.pkg.mem) ∧
    (∀ (s : State) (code dur deadline tiles slvs ues : Nat) (ports : List (Fin 128)),
      exec (.calibrationRequest code dur deadline tiles slvs ues ports) s = .next (Safety.withPkg s (requestPlaced s.pkg s.clk
        { id := 0, kind := 0x10, unit := code, dur := dur, deadline := deadline, req := 0, tiles := tiles, slvs := slvs, ues := ues,
          ports := ports.map (fun q => q.val) }))))

/-- R254, R157, R465, R451: when a stack is lost the package retires and all work ends (here, with nothing in flight, what its
registers and store then show); a second loss of the same stack changes nothing. A tile that fails in a launch stops and gives the
launch the cause FAILED_HARDWARE. The copies of a new configuration record are written one after the other, the third one making it
the record in use everywhere. A health window that ends starts a new list of corrected errors, and BASELINE shows from the tenth
window on (R452). -/
def Obligations.FailuresAndRecords : Prop :=
  (∀ (s : State) (k : Fin 32),
    (rbit s.pkg rMemStklost k = false → ∃ t, exec (.stackLoss k) s = .next t ∧ t.pkg.launches = [] ∧ t.pkg.ledger = [] ∧ t.pkg.placed = [] ∧
      t.pkg.jobs = [] ∧ (s.pkg.launches = [] → s.pkg.placed = [] → s.pkg.ops = [] → s.pkg.gates = [] → t.pkg.store.retired = true ∧ retired t.pkg = true ∧
        rbit t.pkg rMemStklost k = true ∧ rbit t.pkg rGlbStatus 0 = false ∧ t.pkg.mem = s.pkg.mem)) ∧
    (rbit s.pkg rMemStklost k = true → exec (.stackLoss k) s = .next s)) ∧
  (∀ (s : State) (t : Fin 128) (l : Nat), (tile s.pkg t).launch = some l → ∃ u, exec (.unitFailure 0 t) s = .next u ∧
    (tile u.pkg t).stopped = true ∧ (∀ y ∈ u.pkg.launches, y.id = l → (s.clk.gsc, 0x20) ∈ y.causes) ∧ u.pkg.mem = s.pkg.mem ∧ u.pkg.regs = s.pkg.regs) ∧
  (∀ (s : State) (r n : CfgRec), keepersRun s.pkg = true → recInUse s.pkg = some r → s.pkg.store.next = some n → s.pkg.store.copies.length = 3 →
    s.pkg.store.copies.take 2 = [n, n] → ∃ t, exec (.configRecordWrite 2 none) s = .next t ∧ t.pkg.store.copies = [n, n, n] ∧ t.pkg.store.next = none ∧
      t.pkg.mem = s.pkg.mem ∧ t.pkg.punits = s.pkg.punits) ∧
  (∀ (s : State) (errs : List (Nat × Nat × Nat)) (low : List (Fin 4 × Fin 4)), stageOf s.pkg = 4 → s.pkg.health.ready + (rget s.pkg rHltWindow + 1) * windowTicks * tickUnits s.pkg ≤ s.clk.up →
    ∃ t, exec (.healthWindowEnd errs low) s = .next t ∧ t.pkg.ceSeen = [] ∧ rbit t.pkg rHltStatus 0 = decide (10 ≤ rget t.pkg rHltWindow)) ∧
  (∀ (base : List Nat) (c floor mult abs : Nat), (base.length < 10 → exceeds base c floor mult abs = decide (abs ≤ c)) ∧
    (10 ≤ base.length → exceeds base c floor mult abs = (decide (floor ≤ c) && decide (mult * base.sum < 8 * base.length * c)))) ∧
  (∀ (base : List Nat) (c : Nat), base.length ≤ 64 → (baseAdd base c).length ≤ 64 ∧ (baseAdd base c).getLast? = some c)

/-- R394, R395, R397, R400, R410: ring registers, while the 12 V input is valid. A doorbell below the ring's depth is taken, another is
counted and ignored; enabling a ring sets its pointers to their start (for a completion ring phase 1 and every slot free);
disabling a submission ring clears EN, and a completion ring keeps EN while a slot is reserved. A fetch copies one descriptor,
reserves a completion slot, advances the head and counts. Memory stays. R398 to R400, R390: a completion takes the operation out of
those in flight; while an ECL port is up, its entry goes into the slot at the tail of its completion ring with the ring's phase,
and the tail moves on by one, the phase turning over at the end of the ring; with both ECL ports down host memory stays. Package
memory never changes. -/
def Obligations.RingsAndCompletions : Prop :=
   ((∀ (s : State) (r : Fin 64) (v : W32), live s.pkg = true →
      (v.toNat % 65536 < sqDepth s.pkg r → ∃ t, exec (.sqDoorbell r v) s = .next t ∧ rget t.pkg (rSq r 0x10) = v.toNat % 65536 ∧
        (∀ o, o ≠ rSq r 0x10 → rget t.pkg o = rget s.pkg o) ∧ t.pkg.mem = s.pkg.mem) ∧
      (sqDepth s.pkg r ≤ v.toNat % 65536 → exec (.sqDoorbell r v) s = .next (Safety.withPkg s (bump s.pkg rHifBaddb))) ∧
      (v.toNat % 65536 < cqDepth s.pkg r → ∃ t, exec (.cqDoorbell r v) s = .next t ∧ rget t.pkg (rCq r 0x10) = v.toNat % 65536 ∧
        sget t.pkg.cqUsed r.val 0 = sget s.pkg.cqUsed r.val 0 - (v.toNat % 65536 + cqDepth s.pkg r - rget s.pkg (rCq r 0x10)) % cqDepth s.pkg r ∧
        t.pkg.mem = s.pkg.mem) ∧
      (cqDepth s.pkg r ≤ v.toNat % 65536 → exec (.cqDoorbell r v) s = .next (Safety.withPkg s (bump s.pkg rHifBaddb))) ∧
      (sqEn s.pkg r = false → ∃ t, exec (.sqEnable r v) s = .next t ∧ sqEn t.pkg r = true ∧ rget t.pkg (rSq r 0xC) = 0 ∧ rget t.pkg (rSq r 0x10) = 0 ∧
        rfld t.pkg (rSq r 8) 13 8 = bits v.toNat 13 8 ∧ t.pkg.mem = s.pkg.mem) ∧
      (cqEn s.pkg r = false → ∃ t, exec (.cqEnable r v) s = .next t ∧ cqEn t.pkg r = true ∧ rget t.pkg (rCq r 0xC) = 0x10000 ∧
        rget t.pkg (rCq r 0x10) = 0 ∧ sget t.pkg.cqUsed r.val 0 = 0 ∧ t.pkg.mem = s.pkg.mem) ∧
      (sqEn s.pkg r = true → ∃ t, exec (.sqDisable r) s = .next t ∧ sqEn t.pkg r = false ∧ (∀ o, o ≠ rSq r 8 → rget t.pkg o = rget s.pkg o) ∧
        t.pkg.ops = s.pkg.ops) ∧
      (cqEn s.pkg r = true → rfld s.pkg (rCq r 0x14) 16 0 = 0 → ∃ t, exec (.cqDisable r) s = .next t ∧ cqEn t.pkg r = false ∧
        (∀ o, o ≠ rCq r 8 → rget t.pkg o = rget s.pkg o)) ∧
      (cqEn s.pkg r = true → rfld s.pkg (rCq r 0x14) 16 0 ≠ 0 → exec (.cqDisable r) s = .next s)) ∧
    (∀ (s : State) (r : Fin 64) (bytes : List Byte), nextRing s.pkg (r / 32) = some r.val → bytes.length = 64 → ∃ t, exec (.descriptorFetch r bytes) s = .next t ∧
      t.pkg.ops = s.pkg.ops ++ [{ id := s.pkg.nextOp, sq := r, cq := rfld s.pkg (rSq r 8) 13 8, tag := field bytes 2 2, desc := bytes, arrival := s.clk.gsc }] ∧
      sget t.pkg.turns (r / 32) 0 = (r + 1) % 32 ∧ rget t.pkg (rSq r 0xC) = (rget s.pkg (rSq r 0xC) + 1) % sqDepth s.pkg r ∧ rget t.pkg rHifDescs = (rget s.pkg rHifDescs + 1) % 2 ^ 32 ∧
      t.pkg.mem = s.pkg.mem ∧ t.pkg.host = s.pkg.host)) ∧
   (∀ (p : Pkg) (c : Clock) (o : Op) (status : Nat) (fl : Flags) (value aux : Nat) (rep : Bool), findOp p o.id = some o →
      (complete p c o.id status fl value aux rep).ops = p.ops.filter (fun x => x.id != o.id) ∧
      (complete p c o.id status fl value aux rep).mem = p.mem ∧
      (eclUp p = false → (complete p c o.id status fl value aux rep).host = p.host) ∧
      (eclUp p = true → o.cq < 64 → o.sq < 64 → rfld p (rCq o.cq 0xC) 15 0 < cqDepth p o.cq → o.fromRing = true →
        (complete p c o.id status fl value aux rep).host = mwrite p.host
          (rget p (rCq o.cq 0) + rget p (rCq o.cq 4) * 2 ^ 32 + 32 * rfld p (rCq o.cq 0xC) 15 0)
          (completionEntry o c status fl value aux rep (rfld p (rSq o.sq 0xC) 15 0) (rfld p (rCq o.cq 0xC) 16 16)) ∧
        (rfld p (rCq o.cq 0xC) 15 0 + 1 < cqDepth p o.cq →
          rget (complete p c o.id status fl value aux rep) (rCq o.cq 0xC) = rfld p (rCq o.cq 0xC) 15 0 + 1 + rfld p (rCq o.cq 0xC) 16 16 * 2 ^ 16) ∧
        (rfld p (rCq o.cq 0xC) 15 0 + 1 = cqDepth p o.cq →
          rget (complete p c o.id status fl value aux rep) (rCq o.cq 0xC) = (1 - rfld p (rCq o.cq 0xC) 16 16) * 2 ^ 16)))

/-- R273, R275, R402, R42, R406: descriptors that are carried out. A launch of one member that admission accepts joins the launches and
holds its ledger entry, one that it refuses completes and holds nothing; `ADMIT_ONLY` holds nothing either way; a plan load of
length 0 forgets the plan, a load stores the bytes that host memory or HBM holds; a self-test is asked of the placement; a kind
that is not listed, or a reserved field that is not zero, completes with REFUSED_RESOURCE; in a retired package every kind
completes with FAILED_HARDWARE (R254). R312, R405, R407: a hand-off makes an owned region HANDOFF, and completes with the region
owned by the new place, its count one up modulo 4,096, once no response is owed to the old owner and no base-die atomic in it is
under way; an update of a table that needs a permission it has not is refused, one of route entries writes the inactive bank for a
switch at S, another one that keeps the rules completes; a cancel that finds no target completes alone, and one whose target is a
waiting descriptor completes both. -/
def Obligations.DescriptorsCarriedOut : Prop :=
   ((∀ (s : State) (op : Nat) (o : Op), Safety.Begins s.pkg op 2 o → bit (field o.desc 1 1) 0 = false →
      let a := launchAsk (beginOp s.pkg op) (field o.desc 4 2) (field o.desc 8 8) (field o.desc 16 8) false
      (admission (beginOp s.pkg op) s.clk o.arrival a = .accept → ∃ t, exec (.launch op) s = .next t ∧ t.pkg.launches = s.pkg.launches ++ [soloLaunch o a] ∧
        { a.entry (beginOp s.pkg op) with who := .launch (soloLaunch o a).id } ∈ t.pkg.ledger ∧ t.pkg.mem = s.pkg.mem) ∧
      (∀ st d, admission (beginOp s.pkg op) s.clk o.arrival a = .refuse st d → ∃ t, exec (.launch op) s = .next t ∧ t.pkg.launches = s.pkg.launches ∧
        t.pkg.ledger = s.pkg.ledger ∧ findOp t.pkg op = none ∧ t.pkg.mem = s.pkg.mem)) ∧
    (∀ (s : State) (op : Nat) (o : Op), Safety.Begins s.pkg op 3 o → bit (field o.desc 1 1) 0 = false →
      ∃ t, exec (.admitOnly op) s = .next t ∧ t.pkg.launches = s.pkg.launches ∧ t.pkg.ledger = s.pkg.ledger ∧ findOp t.pkg op = none ∧ t.pkg.mem = s.pkg.mem) ∧
    (∀ (s : State) (op : Nat) (o : Op) (data : List Byte), Safety.Begins s.pkg op 1 o → field o.desc 4 2 < 1024 → planBusy s.pkg (field o.desc 4 2) = false →
      (field o.desc 16 8 = 0 → ∃ t, exec (.loadPlan op data) s = .next t ∧ t.pkg.plans = sdel s.pkg.plans (field o.desc 4 2) ∧ findOp t.pkg op = none ∧
        t.pkg.mem = s.pkg.mem) ∧
      (0 < field o.desc 16 8 → field o.desc 16 8 % 4096 = 0 → field o.desc 16 8 ≤ 2 ^ 32 → bit (field o.desc 1 1) 1 = true → field o.desc 16 8 ≤ data.length →
        exec (.loadPlan op data) s = .next (Safety.withPkg s (storePlan (beginOp s.pkg op) s.clk op (field o.desc 4 2) (field o.desc 16 8)
          (data.take (field o.desc 16 8))))) ∧
      (0 < field o.desc 16 8 → field o.desc 16 8 % 4096 = 0 → field o.desc 16 8 ≤ 2 ^ 32 → bit (field o.desc 1 1) 1 = false →
        field o.desc 8 8 + field o.desc 16 8 ≤ hbmUserEnd → s.pkg.badLines = [] → s.pkg.ceLines = [] →
        exec (.loadPlan op data) s = .next (Safety.withPkg s (storePlan
          (enqueueAll (beginOp s.pkg op) 4 (chargeReads .firmware [(field o.desc 8 8, field o.desc 16 8)])) s.clk op (field o.desc 4 2) (field o.desc 16 8)
          (mread s.pkg.mem (field o.desc 8 8) (field o.desc 16 8)))))) ∧
    (∀ (s : State) (op : Nat) (o : Op), Safety.Begins s.pkg op 6 o → exec (.selfTest op) s =
      .next (Safety.withPkg s (askTest (beginOp s.pkg op) s.clk (field o.desc 4 2) (field o.desc 6 2) (field o.desc 8 8) (some op) false))) ∧
    (∀ (s : State) (op : Nat) (o : Op), findOp s.pkg op = some o → opWaits s.pkg o = true → descOk o.desc = false →
      exec (.descriptorUnknownKind op) s = .next (Safety.withPkg s (complete s.pkg s.clk op (if retired s.pkg then 0x20 else 0x12) 0#16 0 0 false))) ∧
    (∀ (s : State) (op : Nat) (o : Op), findOp s.pkg op = some o → opWaits s.pkg o = true → descOk o.desc = true → retired s.pkg = true →
      field o.desc 0 1 = 2 → exec (.launch op) s = .next (Safety.withPkg s (complete s.pkg s.clk op 0x20 0#16 0 0 false)))) ∧
   ((∀ (s : State) (op : Nat) (o : Op) (i : Nat), Safety.Begins s.pkg op 7 o → (region s.pkg i).state = 1 →
      (List.range 8192).find? (fun i => (region s.pkg i).state != 0 && (region s.pkg i).base == field o.desc 8 8) = some i →
      ∃ t, exec (.regionHandoff op) s = .next t ∧ (region t.pkg i).state = 2 ∧ (region t.pkg i).owner = (region s.pkg i).owner ∧
        t.pkg.handoffs = s.pkg.handoffs ++ [{ op := op, region := i, owner := field o.desc 16 4 % 2 ^ 18, start := s.clk.gsc }] ∧ t.pkg.mem = s.pkg.mem) ∧
    (∀ (s : State) (op : Nat) (h : Handoff), s.pkg.handoffs.find? (fun x => x.op == op) = some h → owedTo s.pkg (region s.pkg h.region).owner = false →
      atomicIn s.pkg (region s.pkg h.region) = false →
      h.region < 8192 → h.owner < 2 ^ 18 →
      ∃ t q, exec (.handoffComplete op) s = .next t ∧ t.pkg = complete q s.clk op 0 0#16 0 (((region s.pkg h.region).gen + 1) % 4096) false ∧
        (region q h.region).owner = h.owner ∧ (region q h.region).state = 1 ∧ (region q h.region).gen = ((region s.pkg h.region).gen + 1) % 4096 ∧
        q.handoffs = s.pkg.handoffs.filter (fun x => x.op != op) ∧ q.mem = s.pkg.mem) ∧
    (∀ (s : State) (op : Nat) (o : Op) (data : List Byte) (size k : Nat), Safety.Begins s.pkg op 8 o → tableShape (field o.desc 4 1) = some (size, k) →
      let p := beginOp s.pkg op
      let es := chunksOf (field o.desc 8 4) k data
      (rbit s.pkg rHifTuperm (field o.desc 4 1) = false → exec (.tableUpdate op data) s = .next (Safety.withPkg s (complete p s.clk op 0x13 0#16 0 0 false))) ∧
      (rbit s.pkg rHifTuperm (field o.desc 4 1) = true → field o.desc 12 4 < size → field o.desc 12 4 + field o.desc 8 4 ≤ size →
        ((field o.desc 4 1 = 3 ∨ field o.desc 4 1 = 4) → o.arrival + 8192 ≤ field o.desc 24 8 → switchElsewhere s.pkg (field o.desc 24 8) = false →
          exec (.tableUpdate op data) s = .next (Safety.withPkg s (updateRoutes p op (field o.desc 4 1) (field o.desc 12 4) (field o.desc 24 8) (es.map leNat)))) ∧
        (∀ q, field o.desc 4 1 ≠ 3 → field o.desc 4 1 ≠ 4 → updateTable p s.clk (field o.desc 4 1) (field o.desc 12 4) es = some q →
          exec (.tableUpdate op data) s = .next (Safety.withPkg s (complete q s.clk op 0 0#16 0 (field o.desc 8 4) false))))) ∧
    (∀ (s : State) (op : Nat) (o : Op), Safety.Begins s.pkg op 9 o →
      let tgt := (beginOp s.pkg op).ops.find? (fun t => t.fromRing && t.id != op && t.sq == field o.desc 4 1 && t.tag == field o.desc 6 2)
      (tgt = none → exec (.cancel op) s = .next (Safety.withPkg s (complete (beginOp s.pkg op) s.clk op 0 0#16 0 0 false))) ∧
      (∀ t, tgt = some t → t.begun = false → field t.desc 0 1 = 2 → s.pkg.launches = [] → s.pkg.placed = [] → exec (.cancel op) s =
        .next (Safety.withPkg s (complete (complete (beginOp s.pkg op) s.clk op 0 0#16 0 1 false) s.clk t.id 0x3F 0#16 0 0 false)))))

/-- R392, R393, R309, R390: an access through LOCAL on a port that is up, of 1 to 64 bytes within a line (an atomic aligned), that a
HOST window allows, is served and answered with the data, or, when it goes to HBM, waits for its turn in partition 1 (Table 10.3);
one that no window allows has error 2 and changes no memory. An access through REMOTE to another place leaves as an open packet,
one to the own place goes on like one through LOCAL. A port that loses lanes shows its new width, and one that trains shows its
lanes. -/
def Obligations.HostAccesses : Prop :=
  (∀ (s : State) (q : Fin 2) (id addr : Nat) (a : Access), eclPortUp s.pkg q = true → shapeOk addr a = true → retired s.pkg = false →
    let p := Safety.hostActive s.pkg s.clk
    let r := accessReq a addr
    (windowOk s.pkg (ownPlace s.pkg * 2 ^ 46 + addr) (accessBytes a) (accessPerm a) clsHost = true →
      (∀ rs, hbmAsks p r.ty addr r.op0 r.op1 r.payload = some rs →
        exec (.hostLocalAccess q id addr a) s = .next (Safety.withPkg s (openGate p 1 (.hostLocalAccess q id addr a) rs))) ∧
      (hbmAsks p r.ty addr r.op0 r.op1 r.payload = none → ∀ p' d, serveLocal p s.clk addr a = (p', .ok d) →
        exec (.hostLocalAccess q id addr a) s = .next (Safety.withPkg s (eclReply p' id 0 a d)))) ∧
    (windowOk s.pkg (ownPlace s.pkg * 2 ^ 46 + addr) (accessBytes a) (accessPerm a) clsHost = false → ∃ t, exec (.hostLocalAccess q id addr a) s = .next t ∧
      t.pkg.mem = s.pkg.mem ∧ rget t.pkg rHifEclerr = (rget s.pkg rHifEclerr + 1) % 2 ^ 32 ∧ ∃ r, t.pkg.hostOut = s.pkg.hostOut ++ [r] ∧ r.id = id ∧ r.err = 2)) ∧
  (∀ (s : State) (q : Fin 2) (id addr : Nat) (a : Access), eclPortUp s.pkg q = true →
    let fa := remoteAddr s.pkg addr
    (placeOf fa = ownPlace s.pkg → exec (.hostRemoteAccess q id addr a) s = .next (Safety.withPkg s
      (localAccess (Safety.hostActive s.pkg s.clk) s.clk (.hostLocalAccess q id (localOf fa) a) id (localOf fa) a))) ∧
    (∀ cx, placeOf fa ≠ ownPlace s.pkg → shapeOk addr a = true → retired s.pkg = false → windowOk s.pkg fa (accessBytes a) (accessPerm a) clsHost = true →
      ctxFor s.pkg (placeOf fa) = some cx →
      ∃ t, exec (.hostRemoteAccess q id addr a) s = .next t ∧ t.pkg.outs.length = s.pkg.outs.length + 1 ∧ t.pkg.mem = s.pkg.mem ∧
        ∃ o, t.pkg.outs.getLast? = some o ∧ o.who = .host id ∧ o.opn = true ∧ o.ctx = cx ∧ o.seq = (ctx s.pkg cx).txseq)) ∧
  (∀ (s : State) (q : Fin 2) (lanes : Lanes),
    (lanesCount lanes < rfld s.pkg rHifStatus (5 * q + 4) (5 * q) → ∃ t, exec (.eclPortLaneLoss q lanes) s = .next t ∧
      rfld t.pkg rHifStatus (5 * q + 4) (5 * q) = lanesCount lanes ∧ t.pkg.mem = s.pkg.mem) ∧
    (lanes ≠ .down → ∃ t, exec (.eclPortTrain q lanes) s = .next t ∧ rfld t.pkg rHifStatus (5 * q + 4) (5 * q) = lanesCount lanes ∧
      t.pkg.mem = s.pkg.mem ∧ t.pkg.ops = s.pkg.ops))

/-- R43, R113, R45, R401, R9, R10: the life of a launch. At L − PREP, the stacks being out of self-refresh, each tile's inactive banks
are filled from the plan, then each tile is seeded, then the plan's contexts take their peers; at L a prepared launch runs and its
tiles start; at L + WC one whose work is done completes with OK, its ledger entry and its units free. An earlier end needs a cause
and every tile at rest. A tile starts with empty tokens, its banks switched, and its queues and forager as the plan's record gives
them (R43, R211). -/
def Obligations.LaunchLife : Prop :=
   ((∀ (s : State) (l : Nat) (y : Launch), findLaunch s.pkg l = some y → y.prepped = false → y.closed = false → y.restore = false → y.refused = none →
      y.L ≤ s.clk.gsc + y.prep → rbit s.pkg rMemStatus 2 = false → firstBad s.pkg (prepReads s.pkg y) = none → ∃ t p, exec (.prepStart l) s = .next t ∧
        t.pkg = fillCtxs ((bitList 128 y.tiles).foldl (fun q u => seedTile q y.plan u) ((bitList 128 y.tiles).foldl (fun q u => fillBanks q y.plan y.tiles u) p)) y.plan ∧
        (∀ z ∈ p.launches, z.id = l → z.prepped = true) ∧ p.mem = s.pkg.mem ∧ p.tiles = s.pkg.tiles) ∧
    (∀ (s : State) (l : Nat) (y : Launch), findLaunch s.pkg l = some y → y.prepped = true → y.running = false → y.closed = false → y.restore = false →
      (y.multi = true → y.committed = true) → y.L ≤ s.clk.gsc → y.causes = [] → ∃ t p, exec (.launchStart l) s = .next t ∧
        t.pkg = (bitList 128 y.tiles).foldl (fun q u => startTile q y u) p ∧
        (∀ z ∈ p.launches, z.id = l → z.running = true ∧ z.ports = planPorts s.pkg y.plan) ∧ p.mem = s.pkg.mem ∧ t.pkg.mem = s.pkg.mem) ∧
    (∀ (s : State) (l : Nat) (y : Launch), findLaunch s.pkg l = some y → y.running = true → y.closed = false → y.restore = false → y.L + y.wc ≤ s.clk.gsc →
      y.work = 0 → y.causes = [] → (∀ u ∈ bitList 128 y.tiles, (tile s.pkg u).launch = some l ∧ (tile s.pkg u).ended = true) →
      exec (.launchCompleteTick l) s = .next (Safety.withPkg s (finishLaunch s.pkg s.clk y (doneStatus y)))) ∧
    (∀ (s : State) (l : Nat) (y : Launch), findLaunch s.pkg l = some y → y.running = true → y.closed = false → y.restore = false → s.clk.gsc < y.L + y.wc →
      y.causes ≠ [] → y.work = 0 → (∀ u ∈ bitList 128 y.tiles, tileSettled s.pkg l u = true) →
      exec (.launchCompleteTick l) s = .next (Safety.withPkg s (finishLaunch s.pkg s.clk y (doneStatus y)))) ∧
    (∀ y : Launch, y.causes = [] → doneStatus y = (if y.notConv then 0x02 else if Nat.land y.flags.toNat y.rmask ≠ 0 then 0x01 else 0)) ∧
    (∀ (g s g' s' : Nat), firstCause [(g, s), (g', s')] = (if g < g' ∨ g = g' ∧ s ≤ s' then some (g, s) else some (g', s')))) ∧
   (∀ (p : Pkg) (l : Launch) (t : Nat), t < 128 →
      (tile (startTile p l t) t).running = true ∧ (tile (startTile p l t) t).launch = some l.id ∧ (tile (startTile p l t) t).start = l.L ∧
      (tile (startTile p l t) t).toks = [] ∧ (tile (startTile p l t) t).infl = [] ∧ (tile (startTile p l t) t).bank = 1 - (tile p t).bank ∧
      (tile (startTile p l t) t).rows = (tile p t).rows ∧ (startTile p l t).mem = p.mem ∧
      (sget (startTile p l t).cores t {}).sched = true ∧ (sget (startTile p l t).cores t {}).pc = mnat p.mem (bankBase t (1 - (tile p t).bank) + 8) 4 ∧
      (∀ u, u ≠ t → tile (startTile p l t) u = tile p u))

/-- R280 to R283: launches of several members. A whole launch record with good sums is admitted and answered, one of a restore as soon
as the den has read its targets; the root decides at tick C and broadcasts its commit, and a single member's restore that found its
shard is committed; a member that holds the commit by L − 125 is committed, and one without it then completes with FAILED_LAUNCH;
an abandonment notice that is held tells the launch its status, which is the cause when held work is unfinished at its release. -/
def Obligations.MemberProtocol : Prop :=
  (∀ (s : State) (group llo src : Nat) (rd : SlotReads) (len : Nat) (d : List Byte) (fl : Nat),
    let i : Ident := { group := group, opc := 0xF, llo := llo, off := 0 }
    len = ((s.pkg.swIn.find? (fun k => k.ident == i && k.src == src && k.frag == 0)).map (fun k => k.data.length)).getD 0 →
    gather s.pkg i 0 src len = some (d, fl, false) → (crc32c (d.take 60)).toNat = field d 60 4 → field d 26 2 % 4096 = group → gValid s.pkg group = true →
    retired s.pkg = false →
    let p := askSlots s.pkg s.clk (restoreTargets (d.drop 64))
    let asks := slotAsks p (restoreTargets (d.drop 64))
    (field d 24 2 ≠ 0xFFFF →
      exec (.launchRecordReceive group llo src rd) s = .next (Safety.withPkg s (takeRecord (forget s.pkg i 0 src) s.clk d rd))) ∧
    (∀ r, field d 24 2 = 0xFFFF → slotReads p (restoreTargets (d.drop 64)) rd = some r →
      exec (.launchRecordReceive group llo src rd) s = .next (Safety.withPkg s (takeRecord (denForget (forget p i 0 src) asks) s.clk d r))) ∧
    (field d 24 2 = 0xFFFF → slotReads p (restoreTargets (d.drop 64)) rd = none →
      exec (.launchRecordReceive group llo src rd) s = .next (Safety.withPkg s p))) ∧
  (∀ (s : State) (l : Nat) (y : Launch), findLaunch s.pkg l = some y → y.root = true → y.committed = false → y.closed = false → y.C ≤ s.clk.gsc →
    (rootVerdict s.pkg y = none → y.multi = false → ∃ t, exec (.commitDecision l) s = .next t ∧ (∀ z ∈ t.pkg.launches, z.id = l → z.committed = true) ∧
      t.pkg.mem = s.pkg.mem) ∧
    (rootVerdict s.pkg y = none → y.multi = true → ∃ p, exec (.commitDecision l) s =
      .next (Safety.withPkg s (wgBroadcast p s.clk (launchIdent y.group y.L) (noticeBytes 0 y.member))) ∧
      (∀ z ∈ p.launches, z.id = l → z.committed = true) ∧ p.mem = s.pkg.mem) ∧
    (∀ st v rep, rootVerdict s.pkg y = some (st, v, rep) → exec (.commitDecision l) s = .next (Safety.withPkg s (endRoot s.pkg s.clk y st v rep)))) ∧
  (∀ (s : State) (group llo : Nat) (y : Launch),
    (∃ v ∈ s.pkg.wg, v.ident = { group := group, opc := 0xF, llo := llo, off := 0 } ∧ field v.data 0 1 = 0) →
    s.pkg.launches.find? (fun y => y.multi && !y.root && y.group == group && y.L % 2 ^ 32 == llo && !y.closed) = some y → y.committed = false →
    (s.clk.gsc + 125 ≤ y.L → ∃ t, exec (.commitReceive group llo) s = .next t ∧ (∀ z ∈ t.pkg.launches, z.id = y.id → z.committed = true) ∧
      t.pkg.mem = s.pkg.mem ∧ t.pkg.regs = s.pkg.regs) ∧
    (y.L < s.clk.gsc + 125 → ∃ t, exec (.commitReceive group llo) s = .next t ∧ t.pkg.launches = s.pkg.launches)) ∧
  (∀ (s : State) (l : Nat) (y : Launch), findLaunch s.pkg l = some y → y.multi = true → y.root = false → y.committed = false → y.closed = false →
    y.L ≤ s.clk.gsc + 125 → exec (.commitDeadline l) s = .next (Safety.withPkg s (finishLaunch (freeLedger s.pkg (.launch l)) s.clk y 0x24))) ∧
  (∀ (s : State) (l src : Nat) (y : Launch) (v : WgVal), findLaunch s.pkg l = some y → y.closed = false → y.multi = true → y.restore = false →
    s.pkg.wg.find? (fun v => v.ident == launchIdent y.group y.L && v.src == src && field v.data 0 1 != 0) = some v →
    ∃ t, exec (.abandonmentNotice l src) s = .next t ∧ (∀ z ∈ t.pkg.launches, z.id = l → (s.clk.gsc, noticeStatus (field v.data 0 1)) ∈ z.told) ∧
      t.pkg.mem = s.pkg.mem ∧ t.pkg.regs = s.pkg.regs)

/-- R366 to R375: checkpoints. Arming answers REFUSED_RESOURCE when the record lies outside HBM's user range, waits while reads of its
targets are under way, and then arms; disarming ends the policy; a cut asked for without a policy is refused, and with one names
the least window with CUTLEAD ticks to go; a CUT notice makes the cut known, an ABANDON notice ends it before its commit; a window
without a cut is released at its time. At C_n the cut starts (by its mode the shard is written or the quick copy made); after the
window of an overlapped one the shadow drains; at the barrier the member contributes; commit copies follow when every member is
ready; both acknowledged, the cut is complete; a cut that has not ended by the end of its window is abandoned. -/
def Obligations.Checkpoints : Prop :=
  (∀ (s : State) (op : Nat) (o : Op) (rd : SlotReads), Safety.Begins s.pkg op 4 o → field o.desc 4 1 = 1 → hbmUserEnd < field o.desc 8 8 + 256 →
    exec (.checkpointArm op rd) s = .next (Safety.withPkg s (complete (beginOp s.pkg op) s.clk op 0x12 0#16 0 0 false))) ∧
  (∀ (s : State) (op : Nat) (o : Op) (rd : SlotReads) (m : List Byte), Safety.Begins s.pkg op 4 o → field o.desc 4 1 = 1 → field o.desc 8 8 + 256 ≤ hbmUserEnd →
    s.pkg.pins.refLost = false → s.pkg.badLines = [] → s.pkg.ceLines = [] →
    let b := mread s.pkg.mem (field o.desc 8 8) 256
    polNext b ≤ 1024 → field b 64 8 + 32 * polNext b ≤ hbmUserEnd → m = mread s.pkg.mem (field b 64 8) (32 * polNext b) → polOk s.pkg b m = true →
    s.pkg.den.pol = none → s.pkg.ledger = [] → s.pkg.placed = [] →
    let p := askSlots (beginOp s.pkg op) s.clk b
    (∀ r, slotReads p b rd = some r → ∃ t, exec (.checkpointArm op rd) s = .next t ∧
      t.pkg = complete (armWith (denForget p (slotAsks p b)) s.clk b m r) s.clk op 0 0#16 0 0 false ∧ t.pkg.den.pol = some (b ++ m) ∧
      t.pkg.den.from_ = firstWindow b s.clk.gsc ∧ t.pkg.den.released = [] ∧ findOp t.pkg op = none ∧ t.pkg.mem = s.pkg.mem) ∧
    (slotReads p b rd = none → exec (.checkpointArm op rd) s = .next (Safety.withPkg s (opStays p o)))) ∧
  (∀ (s : State) (op : Nat) (o : Op), Safety.Begins s.pkg op 4 o →
    (field o.desc 4 1 = 2 → exec (.checkpointDisarm op) s = .next (Safety.withPkg s (complete (disarm (beginOp s.pkg op) s.clk) s.clk op 0 0#16 0 0 false))) ∧
    (field o.desc 4 1 = 3 → s.pkg.den.pol = none → exec (.checkpointCut op) s =
      .next (Safety.withPkg s (complete (beginOp s.pkg op) s.clk op 0x12 0#16 0 0 false))) ∧
    (∀ b, field o.desc 4 1 = 3 → s.pkg.den.pol = some b → exec (.checkpointCut op) s = .next (Safety.withPkg s (requestCut (beginOp s.pkg op) s.clk b (some op))))) ∧
  (∀ (s : State) (cn src : Nat) (b : List Byte), s.pkg.den.pol = some b → noticeHeld s.pkg (polGroup b) cn 1 src = true → findCut s.pkg cn = none →
    s.clk.gsc + polLead b ≤ cn + 4 * gWwc s.pkg (polGroup b) → (∃ n, cn = polCut b n ∧ s.pkg.den.from_ ≤ n ∧ n ∉ s.pkg.den.released) → 0 < polPeriod b →
    ∃ t x, exec (.denNoticeCut cn src) s = .next t ∧ findCut t.pkg cn = some x ∧ x.phase = 0 ∧ x.pol = b ∧ t.pkg.mem = s.pkg.mem) ∧
  (∀ (s : State) (cn src : Nat) (x : Cut), findCut s.pkg cn = some x →
    (noticeHeld s.pkg (polGroup x.pol) cn 2 src = true → x.phase ≠ 6 → x.phase ≠ 7 →
      exec (.denNoticeAbandon cn src) s = .next (Safety.withPkg s (abandonCut s.pkg s.clk x 7 false))) ∧
    (cn ≤ s.clk.gsc → x.phase = 0 → (∀ y ∈ s.pkg.den.cuts, y.cn ≠ cn → y.phase = 0) → s.pkg.den.lastBad = false → abandonHeld s.pkg x = false →
      exec (.cutStart cn) s = .next (Safety.withPkg s (if polMode x.pol = 0 then beginShard s.pkg s.clk x false else quickCopy s.pkg s.clk x))) ∧
    (cn ≤ s.clk.gsc → x.phase = 0 → (∀ y ∈ s.pkg.den.cuts, y.cn ≠ cn → y.phase = 0) → s.pkg.den.lastBad = true →
      exec (.cutStart cn) s = .next (Safety.withPkg s (abandonCut s.pkg s.clk x 1 true))) ∧
    (x.phase = 8 → cn + polWindow x.pol ≤ s.clk.gsc → owesHbm s.pkg .den = false → exec (.shadowDrain cn) s = .next (Safety.withPkg s (beginShard s.pkg s.clk x true))) ∧
    (cn + polBaroff x.pol ≤ s.clk.gsc → (x.phase = 4 ∨ x.phase = 1) → exec (.cutBarrier cn) s = .next (Safety.withPkg s
      (wgStart (setCut s.pkg (Safety.atBarrier x)) s.clk (Safety.barrierValue s.pkg x)))) ∧
    (∀ d fl, x.phase = 5 → wgResult s.pkg (barrierIdent x) 3 2 = some (d, fl) → leNat d ≠ 1 →
      exec (.barrierResult cn) s = .next (Safety.withPkg s (abandonCut s.pkg s.clk x 4 false))) ∧
    (∀ d fl, x.phase = 5 → wgResult s.pkg (barrierIdent x) 3 2 = some (d, fl) → leNat d = 1 →
      exec (.barrierResult cn) s = .next (Safety.withPkg s (denGo s.clk cn 12 (setCut s.pkg (Safety.atCommit s.pkg x))))) ∧
    (x.phase = 7 → x.shard = [] → (∀ o ∈ s.pkg.outs, o.who ≠ .den) → ∃ t p, exec (.commitAcked cn) s = .next t ∧ t.pkg = closeCut p s.clk x 0 0 0x04 x.slot ∧
      rget p rDenCuts = (rget s.pkg rDenCuts + 1) % 2 ^ 32 ∧ rbit p rDenStatus 4 = (!(x.slot == 1)) ∧ rget p rDenStepLo = polStep x.pol cn % 2 ^ 32 ∧
      p.mem = s.pkg.mem) ∧
    (cn + polWindow x.pol ≤ s.clk.gsc → (polMode x.pol = 0 ∨ x.phase = 8 ∧ owesHbm s.pkg .den = true) → exec (.cutWindowEnd cn) s = .next (Safety.withPkg s (abandonCut s.pkg s.clk x 5 false)))) ∧
  (∀ (s : State) (n : Nat) (b : List Byte), s.pkg.den.pol = some b → s.pkg.den.from_ ≤ n → polCut b n + 4 * gWwc s.pkg (polGroup b) ≤ s.clk.gsc + polLead b →
    findCut s.pkg (polCut b n) = none → n ∉ s.pkg.den.released → s.clk.gsc < polCut b n + polWindow b → ∃ t, exec (.windowRelease n) s = .next t ∧
      t.pkg.den.released = s.pkg.den.released ++ [n] ∧ t.pkg.regs = s.pkg.regs ∧ t.pkg.mem = s.pkg.mem)

/-- R383 to R386: a restore of one member waits while the den's reads of its targets are under way; one that admission then accepts
becomes a launch of every unit; from L a committed restore reads its payload and, when all of it has come, writes its extents in
order, and clears comb memory when all succeed; it completes with OK and counts in RESTCNT, so that the scale epoch moves on, or
with the status of its failure. -/
def Obligations.Restores : Prop :=
  (∀ (s : State) (op : Nat) (o : Op) (rrec : List Byte) (rd : SlotReads), Safety.Begins s.pkg op 5 o → rrec.length = 128 → field rrec 8 4 = 1 →
    restoreBars (beginOp s.pkg op) rrec = false → field o.desc 8 8 ≤ field o.desc 16 8 →
    let b := restoreTargets rrec
    let p := askSlots (beginOp s.pkg op) s.clk b
    let q := denForget p (slotAsks p b)
    let a := restoreAsk q (field o.desc 8 8) (field o.desc 16 8) false
    (slotReads p b rd = none → exec (.restore op rrec rd) s = .next (Safety.withPkg s (opStays p o))) ∧
    (∀ r, slotReads p b rd = some r →
      (admission q s.clk o.arrival a = .accept → ∃ t l, exec (.restore op rrec rd) s = .next t ∧ t.pkg.launches = s.pkg.launches ++ [l] ∧
        l.id = o.id ∧ l.restore = true ∧ l.tiles = allTiles ∧ l.L = field o.desc 8 8 ∧ l.D = field o.desc 16 8 ∧ l.rrec = rrec ∧ t.pkg.mem = s.pkg.mem) ∧
      (∀ st d, admission q s.clk o.arrival a = .refuse st d → ∃ t, exec (.restore op rrec rd) s = .next t ∧ t.pkg.launches = s.pkg.launches ∧
        findOp t.pkg op = none ∧ t.pkg.mem = s.pkg.mem))) ∧
  (∀ (s : State) (l : Nat) (y : Launch) (payload : List (List Byte)), findLaunch s.pkg l = some y → y.restore = true → y.committed = true → y.running = false →
    y.L ≤ s.clk.gsc →
    let tg := polTarget (restoreTargets y.rrec) y.slotSel
    let es := headerExtents y.hdr
    let asks : List DenAsk := es.map (fun e => ((tg.1, tg.2 + e.poff), e.stored))
    let p := rsetb (denAsk s.pkg s.clk asks) rDenStatus 3 true
    let parts := asks.zipIdx.map (fun e => denRead p e.1 (payload.getD e.2 []))
    (none ∈ parts → exec (.restoreLoad l payload) s = .next (Safety.withPkg s p)) ∧
    (∀ ds, parts = ds.map some → ∃ p', p' = denForget (modLaunch p l (fun z => { z with running := true })) asks ∧ p'.mem = s.pkg.mem ∧
      (∀ q, restoreExtents s.clk (es.zip ds) p' = (q, 0) → exec (.restoreLoad l payload) s = .next (Safety.withPkg s (clearComb q))) ∧
      (∀ q st, restoreExtents s.clk (es.zip ds) p' = (q, st) → st ≠ 0 →
        exec (.restoreLoad l payload) s = .next (Safety.withPkg s (scrambleExtents (addCause q s.clk l st) es))))) ∧
  (∀ (s : State) (l : Nat) (y : Launch), findLaunch s.pkg l = some y → y.restore = true → y.running = true →
    (y.causes = [] → ∃ t p, exec (.restoreDone l) s = .next t ∧ t.pkg = complete p s.clk y.op 0 0#16 0 (y.found % 2 ^ 32) false ∧
      rget p rGlbRestcnt = (rget s.pkg rGlbRestcnt + 1) % 2 ^ 32 ∧ rget p rDenRestores = (rget s.pkg rDenRestores + 1) % 2 ^ 32 ∧ p.mem = s.pkg.mem ∧
      p.launches = s.pkg.launches.filter (fun z => z.id != l) ∧ rbit p rDenStatus 3 = false) ∧
    (∀ g st, y.causes = [(g, st)] → y.multi = false → ∃ t p, exec (.restoreDone l) s = .next t ∧
      t.pkg = complete p s.clk y.op st 0#16 0 (y.found % 2 ^ 32) false ∧ p.mem = s.pkg.mem ∧ p.launches = s.pkg.launches.filter (fun z => z.id != l)))

/-- R350, R175: combining int64 elements: SUM wraps, MAX and MIN are signed, AND, OR and XOR are bitwise, and no flag is raised; the
sum of a fixed-point DOT saturates and raises SAT; combining lists is a left fold in the order of the values. R346, R351 to R364:
collectives. A swarm operation that has issued starts at its tick, when none of its engines has failed; a job's sum starts with
this member's value; member 0 of a broadcast produces a chunk from its data, a reducing member from its own part and its children's
checked chunks in ascending order; fragments and tails are held, checked and acknowledged, and a pull is answered from the staging
area. A waggle value that disagrees with an operation of its identity stops the tile with SWARM_MISMATCH; one that is new goes its
way, one that is held already changes nothing; a pull for a value that is held is answered with it; a pull round that is due asks
for what is missing, and past its limit the operation fails. -/
def Obligations.Collectives : Prop :=
   ((∀ a b : W64, combine1 3 0 a b = (a + b, 0#16) ∧ combine1 3 1 a b = (if b.toInt ≤ a.toInt then a else b, 0#16) ∧
      combine1 3 2 a b = (if a.toInt ≤ b.toInt then a else b, 0#16) ∧ combine1 3 3 a b = (a &&& b, 0#16) ∧ combine1 3 4 a b = (a ||| b, 0#16) ∧
      combine1 3 5 a b = (a ^^^ b, 0#16)) ∧
    (∀ a b : W64, (-2 ^ 63 ≤ a.toInt + b.toInt → a.toInt + b.toInt < 2 ^ 63 → combine1 4 0 a b = (a + b, 0#16)) ∧
      (a.toInt + b.toInt < -2 ^ 63 → combine1 4 0 a b = (1#64 <<< 63, fSAT)) ∧
      (2 ^ 63 ≤ a.toInt + b.toInt → combine1 4 0 a b = (~~~(1#64 <<< 63), fSAT))) ∧
    (∀ dt opr x y z, foldBytes dt opr [x, y, z] = some (combineBytes dt opr (combineBytes dt opr x y) z))) ∧
   ((∀ (s : State) (n : Nat) (o : SwOp) (y : Launch), findSw s.pkg n = some o → o.started = false → o.failed = false → findLaunch s.pkg o.launch = some y →
      y.L + o.ident.off ≤ s.clk.gsc → exec (.swarmStart false n) s = .next (Safety.withPkg s (startSw s.pkg s.clk o))) ∧
    (∀ (s : State) (n : Nat) (j : Job) (y : Launch), findJob s.pkg n = some j → j.sparse.waitSum = true → j.closed = false → findLaunch s.pkg j.launch = some y →
      gValid s.pkg j.sparse.group = true → y.L + j.sparse.tick ≤ s.clk.gsc → wgFind s.pkg (jobIdent s.pkg j) false (gSelf s.pkg j.sparse.group) = none →
      exec (.swarmStart true n) s = .next (Safety.withPkg s (wgCheck (wgStart s.pkg s.clk (Safety.sumValue s.pkg j)) s.clk (jobIdent s.pkg j)))) ∧
    (∀ (s : State) (n k : Nat) (o : SwOp), findSw s.pkg n = some o → o.started = true → o.closed = false → o.failed = false → o.waggle = false → k < o.nc →
      (sget o.chunks k {}).part = none → s.pkg.badLines = [] →
      let own := o.own s.pkg.mem (65536 * k / o.w) (o.clen k / o.w)
      (o.bcast = true → o.self = 0 → o.root k ≠ 0 → exec (.chunkProduce n k) s = .next (Safety.withPkg s
        (sendTo (Safety.produced s.pkg s.clk n k o (own, 0)) s.clk o k (o.root k) (own, 0)))) ∧
      (∀ xs, o.bcast = false → kidChunks s.pkg o k = some xs → o.self ≠ o.root k →
        let d := xs.foldl (combineBytes (if o.dt = 2 then 1 else o.dt) o.opr) (own, 0)
        exec (.chunkProduce n k) s = .next (Safety.withPkg s (closeSw (sendTo (Safety.produced s.pkg s.clk n k o d) s.clk o k (o.parent k) d) n)))) ∧
    (∀ (s : State) (q : Fin 128) (pkt : List Byte),
      let p := Safety.heard s.pkg s.clk q pkt
      let h := parseHdr pkt
      Safety.Fresh p h →
      (Safety.Arrives s.pkg q pkt 0x20 → exec (.swData q pkt false) s =
        .next (Safety.withPkg s (sendAck (Safety.took p (takeSw p s.clk h pkt (parseSw pkt).frag) s.clk h) s.clk h))) ∧
      (Safety.Arrives s.pkg q pkt 0x21 → exec (.swTail q pkt false) s =
        .next (Safety.withPkg s (sendAck (Safety.took p (takeSw p s.clk h pkt 16) s.clk h) s.clk h))) ∧
      (∀ p', Safety.Arrives s.pkg q pkt 0x22 → resendChunk p s.clk h pkt = (p', .ok []) → exec (.swPull q pkt false) s =
        .next (Safety.withPkg s (sendAck (Safety.took p p' s.clk h) s.clk h)))) ∧
    (∀ (s : State) (q : Fin 128) (pkt : List Byte),
      let p := Safety.heard s.pkg s.clk q pkt
      let w := wgOf pkt
      let odd := disagrees p w.ident w.opr w.dt w.nelem
      (∀ o, Safety.Arrives s.pkg q pkt 0x23 → odd = some o → o.failed = false → exec (.wgData q pkt false) s = .next (Safety.withPkg s
        (planFault (bump (loseSw p o.id) rSwmMismatch) s.clk o.tile 0x0C 3 0 0))) ∧
      (Safety.Arrives s.pkg q pkt 0x23 → odd = none → wgHas p (wgOf pkt) = false →
        exec (.wgData q pkt false) s = .next (Safety.withPkg s (wgCheck (wgArrive p s.clk (wgOf pkt)) s.clk (wgOf pkt).ident))) ∧
      (Safety.Arrives s.pkg q pkt 0x23 → odd = none → wgHas p (wgOf pkt) = true →
        exec (.wgData q pkt false) s = .next (Safety.withPkg s p)) ∧
      (∀ x, Safety.Arrives s.pkg q pkt 0x24 → odd = none → wgFind p (wgOf pkt).ident ((wgOf pkt).hop != 0) (wgOf pkt).src = some x →
        exec (.wgPull q pkt false) s = .next (Safety.withPkg s (sendWg p s.clk 0x23 (parseHdr pkt).src x (wgOf pkt).hop)))) ∧
    (∀ (s : State) (n : Nat) (o : SwOp) (y : Launch), findSw s.pkg n = some o → o.started = true → o.closed = false → o.failed = false → o.waggle = true →
      findLaunch s.pkg o.launch = some y → roundDue s.pkg s.clk y.L o.ident o.wpulls = true →
      (o.wpulls < o.plim → exec (.waggleTimeout 0 n) s = .next (Safety.withPkg s
        (pullRound (modSw s.pkg n Safety.pulled) s.clk (lackOf o.ident o.opr o.dt o.nelem)))) ∧
      (o.plim ≤ o.wpulls → exec (.waggleTimeout 0 n) s = .next (Safety.withPkg s (failSw s.pkg s.clk o 0x22)))))

/-- R243 to R253: memory on its own. A regulator tick outside self-refresh grants the partitions of a stack their accesses, once a
tick, and what is due is delivered; a passed write of a tile that is the last its instruction waits for finishes it; a core's read
brings it its data; the patrol reads one line of its stack in partition 3 at a time; a static line with a correctable error reads
corrected after its scrub and is counted, and one with an uncorrectable error is reported; a write-combining entry leaves 64 ticks
after it was made; a corrected line counts anew once it is rewritten. Memory stays. -/
def Obligations.MemoryService : Prop :=
  (∀ (s : State) (k : Fin 32), rbit s.pkg rMemStatus 2 = false → sget s.pkg.regTick k.val (2 ^ 64) ≠ s.clk.gsc →
    exec (.regulatorTick k []) s = .next (Safety.withPkg s (deliverDue (regulate (ageRewrites (Safety.ticked s.pkg s.clk k) k) s.clk k) s.clk k))) ∧
  (∀ (s : State) (k : Fin 32) (errs : List (Nat × Nat)), rbit s.pkg rMemStatus 2 = true → exec (.regulatorTick k errs) s = .next s) ∧
  (∀ (s : State) (n t q : Nat) (d : HbmDone), s.pkg.passed[n]? = some d → d.who = .tile t q → d.bad = false → d.rd = false →
    ∃ u, exec (.hbmAccessComplete n) s = .next u ∧ u.pkg.passed = s.pkg.passed.erase d ∧ u.pkg.mem = s.pkg.mem ∧
      (∀ f, findInfl s.pkg t q = some f → f.pend = 1 → f.failed = false → ∃ g, findInfl u.pkg t q = some g ∧ g.fin = true ∧ g.pend = 0)) ∧
  (∀ (s : State) (n k : Nat) (d : HbmDone), s.pkg.passed[n]? = some d → d.who = .core k → k < 216 → d.rd = true → d.sq = false →
    ∃ u, exec (.hbmAccessComplete n) s = .next u ∧ u.pkg.passed = s.pkg.passed.erase d ∧ u.pkg.mem = s.pkg.mem ∧
      (Machine.core u.pkg k).grant = (Machine.core s.pkg k).grant ++ [(d.line, d.data, d.bad)] ∧
      (Machine.core u.pkg k).asked = (Machine.core s.pkg k).asked - 1) ∧
  (∀ (s : State) (k : Fin 32) (i last passes : Nat), sget s.pkg.patrol k.val (0, 0, 0) = (i, last, passes) → rbit s.pkg rMemCfg 1 = true →
    rbit s.pkg rMemStatus 2 = false → last + rfld s.pkg rMemScrub 23 0 ≤ s.clk.gsc → ∃ t r, exec (.patrolScrub k) s = .next t ∧
      sget t.pkg.queues (qKey (stackOf s.pkg r.line) 3) [] = sget s.pkg.queues (qKey (stackOf s.pkg r.line) 3) [] ++ [r] ∧ r.line = stackLine s.pkg k i ∧ r.who = .scrub ∧
      r.wr = [] ∧ t.pkg.mem = s.pkg.mem) ∧
  (∀ (s : State) (line nerr : Nat), isHbm (lineOf line) = false → lineOf line < 2 ^ 46 →
    (classifyLine nerr = .corrected → lineOf line ∉ s.pkg.badLines → ∃ t, exec (.staticScrub line nerr) s = .next t ∧ lineOf line ∉ t.pkg.ceLines ∧
      rget t.pkg rMemSramce = (rget s.pkg rMemSramce + 1) % 2 ^ 32 ∧ t.pkg.mem = s.pkg.mem) ∧
    (classifyLine nerr = .uncorrectable → ∃ t, exec (.staticScrub line nerr) s = .next t ∧ lineOf line ∈ t.pkg.badLines ∧
      rget t.pkg rMemSramue = (rget s.pkg rMemSramue + 1) % 2 ^ 32 ∧ t.pkg.mem = s.pkg.mem)) ∧
  (∀ (s : State) (line : Nat), ∃ t, exec (.wcEvict line) s = .next t ∧ (∀ e ∈ t.pkg.wc, e.line = lineOf line → s.clk.gsc < e.tick + 64) ∧
    t.pkg.mem = s.pkg.mem ∧ t.pkg.regs = s.pkg.regs) ∧
  (∀ (s : State) (line : Nat), ceWaits s.pkg (lineOf line) = true → owesHbm s.pkg (.repair (lineOf line)) = false → ∃ t,
    exec (.ceRewrite line) s = .next t ∧ ceWaits t.pkg (lineOf line) = false ∧ lineOf line ∉ t.pkg.ceLines ∧ t.pkg.mem = s.pkg.mem ∧
    t.pkg.regs = s.pkg.regs)

/-- Every tile instruction issues from the head of its class's queue (R20, R21, R22): MX from queue 0, SC from 1, DM from 2, SY, SV, UP
and CL from 3. The word leaves its queue, its wait token is taken and it is counted; it is in flight when its operation's checks
pass, and the tile stops with the plan fault when they do not. The CL instructions issue from the SY queue into held work (R343,
R345): the operation that they name joins those of the package, under its identity of group, opcode and offset (R346), and is
compared with what other members' packets brought. -/
def Obligations.TileInstructionsIssue : Prop :=
   (∀ t : Fin 128,
      Safety.IssuesAs (.mxLoadw t) t 0 0x00 (goLoadw t) Safety.nothing ∧
      Safety.IssuesAs (.mxPass t) t 0 0x01 (goPass t) Safety.nothing ∧
      Safety.IssuesAs (.mxPreload t) t 0 0x02 (goPreload t) Safety.nothing ∧
      Safety.IssuesAs (.mxDrain t) t 0 0x03 (goDrain t) Safety.nothing ∧
      Safety.IssuesAs (.mxZero t) t 0 0x04 (goZero t) Safety.nothing ∧
      Safety.IssuesAs (.scRun t) t 1 0x40 (goScRun t) Safety.nothing ∧
      Safety.IssuesAs (.dmCopy t) t 2 0x80 (goCopy t) Safety.nothing ∧
      Safety.IssuesAs (.dmGather t) t 2 0x81 (goGather t) Safety.nothing ∧
      Safety.IssuesAs (.dmScatter t) t 2 0x82 (goScatter t) Safety.nothing ∧
      Safety.IssuesAs (.dmFill t) t 2 0x83 (goFill t) Safety.nothing ∧
      Safety.IssuesAs (.dmCombine t) t 2 0x84 (goCombine t) Safety.nothing ∧
      Safety.IssuesAs (.dmPut t) t 2 0x88 (goSend t 1 false) (fun p c n => sendNow p c t n) ∧
      Safety.IssuesAs (.dmFadd t) t 2 0x8A (goSend t 3 true) (fun p c n => sendNow p c t n) ∧
      (∀ (s : State) (l : Nat) (x : Tile) (w cyc : Nat), ready s.pkg s.clk t 2 = some (l, x, w, cyc) → opcodeOf w = 0x89 →
        ∀ p f, goGet t s.clk (Safety.issuing s t 2 w cyc) l (x.headTaken 2 w cyc 1) w cyc = .ok (p, f) →
        exec (.dmGet t) s = .next (Safety.withPkg s (getNow (enterFlight (newView s.pkg s.clk p) t 2 x.seq w cyc f) s.clk t x.seq))) ∧
      Safety.IssuesAs (.syWait t) t 3 0xA0 goNop Safety.nothing ∧
      Safety.IssuesAs (.sySignal t) t 3 0xA1 goNop Safety.nothing ∧
      Safety.IssuesAs (.syUntil t) t 3 0xA2 goUntil Safety.nothing ∧
      Safety.IssuesAs (.syAcquire t) t 3 0xA3 goAcquire Safety.nothing ∧
      Safety.IssuesAs (.syRelease t) t 3 0xA4 goRelease (fun p c _ => advanceTile p c t) ∧
      Safety.IssuesAs (.syFence t) t 3 0xA5 goFence (fun p c _ => advanceTile p c t) ∧
      Safety.IssuesAs (.syClkon t) t 3 0xA6 goClkon Safety.nothing ∧
      Safety.IssuesAs (.syEnd t) t 3 0xA7 goNop Safety.nothing ∧
      Safety.IssuesAs (.svBatch t) t 3 0xB0 (goSv t 0xB0) Safety.nothing ∧
      Safety.IssuesAs (.svSparse t) t 3 0xB1 (goSv t 0xB1) Safety.nothing ∧
      Safety.IssuesAs (.upInit t) t 3 0xC0 (goUp t 0) Safety.nothing ∧
      Safety.IssuesAs (.upPass1 t) t 3 0xC1 (goUp t 1) Safety.nothing ∧
      Safety.IssuesAs (.upPass2 t) t 3 0xC2 (goUp t 2) Safety.nothing ∧
      Safety.IssuesAs (.upRoot t) t 3 0xC3 (goUp t 3) Safety.nothing) ∧
   (∀ (t : Fin 128) (s : State) (l : Nat) (x : Tile) (w cyc : Nat), ready s.pkg s.clk t 3 = some (l, x, w, cyc) →
      ∀ (i : Instr) (opc : Nat), (i, opc) ∈ [(Instr.clAllreduce t, 0), (.clReduce t, 1), (.clBcast t, 2), (.clWreduce t, 3), (.clWbcast t, 4)] →
        opcodeOf w = 0xD0 + opc → ∀ p f, goCl t opc (Safety.issuing s t 3 w cyc) l (x.headTaken 3 w cyc 1) w cyc = .ok (p, f) →
          ∃ o, p.swops = s.pkg.swops ++ [o] ∧ o.launch = l ∧ o.tile = t.val ∧ o.seq = x.seq ∧ o.ident.group = bits w 15 4 ∧ o.ident.opc = opc ∧
            o.ident.off = bits w 45 16 ∧ f.held = true ∧ f.fin = false ∧
            exec i s = .next (Safety.withPkg s (lateMismatch (enterFlight (newView s.pkg s.clk p) t 3 x.seq w cyc f) s.clk)))

/-- Held instructions of the SY queue carry their release offset t and retire in the first tile cycle at or after tick L + t, ⌈34·t/5⌉
at grade H and ⌈31·t/5⌉ at grade S; they keep their queue for 4 cycles (R35, R39). An object that is no sync object is plan fault
RANGE, and so is a `SY.CLKON` released less than 750 ticks after its issue. The unheld ones retire in the next cycle (Table 2.5). -/
def Obligations.SyInstructionsIssue : Prop :=
  ∀ (s : State) (t : Fin 128) (l : Nat) (x : Tile) (w cyc : Nat), ready s.pkg s.clk t 3 = some (l, x, w, cyc) → w < 2 ^ 128 →
    freshNow s.pkg s.clk = [] →
    (∀ i, i ∈ [(Instr.syWait t, 0xA0), (.sySignal t, 0xA1), (.syEnd t, 0xA7)] → opcodeOf w = i.2 →
      ∃ u f, exec i.1 s = .next u ∧ f ∈ (tile u.pkg t).infl ∧ f.seq = x.seq ∧ f.word.toNat = w ∧ f.issue = cyc ∧ f.held = false ∧
        f.due = cyc + 1 ∧ f.effs = [] ∧ u.pkg.mem = s.pkg.mem ∧ (tile u.pkg t).queue 3 = ((tile s.pkg t).queue 3).drop 1) ∧
    (opcodeOf w = 0xA2 ∨ (opcodeOf w = 0xA3 ∧ ∃ j ≤ 16383, bits w 45 0 = 0x220000000000 + 64 * j) ∨
        (opcodeOf w = 0xA6 ∧ 5 * cyc + 750 * tickUnits s.pkg ≤ tickUnits s.pkg * bits w 77 46) →
      ∃ u f, exec (if opcodeOf w = 0xA2 then .syUntil t else if opcodeOf w = 0xA3 then .syAcquire t else .syClkon t) s = .next u ∧
        f ∈ (tile u.pkg t).infl ∧ f.seq = x.seq ∧ f.word.toNat = w ∧ f.issue = cyc ∧ f.held = true ∧
        f.due = (if s.pkg.cfg.grade = 0 then (34 * bits w 77 46 + 4) / 5 else (31 * bits w 77 46 + 4) / 5) ∧
        sget (tile u.pkg t).qfree 3 0 = cyc + 4 ∧ (f.fin = decide (opcodeOf w ≠ 0xA3)) ∧
        (opcodeOf w = 0xA3 → ∃ j, f.wait = .acquire j ∧ bits w 45 0 = 0x220000000000 + 64 * j)) ∧
    ((opcodeOf w = 0xA3 ∧ ¬∃ j ≤ 16383, bits w 45 0 = 0x220000000000 + 64 * j) ∨
        (opcodeOf w = 0xA6 ∧ tickUnits s.pkg * bits w 77 46 < 5 * cyc + 750 * tickUnits s.pkg) →
      ∃ u, exec (if opcodeOf w = 0xA3 then .syAcquire t else .syClkon t) s = .next u ∧ (tile u.pkg t).stopped = true ∧
        (tile u.pkg t).infl = (tile s.pkg t).infl ∧ rget u.pkg (tReg s.pkg t + 8) = 0x05 + 3 * 256)

/-- `DM.COPY` between scratchpads (R34, R38, R39): with equal formats and element counts it is in flight for the latency of the farther
end plus ⌈B/rate⌉, and what it stores when it retires are the elements of DA at issue, element i at element i of DC; unequal
formats or counts are plan fault INVALID_DESCRIPTOR. `DM.FILL` of a scratchpad (R38, R39): every element of DC takes the pattern,
truncated to its width; `MX.ZERO` (R89, R80): the named comb rows read zero and their TOUCHED and counters are clear when it
retires, ⌈n/4⌉ + 2 cycles after issue; rows beyond 4,096 are plan fault RANGE. -/
def Obligations.CopiesAndFills : Prop :=
   (∀ (s : State) (t : Fin 128) (l : Nat) (x : Tile) (w cyc : Nat) (a d : Desc), ready s.pkg s.clk t 2 = some (l, x, w, cyc) → opcodeOf w = 0x80 →
      a = x.desc (slotA w) → d = x.desc (slotC w) → a.valid t (launchMask s.pkg l) true false = true →
      d.valid t (launchMask s.pkg l) true false = true → a.hbm = false → d.hbm = false → s.pkg.badLines = [] →
      freshNow s.pkg s.clk = [] →
      (a.fcode = d.fcode → a.count = d.count →
        ∃ u f, exec (.dmCopy t) s = .next u ∧ f ∈ (tile u.pkg t).infl ∧ f.seq = x.seq ∧ f.held = false ∧ u.pkg.mem = s.pkg.mem ∧
          f.due = cyc + moveCycles (max (reach t a.addr) (reach t d.addr)) ((d.fmt.width * d.count + 7) / 8) ∧
          ∀ i < d.count, ∃ b, Eff.bits b ∈ f.effs ∧ b.addr = d.bitAt i ∧ b.w = d.fmt.width ∧ b.v = rdBits s.pkg.mem (a.bitAt i) d.fmt.width) ∧
      ((a.fcode ≠ d.fcode ∨ a.count ≠ d.count) →
        ∃ u, exec (.dmCopy t) s = .next u ∧ (tile u.pkg t).stopped = true ∧ (tile u.pkg t).infl = (tile s.pkg t).infl ∧
          rget u.pkg (tReg s.pkg t + 8) = 0x01 + 2 * 256 + slotC w * 2 ^ 16 ∧ u.pkg.mem = s.pkg.mem)) ∧
   (∀ (s : State) (t : Fin 128) (l : Nat) (x : Tile) (w cyc : Nat), freshNow s.pkg s.clk = [] →
      (∀ d, ready s.pkg s.clk t 2 = some (l, x, w, cyc) → opcodeOf w = 0x83 → d = x.desc (slotC w) →
        d.valid t (launchMask s.pkg l) true false = true → d.hbm = false →
        ∃ u f, exec (.dmFill t) s = .next u ∧ f ∈ (tile u.pkg t).infl ∧ f.seq = x.seq ∧ f.held = false ∧ u.pkg.mem = s.pkg.mem ∧
          f.due = cyc + moveCycles (reach t d.addr) ((d.fmt.width * d.count + 7) / 8) ∧
          ∀ i < d.count, ∃ b, Eff.bits b ∈ f.effs ∧ b.addr = d.bitAt i ∧ b.w = d.fmt.width ∧ b.v = bits w 63 0 % 2 ^ d.fmt.width) ∧
      (ready s.pkg s.clk t 0 = some (l, x, w, cyc) → opcodeOf w = 0x04 → mxCi w + mxRows w ≤ 4096 →
        ∃ u f, exec (.mxZero t) s = .next u ∧ f ∈ (tile u.pkg t).infl ∧ f.seq = x.seq ∧ f.due = cyc + 2 + (mxRows w + 3) / 4 ∧
          u.pkg.mem = s.pkg.mem ∧ Eff.bits { addr := 8 * (combBase t + 2048 * mxCi w), w := 16384 * mxRows w, v := 0 } ∈ f.effs ∧
          ∀ r, mxCi w ≤ r → r < mxCi w + mxRows w → Eff.rowClear r ∈ f.effs) ∧
      (ready s.pkg s.clk t 0 = some (l, x, w, cyc) → opcodeOf w = 0x04 → 4096 < mxCi w + mxRows w →
        ∃ u, exec (.mxZero t) s = .next u ∧ (tile u.pkg t).stopped = true ∧ rget u.pkg (tReg s.pkg t + 8) = 0x05 ∧
          (tile u.pkg t).infl = (tile s.pkg t).infl ∧ u.pkg.mem = s.pkg.mem))

/-- A combine starts when each of its participants has issued the same one, in the cycle after the last issue; its work ends after (114
+ 4·n)·⌈log₂ K⌉ cycles, before its release or not at all, and only the root's rows and cells take the result, when the root's
instruction retires (R96, R97). While a participant is missing nothing happens. The command starts every combine of its tile that
may start. -/
def Obligations.CombineStarts : Prop :=
  ∀ (s : State) (t : Fin 128) (f : InFl),
    (exec (.combineStart t) s = .next (Safety.withPkg s
      (((tile s.pkg t).infl.filter unstartedCombine).foldl (fun q f => startCombine s.clk t q f) s.pkg))) ∧
    ((tile s.pkg t).infl.filter unstartedCombine = [f] →
    let w := f.word.toNat
    let k := bits w 14 8 + 1
    let n := bits w 33 22 + 1
    (bits w 21 15 = t.val → s.pkg.badLines = [] → s.pkg.ceLines = [] →
      ∀ (g : Nat → InFl) (last : Nat),
        (∀ i < k, waitingCombine (tile s.pkg (t.val + i)) (combineKey w) = some (g i) ∧ (tile s.pkg (t.val + i)).launch = (tile s.pkg t).launch ∧
          (g i).issue ≤ last) → (∃ i < k, (g i).issue = last) → last < cycleOf s.pkg s.clk (tile s.pkg t).start →
        ∃ u, exec (.combineStart t) s = .next u ∧ u.pkg.mem = s.pkg.mem ∧ u.pkg.regs = s.pkg.regs ∧
          ∀ i < k, ∃ h ∈ (tile u.pkg (t.val + i)).infl, h.seq = (g i).seq ∧
            h.fin = decide (last + 1 + (114 + 4 * n) * clog2 k ≤ h.due) ∧ h.due = (g i).due ∧ (0 < i → h.effs = []) ∧
            (i = 0 → h.effs = (combineEffects s.pkg t k (bits w 45 34) n (bit w 7)).1 ++
              (combineEffects s.pkg t k (bits w 45 34) n (bit w 7)).2.1.map (fun r => Eff.rowSet r.1 r.2))) ∧
    ((∃ i < k, waitingCombine (tile s.pkg (bits w 21 15 + i)) (combineKey w) = none) → exec (.combineStart t) s = .next s))

/-- A fixed-latency instruction in flight whose cycle has come retires, and a held one at its release when its work is finished (R22,
R35); before that neither command does anything, nor before what retires first among the tile's instructions (R93, R94); held work
that is not finished at its release stops the tile, with FAILED_FABRIC where a pulled copy has not come (R353), with what notices
told of, or else with FAILED_HARDWARE where no cause is recorded (R37, R283). `SY.END` waits for everything before it (Table 2.5). -/
def Obligations.InstructionsRetire : Prop :=
  ∀ (s : State) (t : Fin 128) (n : Nat) (f : InFl) (cyc : Nat), findInfl s.pkg t n = some f →
    cyc = cycleOf s.pkg s.clk (tile s.pkg t).start →
    (mayRetire (tile s.pkg t) f cyc = true → s.pkg.badLines = [] →
      ∃ u, exec (.instructionRetire t n) s = .next u ∧ Safety.Retired s u t n f cyc) ∧
    (mayRetire (tile s.pkg t) f cyc = false → exec (.instructionRetire t n) s = .next s) ∧
    (f.held = true → f.due ≤ cyc → retiresFirst (tile s.pkg t) f = true → f.fin = true → f.failed = false →
        owesHbm s.pkg (.tile t n) = false → s.pkg.badLines = [] →
      ∃ u, exec (.heldRelease t n) s = .next u ∧ Safety.Retired s u t n f cyc) ∧
    (f.held = true → cyc < f.due → exec (.heldRelease t n) s = .next s) ∧
    (f.held = true → f.due ≤ cyc → retiresFirst (tile s.pkg t) f = true →
        (f.fin = false ∨ f.failed = true ∨ owesHbm s.pkg (.tile t n) = true) →
      ∃ u, exec (.heldRelease t n) s = .next u ∧ (tile u.pkg t).stopped = true ∧ findInfl u.pkg t n = none ∧ u.pkg.mem = s.pkg.mem ∧
        (tile u.pkg t).toks = (tile s.pkg t).toks ∧
        ∀ l y, (tile s.pkg t).launch = some l → findLaunch s.pkg l = some y → y.causes = [] →
          ∃ y', findLaunch u.pkg l = some y' ∧ (owesCopy s.pkg t n = true → y'.causes = [(s.clk.gsc, 0x22)]) ∧
            (owesCopy s.pkg t n = false → (y.told = [] → y'.causes = [(s.clk.gsc, 0x20)]) ∧ (y.told ≠ [] → y'.causes = y.told))) ∧
    (opcodeOf f.word.toNat = 0xA7 → f.held = false → ((tile s.pkg t).dmq ≠ [] ∨ ∃ g ∈ (tile s.pkg t).infl, g.seq < f.seq) →
      exec (.instructionRetire t n) s = .next s)

/-- The head of a queue with an opcode that its class does not define, or of another queue's class, stops the tile with plan fault
UNDEFINED_OPCODE (R27, R47): `TILE.FAULT` takes the cause and the queue, `TILE.STATUS.FAULT` is set, the queues keep what they hold
and the launch takes FAILED_HARDWARE. -/
def Obligations.UndefinedOpcodeStopsTheTile : Prop :=
  ∀ (s : State) (t : Fin 128) (q : Fin 4) (h : W128), Safety.AtHead s.pkg t q h →
    (opDefined (opcodeOf h.toNat) = false ∨ queueOf (opcodeOf h.toNat) ≠ q.val) →
    ∃ u, exec (.undefinedOpcode t q) s = .next u ∧ (tile u.pkg t).stopped = true ∧
      rget u.pkg (tReg s.pkg t + 8) = 0x02 + q.val * 256 ∧ rbit u.pkg (tReg s.pkg t) 2 = true ∧
      (∀ k, (tile u.pkg t).queue k = (tile s.pkg t).queue k) ∧ (tile u.pkg t).infl = (tile s.pkg t).infl ∧ u.pkg.mem = s.pkg.mem ∧
      ∀ l y, (tile s.pkg t).launch = some l → findLaunch s.pkg l = some y →
        ∃ y', findLaunch u.pkg l = some y' ∧ y'.causes = y.causes ++ [(s.clk.gsc, 0x20)]

/-- An acquire in flight is satisfied when its object's COUNT has reached THRESH, and THRESH takes STEP in the same update (R308);
before that the command does nothing. -/
def Obligations.AcquireIsSatisfied : Prop :=
  ∀ (s : State) (t : Fin 128) (n i : Nat) (f : InFl), memWf s.pkg.mem = true → findInfl s.pkg t n = some f → f.wait = .acquire i →
    f.fin = false → f.failed = false →
    (sext 64 (mnat s.pkg.mem (syncBase i + 8) 8) ≤ sext 64 (mnat s.pkg.mem (syncBase i) 8) →
      ∃ u, exec (.syncAcquireDone t n) s = .next u ∧ findInfl u.pkg t n = some { f with fin := true } ∧
        mnat u.pkg.mem (syncBase i + 8) 8 =
          (mnat s.pkg.mem (syncBase i + 8) 8 + mnat s.pkg.mem (syncBase i + 16) 8) % 2 ^ 64 ∧
        (∀ a, (a < syncBase i + 8 ∨ syncBase i + 16 ≤ a) → mget u.pkg.mem a = mget s.pkg.mem a) ∧ u.pkg.regs = s.pkg.regs) ∧
    (sext 64 (mnat s.pkg.mem (syncBase i) 8) < sext 64 (mnat s.pkg.mem (syncBase i + 8) 8) → exec (.syncAcquireDone t n) s = .next s)

/-- Integer, multiply, branch and scalar floating-point instructions (Table 9.2, R212, R213): each moves the pc to the next instruction
and writes its result register, x0 discarding it; nothing else of the machine changes. Arithmetic wraps at 64 bits; a division by
zero gives 0 and the dividend; branch offsets count words from the instruction's own address; floating-point flags gather in
FFLAGS, and a conversion reads any format of R49 (log entry 121). A shift by 64 or more leaves a free value (log entry 79), the
register that `J.CALL` links is open (log entry 77). -/
def Obligations.ScalarResults : Prop :=
  ∀ (s : State) (k : Fin 216) (rd a b : Fin 32), Safety.Runs s k →
    let x := Machine.core s.pkg k
    let y := Safety.stepped s k
    let put (v : W64) : Host.Outcome State Fault Refusal := .next (Safety.goneOn s k (y.xset rd v))
    let go (pc : Nat) : Host.Outcome State Fault Refusal := .next (Safety.goneOn s k { y with pc := pc })
    exec (.iIntegerReg k .add rd a b) s = put (x.xget a + x.xget b) ∧
    exec (.iIntegerReg k .sub rd a b) s = put (x.xget a - x.xget b) ∧
    exec (.iIntegerReg k .and rd a b) s = put (x.xget a &&& x.xget b) ∧
    exec (.iIntegerReg k .cmplt rd a b) s = put (if (x.xget a).toInt < (x.xget b).toInt then 1 else 0) ∧
    exec (.iIntegerReg k .min rd a b) s = put (if (x.xget a).toInt < (x.xget b).toInt then x.xget a else x.xget b) ∧
    ((x.xget b).toNat < 64 →
      exec (.iIntegerReg k .shl rd a b) s = put (x.xget a <<< (x.xget b).toNat) ∧
      exec (.iIntegerReg k .sar rd a b) s = put ((x.xget a).sshiftRight (x.xget b).toNat)) ∧
    (64 ≤ (x.xget b).toNat → (∃ v, exec (.iIntegerReg k .shl rd a b) s = put v) ∧ ∃ v, exec (.iIntegerReg k .sar rd a b) s = put v) ∧
    (∀ imm : Int, exec (.iIntegerImm k .addk rd a imm) s = put (x.xget a + BitVec.ofInt 64 imm) ∧
      exec (.iIntegerImm k .andk rd a imm) s = put (x.xget a &&& BitVec.ofInt 64 imm) ∧
      ∃ v : W64, exec (.iIntegerImm k .highk rd a imm) s = put v ∧ v.toNat / 2 ^ 47 = (imm % 2 ^ 17).toNat) ∧
    exec (.mMuldiv k .mul false rd a b) s = put (x.xget a * x.xget b) ∧
    exec (.mMuldiv k .mulh false rd a b) s = put (BitVec.ofInt 64 ((x.xget a).toInt * (x.xget b).toInt / 2 ^ 64)) ∧
    exec (.mMuldiv k .div false rd a b) s = put (if x.xget b = 0 then 0 else (x.xget a).sdiv (x.xget b)) ∧
    exec (.mMuldiv k .rem false rd a b) s = put (if x.xget b = 0 then x.xget a else (x.xget a).srem (x.xget b)) ∧
    (∀ op n, mulDiv op 32 (sext 32 (x.xget a).toNat) (sext 32 (x.xget b).toNat) = some n →
      ∃ v : W64, exec (.mMuldiv k op true rd a b) s = put v ∧ v.toNat % 2 ^ 32 = n % 2 ^ 32) ∧
    (∀ off : Int,
      let dest := (((x.pc : Int) + 4 * off) % 2 ^ 64).toNat
      exec (.bBranch k (.eq a b off)) s = go (if x.xget a = x.xget b then dest else x.pc + 4) ∧
      exec (.bBranch k (.ne a b off)) s = go (if x.xget a = x.xget b then x.pc + 4 else dest) ∧
      exec (.bBranch k (.lt a b off)) s = go (if (x.xget a).toInt < (x.xget b).toInt then dest else x.pc + 4) ∧
      exec (.bBranch k (.geu a b off)) s = go (if (x.xget b).toNat ≤ (x.xget a).toNat then dest else x.pc + 4) ∧
      exec (.bBranch k (.call off)) s =
        .next (Safety.goneOn s k (Core.xset { y with pc := dest } Config.linkReg (BitVec.ofNat 64 (x.pc + 4)))) ∧
      exec (.bBranch k (.jmpr rd a off)) s = .next (Safety.goneOn s k
        { y.xset rd (BitVec.ofNat 64 (x.pc + 4)) with pc := ((((x.xget a).toNat : Int) + 4 * off) % 2 ^ 64).toNat })) ∧
    (∀ (wide : Bool) (ra : Fin 8) (rel : CmpOp) (src : Fin 256) (g : Fmt),
      let rm := rndOfRa ra s.pkg.cfg.radef
      let f : Fmt := if wide then .b64 else .b32
      let u := fOperand wide (Core.fget k x a)
      let v := fOperand wide (Core.fget k x b)
      let fput (r : R) : Host.Outcome State Fault Refusal := .next (Safety.goneOn s k ((Core.fset k y rd r.1).raise r.2))
      exec (.fScalar k .add wide ra rd a b) s = fput (fAdd f rm u v) ∧
      exec (.fScalar k .mul wide ra rd a b) s = fput (fMul f rm u v) ∧
      exec (.fScalar k .div wide ra rd a b) s = fput (fDiv f rm u v) ∧
      exec (.fScalar k .sqrt wide ra rd a b) s = fput (fSqrt f rm u) ∧
      exec (.fScalar k .fma wide ra rd a b) s = fput (fFma f rm u v (fOperand wide (Core.fget k x rd))) ∧
      exec (.fScalar k .min wide ra rd a b) s = fput (fMaxMin false f u v) ∧
      (fmtOfCode src = some g → exec (.fScalar k (.cvt src) wide ra rd a b) s =
        fput (convert rm g {} f {} (BitVec.ofNat 64 ((Core.fget k x a).toNat % 2 ^ g.width)))) ∧
      (let c := cmpRel (relOf rel) (decodeFloat f u) (decodeFloat f v)
       exec (.fScalar k (.cmp rel) wide ra rd a b) s = .next (Safety.goneOn s k ((y.xset rd (BitVec.ofNat 64 (b2n c.1))).raise c.2))))

/-- Scalar loads, stores and atomics in a forager's own slice and of service-mode code (R209, R216, R217, R218, Table 9.3):
little-endian, aligned to their size; a store changes its own bytes only, an atomic its 8-byte word and its destination register. A
cached load fills its line from memory, or takes it from the data cache. Service-mode code reaches HBM through its partition's
queue (R210): the requests are queued, and the core waits for what a load reads. A misaligned access is a FORAGER fault with
subcause 0x02 in `TILE.FSTAT` and the pc in `TILE.FPC` (R229); an address outside its reach has subcause 0x03. -/
def Obligations.OwnSliceAccesses : Prop :=
  ∀ (s : State) (k : Fin 216) (rd a b : Fin 32) (imm : Int) (w : MemWidth), Safety.Runs s k → memWf s.pkg.mem = true →
    let x := Machine.core s.pkg k
    let y := Safety.stepped s k
    let e := effAddr x a imm
    let n := memBytes w
    let word := (x.xget a).toNat
    (Safety.OwnAccess s k e n →
      (exec (.lLoad k true w rd a imm) s = .next (Safety.goneOn s k (y.xset rd (extendTo64 (8 * n) (mnat (Safety.seen s k) e n))))) ∧
      (x.dcLine (e / 64 * 64) = none →
        let line := mread (Safety.seen s k) (e / 64 * 64) 64
        exec (.lLoad k false w rd a imm) s = .next (Safety.goneOn s k
          ((y.dcUse (e / 64 * 64) line).xset rd (extendTo64 (8 * n) (leNat ((line.drop (e % 64)).take n)))))) ∧
      (∀ line, x.dcLine (e / 64 * 64) = some line →
        exec (.lLoad k false w rd a imm) s = .next (Safety.goneOn s k
          ((y.dcUse (e / 64 * 64) line).xset rd (extendTo64 (8 * n) (leNat ((line.drop (e % 64)).take n)))))) ∧
      (∃ u, exec (.sStore k w b a imm) s = .next u ∧ mnat u.pkg.mem e n = (x.xget b).toNat % 2 ^ (8 * n) ∧
        (∀ c, (c < e ∨ e + n ≤ c) → mget u.pkg.mem c = mget s.pkg.mem c) ∧ (Machine.core u.pkg k).xs = x.xs ∧
        (Machine.core u.pkg k).pc = x.pc + 4 ∧ u.pkg.regs = s.pkg.regs ∧ u.pkg.tiles = s.pkg.tiles)) ∧
    (Safety.SliceAccess s k e n →
      (exec (.lLoad k true w rd a imm) s = .next (Safety.goneOn s k (y.xset rd (extendTo64 (8 * n) (mnat s.pkg.mem e n))))) ∧
      (∃ u, exec (.sStore k w b a imm) s = .next u ∧ mnat u.pkg.mem e n = (x.xget b).toNat % 2 ^ (8 * n) ∧
        (∀ c, (c < e ∨ e + n ≤ c) → mget u.pkg.mem c = mget s.pkg.mem c) ∧ (Machine.core u.pkg k).xs = x.xs ∧
        (Machine.core u.pkg k).pc = x.pc + 4 ∧ u.pkg.regs = s.pkg.regs ∧ u.pkg.tiles = s.pkg.tiles)) ∧
    (x.sched = false → k.val < 128 → retired s.pkg = false → e % n = 0 → e + n ≤ hbmUserEnd →
      (x.grant = [] → exec (.lLoad k true w rd a imm) s = .next (Safety.withPkg s
        (setCore (enqueueAll s.pkg 4 (loadReqs (.core k) e n)) k { x with asked := (loadReqs (.core k) e n).length }))) ∧
      (∀ bs, x.grant.find? (fun g => g.1 == e) = some (e, bs, false) →
        exec (.lLoad k true w rd a imm) s = .next (Safety.goneOn s k (y.xset rd (extendTo64 (8 * n) (leNat bs))))) ∧
      (exec (.sStore k w b a imm) s = .next (Safety.withPkg s (setCore (enqueueAll s.pkg 4 (hbmStore k e (natLe n (x.xget b).toNat))) k
        (Safety.atRest (y.cacheStore e (natLe n (x.xget b).toNat))))))) ∧
    (Safety.OwnAccess s k word 8 ∨ (Safety.SliceAccess s k word 8 ∧ inOwn k word 8 = true) →
      (∃ u, exec (.aAdd64 k rd a b) s = .next u ∧ mnat u.pkg.mem word 8 = (mnat s.pkg.mem word 8 + (x.xget b).toNat) % 2 ^ 64 ∧
        (rd ≠ 0 → (Machine.core u.pkg k).xget rd = BitVec.ofNat 64 (mnat s.pkg.mem word 8)) ∧
        (∀ r : Fin 32, r ≠ rd → (Machine.core u.pkg k).xget r = x.xget r) ∧
        (∀ c, (c < word ∨ word + 8 ≤ c) → mget u.pkg.mem c = mget s.pkg.mem c) ∧ (Machine.core u.pkg k).pc = x.pc + 4) ∧
      (∃ u, exec (.aCas64 k rd a b) s = .next u ∧
        mnat u.pkg.mem word 8 = (if mnat s.pkg.mem word 8 = (x.xget rd).toNat then (x.xget b).toNat else mnat s.pkg.mem word 8) ∧
        (rd ≠ 0 → (Machine.core u.pkg k).xget rd = BitVec.ofNat 64 (mnat s.pkg.mem word 8)) ∧
        (∀ r : Fin 32, r ≠ rd → (Machine.core u.pkg k).xget r = x.xget r) ∧
        (∀ c, (c < word ∨ word + 8 ≤ c) → mget u.pkg.mem c = mget s.pkg.mem c) ∧ (Machine.core u.pkg k).pc = x.pc + 4)) ∧
    (x.sched = true → k.val < 128 → (e % n ≠ 0 ∨ e < 0x1FFF00000000) →
      ∃ u, exec (.lLoad k true w rd a imm) s = .next u ∧ (tile u.pkg k).stopped = true ∧ u.pkg.mem = s.pkg.mem ∧
        Machine.core u.pkg k = Safety.atRest x ∧ rfld u.pkg (tReg s.pkg k + 0x14) 15 8 = (if e % n ≠ 0 then 2 else 3) ∧
        rget u.pkg (tReg s.pkg k + 0x18) = x.pc % 2 ^ 32 ∧ rget u.pkg (tReg s.pkg k + 8) = 0x09)

/-- In service mode the conditions of Table 9.6a raise an exception to keeper firmware and nothing else happens (R229): an undefined OP
has subcause 0x01, a fetch outside the code image 0x04, a vector register that is no multiple of G 0x05; in scheduled mode an
undefined OP stops the tile with plan fault FORAGER and a service-only atomic has subcause 0x06 (R218). -/
def Obligations.CoreFaults : Prop :=
  ∀ (s : State) (k : Fin 216) (rd a b : Fin 32), coreReady s.pkg s.clk k (Machine.core s.pkg k) = true →
    let x := Machine.core s.pkg k
    (x.sched = false → x.fetchOk = true →
      exec (.iIntegerReg k .undef rd a b) s = .next (Safety.raised s k 0x01) ∧
      (∀ imm, exec (.iIntegerImm k .undef rd a imm) s = .next (Safety.raised s k 0x01)) ∧
      exec (.bBranch k .undef) s = .next (Safety.raised s k 0x01) ∧
      (∀ w, exec (.mMuldiv k .undef w rd a b) s = .next (Safety.raised s k 0x01)) ∧
      (∀ w ra, exec (.fScalar k .undef w ra rd a b) s = .next (Safety.raised s k 0x01)) ∧
      (x.awake = true → rd.val % 2 ^ x.grp ≠ 0 →
        exec (.vArith k .add .sint false 0 rd a (.v b)) s = .next (Safety.raised s k 0x05)) ∧
      (x.awake = true → exec (.vPredicateLogic k .undef) s = .next (Safety.raised s k 0x01)) ∧
      (isKeeper k = true → ∀ imm : Fin 16, 4 ≤ imm.val → exec (.vShape k imm) s = .next (Safety.raised s k 0x05)) ∧
      (128 ≤ k.val → ∀ slot : Fin 64, exec (.tDscr k rd slot) s = .next (Safety.raised s k 0x01))) ∧
    (x.sched = false → x.fetchOk = false →
      exec (.iIntegerReg k .add rd a b) s = .next (Safety.withPkg s (Safety.excepted s.pkg k 0x04 x.pc))) ∧
    (x.sched = true → k.val < 128 → x.fetchOk = true →
      (∃ u, exec (.iIntegerReg k .undef rd a b) s = .next u ∧ (tile u.pkg k).stopped = true ∧ rget u.pkg (tReg s.pkg k + 8) = 0x09 ∧
        rfld u.pkg (tReg s.pkg k + 0x14) 15 8 = 0x01 ∧ Machine.core u.pkg k = Safety.atRest x ∧ u.pkg.excs = s.pkg.excs) ∧
      (∀ ctx : Fin 65536, ∃ u, exec (.aFadd64 k ctx rd a b) s = .next u ∧ (tile u.pkg k).stopped = true ∧
        rfld u.pkg (tReg s.pkg k + 0x14) 15 8 = 0x06 ∧ Machine.core u.pkg k = Safety.atRest x ∧ u.pkg.mem = s.pkg.mem))

/-- System instructions (Tables 9.5 and 9.6, R216, R226, R227): the count and the cycle counter are read; FFLAGS keeps its defined
bits; watch words keep their aligned address; VCFG and MODE are read only; `SYS.DCINVA` empties the data cache; a wake takes 160
cycles, a sleep takes effect at once; the wait for watch words completes with the lowest index at or above its threshold, and the
core runs nothing until then. -/
def Obligations.SystemInstructions : Prop :=
  ∀ (s : State) (k : Fin 216) (rd a : Fin 32), 
    let x := Machine.core s.pkg k
    (Safety.Runs s k →
      let y := Safety.stepped s k
      let put (v : W64) : Host.Outcome State Fault Refusal := .next (Safety.goneOn s k (y.xset rd v))
      let becomes (z : Core) : Host.Outcome State Fault Refusal := .next (Safety.goneOn s k z)
      exec (.sysRdgsc k rd) s = put (BitVec.ofNat 64 s.clk.gsc) ∧
      exec (.sysRdcyc k rd) s =
        put (BitVec.ofNat 64 (if isKeeper k then s.pkg.since * 96 / (10 * tickUnits s.pkg) else s.pkg.since / 5)) ∧
      exec (.sysCsrr k rd .fflags) s = put (x.fflags.setWidth 64) ∧
      exec (.sysCsrr k rd .mode) s = put (if x.sched then 0 else 1) ∧
      exec (.sysCsrr k rd .vcfg) s = put (BitVec.ofNat 64 (x.sew + x.grp * 4 + x.vl * 2 ^ 16 + x.qsel * 2 ^ 28)) ∧
      (∀ i : Fin 16, exec (.sysCsrr k rd (.watchAddr i)) s = put (sget x.watchA i 0) ∧ exec (.sysCsrr k rd (.watchThr i)) s = put (sget x.watchT i 0)) ∧
      exec (.sysCsrw k .fflags a) s = becomes { y with fflags := (x.xget a).setWidth 16 &&& 0x017F#16 } ∧
      exec (.sysCsrw k .vcfg a) s = becomes y ∧ exec (.sysCsrw k .mode a) s = becomes y ∧
      (∀ i : Fin 16, exec (.sysCsrw k (.watchAddr i) a) s = becomes { y with watchA := sset x.watchA i (x.xget a &&& 0x00003FFFFFFFFFF8#64) } ∧
        exec (.sysCsrw k (.watchThr i) a) s = becomes { y with watchT := sset x.watchT i (x.xget a) }) ∧
      exec (.sysFence k) s = becomes y ∧
      exec (.sysDcinva k) s = becomes { y with dcache := [] } ∧
      (∃ z, exec (.sysDcinv k a) s = becomes z ∧ z.xs = x.xs ∧ z.pc = x.pc + 4 ∧
        ∀ st, ∀ l ∈ sget z.dcache st [], l.1 ≠ (x.xget a).toNat / 64 * 64 ∧ l ∈ sget x.dcache st []) ∧
      exec (.sysVsleep k) s = becomes { y with awake := false, waking := none } ∧
      (x.awake = false → x.waking = none → exec (.sysVwake k) s = becomes { y with waking := some (s.clk.up / 5 + 160) }) ∧
      ((x.awake = true ∨ x.waking.isSome = true) → exec (.sysVwake k) s = becomes y) ∧
      ((x.sched = true → ∀ i < 16, bit ((x.xget a).toNat % 2 ^ 16) i = true → Safety.InSlice k (sget x.watchA i 0#64).toNat 8) →
        exec (.sysWaitany k rd a) s = becomes { y with waiting := some (rd, (x.xget a).toNat % 2 ^ 16) })) ∧
    (∀ w, x.waking = some w →
      (w ≤ s.clk.up / 5 → exec (.vwakeDone k) s = .next (Safety.withCore s k { x with awake := true, waking := none })) ∧
      (s.clk.up / 5 < w → exec (.vwakeDone k) s = .next s)) ∧
    (∀ r mask, x.waiting = some (r, mask) → s.pkg.badLines = [] →
      (∀ i < 16, bit mask i = true → (sget x.watchT i 0#64).toNat ≤ mnat s.pkg.mem (sget x.watchA i 0#64).toNat 8 →
        (∀ j < i, bit mask j = true → mnat s.pkg.mem (sget x.watchA j 0#64).toNat 8 < (sget x.watchT j 0#64).toNat) →
        exec (.waitanyWake k) s = .next (Safety.withCore s k { x.xset r (BitVec.ofNat 64 i) with waiting := none })) ∧
      ((∀ i < 16, bit mask i = true → mnat s.pkg.mem (sget x.watchA i 0#64).toNat 8 < (sget x.watchT i 0#64).toNat) →
        exec (.waitanyWake k) s = .next s) ∧
      (∀ b, exec (.iIntegerReg k .add rd a b) s = .next s))

/-- The tile interface (R219, Table 9.4a): a forager pushes at a queue's tail, where the word may issue from the next cycle, and waits
while the queue is full, writes and reads the slots of the active descriptor bank, signals a token from the next cycle on, takes
one or waits, and reads its count. -/
def Obligations.TileInterface : Prop :=
  ∀ (s : State) (k : Fin 216) (q : Fin 4) (slot : Fin 64) (rd a b : Fin 32), Safety.Runs s k → k.val < 128 →
    let x := Machine.core s.pkg k
    let y := Safety.stepped s k
    let t := tile s.pkg k
    let cyc := cycleOf s.pkg s.clk t.start
    let with_ (u : Tile) (z : Core) : Host.Outcome State Fault Refusal := .next (Safety.withPkg s (setCore (setTile s.pkg k u) k (Safety.atRest z)))
    ((t.queue q).length < 128 →
      let w := x.xget b ++ x.xget a
      (t.queue q ≠ [] → exec (.tQpush k q a b) s = with_ (t.setQueue q (t.queue q ++ [w])) y) ∧
      (t.queue q = [] → exec (.tQpush k q a b) s =
        with_ { t.setQueue q [w] with qfree := sset t.qfree q (max (sget t.qfree q 0) (cyc + 1)) } y)) ∧
    (128 ≤ (t.queue q).length → exec (.tQpush k q a b) s = .next s) ∧
    (∃ u, exec (.tDscw k slot rd) s = .next u ∧ leNat ((tile u.pkg k).descBytes t.bank slot) = (x.vget rd).toNat ∧
      (∀ j, j ≠ slot.val → (tile u.pkg k).descBytes t.bank j = t.descBytes t.bank j) ∧
      (∀ i j, i ≠ t.bank → (i = 0 ∨ t.bank = 0) → (tile u.pkg k).descBytes i j = t.descBytes i j) ∧
      Machine.core u.pkg k = Safety.atRest y ∧ u.pkg.mem = s.pkg.mem) ∧
    exec (.tDscr k rd slot) s = .next (Safety.goneOn s k (y.vset rd (BitVec.ofNat 512 (leNat (t.descBytes t.bank slot))))) ∧
    (slot.val ≠ 0 →
      exec (.tTread k rd slot) s = .next (Safety.goneOn s k (y.xset rd (BitVec.ofNat 64 (t.tokAt slot cyc)))) ∧
      (twaitOk s.pkg s.clk k slot = true → exec (.tTwait k slot) s = with_ (t.takeTok slot cyc) y) ∧
      (twaitOk s.pkg s.clk k slot = false → exec (.tTwait k slot) s = .next s) ∧
      (t.tokAt slot cyc = 0 → twaitOk s.pkg s.clk k slot = false) ∧
      (Safety.tokCount t slot < 255 → ∃ u, exec (.tTsig k slot) s = .next u ∧ Machine.core u.pkg k = Safety.atRest y ∧
        Safety.tokCount (tile u.pkg k) slot = Safety.tokCount t slot + 1 ∧
        ((sget t.toks slot {}).pcyc ≤ cyc → (tile u.pkg k).tokAt slot cyc = t.tokAt slot cyc)) ∧
      (255 ≤ Safety.tokCount t slot → ∃ u, exec (.tTsig k slot) s = .next u ∧ (tile u.pkg k).stopped = true ∧
        rget u.pkg (tReg s.pkg k + 8) = 0x03))

/-- Atomics on a fabric address (R218, R310): within an outbound window that permits it, an atomic for another place leaves under the
context named, with the context's next sequence number, and the core goes on; a scheduled forager's is posted and counted for its
place (R305). A service-mode `A.RCAS64` holds the core until its old value comes, and so does `A.FADD64`, which loads the word
first (log entry 37). At the own place the word in a scratchpad changes at once. Outside every window, and for a misaligned
address, service-mode code has subcause 0x03 or 0x02. -/
def Obligations.FabricAtomics : Prop :=
  ∀ (s : State) (k : Fin 216) (cx : Fin 65536) (rd a b : Fin 32) (wide : Bool), Safety.Runs s k →
    let x := Machine.core s.pkg k
    let y := Safety.atRest (Safety.stepped s k)
    let e := (x.xget a).toNat
    let n := if wide then 8 else 4
    let counted := if isTileCore k then modTile s.pkg k (fun t => { t with dests := destIssue t.dests (placeOf e) 1 true }) else s.pkg
    let sent (r : Req) : Host.Outcome State Fault Refusal :=
      .next (Safety.withPkg s (setCore (sendReq counted cx (.core k) (!x.sched) true r) k y))
    let asked (r : Req) (w : Await) : Host.Outcome State Fault Refusal :=
      .next (Safety.withPkg s (setCore (sendReq s.pkg cx (.core k) true true r) k { y with answer := some w }))
    (placeOf e ≠ ownPlace s.pkg →
      (e % 8 = 0 → windowOk s.pkg e 8 2 (coreCls x) = true →
        exec (.aRiadd k cx a b) s = sent { ty := 0x09, daddr := e, op0 := (x.xget b).toNat }) ∧
      (e % n = 0 → windowOk s.pkg e n 3 (coreCls x) = true →
        exec (.aRfadd k cx wide a b) s = sent { ty := if wide then 0x06 else 0x07, daddr := e, payload := natLe n (Core.fget k x b).toNat }) ∧
      (x.sched = false → e % 8 = 0 → windowOk s.pkg e 8 2 clsKeeper = true →
        exec (.aRcas64 k cx rd a b) s = asked { ty := 0x05, daddr := e, op0 := (x.xget rd).toNat, op1 := (x.xget b).toNat } (.old rd)) ∧
      (x.sched = false → e % 8 = 0 → windowOk s.pkg e 8 3 clsKeeper = true →
        exec (.aFadd64 k cx rd a b) s = asked { ty := 0x02, daddr := e, op0 := 8 } (.fsum rd cx e (Core.fget k x b) none))) ∧
    (∀ t, placeOf e = ownPlace s.pkg → x.sched = false → isTileCore k = false → e % 8 = 0 → target s.pkg (localOf e) 8 = some (.slice t) →
      retired s.pkg = false → s.pkg.badLines = [] → s.pkg.ceLines = [] → memWf s.pkg.mem = true →
      let l := localOf e
      let old := mnat s.pkg.mem l 8
      let leaves (i : Instr) (v : Nat) (z : Core) : Prop := ∃ u, exec i s = .next u ∧ mnat u.pkg.mem l 8 = v ∧
        (∀ c, (c < l ∨ l + 8 ≤ c) → mget u.pkg.mem c = mget s.pkg.mem c) ∧ Machine.core u.pkg k = z ∧ u.pkg.outs = s.pkg.outs
      (windowOk s.pkg e 8 2 clsKeeper = true →
        leaves (.aRiadd k cx a b) ((old + (x.xget b).toNat) % 2 ^ 64) y ∧
        leaves (.aRcas64 k cx rd a b) (if old = (x.xget rd).toNat then (x.xget b).toNat else old) (y.xset rd (BitVec.ofNat 64 old))) ∧
      (windowOk s.pkg e 8 3 clsKeeper = true →
        leaves (.aRfadd k cx true a b) (fAdd .b64 .rne (BitVec.ofNat 64 old) (Core.fget k x b)).1.toNat y ∧
        leaves (.aFadd64 k cx rd a b) (fAdd .b64 .rne (BitVec.ofNat 64 old) (Core.fget k x b)).1.toNat
          (Core.fset k y rd (BitVec.ofNat 64 old)))) ∧
    (x.sched = false → e % 8 = 0 → windowOk s.pkg e 8 2 clsKeeper = false →
      exec (.aRiadd k cx a b) s = .next (Safety.raised s k 0x03) ∧ exec (.aRcas64 k cx rd a b) s = .next (Safety.raised s k 0x03)) ∧
    (x.sched = false → e % 8 ≠ 0 →
      exec (.aRiadd k cx a b) s = .next (Safety.raised s k 0x02) ∧ exec (.aFadd64 k cx rd a b) s = .next (Safety.raised s k 0x02))

/-- Element-wise vector arithmetic (R221, R222, R223): every active element below VL of the destination group takes the operation's
result, rounded under RA; inactive and tail elements keep theirs; flags gather in FFLAGS; the scalar registers, the predicates and
the rest of the machine stay. -/
def Obligations.VectorElements : Prop :=
  ∀ (s : State) (k : Fin 216) (op : VOp) (kind : VKind) (m sq : Bool) (ra : Fin 8) (vd vs1 vs2 : Fin 32) (src : VSrc),
    Safety.Runs s k →
    let x := Machine.core s.pkg k
    let act := actives x m
    let w := x.sewBits
    let rm := rndOfRa ra s.pkg.cfg.radef
    let writes (i : Instr) (r : Nat → R) : Prop :=
      ∃ z, exec i s = .next (Safety.withCore s k z) ∧ z.pc = x.pc + 4 ∧ z.xs = x.xs ∧ z.qs = x.qs ∧
        (∀ i < x.cap k, Safety.vElemAt k z vd i = if i ∈ act then BitVec.ofNat 64 ((r i).1.toNat % 2 ^ w) else Safety.vElemAt k x vd i) ∧
        (∀ j, (j < vd.val ∨ vd.val + x.g ≤ j) → z.vget j = x.vget j) ∧
        z.fflags = (act.foldl (fun f i => f ||| ((r i).2 &&& 0x017F#16)) x.fflags)
    x.awake = true → x.vl ≤ x.cap k → x.sew < 4 → x.grp < 4 →
    (op ≠ .undef → kindOk x kind = true → groupOk k x ([vd.val, vs1.val] ++ srcRegs src) = true →
      writes (.vArith k op kind m ra vd vs1 src) (fun i =>
        vElem (floatOf x.sew) rm op kind w (Safety.vElemAt k x vs1 i) (vSource k x src i) (Safety.vElemAt k x vd i))) ∧
    (∀ f, floatOf x.sew = some f → groupOk k x [vd, vs1, vs2] = true →
      writes (.vDivSqrt k sq m ra vd vs1 vs2) (fun i =>
        if sq then viaWork f (fun g u _ => fSqrt g rm u) (Safety.vElemAt k x vs1 i) 0#64
        else viaWork f (fun g u v => fDiv g rm u v) (Safety.vElemAt k x vs1 i) (Safety.vElemAt k x vs2 i)))

/-- Shape, count and predicate selection (R221), comparisons and predicate logic (R222, R135), conversions, permutations, reductions
and the moves of one element (Table 9.4): each completes and leaves the pc on the next instruction. An element beyond a group's
capacity, what a slide brings in, the left-over active elements of a compression and an ordered sum of nothing are free values (log
entry 81). -/
def Obligations.VectorOperations : Prop :=
  ∀ (s : State) (k : Fin 216) (kind : VKind) (m : Bool) (ra : Fin 8) (rd a b : Fin 32), Safety.Runs s k →
    let x := Machine.core s.pkg k
    let y := Safety.stepped s k
    let act := actives x m
    let w := x.sewBits
    let rm := rndOfRa ra s.pkg.cfg.radef
    let becomes (z : Core) : Host.Outcome State Fault Refusal := .next (Safety.goneOn s k z)
    let pred (i : Instr) (f : Nat → Bool) : Prop :=
      ∃ z, exec i s = becomes z ∧ z.vs = x.vs ∧ z.xs = x.xs ∧ z.pc = x.pc + 4 ∧ (rd = 0 → z.qs = x.qs) ∧
        (rd ≠ 0 → ∀ i < 512, (z.qget rd).getLsbD i = (if x.vl ≤ i then false else if i ∈ act then f i else (x.qget rd).getLsbD i))
    (∀ imm : Fin 16, (isKeeper k = false ∨ imm.val < 4) → exec (.vShape k imm) s = becomes { y with sew := imm.val % 4, grp := imm.val / 4, vl := 0 }) ∧
    exec (.vTrip k rd a) s = becomes { y.xset rd (BitVec.ofNat 64 ((x.xget a).toNat - min (x.xget a).toNat (x.cap k))) with
      vl := min (x.xget a).toNat (x.cap k) } ∧
    (∀ imm : Fin 8, exec (.vQsel k imm) s = becomes { y with qsel := imm.val }) ∧
    (groupOk k x [a] = true →
      (∃ v : W64, ((x.xget b).toNat < x.cap k → v = Safety.vElemAt k x a (x.xget b).toNat) ∧
        exec (.vMvx k true rd a b) s = becomes (Core.fset k y rd v) ∧
        (x.awake = true → exec (.vMvx k false rd a b) s = becomes (y.xset rd (extendTo64 w v.toNat))))) ∧
    (x.awake = true →
      (∀ rel src, kindOk x kind = true → rd.val ≤ 7 → groupOk k x ([a.val] ++ srcRegs src) = true →
        pred (.vCmp k rel kind m rd a src) (fun i => match kind, floatOf x.sew with
          | .flt, some f => (cmpRel (relOf rel) (decodeFloat f (Safety.vElemAt k x a i)) (decodeFloat f (vSource k x src i))).1
          | _, _ => relHolds (relOf rel) (kindInt kind w (Safety.vElemAt k x a i) - kindInt kind w (vSource k x src i)))) ∧
      (rd.val ≤ 7 → a.val ≤ 7 → b.val ≤ 7 →
        pred (.vPredicateLogic k (.qand m rd a b)) (fun i => (x.qget a).getLsbD i && (x.qget b).getLsbD i) ∧
        pred (.vPredicateLogic k (.qor m rd a b)) (fun i => (x.qget a).getLsbD i || (x.qget b).getLsbD i) ∧
        pred (.vPredicateLogic k (.qnot m rd a)) (fun i => !(x.qget a).getLsbD i)) ∧
      exec (.vPredicateLogic k (.qpop rd)) s = becomes (y.xset rd (BitVec.ofNat 64 (popcount x.vl (x.qget x.qsel).toNat))) ∧
      (groupOk k x [rd] = true →
        exec (.vPermute k (.bcast a) m rd) s =
          becomes (writeActive k y rd w (act.map (fun i => (i, (BitVec.ofNat 64 ((x.xget a).toNat % 2 ^ w), 0#16)))))) ∧
      (groupOk k x [rd, a] = true →
        exec (.vPermute k (.expd a) m rd) s =
          becomes (writeActive k y rd w (act.zipIdx.map (fun e => (e.1, (Safety.vElemAt k x a e.2, 0#16))))) ∧
        (∀ op, kindOk x kind = true → exec (.vRsum k op kind m rd a) s =
          becomes (writeFirst k y rd (vReduce op kind x.sew w x.vl act (Safety.vElemAt k x a)))) ∧
        (kindOk x kind = true → (act = [] → ∃ v, exec (.vRsumo k kind m ra rd a) s = becomes (writeFirst k y rd (v, 0#16))) ∧
          ∀ i r, act = i :: r → exec (.vRsumo k kind m ra rd a) s =
          becomes (writeFirst k y rd (r.foldl (fun (t : R) j =>
            let u := vElem (floatOf x.sew) rm .add kind w t.1 (Safety.vElemAt k x a j) 0#64
            (u.1, t.2 ||| u.2)) (Safety.vElemAt k x a i, 0#16)))) ∧
        (x.vl ≤ x.cap k → x.sew < 4 → x.grp < 4 →
          let moves (i : Instr) (f : Nat → Nat → Prop) : Prop := ∃ z, exec i s = becomes z ∧ z.xs = x.xs ∧ z.pc = x.pc + 4 ∧
            ∀ i < x.cap k, (∀ j, f i j → Safety.vElemAt k z rd i = Safety.vElemAt k x a j) ∧
              (i ∉ act → (∀ j, ¬f i j) → Safety.vElemAt k z rd i = Safety.vElemAt k x rd i)
          let n := (x.xget b).toNat
          moves (.vPermute k (.slup a b) m rd) (fun i j => i ∈ act ∧ i = j + n) ∧
          moves (.vPermute k (.sldn a b) m rd) (fun i j => i ∈ act ∧ j = i + n ∧ j < x.vl) ∧
          moves (.vPermute k (.cmpr a) m rd) (fun i j => act[i]? = some j))) ∧
      (∀ (src dst : Fin 256) (f g : Fmt), fmtOfCode src = some f → fmtOfCode dst = some g → f.isFixed = false → g.isFixed = false →
        groupOk k x [rd, a] = true →
        a.val + max x.g (cdiv (f.width * x.vl) (vbits k)) ≤ vregs k → rd.val + max x.g (cdiv (g.width * x.vl) (vbits k)) ≤ vregs k →
        ∃ z, exec (.vCvt k src dst m ra rd a) s = becomes z ∧ z.xs = x.xs ∧ z.qs = x.qs ∧ z.pc = x.pc + 4 ∧
          ∀ i ∈ act, elemOf (groupBits k z rd (max x.g (cdiv (g.width * x.vl) (vbits k)))) g.width i =
            BitVec.ofNat 64 ((convert rm f {} g {} (elemOf (groupBits k x a (max x.g (cdiv (f.width * x.vl) (vbits k)))) f.width i)).1.toNat
              % 2 ^ g.width)))

/-- Vector memory instructions in scratchpad slices, of scheduled foragers and of service-mode code (R217, R222, R224): a load of unit
or any stride fills the active elements, a store writes them in ascending order and no other byte; a gather and a scatter take
their addresses from an index group, of a scatter's equal addresses the highest index wins; a scatter-add adds one element at a
time; a predicate is loaded and stored as ⌈VL/8⌉ bytes, whose inactive bits stay. A sleeping unit starts to wake instead, and
nothing else happens (R227). -/
def Obligations.VectorMemory : Prop :=
  ∀ (s : State) (k : Fin 216) (kind : VKind) (m : Bool) (ra : Fin 8) (v a b : Fin 32), Safety.Runs s k → memWf s.pkg.mem = true →
    let x := Machine.core s.pkg k
    let act := actives x m
    let n := x.sewBits / 8
    let base := (x.xget a).toNat
    let fills (i : Instr) (addr : Nat → Nat) : Prop :=
      ∃ z, exec i s = .next (Safety.withCore s k z) ∧ z.xs = x.xs ∧ z.qs = x.qs ∧ z.pc = x.pc + 4 ∧
        ∀ i < x.cap k, Safety.vElemAt k z v i =
          if i ∈ act then BitVec.ofNat 64 (mnat (Safety.viewOf s k) (addr i) n) else Safety.vElemAt k x v i
    let stores (i : Instr) (addr : Nat → Nat) (val : Nat → Nat → Prop) : Prop :=
      ∃ u, exec i s = .next u ∧ (Machine.core u.pkg k).vs = x.vs ∧ (Machine.core u.pkg k).pc = x.pc + 4 ∧ u.pkg.regs = s.pkg.regs ∧
        (∀ i ∈ act, val i (mnat u.pkg.mem (addr i) n)) ∧
        (∀ c, (∀ i ∈ act, c < addr i ∨ addr i + n ≤ c) → mget u.pkg.mem c = mget s.pkg.mem c)
    let last (addr : Nat → Nat) (i w : Nat) : Prop := (∀ j ∈ act, i < j → addr j ≠ addr i) → w = (Safety.vElemAt k x v i).toNat
    let reached (addr : Nat → Nat) : Prop := ∀ i ∈ act, Safety.OwnAccess s k (addr i) n ∨ Safety.SliceAccess s k (addr i) n
    (x.awake = false → ∀ i ∈ [Instr.vLdSt k (.ld a) m v, .vLdSt k (.st a) m v, .vLdSt k (.lds a b) m v, .vLdSt k (.sts a b) m v,
        .vGath k m v a b, .vScat k m v a b, .vScadd k kind m ra v a b, .vQldQst k (.ld m) v a, .vQldQst k (.st m) v a],
      (x.waking = none → exec i s = .next (Safety.withCore s k { x with waking := some (s.clk.up / 5 + 160) })) ∧
      (x.waking.isSome = true → exec i s = .next s)) ∧
    (x.awake = true → x.sew < 4 → x.grp < 4 → x.vl ≤ x.cap k → groupOk k x [v] = true →
      (reached (elemAddr x a n) →
        fills (.vLdSt k (.ld a) m v) (elemAddr x a n) ∧ stores (.vLdSt k (.st a) m v) (elemAddr x a n) (last (elemAddr x a n))) ∧
      (let by_ : Int := sext 64 (x.xget b).toNat
       reached (elemAddr x a by_) →
        fills (.vLdSt k (.lds a b) m v) (elemAddr x a by_) ∧ stores (.vLdSt k (.sts a b) m v) (elemAddr x a by_) (last (elemAddr x a by_)))) ∧
    (x.awake = true → x.sew < 4 → x.grp < 4 → x.vl ≤ x.cap k → groupOk k x [v, b] = true →
      let addr (i : Nat) : Nat := (base + (Safety.vElemAt k x b i).toNat * n) % 2 ^ 64
      reached addr → (∀ i ∈ act, inOwn k (addr i) n = true) →
      fills (.vGath k m v a b) addr ∧
      stores (.vScat k m v a b) addr (last addr) ∧
      (kindOk x kind = true → stores (.vScadd k kind m ra v a b) addr (fun i w => act = [i] → w =
        (vElem (floatOf x.sew) (rndOfRa ra s.pkg.cfg.radef) .add kind x.sewBits (BitVec.ofNat 64 (mnat (Safety.viewOf s k) (addr i) n))
          (Safety.vElemAt k x v i) 0#64).1.toNat % 2 ^ x.sewBits))) ∧
    (x.awake = true → v.val ≤ 7 → inOwn k base ((x.vl + 7) / 8) = true →
      (Safety.OwnBytes s k base ((x.vl + 7) / 8) ∨ Safety.SliceBytes s k base ((x.vl + 7) / 8)) →
      (∃ z, exec (.vQldQst k (.ld m) v a) s = .next (Safety.withCore s k z) ∧ z.xs = x.xs ∧ z.vs = x.vs ∧ z.pc = x.pc + 4 ∧
        (v ≠ 0 → ∀ i < 512, (z.qget v).getLsbD i = (decide (i < x.vl) &&
          (if i ∈ act then (mget (Safety.viewOf s k) (base + i / 8)).getLsbD (i % 8) else (x.qget v).getLsbD i)))) ∧
      (∃ u, exec (.vQldQst k (.st m) v a) s = .next u ∧ (Machine.core u.pkg k).pc = x.pc + 4 ∧
        (∀ i < x.vl, (mget u.pkg.mem (base + i / 8)).getLsbD (i % 8) =
          (if i ∈ act then (x.qget v).getLsbD i else (mget (Safety.viewOf s k) (base + i / 8)).getLsbD (i % 8))) ∧
        (∀ c, (c < base ∨ base + (x.vl + 7) / 8 ≤ c) → mget u.pkg.mem c = mget s.pkg.mem c)))

/-- A dispatch reaches its engine 128 cycles after it issued and waits for its start tick (R154, R181); one that names an earlier start
than its arrival, or less than an earlier dispatch's start plus WC, is plan fault SV_SCHEDULE or UP_SCHEDULE on its tile. A running
job's last cycle has passed and none of its HBM traffic waits: its writes become visible together, a sparse job's are its pivot log
and status record, its engine counts it and is free, and the held instruction that dispatched it has finished its work (R155, R156,
R178, R183); PASS1 leaves G, and the participants of a PASS2 end together (log entry 126). Before that the command does nothing. A
sparse job starts at its tick with its program checked and its slots clear (R154, R172); the update engines' jobs start together on
all their participants and end after the durations of Table 8.9: INIT (R203), PASS1 with the norm (R188), PASS2 with the step or,
where the norm is not finite, without (R189, R192), ROOT (R200). A program or recipe that fails its checks is plan fault
INVALID_DESCRIPTOR, a stopped clock UP_SCHEDULE, PASS2 without a completed PASS1 UP_SEQUENCE. Nothing is visible before the jobs
end. -/
def Obligations.EngineJobs : Prop :=
   (∀ (s : State) (n : Nat) (j : Job) (i : Instr) (ue : Bool) (cause : Nat),
      (i, ue, cause) ∈ [(Instr.svDispatchArrive n, false, 0x06), (.upDispatchArrive n, true, 0x07)] →
      findJob s.pkg n = some j → j.ue = ue → j.arrived = false → j.closed = false →
      let late := cycleAt s.pkg j.s < j.issued + 128
      let early := ∃ k ∈ s.pkg.jobs, k.ue = ue ∧ k.unit = j.unit ∧ k.launch = j.launch ∧
        (k.issued < j.issued ∨ (k.issued = j.issued ∧ k.tile < j.tile)) ∧ j.s < k.s + k.wc
      (j.issued + 128 ≤ jobCycle s.pkg s.clk j → ¬late → ¬early →
        exec i s = .next (Safety.withPkg s (modJob s.pkg n (fun k => { k with arrived := true })))) ∧
      (j.issued + 128 ≤ jobCycle s.pkg s.clk j → (late ∨ early) →
        ∃ u, exec i s = .next u ∧ (tile u.pkg j.tile).stopped = true ∧ rget u.pkg (tReg s.pkg j.tile + 8) = cause + 3 * 256 ∧
          ∀ k ∈ u.pkg.jobs, k.id = j.id → k.closed = true ∧ k.running = false) ∧
      (jobCycle s.pkg s.clk j < j.issued + 128 → exec i s = .next s)) ∧
   (∀ (s : State) (n : Nat) (j : Job), findJob s.pkg n = some j → j.running = true →
      s.pkg.badLines = [] → s.pkg.ceLines = [] →
      let ended (u : State) (k : Job) : Prop := (∀ y ∈ u.pkg.jobs, y.id = k.id → y.closed = true ∧ y.running = false) ∧
        ∀ f, findInfl s.pkg k.tile k.seq = some f → f.failed = false → ∃ g, findInfl u.pkg k.tile k.seq = some g ∧ g.fin = true
      let slv (u : State) (status : Nat) : Prop := ended u j ∧
        rget u.pkg (sReg s.pkg j.unit + 8) = status + j.flags.toNat * 2 ^ 16 ∧
        rget u.pkg (sReg s.pkg j.unit + 0x10) = (rget s.pkg (sReg s.pkg j.unit + 0x10) + 1) % 2 ^ 32 ∧
        (∀ f, findInfl s.pkg j.tile j.seq = some f → ∃ g, findInfl u.pkg j.tile j.seq = some g ∧ g.flags = f.flags ||| j.flags)
      let done_ (k : Job) : Prop := max k.ends k.late ≤ jobCycle s.pkg s.clk k ∧ owesHbm s.pkg (.job k.id) = false
      (j.ue = false → done_ j →
        (j.op = 0xB0 → ∃ u, exec (.slvJobEnd n) s = .next u ∧ u.pkg.mem = applyWs s.pkg.mem j.writes.flatten ∧ slv u 0) ∧
        (j.op = 0xB1 → j.sparse.ended = true →
          let r := jobRecord s.pkg j
          let at_ := slvAt (launchMask s.pkg j.launch) j.unit
          let q := j.sparse
          let status := if q.convRun && !q.convMet then 2 else 0
          ∃ u, exec (.slvJobEnd n) s = .next u ∧ slv u status ∧
            u.pkg.mem = applyWs s.pkg.mem [bytesW (at_ r.log) (pivotLog j.piv q.piv), bytesW (at_ r.jstat)
              (statusRecord status (b2n q.nofactor + 2 * b2n q.breakdown) j.flags q.convIter q.resid (factGen s.pkg at_ r.fact) j.piv)]) ∧
        (j.op = 0xB1 → j.sparse.ended = false → exec (.slvJobEnd n) s = .next s)) ∧
      (j.ue = false → jobCycle s.pkg s.clk j < max j.ends j.late → exec (.slvJobEnd n) s = .next s) ∧
      (j.ue = true →
        let r := recipeAt s.pkg j.launch j.idx
        ((j.op = 0 ∨ j.op = 1 ∨ j.op = 3) → done_ j → (j.op = 1 → (pass1Sum s.pkg r j).isSome = true) →
          ∃ u, exec (.ueJobEnd n) s = .next u ∧ ended u j ∧
            (∀ a, (∀ b ∈ (endStores s.pkg r j).flatten, a < b.addr / 8 ∨ b.addr / 8 + (b.addr % 8 + b.w + 7) / 8 ≤ a) →
              (a < r.state ∨ r.state + 64 ≤ a) → mget u.pkg.mem a = mget s.pkg.mem a) ∧
            (j.op = 1 → u.pkg.mem = applyWs s.pkg.mem (endStores s.pkg r j).flatten)) ∧
        (j.op = 2 → (∀ k ∈ s.pkg.jobs, samePass j k = true → k.running = true → done_ k) →
          let js := s.pkg.jobs.filter (fun k => samePass j k && k.running)
          ∃ u, exec (.ueJobEnd n) s = .next u ∧ u.pkg.mem = js.foldl (fun m k => applyWs m k.writes.flatten) s.pkg.mem ∧
            ∀ k ∈ js, ended u k)) ∧
      (j.ue = true → jobCycle s.pkg s.clk j < max j.ends j.late → exec (.ueJobEnd n) s = .next s)) ∧
   (∀ (s : State) (n : Nat) (j : Job), s.pkg.badLines = [] → s.pkg.ceLines = [] →
      let stops (i : Instr) (cause : Nat) : Prop := ∃ u, exec i s = .next u ∧ (tile u.pkg j.tile).stopped = true ∧
        rget u.pkg (tReg s.pkg j.tile + 8) = cause + 3 * 256 ∧ u.pkg.mem = s.pkg.mem
      (Safety.Startable s n j false →
        let r := jobRecord s.pkg j
        let mask := launchMask s.pkg j.launch
        let g := readProg s.pkg.mem ((launchSec s.pkg j.launch 4).getD (0, 0)).1 r.prog
        r.ok (j.op == 0xB1) = true → r.kind = 0x10 → startCheck s.pkg j r mask = none →
          (progCheck s.pkg j r mask g = none →
            ∃ u k, exec (.jobSparse n) s = .next u ∧ u.pkg.mem = s.pkg.mem ∧ findJob u.pkg n = some k ∧ k.running = true ∧
              k.began = beginCycle s.pkg j ∧ k.ends = k.began ∧ k.sparse = {}) ∧
          (progOk s.pkg.mem g = false → stops (.jobSparse n) 0x01)) ∧
      (let r := recipeAt s.pkg j.launch j.idx
       let starts (i : Instr) (js : List Job) (dur : Nat) : Prop :=
         ∃ u b, exec i s = .next u ∧ u.pkg.mem = s.pkg.mem ∧ b = js.foldl (fun a j => max a (beginCycle s.pkg j)) 0 ∧
           ∀ k ∈ u.pkg.jobs, (∃ j ∈ js, j.id = k.id) → k.running = true ∧ k.began = b ∧ k.ends = b + dur
       let mine (u : Nat) := (segsOf s.pkg.mem r).filter (fun g => g.lue == u)
       (∀ i op, (i, op) ∈ [(Instr.ueInitJob n, 0), (.uePass1Job n, 1), (.uePass2Job n, 2), (.ueRootJob n, 3)] →
         Safety.Startable s n j true → j.op = op →
         (engineAsleep s.pkg j = true → stops i 0x07) ∧
         (engineAsleep s.pkg j = false → recipeStands s.pkg j r = false → stops i 0x01)) ∧
       (Safety.Startable s n j true → j.op = 0 → upRefused s.pkg s.clk j r = none →
         starts (.ueInitJob n) [j] (64 + 1024 + (mine j.unit).foldl (fun a g => a + cdiv g.elems 256) 0
           + ((rootsOf s.pkg.mem r).filter (fun q => q.lue == j.unit)).foldl (fun a q => a + q.count * cdiv (q.n * q.n) 64) 0)) ∧
       (Safety.Startable s n j true → j.op = 3 → upRefused s.pkg s.clk j r = none →
         starts (.ueRootJob n) [j] (64 + ((rootsOf s.pkg.mem r).filter (fun q => q.lue == j.unit)).foldl (fun a q => a + q.count *
           (if q.src = 0 then cdiv (q.n * q.n * q.n) 64 + 8 * q.n else cdiv (q.n * q.n) 64 + 8)) 0)) ∧
       (∀ js, Safety.Startable s n j true → j.op = 1 → upRefused s.pkg s.clk j r = none → partners s.pkg s.clk r j = some js →
         starts (.uePass1Job n) js (64 + (bitList 8 r.uemask).foldl (fun a u =>
           max a ((mine u).foldl (fun a g => a + cdiv (gradCount s.pkg.mem g) 256) 0)) 0 + 342
             + (if r.group = 0xFFFF then 0 else wwcCycles s.pkg r.group)) ∧
         (r.group = 0xFFFF → ∃ u, exec (.uePass1Job n) s = .next u ∧
           ∀ k ∈ u.pkg.jobs, (∃ j ∈ js, j.id = k.id) → k.sum = some (pkgSum s.pkg.mem r))) ∧
       (∀ js, Safety.Startable s n j true → j.op = 2 → upRefused s.pkg s.clk j r = none → partners s.pkg s.clk r j = some js →
         (bit (mnat s.pkg.mem (r.state + 14) 1) 2 = false ∨ mnat s.pkg.mem r.state 4 = 0xFFFFFFFF →
           ∃ u, exec (.uePass2Job n) s = .next u ∧ u.pkg.mem = s.pkg.mem ∧ ∀ k ∈ js, (tile u.pkg k.tile).stopped = true ∧
             rget u.pkg (tReg s.pkg k.tile + 8) = 0x08 + 3 * 256) ∧
         (bit (mnat s.pkg.mem (r.state + 14) 1) 2 = true → mnat s.pkg.mem r.state 4 ≠ 0xFFFFFFFF →
           finiteF .b64 (b64At s.pkg.mem (r.state + 16)) = false → starts (.uePass2Job n) js 64) ∧
         (bit (mnat s.pkg.mem (r.state + 14) 1) 2 = true → mnat s.pkg.mem r.state 4 ≠ 0xFFFFFFFF →
           finiteF .b64 (b64At s.pkg.mem (r.state + 16)) = true → (∀ g ∈ segsOf s.pkg.mem r, touchBad s.pkg.mem g = false) →
           ∃ u, exec (.uePass2Job n) s = .next u ∧ u.pkg.mem = s.pkg.mem ∧ ∀ k ∈ u.pkg.jobs, (∃ j ∈ js, j.id = k.id) → k.running = true ∧
             k.began = js.foldl (fun a j => max a (beginCycle s.pkg j)) 0 ∧ k.began + 64 + 1024 ≤ k.ends))))

/-- A batched job of its KIND starts when its engine is free (R154, R155, R160 to R165): the record is checked, the problems are
computed from the operands at the start, the job ends after the duration of R163, and what it writes waits until then. A stopped
clock is plan fault SV_SCHEDULE, a record that fails R160 INVALID_DESCRIPTOR, an operand out of reach and a pivot index at or above
N (R162) RANGE. A command for another kind does nothing. -/
def Obligations.BatchedJobsStart : Prop :=
  ∀ (s : State) (n kind : Nat) (i : Instr) (j : Job),
    (i, kind) ∈ [(Instr.jobLu n, 1), (.jobCholesky n, 2), (.jobLdlt n, 3), (.jobQr n, 4), (.jobTrsv n, 5), (.jobInverse n, 6), (.jobJacobi n, 7)] →
    Safety.Startable s n j false → s.pkg.badLines = [] → s.pkg.ceLines = [] →
    let r := jobRecord s.pkg j
    let mask := launchMask s.pkg j.launch
    let out := batchRun r (r.ar s.pkg.cfg.radef) s.pkg.mem (slvAt mask j.unit)
    let stops (cause : Nat) : Prop := ∃ u, exec i s = .next u ∧ (tile u.pkg j.tile).stopped = true ∧
      rget u.pkg (tReg s.pkg j.tile + 8) = cause + 3 * 256 ∧ ∀ k ∈ u.pkg.jobs, k.id = j.id → k.closed = true ∧ k.running = false
    (engineAsleep s.pkg j = false → r.ok (j.op == 0xB1) = true → r.kind = kind →
      (∀ e ∈ r.allSpans, (slvMap mask j.unit e.1 e.2.1).isSome = true) → out.2.bad = false →
      ∃ u, exec i s = .next u ∧ u.pkg.mem = s.pkg.mem ∧ u.pkg.tiles = s.pkg.tiles ∧
        ∃ k, findJob u.pkg n = some k ∧ k.running = true ∧ k.began = beginCycle s.pkg j ∧ k.ends = k.began + r.duration ∧
          k.flags = out.2.fl ∧ k.piv = out.2.piv.length ∧ (∀ b ∈ out.1, b ∈ k.writes.flatten)) ∧
    (engineAsleep s.pkg j = true → (r.ok (j.op == 0xB1) = true → r.kind = kind) → stops 0x06) ∧
    (engineAsleep s.pkg j = false → r.ok (j.op == 0xB1) = false → stops 0x01) ∧
    (engineAsleep s.pkg j = false → r.ok (j.op == 0xB1) = true → r.kind = kind →
      (∃ e ∈ r.allSpans, (slvMap mask j.unit e.1 e.2.1).isNone = true) → stops 0x05) ∧
    (engineAsleep s.pkg j = false → r.ok (j.op == 0xB1) = true → r.kind = kind →
      (∀ e ∈ r.allSpans, (slvMap mask j.unit e.1 e.2.1).isSome = true) → out.2.bad = true → stops 0x05) ∧
    (r.ok (j.op == 0xB1) = true → r.kind ≠ kind → exec i s = .next s)

/-- The steps of a sparse program run one by one at their places in the schedule (R172 to R176), each with its duration, its operands
and its results. A DOT over a group waits for the group's sum until the waggle worst case is over (R173, R364). What the steps
compute (R173 to R176), in binary64: AXPY and XPAY element by element with one rounding, DOT's slot, SCAL's operations, COPY and
its fill; COMMIT counts GEN and inverts CUR in one write; a LOOP opens at its first iteration, ENDLOOP goes back while iterations
are left and no TEST of this one was met, END ends the program. -/
def Obligations.SparseSteps : Prop :=
   (∀ n : Nat,
      (∀ r, Safety.StepRuns (.stepPanel n r) n 0x01 (fun _ => panelDur r) (panelSpans r) (panelOut r)) ∧
      (∀ l, Safety.StepRuns (.stepAssemble n l) n 0x02 (fun _ => assembleDur l) (assembleSpans l) (assembleOut l)) ∧
      Safety.StepRuns (.stepCommit n) n 0x03 (fun _ => oneCycle) commitSpans commitOut ∧
      (∀ r, Safety.StepRuns (.stepSpmv n r) n 0x10 (fun _ => spmvDur r) (spmvSpans r) (spmvOut r)) ∧
      (∀ l, Safety.StepRuns (.stepFsolve n l) n 0x11 (fun _ => fsolveDur l) (fsolveSpans l) (fsolveOut l)) ∧
      Safety.StepRuns (.stepAxpy n) n 0x12 (fun _ => vecDur) twoVecs axpyOut ∧
      Safety.StepRuns (.stepXpay n) n 0x13 (fun _ => vecDur) twoVecs xpayOut ∧
      Safety.StepRuns (.stepDot n) n 0x14 (fun _ => dotDur) twoVecs dotOut ∧
      Safety.StepRuns (.stepScal n) n 0x15 (fun _ => scalDur) noSpans scalOut ∧
      (∀ l, Safety.StepRuns (.stepExch n l) n 0x16 exchDur exchSpans (exchOut l)) ∧
      Safety.StepRuns (.stepCopy n) n 0x17 (fun _ => vecDur) copySpans copyOut ∧
      (∀ l, Safety.StepRuns (.stepGivens n l) n 0x18 (fun _ => givensDur) (givensSpans l) (givensOut l)) ∧
      (∀ h, Safety.StepRuns (.stepHsolve n h) n 0x19 (fun _ => hsolveDur) (hsolveSpans h) (hsolveOut h)) ∧
      Safety.StepRuns (.stepLoop n) n 0x20 (fun _ => oneCycle) noSpans loopOut ∧
      Safety.StepRuns (.stepTest n) n 0x21 (fun _ => oneCycle) noSpans testOut ∧
      Safety.StepRuns (.stepEndloop n) n 0x22 (fun _ => oneCycle) noSpans endloopOut ∧
      Safety.StepRuns (.stepEnd n) n 0x3F (fun _ => oneCycle) noSpans endOut ∧
      (∀ s x, stepAt s.pkg n 0x14 = some x → x.job.sparse.waitSum = true →
        let due := x.job.ends + wwcCycles s.pkg x.job.sparse.group
        (∀ v, due ≤ jobCycle s.pkg s.clk x.job → x.job.sum = some v →
          exec (.stepDot n) s = .next (Safety.withPkg s (modJob s.pkg n (dotSum x v (max due x.job.late))))) ∧
        (jobCycle s.pkg s.clk x.job < due → exec (.stepDot n) s = .next s))) ∧
   (∀ x : StepCx,
      (x.ar.mode = 0 → ∀ i < min (x.elems x.s.v0).length (x.elems x.s.v1).length,
        let a := (x.elems x.s.v0).getD i 0#64
        let b := (x.elems x.s.v1).getD i 0#64
        let at_ := x.at_ (x.vec x.s.v1).addr + x.r.eb * i
        let lands (o : StepOut) (v : W64) : Prop := ({ addr := 8 * at_, w := 8 * x.r.eb, v := v.toNat % 2 ^ (8 * x.r.eb) } : BitW) ∈ o.ws
        (x.s.fn = 0 → lands (axpyOut x) (x.ar.fma 0 (x.slot x.s.sa) a b).1) ∧ (x.s.fn = 1 → lands (axpyOut x) (x.ar.nma 0 (x.slot x.s.sa) a b).1) ∧
        lands (xpayOut x) (x.ar.fma 0 (x.slot x.s.sa) b a).1 ∧ (x.s.fn = 0 → lands (copyOut x) a) ∧
        (x.s.fn = 1 → lands (copyOut x) (x.slot x.s.sa))) ∧
      (x.s.arg0 % 65536 = 0xFFFF → sget (dotOut x).sp.slots x.s.sa 0#64 = (dotLocal x).1 ∧ (dotOut x).sp.pc = x.job.sparse.pc + 1) ∧
      (x.s.arg0 % 65536 ≠ 0xFFFF → (dotOut x).sp.waitSum = true ∧ (dotOut x).sp.loc = (dotLocal x).1 ∧ (dotOut x).sp.pc = x.job.sparse.pc) ∧
      (x.ar.mode = 0 →
        let a := x.slot x.s.sa
        let b := x.slot x.s.sb
        let c := sget (scalOut x).sp.slots x.s.sc 0#64
        (x.s.fn = 0 → c = (fAdd .b64 x.ar.rm a b).1) ∧ (x.s.fn = 1 → c = (fSub .b64 x.ar.rm a b).1) ∧ (x.s.fn = 2 → c = (fMul .b64 x.ar.rm a b).1) ∧
        (x.s.fn = 3 → c = (fDiv .b64 x.ar.rm a b).1) ∧ (x.s.fn = 4 → c = (fSqrt .b64 x.ar.rm a).1) ∧ (x.s.fn = 5 → c = a) ∧
        ∀ j, j ≠ x.s.sc → sget (scalOut x).sp.slots j 0#64 = x.slot j) ∧
      (memWf x.mem = true →
        let h := x.at_ x.r.fact
        let m := applyWs x.mem (commitOut x).ws
        mnat m h 8 = (mnat x.mem h 8 + 1) % 2 ^ 64 ∧ (mget m (h + 8)).toNat % 2 = 1 - (mget x.mem (h + 8)).toNat % 2 ∧
          ∀ a, (a < h ∨ h + 9 ≤ a) → mget m a = mget x.mem a) ∧
      (0 < x.s.arg0 % 2 ^ 32 → ∃ l, (loopOut x).sp.loops = l :: x.job.sparse.loops ∧ l.iter = 0 ∧ l.limit = x.s.arg0 % 2 ^ 32 ∧
        l.span = x.s.arg1 % 2 ^ 32 ∧ l.at_ = x.job.sparse.pc ∧ l.met = false ∧ (loopOut x).sp.pc = x.job.sparse.pc + 1) ∧
      (x.s.arg0 % 2 ^ 32 = 0 → (loopOut x).sp.loops = x.job.sparse.loops) ∧
      (∀ l r, x.job.sparse.loops = l :: r →
        (l.met = false → l.iter + 1 < l.limit → (endloopOut x).sp.pc = l.at_ + 1 ∧ (endloopOut x).sp.loops.map (fun e => e.iter) =
          (l.iter + 1) :: r.map (fun e => e.iter)) ∧
        ((l.met = true ∨ l.limit ≤ l.iter + 1) → (endloopOut x).sp.pc = x.job.sparse.pc + 1 ∧ (endloopOut x).sp.loops = r) ∧
        ∃ l', (testOut x).sp.loops = l' :: r ∧ l'.met = testMet x ∧ (testOut x).sp.pc = x.job.sparse.pc + 1) ∧
      (endOut x).sp.ended = true)
end

