-- ==== Sys2Proof/Laws/Maps.lean ====
section
/-! SUPPORT. Laws of sparse maps and of memory: a read after a write, and the canonical form. -/

namespace Sys2Proof.Machine

@[simp] theorem sget_nil {α : Type} (k : Nat) (d : α) : sget ([] : SMap α) k d = d := rfl

@[simp] theorem sget_sset_self {α : Type} (m : SMap α) (k : Nat) (v d : α) : sget (sset m k v) k d = v := by
  induction m with
  | nil => simp [sset, sget]
  | cons e r ih =>
    obtain ⟨a, w⟩ := e
    simp only [sset]
    split
    · simp [sget]
    · split
      · simp [sget]
      · rename_i h1 h2
        simp [sget, ih, Ne.symm h2]

theorem sget_sset_ne {α : Type} (m : SMap α) {j k : Nat} (v d : α) (h : j ≠ k) : sget (sset m k v) j d = sget m j d := by
  induction m with
  | nil => simp [sset, sget, Ne.symm h]
  | cons e r ih =>
    obtain ⟨a, w⟩ := e
    simp only [sset]
    split
    · simp [sget, Ne.symm h]
    · split
      · rename_i h1 h2
        subst h2
        simp [sget, Ne.symm h]
      · simp [sget, ih]

/-- A read after a write, at any key. -/
theorem sget_sset {α : Type} (m : SMap α) (j k : Nat) (v d : α) : sget (sset m k v) j d = if j = k then v else sget m j d := by
  split
  · rename_i h; subst h; simp
  · rename_i h; exact sget_sset_ne m v d h

theorem sget_of_lt {m : Mem} {a : Nat} (d : Byte) (h : ∀ e ∈ m, a < e.1) : sget m a d = d := by
  induction m with
  | nil => rfl
  | cons e r ih =>
    obtain ⟨k, w⟩ := e
    have h1 := h (k, w) (by simp)
    simp only [sget]
    rw [if_neg (by omega)]
    exact ih (fun e he => h e (by simp [he]))

/-! The canonical form -/

/-- The canonical form in terms of the tail. -/
theorem memWf_cons {a : Nat} {v : Byte} {m : Mem} :
    memWf ((a, v) :: m) = true ↔ v ≠ emptyByte ∧ memWf m = true ∧ ∀ e ∈ m, a < e.1 := by
  induction m generalizing a v with
  | nil => simp [memWf]
  | cons e r ih =>
    obtain ⟨b, w⟩ := e
    simp only [memWf, Bool.and_eq_true, decide_eq_true_eq, bne_iff_ne]
    constructor
    · rintro ⟨hv, hab, hm⟩
      refine ⟨hv, hm, ?_⟩
      obtain ⟨_, _, hr⟩ := ih.mp hm
      intro e he
      rcases List.mem_cons.mp he with rfl | he
      · exact hab
      · exact Nat.lt_trans hab (hr e he)
    · rintro ⟨hv, hm, hr⟩
      exact ⟨hv, hr (b, w) (by simp), hm⟩

@[simp] theorem memWf_nil : memWf [] = true := rfl

theorem mset_lower {m : Mem} {a b : Nat} {v : Byte} (h : ∀ e ∈ m, b < e.1) (hb : b < a) : ∀ e ∈ mset m a v, b < e.1 := by
  induction m with
  | nil =>
    intro e he
    simp only [mset] at he
    split at he
    · simp at he
    · simp at he; subst he; exact hb
  | cons x r ih =>
    obtain ⟨k, w⟩ := x
    have hk := h (k, w) (by simp)
    have hr : ∀ e ∈ r, b < e.1 := fun e he => h e (by simp [he])
    intro e he
    simp only [mset] at he
    split at he
    · split at he
      · rcases List.mem_cons.mp he with rfl | he
        · exact hk
        · exact hr e he
      · rcases List.mem_cons.mp he with rfl | he
        · exact hb
        · rcases List.mem_cons.mp he with rfl | he
          · exact hk
          · exact hr e he
    · split at he
      · split at he
        · exact hr e he
        · rcases List.mem_cons.mp he with rfl | he
          · exact hb
          · exact hr e he
      · rcases List.mem_cons.mp he with rfl | he
        · exact hk
        · exact ih hr e he

/-- Writing a byte keeps the canonical form. -/
theorem memWf_mset {m : Mem} (a : Nat) (v : Byte) (h : memWf m = true) : memWf (mset m a v) = true := by
  induction m with
  | nil =>
    simp only [mset]
    split
    · rfl
    · simpa [memWf] using ‹¬v = emptyByte›
  | cons x r ih =>
    obtain ⟨k, w⟩ := x
    obtain ⟨hw, hr, hlt⟩ := memWf_cons.mp h
    simp only [mset]
    split
    · split
      · exact h
      · refine memWf_cons.mpr ⟨‹_›, h, ?_⟩
        intro e he
        rcases List.mem_cons.mp he with rfl | he
        · assumption
        · exact Nat.lt_trans ‹_› (hlt e he)
    · split
      · rename_i h1 h2
        subst h2
        split
        · exact hr
        · exact memWf_cons.mpr ⟨‹_›, hr, hlt⟩
      · exact memWf_cons.mpr ⟨hw, ih hr, mset_lower hlt (by omega)⟩

/-- Writing bytes keeps the canonical form. -/
theorem memWf_mwrite (bs : List Byte) : ∀ (m : Mem) (a : Nat), memWf m = true → memWf (mwrite m a bs) = true := by
  induction bs with
  | nil => intro m a h; exact h
  | cons b r ih => intro m a h; exact ih _ _ (memWf_mset a b h)

/-- Dropping entries keeps the canonical form. -/
theorem memWf_filter {m : Mem} (f : Nat × Byte → Bool) (h : memWf m = true) : memWf (m.filter f) = true := by
  induction m with
  | nil => rfl
  | cons x r ih =>
    obtain ⟨k, w⟩ := x
    obtain ⟨hw, hr, hlt⟩ := memWf_cons.mp h
    simp only [List.filter]
    split
    · exact memWf_cons.mpr ⟨hw, ih hr, fun e he => hlt e (List.mem_filter.mp he).1⟩
    · exact ih hr

theorem memWf_mclear {m : Mem} (f : Nat → Bool) (h : memWf m = true) : memWf (mclear m f) = true := memWf_filter _ h

/-! Reads after writes -/

theorem mget_mset_self {m : Mem} (a : Nat) (v : Byte) (h : memWf m = true) : mget (mset m a v) a = v := by
  unfold mget
  induction m with
  | nil =>
    simp only [mset]
    split
    · rename_i hv; simp [sget, hv]
    · simp [sget]
  | cons x r ih =>
    obtain ⟨k, w⟩ := x
    obtain ⟨hw, hr, hlt⟩ := memWf_cons.mp h
    simp only [mset]
    split
    · rename_i hak
      split
      · rename_i hv
        rw [hv]
        apply sget_of_lt
        intro e he
        rcases List.mem_cons.mp he with rfl | he
        · exact hak
        · exact Nat.lt_trans hak (hlt e he)
      · simp [sget]
    · split
      · rename_i h1 h2
        subst h2
        split
        · rename_i hv; rw [hv]; exact sget_of_lt _ hlt
        · simp [sget]
      · rename_i h1 h2
        simp only [sget]
        rw [if_neg (by omega)]
        exact ih hr

theorem mget_mset_ne {m : Mem} {a b : Nat} (v : Byte) (hab : b ≠ a) : mget (mset m a v) b = mget m b := by
  unfold mget
  induction m with
  | nil =>
    simp only [mset]
    split
    · rfl
    · simp [sget, Ne.symm hab]
  | cons x r ih =>
    obtain ⟨k, w⟩ := x
    simp only [mset]
    split
    · split
      · rfl
      · simp [sget, Ne.symm hab]
    · split
      · rename_i h1 h2
        subst h2
        split
        · simp [sget, Ne.symm hab]
        · simp [sget, Ne.symm hab]
      · simp only [sget, ih]

/-- Bytes outside what is written stay. -/
theorem mget_mwrite_outside (bs : List Byte) : ∀ (m : Mem) (a b : Nat), (b < a ∨ a + bs.length ≤ b) →
    mget (mwrite m a bs) b = mget m b := by
  induction bs with
  | nil => intro m a b _; rfl
  | cons x r ih =>
    intro m a b h
    simp only [List.length_cons] at h
    simp only [mwrite]
    rw [ih _ _ _ (by omega), mget_mset_ne _ (by omega)]

/-- Byte i of what is written. -/
theorem mget_mwrite_inside (bs : List Byte) : ∀ (m : Mem) (a i : Nat), memWf m = true → (h : i < bs.length) →
    mget (mwrite m a bs) (a + i) = bs[i] := by
  induction bs with
  | nil => intro m a i _ h; simp at h
  | cons x r ih =>
    intro m a i hm h
    simp only [mwrite]
    cases i with
    | zero => simp only [Nat.add_zero]; rw [mget_mwrite_outside _ _ _ _ (by omega), mget_mset_self _ _ hm]; rfl
    | succ j =>
      have := ih (mset m a x) (a + 1) j (memWf_mset a x hm) (by simpa using h)
      rw [show a + (j + 1) = a + 1 + j by omega, this]
      simp

/-- What was written is read back. -/
theorem mread_mwrite (bs : List Byte) (m : Mem) (a : Nat) (hm : memWf m = true) : mread (mwrite m a bs) a bs.length = bs := by
  apply List.ext_getElem
  · simp [mread]
  · intro i h1 h2
    simp only [mread, List.getElem_map, List.getElem_range]
    exact mget_mwrite_inside bs m a i hm h2

end Sys2Proof.Machine
end

