-- ==== Sys2Proof/Laws/State.lean ====
section
/-! SUPPORT. What the named updates of State change: one lemma per field and update. -/

namespace Sys2Proof.Machine

variable (s : State) (p : Pkg)

@[simp] theorem run_eq (f : Clock → Pkg → Pkg) : run s f = .next { s with pkg := f s.clk s.pkg } := rfl

/-! `rset` changes `regs` -/

@[simp] theorem rset_cfg (o v : Nat) : (rset p o v).cfg = p.cfg := rfl
@[simp] theorem rset_fv (o v : Nat) : (rset p o v).fv = p.fv := rfl
@[simp] theorem rset_since (o v : Nat) : (rset p o v).since = p.since := rfl
@[simp] theorem rset_mem (o v : Nat) : (rset p o v).mem = p.mem := rfl
@[simp] theorem rset_fresh (o v : Nat) : (rset p o v).fresh = p.fresh := rfl
@[simp] theorem rset_host (o v : Nat) : (rset p o v).host = p.host := rfl
@[simp] theorem rset_badLines (o v : Nat) : (rset p o v).badLines = p.badLines := rfl
@[simp] theorem rset_ceLines (o v : Nat) : (rset p o v).ceLines = p.ceLines := rfl
@[simp] theorem rset_ceOwed (o v : Nat) : (rset p o v).ceOwed = p.ceOwed := rfl
@[simp] theorem rset_ceCount (o v : Nat) : (rset p o v).ceCount = p.ceCount := rfl
@[simp] theorem rset_cqUsed (o v : Nat) : (rset p o v).cqUsed = p.cqUsed := rfl
@[simp] theorem rset_turns (o v : Nat) : (rset p o v).turns = p.turns := rfl
@[simp] theorem rset_latch (o v : Nat) : (rset p o v).latch = p.latch := rfl
@[simp] theorem rset_punits (o v : Nat) : (rset p o v).punits = p.punits := rfl
@[simp] theorem rset_tiles (o v : Nat) : (rset p o v).tiles = p.tiles := rfl
@[simp] theorem rset_queues (o v : Nat) : (rset p o v).queues = p.queues := rfl
@[simp] theorem rset_buckets (o v : Nat) : (rset p o v).buckets = p.buckets := rfl
@[simp] theorem rset_passed (o v : Nat) : (rset p o v).passed = p.passed := rfl
@[simp] theorem rset_gates (o v : Nat) : (rset p o v).gates = p.gates := rfl
@[simp] theorem rset_nextGate (o v : Nat) : (rset p o v).nextGate = p.nextGate := rfl
@[simp] theorem rset_wc (o v : Nat) : (rset p o v).wc = p.wc := rfl
@[simp] theorem rset_ctxs (o v : Nat) : (rset p o v).ctxs = p.ctxs := rfl
@[simp] theorem rset_outs (o v : Nat) : (rset p o v).outs = p.outs := rfl
@[simp] theorem rset_resps (o v : Nat) : (rset p o v).resps = p.resps := rfl
@[simp] theorem rset_answers (o v : Nat) : (rset p o v).answers = p.answers := rfl
@[simp] theorem rset_wire (o v : Nat) : (rset p o v).wire = p.wire := rfl
@[simp] theorem rset_ports (o v : Nat) : (rset p o v).ports = p.ports := rfl
@[simp] theorem rset_plans (o v : Nat) : (rset p o v).plans = p.plans := rfl
@[simp] theorem rset_ops (o v : Nat) : (rset p o v).ops = p.ops := rfl
@[simp] theorem rset_nextOp (o v : Nat) : (rset p o v).nextOp = p.nextOp := rfl
@[simp] theorem rset_launches (o v : Nat) : (rset p o v).launches = p.launches := rfl
@[simp] theorem rset_ledger (o v : Nat) : (rset p o v).ledger = p.ledger := rfl
@[simp] theorem rset_placed (o v : Nat) : (rset p o v).placed = p.placed := rfl
@[simp] theorem rset_nextPlaced (o v : Nat) : (rset p o v).nextPlaced = p.nextPlaced := rfl
@[simp] theorem rset_cores (o v : Nat) : (rset p o v).cores = p.cores := rfl
@[simp] theorem rset_excs (o v : Nat) : (rset p o v).excs = p.excs := rfl
@[simp] theorem rset_jobs (o v : Nat) : (rset p o v).jobs = p.jobs := rfl
@[simp] theorem rset_nextJob (o v : Nat) : (rset p o v).nextJob = p.nextJob := rfl
@[simp] theorem rset_store (o v : Nat) : (rset p o v).store = p.store := rfl
@[simp] theorem rset_pins (o v : Nat) : (rset p o v).pins = p.pins := rfl
@[simp] theorem rset_xfer (o v : Nat) : (rset p o v).xfer = p.xfer := rfl
@[simp] theorem rset_ctxReset (o v : Nat) : (rset p o v).ctxReset = p.ctxReset := rfl
@[simp] theorem rset_regTick (o v : Nat) : (rset p o v).regTick = p.regTick := rfl
@[simp] theorem rset_patrol (o v : Nat) : (rset p o v).patrol = p.patrol := rfl
@[simp] theorem rset_ceSeen (o v : Nat) : (rset p o v).ceSeen = p.ceSeen := rfl
@[simp] theorem rset_swops (o v : Nat) : (rset p o v).swops = p.swops := rfl
@[simp] theorem rset_nextSw (o v : Nat) : (rset p o v).nextSw = p.nextSw := rfl
@[simp] theorem rset_swIn (o v : Nat) : (rset p o v).swIn = p.swIn := rfl
@[simp] theorem rset_wg (o v : Nat) : (rset p o v).wg = p.wg := rfl
@[simp] theorem rset_rswitch (o v : Nat) : (rset p o v).rswitch = p.rswitch := rfl
@[simp] theorem rset_handoffs (o v : Nat) : (rset p o v).handoffs = p.handoffs := rfl
@[simp] theorem rset_hostOut (o v : Nat) : (rset p o v).hostOut = p.hostOut := rfl
@[simp] theorem rset_fwd (o v : Nat) : (rset p o v).fwd = p.fwd := rfl
@[simp] theorem rset_combOut (o v : Nat) : (rset p o v).combOut = p.combOut := rfl
@[simp] theorem rset_mgmt (o v : Nat) : (rset p o v).mgmt = p.mgmt := rfl
@[simp] theorem rset_lasers (o v : Nat) : (rset p o v).lasers = p.lasers := rfl
@[simp] theorem rset_repairs (o v : Nat) : (rset p o v).repairs = p.repairs := rfl
@[simp] theorem rset_active (o v : Nat) : (rset p o v).active = p.active := rfl
@[simp] theorem rset_protos (o v : Nat) : (rset p o v).protos = p.protos := rfl
@[simp] theorem rset_den (o v : Nat) : (rset p o v).den = p.den := rfl
@[simp] theorem rset_time (o v : Nat) : (rset p o v).time = p.time := rfl
@[simp] theorem rset_health (o v : Nat) : (rset p o v).health = p.health := rfl

/-! `rsetf` changes `regs` -/

@[simp] theorem rsetf_cfg (o hi lo v : Nat) : (rsetf p o hi lo v).cfg = p.cfg := rfl
@[simp] theorem rsetf_fv (o hi lo v : Nat) : (rsetf p o hi lo v).fv = p.fv := rfl
@[simp] theorem rsetf_since (o hi lo v : Nat) : (rsetf p o hi lo v).since = p.since := rfl
@[simp] theorem rsetf_mem (o hi lo v : Nat) : (rsetf p o hi lo v).mem = p.mem := rfl
@[simp] theorem rsetf_fresh (o hi lo v : Nat) : (rsetf p o hi lo v).fresh = p.fresh := rfl
@[simp] theorem rsetf_host (o hi lo v : Nat) : (rsetf p o hi lo v).host = p.host := rfl
@[simp] theorem rsetf_badLines (o hi lo v : Nat) : (rsetf p o hi lo v).badLines = p.badLines := rfl
@[simp] theorem rsetf_ceLines (o hi lo v : Nat) : (rsetf p o hi lo v).ceLines = p.ceLines := rfl
@[simp] theorem rsetf_ceOwed (o hi lo v : Nat) : (rsetf p o hi lo v).ceOwed = p.ceOwed := rfl
@[simp] theorem rsetf_ceCount (o hi lo v : Nat) : (rsetf p o hi lo v).ceCount = p.ceCount := rfl
@[simp] theorem rsetf_cqUsed (o hi lo v : Nat) : (rsetf p o hi lo v).cqUsed = p.cqUsed := rfl
@[simp] theorem rsetf_turns (o hi lo v : Nat) : (rsetf p o hi lo v).turns = p.turns := rfl
@[simp] theorem rsetf_latch (o hi lo v : Nat) : (rsetf p o hi lo v).latch = p.latch := rfl
@[simp] theorem rsetf_punits (o hi lo v : Nat) : (rsetf p o hi lo v).punits = p.punits := rfl
@[simp] theorem rsetf_tiles (o hi lo v : Nat) : (rsetf p o hi lo v).tiles = p.tiles := rfl
@[simp] theorem rsetf_queues (o hi lo v : Nat) : (rsetf p o hi lo v).queues = p.queues := rfl
@[simp] theorem rsetf_buckets (o hi lo v : Nat) : (rsetf p o hi lo v).buckets = p.buckets := rfl
@[simp] theorem rsetf_passed (o hi lo v : Nat) : (rsetf p o hi lo v).passed = p.passed := rfl
@[simp] theorem rsetf_gates (o hi lo v : Nat) : (rsetf p o hi lo v).gates = p.gates := rfl
@[simp] theorem rsetf_nextGate (o hi lo v : Nat) : (rsetf p o hi lo v).nextGate = p.nextGate := rfl
@[simp] theorem rsetf_wc (o hi lo v : Nat) : (rsetf p o hi lo v).wc = p.wc := rfl
@[simp] theorem rsetf_ctxs (o hi lo v : Nat) : (rsetf p o hi lo v).ctxs = p.ctxs := rfl
@[simp] theorem rsetf_outs (o hi lo v : Nat) : (rsetf p o hi lo v).outs = p.outs := rfl
@[simp] theorem rsetf_resps (o hi lo v : Nat) : (rsetf p o hi lo v).resps = p.resps := rfl
@[simp] theorem rsetf_answers (o hi lo v : Nat) : (rsetf p o hi lo v).answers = p.answers := rfl
@[simp] theorem rsetf_wire (o hi lo v : Nat) : (rsetf p o hi lo v).wire = p.wire := rfl
@[simp] theorem rsetf_ports (o hi lo v : Nat) : (rsetf p o hi lo v).ports = p.ports := rfl
@[simp] theorem rsetf_plans (o hi lo v : Nat) : (rsetf p o hi lo v).plans = p.plans := rfl
@[simp] theorem rsetf_ops (o hi lo v : Nat) : (rsetf p o hi lo v).ops = p.ops := rfl
@[simp] theorem rsetf_nextOp (o hi lo v : Nat) : (rsetf p o hi lo v).nextOp = p.nextOp := rfl
@[simp] theorem rsetf_launches (o hi lo v : Nat) : (rsetf p o hi lo v).launches = p.launches := rfl
@[simp] theorem rsetf_ledger (o hi lo v : Nat) : (rsetf p o hi lo v).ledger = p.ledger := rfl
@[simp] theorem rsetf_placed (o hi lo v : Nat) : (rsetf p o hi lo v).placed = p.placed := rfl
@[simp] theorem rsetf_nextPlaced (o hi lo v : Nat) : (rsetf p o hi lo v).nextPlaced = p.nextPlaced := rfl
@[simp] theorem rsetf_cores (o hi lo v : Nat) : (rsetf p o hi lo v).cores = p.cores := rfl
@[simp] theorem rsetf_excs (o hi lo v : Nat) : (rsetf p o hi lo v).excs = p.excs := rfl
@[simp] theorem rsetf_jobs (o hi lo v : Nat) : (rsetf p o hi lo v).jobs = p.jobs := rfl
@[simp] theorem rsetf_nextJob (o hi lo v : Nat) : (rsetf p o hi lo v).nextJob = p.nextJob := rfl
@[simp] theorem rsetf_store (o hi lo v : Nat) : (rsetf p o hi lo v).store = p.store := rfl
@[simp] theorem rsetf_pins (o hi lo v : Nat) : (rsetf p o hi lo v).pins = p.pins := rfl
@[simp] theorem rsetf_xfer (o hi lo v : Nat) : (rsetf p o hi lo v).xfer = p.xfer := rfl
@[simp] theorem rsetf_ctxReset (o hi lo v : Nat) : (rsetf p o hi lo v).ctxReset = p.ctxReset := rfl
@[simp] theorem rsetf_regTick (o hi lo v : Nat) : (rsetf p o hi lo v).regTick = p.regTick := rfl
@[simp] theorem rsetf_patrol (o hi lo v : Nat) : (rsetf p o hi lo v).patrol = p.patrol := rfl
@[simp] theorem rsetf_ceSeen (o hi lo v : Nat) : (rsetf p o hi lo v).ceSeen = p.ceSeen := rfl
@[simp] theorem rsetf_swops (o hi lo v : Nat) : (rsetf p o hi lo v).swops = p.swops := rfl
@[simp] theorem rsetf_nextSw (o hi lo v : Nat) : (rsetf p o hi lo v).nextSw = p.nextSw := rfl
@[simp] theorem rsetf_swIn (o hi lo v : Nat) : (rsetf p o hi lo v).swIn = p.swIn := rfl
@[simp] theorem rsetf_wg (o hi lo v : Nat) : (rsetf p o hi lo v).wg = p.wg := rfl
@[simp] theorem rsetf_rswitch (o hi lo v : Nat) : (rsetf p o hi lo v).rswitch = p.rswitch := rfl
@[simp] theorem rsetf_handoffs (o hi lo v : Nat) : (rsetf p o hi lo v).handoffs = p.handoffs := rfl
@[simp] theorem rsetf_hostOut (o hi lo v : Nat) : (rsetf p o hi lo v).hostOut = p.hostOut := rfl
@[simp] theorem rsetf_fwd (o hi lo v : Nat) : (rsetf p o hi lo v).fwd = p.fwd := rfl
@[simp] theorem rsetf_combOut (o hi lo v : Nat) : (rsetf p o hi lo v).combOut = p.combOut := rfl
@[simp] theorem rsetf_mgmt (o hi lo v : Nat) : (rsetf p o hi lo v).mgmt = p.mgmt := rfl
@[simp] theorem rsetf_lasers (o hi lo v : Nat) : (rsetf p o hi lo v).lasers = p.lasers := rfl
@[simp] theorem rsetf_repairs (o hi lo v : Nat) : (rsetf p o hi lo v).repairs = p.repairs := rfl
@[simp] theorem rsetf_active (o hi lo v : Nat) : (rsetf p o hi lo v).active = p.active := rfl
@[simp] theorem rsetf_protos (o hi lo v : Nat) : (rsetf p o hi lo v).protos = p.protos := rfl
@[simp] theorem rsetf_den (o hi lo v : Nat) : (rsetf p o hi lo v).den = p.den := rfl
@[simp] theorem rsetf_time (o hi lo v : Nat) : (rsetf p o hi lo v).time = p.time := rfl
@[simp] theorem rsetf_health (o hi lo v : Nat) : (rsetf p o hi lo v).health = p.health := rfl

/-! `rsetb` changes `regs` -/

@[simp] theorem rsetb_cfg (o i : Nat) (b : Bool) : (rsetb p o i b).cfg = p.cfg := rfl
@[simp] theorem rsetb_fv (o i : Nat) (b : Bool) : (rsetb p o i b).fv = p.fv := rfl
@[simp] theorem rsetb_since (o i : Nat) (b : Bool) : (rsetb p o i b).since = p.since := rfl
@[simp] theorem rsetb_mem (o i : Nat) (b : Bool) : (rsetb p o i b).mem = p.mem := rfl
@[simp] theorem rsetb_fresh (o i : Nat) (b : Bool) : (rsetb p o i b).fresh = p.fresh := rfl
@[simp] theorem rsetb_host (o i : Nat) (b : Bool) : (rsetb p o i b).host = p.host := rfl
@[simp] theorem rsetb_badLines (o i : Nat) (b : Bool) : (rsetb p o i b).badLines = p.badLines := rfl
@[simp] theorem rsetb_ceLines (o i : Nat) (b : Bool) : (rsetb p o i b).ceLines = p.ceLines := rfl
@[simp] theorem rsetb_ceOwed (o i : Nat) (b : Bool) : (rsetb p o i b).ceOwed = p.ceOwed := rfl
@[simp] theorem rsetb_ceCount (o i : Nat) (b : Bool) : (rsetb p o i b).ceCount = p.ceCount := rfl
@[simp] theorem rsetb_cqUsed (o i : Nat) (b : Bool) : (rsetb p o i b).cqUsed = p.cqUsed := rfl
@[simp] theorem rsetb_turns (o i : Nat) (b : Bool) : (rsetb p o i b).turns = p.turns := rfl
@[simp] theorem rsetb_latch (o i : Nat) (b : Bool) : (rsetb p o i b).latch = p.latch := rfl
@[simp] theorem rsetb_punits (o i : Nat) (b : Bool) : (rsetb p o i b).punits = p.punits := rfl
@[simp] theorem rsetb_tiles (o i : Nat) (b : Bool) : (rsetb p o i b).tiles = p.tiles := rfl
@[simp] theorem rsetb_queues (o i : Nat) (b : Bool) : (rsetb p o i b).queues = p.queues := rfl
@[simp] theorem rsetb_buckets (o i : Nat) (b : Bool) : (rsetb p o i b).buckets = p.buckets := rfl
@[simp] theorem rsetb_passed (o i : Nat) (b : Bool) : (rsetb p o i b).passed = p.passed := rfl
@[simp] theorem rsetb_gates (o i : Nat) (b : Bool) : (rsetb p o i b).gates = p.gates := rfl
@[simp] theorem rsetb_nextGate (o i : Nat) (b : Bool) : (rsetb p o i b).nextGate = p.nextGate := rfl
@[simp] theorem rsetb_wc (o i : Nat) (b : Bool) : (rsetb p o i b).wc = p.wc := rfl
@[simp] theorem rsetb_ctxs (o i : Nat) (b : Bool) : (rsetb p o i b).ctxs = p.ctxs := rfl
@[simp] theorem rsetb_outs (o i : Nat) (b : Bool) : (rsetb p o i b).outs = p.outs := rfl
@[simp] theorem rsetb_resps (o i : Nat) (b : Bool) : (rsetb p o i b).resps = p.resps := rfl
@[simp] theorem rsetb_answers (o i : Nat) (b : Bool) : (rsetb p o i b).answers = p.answers := rfl
@[simp] theorem rsetb_wire (o i : Nat) (b : Bool) : (rsetb p o i b).wire = p.wire := rfl
@[simp] theorem rsetb_ports (o i : Nat) (b : Bool) : (rsetb p o i b).ports = p.ports := rfl
@[simp] theorem rsetb_plans (o i : Nat) (b : Bool) : (rsetb p o i b).plans = p.plans := rfl
@[simp] theorem rsetb_ops (o i : Nat) (b : Bool) : (rsetb p o i b).ops = p.ops := rfl
@[simp] theorem rsetb_nextOp (o i : Nat) (b : Bool) : (rsetb p o i b).nextOp = p.nextOp := rfl
@[simp] theorem rsetb_launches (o i : Nat) (b : Bool) : (rsetb p o i b).launches = p.launches := rfl
@[simp] theorem rsetb_ledger (o i : Nat) (b : Bool) : (rsetb p o i b).ledger = p.ledger := rfl
@[simp] theorem rsetb_placed (o i : Nat) (b : Bool) : (rsetb p o i b).placed = p.placed := rfl
@[simp] theorem rsetb_nextPlaced (o i : Nat) (b : Bool) : (rsetb p o i b).nextPlaced = p.nextPlaced := rfl
@[simp] theorem rsetb_cores (o i : Nat) (b : Bool) : (rsetb p o i b).cores = p.cores := rfl
@[simp] theorem rsetb_excs (o i : Nat) (b : Bool) : (rsetb p o i b).excs = p.excs := rfl
@[simp] theorem rsetb_jobs (o i : Nat) (b : Bool) : (rsetb p o i b).jobs = p.jobs := rfl
@[simp] theorem rsetb_nextJob (o i : Nat) (b : Bool) : (rsetb p o i b).nextJob = p.nextJob := rfl
@[simp] theorem rsetb_store (o i : Nat) (b : Bool) : (rsetb p o i b).store = p.store := rfl
@[simp] theorem rsetb_pins (o i : Nat) (b : Bool) : (rsetb p o i b).pins = p.pins := rfl
@[simp] theorem rsetb_xfer (o i : Nat) (b : Bool) : (rsetb p o i b).xfer = p.xfer := rfl
@[simp] theorem rsetb_ctxReset (o i : Nat) (b : Bool) : (rsetb p o i b).ctxReset = p.ctxReset := rfl
@[simp] theorem rsetb_regTick (o i : Nat) (b : Bool) : (rsetb p o i b).regTick = p.regTick := rfl
@[simp] theorem rsetb_patrol (o i : Nat) (b : Bool) : (rsetb p o i b).patrol = p.patrol := rfl
@[simp] theorem rsetb_ceSeen (o i : Nat) (b : Bool) : (rsetb p o i b).ceSeen = p.ceSeen := rfl
@[simp] theorem rsetb_swops (o i : Nat) (b : Bool) : (rsetb p o i b).swops = p.swops := rfl
@[simp] theorem rsetb_nextSw (o i : Nat) (b : Bool) : (rsetb p o i b).nextSw = p.nextSw := rfl
@[simp] theorem rsetb_swIn (o i : Nat) (b : Bool) : (rsetb p o i b).swIn = p.swIn := rfl
@[simp] theorem rsetb_wg (o i : Nat) (b : Bool) : (rsetb p o i b).wg = p.wg := rfl
@[simp] theorem rsetb_rswitch (o i : Nat) (b : Bool) : (rsetb p o i b).rswitch = p.rswitch := rfl
@[simp] theorem rsetb_handoffs (o i : Nat) (b : Bool) : (rsetb p o i b).handoffs = p.handoffs := rfl
@[simp] theorem rsetb_hostOut (o i : Nat) (b : Bool) : (rsetb p o i b).hostOut = p.hostOut := rfl
@[simp] theorem rsetb_fwd (o i : Nat) (b : Bool) : (rsetb p o i b).fwd = p.fwd := rfl
@[simp] theorem rsetb_combOut (o i : Nat) (b : Bool) : (rsetb p o i b).combOut = p.combOut := rfl
@[simp] theorem rsetb_mgmt (o i : Nat) (b : Bool) : (rsetb p o i b).mgmt = p.mgmt := rfl
@[simp] theorem rsetb_lasers (o i : Nat) (b : Bool) : (rsetb p o i b).lasers = p.lasers := rfl
@[simp] theorem rsetb_repairs (o i : Nat) (b : Bool) : (rsetb p o i b).repairs = p.repairs := rfl
@[simp] theorem rsetb_active (o i : Nat) (b : Bool) : (rsetb p o i b).active = p.active := rfl
@[simp] theorem rsetb_protos (o i : Nat) (b : Bool) : (rsetb p o i b).protos = p.protos := rfl
@[simp] theorem rsetb_den (o i : Nat) (b : Bool) : (rsetb p o i b).den = p.den := rfl
@[simp] theorem rsetb_time (o i : Nat) (b : Bool) : (rsetb p o i b).time = p.time := rfl
@[simp] theorem rsetb_health (o i : Nat) (b : Bool) : (rsetb p o i b).health = p.health := rfl

/-! `bump` changes `regs` -/

@[simp] theorem bump_cfg (o : Nat) : (bump p o).cfg = p.cfg := rfl
@[simp] theorem bump_fv (o : Nat) : (bump p o).fv = p.fv := rfl
@[simp] theorem bump_since (o : Nat) : (bump p o).since = p.since := rfl
@[simp] theorem bump_mem (o : Nat) : (bump p o).mem = p.mem := rfl
@[simp] theorem bump_fresh (o : Nat) : (bump p o).fresh = p.fresh := rfl
@[simp] theorem bump_host (o : Nat) : (bump p o).host = p.host := rfl
@[simp] theorem bump_badLines (o : Nat) : (bump p o).badLines = p.badLines := rfl
@[simp] theorem bump_ceLines (o : Nat) : (bump p o).ceLines = p.ceLines := rfl
@[simp] theorem bump_ceOwed (o : Nat) : (bump p o).ceOwed = p.ceOwed := rfl
@[simp] theorem bump_ceCount (o : Nat) : (bump p o).ceCount = p.ceCount := rfl
@[simp] theorem bump_cqUsed (o : Nat) : (bump p o).cqUsed = p.cqUsed := rfl
@[simp] theorem bump_turns (o : Nat) : (bump p o).turns = p.turns := rfl
@[simp] theorem bump_latch (o : Nat) : (bump p o).latch = p.latch := rfl
@[simp] theorem bump_punits (o : Nat) : (bump p o).punits = p.punits := rfl
@[simp] theorem bump_tiles (o : Nat) : (bump p o).tiles = p.tiles := rfl
@[simp] theorem bump_queues (o : Nat) : (bump p o).queues = p.queues := rfl
@[simp] theorem bump_buckets (o : Nat) : (bump p o).buckets = p.buckets := rfl
@[simp] theorem bump_passed (o : Nat) : (bump p o).passed = p.passed := rfl
@[simp] theorem bump_gates (o : Nat) : (bump p o).gates = p.gates := rfl
@[simp] theorem bump_nextGate (o : Nat) : (bump p o).nextGate = p.nextGate := rfl
@[simp] theorem bump_wc (o : Nat) : (bump p o).wc = p.wc := rfl
@[simp] theorem bump_ctxs (o : Nat) : (bump p o).ctxs = p.ctxs := rfl
@[simp] theorem bump_outs (o : Nat) : (bump p o).outs = p.outs := rfl
@[simp] theorem bump_resps (o : Nat) : (bump p o).resps = p.resps := rfl
@[simp] theorem bump_answers (o : Nat) : (bump p o).answers = p.answers := rfl
@[simp] theorem bump_wire (o : Nat) : (bump p o).wire = p.wire := rfl
@[simp] theorem bump_ports (o : Nat) : (bump p o).ports = p.ports := rfl
@[simp] theorem bump_plans (o : Nat) : (bump p o).plans = p.plans := rfl
@[simp] theorem bump_ops (o : Nat) : (bump p o).ops = p.ops := rfl
@[simp] theorem bump_nextOp (o : Nat) : (bump p o).nextOp = p.nextOp := rfl
@[simp] theorem bump_launches (o : Nat) : (bump p o).launches = p.launches := rfl
@[simp] theorem bump_ledger (o : Nat) : (bump p o).ledger = p.ledger := rfl
@[simp] theorem bump_placed (o : Nat) : (bump p o).placed = p.placed := rfl
@[simp] theorem bump_nextPlaced (o : Nat) : (bump p o).nextPlaced = p.nextPlaced := rfl
@[simp] theorem bump_cores (o : Nat) : (bump p o).cores = p.cores := rfl
@[simp] theorem bump_excs (o : Nat) : (bump p o).excs = p.excs := rfl
@[simp] theorem bump_jobs (o : Nat) : (bump p o).jobs = p.jobs := rfl
@[simp] theorem bump_nextJob (o : Nat) : (bump p o).nextJob = p.nextJob := rfl
@[simp] theorem bump_store (o : Nat) : (bump p o).store = p.store := rfl
@[simp] theorem bump_pins (o : Nat) : (bump p o).pins = p.pins := rfl
@[simp] theorem bump_xfer (o : Nat) : (bump p o).xfer = p.xfer := rfl
@[simp] theorem bump_ctxReset (o : Nat) : (bump p o).ctxReset = p.ctxReset := rfl
@[simp] theorem bump_regTick (o : Nat) : (bump p o).regTick = p.regTick := rfl
@[simp] theorem bump_patrol (o : Nat) : (bump p o).patrol = p.patrol := rfl
@[simp] theorem bump_ceSeen (o : Nat) : (bump p o).ceSeen = p.ceSeen := rfl
@[simp] theorem bump_swops (o : Nat) : (bump p o).swops = p.swops := rfl
@[simp] theorem bump_nextSw (o : Nat) : (bump p o).nextSw = p.nextSw := rfl
@[simp] theorem bump_swIn (o : Nat) : (bump p o).swIn = p.swIn := rfl
@[simp] theorem bump_wg (o : Nat) : (bump p o).wg = p.wg := rfl
@[simp] theorem bump_rswitch (o : Nat) : (bump p o).rswitch = p.rswitch := rfl
@[simp] theorem bump_handoffs (o : Nat) : (bump p o).handoffs = p.handoffs := rfl
@[simp] theorem bump_hostOut (o : Nat) : (bump p o).hostOut = p.hostOut := rfl
@[simp] theorem bump_fwd (o : Nat) : (bump p o).fwd = p.fwd := rfl
@[simp] theorem bump_combOut (o : Nat) : (bump p o).combOut = p.combOut := rfl
@[simp] theorem bump_mgmt (o : Nat) : (bump p o).mgmt = p.mgmt := rfl
@[simp] theorem bump_lasers (o : Nat) : (bump p o).lasers = p.lasers := rfl
@[simp] theorem bump_repairs (o : Nat) : (bump p o).repairs = p.repairs := rfl
@[simp] theorem bump_active (o : Nat) : (bump p o).active = p.active := rfl
@[simp] theorem bump_protos (o : Nat) : (bump p o).protos = p.protos := rfl
@[simp] theorem bump_den (o : Nat) : (bump p o).den = p.den := rfl
@[simp] theorem bump_time (o : Nat) : (bump p o).time = p.time := rfl
@[simp] theorem bump_health (o : Nat) : (bump p o).health = p.health := rfl

/-! `setTile` changes `tiles` -/

@[simp] theorem setTile_cfg (t : Nat) (x : Tile) : (setTile p t x).cfg = p.cfg := rfl
@[simp] theorem setTile_fv (t : Nat) (x : Tile) : (setTile p t x).fv = p.fv := rfl
@[simp] theorem setTile_since (t : Nat) (x : Tile) : (setTile p t x).since = p.since := rfl
@[simp] theorem setTile_mem (t : Nat) (x : Tile) : (setTile p t x).mem = p.mem := rfl
@[simp] theorem setTile_fresh (t : Nat) (x : Tile) : (setTile p t x).fresh = p.fresh := rfl
@[simp] theorem setTile_host (t : Nat) (x : Tile) : (setTile p t x).host = p.host := rfl
@[simp] theorem setTile_badLines (t : Nat) (x : Tile) : (setTile p t x).badLines = p.badLines := rfl
@[simp] theorem setTile_ceLines (t : Nat) (x : Tile) : (setTile p t x).ceLines = p.ceLines := rfl
@[simp] theorem setTile_ceOwed (t : Nat) (x : Tile) : (setTile p t x).ceOwed = p.ceOwed := rfl
@[simp] theorem setTile_ceCount (t : Nat) (x : Tile) : (setTile p t x).ceCount = p.ceCount := rfl
@[simp] theorem setTile_cqUsed (t : Nat) (x : Tile) : (setTile p t x).cqUsed = p.cqUsed := rfl
@[simp] theorem setTile_turns (t : Nat) (x : Tile) : (setTile p t x).turns = p.turns := rfl
@[simp] theorem setTile_regs (t : Nat) (x : Tile) : (setTile p t x).regs = p.regs := rfl
@[simp] theorem setTile_latch (t : Nat) (x : Tile) : (setTile p t x).latch = p.latch := rfl
@[simp] theorem setTile_punits (t : Nat) (x : Tile) : (setTile p t x).punits = p.punits := rfl
@[simp] theorem setTile_queues (t : Nat) (x : Tile) : (setTile p t x).queues = p.queues := rfl
@[simp] theorem setTile_buckets (t : Nat) (x : Tile) : (setTile p t x).buckets = p.buckets := rfl
@[simp] theorem setTile_passed (t : Nat) (x : Tile) : (setTile p t x).passed = p.passed := rfl
@[simp] theorem setTile_gates (t : Nat) (x : Tile) : (setTile p t x).gates = p.gates := rfl
@[simp] theorem setTile_nextGate (t : Nat) (x : Tile) : (setTile p t x).nextGate = p.nextGate := rfl
@[simp] theorem setTile_wc (t : Nat) (x : Tile) : (setTile p t x).wc = p.wc := rfl
@[simp] theorem setTile_ctxs (t : Nat) (x : Tile) : (setTile p t x).ctxs = p.ctxs := rfl
@[simp] theorem setTile_outs (t : Nat) (x : Tile) : (setTile p t x).outs = p.outs := rfl
@[simp] theorem setTile_resps (t : Nat) (x : Tile) : (setTile p t x).resps = p.resps := rfl
@[simp] theorem setTile_answers (t : Nat) (x : Tile) : (setTile p t x).answers = p.answers := rfl
@[simp] theorem setTile_wire (t : Nat) (x : Tile) : (setTile p t x).wire = p.wire := rfl
@[simp] theorem setTile_ports (t : Nat) (x : Tile) : (setTile p t x).ports = p.ports := rfl
@[simp] theorem setTile_plans (t : Nat) (x : Tile) : (setTile p t x).plans = p.plans := rfl
@[simp] theorem setTile_ops (t : Nat) (x : Tile) : (setTile p t x).ops = p.ops := rfl
@[simp] theorem setTile_nextOp (t : Nat) (x : Tile) : (setTile p t x).nextOp = p.nextOp := rfl
@[simp] theorem setTile_launches (t : Nat) (x : Tile) : (setTile p t x).launches = p.launches := rfl
@[simp] theorem setTile_ledger (t : Nat) (x : Tile) : (setTile p t x).ledger = p.ledger := rfl
@[simp] theorem setTile_placed (t : Nat) (x : Tile) : (setTile p t x).placed = p.placed := rfl
@[simp] theorem setTile_nextPlaced (t : Nat) (x : Tile) : (setTile p t x).nextPlaced = p.nextPlaced := rfl
@[simp] theorem setTile_cores (t : Nat) (x : Tile) : (setTile p t x).cores = p.cores := rfl
@[simp] theorem setTile_excs (t : Nat) (x : Tile) : (setTile p t x).excs = p.excs := rfl
@[simp] theorem setTile_jobs (t : Nat) (x : Tile) : (setTile p t x).jobs = p.jobs := rfl
@[simp] theorem setTile_nextJob (t : Nat) (x : Tile) : (setTile p t x).nextJob = p.nextJob := rfl
@[simp] theorem setTile_store (t : Nat) (x : Tile) : (setTile p t x).store = p.store := rfl
@[simp] theorem setTile_pins (t : Nat) (x : Tile) : (setTile p t x).pins = p.pins := rfl
@[simp] theorem setTile_xfer (t : Nat) (x : Tile) : (setTile p t x).xfer = p.xfer := rfl
@[simp] theorem setTile_ctxReset (t : Nat) (x : Tile) : (setTile p t x).ctxReset = p.ctxReset := rfl
@[simp] theorem setTile_regTick (t : Nat) (x : Tile) : (setTile p t x).regTick = p.regTick := rfl
@[simp] theorem setTile_patrol (t : Nat) (x : Tile) : (setTile p t x).patrol = p.patrol := rfl
@[simp] theorem setTile_ceSeen (t : Nat) (x : Tile) : (setTile p t x).ceSeen = p.ceSeen := rfl
@[simp] theorem setTile_swops (t : Nat) (x : Tile) : (setTile p t x).swops = p.swops := rfl
@[simp] theorem setTile_nextSw (t : Nat) (x : Tile) : (setTile p t x).nextSw = p.nextSw := rfl
@[simp] theorem setTile_swIn (t : Nat) (x : Tile) : (setTile p t x).swIn = p.swIn := rfl
@[simp] theorem setTile_wg (t : Nat) (x : Tile) : (setTile p t x).wg = p.wg := rfl
@[simp] theorem setTile_rswitch (t : Nat) (x : Tile) : (setTile p t x).rswitch = p.rswitch := rfl
@[simp] theorem setTile_handoffs (t : Nat) (x : Tile) : (setTile p t x).handoffs = p.handoffs := rfl
@[simp] theorem setTile_hostOut (t : Nat) (x : Tile) : (setTile p t x).hostOut = p.hostOut := rfl
@[simp] theorem setTile_fwd (t : Nat) (x : Tile) : (setTile p t x).fwd = p.fwd := rfl
@[simp] theorem setTile_combOut (t : Nat) (x : Tile) : (setTile p t x).combOut = p.combOut := rfl
@[simp] theorem setTile_mgmt (t : Nat) (x : Tile) : (setTile p t x).mgmt = p.mgmt := rfl
@[simp] theorem setTile_lasers (t : Nat) (x : Tile) : (setTile p t x).lasers = p.lasers := rfl
@[simp] theorem setTile_repairs (t : Nat) (x : Tile) : (setTile p t x).repairs = p.repairs := rfl
@[simp] theorem setTile_active (t : Nat) (x : Tile) : (setTile p t x).active = p.active := rfl
@[simp] theorem setTile_protos (t : Nat) (x : Tile) : (setTile p t x).protos = p.protos := rfl
@[simp] theorem setTile_den (t : Nat) (x : Tile) : (setTile p t x).den = p.den := rfl
@[simp] theorem setTile_time (t : Nat) (x : Tile) : (setTile p t x).time = p.time := rfl
@[simp] theorem setTile_health (t : Nat) (x : Tile) : (setTile p t x).health = p.health := rfl

/-! `modTile` changes `tiles` -/

@[simp] theorem modTile_cfg (t : Nat) (f : Tile → Tile) : (modTile p t f).cfg = p.cfg := rfl
@[simp] theorem modTile_fv (t : Nat) (f : Tile → Tile) : (modTile p t f).fv = p.fv := rfl
@[simp] theorem modTile_since (t : Nat) (f : Tile → Tile) : (modTile p t f).since = p.since := rfl
@[simp] theorem modTile_mem (t : Nat) (f : Tile → Tile) : (modTile p t f).mem = p.mem := rfl
@[simp] theorem modTile_fresh (t : Nat) (f : Tile → Tile) : (modTile p t f).fresh = p.fresh := rfl
@[simp] theorem modTile_host (t : Nat) (f : Tile → Tile) : (modTile p t f).host = p.host := rfl
@[simp] theorem modTile_badLines (t : Nat) (f : Tile → Tile) : (modTile p t f).badLines = p.badLines := rfl
@[simp] theorem modTile_ceLines (t : Nat) (f : Tile → Tile) : (modTile p t f).ceLines = p.ceLines := rfl
@[simp] theorem modTile_ceOwed (t : Nat) (f : Tile → Tile) : (modTile p t f).ceOwed = p.ceOwed := rfl
@[simp] theorem modTile_ceCount (t : Nat) (f : Tile → Tile) : (modTile p t f).ceCount = p.ceCount := rfl
@[simp] theorem modTile_cqUsed (t : Nat) (f : Tile → Tile) : (modTile p t f).cqUsed = p.cqUsed := rfl
@[simp] theorem modTile_turns (t : Nat) (f : Tile → Tile) : (modTile p t f).turns = p.turns := rfl
@[simp] theorem modTile_regs (t : Nat) (f : Tile → Tile) : (modTile p t f).regs = p.regs := rfl
@[simp] theorem modTile_latch (t : Nat) (f : Tile → Tile) : (modTile p t f).latch = p.latch := rfl
@[simp] theorem modTile_punits (t : Nat) (f : Tile → Tile) : (modTile p t f).punits = p.punits := rfl
@[simp] theorem modTile_queues (t : Nat) (f : Tile → Tile) : (modTile p t f).queues = p.queues := rfl
@[simp] theorem modTile_buckets (t : Nat) (f : Tile → Tile) : (modTile p t f).buckets = p.buckets := rfl
@[simp] theorem modTile_passed (t : Nat) (f : Tile → Tile) : (modTile p t f).passed = p.passed := rfl
@[simp] theorem modTile_gates (t : Nat) (f : Tile → Tile) : (modTile p t f).gates = p.gates := rfl
@[simp] theorem modTile_nextGate (t : Nat) (f : Tile → Tile) : (modTile p t f).nextGate = p.nextGate := rfl
@[simp] theorem modTile_wc (t : Nat) (f : Tile → Tile) : (modTile p t f).wc = p.wc := rfl
@[simp] theorem modTile_ctxs (t : Nat) (f : Tile → Tile) : (modTile p t f).ctxs = p.ctxs := rfl
@[simp] theorem modTile_outs (t : Nat) (f : Tile → Tile) : (modTile p t f).outs = p.outs := rfl
@[simp] theorem modTile_resps (t : Nat) (f : Tile → Tile) : (modTile p t f).resps = p.resps := rfl
@[simp] theorem modTile_answers (t : Nat) (f : Tile → Tile) : (modTile p t f).answers = p.answers := rfl
@[simp] theorem modTile_wire (t : Nat) (f : Tile → Tile) : (modTile p t f).wire = p.wire := rfl
@[simp] theorem modTile_ports (t : Nat) (f : Tile → Tile) : (modTile p t f).ports = p.ports := rfl
@[simp] theorem modTile_plans (t : Nat) (f : Tile → Tile) : (modTile p t f).plans = p.plans := rfl
@[simp] theorem modTile_ops (t : Nat) (f : Tile → Tile) : (modTile p t f).ops = p.ops := rfl
@[simp] theorem modTile_nextOp (t : Nat) (f : Tile → Tile) : (modTile p t f).nextOp = p.nextOp := rfl
@[simp] theorem modTile_launches (t : Nat) (f : Tile → Tile) : (modTile p t f).launches = p.launches := rfl
@[simp] theorem modTile_ledger (t : Nat) (f : Tile → Tile) : (modTile p t f).ledger = p.ledger := rfl
@[simp] theorem modTile_placed (t : Nat) (f : Tile → Tile) : (modTile p t f).placed = p.placed := rfl
@[simp] theorem modTile_nextPlaced (t : Nat) (f : Tile → Tile) : (modTile p t f).nextPlaced = p.nextPlaced := rfl
@[simp] theorem modTile_cores (t : Nat) (f : Tile → Tile) : (modTile p t f).cores = p.cores := rfl
@[simp] theorem modTile_excs (t : Nat) (f : Tile → Tile) : (modTile p t f).excs = p.excs := rfl
@[simp] theorem modTile_jobs (t : Nat) (f : Tile → Tile) : (modTile p t f).jobs = p.jobs := rfl
@[simp] theorem modTile_nextJob (t : Nat) (f : Tile → Tile) : (modTile p t f).nextJob = p.nextJob := rfl
@[simp] theorem modTile_store (t : Nat) (f : Tile → Tile) : (modTile p t f).store = p.store := rfl
@[simp] theorem modTile_pins (t : Nat) (f : Tile → Tile) : (modTile p t f).pins = p.pins := rfl
@[simp] theorem modTile_xfer (t : Nat) (f : Tile → Tile) : (modTile p t f).xfer = p.xfer := rfl
@[simp] theorem modTile_ctxReset (t : Nat) (f : Tile → Tile) : (modTile p t f).ctxReset = p.ctxReset := rfl
@[simp] theorem modTile_regTick (t : Nat) (f : Tile → Tile) : (modTile p t f).regTick = p.regTick := rfl
@[simp] theorem modTile_patrol (t : Nat) (f : Tile → Tile) : (modTile p t f).patrol = p.patrol := rfl
@[simp] theorem modTile_ceSeen (t : Nat) (f : Tile → Tile) : (modTile p t f).ceSeen = p.ceSeen := rfl
@[simp] theorem modTile_swops (t : Nat) (f : Tile → Tile) : (modTile p t f).swops = p.swops := rfl
@[simp] theorem modTile_nextSw (t : Nat) (f : Tile → Tile) : (modTile p t f).nextSw = p.nextSw := rfl
@[simp] theorem modTile_swIn (t : Nat) (f : Tile → Tile) : (modTile p t f).swIn = p.swIn := rfl
@[simp] theorem modTile_wg (t : Nat) (f : Tile → Tile) : (modTile p t f).wg = p.wg := rfl
@[simp] theorem modTile_rswitch (t : Nat) (f : Tile → Tile) : (modTile p t f).rswitch = p.rswitch := rfl
@[simp] theorem modTile_handoffs (t : Nat) (f : Tile → Tile) : (modTile p t f).handoffs = p.handoffs := rfl
@[simp] theorem modTile_hostOut (t : Nat) (f : Tile → Tile) : (modTile p t f).hostOut = p.hostOut := rfl
@[simp] theorem modTile_fwd (t : Nat) (f : Tile → Tile) : (modTile p t f).fwd = p.fwd := rfl
@[simp] theorem modTile_combOut (t : Nat) (f : Tile → Tile) : (modTile p t f).combOut = p.combOut := rfl
@[simp] theorem modTile_mgmt (t : Nat) (f : Tile → Tile) : (modTile p t f).mgmt = p.mgmt := rfl
@[simp] theorem modTile_lasers (t : Nat) (f : Tile → Tile) : (modTile p t f).lasers = p.lasers := rfl
@[simp] theorem modTile_repairs (t : Nat) (f : Tile → Tile) : (modTile p t f).repairs = p.repairs := rfl
@[simp] theorem modTile_active (t : Nat) (f : Tile → Tile) : (modTile p t f).active = p.active := rfl
@[simp] theorem modTile_protos (t : Nat) (f : Tile → Tile) : (modTile p t f).protos = p.protos := rfl
@[simp] theorem modTile_den (t : Nat) (f : Tile → Tile) : (modTile p t f).den = p.den := rfl
@[simp] theorem modTile_time (t : Nat) (f : Tile → Tile) : (modTile p t f).time = p.time := rfl
@[simp] theorem modTile_health (t : Nat) (f : Tile → Tile) : (modTile p t f).health = p.health := rfl

/-! `setPunit` changes `punits` -/

@[simp] theorem setPunit_cfg (i state lunit : Nat) : (setPunit p i state lunit).cfg = p.cfg := rfl
@[simp] theorem setPunit_fv (i state lunit : Nat) : (setPunit p i state lunit).fv = p.fv := rfl
@[simp] theorem setPunit_since (i state lunit : Nat) : (setPunit p i state lunit).since = p.since := rfl
@[simp] theorem setPunit_mem (i state lunit : Nat) : (setPunit p i state lunit).mem = p.mem := rfl
@[simp] theorem setPunit_fresh (i state lunit : Nat) : (setPunit p i state lunit).fresh = p.fresh := rfl
@[simp] theorem setPunit_host (i state lunit : Nat) : (setPunit p i state lunit).host = p.host := rfl
@[simp] theorem setPunit_badLines (i state lunit : Nat) : (setPunit p i state lunit).badLines = p.badLines := rfl
@[simp] theorem setPunit_ceLines (i state lunit : Nat) : (setPunit p i state lunit).ceLines = p.ceLines := rfl
@[simp] theorem setPunit_ceOwed (i state lunit : Nat) : (setPunit p i state lunit).ceOwed = p.ceOwed := rfl
@[simp] theorem setPunit_ceCount (i state lunit : Nat) : (setPunit p i state lunit).ceCount = p.ceCount := rfl
@[simp] theorem setPunit_cqUsed (i state lunit : Nat) : (setPunit p i state lunit).cqUsed = p.cqUsed := rfl
@[simp] theorem setPunit_turns (i state lunit : Nat) : (setPunit p i state lunit).turns = p.turns := rfl
@[simp] theorem setPunit_regs (i state lunit : Nat) : (setPunit p i state lunit).regs = p.regs := rfl
@[simp] theorem setPunit_latch (i state lunit : Nat) : (setPunit p i state lunit).latch = p.latch := rfl
@[simp] theorem setPunit_tiles (i state lunit : Nat) : (setPunit p i state lunit).tiles = p.tiles := rfl
@[simp] theorem setPunit_queues (i state lunit : Nat) : (setPunit p i state lunit).queues = p.queues := rfl
@[simp] theorem setPunit_buckets (i state lunit : Nat) : (setPunit p i state lunit).buckets = p.buckets := rfl
@[simp] theorem setPunit_passed (i state lunit : Nat) : (setPunit p i state lunit).passed = p.passed := rfl
@[simp] theorem setPunit_gates (i state lunit : Nat) : (setPunit p i state lunit).gates = p.gates := rfl
@[simp] theorem setPunit_nextGate (i state lunit : Nat) : (setPunit p i state lunit).nextGate = p.nextGate := rfl
@[simp] theorem setPunit_wc (i state lunit : Nat) : (setPunit p i state lunit).wc = p.wc := rfl
@[simp] theorem setPunit_ctxs (i state lunit : Nat) : (setPunit p i state lunit).ctxs = p.ctxs := rfl
@[simp] theorem setPunit_outs (i state lunit : Nat) : (setPunit p i state lunit).outs = p.outs := rfl
@[simp] theorem setPunit_resps (i state lunit : Nat) : (setPunit p i state lunit).resps = p.resps := rfl
@[simp] theorem setPunit_answers (i state lunit : Nat) : (setPunit p i state lunit).answers = p.answers := rfl
@[simp] theorem setPunit_wire (i state lunit : Nat) : (setPunit p i state lunit).wire = p.wire := rfl
@[simp] theorem setPunit_ports (i state lunit : Nat) : (setPunit p i state lunit).ports = p.ports := rfl
@[simp] theorem setPunit_plans (i state lunit : Nat) : (setPunit p i state lunit).plans = p.plans := rfl
@[simp] theorem setPunit_ops (i state lunit : Nat) : (setPunit p i state lunit).ops = p.ops := rfl
@[simp] theorem setPunit_nextOp (i state lunit : Nat) : (setPunit p i state lunit).nextOp = p.nextOp := rfl
@[simp] theorem setPunit_launches (i state lunit : Nat) : (setPunit p i state lunit).launches = p.launches := rfl
@[simp] theorem setPunit_ledger (i state lunit : Nat) : (setPunit p i state lunit).ledger = p.ledger := rfl
@[simp] theorem setPunit_placed (i state lunit : Nat) : (setPunit p i state lunit).placed = p.placed := rfl
@[simp] theorem setPunit_nextPlaced (i state lunit : Nat) : (setPunit p i state lunit).nextPlaced = p.nextPlaced := rfl
@[simp] theorem setPunit_cores (i state lunit : Nat) : (setPunit p i state lunit).cores = p.cores := rfl
@[simp] theorem setPunit_excs (i state lunit : Nat) : (setPunit p i state lunit).excs = p.excs := rfl
@[simp] theorem setPunit_jobs (i state lunit : Nat) : (setPunit p i state lunit).jobs = p.jobs := rfl
@[simp] theorem setPunit_nextJob (i state lunit : Nat) : (setPunit p i state lunit).nextJob = p.nextJob := rfl
@[simp] theorem setPunit_store (i state lunit : Nat) : (setPunit p i state lunit).store = p.store := rfl
@[simp] theorem setPunit_pins (i state lunit : Nat) : (setPunit p i state lunit).pins = p.pins := rfl
@[simp] theorem setPunit_xfer (i state lunit : Nat) : (setPunit p i state lunit).xfer = p.xfer := rfl
@[simp] theorem setPunit_ctxReset (i state lunit : Nat) : (setPunit p i state lunit).ctxReset = p.ctxReset := rfl
@[simp] theorem setPunit_regTick (i state lunit : Nat) : (setPunit p i state lunit).regTick = p.regTick := rfl
@[simp] theorem setPunit_patrol (i state lunit : Nat) : (setPunit p i state lunit).patrol = p.patrol := rfl
@[simp] theorem setPunit_ceSeen (i state lunit : Nat) : (setPunit p i state lunit).ceSeen = p.ceSeen := rfl
@[simp] theorem setPunit_swops (i state lunit : Nat) : (setPunit p i state lunit).swops = p.swops := rfl
@[simp] theorem setPunit_nextSw (i state lunit : Nat) : (setPunit p i state lunit).nextSw = p.nextSw := rfl
@[simp] theorem setPunit_swIn (i state lunit : Nat) : (setPunit p i state lunit).swIn = p.swIn := rfl
@[simp] theorem setPunit_wg (i state lunit : Nat) : (setPunit p i state lunit).wg = p.wg := rfl
@[simp] theorem setPunit_rswitch (i state lunit : Nat) : (setPunit p i state lunit).rswitch = p.rswitch := rfl
@[simp] theorem setPunit_handoffs (i state lunit : Nat) : (setPunit p i state lunit).handoffs = p.handoffs := rfl
@[simp] theorem setPunit_hostOut (i state lunit : Nat) : (setPunit p i state lunit).hostOut = p.hostOut := rfl
@[simp] theorem setPunit_fwd (i state lunit : Nat) : (setPunit p i state lunit).fwd = p.fwd := rfl
@[simp] theorem setPunit_combOut (i state lunit : Nat) : (setPunit p i state lunit).combOut = p.combOut := rfl
@[simp] theorem setPunit_mgmt (i state lunit : Nat) : (setPunit p i state lunit).mgmt = p.mgmt := rfl
@[simp] theorem setPunit_lasers (i state lunit : Nat) : (setPunit p i state lunit).lasers = p.lasers := rfl
@[simp] theorem setPunit_repairs (i state lunit : Nat) : (setPunit p i state lunit).repairs = p.repairs := rfl
@[simp] theorem setPunit_active (i state lunit : Nat) : (setPunit p i state lunit).active = p.active := rfl
@[simp] theorem setPunit_protos (i state lunit : Nat) : (setPunit p i state lunit).protos = p.protos := rfl
@[simp] theorem setPunit_den (i state lunit : Nat) : (setPunit p i state lunit).den = p.den := rfl
@[simp] theorem setPunit_time (i state lunit : Nat) : (setPunit p i state lunit).time = p.time := rfl
@[simp] theorem setPunit_health (i state lunit : Nat) : (setPunit p i state lunit).health = p.health := rfl

/-! `setCore` changes `cores` -/

@[simp] theorem setCore_cfg (k : Nat) (x : Core) : (setCore p k x).cfg = p.cfg := rfl
@[simp] theorem setCore_fv (k : Nat) (x : Core) : (setCore p k x).fv = p.fv := rfl
@[simp] theorem setCore_since (k : Nat) (x : Core) : (setCore p k x).since = p.since := rfl
@[simp] theorem setCore_mem (k : Nat) (x : Core) : (setCore p k x).mem = p.mem := rfl
@[simp] theorem setCore_fresh (k : Nat) (x : Core) : (setCore p k x).fresh = p.fresh := rfl
@[simp] theorem setCore_host (k : Nat) (x : Core) : (setCore p k x).host = p.host := rfl
@[simp] theorem setCore_badLines (k : Nat) (x : Core) : (setCore p k x).badLines = p.badLines := rfl
@[simp] theorem setCore_ceLines (k : Nat) (x : Core) : (setCore p k x).ceLines = p.ceLines := rfl
@[simp] theorem setCore_ceOwed (k : Nat) (x : Core) : (setCore p k x).ceOwed = p.ceOwed := rfl
@[simp] theorem setCore_ceCount (k : Nat) (x : Core) : (setCore p k x).ceCount = p.ceCount := rfl
@[simp] theorem setCore_cqUsed (k : Nat) (x : Core) : (setCore p k x).cqUsed = p.cqUsed := rfl
@[simp] theorem setCore_turns (k : Nat) (x : Core) : (setCore p k x).turns = p.turns := rfl
@[simp] theorem setCore_regs (k : Nat) (x : Core) : (setCore p k x).regs = p.regs := rfl
@[simp] theorem setCore_latch (k : Nat) (x : Core) : (setCore p k x).latch = p.latch := rfl
@[simp] theorem setCore_punits (k : Nat) (x : Core) : (setCore p k x).punits = p.punits := rfl
@[simp] theorem setCore_tiles (k : Nat) (x : Core) : (setCore p k x).tiles = p.tiles := rfl
@[simp] theorem setCore_queues (k : Nat) (x : Core) : (setCore p k x).queues = p.queues := rfl
@[simp] theorem setCore_buckets (k : Nat) (x : Core) : (setCore p k x).buckets = p.buckets := rfl
@[simp] theorem setCore_passed (k : Nat) (x : Core) : (setCore p k x).passed = p.passed := rfl
@[simp] theorem setCore_gates (k : Nat) (x : Core) : (setCore p k x).gates = p.gates := rfl
@[simp] theorem setCore_nextGate (k : Nat) (x : Core) : (setCore p k x).nextGate = p.nextGate := rfl
@[simp] theorem setCore_wc (k : Nat) (x : Core) : (setCore p k x).wc = p.wc := rfl
@[simp] theorem setCore_ctxs (k : Nat) (x : Core) : (setCore p k x).ctxs = p.ctxs := rfl
@[simp] theorem setCore_outs (k : Nat) (x : Core) : (setCore p k x).outs = p.outs := rfl
@[simp] theorem setCore_resps (k : Nat) (x : Core) : (setCore p k x).resps = p.resps := rfl
@[simp] theorem setCore_answers (k : Nat) (x : Core) : (setCore p k x).answers = p.answers := rfl
@[simp] theorem setCore_wire (k : Nat) (x : Core) : (setCore p k x).wire = p.wire := rfl
@[simp] theorem setCore_ports (k : Nat) (x : Core) : (setCore p k x).ports = p.ports := rfl
@[simp] theorem setCore_plans (k : Nat) (x : Core) : (setCore p k x).plans = p.plans := rfl
@[simp] theorem setCore_ops (k : Nat) (x : Core) : (setCore p k x).ops = p.ops := rfl
@[simp] theorem setCore_nextOp (k : Nat) (x : Core) : (setCore p k x).nextOp = p.nextOp := rfl
@[simp] theorem setCore_launches (k : Nat) (x : Core) : (setCore p k x).launches = p.launches := rfl
@[simp] theorem setCore_ledger (k : Nat) (x : Core) : (setCore p k x).ledger = p.ledger := rfl
@[simp] theorem setCore_placed (k : Nat) (x : Core) : (setCore p k x).placed = p.placed := rfl
@[simp] theorem setCore_nextPlaced (k : Nat) (x : Core) : (setCore p k x).nextPlaced = p.nextPlaced := rfl
@[simp] theorem setCore_excs (k : Nat) (x : Core) : (setCore p k x).excs = p.excs := rfl
@[simp] theorem setCore_jobs (k : Nat) (x : Core) : (setCore p k x).jobs = p.jobs := rfl
@[simp] theorem setCore_nextJob (k : Nat) (x : Core) : (setCore p k x).nextJob = p.nextJob := rfl
@[simp] theorem setCore_store (k : Nat) (x : Core) : (setCore p k x).store = p.store := rfl
@[simp] theorem setCore_pins (k : Nat) (x : Core) : (setCore p k x).pins = p.pins := rfl
@[simp] theorem setCore_xfer (k : Nat) (x : Core) : (setCore p k x).xfer = p.xfer := rfl
@[simp] theorem setCore_ctxReset (k : Nat) (x : Core) : (setCore p k x).ctxReset = p.ctxReset := rfl
@[simp] theorem setCore_regTick (k : Nat) (x : Core) : (setCore p k x).regTick = p.regTick := rfl
@[simp] theorem setCore_patrol (k : Nat) (x : Core) : (setCore p k x).patrol = p.patrol := rfl
@[simp] theorem setCore_ceSeen (k : Nat) (x : Core) : (setCore p k x).ceSeen = p.ceSeen := rfl
@[simp] theorem setCore_swops (k : Nat) (x : Core) : (setCore p k x).swops = p.swops := rfl
@[simp] theorem setCore_nextSw (k : Nat) (x : Core) : (setCore p k x).nextSw = p.nextSw := rfl
@[simp] theorem setCore_swIn (k : Nat) (x : Core) : (setCore p k x).swIn = p.swIn := rfl
@[simp] theorem setCore_wg (k : Nat) (x : Core) : (setCore p k x).wg = p.wg := rfl
@[simp] theorem setCore_rswitch (k : Nat) (x : Core) : (setCore p k x).rswitch = p.rswitch := rfl
@[simp] theorem setCore_handoffs (k : Nat) (x : Core) : (setCore p k x).handoffs = p.handoffs := rfl
@[simp] theorem setCore_hostOut (k : Nat) (x : Core) : (setCore p k x).hostOut = p.hostOut := rfl
@[simp] theorem setCore_fwd (k : Nat) (x : Core) : (setCore p k x).fwd = p.fwd := rfl
@[simp] theorem setCore_combOut (k : Nat) (x : Core) : (setCore p k x).combOut = p.combOut := rfl
@[simp] theorem setCore_mgmt (k : Nat) (x : Core) : (setCore p k x).mgmt = p.mgmt := rfl
@[simp] theorem setCore_lasers (k : Nat) (x : Core) : (setCore p k x).lasers = p.lasers := rfl
@[simp] theorem setCore_repairs (k : Nat) (x : Core) : (setCore p k x).repairs = p.repairs := rfl
@[simp] theorem setCore_active (k : Nat) (x : Core) : (setCore p k x).active = p.active := rfl
@[simp] theorem setCore_protos (k : Nat) (x : Core) : (setCore p k x).protos = p.protos := rfl
@[simp] theorem setCore_den (k : Nat) (x : Core) : (setCore p k x).den = p.den := rfl
@[simp] theorem setCore_time (k : Nat) (x : Core) : (setCore p k x).time = p.time := rfl
@[simp] theorem setCore_health (k : Nat) (x : Core) : (setCore p k x).health = p.health := rfl

/-! `setCtx` changes `ctxs` -/

@[simp] theorem setCtx_cfg (i : Nat) (x : Ctx) : (setCtx p i x).cfg = p.cfg := rfl
@[simp] theorem setCtx_fv (i : Nat) (x : Ctx) : (setCtx p i x).fv = p.fv := rfl
@[simp] theorem setCtx_since (i : Nat) (x : Ctx) : (setCtx p i x).since = p.since := rfl
@[simp] theorem setCtx_mem (i : Nat) (x : Ctx) : (setCtx p i x).mem = p.mem := rfl
@[simp] theorem setCtx_fresh (i : Nat) (x : Ctx) : (setCtx p i x).fresh = p.fresh := rfl
@[simp] theorem setCtx_host (i : Nat) (x : Ctx) : (setCtx p i x).host = p.host := rfl
@[simp] theorem setCtx_badLines (i : Nat) (x : Ctx) : (setCtx p i x).badLines = p.badLines := rfl
@[simp] theorem setCtx_ceLines (i : Nat) (x : Ctx) : (setCtx p i x).ceLines = p.ceLines := rfl
@[simp] theorem setCtx_ceOwed (i : Nat) (x : Ctx) : (setCtx p i x).ceOwed = p.ceOwed := rfl
@[simp] theorem setCtx_ceCount (i : Nat) (x : Ctx) : (setCtx p i x).ceCount = p.ceCount := rfl
@[simp] theorem setCtx_cqUsed (i : Nat) (x : Ctx) : (setCtx p i x).cqUsed = p.cqUsed := rfl
@[simp] theorem setCtx_turns (i : Nat) (x : Ctx) : (setCtx p i x).turns = p.turns := rfl
@[simp] theorem setCtx_regs (i : Nat) (x : Ctx) : (setCtx p i x).regs = p.regs := rfl
@[simp] theorem setCtx_latch (i : Nat) (x : Ctx) : (setCtx p i x).latch = p.latch := rfl
@[simp] theorem setCtx_punits (i : Nat) (x : Ctx) : (setCtx p i x).punits = p.punits := rfl
@[simp] theorem setCtx_tiles (i : Nat) (x : Ctx) : (setCtx p i x).tiles = p.tiles := rfl
@[simp] theorem setCtx_queues (i : Nat) (x : Ctx) : (setCtx p i x).queues = p.queues := rfl
@[simp] theorem setCtx_buckets (i : Nat) (x : Ctx) : (setCtx p i x).buckets = p.buckets := rfl
@[simp] theorem setCtx_passed (i : Nat) (x : Ctx) : (setCtx p i x).passed = p.passed := rfl
@[simp] theorem setCtx_gates (i : Nat) (x : Ctx) : (setCtx p i x).gates = p.gates := rfl
@[simp] theorem setCtx_nextGate (i : Nat) (x : Ctx) : (setCtx p i x).nextGate = p.nextGate := rfl
@[simp] theorem setCtx_wc (i : Nat) (x : Ctx) : (setCtx p i x).wc = p.wc := rfl
@[simp] theorem setCtx_outs (i : Nat) (x : Ctx) : (setCtx p i x).outs = p.outs := rfl
@[simp] theorem setCtx_resps (i : Nat) (x : Ctx) : (setCtx p i x).resps = p.resps := rfl
@[simp] theorem setCtx_answers (i : Nat) (x : Ctx) : (setCtx p i x).answers = p.answers := rfl
@[simp] theorem setCtx_wire (i : Nat) (x : Ctx) : (setCtx p i x).wire = p.wire := rfl
@[simp] theorem setCtx_ports (i : Nat) (x : Ctx) : (setCtx p i x).ports = p.ports := rfl
@[simp] theorem setCtx_plans (i : Nat) (x : Ctx) : (setCtx p i x).plans = p.plans := rfl
@[simp] theorem setCtx_ops (i : Nat) (x : Ctx) : (setCtx p i x).ops = p.ops := rfl
@[simp] theorem setCtx_nextOp (i : Nat) (x : Ctx) : (setCtx p i x).nextOp = p.nextOp := rfl
@[simp] theorem setCtx_launches (i : Nat) (x : Ctx) : (setCtx p i x).launches = p.launches := rfl
@[simp] theorem setCtx_ledger (i : Nat) (x : Ctx) : (setCtx p i x).ledger = p.ledger := rfl
@[simp] theorem setCtx_placed (i : Nat) (x : Ctx) : (setCtx p i x).placed = p.placed := rfl
@[simp] theorem setCtx_nextPlaced (i : Nat) (x : Ctx) : (setCtx p i x).nextPlaced = p.nextPlaced := rfl
@[simp] theorem setCtx_cores (i : Nat) (x : Ctx) : (setCtx p i x).cores = p.cores := rfl
@[simp] theorem setCtx_excs (i : Nat) (x : Ctx) : (setCtx p i x).excs = p.excs := rfl
@[simp] theorem setCtx_jobs (i : Nat) (x : Ctx) : (setCtx p i x).jobs = p.jobs := rfl
@[simp] theorem setCtx_nextJob (i : Nat) (x : Ctx) : (setCtx p i x).nextJob = p.nextJob := rfl
@[simp] theorem setCtx_store (i : Nat) (x : Ctx) : (setCtx p i x).store = p.store := rfl
@[simp] theorem setCtx_pins (i : Nat) (x : Ctx) : (setCtx p i x).pins = p.pins := rfl
@[simp] theorem setCtx_xfer (i : Nat) (x : Ctx) : (setCtx p i x).xfer = p.xfer := rfl
@[simp] theorem setCtx_ctxReset (i : Nat) (x : Ctx) : (setCtx p i x).ctxReset = p.ctxReset := rfl
@[simp] theorem setCtx_regTick (i : Nat) (x : Ctx) : (setCtx p i x).regTick = p.regTick := rfl
@[simp] theorem setCtx_patrol (i : Nat) (x : Ctx) : (setCtx p i x).patrol = p.patrol := rfl
@[simp] theorem setCtx_ceSeen (i : Nat) (x : Ctx) : (setCtx p i x).ceSeen = p.ceSeen := rfl
@[simp] theorem setCtx_swops (i : Nat) (x : Ctx) : (setCtx p i x).swops = p.swops := rfl
@[simp] theorem setCtx_nextSw (i : Nat) (x : Ctx) : (setCtx p i x).nextSw = p.nextSw := rfl
@[simp] theorem setCtx_swIn (i : Nat) (x : Ctx) : (setCtx p i x).swIn = p.swIn := rfl
@[simp] theorem setCtx_wg (i : Nat) (x : Ctx) : (setCtx p i x).wg = p.wg := rfl
@[simp] theorem setCtx_rswitch (i : Nat) (x : Ctx) : (setCtx p i x).rswitch = p.rswitch := rfl
@[simp] theorem setCtx_handoffs (i : Nat) (x : Ctx) : (setCtx p i x).handoffs = p.handoffs := rfl
@[simp] theorem setCtx_hostOut (i : Nat) (x : Ctx) : (setCtx p i x).hostOut = p.hostOut := rfl
@[simp] theorem setCtx_fwd (i : Nat) (x : Ctx) : (setCtx p i x).fwd = p.fwd := rfl
@[simp] theorem setCtx_combOut (i : Nat) (x : Ctx) : (setCtx p i x).combOut = p.combOut := rfl
@[simp] theorem setCtx_mgmt (i : Nat) (x : Ctx) : (setCtx p i x).mgmt = p.mgmt := rfl
@[simp] theorem setCtx_lasers (i : Nat) (x : Ctx) : (setCtx p i x).lasers = p.lasers := rfl
@[simp] theorem setCtx_repairs (i : Nat) (x : Ctx) : (setCtx p i x).repairs = p.repairs := rfl
@[simp] theorem setCtx_active (i : Nat) (x : Ctx) : (setCtx p i x).active = p.active := rfl
@[simp] theorem setCtx_protos (i : Nat) (x : Ctx) : (setCtx p i x).protos = p.protos := rfl
@[simp] theorem setCtx_den (i : Nat) (x : Ctx) : (setCtx p i x).den = p.den := rfl
@[simp] theorem setCtx_time (i : Nat) (x : Ctx) : (setCtx p i x).time = p.time := rfl
@[simp] theorem setCtx_health (i : Nat) (x : Ctx) : (setCtx p i x).health = p.health := rfl

/-! `modLaunch` changes `launches` -/

@[simp] theorem modLaunch_cfg (id : Nat) (f : Launch → Launch) : (modLaunch p id f).cfg = p.cfg := rfl
@[simp] theorem modLaunch_fv (id : Nat) (f : Launch → Launch) : (modLaunch p id f).fv = p.fv := rfl
@[simp] theorem modLaunch_since (id : Nat) (f : Launch → Launch) : (modLaunch p id f).since = p.since := rfl
@[simp] theorem modLaunch_mem (id : Nat) (f : Launch → Launch) : (modLaunch p id f).mem = p.mem := rfl
@[simp] theorem modLaunch_fresh (id : Nat) (f : Launch → Launch) : (modLaunch p id f).fresh = p.fresh := rfl
@[simp] theorem modLaunch_host (id : Nat) (f : Launch → Launch) : (modLaunch p id f).host = p.host := rfl
@[simp] theorem modLaunch_badLines (id : Nat) (f : Launch → Launch) : (modLaunch p id f).badLines = p.badLines := rfl
@[simp] theorem modLaunch_ceLines (id : Nat) (f : Launch → Launch) : (modLaunch p id f).ceLines = p.ceLines := rfl
@[simp] theorem modLaunch_ceOwed (id : Nat) (f : Launch → Launch) : (modLaunch p id f).ceOwed = p.ceOwed := rfl
@[simp] theorem modLaunch_ceCount (id : Nat) (f : Launch → Launch) : (modLaunch p id f).ceCount = p.ceCount := rfl
@[simp] theorem modLaunch_cqUsed (id : Nat) (f : Launch → Launch) : (modLaunch p id f).cqUsed = p.cqUsed := rfl
@[simp] theorem modLaunch_turns (id : Nat) (f : Launch → Launch) : (modLaunch p id f).turns = p.turns := rfl
@[simp] theorem modLaunch_regs (id : Nat) (f : Launch → Launch) : (modLaunch p id f).regs = p.regs := rfl
@[simp] theorem modLaunch_latch (id : Nat) (f : Launch → Launch) : (modLaunch p id f).latch = p.latch := rfl
@[simp] theorem modLaunch_punits (id : Nat) (f : Launch → Launch) : (modLaunch p id f).punits = p.punits := rfl
@[simp] theorem modLaunch_tiles (id : Nat) (f : Launch → Launch) : (modLaunch p id f).tiles = p.tiles := rfl
@[simp] theorem modLaunch_queues (id : Nat) (f : Launch → Launch) : (modLaunch p id f).queues = p.queues := rfl
@[simp] theorem modLaunch_buckets (id : Nat) (f : Launch → Launch) : (modLaunch p id f).buckets = p.buckets := rfl
@[simp] theorem modLaunch_passed (id : Nat) (f : Launch → Launch) : (modLaunch p id f).passed = p.passed := rfl
@[simp] theorem modLaunch_gates (id : Nat) (f : Launch → Launch) : (modLaunch p id f).gates = p.gates := rfl
@[simp] theorem modLaunch_nextGate (id : Nat) (f : Launch → Launch) : (modLaunch p id f).nextGate = p.nextGate := rfl
@[simp] theorem modLaunch_wc (id : Nat) (f : Launch → Launch) : (modLaunch p id f).wc = p.wc := rfl
@[simp] theorem modLaunch_ctxs (id : Nat) (f : Launch → Launch) : (modLaunch p id f).ctxs = p.ctxs := rfl
@[simp] theorem modLaunch_outs (id : Nat) (f : Launch → Launch) : (modLaunch p id f).outs = p.outs := rfl
@[simp] theorem modLaunch_resps (id : Nat) (f : Launch → Launch) : (modLaunch p id f).resps = p.resps := rfl
@[simp] theorem modLaunch_answers (id : Nat) (f : Launch → Launch) : (modLaunch p id f).answers = p.answers := rfl
@[simp] theorem modLaunch_wire (id : Nat) (f : Launch → Launch) : (modLaunch p id f).wire = p.wire := rfl
@[simp] theorem modLaunch_ports (id : Nat) (f : Launch → Launch) : (modLaunch p id f).ports = p.ports := rfl
@[simp] theorem modLaunch_plans (id : Nat) (f : Launch → Launch) : (modLaunch p id f).plans = p.plans := rfl
@[simp] theorem modLaunch_ops (id : Nat) (f : Launch → Launch) : (modLaunch p id f).ops = p.ops := rfl
@[simp] theorem modLaunch_nextOp (id : Nat) (f : Launch → Launch) : (modLaunch p id f).nextOp = p.nextOp := rfl
@[simp] theorem modLaunch_ledger (id : Nat) (f : Launch → Launch) : (modLaunch p id f).ledger = p.ledger := rfl
@[simp] theorem modLaunch_placed (id : Nat) (f : Launch → Launch) : (modLaunch p id f).placed = p.placed := rfl
@[simp] theorem modLaunch_nextPlaced (id : Nat) (f : Launch → Launch) : (modLaunch p id f).nextPlaced = p.nextPlaced := rfl
@[simp] theorem modLaunch_cores (id : Nat) (f : Launch → Launch) : (modLaunch p id f).cores = p.cores := rfl
@[simp] theorem modLaunch_excs (id : Nat) (f : Launch → Launch) : (modLaunch p id f).excs = p.excs := rfl
@[simp] theorem modLaunch_jobs (id : Nat) (f : Launch → Launch) : (modLaunch p id f).jobs = p.jobs := rfl
@[simp] theorem modLaunch_nextJob (id : Nat) (f : Launch → Launch) : (modLaunch p id f).nextJob = p.nextJob := rfl
@[simp] theorem modLaunch_store (id : Nat) (f : Launch → Launch) : (modLaunch p id f).store = p.store := rfl
@[simp] theorem modLaunch_pins (id : Nat) (f : Launch → Launch) : (modLaunch p id f).pins = p.pins := rfl
@[simp] theorem modLaunch_xfer (id : Nat) (f : Launch → Launch) : (modLaunch p id f).xfer = p.xfer := rfl
@[simp] theorem modLaunch_ctxReset (id : Nat) (f : Launch → Launch) : (modLaunch p id f).ctxReset = p.ctxReset := rfl
@[simp] theorem modLaunch_regTick (id : Nat) (f : Launch → Launch) : (modLaunch p id f).regTick = p.regTick := rfl
@[simp] theorem modLaunch_patrol (id : Nat) (f : Launch → Launch) : (modLaunch p id f).patrol = p.patrol := rfl
@[simp] theorem modLaunch_ceSeen (id : Nat) (f : Launch → Launch) : (modLaunch p id f).ceSeen = p.ceSeen := rfl
@[simp] theorem modLaunch_swops (id : Nat) (f : Launch → Launch) : (modLaunch p id f).swops = p.swops := rfl
@[simp] theorem modLaunch_nextSw (id : Nat) (f : Launch → Launch) : (modLaunch p id f).nextSw = p.nextSw := rfl
@[simp] theorem modLaunch_swIn (id : Nat) (f : Launch → Launch) : (modLaunch p id f).swIn = p.swIn := rfl
@[simp] theorem modLaunch_wg (id : Nat) (f : Launch → Launch) : (modLaunch p id f).wg = p.wg := rfl
@[simp] theorem modLaunch_rswitch (id : Nat) (f : Launch → Launch) : (modLaunch p id f).rswitch = p.rswitch := rfl
@[simp] theorem modLaunch_handoffs (id : Nat) (f : Launch → Launch) : (modLaunch p id f).handoffs = p.handoffs := rfl
@[simp] theorem modLaunch_hostOut (id : Nat) (f : Launch → Launch) : (modLaunch p id f).hostOut = p.hostOut := rfl
@[simp] theorem modLaunch_fwd (id : Nat) (f : Launch → Launch) : (modLaunch p id f).fwd = p.fwd := rfl
@[simp] theorem modLaunch_combOut (id : Nat) (f : Launch → Launch) : (modLaunch p id f).combOut = p.combOut := rfl
@[simp] theorem modLaunch_mgmt (id : Nat) (f : Launch → Launch) : (modLaunch p id f).mgmt = p.mgmt := rfl
@[simp] theorem modLaunch_lasers (id : Nat) (f : Launch → Launch) : (modLaunch p id f).lasers = p.lasers := rfl
@[simp] theorem modLaunch_repairs (id : Nat) (f : Launch → Launch) : (modLaunch p id f).repairs = p.repairs := rfl
@[simp] theorem modLaunch_active (id : Nat) (f : Launch → Launch) : (modLaunch p id f).active = p.active := rfl
@[simp] theorem modLaunch_protos (id : Nat) (f : Launch → Launch) : (modLaunch p id f).protos = p.protos := rfl
@[simp] theorem modLaunch_den (id : Nat) (f : Launch → Launch) : (modLaunch p id f).den = p.den := rfl
@[simp] theorem modLaunch_time (id : Nat) (f : Launch → Launch) : (modLaunch p id f).time = p.time := rfl
@[simp] theorem modLaunch_health (id : Nat) (f : Launch → Launch) : (modLaunch p id f).health = p.health := rfl

/-! `storeLog` changes `store` -/

@[simp] theorem storeLog_cfg (e : List Byte) : (storeLog p e).cfg = p.cfg := rfl
@[simp] theorem storeLog_fv (e : List Byte) : (storeLog p e).fv = p.fv := rfl
@[simp] theorem storeLog_since (e : List Byte) : (storeLog p e).since = p.since := rfl
@[simp] theorem storeLog_mem (e : List Byte) : (storeLog p e).mem = p.mem := rfl
@[simp] theorem storeLog_fresh (e : List Byte) : (storeLog p e).fresh = p.fresh := rfl
@[simp] theorem storeLog_host (e : List Byte) : (storeLog p e).host = p.host := rfl
@[simp] theorem storeLog_badLines (e : List Byte) : (storeLog p e).badLines = p.badLines := rfl
@[simp] theorem storeLog_ceLines (e : List Byte) : (storeLog p e).ceLines = p.ceLines := rfl
@[simp] theorem storeLog_ceOwed (e : List Byte) : (storeLog p e).ceOwed = p.ceOwed := rfl
@[simp] theorem storeLog_ceCount (e : List Byte) : (storeLog p e).ceCount = p.ceCount := rfl
@[simp] theorem storeLog_cqUsed (e : List Byte) : (storeLog p e).cqUsed = p.cqUsed := rfl
@[simp] theorem storeLog_turns (e : List Byte) : (storeLog p e).turns = p.turns := rfl
@[simp] theorem storeLog_regs (e : List Byte) : (storeLog p e).regs = p.regs := rfl
@[simp] theorem storeLog_latch (e : List Byte) : (storeLog p e).latch = p.latch := rfl
@[simp] theorem storeLog_punits (e : List Byte) : (storeLog p e).punits = p.punits := rfl
@[simp] theorem storeLog_tiles (e : List Byte) : (storeLog p e).tiles = p.tiles := rfl
@[simp] theorem storeLog_queues (e : List Byte) : (storeLog p e).queues = p.queues := rfl
@[simp] theorem storeLog_buckets (e : List Byte) : (storeLog p e).buckets = p.buckets := rfl
@[simp] theorem storeLog_passed (e : List Byte) : (storeLog p e).passed = p.passed := rfl
@[simp] theorem storeLog_gates (e : List Byte) : (storeLog p e).gates = p.gates := rfl
@[simp] theorem storeLog_nextGate (e : List Byte) : (storeLog p e).nextGate = p.nextGate := rfl
@[simp] theorem storeLog_wc (e : List Byte) : (storeLog p e).wc = p.wc := rfl
@[simp] theorem storeLog_ctxs (e : List Byte) : (storeLog p e).ctxs = p.ctxs := rfl
@[simp] theorem storeLog_outs (e : List Byte) : (storeLog p e).outs = p.outs := rfl
@[simp] theorem storeLog_resps (e : List Byte) : (storeLog p e).resps = p.resps := rfl
@[simp] theorem storeLog_answers (e : List Byte) : (storeLog p e).answers = p.answers := rfl
@[simp] theorem storeLog_wire (e : List Byte) : (storeLog p e).wire = p.wire := rfl
@[simp] theorem storeLog_ports (e : List Byte) : (storeLog p e).ports = p.ports := rfl
@[simp] theorem storeLog_plans (e : List Byte) : (storeLog p e).plans = p.plans := rfl
@[simp] theorem storeLog_ops (e : List Byte) : (storeLog p e).ops = p.ops := rfl
@[simp] theorem storeLog_nextOp (e : List Byte) : (storeLog p e).nextOp = p.nextOp := rfl
@[simp] theorem storeLog_launches (e : List Byte) : (storeLog p e).launches = p.launches := rfl
@[simp] theorem storeLog_ledger (e : List Byte) : (storeLog p e).ledger = p.ledger := rfl
@[simp] theorem storeLog_placed (e : List Byte) : (storeLog p e).placed = p.placed := rfl
@[simp] theorem storeLog_nextPlaced (e : List Byte) : (storeLog p e).nextPlaced = p.nextPlaced := rfl
@[simp] theorem storeLog_cores (e : List Byte) : (storeLog p e).cores = p.cores := rfl
@[simp] theorem storeLog_excs (e : List Byte) : (storeLog p e).excs = p.excs := rfl
@[simp] theorem storeLog_jobs (e : List Byte) : (storeLog p e).jobs = p.jobs := rfl
@[simp] theorem storeLog_nextJob (e : List Byte) : (storeLog p e).nextJob = p.nextJob := rfl
@[simp] theorem storeLog_pins (e : List Byte) : (storeLog p e).pins = p.pins := rfl
@[simp] theorem storeLog_xfer (e : List Byte) : (storeLog p e).xfer = p.xfer := rfl
@[simp] theorem storeLog_ctxReset (e : List Byte) : (storeLog p e).ctxReset = p.ctxReset := rfl
@[simp] theorem storeLog_regTick (e : List Byte) : (storeLog p e).regTick = p.regTick := rfl
@[simp] theorem storeLog_patrol (e : List Byte) : (storeLog p e).patrol = p.patrol := rfl
@[simp] theorem storeLog_ceSeen (e : List Byte) : (storeLog p e).ceSeen = p.ceSeen := rfl
@[simp] theorem storeLog_swops (e : List Byte) : (storeLog p e).swops = p.swops := rfl
@[simp] theorem storeLog_nextSw (e : List Byte) : (storeLog p e).nextSw = p.nextSw := rfl
@[simp] theorem storeLog_swIn (e : List Byte) : (storeLog p e).swIn = p.swIn := rfl
@[simp] theorem storeLog_wg (e : List Byte) : (storeLog p e).wg = p.wg := rfl
@[simp] theorem storeLog_rswitch (e : List Byte) : (storeLog p e).rswitch = p.rswitch := rfl
@[simp] theorem storeLog_handoffs (e : List Byte) : (storeLog p e).handoffs = p.handoffs := rfl
@[simp] theorem storeLog_hostOut (e : List Byte) : (storeLog p e).hostOut = p.hostOut := rfl
@[simp] theorem storeLog_fwd (e : List Byte) : (storeLog p e).fwd = p.fwd := rfl
@[simp] theorem storeLog_combOut (e : List Byte) : (storeLog p e).combOut = p.combOut := rfl
@[simp] theorem storeLog_mgmt (e : List Byte) : (storeLog p e).mgmt = p.mgmt := rfl
@[simp] theorem storeLog_lasers (e : List Byte) : (storeLog p e).lasers = p.lasers := rfl
@[simp] theorem storeLog_repairs (e : List Byte) : (storeLog p e).repairs = p.repairs := rfl
@[simp] theorem storeLog_active (e : List Byte) : (storeLog p e).active = p.active := rfl
@[simp] theorem storeLog_protos (e : List Byte) : (storeLog p e).protos = p.protos := rfl
@[simp] theorem storeLog_den (e : List Byte) : (storeLog p e).den = p.den := rfl
@[simp] theorem storeLog_time (e : List Byte) : (storeLog p e).time = p.time := rfl
@[simp] theorem storeLog_health (e : List Byte) : (storeLog p e).health = p.health := rfl

/-! `dropOp` changes `ops` -/

@[simp] theorem dropOp_cfg (id : Nat) : (dropOp p id).cfg = p.cfg := rfl
@[simp] theorem dropOp_fv (id : Nat) : (dropOp p id).fv = p.fv := rfl
@[simp] theorem dropOp_since (id : Nat) : (dropOp p id).since = p.since := rfl
@[simp] theorem dropOp_mem (id : Nat) : (dropOp p id).mem = p.mem := rfl
@[simp] theorem dropOp_fresh (id : Nat) : (dropOp p id).fresh = p.fresh := rfl
@[simp] theorem dropOp_host (id : Nat) : (dropOp p id).host = p.host := rfl
@[simp] theorem dropOp_badLines (id : Nat) : (dropOp p id).badLines = p.badLines := rfl
@[simp] theorem dropOp_ceLines (id : Nat) : (dropOp p id).ceLines = p.ceLines := rfl
@[simp] theorem dropOp_ceOwed (id : Nat) : (dropOp p id).ceOwed = p.ceOwed := rfl
@[simp] theorem dropOp_ceCount (id : Nat) : (dropOp p id).ceCount = p.ceCount := rfl
@[simp] theorem dropOp_cqUsed (id : Nat) : (dropOp p id).cqUsed = p.cqUsed := rfl
@[simp] theorem dropOp_turns (id : Nat) : (dropOp p id).turns = p.turns := rfl
@[simp] theorem dropOp_regs (id : Nat) : (dropOp p id).regs = p.regs := rfl
@[simp] theorem dropOp_latch (id : Nat) : (dropOp p id).latch = p.latch := rfl
@[simp] theorem dropOp_punits (id : Nat) : (dropOp p id).punits = p.punits := rfl
@[simp] theorem dropOp_tiles (id : Nat) : (dropOp p id).tiles = p.tiles := rfl
@[simp] theorem dropOp_queues (id : Nat) : (dropOp p id).queues = p.queues := rfl
@[simp] theorem dropOp_buckets (id : Nat) : (dropOp p id).buckets = p.buckets := rfl
@[simp] theorem dropOp_passed (id : Nat) : (dropOp p id).passed = p.passed := rfl
@[simp] theorem dropOp_gates (id : Nat) : (dropOp p id).gates = p.gates := rfl
@[simp] theorem dropOp_nextGate (id : Nat) : (dropOp p id).nextGate = p.nextGate := rfl
@[simp] theorem dropOp_wc (id : Nat) : (dropOp p id).wc = p.wc := rfl
@[simp] theorem dropOp_ctxs (id : Nat) : (dropOp p id).ctxs = p.ctxs := rfl
@[simp] theorem dropOp_outs (id : Nat) : (dropOp p id).outs = p.outs := rfl
@[simp] theorem dropOp_resps (id : Nat) : (dropOp p id).resps = p.resps := rfl
@[simp] theorem dropOp_answers (id : Nat) : (dropOp p id).answers = p.answers := rfl
@[simp] theorem dropOp_wire (id : Nat) : (dropOp p id).wire = p.wire := rfl
@[simp] theorem dropOp_ports (id : Nat) : (dropOp p id).ports = p.ports := rfl
@[simp] theorem dropOp_plans (id : Nat) : (dropOp p id).plans = p.plans := rfl
@[simp] theorem dropOp_nextOp (id : Nat) : (dropOp p id).nextOp = p.nextOp := rfl
@[simp] theorem dropOp_launches (id : Nat) : (dropOp p id).launches = p.launches := rfl
@[simp] theorem dropOp_ledger (id : Nat) : (dropOp p id).ledger = p.ledger := rfl
@[simp] theorem dropOp_placed (id : Nat) : (dropOp p id).placed = p.placed := rfl
@[simp] theorem dropOp_nextPlaced (id : Nat) : (dropOp p id).nextPlaced = p.nextPlaced := rfl
@[simp] theorem dropOp_cores (id : Nat) : (dropOp p id).cores = p.cores := rfl
@[simp] theorem dropOp_excs (id : Nat) : (dropOp p id).excs = p.excs := rfl
@[simp] theorem dropOp_jobs (id : Nat) : (dropOp p id).jobs = p.jobs := rfl
@[simp] theorem dropOp_nextJob (id : Nat) : (dropOp p id).nextJob = p.nextJob := rfl
@[simp] theorem dropOp_store (id : Nat) : (dropOp p id).store = p.store := rfl
@[simp] theorem dropOp_pins (id : Nat) : (dropOp p id).pins = p.pins := rfl
@[simp] theorem dropOp_xfer (id : Nat) : (dropOp p id).xfer = p.xfer := rfl
@[simp] theorem dropOp_ctxReset (id : Nat) : (dropOp p id).ctxReset = p.ctxReset := rfl
@[simp] theorem dropOp_regTick (id : Nat) : (dropOp p id).regTick = p.regTick := rfl
@[simp] theorem dropOp_patrol (id : Nat) : (dropOp p id).patrol = p.patrol := rfl
@[simp] theorem dropOp_ceSeen (id : Nat) : (dropOp p id).ceSeen = p.ceSeen := rfl
@[simp] theorem dropOp_swops (id : Nat) : (dropOp p id).swops = p.swops := rfl
@[simp] theorem dropOp_nextSw (id : Nat) : (dropOp p id).nextSw = p.nextSw := rfl
@[simp] theorem dropOp_swIn (id : Nat) : (dropOp p id).swIn = p.swIn := rfl
@[simp] theorem dropOp_wg (id : Nat) : (dropOp p id).wg = p.wg := rfl
@[simp] theorem dropOp_rswitch (id : Nat) : (dropOp p id).rswitch = p.rswitch := rfl
@[simp] theorem dropOp_handoffs (id : Nat) : (dropOp p id).handoffs = p.handoffs := rfl
@[simp] theorem dropOp_hostOut (id : Nat) : (dropOp p id).hostOut = p.hostOut := rfl
@[simp] theorem dropOp_fwd (id : Nat) : (dropOp p id).fwd = p.fwd := rfl
@[simp] theorem dropOp_combOut (id : Nat) : (dropOp p id).combOut = p.combOut := rfl
@[simp] theorem dropOp_mgmt (id : Nat) : (dropOp p id).mgmt = p.mgmt := rfl
@[simp] theorem dropOp_lasers (id : Nat) : (dropOp p id).lasers = p.lasers := rfl
@[simp] theorem dropOp_repairs (id : Nat) : (dropOp p id).repairs = p.repairs := rfl
@[simp] theorem dropOp_active (id : Nat) : (dropOp p id).active = p.active := rfl
@[simp] theorem dropOp_protos (id : Nat) : (dropOp p id).protos = p.protos := rfl
@[simp] theorem dropOp_den (id : Nat) : (dropOp p id).den = p.den := rfl
@[simp] theorem dropOp_time (id : Nat) : (dropOp p id).time = p.time := rfl
@[simp] theorem dropOp_health (id : Nat) : (dropOp p id).health = p.health := rfl

/-! `hostEntry` changes `host` -/

@[simp] theorem hostEntry_cfg (r a : Nat) (bs : List Byte) : (hostEntry p r a bs).cfg = p.cfg := rfl
@[simp] theorem hostEntry_fv (r a : Nat) (bs : List Byte) : (hostEntry p r a bs).fv = p.fv := rfl
@[simp] theorem hostEntry_since (r a : Nat) (bs : List Byte) : (hostEntry p r a bs).since = p.since := rfl
@[simp] theorem hostEntry_mem (r a : Nat) (bs : List Byte) : (hostEntry p r a bs).mem = p.mem := rfl
@[simp] theorem hostEntry_fresh (r a : Nat) (bs : List Byte) : (hostEntry p r a bs).fresh = p.fresh := rfl
@[simp] theorem hostEntry_badLines (r a : Nat) (bs : List Byte) : (hostEntry p r a bs).badLines = p.badLines := rfl
@[simp] theorem hostEntry_ceLines (r a : Nat) (bs : List Byte) : (hostEntry p r a bs).ceLines = p.ceLines := rfl
@[simp] theorem hostEntry_ceOwed (r a : Nat) (bs : List Byte) : (hostEntry p r a bs).ceOwed = p.ceOwed := rfl
@[simp] theorem hostEntry_ceCount (r a : Nat) (bs : List Byte) : (hostEntry p r a bs).ceCount = p.ceCount := rfl
@[simp] theorem hostEntry_turns (r a : Nat) (bs : List Byte) : (hostEntry p r a bs).turns = p.turns := rfl
@[simp] theorem hostEntry_regs (r a : Nat) (bs : List Byte) : (hostEntry p r a bs).regs = p.regs := rfl
@[simp] theorem hostEntry_latch (r a : Nat) (bs : List Byte) : (hostEntry p r a bs).latch = p.latch := rfl
@[simp] theorem hostEntry_punits (r a : Nat) (bs : List Byte) : (hostEntry p r a bs).punits = p.punits := rfl
@[simp] theorem hostEntry_tiles (r a : Nat) (bs : List Byte) : (hostEntry p r a bs).tiles = p.tiles := rfl
@[simp] theorem hostEntry_queues (r a : Nat) (bs : List Byte) : (hostEntry p r a bs).queues = p.queues := rfl
@[simp] theorem hostEntry_buckets (r a : Nat) (bs : List Byte) : (hostEntry p r a bs).buckets = p.buckets := rfl
@[simp] theorem hostEntry_passed (r a : Nat) (bs : List Byte) : (hostEntry p r a bs).passed = p.passed := rfl
@[simp] theorem hostEntry_gates (r a : Nat) (bs : List Byte) : (hostEntry p r a bs).gates = p.gates := rfl
@[simp] theorem hostEntry_nextGate (r a : Nat) (bs : List Byte) : (hostEntry p r a bs).nextGate = p.nextGate := rfl
@[simp] theorem hostEntry_wc (r a : Nat) (bs : List Byte) : (hostEntry p r a bs).wc = p.wc := rfl
@[simp] theorem hostEntry_ctxs (r a : Nat) (bs : List Byte) : (hostEntry p r a bs).ctxs = p.ctxs := rfl
@[simp] theorem hostEntry_outs (r a : Nat) (bs : List Byte) : (hostEntry p r a bs).outs = p.outs := rfl
@[simp] theorem hostEntry_resps (r a : Nat) (bs : List Byte) : (hostEntry p r a bs).resps = p.resps := rfl
@[simp] theorem hostEntry_answers (r a : Nat) (bs : List Byte) : (hostEntry p r a bs).answers = p.answers := rfl
@[simp] theorem hostEntry_wire (r a : Nat) (bs : List Byte) : (hostEntry p r a bs).wire = p.wire := rfl
@[simp] theorem hostEntry_ports (r a : Nat) (bs : List Byte) : (hostEntry p r a bs).ports = p.ports := rfl
@[simp] theorem hostEntry_plans (r a : Nat) (bs : List Byte) : (hostEntry p r a bs).plans = p.plans := rfl
@[simp] theorem hostEntry_ops (r a : Nat) (bs : List Byte) : (hostEntry p r a bs).ops = p.ops := rfl
@[simp] theorem hostEntry_nextOp (r a : Nat) (bs : List Byte) : (hostEntry p r a bs).nextOp = p.nextOp := rfl
@[simp] theorem hostEntry_launches (r a : Nat) (bs : List Byte) : (hostEntry p r a bs).launches = p.launches := rfl
@[simp] theorem hostEntry_ledger (r a : Nat) (bs : List Byte) : (hostEntry p r a bs).ledger = p.ledger := rfl
@[simp] theorem hostEntry_placed (r a : Nat) (bs : List Byte) : (hostEntry p r a bs).placed = p.placed := rfl
@[simp] theorem hostEntry_nextPlaced (r a : Nat) (bs : List Byte) : (hostEntry p r a bs).nextPlaced = p.nextPlaced := rfl
@[simp] theorem hostEntry_cores (r a : Nat) (bs : List Byte) : (hostEntry p r a bs).cores = p.cores := rfl
@[simp] theorem hostEntry_excs (r a : Nat) (bs : List Byte) : (hostEntry p r a bs).excs = p.excs := rfl
@[simp] theorem hostEntry_jobs (r a : Nat) (bs : List Byte) : (hostEntry p r a bs).jobs = p.jobs := rfl
@[simp] theorem hostEntry_nextJob (r a : Nat) (bs : List Byte) : (hostEntry p r a bs).nextJob = p.nextJob := rfl
@[simp] theorem hostEntry_store (r a : Nat) (bs : List Byte) : (hostEntry p r a bs).store = p.store := rfl
@[simp] theorem hostEntry_pins (r a : Nat) (bs : List Byte) : (hostEntry p r a bs).pins = p.pins := rfl
@[simp] theorem hostEntry_xfer (r a : Nat) (bs : List Byte) : (hostEntry p r a bs).xfer = p.xfer := rfl
@[simp] theorem hostEntry_ctxReset (r a : Nat) (bs : List Byte) : (hostEntry p r a bs).ctxReset = p.ctxReset := rfl
@[simp] theorem hostEntry_regTick (r a : Nat) (bs : List Byte) : (hostEntry p r a bs).regTick = p.regTick := rfl
@[simp] theorem hostEntry_patrol (r a : Nat) (bs : List Byte) : (hostEntry p r a bs).patrol = p.patrol := rfl
@[simp] theorem hostEntry_ceSeen (r a : Nat) (bs : List Byte) : (hostEntry p r a bs).ceSeen = p.ceSeen := rfl
@[simp] theorem hostEntry_swops (r a : Nat) (bs : List Byte) : (hostEntry p r a bs).swops = p.swops := rfl
@[simp] theorem hostEntry_nextSw (r a : Nat) (bs : List Byte) : (hostEntry p r a bs).nextSw = p.nextSw := rfl
@[simp] theorem hostEntry_swIn (r a : Nat) (bs : List Byte) : (hostEntry p r a bs).swIn = p.swIn := rfl
@[simp] theorem hostEntry_wg (r a : Nat) (bs : List Byte) : (hostEntry p r a bs).wg = p.wg := rfl
@[simp] theorem hostEntry_rswitch (r a : Nat) (bs : List Byte) : (hostEntry p r a bs).rswitch = p.rswitch := rfl
@[simp] theorem hostEntry_handoffs (r a : Nat) (bs : List Byte) : (hostEntry p r a bs).handoffs = p.handoffs := rfl
@[simp] theorem hostEntry_hostOut (r a : Nat) (bs : List Byte) : (hostEntry p r a bs).hostOut = p.hostOut := rfl
@[simp] theorem hostEntry_fwd (r a : Nat) (bs : List Byte) : (hostEntry p r a bs).fwd = p.fwd := rfl
@[simp] theorem hostEntry_combOut (r a : Nat) (bs : List Byte) : (hostEntry p r a bs).combOut = p.combOut := rfl
@[simp] theorem hostEntry_mgmt (r a : Nat) (bs : List Byte) : (hostEntry p r a bs).mgmt = p.mgmt := rfl
@[simp] theorem hostEntry_lasers (r a : Nat) (bs : List Byte) : (hostEntry p r a bs).lasers = p.lasers := rfl
@[simp] theorem hostEntry_repairs (r a : Nat) (bs : List Byte) : (hostEntry p r a bs).repairs = p.repairs := rfl
@[simp] theorem hostEntry_active (r a : Nat) (bs : List Byte) : (hostEntry p r a bs).active = p.active := rfl
@[simp] theorem hostEntry_protos (r a : Nat) (bs : List Byte) : (hostEntry p r a bs).protos = p.protos := rfl
@[simp] theorem hostEntry_den (r a : Nat) (bs : List Byte) : (hostEntry p r a bs).den = p.den := rfl
@[simp] theorem hostEntry_time (r a : Nat) (bs : List Byte) : (hostEntry p r a bs).time = p.time := rfl
@[simp] theorem hostEntry_health (r a : Nat) (bs : List Byte) : (hostEntry p r a bs).health = p.health := rfl

/-! `busReply` changes `pins` -/

@[simp] theorem busReply_cfg (l : List Byte) : (busReply p l).cfg = p.cfg := rfl
@[simp] theorem busReply_fv (l : List Byte) : (busReply p l).fv = p.fv := rfl
@[simp] theorem busReply_since (l : List Byte) : (busReply p l).since = p.since := rfl
@[simp] theorem busReply_mem (l : List Byte) : (busReply p l).mem = p.mem := rfl
@[simp] theorem busReply_fresh (l : List Byte) : (busReply p l).fresh = p.fresh := rfl
@[simp] theorem busReply_host (l : List Byte) : (busReply p l).host = p.host := rfl
@[simp] theorem busReply_badLines (l : List Byte) : (busReply p l).badLines = p.badLines := rfl
@[simp] theorem busReply_ceLines (l : List Byte) : (busReply p l).ceLines = p.ceLines := rfl
@[simp] theorem busReply_ceOwed (l : List Byte) : (busReply p l).ceOwed = p.ceOwed := rfl
@[simp] theorem busReply_ceCount (l : List Byte) : (busReply p l).ceCount = p.ceCount := rfl
@[simp] theorem busReply_cqUsed (l : List Byte) : (busReply p l).cqUsed = p.cqUsed := rfl
@[simp] theorem busReply_turns (l : List Byte) : (busReply p l).turns = p.turns := rfl
@[simp] theorem busReply_regs (l : List Byte) : (busReply p l).regs = p.regs := rfl
@[simp] theorem busReply_latch (l : List Byte) : (busReply p l).latch = p.latch := rfl
@[simp] theorem busReply_punits (l : List Byte) : (busReply p l).punits = p.punits := rfl
@[simp] theorem busReply_tiles (l : List Byte) : (busReply p l).tiles = p.tiles := rfl
@[simp] theorem busReply_queues (l : List Byte) : (busReply p l).queues = p.queues := rfl
@[simp] theorem busReply_buckets (l : List Byte) : (busReply p l).buckets = p.buckets := rfl
@[simp] theorem busReply_passed (l : List Byte) : (busReply p l).passed = p.passed := rfl
@[simp] theorem busReply_gates (l : List Byte) : (busReply p l).gates = p.gates := rfl
@[simp] theorem busReply_nextGate (l : List Byte) : (busReply p l).nextGate = p.nextGate := rfl
@[simp] theorem busReply_wc (l : List Byte) : (busReply p l).wc = p.wc := rfl
@[simp] theorem busReply_ctxs (l : List Byte) : (busReply p l).ctxs = p.ctxs := rfl
@[simp] theorem busReply_outs (l : List Byte) : (busReply p l).outs = p.outs := rfl
@[simp] theorem busReply_resps (l : List Byte) : (busReply p l).resps = p.resps := rfl
@[simp] theorem busReply_answers (l : List Byte) : (busReply p l).answers = p.answers := rfl
@[simp] theorem busReply_wire (l : List Byte) : (busReply p l).wire = p.wire := rfl
@[simp] theorem busReply_ports (l : List Byte) : (busReply p l).ports = p.ports := rfl
@[simp] theorem busReply_plans (l : List Byte) : (busReply p l).plans = p.plans := rfl
@[simp] theorem busReply_ops (l : List Byte) : (busReply p l).ops = p.ops := rfl
@[simp] theorem busReply_nextOp (l : List Byte) : (busReply p l).nextOp = p.nextOp := rfl
@[simp] theorem busReply_launches (l : List Byte) : (busReply p l).launches = p.launches := rfl
@[simp] theorem busReply_ledger (l : List Byte) : (busReply p l).ledger = p.ledger := rfl
@[simp] theorem busReply_placed (l : List Byte) : (busReply p l).placed = p.placed := rfl
@[simp] theorem busReply_nextPlaced (l : List Byte) : (busReply p l).nextPlaced = p.nextPlaced := rfl
@[simp] theorem busReply_cores (l : List Byte) : (busReply p l).cores = p.cores := rfl
@[simp] theorem busReply_excs (l : List Byte) : (busReply p l).excs = p.excs := rfl
@[simp] theorem busReply_jobs (l : List Byte) : (busReply p l).jobs = p.jobs := rfl
@[simp] theorem busReply_nextJob (l : List Byte) : (busReply p l).nextJob = p.nextJob := rfl
@[simp] theorem busReply_store (l : List Byte) : (busReply p l).store = p.store := rfl
@[simp] theorem busReply_xfer (l : List Byte) : (busReply p l).xfer = p.xfer := rfl
@[simp] theorem busReply_ctxReset (l : List Byte) : (busReply p l).ctxReset = p.ctxReset := rfl
@[simp] theorem busReply_regTick (l : List Byte) : (busReply p l).regTick = p.regTick := rfl
@[simp] theorem busReply_patrol (l : List Byte) : (busReply p l).patrol = p.patrol := rfl
@[simp] theorem busReply_ceSeen (l : List Byte) : (busReply p l).ceSeen = p.ceSeen := rfl
@[simp] theorem busReply_swops (l : List Byte) : (busReply p l).swops = p.swops := rfl
@[simp] theorem busReply_nextSw (l : List Byte) : (busReply p l).nextSw = p.nextSw := rfl
@[simp] theorem busReply_swIn (l : List Byte) : (busReply p l).swIn = p.swIn := rfl
@[simp] theorem busReply_wg (l : List Byte) : (busReply p l).wg = p.wg := rfl
@[simp] theorem busReply_rswitch (l : List Byte) : (busReply p l).rswitch = p.rswitch := rfl
@[simp] theorem busReply_handoffs (l : List Byte) : (busReply p l).handoffs = p.handoffs := rfl
@[simp] theorem busReply_hostOut (l : List Byte) : (busReply p l).hostOut = p.hostOut := rfl
@[simp] theorem busReply_fwd (l : List Byte) : (busReply p l).fwd = p.fwd := rfl
@[simp] theorem busReply_combOut (l : List Byte) : (busReply p l).combOut = p.combOut := rfl
@[simp] theorem busReply_mgmt (l : List Byte) : (busReply p l).mgmt = p.mgmt := rfl
@[simp] theorem busReply_lasers (l : List Byte) : (busReply p l).lasers = p.lasers := rfl
@[simp] theorem busReply_repairs (l : List Byte) : (busReply p l).repairs = p.repairs := rfl
@[simp] theorem busReply_active (l : List Byte) : (busReply p l).active = p.active := rfl
@[simp] theorem busReply_protos (l : List Byte) : (busReply p l).protos = p.protos := rfl
@[simp] theorem busReply_den (l : List Byte) : (busReply p l).den = p.den := rfl
@[simp] theorem busReply_time (l : List Byte) : (busReply p l).time = p.time := rfl
@[simp] theorem busReply_health (l : List Byte) : (busReply p l).health = p.health := rfl

end Sys2Proof.Machine
end

