-- ==== Sys2Proof/Laws/Regs.lean ====
section
/-! SUPPORT. Laws of register words and of their fields: what is read after a write. -/

namespace Sys2Proof.Machine

/-! Fields of a number -/

theorem setBits_mod (w hi lo v : Nat) : setBits w hi lo v % 2 ^ lo = w % 2 ^ lo ∨ hi < lo := by
  by_cases h : hi < lo
  · exact .inr h
  · left
    have e : 2 ^ (hi + 1) = 2 ^ lo * 2 ^ (hi + 1 - lo) := by rw [← Nat.pow_add]; congr 1; omega
    unfold setBits
    rw [e]
    generalize v % 2 ^ (hi + 1 - lo) = x
    generalize w >>> (hi + 1) = y
    generalize 2 ^ (hi + 1 - lo) = M
    have : w % 2 ^ lo + x * 2 ^ lo + y * (2 ^ lo * M) = w % 2 ^ lo + 2 ^ lo * (x + y * M) := by ring
    rw [this, Nat.add_mul_mod_self_left, Nat.mod_mod]

theorem setBits_div (w hi lo v : Nat) (h : lo ≤ hi) : setBits w hi lo v / 2 ^ (hi + 1) = w / 2 ^ (hi + 1) := by
  have e : 2 ^ (hi + 1) = 2 ^ lo * 2 ^ (hi + 1 - lo) := by rw [← Nat.pow_add]; congr 1; omega
  unfold setBits
  rw [Nat.shiftRight_eq_div_pow]
  have hx : v % 2 ^ (hi + 1 - lo) < 2 ^ (hi + 1 - lo) := Nat.mod_lt _ (Nat.two_pow_pos _)
  have hl : w % 2 ^ lo < 2 ^ lo := Nat.mod_lt _ (Nat.two_pow_pos _)
  have hlt : w % 2 ^ lo + v % 2 ^ (hi + 1 - lo) * 2 ^ lo < 2 ^ (hi + 1) := by
    rw [e]
    have : (v % 2 ^ (hi + 1 - lo) + 1) * 2 ^ lo ≤ 2 ^ (hi + 1 - lo) * 2 ^ lo := Nat.mul_le_mul_right _ hx
    nlinarith
  rw [Nat.add_mul_div_right _ _ (Nat.two_pow_pos _), Nat.div_eq_of_lt hlt, Nat.zero_add]

/-- The field that was set. -/
theorem bits_setBits (w hi lo v : Nat) (h : lo ≤ hi) : bits (setBits w hi lo v) hi lo = v % 2 ^ (hi + 1 - lo) := by
  have e : 2 ^ (hi + 1) = 2 ^ (hi + 1 - lo) * 2 ^ lo := by rw [← Nat.pow_add]; congr 1; omega
  unfold bits setBits
  rw [Nat.shiftRight_eq_div_pow, e]
  generalize w >>> (hi + 1) = y
  have : w % 2 ^ lo + v % 2 ^ (hi + 1 - lo) * 2 ^ lo + y * (2 ^ (hi + 1 - lo) * 2 ^ lo)
      = w % 2 ^ lo + (v % 2 ^ (hi + 1 - lo) + y * 2 ^ (hi + 1 - lo)) * 2 ^ lo := by ring
  rw [this, Nat.add_mul_div_right _ _ (Nat.two_pow_pos _), Nat.div_eq_of_lt (Nat.mod_lt _ (Nat.two_pow_pos _)), Nat.zero_add,
    Nat.add_mul_mod_self_right, Nat.mod_mod]

/-- A field below a power of two depends on the number's low bits only. -/
theorem bits_mod (n hi lo k : Nat) (h : hi < k) (hl : lo ≤ hi) : bits (n % 2 ^ k) hi lo = bits n hi lo := by
  unfold bits
  rw [Nat.shiftRight_eq_div_pow, Nat.shiftRight_eq_div_pow]
  have e : 2 ^ k = 2 ^ lo * (2 ^ (hi + 1 - lo) * 2 ^ (k - hi - 1)) := by
    rw [← Nat.pow_add, ← Nat.pow_add]; congr 1; omega
  rw [e, Nat.mod_mul_right_div_self, Nat.mod_mul_right_mod]

/-- A field above a position depends on the high bits only. -/
theorem bits_div (n hi lo k : Nat) (h : k ≤ lo) (hl : lo ≤ hi) : bits n hi lo = bits (n / 2 ^ k) (hi - k) (lo - k) := by
  unfold bits
  rw [Nat.shiftRight_eq_div_pow, Nat.shiftRight_eq_div_pow, Nat.div_div_eq_div_mul, ← Nat.pow_add,
    show k + (lo - k) = lo by omega, show hi - k + 1 - (lo - k) = hi + 1 - lo by omega]

/-- Another field stays. -/
theorem bits_setBits_other (w hi lo v hi' lo' : Nat) (h : lo ≤ hi) (h' : lo' ≤ hi') (hd : hi' < lo ∨ hi < lo') :
    bits (setBits w hi lo v) hi' lo' = bits w hi' lo' := by
  rcases hd with hd | hd
  · rw [← bits_mod _ hi' lo' lo hd h', ← bits_mod w hi' lo' lo hd h']
    rcases setBits_mod w hi lo v with e | e
    · rw [e]
    · omega
  · rw [bits_div _ hi' lo' (hi + 1) (by omega) h', bits_div w hi' lo' (hi + 1) (by omega) h', setBits_div _ _ _ _ h]

theorem setBits_lt (w hi lo v n : Nat) (h : lo ≤ hi) (hn : hi < n) (hw : w < 2 ^ n) : setBits w hi lo v < 2 ^ n := by
  have e : 2 ^ n = 2 ^ (hi + 1) * 2 ^ (n - hi - 1) := by rw [← Nat.pow_add]; congr 1; omega
  have h1 : setBits w hi lo v / 2 ^ (hi + 1) < 2 ^ (n - hi - 1) := by
    rw [setBits_div _ _ _ _ h]
    exact Nat.div_lt_of_lt_mul (by rw [← e]; exact hw)
  rw [e, Nat.mul_comm]
  exact (Nat.div_lt_iff_lt_mul (Nat.two_pow_pos _)).mp h1

theorem bit_eq_bits (n i : Nat) : bit n i = (bits n i i == 1) := by
  unfold bit bits
  simp

theorem b2n_bit (b : Bool) : (b2n b % 2 ^ 1 == 1) = b := by cases b <;> rfl

/-! Register words -/

theorem rget_lt (p : Pkg) (o : Nat) : rget p o < 2 ^ 32 := (sget p.regs o _).isLt

@[simp] theorem rget_rset_self (p : Pkg) (o v : Nat) : rget (rset p o v) o = v % 2 ^ 32 := by
  simp [rget, rset, BitVec.toNat_ofNat]

theorem rget_rset_ne (p : Pkg) {o o' : Nat} (v : Nat) (h : o' ≠ o) : rget (rset p o v) o' = rget p o' := by
  simp [rget, rset, sget_sset_ne _ _ _ h]

theorem rget_rset (p : Pkg) (o o' v : Nat) : rget (rset p o v) o' = if o' = o then v % 2 ^ 32 else rget p o' := by
  split
  · rename_i h; subst h; simp
  · rename_i h; exact rget_rset_ne p v h

theorem rget_rsetf_ne (p : Pkg) {o o' : Nat} (hi lo v : Nat) (h : o' ≠ o) : rget (rsetf p o hi lo v) o' = rget p o' :=
  rget_rset_ne p _ h

theorem rget_rsetb_ne (p : Pkg) {o o' : Nat} (i : Nat) (b : Bool) (h : o' ≠ o) : rget (rsetb p o i b) o' = rget p o' :=
  rget_rset_ne p _ h

theorem rget_rsetf_self (p : Pkg) (o hi lo v : Nat) (h : lo ≤ hi) (hn : hi < 32) :
    rget (rsetf p o hi lo v) o = setBits (rget p o) hi lo v := by
  rw [rsetf, rget_rset_self, Nat.mod_eq_of_lt (setBits_lt _ _ _ _ _ h hn (rget_lt p o))]

theorem rfld_rsetf_self (p : Pkg) (o hi lo v : Nat) (h : lo ≤ hi) (hn : hi < 32) :
    rfld (rsetf p o hi lo v) o hi lo = v % 2 ^ (hi + 1 - lo) := by
  rw [rfld, rget_rsetf_self _ _ _ _ _ h hn, bits_setBits _ _ _ _ h]

theorem rfld_rsetf_other (p : Pkg) (o hi lo v hi' lo' : Nat) (h : lo ≤ hi) (hn : hi < 32) (h' : lo' ≤ hi') (hd : hi' < lo ∨ hi < lo') :
    rfld (rsetf p o hi lo v) o hi' lo' = rfld p o hi' lo' := by
  rw [rfld, rget_rsetf_self _ _ _ _ _ h hn, bits_setBits_other _ _ _ _ _ _ h h' hd, rfld]

theorem rfld_rset_ne (p : Pkg) {o o' : Nat} (v hi lo : Nat) (h : o' ≠ o) : rfld (rset p o v) o' hi lo = rfld p o' hi lo := by
  rw [rfld, rget_rset_ne p _ h, rfld]

theorem rbit_rset_ne (p : Pkg) {o o' : Nat} (v i : Nat) (h : o' ≠ o) : rbit (rset p o v) o' i = rbit p o' i := by
  rw [rbit, rget_rset_ne p _ h, rbit]

theorem rfld_rsetf_ne (p : Pkg) {o o' : Nat} (hi lo v hi' lo' : Nat) (h : o' ≠ o) :
    rfld (rsetf p o hi lo v) o' hi' lo' = rfld p o' hi' lo' := rfld_rset_ne p _ _ _ h

theorem rbit_rsetb_ne (p : Pkg) {o o' : Nat} (i j : Nat) (b : Bool) (h : o' ≠ o) : rbit (rsetb p o i b) o' j = rbit p o' j :=
  rbit_rset_ne p _ _ h

theorem rbit_rsetf_ne (p : Pkg) {o o' : Nat} (hi lo v j : Nat) (h : o' ≠ o) : rbit (rsetf p o hi lo v) o' j = rbit p o' j :=
  rbit_rset_ne p _ _ h

theorem rfld_rsetb_ne (p : Pkg) {o o' : Nat} (i hi lo : Nat) (b : Bool) (h : o' ≠ o) : rfld (rsetb p o i b) o' hi lo = rfld p o' hi lo :=
  rfld_rset_ne p _ _ _ h

/-- The status bit that was set. -/
theorem rbit_rsetb_self (p : Pkg) (o i : Nat) (b : Bool) (hi : i < 32) : rbit (rsetb p o i b) o i = b := by
  rw [rbit, bit_eq_bits]
  have := rfld_rsetf_self p o i i (b2n b) (Nat.le_refl i) hi
  rw [rfld] at this
  rw [rsetb, this]
  simp only [Nat.add_sub_cancel_left]
  exact b2n_bit b

/-- Another status bit stays. -/
theorem rbit_rsetb_other (p : Pkg) (o i j : Nat) (b : Bool) (hi : i < 32) (hij : j ≠ i) : rbit (rsetb p o i b) o j = rbit p o j := by
  rw [rbit, bit_eq_bits, rbit, bit_eq_bits]
  have := rfld_rsetf_other p o i i (b2n b) j j (Nat.le_refl i) hi (Nat.le_refl j) (by omega)
  rw [rfld, rfld] at this
  rw [rsetb, this]

theorem rbit_rsetf_other (p : Pkg) (o hi lo v j : Nat) (h : lo ≤ hi) (hn : hi < 32) (hd : j < lo ∨ hi < j) :
    rbit (rsetf p o hi lo v) o j = rbit p o j := by
  rw [rbit, bit_eq_bits, rbit, bit_eq_bits]
  have := rfld_rsetf_other p o hi lo v j j h hn (Nat.le_refl j) (by omega)
  rw [rfld, rfld] at this
  rw [this]

theorem rfld_rsetb_other (p : Pkg) (o i hi lo : Nat) (b : Bool) (hn : i < 32) (h : lo ≤ hi) (hd : i < lo ∨ hi < i) :
    rfld (rsetb p o i b) o hi lo = rfld p o hi lo :=
  rfld_rsetf_other p o i i (b2n b) hi lo (Nat.le_refl i) hn h (by omega)

@[simp] theorem rget_bump_self (p : Pkg) (o : Nat) : rget (bump p o) o = (rget p o + 1) % 2 ^ 32 := by simp [bump]

theorem rget_bump_ne (p : Pkg) {o o' : Nat} (h : o' ≠ o) : rget (bump p o) o' = rget p o' := rget_rset_ne p _ h

/-- Registers are read from `regs` alone. -/
theorem rget_congr {p q : Pkg} (o : Nat) (h : p.regs = q.regs) : rget p o = rget q o := by rw [rget, rget, h]

end Sys2Proof.Machine
end

