-- ==== Sys2Proof/Laws/Shared.lean ====
section
/-! SUPPORT. What the shared operations do: table writes, log entries, completion entries, events, completions, resets. -/

namespace Sys2Proof.Machine

/-! What reporting to the outside may change -/

/-- From p to q only registers, the stored part of the log, host memory, the use of the completion rings and the operations in flight
may differ. -/
def Outward (p q : Pkg) : Prop :=
  ∃ r l h u o, q = { p with regs := r, store := { p.store with log := l }, host := h, cqUsed := u, ops := o }

theorem Outward.refl (p : Pkg) : Outward p p := ⟨_, _, _, _, _, rfl⟩

theorem Outward.trans {p q r : Pkg} (h1 : Outward p q) (h2 : Outward q r) : Outward p r := by
  obtain ⟨_, _, _, _, _, rfl⟩ := h1
  obtain ⟨_, _, _, _, _, rfl⟩ := h2
  exact ⟨_, _, _, _, _, rfl⟩

theorem Outward.ite {p q r : Pkg} (b : Prop) [Decidable b] (h1 : Outward p q) (h2 : Outward p r) : Outward p (if b then q else r) := by
  split <;> assumption

theorem outward_rset (p : Pkg) (o v : Nat) : Outward p (rset p o v) := ⟨_, _, _, _, _, rfl⟩
theorem outward_rsetb (p : Pkg) (o i : Nat) (b : Bool) : Outward p (rsetb p o i b) := outward_rset _ _ _
theorem outward_bump (p : Pkg) (o : Nat) : Outward p (bump p o) := outward_rset _ _ _
theorem outward_storeLog (p : Pkg) (e : List Byte) : Outward p (storeLog p e) := ⟨_, _, _, _, _, rfl⟩
theorem outward_hostEntry (p : Pkg) (r a : Nat) (bs : List Byte) : Outward p (hostEntry p r a bs) := ⟨_, _, _, _, _, rfl⟩
theorem outward_dropOp (p : Pkg) (id : Nat) : Outward p (dropOp p id) := ⟨_, _, _, _, _, rfl⟩

theorem Outward.cfg {p q : Pkg} (h : Outward p q) : q.cfg = p.cfg := by obtain ⟨_, _, _, _, _, rfl⟩ := h; rfl
theorem Outward.fv {p q : Pkg} (h : Outward p q) : q.fv = p.fv := by obtain ⟨_, _, _, _, _, rfl⟩ := h; rfl
theorem Outward.mem {p q : Pkg} (h : Outward p q) : q.mem = p.mem := by obtain ⟨_, _, _, _, _, rfl⟩ := h; rfl
theorem Outward.since {p q : Pkg} (h : Outward p q) : q.since = p.since := by obtain ⟨_, _, _, _, _, rfl⟩ := h; rfl
theorem Outward.fresh {p q : Pkg} (h : Outward p q) : q.fresh = p.fresh := by obtain ⟨_, _, _, _, _, rfl⟩ := h; rfl
theorem Outward.turns {p q : Pkg} (h : Outward p q) : q.turns = p.turns := by obtain ⟨_, _, _, _, _, rfl⟩ := h; rfl
theorem Outward.gates {p q : Pkg} (h : Outward p q) : q.gates = p.gates := by obtain ⟨_, _, _, _, _, rfl⟩ := h; rfl
theorem Outward.nextGate {p q : Pkg} (h : Outward p q) : q.nextGate = p.nextGate := by obtain ⟨_, _, _, _, _, rfl⟩ := h; rfl
theorem Outward.badLines {p q : Pkg} (h : Outward p q) : q.badLines = p.badLines := by obtain ⟨_, _, _, _, _, rfl⟩ := h; rfl
theorem Outward.ceLines {p q : Pkg} (h : Outward p q) : q.ceLines = p.ceLines := by obtain ⟨_, _, _, _, _, rfl⟩ := h; rfl
theorem Outward.ceOwed {p q : Pkg} (h : Outward p q) : q.ceOwed = p.ceOwed := by obtain ⟨_, _, _, _, _, rfl⟩ := h; rfl
theorem Outward.ceCount {p q : Pkg} (h : Outward p q) : q.ceCount = p.ceCount := by obtain ⟨_, _, _, _, _, rfl⟩ := h; rfl
theorem Outward.latch {p q : Pkg} (h : Outward p q) : q.latch = p.latch := by obtain ⟨_, _, _, _, _, rfl⟩ := h; rfl
theorem Outward.punits {p q : Pkg} (h : Outward p q) : q.punits = p.punits := by obtain ⟨_, _, _, _, _, rfl⟩ := h; rfl
theorem Outward.tiles {p q : Pkg} (h : Outward p q) : q.tiles = p.tiles := by obtain ⟨_, _, _, _, _, rfl⟩ := h; rfl
theorem Outward.queues {p q : Pkg} (h : Outward p q) : q.queues = p.queues := by obtain ⟨_, _, _, _, _, rfl⟩ := h; rfl
theorem Outward.buckets {p q : Pkg} (h : Outward p q) : q.buckets = p.buckets := by obtain ⟨_, _, _, _, _, rfl⟩ := h; rfl
theorem Outward.passed {p q : Pkg} (h : Outward p q) : q.passed = p.passed := by obtain ⟨_, _, _, _, _, rfl⟩ := h; rfl
theorem Outward.wc {p q : Pkg} (h : Outward p q) : q.wc = p.wc := by obtain ⟨_, _, _, _, _, rfl⟩ := h; rfl
theorem Outward.ctxs {p q : Pkg} (h : Outward p q) : q.ctxs = p.ctxs := by obtain ⟨_, _, _, _, _, rfl⟩ := h; rfl
theorem Outward.outs {p q : Pkg} (h : Outward p q) : q.outs = p.outs := by obtain ⟨_, _, _, _, _, rfl⟩ := h; rfl
theorem Outward.resps {p q : Pkg} (h : Outward p q) : q.resps = p.resps := by obtain ⟨_, _, _, _, _, rfl⟩ := h; rfl
theorem Outward.answers {p q : Pkg} (h : Outward p q) : q.answers = p.answers := by obtain ⟨_, _, _, _, _, rfl⟩ := h; rfl
theorem Outward.wire {p q : Pkg} (h : Outward p q) : q.wire = p.wire := by obtain ⟨_, _, _, _, _, rfl⟩ := h; rfl
theorem Outward.ports {p q : Pkg} (h : Outward p q) : q.ports = p.ports := by obtain ⟨_, _, _, _, _, rfl⟩ := h; rfl
theorem Outward.plans {p q : Pkg} (h : Outward p q) : q.plans = p.plans := by obtain ⟨_, _, _, _, _, rfl⟩ := h; rfl
theorem Outward.nextOp {p q : Pkg} (h : Outward p q) : q.nextOp = p.nextOp := by obtain ⟨_, _, _, _, _, rfl⟩ := h; rfl
theorem Outward.launches {p q : Pkg} (h : Outward p q) : q.launches = p.launches := by obtain ⟨_, _, _, _, _, rfl⟩ := h; rfl
theorem Outward.ledger {p q : Pkg} (h : Outward p q) : q.ledger = p.ledger := by obtain ⟨_, _, _, _, _, rfl⟩ := h; rfl
theorem Outward.placed {p q : Pkg} (h : Outward p q) : q.placed = p.placed := by obtain ⟨_, _, _, _, _, rfl⟩ := h; rfl
theorem Outward.nextPlaced {p q : Pkg} (h : Outward p q) : q.nextPlaced = p.nextPlaced := by obtain ⟨_, _, _, _, _, rfl⟩ := h; rfl
theorem Outward.cores {p q : Pkg} (h : Outward p q) : q.cores = p.cores := by obtain ⟨_, _, _, _, _, rfl⟩ := h; rfl
theorem Outward.excs {p q : Pkg} (h : Outward p q) : q.excs = p.excs := by obtain ⟨_, _, _, _, _, rfl⟩ := h; rfl
theorem Outward.jobs {p q : Pkg} (h : Outward p q) : q.jobs = p.jobs := by obtain ⟨_, _, _, _, _, rfl⟩ := h; rfl
theorem Outward.nextJob {p q : Pkg} (h : Outward p q) : q.nextJob = p.nextJob := by obtain ⟨_, _, _, _, _, rfl⟩ := h; rfl
theorem Outward.pins {p q : Pkg} (h : Outward p q) : q.pins = p.pins := by obtain ⟨_, _, _, _, _, rfl⟩ := h; rfl
theorem Outward.xfer {p q : Pkg} (h : Outward p q) : q.xfer = p.xfer := by obtain ⟨_, _, _, _, _, rfl⟩ := h; rfl
theorem Outward.ctxReset {p q : Pkg} (h : Outward p q) : q.ctxReset = p.ctxReset := by obtain ⟨_, _, _, _, _, rfl⟩ := h; rfl
theorem Outward.regTick {p q : Pkg} (h : Outward p q) : q.regTick = p.regTick := by obtain ⟨_, _, _, _, _, rfl⟩ := h; rfl
theorem Outward.patrol {p q : Pkg} (h : Outward p q) : q.patrol = p.patrol := by obtain ⟨_, _, _, _, _, rfl⟩ := h; rfl
theorem Outward.ceSeen {p q : Pkg} (h : Outward p q) : q.ceSeen = p.ceSeen := by obtain ⟨_, _, _, _, _, rfl⟩ := h; rfl
theorem Outward.swops {p q : Pkg} (h : Outward p q) : q.swops = p.swops := by obtain ⟨_, _, _, _, _, rfl⟩ := h; rfl
theorem Outward.nextSw {p q : Pkg} (h : Outward p q) : q.nextSw = p.nextSw := by obtain ⟨_, _, _, _, _, rfl⟩ := h; rfl
theorem Outward.swIn {p q : Pkg} (h : Outward p q) : q.swIn = p.swIn := by obtain ⟨_, _, _, _, _, rfl⟩ := h; rfl
theorem Outward.wg {p q : Pkg} (h : Outward p q) : q.wg = p.wg := by obtain ⟨_, _, _, _, _, rfl⟩ := h; rfl
theorem Outward.rswitch {p q : Pkg} (h : Outward p q) : q.rswitch = p.rswitch := by obtain ⟨_, _, _, _, _, rfl⟩ := h; rfl
theorem Outward.handoffs {p q : Pkg} (h : Outward p q) : q.handoffs = p.handoffs := by obtain ⟨_, _, _, _, _, rfl⟩ := h; rfl
theorem Outward.hostOut {p q : Pkg} (h : Outward p q) : q.hostOut = p.hostOut := by obtain ⟨_, _, _, _, _, rfl⟩ := h; rfl
theorem Outward.fwd {p q : Pkg} (h : Outward p q) : q.fwd = p.fwd := by obtain ⟨_, _, _, _, _, rfl⟩ := h; rfl
theorem Outward.combOut {p q : Pkg} (h : Outward p q) : q.combOut = p.combOut := by obtain ⟨_, _, _, _, _, rfl⟩ := h; rfl
theorem Outward.mgmt {p q : Pkg} (h : Outward p q) : q.mgmt = p.mgmt := by obtain ⟨_, _, _, _, _, rfl⟩ := h; rfl
theorem Outward.lasers {p q : Pkg} (h : Outward p q) : q.lasers = p.lasers := by obtain ⟨_, _, _, _, _, rfl⟩ := h; rfl
theorem Outward.repairs {p q : Pkg} (h : Outward p q) : q.repairs = p.repairs := by obtain ⟨_, _, _, _, _, rfl⟩ := h; rfl
theorem Outward.active {p q : Pkg} (h : Outward p q) : q.active = p.active := by obtain ⟨_, _, _, _, _, rfl⟩ := h; rfl
theorem Outward.protos {p q : Pkg} (h : Outward p q) : q.protos = p.protos := by obtain ⟨_, _, _, _, _, rfl⟩ := h; rfl
theorem Outward.den {p q : Pkg} (h : Outward p q) : q.den = p.den := by obtain ⟨_, _, _, _, _, rfl⟩ := h; rfl
theorem Outward.time {p q : Pkg} (h : Outward p q) : q.time = p.time := by obtain ⟨_, _, _, _, _, rfl⟩ := h; rfl
theorem Outward.health {p q : Pkg} (h : Outward p q) : q.health = p.health := by obtain ⟨_, _, _, _, _, rfl⟩ := h; rfl

/-! `rsetBytes` -/

theorem rsetWords_eq (l : List Nat) (p : Pkg) (o : Nat) (v : Nat → Nat) :
    ∃ r, l.foldl (fun q i => rset q (o + 4 * i) (v i)) p = { p with regs := r } := by
  induction l generalizing p with
  | nil => exact ⟨p.regs, rfl⟩
  | cons i l ih =>
    obtain ⟨r, h⟩ := ih (rset p (o + 4 * i) (v i))
    exact ⟨r, by simp only [List.foldl_cons, h]; rfl⟩

/-- A table write changes registers alone. -/
theorem rsetBytes_eq (p : Pkg) (o : Nat) (bs : List Byte) : ∃ r, rsetBytes p o bs = { p with regs := r } :=
  rsetWords_eq _ p o _

theorem outward_rsetBytes (p : Pkg) (o : Nat) (bs : List Byte) : Outward p (rsetBytes p o bs) := by
  obtain ⟨r, h⟩ := rsetBytes_eq p o bs
  rw [h]
  exact ⟨_, _, _, _, _, rfl⟩

theorem rget_rsetWords (l : List Nat) (p : Pkg) (o o' : Nat) (v : Nat → Nat) (h : ∀ i ∈ l, o' ≠ o + 4 * i) :
    rget (l.foldl (fun q i => rset q (o + 4 * i) (v i)) p) o' = rget p o' := by
  induction l generalizing p with
  | nil => rfl
  | cons i l ih =>
    simp only [List.foldl_cons]
    rw [ih _ (fun j hj => h j (by simp [hj])), rget_rset_ne _ _ (h i (by simp))]

/-- Registers outside the bytes written stay. -/
theorem rget_rsetBytes_outside (p : Pkg) (o o' : Nat) (bs : List Byte) (h : o' < o ∨ o + bs.length ≤ o') :
    rget (rsetBytes p o bs) o' = rget p o' := by
  apply rget_rsetWords
  intro i hi
  have hi := List.mem_range.mp hi
  have : 4 * (bs.length / 4) ≤ bs.length := Nat.mul_div_le _ _
  omega

theorem rsetBytes_store (p : Pkg) (o : Nat) (bs : List Byte) : (rsetBytes p o bs).store = p.store := by
  obtain ⟨r, h⟩ := rsetBytes_eq p o bs; rw [h]

theorem rsetBytes_mem (p : Pkg) (o : Nat) (bs : List Byte) : (rsetBytes p o bs).mem = p.mem := by
  obtain ⟨r, h⟩ := rsetBytes_eq p o bs; rw [h]

/-! The event log (R463) -/

/-- The registers that a log entry may change. -/
def logReg (o : Nat) : Bool := o == rHltLoglost || o == rHltLoghead || (decide (rHltLog 0 ≤ o) && decide (o < rHltLog 4096))

/-- A log entry changes registers and the stored part of the log alone. -/
theorem outward_logEntry (p : Pkg) (c : Clock) (code die aux value detail : Nat) :
    Outward p (logEntry p c code die aux value detail) := by
  unfold logEntry
  generalize (natLe 8 c.gsc ++ natLe 2 code ++ natLe 1 die ++ natLe 1 0 ++ natLe 4 aux ++ natLe 8 value ++ natLe 8 detail) = e
  refine Outward.trans ?_ (outward_rset _ _ _)
  have h : ∀ q, Outward p q → Outward p (rsetBytes q (rHltLog (rfld p rHltLoghead 11 0)) e) :=
    fun q hq => hq.trans (outward_rsetBytes _ _ _)
  have h1 : Outward p (if rfld p (rHltLog (rfld p rHltLoghead 11 0) + 8) 15 0 = 0 then p else bump p rHltLoglost) :=
    Outward.ite _ (Outward.refl p) (outward_bump _ _)
  exact Outward.ite _ ((h _ h1).trans (outward_storeLog _ _)) (h _ h1)

theorem rsetBytes_host (p : Pkg) (o : Nat) (bs : List Byte) : (rsetBytes p o bs).host = p.host := by
  obtain ⟨r, h⟩ := rsetBytes_eq p o bs; rw [h]

theorem logEntry_host (p : Pkg) (c : Clock) (code die aux value detail : Nat) :
    (logEntry p c code die aux value detail).host = p.host := by
  unfold logEntry
  simp only [rset_host]
  split
  · simp only [storeLog_host, rsetBytes_host]; split <;> rfl
  · simp only [rsetBytes_host]; split <;> rfl

theorem natLe_length (n v : Nat) : (natLe n v).length = n := by
  induction n generalizing v with
  | zero => rfl
  | succ n ih => simp [natLe, ih]

theorem bits_lt (n hi lo : Nat) : bits n hi lo < 2 ^ (hi + 1 - lo) := Nat.mod_lt _ (Nat.two_pow_pos _)

/-- Registers other than those of the log stay. -/
theorem rget_logEntry (p : Pkg) (c : Clock) (code die aux value detail o : Nat) (h : logReg o = false) :
    rget (logEntry p c code die aux value detail) o = rget p o := by
  simp only [logReg, Bool.or_eq_false_iff, beq_eq_false_iff_ne, Bool.and_eq_false_iff, decide_eq_false_iff_not] at h
  obtain ⟨⟨h1, h2⟩, h3⟩ := h
  have hi : rfld p rHltLoghead 11 0 < 4096 := bits_lt _ _ _
  have hb : ∀ q : Pkg, rget (rsetBytes q (rHltLog (rfld p rHltLoghead 11 0)) (natLe 8 c.gsc ++ natLe 2 code ++ natLe 1 die ++ natLe 1 0
      ++ natLe 4 aux ++ natLe 8 value ++ natLe 8 detail)) o = rget q o := by
    intro q
    apply rget_rsetBytes_outside
    simp only [List.length_append, natLe_length]
    unfold rHltLog at *
    omega
  unfold logEntry
  simp only
  rw [rget_rset_ne _ _ h2]
  have hs : ∀ (q : Pkg) e, rget (storeLog q e) o = rget q o := fun _ _ => rfl
  have hp : rget (if rfld p (rHltLog (rfld p rHltLoghead 11 0) + 8) 15 0 = 0 then p else bump p rHltLoglost) o = rget p o := by
    split
    · rfl
    · exact rget_bump_ne _ h1
  split
  · rw [hs, hb, hp]
  · rw [hb, hp]

theorem rfld_logEntry (p : Pkg) (c : Clock) (code die aux value detail o hi lo : Nat) (h : logReg o = false) :
    rfld (logEntry p c code die aux value detail) o hi lo = rfld p o hi lo := by
  rw [rfld, rget_logEntry _ _ _ _ _ _ _ _ h, rfld]

theorem rbit_logEntry (p : Pkg) (c : Clock) (code die aux value detail o i : Nat) (h : logReg o = false) :
    rbit (logEntry p c code die aux value detail) o i = rbit p o i := by
  rw [rbit, rget_logEntry _ _ _ _ _ _ _ _ h, rbit]

/-! Completion entries and events (R398, R408) -/

/-- A completion entry goes to host memory, into one slot, and moves the tail. -/
theorem outward_cqWrite (p : Pkg) (r : Nat) (e : Nat → List Byte) : Outward p (cqWrite p r e) :=
  (outward_hostEntry _ _ _ _).trans (outward_rset _ _ _)

theorem cqWrite_memWf (p : Pkg) (r : Nat) (e : Nat → List Byte) (h : memWf p.host = true) : memWf (cqWrite p r e).host = true :=
  memWf_mwrite _ _ _ h

/-- The registers that an event may change. -/
def eventReg (o : Nat) : Bool :=
  logReg o || o == rHifEvdrop || (decide (rCq 0 0 ≤ o) && decide (o < rCq 64 0))

/-- An event changes the log, and the host's event ring or the count of events dropped. -/
theorem outward_event (p : Pkg) (c : Clock) (code die aux value : Nat) : Outward p (event p c code die aux value) := by
  have h := outward_logEntry p c code die aux value 0
  unfold event
  exact Outward.ite _ (Outward.ite _ (h.trans (outward_cqWrite _ _ _)) (h.trans (outward_bump _ _))) h

theorem rget_event (p : Pkg) (c : Clock) (code die aux value o : Nat) (h : eventReg o = false) :
    rget (event p c code die aux value) o = rget p o := by
  simp only [eventReg, Bool.or_eq_false_iff, beq_eq_false_iff_ne, Bool.and_eq_false_iff, decide_eq_false_iff_not] at h
  obtain ⟨⟨h1, h2⟩, h3⟩ := h
  have hl := rget_logEntry p c code die aux value 0 o h1
  unfold event
  simp only
  split
  · split
    · have hr : rfld (logEntry p c code die aux value 0) rHifEvcfg 5 0 < 64 := bits_lt _ _ _
      unfold cqWrite
      simp only
      rw [rget_rset_ne, show ∀ (q : Pkg) r a bs, rget (hostEntry q r a bs) o = rget q o from fun _ _ _ _ => rfl, hl]
      intro he
      unfold rCq at *
      omega
    · rw [rget_bump_ne _ h2, hl]
  · exact hl

/-- The canonical form of host memory survives an event. -/
theorem event_memWf (p : Pkg) (c : Clock) (code die aux value : Nat) (h : memWf p.host = true) :
    memWf (event p c code die aux value).host = true := by
  have hl : memWf (logEntry p c code die aux value 0).host = true := by rw [logEntry_host]; exact h
  unfold event
  simp only
  split
  · split
    · exact cqWrite_memWf _ _ _ hl
    · exact hl
  · exact hl

theorem outward_syncOps (p : Pkg) (k : Nat) : Outward p (syncOps p k) := (outward_rsetb _ _ _ _).trans (outward_rset _ _ _)

theorem outward_countLaunchFail (p : Pkg) (status : Nat) : Outward p (countLaunchFail p status) :=
  Outward.ite _ (outward_bump _ _) (Outward.refl p)

theorem outward_writeCompletion (p : Pkg) (o : Op) (c : Clock) (status : Nat) (flags : Flags) (value aux : Nat) (report : Bool) :
    Outward p (writeCompletion p o c status flags value aux report) :=
  Outward.ite _ (outward_cqWrite _ _ _) (Outward.refl p)

/-- A completion ends its operation, and touches nothing but registers, host memory and the ring's use beside it. -/
theorem outward_complete (p : Pkg) (c : Clock) (id status : Nat) (flags : Flags) (value aux : Nat) (report : Bool) :
    Outward p (complete p c id status flags value aux report) := by
  unfold complete
  split
  · exact Outward.refl p
  · exact (((outward_dropOp p id).trans (outward_rset _ _ _)).trans (outward_countLaunchFail _ _)).trans
      ((outward_writeCompletion _ _ _ _ _ _ _ _).trans (outward_syncOps _ _))

theorem countLaunchFail_ops (p : Pkg) (status : Nat) : (countLaunchFail p status).ops = p.ops := by
  unfold countLaunchFail; split <;> rfl
theorem countLaunchFail_host (p : Pkg) (status : Nat) : (countLaunchFail p status).host = p.host := by
  unfold countLaunchFail; split <;> rfl
theorem writeCompletion_ops (p : Pkg) (o : Op) (c : Clock) (status : Nat) (flags : Flags) (value aux : Nat) (report : Bool) :
    (writeCompletion p o c status flags value aux report).ops = p.ops := by
  have h : ∀ e, (cqWrite p o.cq e).ops = p.ops := fun _ => rfl
  by_cases he : eclUp p = true
  · simp only [writeCompletion, he, if_true, h]
  · simp only [writeCompletion, he, if_false, Bool.false_eq_true]
theorem writeCompletion_memWf (p : Pkg) (o : Op) (c : Clock) (status : Nat) (flags : Flags) (value aux : Nat) (report : Bool)
    (h : memWf p.host = true) : memWf (writeCompletion p o c status flags value aux report).host = true := by
  by_cases he : eclUp p = true
  · simp only [writeCompletion, he, if_true]; exact cqWrite_memWf _ _ _ h
  · simp only [writeCompletion, he, if_false, Bool.false_eq_true]; exact h

/-- The operation that completes leaves those in flight. -/
theorem complete_ops (p : Pkg) (c : Clock) (id status : Nat) (flags : Flags) (value aux : Nat) (report : Bool) (o : Op)
    (h : findOp p id = some o) :
    (complete p c id status flags value aux report).ops = p.ops.filter (fun x => x.id != id) := by
  have hs : ∀ (q : Pkg) k, (syncOps q k).ops = q.ops := fun _ _ => rfl
  unfold complete
  rw [h]
  simp only [hs, writeCompletion_ops, countLaunchFail_ops]
  rfl

theorem complete_memWf (p : Pkg) (c : Clock) (id status : Nat) (flags : Flags) (value aux : Nat) (report : Bool)
    (h : memWf p.host = true) : memWf (complete p c id status flags value aux report).host = true := by
  have hs : ∀ (q : Pkg) k, (syncOps q k).host = q.host := fun _ _ => rfl
  unfold complete
  split
  · exact h
  · simp only [hs]
    apply writeCompletion_memWf
    rw [countLaunchFail_host]
    exact h

/-! Resets (R435, R436) -/

/-- What a reset of kinds 1 to 4 keeps, and what it empties. -/
theorem resetPkg_keeps (p : Pkg) (k : Nat) :
    (resetPkg p k).mem = p.mem.filter (fun e => isHbm e.1) ∧ (resetPkg p k).host = p.host ∧ (resetPkg p k).plans = p.plans ∧
    (resetPkg p k).store = p.store ∧ (resetPkg p k).ctxs = p.ctxs ∧ (resetPkg p k).ops = [] ∧ (resetPkg p k).launches = [] ∧
    (resetPkg p k).ledger = [] ∧ (resetPkg p k).tiles = [] ∧ (resetPkg p k).outs = [] ∧ (resetPkg p k).resps = [] ∧
    (resetPkg p k).den = {} ∧ (resetPkg p k).ctxReset = ctxDirty p := by
  unfold resetPkg
  simp only
  split <;> exact ⟨rfl, rfl, rfl, rfl, rfl, rfl, rfl, rfl, rfl, rfl, rfl, rfl, rfl⟩

end Sys2Proof.Machine
end

