-- ==== Sys2Proof/Laws/Queues.lean ====
section
/-! SUPPORT. What the regulator queues, write combining and memory accesses may change: requests enter queues alone; a write changes
memory at its bytes, and the marks of the lines that it covers. -/

namespace Sys2Proof.Machine

/-! Requests (R242, R243) -/

/-- A request enters a queue and changes nothing else. -/
theorem enqueue_eq (p : Pkg) (part : Nat) (r : HbmReq) : ∃ qs, enqueue p part r = { p with queues := qs } := ⟨_, rfl⟩

theorem enqueueAll_eq (p : Pkg) (part : Nat) (rs : List HbmReq) : ∃ qs, enqueueAll p part rs = { p with queues := qs } := by
  unfold enqueueAll
  induction rs generalizing p with
  | nil => exact ⟨p.queues, rfl⟩
  | cons r rs ih =>
    obtain ⟨qs, h⟩ := ih (enqueue p part r)
    exact ⟨qs, by simp only [List.foldl_cons, h]; rfl⟩

@[simp] theorem enqueueAll_mem (p : Pkg) (part : Nat) (rs : List HbmReq) : (enqueueAll p part rs).mem = p.mem := by
  obtain ⟨_, h⟩ := enqueueAll_eq p part rs; rw [h]
@[simp] theorem enqueueAll_regs (p : Pkg) (part : Nat) (rs : List HbmReq) : (enqueueAll p part rs).regs = p.regs := by
  obtain ⟨_, h⟩ := enqueueAll_eq p part rs; rw [h]
@[simp] theorem enqueueAll_gates (p : Pkg) (part : Nat) (rs : List HbmReq) : (enqueueAll p part rs).gates = p.gates := by
  obtain ⟨_, h⟩ := enqueueAll_eq p part rs; rw [h]
@[simp] theorem enqueueAll_badLines (p : Pkg) (part : Nat) (rs : List HbmReq) : (enqueueAll p part rs).badLines = p.badLines := by
  obtain ⟨_, h⟩ := enqueueAll_eq p part rs; rw [h]

/-- A command that must wait for its requests changes the queues and the list of those that wait; its gate has a number of its own. -/
theorem openGate_eq (p : Pkg) (part : Nat) (cmd : Instr) (rs : Who → List HbmReq) :
    ∃ qs, openGate p part cmd rs = { p with
      queues := qs, nextGate := p.nextGate + 1,
      gates := p.gates ++ [{ id := p.nextGate, cmd := cmd, left := (rs (.gate p.nextGate)).length }] } := by
  obtain ⟨qs, h⟩ := enqueueAll_eq p part (rs (.gate p.nextGate))
  exact ⟨qs, by unfold openGate; simp only [h]⟩

@[simp] theorem openGate_mem (p : Pkg) (part : Nat) (cmd : Instr) (rs : Who → List HbmReq) : (openGate p part cmd rs).mem = p.mem := by
  obtain ⟨_, h⟩ := openGate_eq p part cmd rs; rw [h]
@[simp] theorem openGate_regs (p : Pkg) (part : Nat) (cmd : Instr) (rs : Who → List HbmReq) : (openGate p part cmd rs).regs = p.regs := by
  obtain ⟨_, h⟩ := openGate_eq p part cmd rs; rw [h]

/-! Write combining (R246) -/

/-- A write that enters or passes the buffer changes the buffer and the marks of lines, no byte of memory. -/
theorem wcWrite_eq (p : Pkg) (c : Clock) (l : Nat) (m : BitVec 64) :
    ∃ w b e, wcWrite p c l m = { p with wc := w, badLines := b, ceLines := e } := by
  unfold wcWrite
  simp only
  split
  · exact ⟨_, _, _, rfl⟩
  · split
    · split <;> exact ⟨_, _, _, rfl⟩
    · split
      · exact ⟨_, _, _, rfl⟩
      · split <;> exact ⟨_, _, _, rfl⟩

theorem wcBytes_eq (p : Pkg) (c : Clock) (a n : Nat) :
    ∃ w b e, wcBytes p c a n = { p with wc := w, badLines := b, ceLines := e } := by
  unfold wcBytes
  generalize linesOf a n = ls
  induction ls generalizing p with
  | nil => exact ⟨p.wc, p.badLines, p.ceLines, rfl⟩
  | cons l ls ih =>
    obtain ⟨w', b', e', h'⟩ := wcWrite_eq p c l (lineMask l a n)
    simp only [List.foldl_cons]
    rw [h']
    exact ih _

/-! Memory accesses (R252) -/

/-- Bytes stored: memory at their places, and the marks of the lines they cover whole. -/
theorem storeBytes_eq (p : Pkg) (a : Nat) (bs : List Byte) :
    ∃ b e, storeBytes p a bs = { p with mem := mwrite p.mem a bs, badLines := b, ceLines := e } := by
  unfold storeBytes
  simp only
  split <;> exact ⟨_, _, rfl⟩

theorem storeBytes_mem (p : Pkg) (a : Nat) (bs : List Byte) : (storeBytes p a bs).mem = mwrite p.mem a bs := by
  obtain ⟨_, _, h⟩ := storeBytes_eq p a bs; rw [h]

/-- A write that is not refused stores exactly its bytes; one that is refused stores nothing. -/
theorem writeMem_mem (p : Pkg) (c : Clock) (a : Nat) (bs : List Byte) (h : firstBad p (partLines a bs.length) = none) :
    (writeMem p c a bs).1.mem = mwrite p.mem a bs ∧ (writeMem p c a bs).2 = .ok [] := by
  unfold writeMem
  simp only [h]
  refine ⟨?_, trivial⟩
  rw [storeBytes_mem]
  split
  · obtain ⟨_, _, _, hw⟩ := wcBytes_eq p c a bs.length
    rw [hw]
  · rfl

/-- A write keeps the canonical form of memory. -/
theorem writeMem_memWf (p : Pkg) (c : Clock) (a : Nat) (bs : List Byte) (h : firstBad p (partLines a bs.length) = none)
    (hm : memWf p.mem = true) : memWf (writeMem p c a bs).1.mem = true := by
  rw [(writeMem_mem p c a bs h).1]
  exact memWf_mwrite _ _ _ hm

/-- A rewrite that lands leaves memory and registers. -/
theorem landRewrite_eq (p : Pkg) (l : Nat) : ∃ o e, landRewrite p l = { p with ceOwed := o, ceLines := e } := ⟨_, _, rfl⟩

/-! Slots (R300) -/

/-- Taking a slot changes its port's counts alone. -/
theorem takeSlot_eq (p : Pkg) (q start : Nat) : ∃ x, takeSlot p q start = { p with ports := x } := ⟨_, rfl⟩

end Sys2Proof.Machine
end

