-- ==== Sys2Proof/Tests/Slice0.lean ====
section
/-! SUPPORT. Tests: a smoke test of WellFormed, worked examples of the spec, and for every statement with hypotheses a witness
that its hypotheses can be met together, clause by clause. -/

namespace Sys2Proof.Tests
set_option Elab.async false
open Sys2Proof Sys2Proof.Machine

/-- A package with these registers. -/
def pk (l : List (Nat × Nat)) : Pkg := l.foldl (fun p e => rset p e.1 e.2) {}

/-- A state at a count. -/
def st (p : Pkg) (g : Nat := 1000) : State := { pkg := p, clk := { gsc := g, up := 34 * g } }

/-- 12 V valid and nothing else. -/
def on : Pkg := pk [(rPwrStatus, 2)]

/-- In service at stage 4. -/
def served : Pkg := pk [(rPwrStatus, 3), (rGlbStatus, 0x401)]

/-- Whether a checked operation passes, and what it gives. -/
def ok {ε α : Type} : Except ε α → Bool
  | .ok _ => true
  | .error _ => false

/-- A state after a command, read by a function. -/
def after {α : Type} (i : Instr) (s : State) (f : State → α) : Option α :=
  match exec i s with
  | .next t => some (f t)
  | _ => none

/-! WellFormed: an ill-formed term for each check, which the check refuses -/

theorem test_wf_access : Access.wf (.load 0) = false ∧ Access.wf (.load 4097) = false ∧ Access.wf (.load 4096) = true ∧
    Access.wf (.store []) = false ∧ Access.wf (.store (List.replicate 4097 0)) = false := by decide +kernel
theorem test_wf_core : Instr.wf (.iIntegerImm 0 .addk 0 0 2048) = false ∧ Instr.wf (.iIntegerImm 0 .addk 0 0 (-2048)) = true ∧
    Instr.wf (.iIntegerImm 0 .highk 0 0 131072) = false ∧ Instr.wf (.iIntegerImm 0 .highk 0 0 (-1)) = false ∧
    Instr.wf (.lLoad 0 true .w64 0 0 (-2049)) = false ∧ Instr.wf (.sStore 0 .w64 0 0 2048) = false := by decide +kernel
theorem test_wf_host : Instr.wf (.descriptorFetch 0 (List.replicate 63 0)) = false ∧ Instr.wf (.hostLocalAccess 0 0 (2 ^ 46) (.load 1)) = false ∧
    Instr.wf (.hostRemoteAccess 0 0 (2 ^ 34) (.load 1)) = false ∧ Instr.wf (.hostLocalAccess 0 0 0 (.load 0)) = false ∧
    Instr.wf (.hostRemoteAccess 0 0 0 (.store [])) = false := by decide +kernel
theorem test_wf_fabric : Instr.wf (.scheduledSlot 0 0 13 0) = false ∧ Instr.wf (.transitSlot 0 0 15 0) = false := by decide +kernel
theorem test_wf_memory : Instr.wf (.regulatorTick 0 [(1, 1)]) = false ∧ Instr.wf (.regulatorTick 0 [(64, 73)]) = false ∧
    Instr.wf (.staticScrub 1 0) = false ∧ Instr.wf (.staticScrub 0 73) = false ∧ Instr.wf (.wcEvict 1) = false ∧
    Instr.wf (.ceRewrite 1) = false := by decide +kernel
theorem test_wf_supplies : Instr.wf (.v48Valid (2 ^ 16)) = false ∧ Instr.wf (.thermalTripExit (2 ^ 16)) = false ∧
    Instr.wf (.overlimit (2 ^ 16)) = false ∧ Instr.wf (.overlimitEnd (2 ^ 16)) = false ∧ Instr.wf (.hot (2 ^ 16) 0) = false ∧
    Instr.wf (.hotEnd (2 ^ 16) 0) = false := by decide +kernel
theorem test_wf_service : Instr.wf (.healthWindowEnd [(4, 0, 0)] []) = false ∧ Instr.wf (.attestReq none [] true) = false ∧
    Instr.wf (.attestReportReady [] []) = false ∧ Instr.wf (.monTokenChunk (some (0, List.replicate 257 0))) = false ∧
    Instr.wf (.unitFailure 0 127) = true ∧ Instr.wf (.unitFailure 1 16) = false ∧
    Instr.wf (.calibrationRequest 0 0 0 (2 ^ 128) 0 0 []) = false ∧ Instr.wf (.calibrationRequest 0 0 0 0 (2 ^ 16) 0 []) = false ∧
    Instr.wf (.calibrationRequest 0 0 0 0 0 (2 ^ 8) []) = false := by decide +kernel

/-- The table gives the commands no bits: every word spells none. -/
theorem test_no_words : decodeTableWord 8 0 = none ∧ decodeTableWord 0 0 = none := by decide

/-! Witnesses: the clock, the supplies, resets, alarms, start-up -/

theorem witness_StepRunsFront : ({ st served with pending := [Instr.refclkLoss] }).pending = Instr.refclkLoss :: [] := rfl
theorem witness_IdleStepPassesTime : (st served).pending = [] ∧ live State.reset.pkg = false ∧ live served = true ∧
    (0 : Nat) + 1 < tickUnits served ∧ tickUnits served ≤ 33 + 1 := by decide +kernel
theorem witness_StepsGoOn : (after .refclkLoss (st served) (fun _ => ())).isSome = true := by decide +kernel
theorem witness_ClockChangesOnlyBy : (after .refclkLoss (st served) (fun _ => ())).isSome = true := by decide +kernel
theorem witness_ClockInvariant : Safety.ClockOk State.reset ∧ (∃ t, step State.reset = .next t) :=
  ⟨by unfold Safety.ClockOk; decide, _, rfl⟩
theorem witness_PacketsRoundTrip :
    let h : Hdr := { ty := 255, flags := 255, len := 1, seq := 2 ^ 32 - 1, daddr := 2 ^ 64 - 1, src := 2 ^ 18 - 1, rctx := 65535, sctx := 65535, dso := 2 ^ 14 - 1, nreason := 255, aseq := 2 ^ 32 - 1, op0 := 2 ^ 64 - 1, op1 := 0 }
    h.len < 2 ^ 13 ∧ [0xA5#8].length = h.len ∧ parseHdr (mkPacket h [0xA5#8]) = h ∧ packetOk (mkPacket h [0xA5#8]) = true := by decide +kernel

theorem witness_SuppliesComeAndGo : (40000 ≤ 40000 ∧ 60000 ≤ 60000) ∧ rbit served rPwrStatus (b2n true) = true ∧
    rbit served rPwrStatus (b2n false) = true := by decide +kernel
theorem witness_ResetKinds : (live on = true ∧ on.pins.tripped = false ∧ on.pins.resetLow = false ∧ rbit on rGlbLock 0 = false) ∧
    ({ on with pins := { tripped := true } }).pins.tripped = true ∧ sext 16 849 < sext 16 (rget (rset on rPwrTwarn 850) rPwrTwarn) ∧
    rbit (pk [(rGlbLock, 1)]) rGlbLock 0 = true ∧ (0x12340001#32).toNat / 2 ^ 16 ≠ 0x5A5A ∧ bit (0x5A5A0002#32).toNat 0 = false ∧
    (0x5A5A0003#32).toNat / 2 ^ 16 = 0x5A5A ∧ bit (0x5A5A0003#32).toNat 0 = true := by decide +kernel
theorem witness_AlarmsAndTrip :
    let p := rset on rPwrTwarn 850
    (live p = true ∧ rget p rPwrLimit < 7201 ∧ rbit p rPwrStatus 3 = false ∧ 7200 ≤ rget p rPwrLimit ∧
      sext 16 (rget p rPwrTwarn) < sext 16 851 ∧ rbit p rPwrStatus 4 = false ∧ sext 16 850 ≤ sext 16 (rget p rPwrTwarn)) ∧
    47 ∉ p.pins.sensors ∧ p.pins.tripped = false ∧ ((13 : Fin 48).val < 14 ∧ 920 ≤ (920 : Fin 32768).val) ∧
    (16 ≤ (16 : Fin 48).val ∧ 840 ≤ (840 : Fin 32768).val) := by decide +kernel
theorem witness_DeepIdleRoundTrip :
    let p := rset served rPwrIdle 1
    let q := rset served rPwrStatus 7
    (stageOf p = 4 ∧ rfld p rPwrIdle 15 0 ≠ 0 ∧ rbit p rPwrStatus 2 = false ∧ p.pins.tripped = false ∧ p.ledger = [] ∧ p.den.pol = none ∧
      p.active + rfld p rPwrIdle 15 0 * 250000 ≤ 250000) ∧
    (rbit q rPwrStatus 2 = true ∧ q.pins.wake = none) ∧ ({ q with pins := { wake := some 2500 } }).pins.wake = some 2500 := by decide +kernel

/-- A configuration record of a sequence number and a place. -/
def cfgRec (seq place : Nat) : CfgRec :=
  { intact := true, seq := seq, grade := 0, serial := 5, place := place, ilv := 0, radef := 0, twarn := 850, limit := none, idle := none, locks := 0, tuperm := 0, role := 0, pport := 0, dbg := 0, rslots := [], cabling := [(3, (9, 4))], asym := [], spares := [], trend := [], digest := [] }
/-- A firmware image that passes every check, of length 0 and a version. -/
def goodImage (version : Nat) : Image :=
  { header := natLe 4 0x574D5247 ++ natLe 4 version ++ List.replicate 248 0, bodyOk := true, keysOk := true, rsaOk := true, slhOk := true, digest := [], proto := 0 }
def stored (a b : Option Image) (copies : List CfgRec) (p : Pkg) : Pkg := { p with store := { p.store with imgA := a, imgB := b, copies := copies } }

theorem witness_StartupPath :
    (live on = true ∧ on.pins.resetLow = false ∧ on.pins.tripped = false ∧ stageOf on = 0) ∧ topCopies on = [] ∧
    (topCopies (stored none none [cfgRec 7 1, cfgRec 7 2] on) = [(cfgRec 7 1, 0), (cfgRec 7 2, 1)] ∧ cfgRec 7 1 ≠ cfgRec 7 2) ∧
    (let p := stored (some (goodImage 1)) none [cfgRec 7 1] on
     topCopies p = [(cfgRec 7 1, 0)] ∧ p.store.retired = false ∧ imageCheck p (image p (firstImage p)) = none ∧ image p (firstImage p) = some (goodImage 1)) ∧
    (let p := stored none (some (goodImage 0)) [cfgRec 7 1] on
     imageCheck p (image p (firstImage p)) ≠ none ∧ imageCheck p (image p (1 - firstImage p)) = none ∧ image p (1 - firstImage p) = some (goodImage 0)) ∧
    (let p := stored none none [cfgRec 7 1] on
     imageCheck p (image p (firstImage p)) ≠ none ∧ imageCheck p (image p (1 - firstImage p)) ≠ none) ∧
    (let p := pk [(rGlbStatus, 0x100), (rPwrStatus, 3)]
     stageOf p = 1 ∧ rbit p rPwrStatus 0 = true ∧ p.pins.tripped = false ∧ p.pins.resetLow = false ∧ rbit p rMemStatus 1 = false) ∧
    stageOf (pk [(rGlbStatus, 0x200)]) = 2 ∧ (stageOf (pk [(rGlbStatus, 0x300)]) = 3 ∧ rbit (pk [(rGlbStatus, 0x300)]) rMemStatus 1 = false) := by
  decide +kernel

/-- A tile of launch 1, which began at 0, with words at the head of a queue. -/
def tileWith (q : Nat) (ws : List Nat) : Tile :=
  ({ launch := some 1, running := true } : Tile).setQueue q (ws.map (BitVec.ofNat 128))
/-- Launch 1 of the tiles of a mask, running from 0. -/
def launch1 (tiles : Nat) : Launch :=
  { id := 1, op := 1, plan := 1, L := 0, D := 1000000, prep := 2500, wc := 900000, tiles := tiles, slvs := 0xFFFF, ues := 0xFF, rmask := 0, running := true, prepped := true }
/-- A package in service in which launch 1 runs on tile 0. -/
def running (x : Tile) : Pkg := { served with tiles := [(0, x)], launches := [launch1 1] }
/-- A word of an opcode with other bits. -/
def word (op rest : Nat) : Nat := op * 2 ^ 120 + rest
/-- An instruction in flight. -/
def flight (q w due : Nat) : InFl := { seq := 0, q := q, word := BitVec.ofNat 128 w, issue := 0, due := due }

theorem witness_WatchdogAndClockFailures :
    keepersRun served = true ∧ unitState served 304 = 0 ∧ freeSpare (setPunit served 307 3 0) 304 = none ∧ unitState (setPunit served 307 3 0) 304 = 0 ∧
    (freeSpare served (304 + 4) = some 311 ∧ unitState served (304 + 4) = 0 ∧ served.pins.wdog = []) ∧
    (let f : InFl := { flight 3 (word 0xA6 1) 9 with held := true }
     (tile (running { launch := some 1, infl := [f] }) 0).infl.find? (fun g => g.seq == 0 && opcodeOf g.word.toNat == 0xA6) = some f ∧
       bit (bits f.word.toNat 7 0) 0 = true) := by decide +kernel

/-! Witnesses: the management bus, the monitor, lines and registers -/

theorem witness_ManagementBus :
    (live served = true ∧ served.pins.smb ≠ 1 ∧ stageOf served = 4) ∧ (List.replicate 32 (7#8)).length = 32 ∧
    stageOf (pk [(rPwrStatus, 2), (rGlbStatus, 0x500)]) = 5 ∧
    (let p : Pkg := { served with pins := { reportState := 1, nonce := List.replicate 32 7#8 } }
     p.pins.reportState = 1 ∧ p.pins.asker = none ∧ p.pins.nonce.length = 32 ∧ (List.replicate 384 0#8).length = 384 ∧ (List.replicate 16224 0#8).length = 16224) ∧
    (let p : Pkg := { served with pins := { reportState := 2, report := List.replicate 40 1#8 } }
     p.pins.reportState = 2 ∧ (8#32).toNat + 32 ≤ p.pins.report.length) ∧
    (otherBusy served true = false ∧ (List.replicate 28 0#8).length ≤ 28) ∧
    (otherBusy { served with xfer := { bus := false, state := 1 } } true = true) ∧
    ({ served with xfer := { bus := true, state := 1, last := 0 } }).xfer.last + 2500000000 ≤ (st served 2500000000).clk.gsc ∧
    (let p : Pkg := { served with xfer := { bus := true, state := 1 } }
     imageCheck p (some { goodImage 1 with header := gotHeader p }) ≠ none) := by decide +kernel

/-- A transfer whose bytes are all there: the header of an image of length 0, and the signatures. -/
def arrived : Pkg :=
  { served with xfer := { bus := true, state := 1, bytes := ((goodImage 2).header ++ List.replicate 17044 1#8).zipIdx.map (fun e => (e.2, e.1)) } }
theorem witness_ManagementBus_commit :
    gotAll arrived 17300 = true ∧ (17300#32).toNat = 0x100 + imgLength { goodImage 2 with header := gotHeader arrived } + 17044 ∧
    imageCheck arrived (some { goodImage 2 with header := gotHeader arrived }) = none := by decide +kernel

/-- The monitor's rights, each by its bit of `DBG.ENABLE`. -/
def debugging : Pkg := rset served rDbgEnable 0xF
theorem hears_served : Safety.Hears served := by unfold Safety.Hears; decide +kernel
theorem hears_debugging : Safety.Hears debugging := by unfold Safety.Hears; decide +kernel
theorem witness_MonitorReadsAndLists : Safety.Hears debugging ∧
    (stageOf debugging = 4 ∧ dbgOn debugging 0 = true ∧ offsetOk 0 = true ∧ offsetOk 0x3FFFFFC = true ∧ debugging.pins.txReleased = false) :=
  ⟨hears_debugging, by decide +kernel⟩
/-- A complete token for serial number 0. -/
def tokened : Pkg :=
  { served with pins := { token := natLe 4 0x4E4B5442 ++ natLe 4 1 ++ List.replicate 17100 0#8 } }
theorem witness_MonitorActsAndRefusals : Safety.Hears debugging ∧ Safety.Hears served ∧ Safety.Hears tokened ∧ Safety.Hears on ∧
    Safety.Hears (pk [(rPwrStatus, 2), (rGlbStatus, 0x504)]) ∧
    (dbgOn debugging 1 = true ∧ dbgOn debugging 2 = true ∧ 115200 ∈ monRates ∧ 3000000 ∈ monRates ∧ [1#8].length ≤ 256) ∧
    (tokenFits tokened = true ∧ stageOf tokened = 4 ∧ rbit tokened rSecLock 0 = false) ∧
    (rbit (rset served rSecLock 1) rSecLock 0 = true ∧ tokenFits served = false) ∧ stageOf on < 4 ∧
    (stageOf served = 4 ∧ dbgOn served 0 = false ∧ dbgOn served 1 = false ∧ dbgOn served 2 = false) ∧
    (4 < stageOf (pk [(rPwrStatus, 2), (rGlbStatus, 0x504)]) ∧ rbit (pk [(rPwrStatus, 2), (rGlbStatus, 0x504)]) rGlbStatus 2 = true) :=
  ⟨hears_debugging, hears_served, by unfold Safety.Hears; decide +kernel, by unfold Safety.Hears; decide +kernel,
    by unfold Safety.Hears; decide +kernel, by decide +kernel⟩

theorem witness_LineFaultsAndTestPort :
    let p := rset served rHltStatus 2
    let q : Pkg := { debugging with pins := { trstLow := false } }
    (live p = true ∧ rbit p rDbgStatus 0 = false ∧ rbit p rDbgStatus 1 = false ∧ rbit p rDbgStatus 2 = false ∧ rbit p rDbgStatus 3 = false ∧ alertN p = true) ∧
    p.pins.txAt ≤ 0 ∧ p.pins.smb ≠ 2 ∧ ({ p with pins := { smb := 2, smbAt := 9 } }).pins.smbAt ≤ 9 ∧
    ({ p with pins := { baudNext := some (2 ^ 24 - 1, 9) } }).pins.baudNext = some (2 ^ 24 - 1, 9) ∧
    (live q = true ∧ q.pins.trstLow = false ∧ q.pins.resetLow = false ∧ dbgOn q 3 = true ∧ dbgOn { served with pins := { trstLow := false } } 3 = false ∧
      0x80 ≤ (0xFE : Fin 256).val ∧ (0xFE : Fin 256).val ≠ 0xFF) ∧
    ({ q with pins := { trstLow := false, resetLow := true } }).pins.resetLow = true := by decide +kernel

theorem witness_RegisterWrites :
    live served = true ∧ locked (rset served rPwrLock 1) 0 rPwrLimit = true ∧ rPwrLimit % 4 = 0 ∧ rbit served rPwrLock 0 = false := by decide +kernel
theorem witness_LoReadLatchesHi : latchHi rTimGscLo = some (rTimGscLo + 4) ∧ latchHi rHltLastLo = some (rHltLastLo + 4) ∧
    served.latch = [] ∧ (1 : Fin 4) ≠ 0 := by decide +kernel

/-! Witnesses: time, ports, packets -/

/-- Ports 0 and 127 are up. -/
def up0 : Pkg := rset (rset served (rFabPstate 0) 2) (rFabPstate 127) 2
/-- A packet of a type and number for a place and offset, with operands and a payload. -/
def packet (ty seq daddr : Nat) (payload : List Byte) (op0 op1 : Nat := 0) : List Byte :=
  mkPacket { ty := ty, flags := 0, len := payload.length, seq := seq, daddr := daddr, src := 1, rctx := 5, sctx := 6, dso := 0, nreason := 0, aseq := 0, op0 := op0, op1 := op1 } payload
def onTime (t : TimeFn) : Pkg := { up0 with time := t }

theorem witness_TimeFunction :
    (timRole up0 ≠ 2 ∧ (onTime {}).time.last + 8 * exchangeTicks ≤ 8 * exchangeTicks) ∧
    (rbit (rset up0 rTimStatus 1) rTimStatus 0 = true ∧ ∀ l ∈ up0.launches, l.multi = false) ∧
    (portUp up0 (timPport up0) = true ∧ up0.time.nextAt ≤ 0) := by decide +kernel
theorem witness_TimeFunction_probe : Safety.Arrives up0 0 (packet 0x30 0 0 []) 0x30 := by unfold Safety.Arrives; decide +kernel
theorem witness_TimeFunction_reply : Safety.Arrives (onTime { t1 := some 16000 }) 0 (packet 0x31 0 0 [] 16010 16020) 0x31 ∧
    (owl (onTime { t1 := some 16000 }) (st up0).clk 0 false (packet 0x31 0 0 [] 16010 16020)).time.t1 = some 16000 ∧
    timPport up0 = (0 : Fin 128).val :=
  ⟨by unfold Safety.Arrives; decide +kernel, by decide +kernel, by decide +kernel⟩
theorem witness_TimeFunction_clauses :
    ((onTime { t1 := some 16000 }).time.step = true ∧ (onTime {}).launches = [] ∧ (onTime {}).placed = [] ∧ (onTime {}).den = {}) ∧
    (onTime { t1 := some 16000, step := false }).time.step = false ∧ bit (parseHdr (packet 0x31 0 0 [] 16010 16020)).op1 63 = false ∧
    (theta up0 16000 16010 16020 16030 0).natAbs ≤ 8 := by decide +kernel

def cabled (p : Pkg) : Pkg := stored none none [cfgRec 7 1] p
/-- The record in use names a peer for a global port. -/
def cabledTo (q : Nat) : Pkg := stored none none [{ cfgRec 7 1 with cabling := [(q, (64, q))] }] served
theorem witness_PortStates :
    let training := cabled (rset served (rFabPstate 3) 1)
    let r : Training := { held := true, place := 9, port := 4, crossed := false, flight := 0, asym := 0, level := 1 }
    (rfld up0 (rFabPstate 127) 2 0 = 2 ∧ rfld training (rFabPstate 3) 2 0 = 1) ∧ (mayTrain served 62 = true ∧ mayTrain (rset served rFabPspare 128) 127 = true ∧ mayTrain (cabledTo 126) 126 = true) ∧
    ({ r with held := false }).held = false ∧ expectedPeer training 3 ≠ some (8, 4) ∧
    (expectedPeer training 3 = some (9, 4) ∧ r.level ≤ rfld training rHltProto 7 0 + 1 ∧ rfld training rHltProto 7 0 ≤ r.level + 1) ∧
    (rfld (rset served (rFabPstate 126) 3) (rFabPstate 126) 2 0 = 3 ∧ (126 : Fin 128).val ≠ 127 ∧ rbit served rFabPspare 7 = false ∧
      (4096 - portBase served 126) % 4096 = 0) := by decide +kernel

def switching : RouteSwitch := { stop := 10000, ports := [], ops := [(1, 1)] }
theorem witness_RoutesLanesLasers :
    (({ served with rswitch := some switching }).rswitch = some switching ∧ switching.draining = false ∧ switching.stop ≤ 1808 + 8192 ∧ switching.stop ≤ 10000) ∧
    (served.rswitch = none ∧ [(5 : Fin 128)] ≠ [] ∧ rfld (rset served (rFabPstate 2) 3) (rFabPstate 2) 2 0 = 3 ∧
      ∀ r, r < 2 → rfld (rset served (rFabPstate 2) 3) (rFabPstate r) 2 0 ≠ 3) ∧
    (rfld up0 (rFabPstate 0) 2 0 = 2 ∧ rfld up0 (rFabFdstat 0) 11 8 < 8 ∧ (3 : Fin 136).val / 4 = (0 : Fin 128).val % 32 ∧ 128 ≤ (135 : Fin 136).val ∧
      (∀ j, j < 32 → ∀ e ∈ (sget up0.ports (0 / 32 * 32 + j) {}).lane, e.2 ≠ 135) ∧ (sget up0.ports 0 {}).swap = none ∧ frameNow up0 (st up0).clk 0 = 0 ∧ frameNow up0 (st up0).clk 0 + 2 ≤ 2) ∧
    8 ≤ rfld (rset up0 (rFabFdstat 0) 0x800) (rFabFdstat 0) 11 8 ∧
    (let p : Pkg := { up0 with ports := [(0, { swap := some (2, 3, 130, 0) })] }
     (sget p.ports 0 {}).swap = some (2, 3, 130, 0) ∧ 2 ≤ frameNow p (st p 8192).clk 0) ∧
    (let p : Pkg := { up0 with ports := [(0, { swap := some (2, 3, 130, 1) })] }
     (sget p.ports 0 {}).swap = some (2, 3, 130, 1) ∧ 3 ≤ frameNow p (st p 12288).clk 0) ∧
    (rbit (rset served (rFabFdstat 0) 0x12) (rFabFdstat 0) (1 + 0) = true ∧ rbit (rset served (rFabFdstat 0) 0x12) (rFabFdstat 0) 5 = false ∧
      rbit (rset served (rFabFdstat 0) 0x12) (rFabFdstat 0) 4 = true ∧ rbit (rset served (rFabFdstat 0) 0x02) (rFabFdstat 0) 4 = false) := by decide +kernel

theorem hbm_plain (n : Nat) (h : 0 < n ∧ n ≤ 4096) : Safety.PlainAccess served (hbmUserEnd - n) n := by
  refine ⟨by decide +kernel, rfl, rfl, h.1, h.2, Or.inl ?_⟩
  have h1 : hbmUserEnd - n + n ≤ hbmUserEnd := by
    have := h.2
    unfold hbmUserEnd
    omega
  simp [target, h1]
theorem witness_ServedAccesses : Safety.PlainAccess served (hbmUserEnd - 4096) 4096 ∧ Safety.PlainAccess served (hbmUserEnd - 8) 8 ∧
    Safety.PlainAccess served (sliceBase 5) 8 ∧ (hbmUserEnd - 8) % 8 = 0 ∧
    mnat served.mem 0 8 = 0 ∧ retired (rset served rMemStatus 2) = true ∧ retired served = false ∧ target served (hbmUserEnd - 7) 8 = none :=
  ⟨hbm_plain _ (by decide), hbm_plain _ (by decide), ⟨by decide +kernel, rfl, rfl, by decide, by decide, Or.inr ⟨5, by decide +kernel⟩⟩,
    by decide +kernel⟩

/-- Context 5 expects number 7, and has seen number 9. -/
def ctx5 : Pkg := { up0 with ctxs := [(5, { peer := 1, pctx := 6, rxbase := 7, rxmap := 4#256 })] }
def fresh (p : Pkg) (ty seq daddr : Nat) (payload : List Byte) : Bool :=
  let pkt := packet ty seq daddr payload
  let h := parseHdr pkt
  let p' := Safety.heard p (st p).clk 0 pkt
  decide (h.ty = ty) && carries p 0 ty && decide (placeOf h.daddr = ownPlace p) && packetOk pkt && !underWay p' h
    && decide (respsHeld p' < 4096) && decide (seqAhead (ctx p' h.rctx) h.seq < 256) && !(ctx p' h.rctx).rxmap.getLsbD (seqAhead (ctx p' h.rctx) h.seq)
/-- Whether the request of a packet waits for HBM. -/
def asks (ty daddr : Nat) (payload : List Byte) : Bool :=
  (hbmAsks ctx5 ty daddr 0 0 payload).isSome
theorem witness_PacketsApplied_now : let a := sliceBase 5
    (fresh ctx5 0x01 7 a [1#8] = true ∧ fresh ctx5 0x06 262 a [0#8, 0, 0, 0, 0, 0, 0, 0] = true ∧ fresh ctx5 0x07 8 a [0#8, 0, 0, 0] = true ∧
      fresh ctx5 0x09 8 a [] = true ∧ fresh ctx5 0x34 8 64 [] = true ∧ fresh ctx5 0x02 8 a [] = true ∧ fresh ctx5 0x04 8 a [] = true ∧ fresh ctx5 0x05 8 a [] = true) ∧
    (∀ e ∈ [(0x01, [1#8]), (0x06, List.replicate 8 0#8), (0x07, List.replicate 4 0#8), (0x09, []), (0x04, []), (0x05, [])], asks e.1 a e.2 = false) ∧
    hbmAsks ctx5 0x02 a 8 0 [] = none ∧
    (ok (fabStore ctx5 (st ctx5).clk a [1#8]).2 = true ∧ ok (srvFloatAdd ctx5 (st ctx5).clk .b64 a (List.replicate 8 0#8)).2 = true ∧
      ok (srvFloatAdd ctx5 (st ctx5).clk .b32 a [0#8, 0, 0, 0]).2 = true ∧ ok (srvFetchAdd ctx5 (st ctx5).clk a 1).2 = true ∧
      ok (fabLoad ctx5 (st ctx5).clk a 8).2 = true ∧ ok (srvCas ctx5 (st ctx5).clk a 0 1).2 = true) := by
  decide +kernel
theorem witness_PacketsApplied_queued :
    (fresh ctx5 0x01 7 64 [1#8] = true ∧ fresh ctx5 0x06 262 64 [0#8, 0, 0, 0, 0, 0, 0, 0] = true ∧ fresh ctx5 0x07 8 64 [0#8, 0, 0, 0] = true ∧
      fresh ctx5 0x09 8 64 [] = true ∧ fresh ctx5 0x02 8 64 [] = true ∧ fresh ctx5 0x04 8 64 [] = true ∧ fresh ctx5 0x05 8 64 [] = true) ∧
    (∀ e ∈ [(0x01, [1#8]), (0x06, List.replicate 8 0#8), (0x07, List.replicate 4 0#8), (0x09, []), (0x04, []), (0x05, [])], asks e.1 64 e.2 = true) ∧
    (hbmAsks ctx5 0x02 64 8 0 []).isSome = true := by
  decide +kernel
theorem witness_PacketsApplied_refused :
    packetOk ((packet 0x01 7 64 [1#8]).set 64 0) = false ∧
    (seqAhead (ctx ctx5 5) 6 ≥ 2 ^ 31 ∧ (seqAhead (ctx ctx5 5) 9 < 256 ∧ (ctx ctx5 5).rxmap.getLsbD (seqAhead (ctx ctx5 5) 9) = true)) ∧
    (256 ≤ seqAhead (ctx ctx5 5) 263 ∧ seqAhead (ctx ctx5 5) 263 < 2 ^ 31) ∧ ok (fabStore ctx5 (st ctx5).clk hbmUserEnd [1#8]).2 = false ∧
    fresh ctx5 0x01 7 hbmUserEnd [1#8] = true ∧ asks 0x01 hbmUserEnd [1#8] = false ∧ listedType 0x3F = false ∧ carries ctx5 0 0x3F = true := by decide +kernel
theorem witness_PacketsApplied_full :
    let r : Resp := { rctx := 9, rseq := 9, pkt := { ctx := 9, seq := 9, bytes := [], who := .firmware, opn := false } }
    let p : Pkg := { ctx5 with resps := List.replicate 4096 r }
    let h := parseHdr (packet 0x02 8 64 [])
    4096 ≤ respsHeld p ∧ underWay p h = false ∧ seqAhead (ctx p h.rctx) h.seq < 256 ∧ (ctx p h.rctx).rxmap.getLsbD (seqAhead (ctx p h.rctx) h.seq) = false := by
  decide +kernel
theorem witness_TimeFunction_stamp : field (packet 0x30 0 0 []) 0 1 = 0x30 ∧ (linkPacket up0 0x31 1 9 (b2n true * 2 ^ 63)).length = 64 := by decide +kernel
/-! Witnesses: answers, timeouts, slots, forwarding -/

def out0 (sent due : Option Nat) (resends : Nat) : OutPkt :=
  { ctx := 5, seq := 0, bytes := packet 0x02 0 64 [], who := .firmware, opn := true, sent := sent, due := due, resends := resends }
/-- Context 5 with a request that has been sent. -/
def asked : Pkg := { ctx5 with outs := [out0 (some 0) none 0] }
def nakPacket (reason : Nat) : List Byte :=
  mkPacket { ty := 0x11, flags := 0, len := 0, seq := 8, daddr := 0, src := 1, rctx := 5, sctx := 6, dso := 0, nreason := reason, aseq := 0, op0 := 0, op1 := 0 } []
theorem witness_AnswersTaken :
    (outFor asked (parseHdr (packet 0x03 7 0 [1#8])) = some (out0 (some 0) none 0) ∧ fresh asked 0x03 7 0 [1#8] = true ∧ fresh asked 0x08 7 0 [0#8, 0, 0, 0, 0, 0, 0, 0] = true) ∧
    (fresh ctx5 0x10 7 0 [] = true ∧ outFor ctx5 (parseHdr (packet 0x10 7 0 [])) = none ∧
      (respFor { ctx5 with resps := [{ rctx := 5, rseq := 0, pkt := out0 (some 0) none 0 }] } (parseHdr (packet 0x10 7 0 []))).isSome = true) ∧
    ((parseHdr (nakPacket 1)).nreason = 1 ∧ (parseHdr (nakPacket 5)).nreason = 5 ∧ (parseHdr (nakPacket 1)).ty = 0x11 ∧ packetOk (nakPacket 5) = true ∧
      (outFor asked (parseHdr (nakPacket 5))).isSome = true) ∧
    fresh ctx5 0x33 7 0 [] = true := by decide +kernel

theorem witness_TimeoutsRetriesOpenSlots :
    (heldPkt asked 5 0 = some (out0 (some 0) none 0) ∧ (out0 (some 0) none 0).dead = false ∧ (out0 (some 0) none 0).due = none ∧ 0 + (out0 (some 0) none 0).rto ≤ 12500 ∧ (out0 (some 0) none 0).resends < (out0 (some 0) none 0).rlim ∧
      (out0 (some 0) none 8).rlim ≤ (out0 (some 0) none 8).resends ∧
      ({ asked with outs := [out0 (some 0) none 8] }).outs.find? (fun x => x.ctx == 5 && x.seq == 0) = some (out0 (some 0) none 8)) ∧
    (let p : Pkg := { ctx5 with resps := [{ rctx := 5, rseq := 3, pkt := out0 (some 0) none 8 }] }
     heldPkt p 5 0 = some (out0 (some 0) none 8) ∧ p.outs.find? (fun x => x.ctx == 5 && x.seq == 0) = none) ∧
    ((ctx ctx5 5).rxmap ≠ 0#256 ∧ (ctx ctx5 5).stall + 8192 ≤ 8192) ∧
    (slotNow up0 (st up0 240).clk 0 % 16 = 15 ∧ (sget up0.ports 0 {}).ran ≤ slotStart up0 (st up0 240).clk 0) ∧
    (keyLe (2, 0, 0) (1, 0, 0) = false ∧ keyLe (1, 0, 0) (1, 0, 0) = true) ∧
    openNow (Safety.credited up0 (st up0 240).clk 0 1) (st up0 240).clk 0 = false ∧
    (openNow (Safety.credited up0 (st up0 0).clk 0 1) (st up0 0).clk 0 = true ∧ beforeNextL (Safety.credited up0 (st up0 0).clk 0 1) (st up0 0).clk 0 = true ∧
      drained (Safety.credited up0 (st up0 0).clk 0 1) 0 = false) ∧
    (0x7FFFFF + 1 ≤ 0x800000 ∧ tileInService served 127 = true ∧ served.badLines = [] ∧ served.ceLines = [] ∧ ∀ f ∈ (tile served 127).infl, combWriter f = false) := by
  decide +kernel

/-- Memory with these bytes. -/
def memOf (l : List (Nat × List Byte)) : Mem := l.foldl (fun m e => mwrite m e.1 e.2) []
/-- A plan at 4096 with a traffic schedule of two entries: slot 2 of frame 0 on port 0 sends the first packet of context 5 by tile 0, slot
3 sends what passes from port 1. -/
def trafficPlan : Mem := memOf [(4096 + 0x60, natLe 4 5 ++ natLe 4 0x200 ++ natLe 4 48), (4096 + 0x200, natLe 4 2),
  (4096 + 0x210, [0#8, 0, 0, 0, 2, 0, 0, 0, 5, 0, 0xD4, 0x30, 0, 0, 0, 3]), (4096 + 0x220, [0#8, 0, 0, 0, 3, 0, 4, 1])]
def trafficking : Pkg := { up0 with mem := trafficPlan, plans := [(1, { base := 4096, len := 4096 })], launches := [launch1 1] }
theorem witness_SlotsRun :
    (findLaunch trafficking 1 = some (launch1 1) ∧ (launch1 1).running = true ∧ (launch1 1).closed = false ∧ (launch1 1).L + 4096 * 0 + 16 * 3 ≤ 48 ∧
      (sget trafficking.ports 0 {}).ran ≤ 32) ∧
    ((numbered (planSlots trafficking 1)).filter (fun e => e.1.frame == 0 && e.1.slot == 2 && e.1.port == 0)).any (fun e => (e.1.ukind == 4) == false) = true ∧
    ((numbered (planSlots trafficking 1)).filter (fun e => e.1.frame == 0 && e.1.slot == 3 && e.1.port == 0)).any (fun e => (e.1.ukind == 4) == true) = true := by
  decide +kernel
theorem witness_SlotsRun_entries :
    let e : Slot := { frame := 0, slot := 2, port := 0, ukind := 0, unit := 0, cx := 5, rto := 12500, pkt := 0, rlim := 3 }
    let o := { out0 none none 0 with opn := false }
    let p : Pkg := { up0 with outs := [o] }
    let w : Wire := { port := 1, bytes := packet 0x01 0 0 [], hops := 4, tick := 0 }
    let transit (w : Wire) : Pkg := { up0 with ports := [(0, { transit := [w] })] }
    (heldPkt p e.cx (slotSeq (launch1 1) e) = some o ∧ o.sent = none ∧ o.ready = true ∧ sentCount p < 2048 ∧ sentOn p e.cx < 256 ∧
      slotFits p e.port (flitsOf o.bytes) = true ∧ destFull (tile p e.unit) (placeOf (parseHdr o.bytes).daddr) = false) ∧
    heldPkt up0 e.cx (slotSeq (launch1 1) e) = none ∧
    (heldPkt { up0 with outs := [{ o with ready := false }] } e.cx 0 = some { o with ready := false }) ∧
    (sget up0.ports e.unit {}).transit[0]? = none ∧
    ((sget (transit w).ports e.unit {}).transit[0]? = some w ∧ w.hops < 5 ∧ slotFits (transit w) 0 (flitsOf w.bytes) = true ∧ portUp (transit w) 0 = true) ∧
    (sget (transit { w with hops := 5 }).ports e.unit {}).transit[0]? = some { w with hops := 5 } := by decide +kernel

theorem witness_PacketsForwarded :
    let away := packet 0x01 7 (2 ^ 46) [1#8]
    let routed := rset up0 (rInpod 0 1) 0x101
    (carries up0 0 (parseHdr away).ty = true ∧ placeOf (parseHdr away).daddr ≠ ownPlace up0 ∧ (parseHdr away).ty < 0x30) ∧
    0x33 < (parseHdr (packet 0x34 7 (2 ^ 46) [])).ty ∧
    route (owl up0 (st up0).clk 0 false away) 1 (parseHdr away).ty = none ∧
    route (owl routed (st routed).clk 0 false away) 1 (parseHdr away).ty = some 1 ∧
    (sget routed.ports 0 {}).held + flitsOf away ≤ 256 ∧ isWaggle 0x01 = false ∧ isWaggle 0x23 = true ∧
    (parseHdr (packet 0x10 7 (2 ^ 46) [])).ty = 0x10 := by decide +kernel

/-! Witnesses: placed actions, failures, rings, descriptors, host accesses -/

def placedOne (kind unit spare : Nat) (started : Bool) (stage : Nat) : Placed :=
  { id := 1, kind := kind, unit := unit, dur := 25000, deadline := 0, req := 0, started := started, stage := stage, spare := spare }
def placing (x : Placed) : Pkg := { served with placed := [x] }
theorem due_start (kind unit : Nat) : Safety.DueToStart (st (placing (placedOne kind unit 16 false 0)) 0) 1 (placedOne kind unit 16 false 0) :=
  ⟨rfl, rfl, rfl, Nat.le_refl _⟩
theorem due_end (kind unit spare : Nat) : Safety.DueToEnd (st (placing (placedOne kind unit spare true 0)) 25000) 1 (placedOne kind unit spare true 0) :=
  ⟨rfl, rfl, show 0 + 25000 ≤ 25000 by decide +kernel⟩
theorem witness_PlacedActions :
    unitState (placing (placedOne 0x20 0 16 false 0)) 16 = 1 ∧ unitState (placing (placedOne 0x21 256 258 false 0)) 258 = 1 ∧
    unitState (placing (placedOne 0x22 288 289 false 0)) 289 = 1 ∧ (placedOne 0x20 0 16 true 0).unit ≠ (placedOne 0x20 0 16 true 0).spare ∧
    (let p := rset served (rFabFdstat 0) 0x10
     rbit p (rFabFdstat ((placedOne 0x26 2 0 true 0).unit / 4)) 4 = true ∧ rbit p (rFabFdstat 0) 5 = false) ∧
    (placing (placedOne 0x25 (31 * 32 + 31) 0 true 0)).placed.find? (fun y => y.kind == 0x25 && y.unit == 31 * 32 + 31) = some (placedOne 0x25 1023 0 true 0) ∧
    (served.placed.find? (fun y => y.kind == 0x25 && y.unit == 0) = none ∧ 2 ≤ sget ({ served with repairs := [(laneKey 0 0, 2)] }).repairs (laneKey 0 0) 0 ∧
      sget served.repairs (laneKey 0 0) 0 < 2) ∧
    ((∃ x ∈ (placing (placedOne 0x28 4 0 false 0)).placed, x.kind = 0x28 ∧ x.unit = (4 : Fin 8).val) ∧ unitState served (304 + 4) = 0 ∧
      freeSpare (placing (placedOne 0x28 4 0 false 0)) (304 + 4) = some 311) ∧
    ((placedOne 2 16 0 false 0).kind < 0x20 ∧ (placedOne 2 16 0 false 0).kind ≠ 1) ∧
    (let x := { placedOne 1 0 16 true 2 with start := 0 }
     findPlaced (placing x) 1 = some x ∧ x.kind = 1 ∧ x.stage = 2 ∧ x.start + 200000 ≤ 200000 ∧ x.warned = false) :=
  ⟨by decide +kernel, by decide +kernel, by decide +kernel, by decide, by decide +kernel, by decide, by decide +kernel,
    ⟨⟨_, List.mem_singleton.2 rfl, rfl, rfl⟩, by decide +kernel⟩, by decide, by decide⟩

theorem witness_FailuresAndRecords :
    rbit served rMemStklost 31 = false ∧ served.gates = [] ∧ rbit (rset served rMemStklost 1) rMemStklost 0 = true ∧ (tile (running (tileWith 0 [])) 0).launch = some 1 ∧
    (let p : Pkg := { served with store := { copies := [cfgRec 8 1, cfgRec 8 1, cfgRec 7 1], next := some (cfgRec 8 1) } }
     recInUse p = some (cfgRec 8 1) ∧ p.store.next = some (cfgRec 8 1) ∧ p.store.copies.length = 3 ∧ p.store.copies.take 2 = [cfgRec 8 1, cfgRec 8 1]) ∧
    served.health.ready + (rget served rHltWindow + 1) * windowTicks * tickUnits served ≤ 15000000000 * 34 ∧
    (List.replicate 9 0).length < 10 ∧ 10 ≤ (List.replicate 10 0).length ∧ (List.replicate 64 0).length ≤ 64 := by decide +kernel

/-- Submission ring 63 of depth 16 on completion ring 63 of depth 16, both enabled, an ECL port up. -/
def ringed : Pkg :=
  pk [(rPwrStatus, 3), (rGlbStatus, 0x401), (rHifStatus, 16), (rSq 63 8, 0x13F04), (rCq 63 8, 0x10004), (rSq 63 0x10, 1), (rCq 63 0x10, 0)]
def op1 (desc : List Byte) : Op := { id := 1, sq := 63, cq := 63, tag := 9, desc := desc, arrival := 0 }
theorem witness_RingsAndCompletions :
    (live ringed = true ∧ (15#32).toNat % 65536 < sqDepth ringed 63 ∧ sqDepth ringed 63 ≤ (16#32).toNat % 65536 ∧ (15#32).toNat % 65536 < cqDepth ringed 63 ∧
      cqDepth ringed 63 ≤ (16#32).toNat % 65536 ∧ sqEn ringed 0 = false ∧ cqEn ringed 0 = false ∧ sqEn ringed 63 = true ∧ cqEn ringed 63 = true ∧
      rfld ringed (rCq 63 0x14) 16 0 = 0 ∧ rfld (rset ringed (rCq 63 0x14) 1) (rCq 63 0x14) 16 0 ≠ 0) ∧
    nextRing ringed ((63 : Fin 64) / 32) = some 63 ∧
    (let o := op1 []
     let p : Pkg := { ringed with ops := [o] }
     findOp p o.id = some o ∧ eclUp { served with ops := [o] } = false ∧ eclUp p = true ∧ o.cq < 64 ∧ rfld p (rCq o.cq 0xC) 15 0 < cqDepth p o.cq ∧
       rfld p (rCq o.cq 0xC) 15 0 + 1 < cqDepth p o.cq ∧ rfld (rset p (rCq 63 0xC) 0x1000F) (rCq 63 0xC) 15 0 + 1 = cqDepth p 63) := by decide +kernel

/-- A descriptor of a kind with fields at offsets. -/
def desc (kind : Nat) (fields : List (Nat × List Byte)) : List Byte :=
  fields.foldl (fun d e => d.take e.1 ++ e.2 ++ d.drop (e.1 + e.2.length)) (natLe 1 kind ++ List.replicate 63 0#8)
def opened (d : List Byte) : Pkg := { ringed with ops := [op1 d] }
theorem begins_of (d : List Byte) (kind : Nat) (h : field d 0 1 = kind ∧ descOk d = true) : Safety.Begins (opened d) 1 kind (op1 d) :=
  ⟨rfl, rfl, h.1, h.2, show retired ringed = false by decide +kernel⟩
/-- A plan of tile 0 at 4096 with PREP 2,500 and WC 5 at both grades. -/
def smallPlan : Mem := memOf [(4096 + 0x10, natLe 8 5 ++ natLe 8 5), (4096 + 0x30, [1#8]), (4096 + 0x54, natLe 4 2500)]
def planned (d : List Byte) : Pkg := { opened d with mem := smallPlan, plans := [(1, { base := 4096, len := 4096 })] }
theorem planned_begins (d : List Byte) (kind : Nat) (h : field d 0 1 = kind ∧ descOk d = true) : Safety.Begins (planned d) 1 kind (op1 d) :=
  ⟨rfl, rfl, h.1, h.2, show retired ringed = false by decide +kernel⟩
def launchDesc (kind L D : Nat) : List Byte := desc kind [(4, natLe 2 1), (8, natLe 8 L), (16, natLe 8 D)]
def accepted (d : List Byte) : Bool :=
  let p := beginOp (planned d) 1
  admission p (st p 0).clk 0 (launchAsk p (field d 4 2) (field d 8 8) (field d 16 8) false) == .accept
theorem witness_DescriptorsCarriedOut_launch :
    Safety.Begins (planned (launchDesc 2 3000 3005)) 1 2 (op1 (launchDesc 2 3000 3005)) ∧ bit (field (launchDesc 2 3000 3005) 1 1) 0 = false ∧
    accepted (launchDesc 2 3000 3005) = true ∧
    (Safety.Begins (planned (launchDesc 2 3001 4000)) 1 2 (op1 (launchDesc 2 3001 4000)) ∧ accepted (launchDesc 2 3001 4000) = false) ∧
    Safety.Begins (planned (launchDesc 3 3000 3005)) 1 3 (op1 (launchDesc 3 3000 3005)) :=
  ⟨planned_begins _ _ (by decide +kernel), by decide +kernel, by decide +kernel, ⟨planned_begins _ _ (by decide +kernel), by decide +kernel⟩,
    planned_begins _ _ (by decide +kernel)⟩
theorem witness_DescriptorsCarriedOut_others :
    (Safety.Begins (opened (desc 1 [])) 1 1 (op1 (desc 1 [])) ∧ planBusy (opened (desc 1 [])) 0 = false ∧ field (desc 1 []) 16 8 = 0) ∧
    (let d := desc 1 [(8, natLe 8 (hbmUserEnd - 4096)), (16, natLe 8 4096)]
     Safety.Begins (opened d) 1 1 (op1 d) ∧ bit (field d 1 1) 1 = false ∧ field d 8 8 + field d 16 8 ≤ hbmUserEnd ∧ (opened d).badLines = [] ∧ (opened d).ceLines = []) ∧
    (let d := desc 1 [(1, [2#8]), (4, natLe 2 1023), (16, natLe 8 4096)]
     Safety.Begins (opened d) 1 1 (op1 d) ∧ field d 4 2 < 1024 ∧ field d 16 8 % 4096 = 0 ∧ bit (field d 1 1) 1 = true ∧ field d 16 8 ≤ (List.replicate 4096 0#8).length) ∧
    Safety.Begins (opened (desc 6 [])) 1 6 (op1 (desc 6 [])) ∧
    (findOp (opened (desc 10 [])) 1 = some (op1 (desc 10 [])) ∧ opWaits (opened (desc 10 [])) (op1 (desc 10 [])) = true ∧ descOk (desc 10 []) = false) ∧
    (let p := rset (opened (launchDesc 2 3000 3005)) rMemStatus 2
     retired p = true ∧ descOk (launchDesc 2 3000 3005) = true ∧ opWaits p (op1 (launchDesc 2 3000 3005)) = true) :=
  ⟨⟨begins_of _ _ (by decide +kernel), by decide +kernel⟩, ⟨begins_of _ _ (by decide +kernel), by decide +kernel⟩, ⟨begins_of _ _ (by decide +kernel), by decide +kernel⟩, begins_of _ _ (by decide +kernel),
    by decide +kernel, by decide +kernel⟩
/-- Region 0 starts at 0x200000, is owned by place 3, and its STATE and GEN are these. -/
def regioned (d : List Byte) (state gen : Nat) : Pkg :=
  let p := rset (rset (opened d) (rRegion 0) 0x200000) (rRegion 0 + 8) 1
  rset p (rRegion 0 + 12) (3 + state * 2 ^ 18 + gen * 2 ^ 20)
theorem witness_DescriptorsCarriedOut_handoff :
    let d := desc 7 [(8, natLe 8 0x200000), (16, natLe 4 4)]
    let h : Handoff := { op := 1, region := 0, owner := 2 ^ 18 - 1, start := 0 }
    (field d 0 1 = 7 ∧ descOk d = true ∧ findOp (regioned d 1 4095) 1 = some (op1 d) ∧ retired (regioned d 1 4095) = false) ∧
    ((region (regioned d 1 4095) 0).state = 1 ∧
      (List.range 8192).find? (fun i => (region (regioned d 1 4095) i).state != 0 && (region (regioned d 1 4095) i).base == field d 8 8) = some 0) ∧
    (({ regioned d 2 4095 with handoffs := [h] }).handoffs.find? (fun x => x.op == 1) = some h ∧ owedTo (regioned d 2 4095) 3 = false ∧ atomicIn (regioned d 2 4095) (region (regioned d 2 4095) 0) = false ∧ h.region < 8192 ∧
      h.owner < 2 ^ 18) := by decide +kernel
theorem witness_DescriptorsCarriedOut_tables :
    let d := desc 8 [(4, [3#8]), (8, natLe 4 1), (12, natLe 4 63), (24, natLe 8 8192)]
    let w := desc 8 [(4, [1#8]), (8, natLe 4 1), (12, natLe 4 1023)]
    let c := desc 9 [(4, [63#8]), (6, natLe 2 9)]
    let t : Op := { op1 (launchDesc 2 3000 3005) with id := 2 }
    (field d 0 1 = 8 ∧ descOk d = true ∧ tableShape (field d 4 1) = some (64, 4) ∧ rbit (opened d) rHifTuperm 3 = false ∧
      rbit (rset (opened d) rHifTuperm 0xFE) rHifTuperm 3 = true ∧ field d 12 4 < 64 ∧ field d 12 4 + field d 8 4 ≤ 64 ∧ 0 + 8192 ≤ field d 24 8 ∧ switchElsewhere (opened d) 8192 = false) ∧
    (field w 0 1 = 8 ∧ descOk w = true ∧ field w 12 4 < 1024 ∧ field w 12 4 + field w 8 4 ≤ 1024 ∧
      (updateTable (beginOp (opened w) 1) (st (opened w)).clk 1 1023 (chunksOf 1 32 (List.replicate 32 0#8))).isSome = true) ∧
    (field c 0 1 = 9 ∧ descOk c = true ∧ (opened c).ops.find? (fun t => t.fromRing && t.id != 1 && t.sq == field c 4 1 && t.tag == field c 6 2) = none) ∧
    (let p : Pkg := { ringed with ops := [op1 c, t] }
     p.ops.find? (fun t => t.fromRing && t.id != 1 && t.sq == field c 4 1 && t.tag == field c 6 2) = some t ∧ t.begun = false ∧ field t.desc 0 1 = 2 ∧
       p.launches = [] ∧ p.placed = []) := by decide +kernel

/-- Window 0 lets HOST do everything at every place. -/
def windowed (p : Pkg) : Pkg :=
  rsetBytes p (rWindow 0) (natLe 8 0 ++ natLe 8 (2 ^ 46 - 1) ++ natLe 4 0 ++ natLe 4 0 ++ [0x0F#8, 0x0F, 1, 0] ++ List.replicate 4 0#8)
theorem witness_HostAccesses :
    let p := windowed ringed
    let q : Pkg := { p with ctxs := [(7, { peer := 2, pctx := 6 })] }
    (eclPortUp p 0 = true ∧ shapeOk 0 (.load 64) = true ∧ retired p = false) ∧
    (windowOk p 0 64 (accessPerm (.load 64)) clsHost = true ∧ (hbmAsks p (accessReq (.load 64) 0).ty 0 64 0 []).isSome = true) ∧
    (windowOk p (sliceBase 2) 64 (accessPerm (.load 64)) clsHost = true ∧ hbmAsks p (accessReq (.load 64) (sliceBase 2)).ty (sliceBase 2) 64 0 [] = none ∧
      (accessReq (.load 64) (sliceBase 2)).op0 = 64 ∧ ok (serveLocal (Safety.hostActive p (st p).clk) (st p).clk (sliceBase 2) (.load 64)).2 = true) ∧
    (placeOf (remoteAddr p 0) = ownPlace p) ∧
    windowOk ringed 0 64 (accessPerm (.load 64)) clsHost = false ∧
    (let q := rset (rset q (rRslotLo 15) 0) (rRslotHi 15) 0x8000
     let fa := remoteAddr q (15 * 2 ^ 30)
     placeOf fa = 2 ∧ placeOf fa ≠ ownPlace q ∧ windowOk q fa 64 (accessPerm (.load 64)) clsHost = true ∧ ctxFor q (placeOf fa) = some 7) ∧
    (lanesCount .l8 < rfld p rHifStatus 4 0 ∧ Lanes.l4 ≠ Lanes.down) := by decide +kernel

/-! Witnesses: launches, members, checkpoints, restores, collectives -/

/-- Group 0 with this package, at place 0, its only member. -/
def grouped (p : Pkg) : Pkg := rset (rset (rset p (rGroup 0 + 4) 1) (rGroup 0 + 8) 0x80) (rGroup 0 + 12) 1
def launching (y : Launch) : Pkg := { served with launches := [y] }
theorem witness_LaunchLife :
    let before := { launch1 1 with running := false, prepped := false, L := 3000 }
    let ended : Tile := { launch := some 1, ended := true }
    (findLaunch (launching before) 1 = some before ∧ before.closed = false ∧ before.restore = false ∧ before.refused = none ∧ before.L ≤ 500 + before.prep ∧ rbit (launching before) rMemStatus 2 = false ∧
      firstBad (launching before) (prepReads (launching before) before) = none) ∧
    (let y := { before with prepped := true }
     findLaunch (launching y) 1 = some y ∧ y.multi = false ∧ y.L ≤ 3000 ∧ y.causes = []) ∧
    (let p := running ended
     findLaunch p 1 = some (launch1 1) ∧ (launch1 1).L + (launch1 1).wc ≤ 900000 ∧ (launch1 1).work = 0 ∧
       ∀ u ∈ bitList 128 1, (tile p u).launch = some 1 ∧ (tile p u).ended = true) ∧
    (let y := { launch1 1 with causes := [(7, 0x20)] }
     let p : Pkg := { running ended with launches := [y] }
     findLaunch p 1 = some y ∧ 8 < y.L + y.wc ∧ y.causes ≠ [] ∧ ∀ u ∈ bitList 128 1, tileSettled p 1 u = true) ∧
    (launch1 1).causes = [] ∧ (127 : Nat) < 128 := by decide +kernel

/-- A launch record for member 0 of group 0 whose first tick is 10000, with its sum, as fragment 0 and tail of its packets. -/
def recordBytes : List Byte :=
  let b := natLe 8 10000 ++ natLe 8 5000 ++ natLe 8 30000 ++ natLe 2 1 ++ natLe 2 0 ++ List.replicate 32 0#8
  b ++ natLe 4 (crc32c b).toNat
def recordIn : List SwPkt :=
  let i : Ident := { group := 0, opc := 0xF, llo := 10000, off := 0 }
  let k : SwPkt := { ident := i, opr := 0, dt := 0, nelem := 64, chunk := 0, src := 3, frag := 0, data := recordBytes }
  [k, { k with frag := 16, data := natLe 8 (crc64 recordBytes).toNat ++ natLe 8 0 }]
theorem witness_MemberProtocol_record :
    let p : Pkg := { grouped served with swIn := recordIn }
    let i : Ident := { group := 0, opc := 0xF, llo := 10000, off := 0 }
    ((p.swIn.find? (fun k => k.ident == i && k.src == 3 && k.frag == 0)).map (fun k => k.data.length)).getD 0 = 64 ∧
    gather p i 0 3 64 = some (recordBytes, 0, false) ∧ (crc32c (recordBytes.take 60)).toNat = field recordBytes 60 4 ∧ field recordBytes 26 2 % 4096 = 0 ∧
    gValid p 0 = true ∧ retired p = false ∧ field recordBytes 24 2 ≠ 0xFFFF := by decide +kernel
/-- One of a restore: plan 0xFFFF; its targets all lie at offset 0 of place 0. -/
def restoreBytes : List Byte :=
  let b := natLe 8 10000 ++ natLe 8 5000 ++ natLe 8 30000 ++ natLe 2 0xFFFF ++ natLe 2 0 ++ List.replicate 32 0#8
  b ++ natLe 4 (crc32c b).toNat
def restoreIn : List SwPkt :=
  let i : Ident := { group := 0, opc := 0xF, llo := 10000, off := 0 }
  let k : SwPkt := { ident := i, opr := 0, dt := 0, nelem := 64, chunk := 0, src := 3, frag := 0, data := restoreBytes }
  [k, { k with frag := 16, data := natLe 8 (crc64 restoreBytes).toNat ++ natLe 8 0 }]
/-- Window 0 lets every class do everything at every place, and context 5 leads to a place. -/
def reaching (p : Pkg) (place : Nat := 1) : Pkg := { windowed p with ctxs := [(5, { peer := place, pctx := 6 })] }
/-- What the den's reads of the record's targets have brought. -/
def readsOf (p : Pkg) : Option SlotReads :=
  let b := restoreTargets (restoreBytes.drop 64)
  slotReads (askSlots p (st p).clk b) b { commit0 := [], commit1 := [], hdrA := [], hdrB := [] }
theorem witness_MemberProtocol_restore :
    gather { served with swIn := restoreIn } { group := 0, opc := 0xF, llo := 10000, off := 0 } 0 3 64 = some (restoreBytes, 0, false) := by decide +kernel
theorem witness_MemberProtocol_reads :
    let d := restoreBytes
    ((crc32c (d.take 60)).toNat = field d 60 4 ∧ field d 26 2 % 4096 = 0 ∧ field d 24 2 = 0xFFFF) ∧ gValid (grouped served) 0 = true ∧
    (readsOf (reaching (grouped served))).isSome = true ∧ readsOf (reaching (rset (grouped served) rFabPlace 1) 0) = none := by decide +kernel
def member : Launch := { launch1 1 with running := false, multi := true, nmem := 1, L := 10000, C := 5000 }
def noticed (data : List Byte) (i : Ident) : Pkg :=
  { grouped served with launches := [member], wg := [{ ident := i, opr := 0, dt := 3, nelem := 1, src := 0, hop := 0, data := data, fl := 0 }] }
theorem witness_MemberProtocol :
    (let y := { member with root := true, multi := false, restore := true, slotSel := 1 }
     findLaunch (launching y) 1 = some y ∧ y.committed = false ∧ y.closed = false ∧ y.C ≤ 5000 ∧ rootVerdict (launching y) y = none) ∧
    (let y := { member with root := true, sobj := 64, resp := 128 }
     let p : Pkg := { launching y with mem := memOf [(64, natLe 8 1), (128, [1#8])] }
     findLaunch p 1 = some y ∧ y.multi = true ∧ rootVerdict p y = none) ∧
    (let y := { member with root := true }
     findLaunch (launching y) 1 = some y ∧ (rootVerdict (launching y) y).isSome = true) ∧
    (let p := noticed (natLe 8 0) { group := 0, opc := 0xF, llo := 10000, off := 0 }
     (∃ v ∈ p.wg, v.ident = { group := 0, opc := 0xF, llo := 10000, off := 0 } ∧ field v.data 0 1 = 0) ∧
       p.launches.find? (fun y => y.multi && !y.root && y.group == 0 && y.L % 2 ^ 32 == 10000 && !y.closed) = some member ∧ 9875 + 125 ≤ member.L ∧
       member.L < 9876 + 125 ∧ member.L ≤ 9875 + 125) ∧
    (let p := noticed [0x20#8] (launchIdent 0 10000)
     findLaunch p 1 = some member ∧
       (p.wg.find? (fun v => v.ident == launchIdent member.group member.L && v.src == 0 && field v.data 0 1 != 0)).isSome = true) :=
  ⟨by decide +kernel, by decide +kernel, by decide +kernel, ⟨⟨_, List.mem_singleton.2 rfl, rfl, by decide +kernel⟩, by decide +kernel⟩, by decide +kernel⟩

/-- A policy record of group 0: BASE 0, PERIOD 100, WINDOW 60, BAROFF 1, MODE, one extent of no bytes; its manifest lies at 4096. -/
def policy (mode : Nat) : List Byte :=
  natLe 8 0 ++ natLe 2 0 ++ natLe 1 mode ++ natLe 1 0 ++ natLe 4 1 ++ natLe 8 0 ++ natLe 8 100 ++ natLe 4 60 ++ natLe 4 0 ++ natLe 4 1 ++ natLe 4 0
    ++ natLe 8 0 ++ natLe 8 1 ++ natLe 8 4096 ++ List.replicate 184 0#8
def manifest : List Byte := List.replicate 32 0#8
def armDesc : List Byte := desc 4 [(4, [1#8]), (8, natLe 8 0x1000000)]
def arming : Pkg := { grouped (opened armDesc) with mem := memOf [(0x1000000, policy 0)] }
theorem witness_Checkpoints_arm :
    let arming := reaching arming
    (let d := desc 4 [(4, [1#8]), (8, natLe 8 hbmUserEnd)]
     field d 0 1 = 4 ∧ descOk d = true ∧ field d 4 1 = 1 ∧ hbmUserEnd < field d 8 8 + 256) ∧
    (findOp arming 1 = some (op1 armDesc) ∧ opWaits arming (op1 armDesc) = true ∧ field armDesc 0 1 = 4 ∧ descOk armDesc = true ∧ retired arming = false ∧
      field armDesc 4 1 = 1 ∧ field armDesc 8 8 + 256 ≤ hbmUserEnd ∧ arming.pins.refLost = false) ∧
    (let b := mread arming.mem (field armDesc 8 8) 256
     b = policy 0 ∧ polNext b ≤ 1024 ∧ field b 64 8 + 32 * polNext b ≤ hbmUserEnd ∧ mread arming.mem (field b 64 8) (32 * polNext b) = manifest ∧
       polOk arming b manifest = true) ∧ arming.den.pol = none ∧ arming.ledger = [] ∧ arming.placed = [] ∧ arming.badLines = [] ∧ arming.ceLines = [] ∧
    (slotReads (askSlots (beginOp arming 1) (st arming).clk (policy 0)) (policy 0) { commit0 := [], commit1 := [], hdrA := [], hdrB := [] }).isSome = true := by
  decide +kernel
/-- A policy whose targets lie at place 1, in a package that reaches it. -/
theorem witness_Checkpoints_waits :
    let b := (policy 0).take 72 ++ (List.replicate 4 (natLe 8 (2 ^ 46))).flatten ++ List.replicate 152 0#8
    let p : Pkg := { reaching arming with mem := memOf [(0x1000000, b)] }
    b.length = 256 ∧ mread p.mem 0x1000000 256 = b ∧ polOk p b manifest = true ∧
      slotReads (askSlots (beginOp p 1) (st p).clk b) b { commit0 := [], commit1 := [], hdrA := [], hdrB := [] } = none := by decide +kernel

def armed (cuts : List Cut) : Pkg := { grouped served with den := { pol := some (policy 0 ++ manifest), cuts := cuts } }
def cut0 (mode phase : Nat) : Cut := { cn := 100, phase := phase, pol := policy mode ++ manifest }
def notice (kind : Nat) : WgVal :=
  { ident := { group := 0, opc := 0xD, llo := 100, off := 0 }, opr := 0, dt := 3, nelem := 2, src := 0, hop := 0, data := natLe 8 100 ++ natLe 8 kind, fl := 0 }
theorem witness_Checkpoints_cuts :
    (let d := desc 4 [(4, [2#8])]
     field d 0 1 = 4 ∧ descOk d = true ∧ field d 4 1 = 2) ∧
    (let d := desc 4 [(4, [3#8])]
     field d 0 1 = 4 ∧ descOk d = true ∧ field d 4 1 = 3 ∧ (opened d).den.pol = none ∧ (armed []).den.pol = some (policy 0 ++ manifest)) ∧
    (let p : Pkg := { armed [] with wg := [notice 1] }
     let b := policy 0 ++ manifest
     noticeHeld p (polGroup b) 100 1 0 = true ∧ findCut p 100 = none ∧ 0 + polLead b ≤ 100 + 4 * gWwc p (polGroup b) ∧ 100 = polCut b 1 ∧ p.den.from_ ≤ 1 ∧ 1 ∉ p.den.released ∧ 0 < polPeriod b) ∧
    (let p : Pkg := { armed [cut0 0 0] with wg := [notice 2] }
     findCut p 100 = some (cut0 0 0) ∧ noticeHeld p (polGroup (cut0 0 0).pol) 100 2 0 = true ∧ (cut0 0 0).phase ≠ 6 ∧ (cut0 0 0).phase ≠ 7) ∧
    (let p := armed [cut0 0 0]
     findCut p 100 = some (cut0 0 0) ∧ (∀ y ∈ p.den.cuts, y.cn ≠ 100 → y.phase = 0) ∧ p.den.lastBad = false ∧ abandonHeld p (cut0 0 0) = false ∧
       100 + polWindow (cut0 0 0).pol ≤ 160 ∧ polMode (cut0 0 0).pol = 0) ∧
    ((armed []).den.lastBad = false ∧ ({ armed [cut0 0 0] with den := { cuts := [cut0 0 0], lastBad := true } }).den.lastBad = true) ∧
    (findCut (armed [cut0 1 8]) 100 = some (cut0 1 8) ∧ (cut0 1 8).phase = 8 ∧ polMode (cut0 1 8).pol = 1 ∧
      owesHbm (armed [cut0 1 8]) .den = false ∧
      owesHbm { armed [cut0 1 8] with queues := [(0, [{ who := .den, line := 0, bytes := 64, wr := [], sq := false }])] } .den = true) ∧
    ((cut0 0 4).phase = 4 ∧ (cut0 0 1).phase = 1 ∧ 100 + polBaroff (cut0 0 4).pol ≤ 101) := by decide +kernel
def voted (v : Nat) : Pkg :=
  { armed [cut0 0 5] with wg := [{ ident := barrierIdent (cut0 0 5), opr := 2, dt := 3, nelem := 1, src := 0, hop := 1, data := natLe 8 v, fl := 0 }] }
theorem witness_Checkpoints_votes :
    (wgResult (voted 0) (barrierIdent (cut0 0 5)) 3 2 = some (natLe 8 0, 0) ∧ leNat (natLe 8 0) ≠ 1) ∧
    (wgResult (voted 1) (barrierIdent (cut0 0 5)) 3 2 = some (natLe 8 1, 0) ∧ leNat (natLe 8 1) = 1) ∧
    ((cut0 0 7).phase = 7 ∧ (cut0 0 7).shard = [] ∧ ∀ o ∈ (armed [cut0 0 7]).outs, o.who ≠ .den) ∧
    (let b := policy 0 ++ manifest
     (armed []).den.from_ ≤ 1 ∧ polCut b 1 + 4 * gWwc (armed []) (polGroup b) ≤ 100 + polLead b ∧ findCut (armed []) (polCut b 1) = none ∧
       1 ∉ (armed []).den.released ∧ 100 < polCut b 1 + polWindow b) := by decide +kernel

def restoreDesc : List Byte := desc 5 [(8, natLe 8 3000), (16, natLe 8 90000)]
def restoreRecord : List Byte := natLe 8 0 ++ natLe 4 1 ++ List.replicate 116 0#8
/-- A shard header of one extent of 64 bytes at 0. -/
def oneExtent : List Byte := natLe 4 0 ++ natLe 2 0 ++ natLe 2 1 ++ List.replicate 264 0#8 ++ natLe 8 64 ++ natLe 8 0
def restoring (run : Bool) : Launch :=
  { launch1 1 with running := run, restore := true, committed := true, L := 3000, D := 90000, rrec := natLe 8 0 ++ natLe 4 1 ++ natLe 2 0 ++ [1#8] ++ List.replicate 113 0#8, hdr := oneExtent }
theorem witness_Restores :
    let p := reaching (grouped (opened restoreDesc))
    let b := restoreTargets restoreRecord
    let rd : SlotReads := { commit0 := [], commit1 := [], hdrA := [], hdrB := [] }
    let q := denForget (askSlots (beginOp p 1) (st p 0).clk b) (slotAsks (askSlots (beginOp p 1) (st p 0).clk b) b)
    (findOp p 1 = some (op1 restoreDesc) ∧ opWaits p (op1 restoreDesc) = true ∧ field restoreDesc 0 1 = 5 ∧ descOk restoreDesc = true ∧ retired p = false ∧
       restoreRecord.length = 128 ∧ field restoreRecord 8 4 = 1 ∧ restoreBars (beginOp p 1) restoreRecord = false ∧ 3000 ≤ 90000) ∧
    (slotReads (askSlots (beginOp p 1) (st p 0).clk b) b rd).isSome = true ∧
    admission q (st p 0).clk 0 (restoreAsk q 3000 90000 false) = .accept ∧
    admission { q with pins := { refLost := true } } (st on 0).clk 0 (restoreAsk q 3000 90000 false) = .refuse 0x12 0 := by decide +kernel
theorem witness_Restores_waits :
    let rrec := restoreRecord.take 24 ++ (List.replicate 4 (natLe 8 (2 ^ 46))).flatten ++ List.replicate 72 0#8
    let p := reaching (grouped (opened restoreDesc))
    let b := restoreTargets rrec
    rrec.length = 128 ∧ restoreBars (beginOp p 1) rrec = false ∧ Safety.Begins p 1 5 (op1 restoreDesc) ∧
      slotReads (askSlots (beginOp p 1) (st p 0).clk b) b { commit0 := [], commit1 := [], hdrA := [], hdrB := [] } = none := by
  unfold Safety.Begins
  decide +kernel
/-- A restore whose target is in host memory (TKIND 1) or at another place (0). -/
def loading (tkind : Nat) (place : Nat) : Launch :=
  { restoring false with rrec := natLe 8 0 ++ natLe 4 1 ++ natLe 2 0 ++ natLe 1 tkind ++ List.replicate 9 0#8 ++ natLe 8 (place * 2 ^ 46) ++ List.replicate 96 0#8 }
/-- The parts of its payload, and what writing them gives. -/
def partsOf (p : Pkg) (y : Launch) (payload : List (List Byte)) : List (Option (List Byte)) :=
  let tg := polTarget (restoreTargets y.rrec) y.slotSel
  let asks : List DenAsk := (headerExtents y.hdr).map (fun e => ((tg.1, tg.2 + e.poff), e.stored))
  asks.zipIdx.map (fun e => denRead (rsetb (denAsk p (st p 3000).clk asks) rDenStatus 3 true) e.1 (payload.getD e.2 []))
def written (p : Pkg) (y : Launch) (d : List Byte) : Nat :=
  let q := modLaunch (rsetb p rDenStatus 3 true) 1 (fun z => { z with running := true })
  (restoreExtents (st p 3000).clk ((headerExtents y.hdr).zip [d]) (denForget q [])).2
theorem witness_Restores_load :
    (let y := loading 1 0
     let p := launching y
     findLaunch p 1 = some y ∧ y.restore = true ∧ y.committed = true ∧ y.running = false ∧ y.L ≤ 3000 ∧ (polTarget (restoreTargets y.rrec) y.slotSel).1 = true ∧
       (headerExtents y.hdr).length = 1 ∧ partsOf p y [List.replicate 64 1#8] = [List.replicate 64 1#8].map some ∧ written p y (List.replicate 64 1#8) = 0 ∧
       partsOf p y [[]] = [[]].map some ∧ written p y [] ≠ 0) ∧
    (let y := loading 0 1
     none ∈ partsOf (reaching (launching y)) y [] ∧ findLaunch (reaching (launching y)) 1 = some y) ∧
    (findLaunch (launching (restoring true)) 1 = some (restoring true) ∧ (restoring true).causes = [] ∧ (restoring true).multi = false) := by decide +kernel

/-- An all-reduce of 16 int64 on two members, and a broadcast; this member is number `self`. -/
def swop (opc self : Nat) : SwOp :=
  { id := 1, tile := 0, seq := 0, launch := 1, ident := { group := 0, opc := opc, llo := 0, off := 5 }, opr := 0, dt := 3, nelem := 16, w := 8, h16 := false, plim := 3, self := self, n := 2, da := 0, db := 4096, dc := 8192, daBytes := 8 }
def swarming (o : SwOp) : Pkg := { grouped served with swops := [o], launches := [launch1 1] }
theorem witness_Collectives_start :
    (findSw (swarming (swop 0 0)) 1 = some (swop 0 0) ∧ findLaunch (swarming (swop 0 0)) 1 = some (launch1 1) ∧ (launch1 1).L + 5 ≤ 5) ∧
    (let o := { swop 2 0 with started := true, nelem := 16384, n := 2 }
     findSw (swarming o) 1 = some o ∧ o.waggle = false ∧ 1 < o.nc ∧ (sget o.chunks 1 {}).part = none ∧ o.bcast = true ∧ o.self = 0 ∧ o.root 1 ≠ 0) ∧
    (let o := { swop 0 1 with started := true }
     findSw (swarming o) 1 = some o ∧ 0 < o.nc ∧ o.bcast = false ∧ kidChunks (swarming o) o 0 = some [] ∧ o.self ≠ o.root 0) ∧
    (let o := { swop 3 0 with started := true }
     findSw (swarming o) 1 = some o ∧ o.waggle = true ∧ roundDue (swarming o) (st served 5).clk 0 o.ident o.wpulls = true ∧ o.wpulls < o.plim ∧
       ({ o with wpulls := 3 }).plim ≤ ({ o with wpulls := 3 }).wpulls) := by decide +kernel
def sumJob : Job :=
  { id := 1, ue := false, unit := 0, tile := 0, seq := 0, launch := 1, op := 0xB1, idx := 0, s := 0, wc := 9, issued := 0, running := true, sparse := { waitSum := true, tick := 7 } }
/-- A swarm packet for identity (group 0, opcode, 0, 5). -/
def swPacket (ty opc chunk hop : Nat) (payload : List Byte) : List Byte :=
  mkSw { ty := ty, flags := 0, len := payload.length, seq := 7, daddr := 0, src := 1, rctx := 5, sctx := 6, dso := 0, nreason := 0, aseq := 0, op0 := 0, op1 := 0 } { ident := { group := 0, opc := opc, llo := 0, off := 5 }, opr := 0, dt := 3, chunk := chunk, nelem := 16, frag := 0, hop := hop, fl := 0 } payload
theorem witness_Collectives_packets :
    (let p : Pkg := { grouped served with jobs := [sumJob], launches := [launch1 1] }
     findJob p 1 = some sumJob ∧ sumJob.sparse.waitSum = true ∧ sumJob.closed = false ∧ gValid p sumJob.sparse.group = true ∧ 0 + sumJob.sparse.tick ≤ 7 ∧
       wgFind p (jobIdent p sumJob) false (gSelf p sumJob.sparse.group) = none) ∧
    ([0x20, 0x21, 0x22, 0x23, 0x24].all (fun ty =>
      let b := swPacket ty 0 0 0 []
      (parseHdr b).ty == ty && carries ctx5 0 ty && placeOf (parseHdr b).daddr == ownPlace ctx5 && packetOk b
        && decide (seqAhead (ctx ctx5 5) (parseHdr b).seq < 256) && !(ctx ctx5 5).rxmap.getLsbD (seqAhead (ctx ctx5 5) (parseHdr b).seq)) = true) ∧
    ok (resendChunk ctx5 (st ctx5).clk (parseHdr (swPacket 0x22 0 0 0 [])) (swPacket 0x22 0 0 0 [])).2 = true ∧
    (let b := swPacket 0x23 3 0 0 (natLe 8 1)
     let held : Pkg := { ctx5 with wg := [wgOf b] }
     disagrees ctx5 (wgOf b).ident (wgOf b).opr (wgOf b).dt (wgOf b).nelem = none ∧
       disagrees { ctx5 with swops := [swop 4 0] } (wgOf b).ident (wgOf b).opr (wgOf b).dt (wgOf b).nelem = some (swop 4 0) ∧ (swop 4 0).failed = false ∧
       disagrees { ctx5 with swops := [swop 3 0] } (wgOf b).ident (wgOf b).opr (wgOf b).dt (wgOf b).nelem = none ∧ wgHas ctx5 (wgOf b) = false ∧ wgHas held (wgOf b) = true ∧
       wgFind held (wgOf (swPacket 0x24 3 0 0 [])).ident ((wgOf (swPacket 0x24 3 0 0 [])).hop != 0) (wgOf (swPacket 0x24 3 0 0 [])).src = some (wgOf b)) := by
  decide +kernel

theorem witness_MemoryService :
    (rbit served rMemStatus 2 = false ∧ sget served.regTick 31 (2 ^ 64) ≠ 1000 ∧ rbit (rset served rMemStatus 4) rMemStatus 2 = true) ∧
    (let d : HbmDone := { line := 0, bytes := 64, data := [], rd := false, sq := false, who := .tile 0 0, tick := 0 }
     let f : InFl := { flight 2 (word 0x80 0) 9 with held := true, fin := false, pend := 1 }
     let p : Pkg := { running { launch := some 1, infl := [f] } with passed := [d] }
     p.passed[0]? = some d ∧ d.who = .tile 0 0 ∧ findInfl p 0 0 = some f ∧ f.pend = 1 ∧ f.failed = false) ∧
    (sget served.patrol 31 (0, 0, 0) = (0, 0, 0) ∧ rbit (rset served rMemCfg 2) rMemCfg 1 = true ∧ 0 + rfld (rset served rMemCfg 2) rMemScrub 23 0 ≤ 2 ^ 24) ∧
    (isHbm (lineOf (2 ^ 46 - 64)) = false ∧ lineOf (2 ^ 46 - 64) < 2 ^ 46 ∧ classifyLine 1 = .corrected ∧ classifyLine 3 = .corrected ∧
      lineOf (2 ^ 46 - 64) ∉ served.badLines ∧ classifyLine 4 = .uncorrectable ∧ classifyLine 5 = .uncorrectable) ∧
    (let d : HbmDone := { line := 64, bytes := 64, data := [1#8], rd := true, sq := false, who := .core 215, tick := 0 }
     let p : Pkg := { served with passed := [d] }
     p.passed[0]? = some d ∧ d.who = .core 215 ∧ d.rd = true ∧ d.sq = false) ∧
    (let p : Pkg := { served with ceOwed := [(64, 0)], ceLines := [64] }
     ceWaits p (lineOf 64) = true ∧ owesHbm p (.repair (lineOf 64)) = false) := by decide +kernel

/-! Witnesses: tile instructions -/

/-- A dense descriptor. -/
def dsc (addr fcode : Nat) (sizes : List Nat) (remote : Bool := false) : List Byte :=
  let n (k : Nat) : Nat := sizes.getD k 0
  natLe 8 addr ++ natLe 1 fcode ++ natLe 1 (sizes.length + 8 * b2n remote) ++ List.replicate 6 0#8 ++ (List.range 4).flatMap (fun k => natLe 4 (n k))
    ++ natLe 4 1 ++ natLe 4 (n 0) ++ natLe 4 (n 0 * n 1) ++ natLe 4 0 ++ List.replicate 16 0#8
/-- Slots 0 (A), 1 (B) and 2 (C) of an instruction word. -/
def slots : Nat := 2 ^ 84 + 2 * 2 ^ 78
/-- The plan of launch 1: groups (group 0), one job, one recipe for update engine 0. -/
def fullPlan : Mem := memOf [(4096 + 0x48, natLe 2 1), (4096 + 0x60, natLe 4 5 ++ natLe 4 0x200 ++ natLe 4 48), (4096 + 0x70, natLe 4 4 ++ natLe 4 0x400 ++ natLe 4 144),
  (4096 + 0x80, natLe 4 6 ++ natLe 4 0x800 ++ natLe 4 272), (4096 + 0x400, natLe 4 1), (4096 + 0x800, natLe 4 1), (4096 + 0x812, [1#8])]
/-- Tile 0 with a word at the head of a queue and three descriptors; windows let plans do everything. -/
def headed (q w : Nat) (a b d : List Byte) (m : Mem := fullPlan) (y : Tile := {}) : Pkg :=
  let x : Tile := { y with launch := some 1, running := true, clocks := 31, descA := [(0, a), (1, b), (2, d)] }
  rsetBytes { grouped (running (x.setQueue q [BitVec.ofNat 128 w])) with mem := m, plans := [(1, { base := 4096, len := 4096 })] }
    (rWindow 0) (natLe 8 0 ++ natLe 8 (2 ^ 46 - 1) ++ natLe 4 0 ++ natLe 4 0 ++ [0x0F#8, 1, 1, 0] ++ List.replicate 4 0#8)
/-- The head issues, and its checks pass. -/
def goes (p : Pkg) (q w : Nat) (go : Pkg → Nat → Tile → Nat → Nat → Chk (Pkg × InFl)) : Bool :=
  match ready p (st p).clk 0 q with
  | some (l, x, v, cyc) => v == w && ok (go (headIssued p 0 q w cyc 1) l (x.headTaken q w cyc 1) w cyc)
  | none => false
/-- The head issues, and its checks find a plan fault of this cause. -/
def stops (p : Pkg) (q w cause : Nat) (go : Pkg → Nat → Tile → Nat → Nat → Chk (Pkg × InFl)) : Bool :=
  match ready p (st p).clk 0 q with
  | some (l, x, v, cyc) => v == w && (match go (headIssued p 0 q w cyc 1) l (x.headTaken q w cyc 1) w cyc with
    | .error e => e.cause == cause
    | .ok _ => false)
  | none => false

def here : Nat := 0x200000000000
def h16 : Nat := 0x10
def wide : Nat := 0x50
theorem witness_TileInstructionsIssue_mx :
    (let w := word 0 (slots + 7 * 2 ^ 50)
     goes (headed 0 w (dsc here h16 [1, 1]) [] []) 0 w (goLoadw 0) = true ∧ stops (headed 0 w (dsc here h16 [257, 1]) [] []) 0 w 1 (goLoadw 0) = true) ∧
    (let w := word 1 (slots + 7 * 2 ^ 50)
     let y : Tile := { wact := some (WBuf.mk 7 1 1 256 [0#64] []) }
     goes (headed 0 w (dsc here h16 [1, 1]) [] [] fullPlan y) 0 w (goPass 0) = true ∧ stops (headed 0 w (dsc here h16 [1, 1]) [] []) 0 w 1 (goPass 0) = true) ∧
    (let w := word 2 slots
     goes (headed 0 w (dsc here 0x02 [256, 1]) [] []) 0 w (goPreload 0) = true ∧ stops (headed 0 w (dsc here 0x02 [255, 1]) [] []) 0 w 1 (goPreload 0) = true) ∧
    (let w := word 3 slots
     goes (headed 0 w [] [] (dsc here 0x02 [256, 1])) 0 w (goDrain 0) = true ∧ stops (headed 0 w [] [] (dsc here 0x02 [257, 1])) 0 w 1 (goDrain 0) = true) ∧
    (let w := word 4 (4095 * 2 ^ 66)
     goes (headed 0 w [] [] []) 0 w (goZero 0) = true ∧ stops (headed 0 (word 4 (4095 * 2 ^ 66 + 2 ^ 54)) [] [] []) 0 (word 4 (4095 * 2 ^ 66 + 2 ^ 54)) 5 (goZero 0) = true) := by
  decide +kernel

/-- A stage chain of one element: IN from slot 0, OUT to slot 2. -/
def chain : Mem := memOf [(here, [1#8, 0, 0, 0, 0, 2, 1, 0]), (here + 16, [1#8, 0, 0, 0, 0, 0, 0, 0, 0x40]), (here + 32, [0x11#8, 0, 0, 0, 0x10, 0, 0, 0, 2])]
theorem witness_TileInstructionsIssue_sc :
    let w := word 0x40 slots
    goes (headed 1 w (dsc (here + 4096) h16 [1]) [] (dsc (here + 8192) h16 [1]) chain) 1 w (goScRun 0) = true ∧
    stops (headed 1 w (dsc (here + 4096) h16 [1]) [] (dsc (here + 8192) h16 [1])) 1 w 1 (goScRun 0) = true := by decide +kernel

theorem witness_TileInstructionsIssue_dm :
    (let w := word 0x80 slots
     goes (headed 2 w (dsc here wide [2]) [] (dsc (here + 64) wide [2])) 2 w (goCopy 0) = true ∧ stops (headed 2 w (dsc here wide [2]) [] (dsc (here + 64) wide [1])) 2 w 1 (goCopy 0) = true) ∧
    (let w := word 0x81 slots
     goes (headed 2 w (dsc here wide [2]) (dsc (here + 128) 0x51 [2]) (dsc (here + 64) wide [2])) 2 w (goGather 0) = true ∧
       stops (headed 2 w (dsc here wide [2]) (dsc (here + 128) 0x50 [2]) (dsc (here + 64) wide [2])) 2 w 1 (goGather 0) = true) ∧
    (let w := word 0x82 slots
     goes (headed 2 w (dsc here wide [2]) (dsc (here + 128) 0x51 [2]) (dsc (here + 64) wide [2])) 2 w (goScatter 0) = true ∧
       stops (headed 2 w (dsc here wide [2]) (dsc (here + 128) 0x50 [2]) (dsc (here + 64) wide [2])) 2 w 1 (goScatter 0) = true) ∧
    (let w := word 0x83 slots
     goes (headed 2 w [] [] (dsc here wide [2])) 2 w (goFill 0) = true ∧ stops (headed 2 w [] [] []) 2 w 1 (goFill 0) = true) ∧
    (let w := word 0x84 (2 ^ 8)
     goes (headed 2 w [] [] []) 2 w (goCombine 0) = true ∧ stops (headed 2 (word 0x84 0) [] [] []) 2 (word 0x84 0) 5 (goCombine 0) = true) := by decide +kernel
theorem witness_TileInstructionsIssue_fabric :
    (let w := word 0x88 slots
     goes (headed 2 w (dsc here wide [2]) [] (dsc (2 ^ 46) wide [2] true)) 2 w (goSend 0 1 false) = true ∧ stops (headed 2 w (dsc here wide [2]) [] (dsc (2 ^ 46) wide [2])) 2 w 1 (goSend 0 1 false) = true) ∧
    (let w := word 0x89 slots
     goes (headed 2 w (dsc (2 ^ 46) wide [2] true) [] (dsc here wide [2])) 2 w (goGet 0 (st served).clk) = true) ∧
    (let w := word 0x8A slots
     goes (headed 2 w (dsc here 0x01 [2]) [] (dsc (2 ^ 46) 0x01 [2] true)) 2 w (goSend 0 3 true) = true ∧
       stops (headed 2 w (dsc here wide [2]) [] (dsc (2 ^ 46) wide [2] true)) 2 w 1 (goSend 0 3 true) = true) := by decide +kernel
theorem witness_TileInstructionsIssue_sy :
    ([0xA0, 0xA1, 0xA7].all (fun op => goes (headed 3 (word op 0) [] [] []) 3 (word op 0) goNop) = true) ∧
    goes (headed 3 (word 0xA2 0) [] [] []) 3 (word 0xA2 0) goUntil = true ∧
    (goes (headed 3 (word 0xA3 (syncBase 16383)) [] [] []) 3 (word 0xA3 (syncBase 16383)) goAcquire = true ∧
      stops (headed 3 (word 0xA3 (syncBase 16384)) [] [] []) 3 (word 0xA3 (syncBase 16384)) 5 goAcquire = true) ∧
    (goes (headed 3 (word 0xA4 (syncBase 0)) [] [] []) 3 (word 0xA4 (syncBase 0)) goRelease = true ∧ stops (headed 3 (word 0xA4 0) [] [] []) 3 (word 0xA4 0) 5 goRelease = true) ∧
    goes (headed 3 (word 0xA5 0) [] [] []) 3 (word 0xA5 0) goFence = true ∧
    (goes (headed 3 (word 0xA6 (2000 * 2 ^ 46)) [] [] []) 3 (word 0xA6 (2000 * 2 ^ 46)) goClkon = true ∧ stops (headed 3 (word 0xA6 0) [] [] []) 3 (word 0xA6 0) 5 goClkon = true) := by
  decide +kernel
theorem witness_TileInstructionsIssue_engines :
    ([0xB0, 0xB1].all (fun op => goes (headed 3 (word op 0) [] [] []) 3 (word op 0) (goSv 0 op) && stops (headed 3 (word op 1) [] [] []) 3 (word op 1) 5 (goSv 0 op)) = true) ∧
    ([0, 1, 2, 3].all (fun k => goes (headed 3 (word (0xC0 + k) 0) [] [] []) 3 (word (0xC0 + k) 0) (goUp 0 k)
      && stops (headed 3 (word (0xC0 + k) 1) [] [] []) 3 (word (0xC0 + k) 1) 5 (goUp 0 k)) = true) ∧
    ([0, 1, 2, 3, 4].all (fun k => goes (headed 3 (word (0xD0 + k) slots) (dsc here wide [2]) (dsc 0x10000 0x53 [16]) (dsc (here + 64) wide [2])) 3 (word (0xD0 + k) slots) (goCl 0 k)) = true) := by
  decide +kernel

theorem witness_SyInstructionsIssue :
    freshNow (headed 3 (word 0xA0 0) [] [] []) (st served).clk = [] ∧
    (ready (headed 3 (word 0xA0 0) [] [] []) (st served).clk 0 3).isSome = true ∧ word 0xA0 0 < 2 ^ 128 ∧ opcodeOf (word 0xA7 0) = 0xA7 ∧ opcodeOf (word 0xA2 0) = 0xA2 ∧
    (opcodeOf (word 0xA3 (syncBase 16383)) = 0xA3 ∧ ∃ j ≤ 16383, bits (word 0xA3 (syncBase 16383)) 45 0 = 0x220000000000 + 64 * j) ∧
    (∃ v, ready (headed 3 (word 0xA6 (2000 * 2 ^ 46)) [] [] []) (st served).clk 0 3 = some v ∧ opcodeOf v.2.2.1 = 0xA6 ∧ 5 * v.2.2.2 + 750 * tickUnits served ≤ tickUnits served * bits v.2.2.1 77 46) ∧
    (opcodeOf (word 0xA3 0) = 0xA3 ∧ ¬∃ j ≤ 16383, bits (word 0xA3 0) 45 0 = 0x220000000000 + 64 * j) :=
  ⟨by decide +kernel, by decide +kernel, by decide, by decide, by decide, ⟨by decide +kernel, 16383, by decide, by decide +kernel⟩, ⟨_, rfl, by decide +kernel⟩,
    by decide +kernel, fun ⟨j, _, h⟩ => by have e : bits (word 0xA3 0) 45 0 = 0 := by decide +kernel
                                           omega⟩
theorem witness_CopiesAndFills :
    (let w := word 0x80 slots
     let p := headed 2 w (dsc here wide [2]) [] (dsc (here + 64) wide [2])
     let a := (tile p 0).desc (slotA w)
     let d := (tile p 0).desc (slotC w)
     (ready p (st p).clk 0 2).isSome = true ∧ opcodeOf w = 0x80 ∧ a.valid 0 (launchMask p 1) true false = true ∧ d.valid 0 (launchMask p 1) true false = true ∧
       a.hbm = false ∧ d.hbm = false ∧ p.badLines = [] ∧ freshNow p (st p).clk = [] ∧ a.fcode = d.fcode ∧ a.count = d.count) ∧
    (let p := headed 2 (word 0x80 slots) (dsc here wide [2]) [] (dsc (here + 64) wide [1])
     ((tile p 0).desc 0).count ≠ ((tile p 0).desc 2).count) ∧
    (let w := word 0x04 (4095 * 2 ^ 66)
     (ready (headed 0 w [] [] []) (st served).clk 0 0).isSome = true ∧ mxCi w + mxRows w ≤ 4096 ∧ 4096 < mxCi (word 0x04 (4095 * 2 ^ 66 + 2 ^ 54)) + mxRows (word 0x04 (4095 * 2 ^ 66 + 2 ^ 54))) := by
  decide +kernel

/-- Tiles 0 and 1 wait in the same combine of one row. -/
def waits (release : Nat) : Tile :=
  { launch := some 1, running := true, infl := [{ flight 2 (word 0x84 (2 ^ 8 + release * 2 ^ 46)) release with held := true, fin := false, wait := .unit }] }
def combining (second : Tile) : Pkg := { served with tiles := [(0, waits 300), (1, second)], launches := [launch1 3] }
theorem witness_CombineStarts :
    let p := combining (waits 300)
    let w := word 0x84 (2 ^ 8 + 300 * 2 ^ 46)
    bits w 21 15 = (0 : Fin 128).val ∧
    (∀ i < bits w 14 8 + 1, waitingCombine (tile p (0 + i)) (combineKey w) = (waits 300).infl.head? ∧ (tile p (0 + i)).launch = (tile p 0).launch) ∧
    (tile p 0).infl.filter unstartedCombine = (waits 300).infl ∧ p.badLines = [] ∧ p.ceLines = [] ∧
    0 < cycleOf p (st p).clk (tile p 0).start ∧ waitingCombine (tile (combining {}) (0 + 1)) (combineKey w) = none := by decide +kernel

theorem witness_InstructionsRetire :
    let plain : InFl := flight 3 (word 0xA1 (5 * 2 ^ 100)) 1
    let heldOne : InFl := { flight 3 (word 0xA2 0) 1 with held := true }
    let p (f : InFl) : Pkg := running { launch := some 1, running := true, infl := [f] }
    (findInfl (p plain) 0 0 = some plain ∧ mayRetire (tile (p plain) 0) plain 1 = true ∧ mayRetire (tile (p plain) 0) plain 0 = false) ∧
    (heldOne.held = true ∧ heldOne.due ≤ 1 ∧ heldOne.fin = true ∧ heldOne.failed = false ∧ 0 < heldOne.due ∧ retiresFirst (tile (p heldOne) 0) heldOne = true ∧ owesHbm (p heldOne) (.tile 0 0) = false ∧ (p heldOne).badLines = []) ∧
    (({ heldOne with fin := false }).fin = false ∧ (tile (p heldOne) 0).launch = some 1 ∧ (findLaunch (p heldOne) 1).map (fun y => (y.causes, y.told)) = some ([], []) ∧
      ((findLaunch { p heldOne with launches := [{ launch1 1 with told := [(7, 0x30)] }] } 1).map (fun y => (y.causes, y.told)) = some ([], [(7, 0x30)])) ∧
      owesCopy (p heldOne) 0 0 = false ∧ owesCopy { p heldOne with swops := [{ swop 0 0 with chunks := [(0, { owed := [1] })] }] } 0 0 = true) ∧
    (let e : InFl := { flight 3 (word 0xA7 0) 1 with seq := 1 }
     let q : Pkg := running { launch := some 1, running := true, infl := [plain, e] }
     findInfl q 0 1 = some e ∧ opcodeOf e.word.toNat = 0xA7 ∧ e.held = false ∧ plain ∈ (tile q 0).infl ∧ plain.seq < e.seq) := by decide +kernel
theorem witness_UndefinedOpcodeStopsTheTile :
    let p := running ({ tileWith 3 [word 0xFF 0] with running := true })
    Safety.AtHead p 0 3 (BitVec.ofNat 128 (word 0xFF 0)) ∧ opDefined (opcodeOf (BitVec.ofNat 128 (word 0xFF 0)).toNat) = false ∧
    Safety.AtHead (running (tileWith 1 [word 0xA7 0])) 0 1 (BitVec.ofNat 128 (word 0xA7 0)) ∧ queueOf (opcodeOf (BitVec.ofNat 128 (word 0xA7 0)).toNat) ≠ (1 : Fin 4).val ∧
    (tile p 0).launch = some 1 ∧ (findLaunch p 1).isSome = true :=
  ⟨by unfold Safety.AtHead; decide +kernel, by decide +kernel, by unfold Safety.AtHead; decide +kernel, by decide +kernel, by decide +kernel, by decide +kernel⟩
theorem witness_AcquireIsSatisfied :
    let f : InFl := { flight 3 (word 0xA3 (syncBase 2)) 9 with held := true, fin := false, wait := .acquire 2 }
    let p (m : Mem) : Pkg := { running { launch := some 1, infl := [f] } with mem := m }
    let full := memOf [(syncBase 2, natLe 8 3 ++ natLe 8 3 ++ natLe 8 4)]
    let low := memOf [(syncBase 2, natLe 8 2 ++ natLe 8 3 ++ natLe 8 4)]
    memWf full = true ∧ findInfl (p full) 0 0 = some f ∧ f.wait = .acquire 2 ∧ f.fin = false ∧ f.failed = false ∧
    sext 64 (mnat full (syncBase 2 + 8) 8) ≤ sext 64 (mnat full (syncBase 2) 8) ∧ memWf low = true ∧
    sext 64 (mnat low (syncBase 2) 8) < sext 64 (mnat low (syncBase 2 + 8) 8) := by decide +kernel

/-! Witnesses: cores -/

def withCores (k : Nat) (x : Core) : State := st { running (tileWith 0 []) with cores := [(k, x)] }
/-- A forager of tile 0 in scheduled mode, at the start of its code. -/
def forager : Core := { pc := 64, codeLen := 64, sched := true, awake := true, xs := [(1, 0x200000000040#64), (2, 3#64), (3, 63#64), (4, 64#64), (5, 0x200000000041#64)] }
def runsB (s : State) (k : Nat) : Bool := coreReady s.pkg s.clk k (Machine.core s.pkg k) && (Machine.core s.pkg k).fetchOk
theorem runs_forager : Safety.Runs (withCores 0 forager) 0 := by unfold Safety.Runs; decide +kernel
theorem runs_keeper : Safety.Runs (withCores 199 {}) 199 := by unfold Safety.Runs; decide +kernel
theorem runs_service : Safety.Runs (withCores 191 {}) 191 := by unfold Safety.Runs; decide +kernel
theorem witness_ScalarResults : Safety.Runs (withCores 0 forager) 0 ∧ (forager.xget 3).toNat < 64 ∧ 64 ≤ (forager.xget 4).toNat ∧ rndOfRa 7 0 = rndOfRa (7 : Fin 8) served.cfg.radef :=
  ⟨runs_forager, by decide +kernel⟩
theorem witness_OwnSliceAccesses : Safety.Runs (withCores 0 forager) 0 ∧ memWf (withCores 0 forager).pkg.mem = true ∧
    Safety.OwnAccess (withCores 0 forager) 0 (effAddr forager 1 0) (memBytes .w64) ∧ Safety.OwnAccess (withCores 0 forager) 0 (sliceBase 0 + 0x1E00000 - 1) 1 ∧
    effAddr forager 5 0 % memBytes .w64 ≠ 0 ∧ effAddr forager 2 0 < 0x1FFF00000000 :=
  ⟨runs_forager, rfl, by unfold Safety.OwnAccess Safety.OwnBytes; decide +kernel, by unfold Safety.OwnAccess Safety.OwnBytes; decide +kernel, by decide +kernel,
    by decide +kernel⟩
/-- A forager of tile 3 in service mode, with addresses in its slice, in HBM, and what HBM brought. -/
def server : Core := { xs := [(1, 0x20000C000040#64), (2, 0x1000#64)], grant := [] }
theorem runs_server : Safety.Runs (withCores 3 server) 3 := by unfold Safety.Runs; decide +kernel
theorem slice_server : Safety.SliceAccess (withCores 3 server) 3 (effAddr server 1 0) 8 :=
  ⟨⟨rfl, by decide +kernel, rfl, rfl, by decide, by decide, Or.inl ⟨by decide, 3, by decide +kernel⟩⟩, by decide +kernel⟩
theorem witness_OwnSliceAccesses_service : Safety.Runs (withCores 3 server) 3 ∧ memWf (withCores 3 server).pkg.mem = true ∧
    (Safety.SliceAccess (withCores 3 server) 3 (effAddr server 1 0) 8 ∧ inOwn 3 (effAddr server 1 0) 8 = true) ∧
    (server.sched = false ∧ retired (withCores 3 server).pkg = false ∧ effAddr server 2 0 % 8 = 0 ∧ effAddr server 2 0 + 8 ≤ hbmUserEnd ∧ server.grant = []) ∧
    ({ server with grant := [(0x1000, List.replicate 8 1#8, false)] }).grant.find? (fun g => g.1 == 0x1000) = some (0x1000, List.replicate 8 1#8, false) ∧
    forager.dcLine 0x200000000040 = none ∧ (forager.dcUse 0x200000000040 (List.replicate 64 1#8)).dcLine 0x200000000040 = some (List.replicate 64 1#8) :=
  ⟨runs_server, rfl, ⟨slice_server, by decide +kernel⟩, by decide +kernel, by decide +kernel, by decide +kernel, by decide +kernel⟩
theorem witness_OwnSliceAccesses_spare : Safety.Runs (withCores 215 {}) 215 ∧ inOwn 215 (sliceBase 143) 8 = true :=
  ⟨by unfold Safety.Runs; decide +kernel, by decide +kernel⟩
theorem witness_CoreFaults :
    (let s := withCores 199 { grp := 1, awake := true }
     coreReady s.pkg s.clk 199 (Machine.core s.pkg 199) = true ∧ (Machine.core s.pkg 199).sched = false ∧ (Machine.core s.pkg 199).fetchOk = true ∧
       (Machine.core s.pkg 199).awake = true ∧ (1 : Fin 32).val % 2 ^ (Machine.core s.pkg 199).grp ≠ 0 ∧ isKeeper 199 = true ∧ 128 ≤ (199 : Fin 216).val ∧ 4 ≤ (4 : Fin 16).val) ∧
    (let s := withCores 0 { pc := 2 }
     coreReady s.pkg s.clk 0 (Machine.core s.pkg 0) = true ∧ (Machine.core s.pkg 0).fetchOk = false) ∧
    (let s := withCores 127 { forager with sched := false }
     coreReady s.pkg s.clk 127 (Machine.core s.pkg 127) = true) ∧
    (let s := withCores 0 forager
     coreReady s.pkg s.clk 0 (Machine.core s.pkg 0) = true ∧ (Machine.core s.pkg 0).sched = true ∧ (Machine.core s.pkg 0).fetchOk = true) := by decide +kernel
theorem witness_SystemInstructions : Safety.Runs (withCores 199 {}) 199 ∧ Safety.Runs (withCores 191 {}) 191 ∧ isKeeper 199 = true ∧ isKeeper 191 = false ∧
    (({} : Core).awake = false ∧ ({} : Core).waking = none ∧ forager.awake = true) ∧
    (({ waking := some 9 } : Core).waking = some 9 ∧ 9 ≤ 45 / 5 ∧ 44 / 5 < 9) ∧
    (let x : Core := { waiting := some (3, 2), watchA := [(1, 0x200000000000#64)], watchT := [(1, 5#64)] }
     let m := memOf [(0x200000000000, natLe 8 5)]
     x.waiting = some (3, 2) ∧ bit 2 1 = true ∧ (sget x.watchT 1 0#64).toNat ≤ mnat m (sget x.watchA 1 0#64).toNat 8 ∧
       (∀ i < 16, bit 2 i = true → mnat [] (sget x.watchA i 0#64).toNat 8 < (sget x.watchT i 0#64).toNat)) ∧
    ((withCores 0 forager).pkg.badLines = [] ∧ forager.sched = true ∧
      ∀ i < 16, bit 2 i = true → Safety.InSlice 0 (sget [(1, 0x200000000000#64)] i 0#64).toNat 8) :=
  ⟨runs_keeper, runs_service, by decide, by decide, by decide, by decide, by decide +kernel, by unfold Safety.InSlice; decide +kernel⟩
theorem witness_TileInterface : Safety.Runs (withCores 0 forager) 0 ∧
    ((tileWith 0 []).queue 0 = [] ∧ (tileWith 0 [0]).queue 0 ≠ [] ∧ ((tileWith 0 [0]).queue 0).length < 128 ∧ 128 ≤ ((tileWith 0 (List.replicate 128 0)).queue 0).length ∧ (63 : Fin 64).val ≠ 0) ∧
    (let p := running { tileWith 0 [] with toks := [(63, { val := 1, pend := 0, pcyc := 0 })] }
     twaitOk p (st p).clk 0 63 = true ∧ twaitOk (running (tileWith 0 [])) (st p).clk 0 63 = false) ∧
    (Safety.tokCount (tileWith 0 []) 63 < 255 ∧ 255 ≤ Safety.tokCount { tileWith 0 [] with toks := [(63, { val := 255, pend := 0, pcyc := 0 })] } 63) :=
  ⟨runs_forager, by decide +kernel⟩
theorem witness_FabricAtomics : Safety.Runs (withCores 191 { xs := [(1, 0x400000000000#64), (2, 0x400000000001#64)] }) 191 ∧
    (let x : Core := { xs := [(1, 0x400000000000#64), (2, 0x400000000001#64)] }
     let p := rsetBytes served (rWindow 0) (natLe 8 0 ++ natLe 8 (2 ^ 46 - 1) ++ natLe 4 0 ++ natLe 4 0 ++ [0x0F#8, 4, 1, 0] ++ List.replicate 4 0#8)
     let e := (x.xget 1).toNat
     placeOf e ≠ ownPlace p ∧ e % 8 = 0 ∧ windowOk p e 8 2 clsKeeper = true ∧ windowOk p e 4 3 clsKeeper = true ∧ windowOk p e 8 3 clsKeeper = true ∧
       windowOk served e 8 2 clsKeeper = false ∧ (x.xget 2).toNat % 8 ≠ 0 ∧ coreCls x = clsKeeper) ∧
    (let p := rsetBytes served (rWindow 0) (natLe 8 0 ++ natLe 8 (2 ^ 46 - 1) ++ natLe 4 0 ++ natLe 4 0 ++ [0x0F#8, 4, 1, 0] ++ List.replicate 4 0#8)
     let e := sliceBase 9 + 8
     placeOf e = ownPlace p ∧ isTileCore 191 = false ∧ e % 8 = 0 ∧ target p (localOf e) 8 = some (.slice 9) ∧ retired p = false ∧ p.badLines = [] ∧
       p.ceLines = [] ∧ memWf p.mem = true ∧ windowOk p e 8 2 clsKeeper = true ∧ windowOk p e 8 3 clsKeeper = true) :=
  ⟨by unfold Safety.Runs; decide +kernel, by decide +kernel, by decide +kernel⟩

/-- A forager with an awake vector unit, four elements of 64 bits. -/
def vectorer : Core := { forager with vl := 4 }
theorem runs_vectorer : Safety.Runs (withCores 0 vectorer) 0 := by unfold Safety.Runs; decide +kernel
theorem witness_VectorElements : Safety.Runs (withCores 0 vectorer) 0 ∧
    (vectorer.awake = true ∧ vectorer.vl ≤ vectorer.cap 0 ∧ vectorer.sew < 4 ∧ vectorer.grp < 4 ∧ VOp.add ≠ .undef ∧ kindOk vectorer .sint = true ∧
      groupOk 0 vectorer ([31, 1] ++ srcRegs (.v 2)) = true ∧ floatOf vectorer.sew = some .b64 ∧ groupOk 0 vectorer [31, 1, 2] = true) :=
  ⟨runs_vectorer, by decide +kernel⟩
theorem witness_VectorOperations : Safety.Runs (withCores 0 vectorer) 0 ∧ Safety.Runs (withCores 199 {}) 199 ∧
    (groupOk 0 vectorer [1] = true ∧ (vectorer.xget 2).toNat < vectorer.cap 0 ∧ kindOk vectorer .flt = true ∧ (7 : Fin 32).val ≤ 7 ∧ groupOk 0 vectorer ([1] ++ srcRegs (.v 2)) = true ∧
      groupOk 0 vectorer [31, 1] = true ∧ actives vectorer false = 0 :: [1, 2, 3]) ∧
    (fmtOfCode 0x02 = some .b32 ∧ fmtOfCode 0x01 = some .b64 ∧ 1 + max vectorer.g (cdiv (Fmt.width .b32 * vectorer.vl) (vbits 0)) ≤ vregs 0 ∧
      31 + max vectorer.g (cdiv (Fmt.width .b64 * vectorer.vl) (vbits 0)) ≤ vregs 0) :=
  ⟨runs_vectorer, runs_keeper, by decide +kernel, by decide +kernel⟩
theorem own_vectorer (i : Nat) (h : i < 4) : Safety.OwnAccess (withCores 0 vectorer) 0 (elemAddr vectorer 1 8 i) 8 := by
  unfold Safety.OwnAccess Safety.OwnBytes
  revert i
  decide +kernel
theorem witness_VectorMemory : Safety.Runs (withCores 0 { vectorer with awake := false }) 0 ∧ Safety.Runs (withCores 0 vectorer) 0 ∧
    (∀ i ∈ actives vectorer false, Safety.OwnAccess (withCores 0 vectorer) 0 (elemAddr vectorer 1 8 i) 8 ∧ inOwn 0 (elemAddr vectorer 1 8 i) 8 = true) ∧
    (vectorer.sewBits / 8 = 8 ∧ groupOk 0 vectorer [31] = true ∧ groupOk 0 vectorer [31, 2] = true ∧
       vectorer.vl ≤ vectorer.cap 0 ∧ vectorer.sew < 4 ∧ vectorer.grp < 4 ∧ kindOk vectorer .flt = true ∧ inOwn 0 (vectorer.xget 1).toNat ((vectorer.vl + 7) / 8) = true ∧
       (∀ i ∈ actives vectorer false, ((vectorer.xget 1).toNat + (Safety.vElemAt 0 vectorer 2 i).toNat * 8) % 2 ^ 64 = elemAddr vectorer 1 8 0) ∧
       actives { vectorer with vl := 1 } false = [0]) ∧
    Safety.OwnBytes (withCores 0 vectorer) 0 (vectorer.xget 1).toNat 1 :=
  ⟨by unfold Safety.Runs; decide +kernel, runs_vectorer,
    fun i h => ⟨own_vectorer i (by have e : actives vectorer false = [0, 1, 2, 3] := by decide +kernel
                                   rw [e] at h; simp at h; omega), by
      have e : actives vectorer false = [0, 1, 2, 3] := by decide +kernel
      have all : ∀ i ∈ [0, 1, 2, 3], inOwn 0 (elemAddr vectorer 1 8 i) 8 = true := by decide +kernel
      exact all i (e ▸ h)⟩, by decide +kernel, by unfold Safety.OwnBytes; decide +kernel⟩

/-! Witnesses: engines -/

/-- A job record of a KIND for one problem of order 1; operands 64 KiB apart. -/
def jobBytes (kind : Nat) (jf := 0) : List Byte :=
  natLe 1 kind ++ natLe 1 jf ++ natLe 2 1 ++ natLe 4 0 ++ natLe 4 1 ++ natLe 2 1 ++ natLe 2 0 ++ [0x10000, 0x20000, 0x30000, 0x40000, 0x50000, 0x60000, 0x70000, 0, 64, 64].flatMap (natLe 8)
    ++ natLe 4 1000 ++ natLe 4 0x200 ++ natLe 8 0x80000 ++ natLe 8 0x90000 ++ natLe 8 0
/-- A program of one step at 0x200 of the section, with two vectors of two elements. -/
def program (step : List Byte) : List (Nat × List Byte) :=
  let sec := 4096 + 0x400
  [(sec + 0x200, natLe 4 1 ++ [2#8, 0, 0, 0] ++ natLe 4 0x300 ++ natLe 4 0x400), (sec + 0x300, natLe 8 0xA0000 ++ natLe 4 2), (sec + 0x310, natLe 8 0xB0000 ++ natLe 4 2), (sec + 0x400, step)]
def jobMem (rec_ : List Byte) (step : List Byte) : Mem :=
  memOf ([(4096 + 0x60, natLe 4 4 ++ natLe 4 0x400 ++ natLe 4 0x1000), (4096 + 0x400, natLe 4 1), (4096 + 0x410, rec_)] ++ program step)
def job0 (op : Nat) : Job := { id := 1, ue := false, unit := 0, tile := 0, seq := 0, launch := 1, op := op, idx := 0, s := 0, wc := 1000, issued := 0, arrived := true }
def jobbed (m : Mem) (j : Job) : Pkg :=
  let p := { running (tileWith 3 []) with mem := m, jobs := [j], plans := [(1, { base := 4096, len := 8192 })] }
  rset p (jobReg p j) 0
theorem startable (m : Mem) (op : Nat) (h : mayStart (jobbed m (job0 op)) (st (jobbed m (job0 op))).clk (job0 op) = true) :
    Safety.Startable (st (jobbed m (job0 op))) 1 (job0 op) false := ⟨rfl, rfl, h⟩
/-- The record of a kind passes its checks, its operands are within reach, and the batch computes. -/
def batchOk (kind : Nat) : Bool :=
  let p := jobbed (jobMem (jobBytes kind) []) (job0 0xB0)
  let r := jobRecord p (job0 0xB0)
  mayStart p (st p).clk (job0 0xB0) && !engineAsleep p (job0 0xB0) && r.ok (0xB0 == 0xB1) && r.kind == kind
    && r.allSpans.all (fun e => (slvMap (launchMask p 1) 0 e.1 e.2.1).isSome)
    && !(batchRun r (r.ar p.cfg.radef) p.mem (slvAt (launchMask p 1) 0)).2.bad
theorem witness_BatchedJobsStart :
    ([1, 2, 3, 4, 5, 6, 7].all batchOk = true) ∧
    (let p := rset (jobbed (jobMem (jobBytes 1) []) (job0 0xB0)) (sReg served 0) 4
     engineAsleep p (job0 0xB0) = true ∧ mayStart p (st p).clk (job0 0xB0) = true) ∧
    (let p := jobbed (jobMem (jobBytes 1 16) []) (job0 0xB0)
     (jobRecord p (job0 0xB0)).ok false = false) ∧
    (let r := parseJob ((jobBytes 1).take 16 ++ natLe 8 hbmUserEnd ++ (jobBytes 1).drop 24)
     r.ok false = true ∧ ∃ e ∈ r.allSpans, (slvMap 1 0 e.1 e.2.1).isNone = true) ∧
    (jobRecord (jobbed (jobMem (jobBytes 1) []) (job0 0xB0)) (job0 0xB0)).kind ≠ 2 := by decide +kernel

/-- A running sparse job at its first step; another engine time. -/
def stepping (step : List Byte) (sp : Sparse := {}) : Pkg := jobbed (jobMem (jobBytes 0x10) step) { job0 0xB1 with running := true, sparse := sp }
/-- The step is found, its start has come, and what it names is within reach; then its end has come, as soon as its reads have passed. -/
def stepOk (op : Nat) (step : List Byte) (dur : StepCx → Nat) (spans : StepCx → List (Nat × Nat × Bool)) (act : StepCx → StepOut) : Bool :=
  let p := stepping step
  match stepAt p 1 op with
  | none => false
  | some x =>
    let due := max (stepStart p x + dur x) x.job.late
    let begun := Safety.stepBegun p x (dur x) (spans x) (act x)
    x.job.staged.isNone && decide (due ≤ jobCycle p (st p).clk x.job) && (dur x == 0 || decide (jobCycle p (st p 0).clk x.job < due))
      && (spans x).all (fun e => (slvMap x.mask x.job.unit e.1 e.2.1).isSome) && (act x).sends.isEmpty
      && (owesHbm begun (.job 1) == (spans x).any (fun e => e.2.2))
/-- A step of an operation with a function and operands. -/
def stepBytes (op fn : Nat) (a0 a1 : Nat := 0) : List Byte := [BitVec.ofNat 8 op, BitVec.ofNat 8 fn, 0, 1, 0, 0, 1, 2] ++ natLe 8 0 ++ natLe 8 a0 ++ natLe 8 a1
theorem witness_SparseSteps :
    (stepOk 0x03 (stepBytes 0x03 0) oneCycle commitSpans commitOut && stepOk 0x12 (stepBytes 0x12 0) vecDur twoVecs axpyOut && stepOk 0x13 (stepBytes 0x13 0) vecDur twoVecs xpayOut
      && stepOk 0x14 (stepBytes 0x14 0 0xFFFF) dotDur twoVecs dotOut && stepOk 0x15 (stepBytes 0x15 0) scalDur noSpans scalOut && stepOk 0x17 (stepBytes 0x17 0) vecDur copySpans copyOut
      && stepOk 0x20 (stepBytes 0x20 0 1 1) oneCycle noSpans loopOut && stepOk 0x21 (stepBytes 0x21 0) oneCycle noSpans testOut && stepOk 0x22 (stepBytes 0x22 0) oneCycle noSpans endloopOut
      && stepOk 0x3F (stepBytes 0x3F 0) oneCycle noSpans endOut) = true := by decide +kernel
def panelRec : PanelRec := ⟨0, 0, 1, 0, 0, 1, 0x10000, 0⟩
def blocks : List SchurBlk := [⟨0x10000, 0x20000, 1, 1, 1, 1⟩]
def csr : CsrRec := ⟨2, 2, 0xC0000, 0xC1000, 0xC2000, 2⟩
theorem witness_SparseSteps_records :
    (stepOk 0x01 (stepBytes 0x01 0 0x90000) (panelDur panelRec) (panelSpans panelRec) (panelOut panelRec)
      && stepOk 0x02 (stepBytes 0x02 0 0x90000) (assembleDur blocks) (assembleSpans blocks) (assembleOut blocks)
      && stepOk 0x10 (stepBytes 0x10 0 0x90000) (spmvDur csr) (spmvSpans csr) (spmvOut csr)
      && stepOk 0x11 (stepBytes 0x11 0) (fsolveDur [⟨0, [], []⟩]) (fsolveSpans [⟨0, [], []⟩]) (fsolveOut [⟨0, [], []⟩])
      && stepOk 0x16 (stepBytes 0x16 0) (exchDur (stepping [])) exchSpans (exchOut [])
      && stepOk 0x18 (stepBytes 0x18 0 0x90000) givensDur (givensSpans [0x10000]) (givensOut [0x10000])
      && stepOk 0x19 (stepBytes 0x19 0 0x90000 1) hsolveDur (hsolveSpans ⟨0x10000, 1, 0x20000⟩) (hsolveOut ⟨0x10000, 1, 0x20000⟩)) = true := by decide +kernel
/-- A step whose operand lies out of reach; one that has begun; a DOT whose sum has come; a LOOP. -/
theorem witness_SparseSteps_others :
    (match stepAt (stepping (stepBytes 0x02 0 hbmUserEnd)) 1 0x02 with
     | some x => x.job.staged.isNone && decide (stepStart (stepping (stepBytes 0x02 0 hbmUserEnd)) x ≤ jobCycle (stepping []) (st (stepping [])).clk x.job) && (assembleSpans [] x).any (fun e => (slvMap x.mask x.job.unit e.1 e.2.1).isNone)
     | none => false) = true ∧
    (let j : Job := { job0 0xB1 with running := true, staged := some ({ sp := {} }, 9) }
     let p := jobbed (jobMem (jobBytes 0x10) (stepBytes 0x15 0)) j
     (stepAt p 1 0x15).any (fun x => x.job.staged.isSome && decide (max 9 x.job.late ≤ jobCycle p (st p).clk x.job) && decide (jobCycle p (st p 0).clk x.job < 9)) = true ∧
       owesHbm p (.job 1) = false) ∧
    (let p := jobbed (jobMem (jobBytes 0x10) (stepBytes 0x14 0)) { job0 0xB1 with running := true, sum := some 5, sparse := { waitSum := true } }
     (stepAt p 1 0x14).any (fun x => x.job.sparse.waitSum && x.job.sum.isSome && decide (x.job.ends + wwcCycles p x.job.sparse.group ≤ jobCycle p (st p).clk x.job)) = true) ∧
    (match stepAt (stepping (stepBytes 0x20 0 1 1)) 1 0x20 with
     | some x => x.ar.mode == 0 && decide (0 < x.s.arg0 % 2 ^ 32) && memWf x.mem
     | none => false) = true :=
  ⟨by decide +kernel, by decide +kernel, by decide +kernel, by decide +kernel⟩

/-! Witnesses: the life of a job -/

/-- A job on its way to its engine, issued in the first cycle of its launch for tick 100. -/
def sent (ue : Bool) (s : Nat) (l : List Job) : Pkg := { running (tileWith 3 []) with jobs := { id := 1, ue := ue, unit := 0, tile := 0, seq := 0, launch := 1, op := 0xB0, idx := 0, s := s, wc := 10, issued := 1 } :: l }
def arrival (ue : Bool) (s g : Nat) (l : List Job) (late early there : Bool) : Bool :=
  let p := sent ue s l
  match findJob p 1 with
  | none => false
  | some j => j.ue == ue && !j.arrived && !j.closed && (decide (cycleAt p j.s < j.issued + 128) == late) && (decide (j.issued + 128 ≤ jobCycle p (st p g).clk j) == there)
      && (p.jobs.any (fun k => decide (k.ue = ue ∧ k.unit = j.unit ∧ k.launch = j.launch ∧ (k.issued < j.issued ∨ (k.issued = j.issued ∧ k.tile < j.tile)) ∧ j.s < k.s + k.wc)) == early)
theorem witness_EngineJobs_arrival :
    (arrival false 100 1000 [] false false true && arrival true 100 1000 [] false false true && arrival false 10 1000 [] true false true && arrival false 100 10 [] false false false
      && arrival false 100 1000 [{ id := 2, ue := false, unit := 0, tile := 1, seq := 0, launch := 1, op := 0xB0, idx := 0, s := 95, wc := 10, issued := 0 }] false true true) = true := by decide +kernel
/-- A running job at its end. -/
def ending (ue : Bool) (op : Nat) : Pkg :=
  let p := enterFlight (running (tileWith 3 [])) 0 3 0 (word op 0) 0 (flight 3 (word op 0) 10)
  { p with jobs := [{ job0 op with ue := ue, running := true, ends := 100, writes := [[{ addr := 8, w := 8, v := 7 }]] }] }
def endsNow (ue : Bool) (op : Nat) : Bool :=
  let p := ending ue op
  match findJob p 1 with
  | none => false
  | some j => j.running && j.ue == ue && j.op == op && decide (j.ends ≤ jobCycle p (st p).clk j) && decide (jobCycle p (st p 1).clk j < j.ends) && p.badLines.isEmpty && p.ceLines.isEmpty && (findInfl p j.tile j.seq).isSome
theorem witness_EngineJobs_end : (endsNow false 0xB0 && endsNow true 2 && endsNow true 0 && endsNow true 3) = true := by decide +kernel
/-- A sparse job may start; its program passes, or has no step. -/
theorem witness_EngineJobs_sparse :
    let good := jobbed (jobMem (jobBytes 0x10) (stepBytes 0x3F 0)) (job0 0xB1)
    let g := readProg good.mem ((launchSec good 1 4).getD (0, 0)).1 (jobRecord good (job0 0xB1)).prog
    let bad := jobbed (jobMem (jobBytes 0x10) (stepBytes 0x40 0)) (job0 0xB1)
    let b := readProg bad.mem ((launchSec bad 1 4).getD (0, 0)).1 (jobRecord bad (job0 0xB1)).prog
    mayStart good (st good).clk (job0 0xB1) = true ∧ (jobRecord good (job0 0xB1)).ok true = true ∧ (jobRecord good (job0 0xB1)).kind = 0x10 ∧
    startCheck good (job0 0xB1) (jobRecord good (job0 0xB1)) (launchMask good 1) = none ∧ progOk good.mem g = true ∧
    (∀ i < g.nstep, (readStep good.mem g i).op ≠ 0x14) ∧ (∀ i < g.vcount, (slvMap (launchMask good 1) 0 (readVec good.mem g i).addr (8 * (readVec good.mem g i).len)).isSome = true) ∧
    startCheck bad (job0 0xB1) (jobRecord bad (job0 0xB1)) (launchMask bad 1) = none ∧ progOk bad.mem b = false := by decide +kernel

/-- A recipe of kind 1 on UE 0 with one segment of one element, at 0x10000; its state says what PASS1 left. -/
def recipeMem (state : List Byte) : Mem :=
  memOf [(4096 + 0x80, natLe 4 6 ++ natLe 4 0x400 ++ natLe 4 0x1000), (4096 + 0x400, natLe 4 1),
    (4096 + 0x410, [1#8, 0, 1, 0] ++ natLe 2 1 ++ natLe 2 0xFFFF ++ natLe 4 0x3F000000), (4096 + 0x428, natLe 4 0x3F800000),
    (4096 + 0x430, natLe 8 0x20000 ++ natLe 8 0x100000 ++ natLe 8 0x30000),
    (0x30000, [0#8, 0, 0, 0] ++ natLe 4 1 ++ natLe 4 1 ++ natLe 4 0 ++ [0x40000, 0x41000, 0x42000, 0x43000].flatMap (natLe 8)), (0x20000, state)]
def ueJob (op : Nat) : Job := { job0 op with ue := true }
def updating (state : List Byte) (op : Nat) : Pkg := jobbed (recipeMem state) (ueJob op)
def updates (op : Nat) (state : List Byte) : Bool :=
  let p := updating state op
  mayStart p (st p).clk (ueJob op) && (upRefused p (st p).clk (ueJob op) (recipeAt p 1 0)).isNone && !engineAsleep p (ueJob op)
def after1 (g2 step : Nat) : List Byte := natLe 4 step ++ natLe 10 0 ++ [4#8, 0] ++ natLe 8 g2
theorem witness_EngineJobs_updates :
    (updates 0 [] && updates 3 [] && updates 1 [] && updates 2 [] && updates 2 (after1 0x3FF0000000000000 1) && updates 2 (after1 0x7FF0000000000000 1)) = true ∧
    (recipeAt (updating [] 1) 1 0).group = 0xFFFF ∧
    partners (updating [] 1) (st {}).clk (recipeAt (updating [] 1) 1 0) (ueJob 1) = some [ueJob 1] ∧
    partners (updating [] 2) (st {}).clk (recipeAt (updating [] 2) 1 0) (ueJob 2) = some [ueJob 2] ∧
    (let m := (updating [] 2).mem
     bit (mnat m (0x20000 + 14) 1) 2 = false) ∧
    (let m := (updating (after1 0x3FF0000000000000 1) 2).mem
     bit (mnat m (0x20000 + 14) 1) 2 = true ∧ mnat m 0x20000 4 ≠ 0xFFFFFFFF ∧ finiteF .b64 (b64At m (0x20000 + 16)) = true ∧
       (segsOf m (recipeAt (updating [] 2) 1 0)).all (fun g => !touchBad m g) = true) ∧
    finiteF .b64 (b64At (updating (after1 0x7FF0000000000000 1) 2).mem (0x20000 + 16)) = false := by decide +kernel

/-! Worked examples of the spec. Every expected value stands in the text of the chapter named. -/

/-- 320.75 in the narrow formats, and −2^-11 (03 Number formats, conversion example); 480 and 496 in H8m. -/
theorem test_conversions :
    encodeFloat .h16 .rne (decodeFloat .b32 0x43A06000#64) = (0x4741#64, fNX) ∧
    encodeFloat .h8m .rne (decodeFloat .b32 0x43A06000#64) = (0x7A#64, fNX) ∧
    encodeFloat .h8e .rne (decodeFloat .b32 0x43A06000#64) = (0x5D#64, fNX) ∧
    encodeFloat .h6 .rne (decodeFloat .b32 0x43A06000#64) = (0x1F#64, fSAT ||| fNX) ∧
    toA16 0x3D800000#64 (-100) (decodeFloat .b32 0x43A06000#64) = (0x13A8#64, 0#16) ∧
    encodeFloat .h8m .rne (decodeFloat .b32 0xBA000000#64) = (0x00#64, fFLUSH ||| fUF ||| fNX) ∧
    encodeFloat .h6 .rne (decodeFloat .b32 0xBA000000#64) = (0x20#64, fFLUSH ||| fUF ||| fNX) ∧
    (encodeFloat .h8m .rne (.fin false 490 0)).1 = (encodeFloat .h8m .rne (.fin false 480 0)).1 ∧
    (encodeFloat .h8m .rne (.fin false 490 0)).2 = fNX ∧ (encodeFloat .h8m .rne (.fin false 496 0)).2 = (fSAT ||| fNX) := by decide +kernel
/-- Products as formed (03 Number formats, Table 4.10). -/
theorem test_products :
    (mxProduct 7 .h16 .h16 0x3FFF#64 0x3FFF#64).1 = 0x407F0000#64 ∧
    (mxProduct 2 .h16 .q8 0x3FFF#64 0x7F#64).1 = 0x437D8000#64 ∧ (mxProduct 2 .h16 .q8 0x4080#64 0xFD#64).1 = 0xC1100000#64 ∧
    (mxProduct 2 .h16 .q8 0x3800#64 0x05#64).1 = 0x3D200000#64 ∧ (mxProduct 2 .h16 .q8 0x3F01#64 0xFF#64).1 = 0xBF800000#64 := by decide +kernel
/-- Column 0 through the tree (04 Matrix engine, one column, bit by bit), and its cell after the bias of 2^24. -/
theorem test_column :
    let b : WBuf := { mode := 2, k := 4, n := 1, g := 32, codes := [0x7F#64, 0xFD#64, 0x05#64, 0xFF#64], scales := [0x3F00#64] }
    let r := columnResult 2 ⟨.h16, .q8, 1, 256, 256⟩ b false [0x3FFF#64, 0x4080#64, 0x3800#64, 0x3F01#64] 0x3F800000#64 0 0
    r = (0x43738A00#64, 0#16) ∧ (combAdd .b32 0x4B800000#64 0#64 r.1).1 = 0x4B80007A#64 ∧ (combAdd .b32 0x4B800000#64 0#64 r.1).2.1 = 0xBEEC0000#64 := by decide +kernel
/-- The counters of six values (03 Number formats, pollen count). -/
theorem test_pollen :
    [0x3F400000#64, 0xC0400000#64, 0#64, 0x0DA24260#64, 0x63200000#64, 0x7FC00000#64].map (fun c => pollenIndex (decodeFloat .b32 c)) = [62, 64, 128, 0, 127, 129] := by decide +kernel
/-- A Q8 group whose largest magnitude is 0.75 (05 Quantisation). -/
theorem test_group_scale :
    let q := narrowGroup .q8 [decodeFloat .b32 0x3F400000#64, decodeFloat .b32 0xBE9EB852#64] [decodeFloat .b32 0x3F400000#64, decodeFloat .b32 0xBE9EB852#64]
    q.1 = 0x3784#64 ∧ q.2.1.map (fun r => r.1.toNat % 256) = [127, 204] := by decide +kernel
/-- LU of a singular matrix (07 Solver engines): pivots, factors, the replacement and its event. -/
theorem test_lu :
    let a : List (Nat × W64) := [(kA 0 0, 0x3FF0000000000000#64), (kA 1 0, 0x4000000000000000#64), (kA 2 0, 0x3FF0000000000000#64),
      (kA 0 1, 0x4000000000000000#64), (kA 1 1, 0x4010000000000000#64), (kA 2 1, 0x4000000000000000#64),
      (kA 0 2, 0x4008000000000000#64), (kA 1 2, 0x401C000000000000#64), (kA 2 2, 0x4014000000000000#64)]
    let k := luRun { mode := 0, rm := .rne } 0 3 0 0x3D70000000000000#64 { m := a.foldl (fun m e => sset m e.1 e.2) [] }
    [0, 1, 2].map (fun i => sget k.ip i 9) = [1, 1, 2] ∧ k.fl = fPIV ∧ k.piv.length = 1 ∧
    [k.g (kA 0 0), k.g (kA 0 1), k.g (kA 0 2), k.g (kA 1 1), k.g (kA 1 2), k.g (kA 2 2)] =
      [0x4000000000000000#64, 0x4010000000000000#64, 0x401C000000000000#64, 0x3D90000000000000#64, 0xBFE0000000000000#64, 0x3FF8000000000000#64] ∧
    [k.g (kA 1 0), k.g (kA 2 0), k.g (kA 2 1)] = [0x3FE0000000000000#64, 0x3FE0000000000000#64, 0#64] := by decide +kernel
/-- One element of an embedding row (08 Update engine, Table 8.9), after its catch-up. -/
theorem test_element :
    let k : Scal := { rm := .rne, kind := 0, nest := false, t := 100, beta1 := 0x3F600000#64, beta2 := 0x3F700000#64, eps := 0x3B800000#64, eta := 0x3A800000#64, clip := 0x3F000000#64, omb1 := 0x3E000000#64, omb2 := 0x3D800000#64, a1 := 0x3F800000#64, a2 := 0x3F800000#64, d64 := 0#64, d := 0x3F7FFC00#64, fl := 0#16 }
    let e := stepElement k 0x3EC40000#64 0x3C440000#64 0x3B610000#64 0x3F7FF800#64
    e.m = 0x3D0CE000#64 ∧ e.v = 0x3BB48000#64 ∧ e.a = 0x3EE16666#64 ∧ e.w = 0x3F7FD7D3#64 ∧ e.fl = fNX := by decide +kernel
/-- The catch-up factors of a row two steps behind (08 Update engine, Table 8.9). -/
theorem test_catch_up :
    let k : Scal := { rm := .rne, kind := 0, nest := false, t := 100, beta1 := 0x3F600000#64, beta2 := 0x3F700000#64, eps := 0#64, eta := 0#64, clip := 0#64, omb1 := 0#64, omb2 := 0#64, a1 := 0#64, a2 := 0#64, d64 := 0#64, d := 0#64, fl := 0#16 }
    (catchUp 0 (memOf [(8 * 98, natLe 8 0x3FEFFF0002000000)]) 0 k 97).map (fun e => (e.1, e.2.1, e.2.2.1)) = some (0x3F440000#64, 0x3F610000#64, 0x3F7FF800#64) := by decide +kernel
/-- TILE.FAULT of physical tile 5 on AD3 (17 Registers). -/
theorem test_tile_register : rTile (3 * 32 + 5) + 8 = 0x01650008 := by decide +kernel
/-- The gateways between pods 529 and 772 (13 Routing): nodes 50 and 12. -/
theorem test_gateways : gatewayPlace 529 772 % 64 = 50 ∧ gatewayPlace 772 529 % 64 = 12 := by decide +kernel
/-- The tree of chunk 3 among ten members (14 Collectives): member 3 is the root of members 4 to 1, member 4 of member 2. -/
theorem test_tree :
    let o : SwOp := { id := 0, tile := 0, seq := 0, launch := 0, ident := { group := 0, llo := 0, off := 0, opc := 0 }, opr := 0, dt := 1, nelem := 0, w := 4, h16 := false, plim := 0, self := 4, n := 10, da := 0, db := 0, dc := 0, daBytes := 0 }
    o.root 3 = 3 ∧ o.kids 3 = [2] ∧ o.parent 3 = 3 ∧ ({ o with self := 3 } : SwOp).kids 3 = [4, 5, 6, 7, 8, 9, 0, 1] := by decide +kernel
/-- The check value of CRC-64 (R352). -/
theorem test_crc64 : crc64 [0x31#8, 0x32#8, 0x33#8, 0x34#8, 0x35#8, 0x36#8, 0x37#8, 0x38#8, 0x39#8] = 0x6C40DF5F0B497347#64 := by decide +kernel

end Sys2Proof.Tests
end

section
/-! PROOFS. What the shared operations do to a tile, to its registers and to its launch; plan faults (R27, R47): O47. -/

namespace Sys2Proof.Machine

/-! Tiles, their registers and their launches -/

@[simp] theorem tile_setTile_self (p : Pkg) (t : Nat) (x : Tile) : tile (setTile p t x) t = x := sget_sset_self _ _ _ _

@[simp] theorem tile_modTile_self (p : Pkg) (t : Nat) (f : Tile → Tile) : tile (modTile p t f) t = f (tile p t) :=
  tile_setTile_self _ _ _

/-- A tile is read from `tiles` alone. -/
theorem tile_congr {p q : Pkg} (t : Nat) (h : p.tiles = q.tiles) : tile p t = tile q t := by rw [tile, tile, h]

/-- The base of a tile's registers follows the spare map alone. -/
theorem tReg_congr {p q : Pkg} (t : Nat) (h : p.punits = q.punits) : tReg p t = tReg q t := by
  unfold tReg physTile serving unitState unitLogical punit
  rw [h]

/-- The registers of tiles lie above those of the log. -/
theorem logReg_tReg (p : Pkg) (t k : Nat) : logReg (tReg p t + k) = false := by
  have h : 0x1000000 ≤ tReg p t := by unfold tReg rTile; omega
  have e0 : tReg p t + k ≠ rHltLoglost := by unfold rHltLoglost; omega
  have e1 : tReg p t + k ≠ rHltLoghead := by unfold rHltLoghead; omega
  have e2 : ¬tReg p t + k < rHltLog 4096 := by unfold rHltLog; omega
  simp [logReg, e0, e1, e2]

/-- A launch that is found is found again, changed, after its change. -/
theorem findLaunch_modLaunch_self {p : Pkg} {id : Nat} {f : Launch → Launch} {y : Launch} (hf : ∀ z, (f z).id = z.id)
    (h : findLaunch p id = some y) : findLaunch (modLaunch p id f) id = some (f y) := by
  have hp : ((fun z : Launch => z.id == id) ∘ fun z => if z.id == id then f z else z) = fun z => z.id == id := by
    funext z
    simp only [Function.comp]
    split
    · rw [hf]
    · rfl
  unfold findLaunch at h
  have hy : (y.id == id) = true := List.find?_some (p := fun z : Launch => z.id == id) h
  unfold findLaunch modLaunch
  rw [List.find?_map, hp, h, Option.map_some, if_pos hy]

/-! Plan faults (R47) -/

/-- The tile stopped and its fault registers written. -/
def faultWritten (p : Pkg) (c : Clock) (t cause q slot : Nat) : Pkg :=
  rsetb (rset (rset (stopTile p t) (tReg p t + 8) (cause + q * 2 ^ 8 + slot * 2 ^ 16)) (tReg p t + 0xC)
    (cycleOf p c (tile p t).start % 2 ^ 32)) (tReg p t) 2 true

/-- What a plan fault leaves before it is logged: its launch, where the tile has one, with the cause. -/
def faulted (p : Pkg) (c : Clock) (t cause q slot : Nat) : Pkg :=
  (tile p t).launch.elim (faultWritten p c t cause q slot) (fun l => addCause (faultWritten p c t cause q slot) c l 0x20)

section
variable (p : Pkg) (c : Clock) (t cause q slot detail : Nat)

/-- A plan fault is its effects on the tile, its registers and its launch, then the log entry. -/
theorem planFault_eq : planFault p c t cause q slot detail = logEntry (faulted p c t cause q slot) c 0x0101 (t / 16) 0 0
    (cause + t * 2 ^ 16 + detail + cycleOf p c (tile p t).start % 2 ^ 32 * 2 ^ 32) := by
  cases h : (tile p t).launch with
  | none => simp only [planFault, faulted, faultWritten, h, Option.elim_none]
  | some l => simp only [planFault, faulted, faultWritten, h, Option.elim_some]

/-- The cause that the launch takes is no part of tiles, registers or memory. -/
theorem faulted_eq : ∃ y, faulted p c t cause q slot = { faultWritten p c t cause q slot with launches := y } := by
  unfold faulted
  cases (tile p t).launch with
  | none => exact ⟨_, rfl⟩
  | some l => exact ⟨_, rfl⟩

theorem faulted_regs : (faulted p c t cause q slot).regs = (faultWritten p c t cause q slot).regs := by
  obtain ⟨y, h⟩ := faulted_eq p c t cause q slot
  rw [h]

/-- A plan fault stops its tile and changes nothing else of it. -/
@[simp] theorem tile_planFault : tile (planFault p c t cause q slot detail) t = { tile p t with stopped := true } := by
  obtain ⟨y, h⟩ := faulted_eq p c t cause q slot
  have ht : (faulted p c t cause q slot).tiles = (stopTile p t).tiles := by rw [h]; rfl
  rw [planFault_eq, tile_congr t ((outward_logEntry _ _ _ _ _ _ _).tiles.trans ht)]
  exact tile_modTile_self p t _

@[simp] theorem planFault_mem : (planFault p c t cause q slot detail).mem = p.mem := by
  obtain ⟨y, h⟩ := faulted_eq p c t cause q slot
  rw [planFault_eq, (outward_logEntry _ _ _ _ _ _ _).mem, h]
  rfl

/-- `TILE.FAULT` takes the cause, the queue and the slot. -/
theorem rget_planFault_fault :
    rget (planFault p c t cause q slot detail) (tReg p t + 8) = (cause + q * 2 ^ 8 + slot * 2 ^ 16) % 2 ^ 32 := by
  rw [planFault_eq, rget_logEntry _ _ _ _ _ _ _ _ (logReg_tReg p t 8), rget_congr _ (faulted_regs p c t cause q slot), faultWritten,
    rget_rsetb_ne _ _ _ (by omega), rget_rset_ne _ _ (by omega), rget_rset_self]

/-- `TILE.STATUS.FAULT` is set. -/
theorem rbit_planFault_status : rbit (planFault p c t cause q slot detail) (tReg p t) 2 = true := by
  have hl : logReg (tReg p t) = false := logReg_tReg p t 0
  have hr : rbit (faulted p c t cause q slot) (tReg p t) 2 = rbit (faultWritten p c t cause q slot) (tReg p t) 2 := by
    rw [rbit, rget_congr _ (faulted_regs p c t cause q slot), rbit]
  rw [planFault_eq, rbit_logEntry _ _ _ _ _ _ _ _ _ hl, hr]
  exact rbit_rsetb_self _ _ _ _ (by decide)

/-- The tile's launch takes the cause FAILED_HARDWARE. -/
theorem findLaunch_planFault {l : Nat} {y : Launch} (hl : (tile p t).launch = some l) (hy : findLaunch p l = some y) :
    findLaunch (planFault p c t cause q slot detail) l = some { y with causes := y.causes ++ [(c.gsc, 0x20)] } := by
  rw [planFault_eq]
  unfold findLaunch
  rw [(outward_logEntry _ _ _ _ _ _ _).launches]
  simp only [faulted, hl, Option.elim_some]
  exact findLaunch_modLaunch_self (fun _ => rfl) hy

end

@[simp] theorem queue_stopped (x : Tile) (b : Bool) (k : Nat) : ({ x with stopped := b } : Tile).queue k = x.queue k := rfl

/-- Settles O47: the command reports the plan fault, and the rules of plan faults say the rest. -/
theorem undefinedOpcodeStopsTheTile : Obligations.UndefinedOpcodeStopsTheTile := by
  intro s t q h ⟨hrun, hstop, hq⟩ hop
  have he : exec (.undefinedOpcode t q) s = .next { s with pkg := planFault s.pkg s.clk t 0x02 q 0 0 } := by
    have hop' : (opDefined (opcodeOf h.toNat) && queueOf (opcodeOf h.toNat) == q.val) = false := by
      rcases hop with hop | hop
      · rw [hop, Bool.false_and]
      · rw [beq_eq_false_iff_ne.mpr hop, Bool.and_false]
    obtain ⟨rest, hq⟩ : ∃ rest, (tile s.pkg t).queue q = h :: rest := ⟨_, hq⟩
    rw [show exec (.undefinedOpcode t q) s = execUndefinedOpcode t q s from rfl, execUndefinedOpcode, run_eq]
    simp only [hq, hrun, hstop, hop', Bool.not_true, Bool.or_false, Bool.false_eq_true, if_false]
  refine ⟨_, he, ?_, ?_, rbit_planFault_status .., ?_, ?_, planFault_mem .., ?_⟩
  · rw [tile_planFault]
  · rw [rget_planFault_fault]; omega
  · intro k; rw [tile_planFault, queue_stopped]
  · rw [tile_planFault]
  · intro l y hl hy
    exact ⟨_, findLaunch_planFault _ _ _ _ _ _ _ hl hy, rfl⟩

end Sys2Proof.Machine
end

section
/-! PROOFS. The issue of a head word (R21, R22, R31) and the CL instructions (R343 to R346): O42. -/

namespace Sys2Proof.Machine

/-! The head word leaves its queue -/

theorem takeTok_eq (x : Tile) (n c : Nat) : ∃ k, x.takeTok n c = { x with toks := k } := by
  unfold Tile.takeTok
  split <;> exact ⟨_, rfl⟩

/-- A head word that leaves changes its queue, the tokens, the queue's time and the count of instructions. -/
theorem headTaken_eq (x : Tile) (q w cyc occ : Nat) :
    ∃ k m, x.headTaken q w cyc occ = { x.setQueue q ((x.queue q).drop 1) with toks := k, qfree := m, seq := x.seq + 1 } := by
  obtain ⟨k, h⟩ := takeTok_eq (x.setQueue q ((x.queue q).drop 1)) (wtok w) cyc
  have hs : (x.setQueue q ((x.queue q).drop 1)).seq = x.seq := by
    unfold Tile.setQueue
    repeat' split
    all_goals rfl
  exact ⟨_, _, by simp only [Tile.headTaken, h, hs]; rfl⟩

@[simp] theorem queue_setQueue (x : Tile) (q : Nat) (l : List W128) : (x.setQueue q l).queue q = l := by
  unfold Tile.setQueue Tile.queue
  by_cases h0 : q = 0 <;> by_cases h1 : q = 1 <;> by_cases h2 : q = 2 <;> simp [h0, h1, h2]

@[simp] theorem setQueue_infl (x : Tile) (q : Nat) (l : List W128) : (x.setQueue q l).infl = x.infl := by
  unfold Tile.setQueue
  repeat' split
  all_goals rfl

@[simp] theorem setQueue_desc (x : Tile) (q : Nat) (l : List W128) : (x.setQueue q l).desc = x.desc := by
  unfold Tile.setQueue
  repeat' split
  all_goals rfl

section
variable (x : Tile) (q w cyc occ : Nat)

@[simp] theorem headTaken_queue : (x.headTaken q w cyc occ).queue q = (x.queue q).drop 1 := by
  obtain ⟨k, m, h⟩ := headTaken_eq x q w cyc occ
  rw [h]
  exact queue_setQueue x q _

@[simp] theorem headTaken_infl : (x.headTaken q w cyc occ).infl = x.infl := by
  obtain ⟨k, m, h⟩ := headTaken_eq x q w cyc occ
  rw [h]
  exact setQueue_infl x q _

@[simp] theorem headTaken_desc : (x.headTaken q w cyc occ).desc = x.desc := by
  obtain ⟨k, m, h⟩ := headTaken_eq x q w cyc occ
  rw [h]
  exact setQueue_desc x q _

@[simp] theorem headTaken_seq : (x.headTaken q w cyc occ).seq = x.seq + 1 := by
  obtain ⟨k, m, h⟩ := headTaken_eq x q w cyc occ
  rw [h]

end

/-! Issue -/

/-- A head word that can issue is read from the tile itself. -/
theorem tile_of_ready {p : Pkg} {c : Clock} {t q l w cyc : Nat} {x : Tile} (h : ready p c t q = some (l, x, w, cyc)) :
    tile p t = x := by
  unfold ready at h
  simp only at h
  split at h
  · split at h
    · simp only [Option.some.injEq, Prod.mk.injEq] at h
      obtain ⟨-, hx, -⟩ := h
      exact hx
    · cases h
  · cases h

section
variable {p : Pkg} {c : Clock} {t q op l w cyc : Nat} {x : Tile} {go : Pkg → Nat → Tile → Nat → Nat → Chk (Pkg × InFl)}
variable (hr : ready p c t q = some (l, x, w, cyc)) (hop : opcodeOf w = op)
include hr hop

/-- The checks pass: the instruction is in flight. -/
theorem issue_of_ok {r : Pkg} {f : InFl}
    (hg : go { headIssued p t q w cyc 1 with mem := oldView p c } l (x.headTaken q w cyc 1) w cyc = .ok (r, f)) :
    issue p c t q op 1 go = enterFlight (newView p c r) t q x.seq w cyc f := by
  unfold issue
  simp only [hr, hop, hg, ne_eq, not_true_eq_false, if_false]

/-- The checks find a plan fault: the tile stops with it. -/
theorem issue_of_error {e : PF} (he : e.cause ≠ 0x100)
    (hg : go { headIssued p t q w cyc 1 with mem := oldView p c } l (x.headTaken q w cyc 1) w cyc = .error e) :
    issue p c t q op 1 go = planFault (headIssued p t q w cyc 1) c t e.cause q e.slot e.detail := by
  unfold issue
  simp only [hr, hop, hg, he, ne_eq, not_true_eq_false, if_false]

end

/-- A command whose meaning is the issue of a head word, then what follows at once. -/
theorem issuesAs_of_exec {i : Instr} {t q op : Nat} {go : Pkg → Nat → Tile → Nat → Nat → Chk (Pkg × InFl)} {after : Pkg → Clock → Nat → Pkg}
    (h : ∀ s, exec i s = run s (fun c p => after (issue p c t q op 1 go) c (tile p t).seq)) : Safety.IssuesAs i t q op go after := by
  intro s l x w cyc hr hop
  constructor
  · intro p f hg
    rw [h, run_eq, issue_of_ok hr hop hg, tile_of_ready hr]
  · intro e hg he
    rw [h, run_eq, issue_of_error hr hop he hg, tile_of_ready hr]

/-! The CL instructions (R343 to R346) -/

/-- A check that passes leaves what follows it. -/
theorem need_bind_ok {α : Type} {b : Bool} {e : PF} {g : Unit → Chk α} {a : α} (h : (need b e >>= g) = .ok a) : g () = .ok a := by
  cases b with
  | true => exact h
  | false => cases h

/-- A CL instruction that passes its checks names an operation, under its identity, that joins those of the package. -/
theorem goCl_ok {t opc l w cyc : Nat} {p r : Pkg} {x : Tile} {f : InFl} (h : goCl t opc p l x w cyc = .ok (r, f)) :
    ∃ o : SwOp, r.swops = p.swops ++ [o] ∧ r.nextSw = p.nextSw + 1 ∧ o.launch = l ∧ o.tile = t ∧ o.seq = x.seq - 1 ∧
      o.ident.group = bits w 15 4 ∧ o.ident.opc = opc ∧ o.ident.off = bits w 45 16 ∧ f.held = true ∧ f.fin = false := by
  unfold goCl at h
  simp only at h
  iterate 11 replace h := need_bind_ok h
  cases h
  exact ⟨_, rfl, rfl, rfl, rfl, rfl, rfl, rfl, rfl, rfl, rfl⟩

/-- A CL command whose checks pass enters its operation and compares it with what came before (R346). -/
theorem clIssue_ok {t : Fin 128} {opc l w cyc : Nat} {s : State} {x : Tile} {r : Pkg} {f : InFl}
    (hr : ready s.pkg s.clk t 3 = some (l, x, w, cyc)) (hop : opcodeOf w = 0xD0 + opc)
    (hg : goCl t opc (Safety.issuing s t 3 w cyc) l (x.headTaken 3 w cyc 1) w cyc = .ok (r, f)) (hn : r.nextSw ≠ s.pkg.nextSw) :
    clIssue t opc s = .next (Safety.withPkg s (lateMismatch (enterFlight (newView s.pkg s.clk r) t 3 x.seq w cyc f) s.clk)) := by
  unfold clIssue
  rw [run_eq, issue_of_ok hr hop hg, if_neg]
  exact hn

/-- The five CL commands are the issues of their opcodes. -/
theorem exec_cl {t : Fin 128} {i : Instr} {opc : Nat}
    (h : (i, opc) ∈ [(Instr.clAllreduce t, 0), (.clReduce t, 1), (.clBcast t, 2), (.clWreduce t, 3), (.clWbcast t, 4)]) (s : State) :
    exec i s = clIssue t opc s := by
  simp only [List.mem_cons, Prod.mk.injEq, List.not_mem_nil, or_false] at h
  obtain ⟨rfl, rfl⟩ | ⟨rfl, rfl⟩ | ⟨rfl, rfl⟩ | ⟨rfl, rfl⟩ | ⟨rfl, rfl⟩ := h <;> rfl

/-- Settles O42: each command is the issue of its opcode; a `DM.GET` is followed by `getNow`, a CL instruction by the comparison of R346. -/
theorem tileInstructionsIssue : Obligations.TileInstructionsIssue := by
  refine ⟨fun t => ?_, ?_⟩
  · refine ⟨?_, ?_, ?_, ?_, ?_, ?_, ?_, ?_, ?_, ?_, ?_, ?_, ?_, ?get, ?_, ?_, ?_, ?_, ?_, ?_, ?_, ?_, ?_, ?_, ?_, ?_, ?_, ?_⟩
    case get =>
      intro s l x w cyc hr hop p f hg
      have he : exec (.dmGet t) s = run s (fun c p => getNow (issue p c t 2 0x89 1 (goGet t c)) c t (tile p t).seq) := rfl
      rw [he, run_eq, issue_of_ok hr hop hg, tile_of_ready hr]
    all_goals exact issuesAs_of_exec fun _ => rfl
  · intro t s l x w cyc hr i opc hi hop p f hg
    obtain ⟨o, hsw, hn, hl, ht, hseq, hgr, ho, hoff, hh, hf⟩ := goCl_ok hg
    rw [headTaken_seq, Nat.add_sub_cancel] at hseq
    refine ⟨o, hsw, hl, ht, hseq, hgr, ho, hoff, hh, hf, ?_⟩
    rw [exec_cl hi, clIssue_ok hr hop hg (by rw [hn]; exact Nat.succ_ne_self _)]

end Sys2Proof.Machine
end

section
/-! PROOFS. What an issue leaves in flight, or stopped; the synchronisation instructions (R35, R39): O43. -/

namespace Sys2Proof.Machine

@[simp] theorem tile_headIssued (p : Pkg) (t q w cyc occ : Nat) :
    tile (headIssued p t q w cyc occ) t = (tile p t).headTaken q w cyc occ := tile_setTile_self p t _

@[simp] theorem tile_issuing (s : State) (t q w cyc : Nat) :
    tile (Safety.issuing s t q w cyc) t = (tile s.pkg t).headTaken q w cyc 1 := tile_headIssued s.pkg t q w cyc 1

/-! The instruction in flight -/

/-- The record that enters flight: what the checks made, with its number, queue, word and cycle. -/
def InFl.entered (f : InFl) (q seq w cyc : Nat) : InFl := { f with seq := seq, q := q, word := BitVec.ofNat 128 w, issue := cyc }

section
variable (p : Pkg) (t q seq w cyc : Nat) (f : InFl)

theorem tile_enterFlight : tile (enterFlight p t q seq w cyc f) t =
    { tile p t with qfree := if f.held then sset (tile p t).qfree q (cyc + 4) else (tile p t).qfree,
                    infl := (tile p t).infl ++ [f.entered q seq w cyc] } := tile_modTile_self p t _

theorem entered_mem_enterFlight : f.entered q seq w cyc ∈ (tile (enterFlight p t q seq w cyc f) t).infl := by
  simp [tile_enterFlight]

@[simp] theorem queue_enterFlight (k : Nat) : (tile (enterFlight p t q seq w cyc f) t).queue k = (tile p t).queue k := by
  rw [tile_enterFlight]; rfl

theorem qfree_enterFlight_held (h : f.held = true) : sget (tile (enterFlight p t q seq w cyc f) t).qfree q 0 = cyc + 4 := by
  simp [tile_enterFlight, h]

@[simp] theorem enterFlight_mem : (enterFlight p t q seq w cyc f).mem = p.mem := rfl

end

/-- The word of the record is the word that issued. -/
theorem entered_word {f : InFl} {q seq w cyc : Nat} (h : w < 2 ^ 128) : (f.entered q seq w cyc).word.toNat = w :=
  Nat.mod_eq_of_lt h

/-! With nothing written in this cycle, an issue reads and leaves memory as it stands (R33) -/

section
variable {s : State} (hf : freshNow s.pkg s.clk = [])
include hf

theorem issuing_mem (t q w cyc : Nat) : (Safety.issuing s t q w cyc).mem = s.pkg.mem := by
  simp only [Safety.issuing, oldView, hf, List.foldl_nil]

theorem newView_of_noFresh (p : Pkg) : newView s.pkg s.clk p = p := by
  simp only [newView, hf, List.foldl_nil]

end

section
variable {i : Instr} {s : State} {t q op l w cyc : Nat} {x : Tile} {go : Pkg → Nat → Tile → Nat → Nat → Chk (Pkg × InFl)}
variable (hi : Safety.IssuesAs i t q op go Safety.nothing) (hr : ready s.pkg s.clk t q = some (l, x, w, cyc)) (hop : opcodeOf w = op)
include hi hr hop

/-- A command whose checks pass leaves its instruction in flight. -/
theorem exec_of_ok (hf : freshNow s.pkg s.clk = []) {r : Pkg} {f : InFl}
    (hg : go (Safety.issuing s t q w cyc) l (x.headTaken q w cyc 1) w cyc = .ok (r, f)) :
    exec i s = .next (Safety.withPkg s (enterFlight r t q x.seq w cyc f)) := by
  rw [((hi s l x w cyc hr hop).1 r f hg), newView_of_noFresh hf]
  rfl

/-- A command whose checks find a plan fault stops its tile with it; nothing enters flight and memory stays. -/
theorem exec_of_error {e : PF} (hc : e.cause ≠ 0x100)
    (hg : go (Safety.issuing s t q w cyc) l (x.headTaken q w cyc 1) w cyc = .error e) :
    ∃ u, exec i s = .next u ∧ (tile u.pkg t).stopped = true ∧ (tile u.pkg t).infl = (tile s.pkg t).infl ∧
      rget u.pkg (tReg s.pkg t + 8) = (e.cause + q * 2 ^ 8 + e.slot * 2 ^ 16) % 2 ^ 32 ∧ u.pkg.mem = s.pkg.mem := by
  refine ⟨_, (hi s l x w cyc hr hop).2 e hg hc, ?_, ?_, ?_, ?_⟩
  · simp [Safety.nothing]
  · simp [Safety.nothing]
  · exact rget_planFault_fault (headIssued s.pkg t q w cyc 1) s.clk t e.cause q e.slot e.detail
  · simp [Safety.nothing, headIssued]

end

/-! Synchronisation instructions (R35, R39) -/

/-- A CLASS field names sync object j exactly when it is its address. -/
theorem syncOf_eq_some {w j : Nat} : syncOf w = some j ↔ j ≤ 16383 ∧ bits w 45 0 = 0x220000000000 + 64 * j := by
  unfold syncOf syncBase
  simp only
  split
  · rw [Option.some.injEq]; omega
  · simp only [reduceCtorEq, false_iff]; omega

theorem syncOf_eq_none {w : Nat} : syncOf w = none ↔ ¬∃ j ≤ 16383, bits w 45 0 = 0x220000000000 + 64 * j := by
  rw [Option.eq_none_iff_forall_ne_some]
  simp only [ne_eq, syncOf_eq_some, not_exists]

/-- The release cycle of R35 at either grade. -/
theorem cycleAt_eq (p : Pkg) (n : Nat) : cycleAt p n = if p.cfg.grade = 0 then (34 * n + 4) / 5 else (31 * n + 4) / 5 := by
  unfold cycleAt cdiv tickUnits
  split <;> rfl

theorem goAcquire_ok {p : Pkg} {l w cyc j : Nat} {x : Tile} (h : syncOf w = some j) :
    goAcquire p l x w cyc = .ok (p, heldFl p w (.acquire j)) := by
  simp only [goAcquire, h]

theorem goAcquire_error {p : Pkg} {l w cyc : Nat} {x : Tile} (h : syncOf w = none) : goAcquire p l x w cyc = .error fRange := by
  simp only [goAcquire, h]

theorem goClkon_ok {p : Pkg} {l w cyc : Nat} {x : Tile} (h : 5 * cyc + 750 * tickUnits p ≤ tickUnits p * bits w 77 46) :
    goClkon p l x w cyc = .ok (p, { heldFl p w .none with fin := true }) := by
  have hd : decide (cycleUnits cyc + 750 * tickUnits p ≤ tickUnits p * tOff w) = true := decide_eq_true h
  unfold goClkon
  rw [hd]
  rfl

theorem goClkon_error {p : Pkg} {l w cyc : Nat} {x : Tile} (h : tickUnits p * bits w 77 46 < 5 * cyc + 750 * tickUnits p) :
    goClkon p l x w cyc = .error fRange := by
  have hd : decide (cycleUnits cyc + 750 * tickUnits p ≤ tickUnits p * tOff w) = false := decide_eq_false (Nat.not_le.mpr h)
  unfold goClkon
  rw [hd]
  rfl

section
variable {i : Instr} {s : State} {t : Fin 128} {op l w cyc : Nat} {x : Tile} {go : Pkg → Nat → Tile → Nat → Nat → Chk (Pkg × InFl)}
variable (hi : Safety.IssuesAs i t 3 op go Safety.nothing) (hr : ready s.pkg s.clk t 3 = some (l, x, w, cyc)) (hop : opcodeOf w = op)
variable (hw : w < 2 ^ 128) (hf : freshNow s.pkg s.clk = [])
include hi hr hop hw hf

/-- Work held to its release offset enters flight: it is due in the first cycle at or after tick L + t, and keeps its queue for 4
cycles (R35). -/
theorem exec_held {k : Wait} {b : Bool}
    (hg : go (Safety.issuing s t 3 w cyc) l (x.headTaken 3 w cyc 1) w cyc =
      .ok (Safety.issuing s t 3 w cyc, { heldFl (Safety.issuing s t 3 w cyc) w k with fin := b })) :
    ∃ u f, exec i s = .next u ∧ f ∈ (tile u.pkg t).infl ∧ f.seq = x.seq ∧ f.word.toNat = w ∧ f.issue = cyc ∧ f.held = true ∧
      f.due = (if s.pkg.cfg.grade = 0 then (34 * bits w 77 46 + 4) / 5 else (31 * bits w 77 46 + 4) / 5) ∧
      sget (tile u.pkg t).qfree 3 0 = cyc + 4 ∧ f.fin = b ∧ f.wait = k :=
  ⟨_, _, exec_of_ok hi hr hop hf hg, entered_mem_enterFlight .., rfl, entered_word hw, rfl, rfl, cycleAt_eq _ _,
    qfree_enterFlight_held _ _ _ _ _ _ _ rfl, rfl, rfl⟩

end

/-- Settles O43: the unheld instructions are NOPs that retire in the next cycle; the held ones and the RANGE faults follow from what
their checks find. -/
theorem syInstructionsIssue : Obligations.SyInstructionsIssue := by
  intro s t l x w cyc hr hw hf
  have hUntil : Safety.IssuesAs (.syUntil t) t 3 0xA2 goUntil Safety.nothing := issuesAs_of_exec fun _ => rfl
  have hAcquire : Safety.IssuesAs (.syAcquire t) t 3 0xA3 goAcquire Safety.nothing := issuesAs_of_exec fun _ => rfl
  have hClkon : Safety.IssuesAs (.syClkon t) t 3 0xA6 goClkon Safety.nothing := issuesAs_of_exec fun _ => rfl
  refine ⟨fun i him hop => ?_, fun h => ?_, fun h => ?_⟩
  · have hi : Safety.IssuesAs i.1 t 3 i.2 goNop Safety.nothing := by
      simp only [List.mem_cons, List.not_mem_nil, or_false] at him
      obtain rfl | rfl | rfl := him <;> exact issuesAs_of_exec fun _ => rfl
    refine ⟨_, _, exec_of_ok hi hr hop hf rfl, entered_mem_enterFlight .., rfl, entered_word hw, rfl, rfl, rfl, rfl, ?_, ?_⟩
    · exact issuing_mem hf t 3 w cyc
    · simp
  · obtain hop | ⟨hop, j, hj, he⟩ | ⟨hop, hle⟩ := h
    · obtain ⟨u, f, he, hm, hs, hwd, hc, hh, hd, hq, hfin, -⟩ := exec_held hUntil hr hop hw hf rfl
      exact ⟨u, f, by simpa [hop] using he, hm, hs, hwd, hc, hh, hd, hq, by simp [hfin, hop], by simp [hop]⟩
    · have hj' := syncOf_eq_some.mpr ⟨hj, he⟩
      obtain ⟨u, f, hx, hm, hs, hwd, hc, hh, hd, hq, hfin, hwt⟩ := exec_held hAcquire hr hop hw hf (goAcquire_ok hj')
      exact ⟨u, f, by simpa [hop] using hx, hm, hs, hwd, hc, hh, hd, hq, by simp [hfin, hop], fun _ => ⟨j, hwt, he⟩⟩
    · obtain ⟨u, f, he, hm, hs, hwd, hc, hh, hd, hq, hfin, -⟩ := exec_held hClkon hr hop hw hf (goClkon_ok hle)
      exact ⟨u, f, by simpa [hop] using he, hm, hs, hwd, hc, hh, hd, hq, by simp [hfin, hop], by simp [hop]⟩
  · obtain ⟨hop, hn⟩ | ⟨hop, hlt⟩ := h
    · obtain ⟨u, he, hs, hm, hv, -⟩ := exec_of_error hAcquire hr hop (by decide) (goAcquire_error (syncOf_eq_none.mpr hn))
      exact ⟨u, by simpa [hop] using he, hs, hm, hv⟩
    · obtain ⟨u, he, hs, hm, hv, -⟩ := exec_of_error hClkon hr hop (by decide) (goClkon_error hlt)
      exact ⟨u, by simpa [hop] using he, hs, hm, hv⟩

end Sys2Proof.Machine
end

section
/-! PROOFS. Copies and fills within the scratchpads, and `MX.ZERO` (R38, R39, R89): O44. -/

namespace Sys2Proof.Machine

/-! Correctable lines that a read meets (R251) -/

/-- A correctable line is counted and its rewrite owed: memory, tiles and launches stay. -/
theorem noteCe_eq (p : Pkg) (l : Nat) :
    ∃ a b c d e, noteCe p l = { p with queues := a, regs := b, ceOwed := c, ceSeen := d, ceCount := e } := by
  unfold noteCe
  simp only
  split
  · split
    · exact ⟨p.queues, p.regs, p.ceOwed, p.ceSeen, p.ceCount, rfl⟩
    · exact ⟨_, _, _, _, _, rfl⟩
  · exact ⟨_, _, _, _, _, rfl⟩

@[simp] theorem noteCes_mem (p : Pkg) (rs : List (Nat × Nat)) : (noteCes p rs).mem = p.mem := by
  have h : ∀ (ls : List Nat) (q : Pkg), (ls.foldl (fun q l => if q.ceLines.contains l then noteCe q l else q) q).mem = q.mem := by
    intro ls
    induction ls with
    | nil => exact fun _ => rfl
    | cons l ls ih =>
      intro q
      rw [List.foldl_cons, ih]
      split
      · obtain ⟨a, b, c, d, e, h⟩ := noteCe_eq q l
        rw [h]
      · rfl
  unfold noteCes
  split
  · rfl
  · exact h _ _

/-! Checks -/

theorem getDesc_ok {x : Tile} {t mask slot : Nat} {dm rem : Bool} (h : (x.desc slot).valid t mask dm rem = true) :
    getDesc x t mask slot dm rem = .ok (x.desc slot) := by
  simp only [getDesc, h, if_true]

theorem lineChk_ok {p : Pkg} (h : p.badLines = []) (rs : List (Nat × Nat)) : lineChk p rs = .ok () := by
  simp only [lineChk, firstBad, h, List.isEmpty_nil, if_true]

/-! Movements within the scratchpads -/

/-- The record of a copy within the scratchpads: in flight for the latency of the farther end, with the elements that it read (R38). -/
theorem goMoves_scratch {t : Nat} {p : Pkg} {x : Tile} {w cyc : Nat} {a d : Desc} (ms : List Move) (extra : Nat) (sqSrc sqDst : Bool)
    (ha : a.hbm = false) (hd : d.hbm = false) (hb : p.badLines = []) :
    ∃ r, goMoves t p x w cyc a d ms extra sqSrc sqDst = .ok (r, { inFl (cyc + extra + moveCycles (max (reach t a.addr) (reach t d.addr))
        (elemBytes d.fmt ms.length)) with effs := (movesFrom p.mem ms ++ padW d).map Eff.bits }) ∧ r.mem = p.mem := by
  unfold goMoves
  simp only [ha, hd, Bool.not_false, Bool.and_self, if_true, lineChk_ok hb, noteCes_mem]
  exact ⟨_, rfl, noteCes_mem _ _⟩

section
variable {t : Fin 128} {p : Pkg} {l w cyc : Nat} {x : Tile}
variable (ha : (x.desc (slotA w)).valid t (launchMask p l) true false = true) (hd : (x.desc (slotC w)).valid t (launchMask p l) true false = true)
include ha hd

theorem goCopy_of_agree (hf : (x.desc (slotA w)).fcode = (x.desc (slotC w)).fcode) (hc : (x.desc (slotA w)).count = (x.desc (slotC w)).count) :
    goCopy t p l x w cyc = goMoves t p x w cyc (x.desc (slotA w)) (x.desc (slotC w)) (copyMoves (x.desc (slotA w)) (x.desc (slotC w))) 0 false false := by
  have h : ((x.desc (slotA w)).fcode == (x.desc (slotC w)).fcode && (x.desc (slotA w)).count == (x.desc (slotC w)).count) = true := by
    rw [hf, hc, beq_self_eq_true, beq_self_eq_true]; rfl
  unfold goCopy
  simp only [getDesc_ok ha, getDesc_ok hd]
  simp only [bind, Except.bind, h, need, if_true]

theorem goCopy_of_disagree (h : (x.desc (slotA w)).fcode ≠ (x.desc (slotC w)).fcode ∨ (x.desc (slotA w)).count ≠ (x.desc (slotC w)).count) :
    goCopy t p l x w cyc = .error (fDesc (slotC w)) := by
  have h : ((x.desc (slotA w)).fcode == (x.desc (slotC w)).fcode && (x.desc (slotA w)).count == (x.desc (slotC w)).count) = false := by
    obtain h | h := h
    · rw [beq_eq_false_iff_ne.mpr h, Bool.false_and]
    · rw [beq_eq_false_iff_ne.mpr h, Bool.and_false]
  unfold goCopy
  simp only [getDesc_ok ha, getDesc_ok hd]
  simp only [bind, Except.bind, h, need, Bool.false_eq_true, if_false]

end

/-- A copy stores at element i what it read at element i of its source. -/
theorem copy_stores (m : Mem) (a d : Desc) (pad : List BitW) {i : Nat} (h : i < d.count) :
    ∃ b, Eff.bits b ∈ (movesFrom m (copyMoves a d) ++ pad).map Eff.bits ∧ b.addr = d.bitAt i ∧ b.w = d.fmt.width ∧
      b.v = rdBits m (a.bitAt i) d.fmt.width := by
  refine ⟨{ addr := d.bitAt i, w := d.fmt.width, v := rdBits m (a.bitAt i) d.fmt.width }, ?_, rfl, rfl, rfl⟩
  refine List.mem_map_of_mem (List.mem_append_left _ ?_)
  unfold movesFrom copyMoves
  rw [List.map_map]
  exact List.mem_map.mpr ⟨i, List.mem_range.mpr h, rfl⟩

/-- A fill stores its pattern, truncated to the format's width, at element i. -/
theorem fill_stores (d : Desc) (w : Nat) (pad : List BitW) {i : Nat} (h : i < d.count) :
    ∃ b, Eff.bits b ∈ (((List.range d.count).map fun i => wrElem d i (BitVec.ofNat 64 (bits w 63 0))) ++ pad).map Eff.bits ∧
      b.addr = d.bitAt i ∧ b.w = d.fmt.width ∧ b.v = bits w 63 0 % 2 ^ d.fmt.width := by
  have hlt : bits w 63 0 < 2 ^ 64 := bits_lt w 63 0
  refine ⟨wrElem d i (BitVec.ofNat 64 (bits w 63 0)), ?_, rfl, rfl, ?_⟩
  · exact List.mem_map_of_mem (List.mem_append_left _ (List.mem_map_of_mem (List.mem_range.mpr h)))
  · simp only [wrElem, BitVec.toNat_ofNat, Nat.mod_eq_of_lt hlt]

/-- The record of a fill of a scratchpad. -/
theorem goFill_scratch {t : Fin 128} {p : Pkg} {l w cyc : Nat} {x : Tile}
    (hd : (x.desc (slotC w)).valid t (launchMask p l) true false = true) (hh : (x.desc (slotC w)).hbm = false) :
    goFill t p l x w cyc = .ok (p, { inFl (cyc + moveCycles (reach t (x.desc (slotC w)).addr) (elemBytes (x.desc (slotC w)).fmt (x.desc (slotC w)).count))
      with effs := (((List.range (x.desc (slotC w)).count).map fun i => wrElem (x.desc (slotC w)) i (BitVec.ofNat 64 (bits w 63 0)))
        ++ padW (x.desc (slotC w))).map Eff.bits }) := by
  unfold goFill
  simp only [getDesc_ok hd]
  simp only [bind, Except.bind, hh, Bool.false_eq_true, if_false]

theorem goZero_ok {t l w cyc : Nat} {p : Pkg} {x : Tile} (h : mxCi w + mxRows w ≤ 4096) :
    goZero t p l x w cyc = .ok (p, { inFl (cyc + 2 + cdiv (mxRows w) 4) with effs := zeroRows t (mxCi w) (mxRows w) }) := by
  unfold goZero combRows
  simp only [h, if_true]
  rfl

theorem goZero_error {t l w cyc : Nat} {p : Pkg} {x : Tile} (h : 4096 < mxCi w + mxRows w) : goZero t p l x w cyc = .error fRange := by
  unfold goZero combRows
  simp only [Nat.not_le.mpr h, if_false]
  rfl

/-- `MX.ZERO` zeroes the cells of its rows, and clears each row's TOUCHED and counter (R89). -/
theorem zeroes_mem_zeroRows (t ci n : Nat) : Eff.bits { addr := 8 * (combBase t + 2048 * ci), w := 16384 * n, v := 0 } ∈ zeroRows t ci n := by
  rw [Nat.mul_comm 2048]
  exact List.mem_cons_self

theorem rowClear_mem_zeroRows (t : Nat) {ci n k : Nat} (h : ci ≤ k) (h' : k < ci + n) : Eff.rowClear k ∈ zeroRows t ci n := by
  refine List.mem_cons_of_mem _ (List.mem_map.mpr ⟨k - ci, List.mem_range.mpr (by omega), ?_⟩)
  rw [Nat.add_sub_cancel' h]

/-- Settles O44: each instruction's record carries its retire cycle and what it stores; what disagrees or goes beyond is the plan fault
that its checks find. -/
theorem copiesAndFills : Obligations.CopiesAndFills := by
  have hCopy (t : Fin 128) : Safety.IssuesAs (.dmCopy t) t 2 0x80 (goCopy t) Safety.nothing := issuesAs_of_exec fun _ => rfl
  have hFill (t : Fin 128) : Safety.IssuesAs (.dmFill t) t 2 0x83 (goFill t) Safety.nothing := issuesAs_of_exec fun _ => rfl
  have hZero (t : Fin 128) : Safety.IssuesAs (.mxZero t) t 0 0x04 (goZero t) Safety.nothing := issuesAs_of_exec fun _ => rfl
  refine ⟨?_, ?_⟩
  · rintro s t l x w cyc a d hr hop rfl rfl ha hd hah hdh hb hf
    rw [← headTaken_desc x 2 w cyc 1] at ha hd hah hdh ⊢
    refine ⟨fun hfc hc => ?_, fun hne => ?_⟩
    · obtain ⟨r, hg, hm⟩ := goMoves_scratch (t := t) (p := Safety.issuing s t 2 w cyc) (x := x.headTaken 2 w cyc 1) (w := w) (cyc := cyc)
        (copyMoves _ _) 0 false false hah hdh hb
      rw [issuing_mem hf] at hm hg
      have hgo := (goCopy_of_agree (p := Safety.issuing s t 2 w cyc) ha hd hfc hc).trans hg
      refine ⟨_, _, exec_of_ok (hCopy t) hr hop hf hgo, entered_mem_enterFlight .., rfl, rfl, hm, ?_, ?_⟩
      · simp [InFl.entered, inFl, copyMoves, elemBytes, cdiv]
      · intro i hi
        simp only [InFl.entered]
        exact copy_stores s.pkg.mem _ _ _ hi
    · have hgo := goCopy_of_disagree (p := Safety.issuing s t 2 w cyc) (cyc := cyc) ha hd hne
      obtain ⟨u, he, hs, hm, hv, hmem⟩ := exec_of_error (hCopy t) hr hop (by simp [fDesc]) hgo
      refine ⟨u, he, hs, hm, ?_, hmem⟩
      have : slotC w < 64 := bits_lt w 83 78
      rw [hv]
      simp only [fDesc]
      omega
  · intro s t l x w cyc hf
    refine ⟨?_, fun hr hop hle => ?_, fun hr hop hlt => ?_⟩
    · rintro d hr hop rfl hd hh
      rw [← headTaken_desc x 2 w cyc 1] at hd hh ⊢
      have hgo := goFill_scratch (p := Safety.issuing s t 2 w cyc) (cyc := cyc) hd hh
      refine ⟨_, _, exec_of_ok (hFill t) hr hop hf hgo, entered_mem_enterFlight .., rfl, rfl, issuing_mem hf t 2 w cyc, ?_, ?_⟩
      · rfl
      · intro i hi
        simp only [InFl.entered]
        exact fill_stores _ w _ hi
    · refine ⟨_, _, exec_of_ok (hZero t) hr hop hf (goZero_ok hle), entered_mem_enterFlight .., rfl, rfl, issuing_mem hf t 0 w cyc, ?_, ?_⟩
      · exact zeroes_mem_zeroRows t _ _
      · exact fun k hk hk' => rowClear_mem_zeroRows t hk hk'
    · obtain ⟨u, he, hs, hm, hv, hmem⟩ := exec_of_error (hZero t) hr hop (by decide) (goZero_error hlt)
      exact ⟨u, he, hs, hv, hm, hmem⟩

end Sys2Proof.Machine
end

section
/-! PROOFS. Retirement and release (R22, R23, R25, R33, R35, R37): O46. -/

namespace Sys2Proof.Machine

/-! What effects store (R33) -/

/-- An element's store keeps the bytes outside it. -/
theorem mget_applyW_outside (m : Mem) (b : BitW) (a : Nat)
    (h : a < b.addr / 8 ∨ b.addr / 8 + (b.addr % 8 + b.w + 7) / 8 ≤ a) : mget (applyW m b) a = mget m a := by
  unfold applyW
  split <;> (apply mget_mwrite_outside; rw [natLe_length]; omega)

theorem mget_setCell_outside (m : Mem) (c : Nat) (wide : Bool) (u v : W64) (a : Nat)
    (h : a < c ∨ c + (if wide then 16 else 8) ≤ a) : mget (setCell m c wide u v) a = mget m a := by
  unfold setCell
  cases wide <;> (apply mget_mwrite_outside; simpa [natLe_length] using h)

theorem length_flatMap_natLe (l : List Nat) (k : Nat) (v : Nat → Nat) : (l.flatMap fun i => natLe k (v i)).length = l.length * k := by
  simp only [List.length_flatMap, natLe_length, List.map_const', List.sum_replicate, smul_eq_mul]

theorem effStores_cons (e : Eff) (l : List Eff) : effStores (e :: l) = effStores [e] ++ effStores l :=
  List.filterMap_append (l := [e])

/-- An effect keeps the bytes outside what it stores. -/
theorem mget_applyEff_outside (st : EffSt) (e : Eff) (a : Nat) (h : ∀ r ∈ effStores [e], a < r.1 ∨ r.1 + r.2 ≤ a) :
    mget (applyEff st e).mem a = mget st.mem a := by
  cases e with
  | bits b => exact mget_applyW_outside _ b a (h _ (List.mem_singleton.mpr rfl))
  | rowPass row clr lanes =>
    unfold applyEff
    dsimp only
    repeat' split
    all_goals rfl
  | add cell wide lane v clr =>
    have hc := h _ (List.mem_singleton.mpr rfl)
    unfold applyEff
    dsimp only
    split <;> exact mget_setCell_outside _ _ _ _ _ a hc
  | rowClear row => rfl
  | rowSet row r => rfl
  | lane k fl => rfl
  | flagVec b =>
    have hb := h _ (List.mem_singleton.mpr rfl)
    apply mget_mwrite_outside
    rw [length_flatMap_natLe, List.length_range]
    exact hb

/-- Effects in turn keep the bytes outside what they store. -/
theorem mget_effects_outside (l : List Eff) (st : EffSt) (a : Nat) (h : ∀ r ∈ effStores l, a < r.1 ∨ r.1 + r.2 ≤ a) :
    mget (l.foldl applyEff st).mem a = mget st.mem a := by
  induction l generalizing st with
  | nil => rfl
  | cons e l ih =>
    rw [effStores_cons] at h
    rw [List.foldl_cons, ih _ fun r hr => h r (List.mem_append_right _ hr),
      mget_applyEff_outside _ _ _ fun r hr => h r (List.mem_append_left _ hr)]

/-! Tokens (R23, R25) -/

/-- A token as it stands in cycle c: the signals of earlier cycles count. -/
def Tok.settled (k : Tok) (c : Nat) : Tok := if c > k.pcyc then { val := k.val + k.pend, pcyc := c, pend := 0 } else k

theorem settled_count (k : Tok) (c : Nat) : (k.settled c).val + (k.settled c).pend = k.val + k.pend := by
  unfold Tok.settled
  split <;> rfl

theorem settled_val (x : Tile) (n c : Nat) : ((sget x.toks n {}).settled c).val = x.tokAt n c := by
  unfold Tok.settled Tile.tokAt
  dsimp only
  split <;> rfl

theorem settled_pcyc {k : Tok} {c : Nat} (h : k.pcyc ≤ c) : (k.settled c).pcyc = c := by
  unfold Tok.settled
  split
  · rfl
  · omega

/-- A signal adds one to what its token counts, up to 255. -/
theorem signalTok_eq {x : Tile} {n : Nat} (hn : n ≠ 0) (c : Nat) : x.signalTok n c =
    if 255 ≤ Safety.tokCount x n then none
    else some { x with toks := sset x.toks n { (sget x.toks n {}).settled c with pend := ((sget x.toks n {}).settled c).pend + 1 } } := by
  rw [Safety.tokCount, ← settled_count _ c]
  unfold Tile.signalTok
  rw [if_neg hn]
  rfl

theorem signalTok_eq_none {x : Tile} {n c : Nat} (hn : n ≠ 0) : x.signalTok n c = none ↔ 255 ≤ Safety.tokCount x n := by
  rw [signalTok_eq hn]
  split <;> simp_all only [reduceCtorEq]

/-- A signal counts from the next cycle on, and changes its token alone. -/
theorem signalTok_eq_some {x y : Tile} {n c : Nat} (h : x.signalTok n c = some y) :
    ∃ m, y = { x with toks := m } ∧ (∀ k, k ≠ n → sget m k {} = sget x.toks k {}) ∧ (n = 0 → m = x.toks) ∧
      (n ≠ 0 → Safety.tokCount y n = Safety.tokCount x n + 1 ∧
        ((sget x.toks n {}).pcyc ≤ c → y.tokAt n c = x.tokAt n c ∧ y.tokAt n (c + 1) = Safety.tokCount x n + 1)) := by
  by_cases hn : n = 0
  · rw [Tile.signalTok, if_pos hn, Option.some.injEq] at h
    exact ⟨x.toks, h.symm, fun _ _ => rfl, fun _ => rfl, fun h => absurd hn h⟩
  · rw [signalTok_eq hn, Option.ite_none_left_eq_some, Option.some.injEq] at h
    obtain ⟨-, rfl⟩ := h
    refine ⟨_, rfl, fun k hk => sget_sset_ne _ _ _ hk, fun h => absurd h hn, fun _ => ⟨?_, fun hp => ?_⟩⟩
    · simp only [Safety.tokCount, sget_sset_self]
      rw [← settled_count _ c]
      rfl
    · rw [← settled_val x n c, Safety.tokCount, ← settled_count _ c]
      simp only [Tile.tokAt, sget_sset_self, settled_pcyc hp]
      exact ⟨if_neg (Nat.lt_irrefl c), if_pos (Nat.lt_succ_self c)⟩

/-! The end of an instruction -/

/-- What an instruction signals at its end: its token, or plan fault TOKEN_OVERFLOW (R25). -/
def signalled (p : Pkg) (c : Clock) (t n q cyc : Nat) : Pkg :=
  match (tile p t).signalTok n cyc with
  | some y => setTile p t y
  | none => planFault p c t 0x03 q 0 0

/-- The package whose memory the effects act on: the old contents kept, replaced lines healed, the launch's ranges noted (R9, R33). -/
def noted (p : Pkg) (c : Clock) (t : Nat) (st : List (Nat × Nat)) : Pkg := noteOuts (healLines (keepOld p c st) st) (tile p t).launch st

/-- A tile that an instruction has left, with the rows that its effects made. -/
def leftBy (x : Tile) (f : InFl) (cyc : Nat) (rows : SMap RowSt) : Tile :=
  let y := mxRetired { x with rows := rows, infl := x.infl.filter (fun g => g.seq != f.seq) } f cyc
  if opcodeOf f.word.toNat = 0xA7 then { y with ended := true } else y

/-- What `SY.END` and `SY.CLKON` do at their end to the tile's cores and clocks. -/
def endedBy (p : Pkg) (t w : Nat) : Pkg :=
  if opcodeOf w = 0xA7 then sleepVector p t else if opcodeOf w = 0xA6 then startClocks p t (bits w 7 0) else p

/-- The flags of an operation in its launch (R69). -/
def flagged (p : Pkg) (l : Option Nat) (fl : Flags) : Pkg :=
  match l with
  | some l => addFlags p l fl
  | none => p

/-- The end of an instruction but for what it signals. -/
def finished (p : Pkg) (c : Clock) (t : Nat) (f : InFl) (cyc : Nat) : Pkg :=
  let p := noted p c t (effStores f.effs)
  let e := f.effs.foldl applyEff { mem := p.mem, rows := (tile p t).rows, lanes := [] }
  let x := leftBy (tile p t) f cyc e.rows
  endedBy (flagged (setTile { p with mem := e.mem } t x) x.launch (f.flags ||| laneOr e.lanes)) t f.word.toNat

/-- Without uncorrectable lines an instruction ends: its effects, then its token. -/
theorem retire_eq {p : Pkg} (hb : p.badLines = []) (c : Clock) (t : Nat) (f : InFl) (cyc : Nat) :
    retire p c t f cyc = signalled (finished p c t f cyc) c t (stok f.word.toNat) f.q cyc := by
  have h : badPart p (effStores f.effs) = none := by rw [badPart, hb]; rfl
  unfold retire
  simp only [h]
  rfl

/-! Before the effects act, only the old contents, the marks of lines and the launches differ -/

theorem noted_eq (p : Pkg) (c : Clock) (t : Nat) (st : List (Nat × Nat)) :
    ∃ a b d e, noted p c t st = { p with fresh := a, badLines := b, ceLines := d, launches := e } := by
  have h : ∃ a b d, healLines (keepOld p c st) st = { p with fresh := a, badLines := b, ceLines := d } := by
    unfold healLines
    split <;> exact ⟨_, _, _, rfl⟩
  obtain ⟨a, b, d, h⟩ := h
  unfold noted noteOuts
  rw [h]
  split <;> exact ⟨a, b, d, _, rfl⟩

section
variable (p : Pkg) (c : Clock) (t : Nat) (st : List (Nat × Nat))

@[simp] theorem noted_mem : (noted p c t st).mem = p.mem := by
  obtain ⟨_, _, _, _, h⟩ := noted_eq p c t st; rw [h]
@[simp] theorem noted_punits : (noted p c t st).punits = p.punits := by
  obtain ⟨_, _, _, _, h⟩ := noted_eq p c t st; rw [h]
@[simp] theorem tile_noted : tile (noted p c t st) t = tile p t := by
  obtain ⟨_, _, _, _, h⟩ := noted_eq p c t st; rw [h]; rfl

end

/-! The flags enter the launch alone -/

theorem flagged_eq (p : Pkg) (l : Option Nat) (fl : Flags) : ∃ y, flagged p l fl = { p with launches := y } := by
  unfold flagged
  split <;> exact ⟨_, rfl⟩

section
variable (p : Pkg) (l : Option Nat) (fl : Flags)

@[simp] theorem flagged_mem : (flagged p l fl).mem = p.mem := by obtain ⟨_, h⟩ := flagged_eq p l fl; rw [h]
@[simp] theorem flagged_punits : (flagged p l fl).punits = p.punits := by obtain ⟨_, h⟩ := flagged_eq p l fl; rw [h]
@[simp] theorem tile_flagged (t : Nat) : tile (flagged p l fl) t = tile p t := by obtain ⟨_, h⟩ := flagged_eq p l fl; rw [h]; rfl

end

/-! The end of `SY.END` and of `SY.CLKON` reaches cores, registers and the tile's clocks -/

theorem startClocks_eq (p : Pkg) (t mask : Nat) :
    ∃ a b m, startClocks p t mask = { modTile p t (fun x => { x with clocks := m }) with cores := a, regs := b } := by
  unfold startClocks
  dsimp only
  repeat' split
  all_goals exact ⟨_, _, _, rfl⟩

section
variable (p : Pkg) (t w : Nat)

@[simp] theorem endedBy_mem : (endedBy p t w).mem = p.mem := by
  obtain ⟨_, _, _, h⟩ := startClocks_eq p t (bits w 7 0)
  rw [endedBy, h]
  repeat' split
  all_goals rfl

@[simp] theorem endedBy_punits : (endedBy p t w).punits = p.punits := by
  obtain ⟨_, _, _, h⟩ := startClocks_eq p t (bits w 7 0)
  rw [endedBy, h]
  repeat' split
  all_goals rfl

theorem tile_endedBy : ∃ m, tile (endedBy p t w) t = { tile p t with clocks := m } := by
  obtain ⟨a, b, m, h⟩ := startClocks_eq p t (bits w 7 0)
  rw [endedBy, h]
  split
  · exact ⟨(tile p t).clocks, rfl⟩
  · split
    · exact ⟨m, (tile_congr (q := modTile p t fun x => { x with clocks := m }) t rfl).trans (tile_modTile_self p t _)⟩
    · exact ⟨(tile p t).clocks, rfl⟩

end

/-! The end of an instruction but for what it signals -/

/-- The tile that an instruction leaves keeps its tokens and the other instructions in flight. -/
theorem leftBy_keeps (x : Tile) (f : InFl) (cyc : Nat) (rows : SMap RowSt) :
    (leftBy x f cyc rows).toks = x.toks ∧ (leftBy x f cyc rows).infl = x.infl.filter (fun g => g.seq != f.seq) := by
  unfold leftBy mxRetired
  dsimp only
  repeat' split
  all_goals exact ⟨rfl, rfl⟩

section
variable (p : Pkg) (c : Clock) (t : Nat) (f : InFl) (cyc : Nat)

theorem tile_finished : ∃ m rows, tile (finished p c t f cyc) t = { leftBy (tile p t) f cyc rows with clocks := m } := by
  unfold finished
  dsimp only
  obtain ⟨m, h⟩ := tile_endedBy (flagged _ _ _) t f.word.toNat
  rw [h, tile_flagged, tile_setTile_self, tile_noted]
  exact ⟨m, _, rfl⟩

theorem finished_toks : (tile (finished p c t f cyc) t).toks = (tile p t).toks := by
  obtain ⟨m, rows, h⟩ := tile_finished p c t f cyc
  rw [h]
  exact (leftBy_keeps _ _ _ _).1

theorem finished_infl : (tile (finished p c t f cyc) t).infl = (tile p t).infl.filter (fun g => g.seq != f.seq) := by
  obtain ⟨m, rows, h⟩ := tile_finished p c t f cyc
  rw [h]
  exact (leftBy_keeps _ _ _ _).2

theorem finished_punits : (finished p c t f cyc).punits = p.punits := by
  simp only [finished, endedBy_punits, flagged_punits, setTile_punits, noted_punits]

theorem mget_finished_outside (a : Nat) (h : ∀ r ∈ effStores f.effs, a < r.1 ∨ r.1 + r.2 ≤ a) :
    mget (finished p c t f cyc).mem a = mget p.mem a := by
  simp only [finished, endedBy_mem, flagged_mem, setTile_mem]
  rw [mget_effects_outside _ _ _ h, noted_mem]

end

/-! What an instruction signals -/

section
variable (p : Pkg) (c : Clock) (t n q cyc : Nat)

@[simp] theorem signalled_mem : (signalled p c t n q cyc).mem = p.mem := by
  unfold signalled
  split
  · rfl
  · exact planFault_mem ..

@[simp] theorem signalled_infl : (tile (signalled p c t n q cyc) t).infl = (tile p t).infl := by
  unfold signalled
  split
  next y h =>
    obtain ⟨m, rfl, -⟩ := signalTok_eq_some h
    rw [tile_setTile_self]
  next => rw [tile_planFault]

/-- A signal changes its token alone, if any. -/
theorem signalled_toks : (∀ k, k ≠ n → sget (tile (signalled p c t n q cyc) t).toks k {} = sget (tile p t).toks k {}) ∧
    (n = 0 → (tile (signalled p c t n q cyc) t).toks = (tile p t).toks) := by
  unfold signalled
  split
  next y h =>
    obtain ⟨m, rfl, hk, h0, -⟩ := signalTok_eq_some h
    rw [tile_setTile_self]
    exact ⟨hk, h0⟩
  next => rw [tile_planFault]; exact ⟨fun _ _ => rfl, fun _ => rfl⟩

variable {n}

/-- Below 255 the token counts one more, from the next cycle on (R23). -/
theorem signalled_count (hn : n ≠ 0) (h : Safety.tokCount (tile p t) n < 255) :
    let x := tile p t
    let y := tile (signalled p c t n q cyc) t
    Safety.tokCount y n = Safety.tokCount x n + 1 ∧
      ((sget x.toks n {}).pcyc ≤ cyc → y.tokAt n cyc = x.tokAt n cyc ∧ y.tokAt n (cyc + 1) = Safety.tokCount x n + 1) := by
  unfold signalled
  split
  next y hy =>
    obtain ⟨-, -, -, -, hc⟩ := signalTok_eq_some hy
    rw [tile_setTile_self]
    exact hc hn
  next hy => exact absurd ((signalTok_eq_none hn).mp hy) (Nat.not_le.mpr h)

/-- At 255 the signal is plan fault TOKEN_OVERFLOW (R25). -/
theorem signalled_overflow (hn : n ≠ 0) (h : 255 ≤ Safety.tokCount (tile p t) n) :
    (tile (signalled p c t n q cyc) t).stopped = true ∧ rget (signalled p c t n q cyc) (tReg p t + 8) % 256 = 0x03 := by
  have hs := (signalTok_eq_none (c := cyc) hn).mpr h
  unfold signalled
  rw [hs]
  refine ⟨by rw [tile_planFault], ?_⟩
  dsimp only
  rw [rget_planFault_fault]
  omega

end

/-! The two commands -/

theorem seq_of_findInfl {p : Pkg} {t n : Nat} {f : InFl} (h : findInfl p t n = some f) : f.seq = n :=
  beq_iff_eq.mp (List.find?_some (p := fun g : InFl => g.seq == n) h)

/-- An instruction that has left is found no more. -/
theorem findInfl_eq_none {p : Pkg} {t n : Nat} {l : List InFl} (h : (tile p t).infl = l.filter (fun g => g.seq != n)) :
    findInfl p t n = none := by
  rw [findInfl, h, List.find?_eq_none]
  intro g hg
  have := (List.mem_filter.mp hg).2
  simpa using this

/-- The end of an instruction, in a package without uncorrectable lines. -/
theorem retire_retired {s : State} {t n : Nat} {f : InFl} (hf : findInfl s.pkg t n = some f) (hb : s.pkg.badLines = []) (cyc : Nat) :
    Safety.Retired s (Safety.withPkg s (retire s.pkg s.clk t f cyc)) t n f cyc := by
  have hseq := seq_of_findInfl hf
  have htoks := finished_toks s.pkg s.clk t f cyc
  have hcount : Safety.tokCount (tile (finished s.pkg s.clk t f cyc) t) = Safety.tokCount (tile s.pkg t) := by
    funext k; unfold Safety.tokCount; rw [htoks]
  have hat : (tile (finished s.pkg s.clk t f cyc) t).tokAt = (tile s.pkg t).tokAt := by
    funext k d; unfold Tile.tokAt; rw [htoks]
  have hreg : tReg (finished s.pkg s.clk t f cyc) t = tReg s.pkg t := tReg_congr t (finished_punits s.pkg s.clk t f cyc)
  obtain ⟨hother, hzero⟩ := signalled_toks (finished s.pkg s.clk t f cyc) s.clk t (stok f.word.toNat) f.q cyc
  rw [retire_eq hb]
  refine ⟨?_, rfl, rfl, fun a ha => ?_, fun k hk => ?_, fun h0 => ?_, fun hn hlt => ?_, fun hn hle => ?_⟩
  · apply findInfl_eq_none (l := (tile s.pkg t).infl)
    rw [signalled_infl, finished_infl, hseq]
  · rw [signalled_mem, mget_finished_outside _ _ _ _ _ _ ha]
  · rw [hother k hk, htoks]
  · rw [hzero h0, htoks]
  · have h := signalled_count (finished s.pkg s.clk t f cyc) s.clk t f.q cyc hn (by rw [hcount]; exact hlt)
    simp only [hcount, hat, htoks] at h
    exact h
  · have h := signalled_overflow (finished s.pkg s.clk t f cyc) s.clk t f.q cyc hn (by rw [hcount]; exact hle)
    rw [hreg] at h
    exact h

/-- What the release of unfinished work leaves: the instruction gone and the tile stopped (R37). -/
def cutOff (p : Pkg) (t n : Nat) : Pkg := modTile p t (fun y => { y with stopped := true, infl := y.infl.filter (fun g => g.seq != n) })

/-- The launch's cause, where the tile has a launch. -/
def blamed (p : Pkg) (c : Clock) (l : Option Nat) (owes : Bool) : Pkg :=
  match l with
  | none => p
  | some l => heldFailed p c l owes

theorem blamed_eq (p : Pkg) (c : Clock) (l : Option Nat) (owes : Bool) : ∃ y, blamed p c l owes = { p with launches := y } := by
  unfold blamed
  split <;> exact ⟨_, rfl⟩

section
variable {s : State} {t : Fin 128} {n : Nat} {f : InFl} (hf : findInfl s.pkg t n = some f)
include hf

theorem exec_instructionRetire : exec (.instructionRetire t n) s = .next (Safety.withPkg s
    (if mayRetire (tile s.pkg t) f (cycleOf s.pkg s.clk (tile s.pkg t).start)
      then retire s.pkg s.clk t f (cycleOf s.pkg s.clk (tile s.pkg t).start) else s.pkg)) := by
  rw [show exec (.instructionRetire t n) s = execInstructionRetire t n s from rfl, execInstructionRetire, run_eq]
  simp only [hf]

theorem exec_heldRelease : exec (.heldRelease t n) s = .next (Safety.withPkg s
    (if !f.held || decide (cycleOf s.pkg s.clk (tile s.pkg t).start < f.due) || !retiresFirst (tile s.pkg t) f then s.pkg
      else if f.fin && !f.failed && !owesHbm s.pkg (.tile t n) then retire s.pkg s.clk t f (cycleOf s.pkg s.clk (tile s.pkg t).start)
      else blamed (cutOff s.pkg t n) s.clk (tile s.pkg t).launch (owesCopy s.pkg t n))) := by
  rw [show exec (.heldRelease t n) s = execHeldRelease t n s from rfl, execHeldRelease, run_eq]
  simp only [hf]
  cases (tile s.pkg t).launch <;> rfl

/-- Held work that is unfinished or has failed at its release. -/
theorem exec_heldRelease_unfinished (hh : f.held = true) (hd : f.due ≤ cycleOf s.pkg s.clk (tile s.pkg t).start)
    (hr : retiresFirst (tile s.pkg t) f = true) (hu : f.fin = false ∨ f.failed = true ∨ owesHbm s.pkg (.tile t n) = true) :
    exec (.heldRelease t n) s = .next (Safety.withPkg s (blamed (cutOff s.pkg t n) s.clk (tile s.pkg t).launch (owesCopy s.pkg t n))) := by
  have h : (f.fin && !f.failed && !owesHbm s.pkg (.tile t n)) = false := by
    obtain h | h | h := hu <;> simp [h]
  rw [exec_heldRelease hf, hh, hr, h, decide_eq_false (Nat.not_lt.mpr hd)]
  rfl

end

/-- The tile of cut-off work has stopped, without it; its tokens stay, and so does memory. -/
theorem blamed_cutOff_keeps (p : Pkg) (c : Clock) (t n : Nat) (l : Option Nat) (owes : Bool) :
    tile (blamed (cutOff p t n) c l owes) t =
      { tile p t with stopped := true, infl := (tile p t).infl.filter (fun g => g.seq != n) } ∧
    (blamed (cutOff p t n) c l owes).mem = p.mem := by
  obtain ⟨y, h⟩ := blamed_eq (cutOff p t n) c l owes
  rw [h]
  exact ⟨(tile_congr (q := cutOff p t n) t rfl).trans (tile_modTile_self p t _), rfl⟩

/-- A launch without a recorded cause takes FAILED_FABRIC where a pulled copy is owed, else what notices told of, else FAILED_HARDWARE. -/
theorem findLaunch_heldFailed {p : Pkg} {l : Nat} {y : Launch} (c : Clock) (owes : Bool) (hy : findLaunch p l = some y) (hc : y.causes = []) :
    ∃ y', findLaunch (heldFailed p c l owes) l = some y' ∧ (owes = true → y'.causes = [(c.gsc, 0x22)]) ∧
      (owes = false → (y.told = [] → y'.causes = [(c.gsc, 0x20)]) ∧ (y.told ≠ [] → y'.causes = y.told)) := by
  refine ⟨_, findLaunch_modLaunch_self (fun z => ?_) hy, fun ho => ?_, fun ho => ⟨fun ht => ?_, fun ht => ?_⟩⟩
  · repeat' split
    all_goals rfl
  · simp [ho, hc]
  · simp [ho, hc, ht]
  · simp [ho, hc, ht]

/-- `SY.END` may not retire while its tile's queues hold work or an earlier instruction is in flight (Table 2.5). -/
theorem mayRetire_end {x : Tile} {f : InFl} {cyc : Nat} (ho : opcodeOf f.word.toNat = 0xA7) (h : x.dmq ≠ [] ∨ ∃ g ∈ x.infl, g.seq < f.seq) :
    mayRetire x f cyc = false := by
  have hr : (x.mxq.isEmpty && x.scq.isEmpty && x.dmq.isEmpty && x.syq.isEmpty && x.infl.all (fun g => decide (f.seq ≤ g.seq))) = false := by
    obtain h | ⟨g, hg, hlt⟩ := h
    · simp [h]
    · have : x.infl.all (fun g => decide (f.seq ≤ g.seq)) = false := by
        rw [List.all_eq_false]
        exact ⟨g, hg, by simpa using hlt⟩
      rw [this, Bool.and_false]
  rw [mayRetire, hr, ho]
  simp

/-- Settles O46: what may retire ends as `retire_retired` says; before its time a command does nothing; held work that is unfinished at
its release is cut off and its launch blamed. -/
theorem instructionsRetire : Obligations.InstructionsRetire := by
  rintro s t n f cyc hf rfl
  have hend := exec_instructionRetire hf
  have hrel := exec_heldRelease hf
  refine ⟨fun hm hb => ?_, fun hm => ?_, fun hh hd hr hfin hfl ho hb => ?_, fun _ hlt => ?_, fun hh hd hr hu => ?_, fun ho _ h => ?_⟩
  · rw [hm] at hend
    exact ⟨_, hend, retire_retired hf hb _⟩
  · rw [hm] at hend
    exact hend
  · rw [hh, hr, hfin, hfl, ho, decide_eq_false (Nat.not_lt.mpr hd)] at hrel
    exact ⟨_, hrel, retire_retired hf hb _⟩
  · rw [decide_eq_true hlt, Bool.or_true, Bool.true_or] at hrel
    exact hrel
  · obtain ⟨ht, hmem⟩ := blamed_cutOff_keeps s.pkg s.clk t n (tile s.pkg t).launch (owesCopy s.pkg t n)
    refine ⟨_, exec_heldRelease_unfinished hf hh hd hr hu, by rw [ht], ?_, hmem, by rw [ht], fun l y hl hy hc => ?_⟩
    · exact findInfl_eq_none (l := (tile s.pkg t).infl) (by rw [ht])
    · rw [hl]
      exact findLaunch_heldFailed s.clk _ hy hc
  · rw [mayRetire_end ho h] at hend
    exact hend

end Sys2Proof.Machine
end

section
/-! PROOFS. Combines: who takes part, when one begins, and what its beginning leaves in flight (R96 to R98): O45. -/

namespace Sys2Proof.Machine

/-! Work in flight on several tiles -/

theorem tile_modTile_ne {p : Pkg} {t u : Nat} (f : Tile → Tile) (h : u ≠ t) : tile (modTile p t f) u = tile p u :=
  sget_sset_ne p.tiles _ _ h

/-- What is in flight on a tile after the records with one number have changed. -/
theorem infl_modInfl (p : Pkg) (t n : Nat) (g : InFl → InFl) :
    (tile (modInfl p t n g) t).infl = (tile p t).infl.map (fun f => if f.seq = n then g f else f) := by
  rw [modInfl, tile_modTile_self]

/-- One record on each of several tiles changes: each participant's by its own tile's change. -/
def modParts (p : Pkg) (parts : List (Nat × InFl)) (g : Nat → InFl → InFl) : Pkg :=
  parts.foldl (fun q e => modInfl q e.1 e.2.seq (g e.1)) p

section
variable (g : Nat → InFl → InFl)

@[simp] theorem modParts_cons (p : Pkg) (e : Nat × InFl) (parts : List (Nat × InFl)) :
    modParts p (e :: parts) g = modParts (modInfl p e.1 e.2.seq (g e.1)) parts g := rfl

theorem modParts_mem (parts : List (Nat × InFl)) : ∀ p : Pkg, (modParts p parts g).mem = p.mem := by
  induction parts with
  | nil => exact fun _ => rfl
  | cons e parts ih => exact fun p => ih _

theorem modParts_regs (parts : List (Nat × InFl)) : ∀ p : Pkg, (modParts p parts g).regs = p.regs := by
  induction parts with
  | nil => exact fun _ => rfl
  | cons e parts ih => exact fun p => ih _

/-- A tile without a participant stays. -/
theorem tile_modParts_of_ne {u : Nat} {parts : List (Nat × InFl)} : ∀ p : Pkg, (∀ e ∈ parts, u ≠ e.1) →
    tile (modParts p parts g) u = tile p u := by
  induction parts with
  | nil => exact fun _ _ => rfl
  | cons e parts ih =>
    intro p h
    obtain ⟨he, hparts⟩ := List.forall_mem_cons.mp h
    rw [modParts_cons, ih _ hparts, modInfl, tile_modTile_ne _ he]

/-- With one participant a tile, each participant's tile changes once. -/
theorem infl_modParts {parts : List (Nat × InFl)} : ∀ p : Pkg, parts.Pairwise (fun a b => a.1 ≠ b.1) → ∀ e ∈ parts,
    (tile (modParts p parts g) e.1).infl = (tile p e.1).infl.map (fun f => if f.seq = e.2.seq then g e.1 f else f) := by
  induction parts with
  | nil => exact fun _ _ _ he => absurd he List.not_mem_nil
  | cons d parts ih =>
    intro p hp e he
    obtain ⟨hd, hparts⟩ := List.pairwise_cons.mp hp
    rw [modParts_cons]
    obtain rfl | he := List.mem_cons.mp he
    · rw [tile_modParts_of_ne g _ hd, infl_modInfl]
    · rw [ih _ hparts e he, modInfl, tile_modTile_ne _ (hd e he).symm]

end

/-! The participants of a combine (R96, R97) -/

/-- The tiles FIRST to FIRST + K − 1 that a combine's word names. -/
def combineTiles (w : Nat) : List Nat := (List.range (bits w 14 8 + 1)).map (fun i => bits w 21 15 + i)

/-- The participants that have issued the combine, each with its instruction in flight. -/
def combineParts (p : Pkg) (w : Nat) : List (Nat × InFl) :=
  (combineTiles w).filterMap (fun u => (waitingCombine (tile p u) (combineKey w)).map (fun g => (u, g)))

/-- The cycle of the last issue among participants. -/
def lastIssue (parts : List (Nat × InFl)) : Nat := parts.foldl (fun a g => max a g.2.issue) 0

/-- The record of a participant on tile u once the combine has begun after cycle `last`: whether its work ends before its release,
and, on the root, what it stores. -/
def begunRecord (p : Pkg) (w last u : Nat) (h : InFl) : InFl :=
  let first := bits w 21 15
  let n := bits w 33 22 + 1
  let e := combineEffects p first (bits w 14 8 + 1) (bits w 45 34) n (bit w 7)
  { h with fin := decide (last + 1 + (114 + 4 * n) * clog2 (bits w 14 8 + 1) ≤ h.due), wait := .none, flags := e.2.2,
           effs := if u = first then e.1 ++ e.2.1.map (fun r => Eff.rowSet r.1 r.2) else [] }

theorem firstBad_of_noBad {p : Pkg} (h : p.badLines = []) (rs : List (Nat × Nat)) : firstBad p rs = none := by
  rw [firstBad, h]; rfl

theorem noteCes_of_noCe {p : Pkg} (h : p.ceLines = []) (rs : List (Nat × Nat)) : noteCes p rs = p := by
  rw [noteCes, h]; rfl

/-- While a participant is missing a combine does not begin. -/
theorem startCombine_of_missing {p : Pkg} {f : InFl} (c : Clock) (t : Nat)
    (h : (combineParts p f.word.toNat).length ≠ bits f.word.toNat 14 8 + 1) : startCombine c t p f = p :=
  if_pos (Or.inr (Or.inl h))

/-- With every participant of one launch waiting, and no erroneous line, a combine of the root begins after the last issue. -/
theorem startCombine_of_complete {p : Pkg} {c : Clock} {t : Nat} {f : InFl} (ht : bits f.word.toNat 21 15 = t)
    (hlen : (combineParts p f.word.toNat).length = bits f.word.toNat 14 8 + 1)
    (hlaunch : ∀ e ∈ combineParts p f.word.toNat, (tile p e.1).launch = (tile p t).launch)
    (hlast : lastIssue (combineParts p f.word.toNat) < cycleOf p c (tile p t).start) (hbad : p.badLines = []) (hce : p.ceLines = []) :
    startCombine c t p f = modParts p (combineParts p f.word.toNat) (begunRecord p f.word.toNat (lastIssue (combineParts p f.word.toNat))) := by
  refine (if_neg ?_).trans ?_
  · rintro (h | h | h | h)
    · exact h ht
    · exact h hlen
    · exact Nat.not_le.mpr hlast h
    · obtain ⟨e, he, hne⟩ := List.any_eq_true.mp h
      exact bne_iff_ne.mp hne (hlaunch e he)
  · simp only [firstBad_of_noBad hbad, noteCes_of_noCe hce]
    rfl

section
variable {p : Pkg} {w : Nat}

/-- A tile without the combine makes the participants too few. -/
theorem combineParts_missing {i : Nat} (hi : i < bits w 14 8 + 1) (h : waitingCombine (tile p (bits w 21 15 + i)) (combineKey w) = none) :
    (combineParts p w).length ≠ bits w 14 8 + 1 := by
  have hlt : (combineParts p w).length < (combineTiles w).length :=
    List.length_filterMap_lt_length_iff_exists.mpr
      ⟨_, List.mem_map_of_mem (List.mem_range.mpr hi), by rw [h]; rfl⟩
  have hk : (combineTiles w).length = bits w 14 8 + 1 := by simp [combineTiles]
  omega

variable {g : Nat → InFl} (hg : ∀ i < bits w 14 8 + 1, waitingCombine (tile p (bits w 21 15 + i)) (combineKey w) = some (g i))
include hg

/-- With the combine on every tile, the participants in the order of their tiles. -/
theorem combineParts_complete : combineParts p w = (List.range (bits w 14 8 + 1)).map (fun i => (bits w 21 15 + i, g i)) := by
  rw [combineParts, combineTiles, List.filterMap_map, List.filterMap_eq_map_iff_forall_eq_some]
  intro i hi
  rw [Function.comp, hg i (List.mem_range.mp hi), Option.map_some]

theorem lastIssue_complete {last : Nat} (hle : ∀ i < bits w 14 8 + 1, (g i).issue ≤ last) (hex : ∃ i < bits w 14 8 + 1, (g i).issue = last) :
    lastIssue (combineParts p w) = last := by
  have hmax : ((List.range (bits w 14 8 + 1)).map (fun i => (g i).issue)).max? = some last := by
    obtain ⟨j, hj, hlast⟩ := hex
    exact List.max?_eq_some_iff.mpr ⟨List.mem_map.mpr ⟨j, List.mem_range.mpr hj, hlast⟩,
      List.forall_mem_map.mpr fun i hi => hle i (List.mem_range.mp hi)⟩
  rw [lastIssue, combineParts_complete hg, List.foldl_map, ← List.foldl_map (g := max), List.foldl_max, hmax]
  exact Nat.zero_max last

/-- Each participant's tile holds its record, changed by its own tile's change. -/
theorem record_mem_modParts (r : Nat → InFl → InFl) {i : Nat} (hi : i < bits w 14 8 + 1) :
    r (bits w 21 15 + i) (g i) ∈ (tile (modParts p (combineParts p w) r) (bits w 21 15 + i)).infl := by
  have hpair : (combineParts p w).Pairwise (fun a b => a.1 ≠ b.1) := by
    rw [combineParts_complete hg, List.pairwise_map]
    exact List.nodup_range.imp fun hne h => hne (Nat.add_left_cancel h)
  have hmem : (bits w 21 15 + i, g i) ∈ combineParts p w := by
    rw [combineParts_complete hg]
    exact List.mem_map_of_mem (List.mem_range.mpr hi)
  rw [infl_modParts r p hpair _ hmem]
  exact List.mem_map.mpr ⟨g i, List.mem_of_find?_eq_some (hg i hi), if_pos rfl⟩

end

/-- The command tries to begin every combine of its tile that has not begun. -/
theorem exec_combineStart (t : Fin 128) (s : State) : exec (.combineStart t) s = .next (Safety.withPkg s
    (((tile s.pkg t).infl.filter unstartedCombine).foldl (fun q f => startCombine s.clk t q f) s.pkg)) := rfl

/-- Settles O45: the tile's one unstarted combine begins as `startCombine_of_complete` says, and not while a participant is missing. -/
theorem combineStarts : Obligations.CombineStarts := by
  intro s t f
  refine ⟨exec_combineStart t s, fun hone => ?_⟩
  have hexec : exec (.combineStart t) s = .next (Safety.withPkg s (startCombine s.clk t s.pkg f)) := by
    rw [exec_combineStart, hone]
    rfl
  refine ⟨fun hfirst hbad hce g last hparts hlast hnow => ?_, fun ⟨i, hi, hnone⟩ => ?_⟩
  · rw [← hfirst] at hparts
    have hg := fun i hi => (hparts i hi).1
    have hissue := lastIssue_complete hg (fun i hi => (hparts i hi).2.2) hlast
    have hlen : (combineParts s.pkg f.word.toNat).length = bits f.word.toNat 14 8 + 1 := by
      rw [combineParts_complete hg, List.length_map, List.length_range]
    have hlaunch : ∀ e ∈ combineParts s.pkg f.word.toNat, (tile s.pkg e.1).launch = (tile s.pkg t).launch := by
      rw [combineParts_complete hg, List.forall_mem_map]
      exact fun i hi => by rw [← hfirst]; exact (hparts i (List.mem_range.mp hi)).2.1
    rw [startCombine_of_complete hfirst hlen hlaunch (by rw [hissue]; exact hnow) hbad hce, hissue] at hexec
    refine ⟨_, hexec, modParts_mem _ _ _, modParts_regs _ _ _, fun i hi => ?_⟩
    rw [← hfirst]
    exact ⟨_, record_mem_modParts hg _ hi, rfl, rfl, rfl, fun hpos => if_neg (by omega), fun hzero => if_pos (by omega)⟩
  · rw [hexec, startCombine_of_missing s.clk t (combineParts_missing hi hnone)]

end Sys2Proof.Machine
end

section
/-! PROOFS. What the shared operations on the engines' jobs change (R152, R154 to R157); the batched jobs of the solver engines
(R160 to R165): O59. -/

namespace Sys2Proof.Machine

/-! Jobs by their numbers -/

theorem id_of_findJob {p : Pkg} {n : Nat} {j : Job} (h : findJob p n = some j) : j.id = n :=
  beq_iff_eq.mp (List.find?_some (p := fun k : Job => k.id == n) h)

/-- A job that is found is found again, changed, after its change. -/
theorem findJob_modJob {p : Pkg} {n : Nat} {j : Job} {f : Job → Job} (hf : ∀ k, (f k).id = k.id) (h : findJob p n = some j) :
    findJob (modJob p n f) n = some (f j) := by
  have hp : ((fun k : Job => k.id == n) ∘ fun k => if k.id = n then f k else k) = fun k => k.id == n := by
    funext k
    simp only [Function.comp]
    split
    · rw [hf]
    · rfl
  have hj : j.id = n := id_of_findJob h
  unfold findJob at h
  rw [findJob, modJob, List.find?_map, hp, h, Option.map_some, if_pos hj]

/-- After the change of a number every job of that number has been changed. -/
theorem eq_of_mem_modJob {p : Pkg} {n : Nat} {f : Job → Job} {k : Job} (hk : k ∈ (modJob p n f).jobs) (hid : k.id = n) :
    ∃ y ∈ p.jobs, y.id = n ∧ k = f y := by
  obtain ⟨y, hy, rfl⟩ := List.mem_map.mp hk
  by_cases h : y.id = n
  · exact ⟨y, hy, h, if_pos h⟩
  · rw [if_neg h] at hid
    exact absurd hid h

/-- The jobs of other numbers stay. -/
theorem mem_of_mem_modJob {p : Pkg} {n : Nat} {f : Job → Job} {k : Job} (hf : ∀ y, (f y).id = y.id) (hk : k ∈ (modJob p n f).jobs)
    (hid : k.id ≠ n) : k ∈ p.jobs := by
  obtain ⟨y, hy, rfl⟩ := List.mem_map.mp hk
  by_cases h : y.id = n
  · rw [if_pos h, hf] at hid
    exact absurd h hid
  · rw [if_neg h]
    exact hy

/-- Two changes of one number are one. -/
theorem modJob_modJob (p : Pkg) (n : Nat) {f : Job → Job} (g : Job → Job) (hf : ∀ k, (f k).id = k.id) :
    modJob (modJob p n f) n g = modJob p n (fun k => g (f k)) := by
  unfold modJob
  rw [List.map_map]
  congr 2
  funext k
  simp only [Function.comp]
  by_cases h : k.id = n
  · rw [if_pos h, if_pos h, if_pos (by rw [hf, h])]
  · rw [if_neg h, if_neg h, if_neg h]

theorem findJob_congr {p q : Pkg} (n : Nat) (h : p.jobs = q.jobs) : findJob p n = findJob q n := by rw [findJob, findJob, h]

/-- The cycle in which a job starts follows the jobs and the grade alone. -/
theorem beginCycle_congr {p q : Pkg} (j : Job) (hc : p.cfg = q.cfg) (hj : p.jobs = q.jobs) : beginCycle p j = beginCycle q j := by
  unfold beginCycle cycleAt tickUnits
  rw [hc, hj]

/-! What the start of a job may change -/

/-- From p to q only the regulator queues may differ. -/
def QueuesOnly (p q : Pkg) : Prop := ∃ qs, q = { p with queues := qs }

theorem QueuesOnly.refl (p : Pkg) : QueuesOnly p p := ⟨_, rfl⟩

theorem QueuesOnly.trans {p q r : Pkg} (h : QueuesOnly p q) (h' : QueuesOnly q r) : QueuesOnly p r := by
  obtain ⟨_, rfl⟩ := h
  obtain ⟨_, rfl⟩ := h'
  exact ⟨_, rfl⟩

theorem QueuesOnly.foldl {α : Type} {f : Pkg → α → Pkg} (h : ∀ p a, QueuesOnly p (f p a)) (l : List α) (p : Pkg) : QueuesOnly p (l.foldl f p) := by
  induction l generalizing p with
  | nil => exact .refl p
  | cons a l ih => exact (h p a).trans (ih _)

/-- From p to q only the regulator queues, registers of the units (which lie above the others) and the jobs may differ. -/
def EngineOnly (p q : Pkg) : Prop := (∃ qs r js, q = { p with queues := qs, regs := r, jobs := js }) ∧ ∀ o < 0x1000000, rget q o = rget p o

theorem QueuesOnly.engineOnly {p q : Pkg} (h : QueuesOnly p q) : EngineOnly p q := by
  obtain ⟨_, rfl⟩ := h
  exact ⟨⟨_, _, _, rfl⟩, fun _ _ => rfl⟩

namespace EngineOnly

variable {p q r : Pkg}

theorem refl (p : Pkg) : EngineOnly p p := (QueuesOnly.refl p).engineOnly

theorem trans (h : EngineOnly p q) (h' : EngineOnly q r) : EngineOnly p r := by
  obtain ⟨⟨_, _, _, rfl⟩, hr⟩ := h
  obtain ⟨⟨_, _, _, rfl⟩, hr'⟩ := h'
  exact ⟨⟨_, _, _, rfl⟩, fun o ho => (hr' o ho).trans (hr o ho)⟩

theorem cfg (h : EngineOnly p q) : q.cfg = p.cfg := by obtain ⟨⟨_, _, _, rfl⟩, -⟩ := h; rfl
theorem fv (h : EngineOnly p q) : q.fv = p.fv := by obtain ⟨⟨_, _, _, rfl⟩, -⟩ := h; rfl
theorem mem (h : EngineOnly p q) : q.mem = p.mem := by obtain ⟨⟨_, _, _, rfl⟩, -⟩ := h; rfl
theorem badLines (h : EngineOnly p q) : q.badLines = p.badLines := by obtain ⟨⟨_, _, _, rfl⟩, -⟩ := h; rfl
theorem ceLines (h : EngineOnly p q) : q.ceLines = p.ceLines := by obtain ⟨⟨_, _, _, rfl⟩, -⟩ := h; rfl
theorem punits (h : EngineOnly p q) : q.punits = p.punits := by obtain ⟨⟨_, _, _, rfl⟩, -⟩ := h; rfl
theorem tiles (h : EngineOnly p q) : q.tiles = p.tiles := by obtain ⟨⟨_, _, _, rfl⟩, -⟩ := h; rfl
theorem jobCycle (h : EngineOnly p q) (c : Clock) (j : Job) : jobCycle q c j = jobCycle p c j := by
  obtain ⟨⟨_, _, _, rfl⟩, -⟩ := h; rfl

end EngineOnly

theorem engineOnly_modJob (p : Pkg) (n : Nat) (f : Job → Job) : EngineOnly p (modJob p n f) := ⟨⟨_, _, _, rfl⟩, fun _ _ => rfl⟩

/-- HBM traffic of a job enters the queues of partition 0 alone (R152). -/
theorem chargeJob_eq (p : Pkg) (j : Job) (wr : Bool) (rs : List (Nat × Nat)) : ∃ qs, chargeJob p j wr rs = { p with queues := qs } :=
  enqueueAll_eq p 0 _

theorem queuesOnly_chargeJob (p : Pkg) (j : Job) (wr : Bool) (rs : List (Nat × Nat)) : QueuesOnly p (chargeJob p j wr rs) := chargeJob_eq p j wr rs

theorem QueuesOnly.jobs {p q : Pkg} (h : QueuesOnly p q) : q.jobs = p.jobs := by obtain ⟨_, rfl⟩ := h; rfl

/-- The registers of engines lie above those of the package. -/
theorem jobReg_above (p : Pkg) (j : Job) : 0x1000000 ≤ jobReg p j := by
  unfold jobReg uReg sReg rUe rSlv
  split <;> omega

/-- A job that runs from a cycle on. -/
def Job.begun (b : Nat) (k : Job) : Job := { k with running := true, began := b }

/-- The engine's register tells of the job that it takes, and the job runs. -/
theorem takeJob_eq (p : Pkg) (j : Job) :
    ∃ v, takeJob p j = modJob (rset p (jobReg p j + 4) v) j.id (Job.begun (beginCycle p j)) := by
  unfold takeJob
  cases j.ue
  · exact ⟨_, rfl⟩
  · exact ⟨_, rfl⟩

theorem takeJob_jobs (p : Pkg) (j : Job) : (takeJob p j).jobs = (modJob p j.id (Job.begun (beginCycle p j))).jobs := by
  obtain ⟨_, h⟩ := takeJob_eq p j
  rw [h]
  rfl

theorem engineOnly_takeJob (p : Pkg) (j : Job) : EngineOnly p (takeJob p j) := by
  obtain ⟨v, h⟩ := takeJob_eq p j
  have hj := jobReg_above p j
  rw [h]
  exact EngineOnly.trans ⟨⟨_, _, _, rfl⟩, fun o ho => rget_rset_ne p v (by omega)⟩ (engineOnly_modJob _ _ _)

theorem findJob_takeJob {p : Pkg} {n : Nat} {j : Job} (h : findJob p n = some j) :
    findJob (takeJob p j) n = some (j.begun (beginCycle p j)) := by
  rw [findJob_congr n (takeJob_jobs p j), id_of_findJob h]
  exact findJob_modJob (fun _ => rfl) h

/-! The end of a job -/

/-- A job that is over. -/
def Job.over (k : Job) : Job := { k with closed := true, running := false, writes := [] }

/-- What the instruction of a job that is over holds. -/
def closedFl (ok : Bool) (fl : Flags) (f : InFl) : InFl :=
  { f with fin := ok && !f.failed, failed := f.failed || !ok, flags := f.flags ||| fl }

section
variable (p : Pkg) (j : Job) (ok : Bool) (fl : Flags)

@[simp] theorem closeJob_mem : (closeJob p j ok fl).mem = p.mem := rfl
@[simp] theorem closeJob_regs : (closeJob p j ok fl).regs = p.regs := rfl
@[simp] theorem closeJob_punits : (closeJob p j ok fl).punits = p.punits := rfl

theorem closeJob_tiles : (closeJob p j ok fl).tiles = (modInfl p j.tile j.seq (closedFl ok fl)).tiles := rfl

theorem closeJob_jobs : (closeJob p j ok fl).jobs = (modJob p j.id Job.over).jobs := rfl

/-- A closed job does not run. -/
theorem closed_of_mem_closeJob {k : Job} (hk : k ∈ (closeJob p j ok fl).jobs) (hid : k.id = j.id) :
    k.closed = true ∧ k.running = false := by
  obtain ⟨y, -, -, rfl⟩ := eq_of_mem_modJob hk hid
  exact ⟨rfl, rfl⟩

end

/-! A job that ends in a plan fault on its tile (R154, R157, R47) -/

@[simp] theorem planFault_jobs (p : Pkg) (c : Clock) (t cause q slot detail : Nat) : (planFault p c t cause q slot detail).jobs = p.jobs := by
  obtain ⟨y, h⟩ := faulted_eq p c t cause q slot
  rw [planFault_eq, (outward_logEntry _ _ _ _ _ _ _).jobs, h]
  rfl

/-- From p to u the job's tile has stopped with the cause on its SY queue, and every job of its number is closed. -/
def StoppedBy (p u : Pkg) (j : Job) (cause : Nat) : Prop :=
  (tile u j.tile).stopped = true ∧ rget u (tReg p j.tile + 8) = cause + 3 * 256 ∧
    ∀ k ∈ u.jobs, k.id = j.id → k.closed = true ∧ k.running = false

/-- The same as seen from another package with the same spare map, of a job with the same tile and number. -/
theorem StoppedBy.congr {p q u : Pkg} {j k : Job} {cause : Nat} (h : StoppedBy q u k cause) (hq : q.punits = p.punits)
    (ht : k.tile = j.tile) (hid : k.id = j.id) : StoppedBy p u j cause := by
  rw [StoppedBy, tReg_congr k.tile hq, ht, hid] at h
  exact h

/-- A job that is closed with a plan fault, after changes that leave the spare map. -/
theorem stoppedBy_closeJob {p q : Pkg} {j : Job} {cause : Nat} (c : Clock) (ok : Bool) (fl : Flags) (hq : q.punits = p.punits)
    (hc : cause < 256) : StoppedBy p (planFault (closeJob q j ok fl) c j.tile cause 3 0 0) j cause := by
  refine ⟨by rw [tile_planFault], ?_, fun k hk hid => ?_⟩
  · rw [tReg_congr (q := closeJob q j ok fl) j.tile hq.symm, rget_planFault_fault]
    omega
  · rw [planFault_jobs] at hk
    exact closed_of_mem_closeJob q j ok fl hk hid

theorem refuseJob_stops (p : Pkg) (c : Clock) (j : Job) {cause : Nat} (hc : cause < 256) : StoppedBy p (refuseJob p c j cause) j cause :=
  stoppedBy_closeJob c false 0#16 rfl hc

@[simp] theorem refuseJob_mem (p : Pkg) (c : Clock) (j : Job) (cause : Nat) : (refuseJob p c j cause).mem = p.mem := planFault_mem ..

@[simp] theorem countJob_punits (p : Pkg) (j : Job) (status : Nat) : (countJob p j status).punits = p.punits := rfl

@[simp] theorem failRecord_punits (p : Pkg) (j : Job) (mask jstat status : Nat) : (failRecord p j mask jstat status).punits = p.punits := by
  unfold failRecord
  split
  next a _ =>
    obtain ⟨_, _, h⟩ := storeBytes_eq { p with fv := p.fv + 1 } a _
    rw [h]
  next => rfl

/-- A running job's fault closes it, after a record and registers have told of it. -/
theorem jobFault_eq (p : Pkg) (c : Clock) (j : Job) (jstat cause : Nat) : ∃ q fl, q.punits = p.punits ∧ (j.ue = true → q = p) ∧
    jobFault p c j jstat cause = planFault (closeJob q j false fl) c j.tile cause 3 0 0 := by
  refine ⟨if j.ue then p else countJob (failRecord p j (launchMask p j.launch) jstat 0x20) j 0x20, if j.ue then 0#16 else j.flags, ?_,
    fun h => if_pos h, rfl⟩
  split
  · rfl
  · rw [countJob_punits, failRecord_punits]

theorem jobFault_stops (p : Pkg) (c : Clock) (j : Job) (jstat : Nat) {cause : Nat} (hc : cause < 256) :
    StoppedBy p (jobFault p c j jstat cause) j cause := by
  obtain ⟨q, fl, hq, -, h⟩ := jobFault_eq p c j jstat cause
  rw [h]
  exact stoppedBy_closeJob c false fl hq hc

/-! Batched jobs (R160 to R165) -/

/-- What a batch computes from its operands. -/
def batchOut (p : Pkg) (j : Job) : List BitW × Wk :=
  batchRun (jobRecord p j) ((jobRecord p j).ar p.cfg.radef) p.mem (slvAt (launchMask p j.launch) j.unit)

/-- What a batch that has begun holds: its end, its stores, its flags and the count of its replacements. -/
def batchHeld (r : JRec) (out : List BitW × Wk) (log st : List BitW) (x : Job) : Job :=
  { x with ends := x.began + r.duration, writes := [out.1 ++ log ++ st], flags := out.2.fl, piv := out.2.piv.length }

theorem batchHeld_id (r : JRec) (out : List BitW × Wk) (log st : List BitW) (x : Job) : (batchHeld r out log st x).id = x.id := rfl

theorem not_otherKind {r : JRec} {b : Bool} {kind : Nat} (hk : r.ok b = true → r.kind = kind) : (r.ok b && r.kind != kind) = false := by
  cases hok : r.ok b
  · rfl
  · simp [hk hok]

section
variable {s : State} {n kind : Nat} {j : Job}

/-- Each of the seven commands starts the batched jobs of its KIND. -/
theorem exec_batch {i : Instr} (h : (i, kind) ∈ [(Instr.jobLu n, 1), (.jobCholesky n, 2), (.jobLdlt n, 3), (.jobQr n, 4), (.jobTrsv n, 5),
    (.jobInverse n, 6), (.jobJacobi n, 7)]) (s : State) : exec i s = .next (Safety.withPkg s (startBatch s.pkg s.clk n kind)) := by
  simp only [List.mem_cons, Prod.mk.injEq, List.not_mem_nil, or_false] at h
  obtain ⟨rfl, rfl⟩ | ⟨rfl, rfl⟩ | ⟨rfl, rfl⟩ | ⟨rfl, rfl⟩ | ⟨rfl, rfl⟩ | ⟨rfl, rfl⟩ | ⟨rfl, rfl⟩ := h <;> rfl

variable (hs : Safety.Startable s n j false)
include hs

/-- A command for another KIND does nothing. -/
theorem startBatch_of_otherKind (hok : (jobRecord s.pkg j).ok (j.op == 0xB1) = true) (hk : (jobRecord s.pkg j).kind ≠ kind) :
    startBatch s.pkg s.clk n kind = s.pkg := by
  obtain ⟨hj, hue, hm⟩ := hs
  simp only [startBatch, hj, hue, hm, hok, bne_iff_ne.mpr hk, Bool.not_true, Bool.or_self, Bool.and_self, Bool.false_eq_true, if_false, if_true]

section
variable (hb : s.pkg.badLines = []) (hce : s.pkg.ceLines = []) (hk : (jobRecord s.pkg j).ok (j.op == 0xB1) = true → (jobRecord s.pkg j).kind = kind)
include hb hce hk

/-- What the checks at its start find ends a job there. -/
theorem startBatch_of_refused {cause : Nat} (h : startCheck s.pkg j (jobRecord s.pkg j) (launchMask s.pkg j.launch) = some cause) :
    startBatch s.pkg s.clk n kind = refuseJob s.pkg s.clk j cause := by
  have hkind := not_otherKind hk
  obtain ⟨hj, hue, hm⟩ := hs
  simp only [startBatch, hj, hue, hm, hkind, firstBad_of_noBad hb, noteCes_of_noCe hce, h, Bool.not_true, Bool.or_self, Bool.false_eq_true, if_false]

/-- A batch that its checks pass is computed whole; where it meets no pivot index at or above N, it holds what it will write. -/
theorem startBatch_of_checked (h : startCheck s.pkg j (jobRecord s.pkg j) (launchMask s.pkg j.launch) = none) :
    ∃ qs m log st, startBatch s.pkg s.clk n kind =
      if (batchOut s.pkg j).2.bad then
        jobFault { takeJob s.pkg j with queues := qs, mem := m, fv := s.pkg.fv + 1 } s.clk
          (j.begun (beginCycle s.pkg j)) (jobRecord s.pkg j).jstat 0x05
      else modJob { takeJob s.pkg j with queues := qs } n (batchHeld (jobRecord s.pkg j) (batchOut s.pkg j) log st) := by
  have hkind := not_otherKind hk
  obtain ⟨hj, hue, hm⟩ := hs
  have ht := engineOnly_takeJob s.pkg j
  have hb' : (takeJob s.pkg j).badLines = [] := ht.badLines.trans hb
  have hce' : (takeJob s.pkg j).ceLines = [] := ht.ceLines.trans hce
  obtain ⟨qs, hq⟩ := chargeJob_eq (takeJob s.pkg j) (j.begun (beginCycle s.pkg j)) false
    ((recordAt (takeJob s.pkg j) (j.begun (beginCycle s.pkg j)), 128) ::
      ((List.range (jobRecord s.pkg j).nb).flatMap (jobRecord s.pkg j).readSpans).map
        (fun e => (slvAt (launchMask s.pkg j.launch) j.unit e.1, e.2)))
  refine ⟨qs, ?m, ?log, ?st, ?goal⟩
  case goal =>
    unfold startBatch
    simp only [hj, hue, hm, hkind, firstBad_of_noBad hb, firstBad_of_noBad hb', noteCes_of_noCe hce, noteCes_of_noCe hce', h, findJob_takeJob hj, hq,
      ht.cfg, ht.mem, ht.fv, Option.getD_some, Bool.not_true, Bool.or_self, Bool.false_eq_true, if_false]
    rfl

end

end

/-- The checks at the start pass when the clock runs, the record stands and every operand lies within reach. -/
theorem startCheck_eq_none {p : Pkg} {j : Job} {r : JRec} {mask : Nat} (ha : engineAsleep p j = false) (hok : r.ok (j.op == 0xB1) = true)
    (hr : ∀ e ∈ r.allSpans, (slvMap mask j.unit e.1 e.2.1).isSome = true) : startCheck p j r mask = none := by
  have hr : r.allSpans.any (fun e => (slvMap mask j.unit e.1 e.2.1).isNone) = false := by
    rw [List.any_eq_false]
    exact fun e he => by rw [Option.isNone_eq_false_iff.mpr (hr e he)]; exact Bool.false_ne_true
  simp only [startCheck, ha, hok, hr, Bool.not_true, Bool.false_eq_true, if_false]

theorem startCheck_asleep {p : Pkg} {j : Job} (r : JRec) (mask : Nat) (ha : engineAsleep p j = true) : startCheck p j r mask = some 0x06 :=
  if_pos ha

theorem startCheck_badRecord {p : Pkg} {j : Job} {r : JRec} (mask : Nat) (ha : engineAsleep p j = false) (hok : r.ok (j.op == 0xB1) = false) :
    startCheck p j r mask = some 0x01 := by
  simp only [startCheck, ha, hok, Bool.not_false, Bool.false_eq_true, if_false, if_true]

theorem startCheck_outOfReach {p : Pkg} {j : Job} {r : JRec} {mask : Nat} (ha : engineAsleep p j = false) (hok : r.ok (j.op == 0xB1) = true)
    (hr : ∃ e ∈ r.allSpans, (slvMap mask j.unit e.1 e.2.1).isNone = true) : startCheck p j r mask = some 0x05 := by
  have hr : r.allSpans.any (fun e => (slvMap mask j.unit e.1 e.2.1).isNone) = true := List.any_eq_true.mpr hr
  simp only [startCheck, ha, hok, hr, Bool.not_true, Bool.false_eq_true, if_false, if_true]

/-- Settles O59: what the checks find refuses the job, and a job that they pass holds what its batch has computed. -/
theorem batchedJobsStart : Obligations.BatchedJobsStart := by
  intro s n kind i j hi hs hb hce
  have he := exec_batch hi s
  have refused {cause : Nat} (hk : (jobRecord s.pkg j).ok (j.op == 0xB1) = true → (jobRecord s.pkg j).kind = kind) (hc : cause < 256)
      (h : startCheck s.pkg j (jobRecord s.pkg j) (launchMask s.pkg j.launch) = some cause) :
      ∃ u, exec i s = .next u ∧ StoppedBy s.pkg u.pkg j cause := by
    rw [startBatch_of_refused hs hb hce hk h] at he
    exact ⟨_, he, refuseJob_stops s.pkg s.clk j hc⟩
  refine ⟨fun ha hok hk hr hgood => ?_, fun ha hk => ?_, fun ha hok => ?_, fun ha hok hk hr => ?_, fun ha hok hk hr hbad => ?_, fun hok hk => ?_⟩
  · obtain ⟨qs, m, log, st, h⟩ := startBatch_of_checked hs hb hce (fun _ => hk) (startCheck_eq_none ha hok hr)
    obtain ⟨hj, -, -⟩ := hs
    have ht := engineOnly_takeJob s.pkg j
    rw [h, if_neg (by rw [batchOut, hgood]; exact Bool.false_ne_true)] at he
    have hfind := findJob_modJob (p := { takeJob s.pkg j with queues := qs }) (f := batchHeld (jobRecord s.pkg j) (batchOut s.pkg j) log st)
      (batchHeld_id _ _ _ _) (findJob_takeJob hj)
    have hu : EngineOnly s.pkg (modJob { takeJob s.pkg j with queues := qs } n (batchHeld (jobRecord s.pkg j) (batchOut s.pkg j) log st)) :=
      ht.trans ((QueuesOnly.engineOnly ⟨qs, rfl⟩).trans (engineOnly_modJob _ _ _))
    refine ⟨_, he, hu.mem, hu.tiles, _, hfind, rfl, rfl, rfl, rfl, rfl, fun b hb => ?_⟩
    simp only [batchHeld, List.flatten_singleton, List.append_assoc]
    exact List.mem_append_left _ hb
  · exact refused hk (by decide) (startCheck_asleep _ _ ha)
  · exact refused (fun h => absurd (hok.symm.trans h) Bool.false_ne_true) (by decide) (startCheck_badRecord _ ha hok)
  · exact refused (fun _ => hk) (by decide) (startCheck_outOfReach ha hok hr)
  · obtain ⟨qs, m, log, st, h⟩ := startBatch_of_checked hs hb hce (fun _ => hk) (startCheck_eq_none ha hok hr)
    rw [h, if_pos (by rw [batchOut, hbad])] at he
    exact ⟨_, he, (jobFault_stops _ _ _ _ (by decide)).congr (engineOnly_takeJob s.pkg j).punits rfl rfl⟩
  · rw [startBatch_of_otherKind hs hok hk] at he
    exact he

end Sys2Proof.Machine
end

section
/-! PROOFS. The steps of sparse programs: when they run (R155, R172 to R174) and what they compute (R173 to R176): O60. -/

namespace Sys2Proof.Machine

/-! The step that a job is at -/

/-- What the step of a job works with. -/
def stepCx (p : Pkg) (j : Job) : StepCx :=
  let r := jobRecord p j
  let g := readProg p.mem ((launchSec p j.launch 4).getD (0, 0)).1 r.prog
  { job := j, r := r, ar := r.ar p.cfg.radef, mask := launchMask p j.launch, g := g, s := readStep p.mem g j.sparse.pc, mem := p.mem }

/-- A job runs a program, and its step holds the operation. -/
def AtStep (p : Pkg) (j : Job) (op : Nat) : Prop :=
  let x := stepCx p j
  (j.ue || !j.running || j.op != 0xB1 || j.sparse.ended || decide (x.g.nstep ≤ j.sparse.pc) || x.s.op != op) = false

theorem stepAt_eq_some {p : Pkg} {n op : Nat} {x : StepCx} :
    stepAt p n op = some x ↔ findJob p n = some x.job ∧ x = stepCx p x.job ∧ AtStep p x.job op := by
  unfold stepAt
  cases h : findJob p n with
  | none => simp
  | some j =>
    have hdef : stepAt p n op = if (j.ue || !j.running || j.op != 0xB1 || j.sparse.ended
        || decide ((stepCx p j).g.nstep ≤ j.sparse.pc) || (stepCx p j).s.op != op) = true then none else some (stepCx p j) := by
      rw [stepAt, h]
      rfl
    rw [stepAt, h] at hdef
    refine Eq.to_iff (congrArg (· = some x) hdef) |>.trans ?_
    rw [Option.ite_none_left_eq_some, Bool.not_eq_true, Option.some.injEq, Option.some.injEq]
    constructor
    · rintro ⟨hat, rfl⟩
      exact ⟨rfl, rfl, hat⟩
    · rintro ⟨rfl, hx, hat⟩
      exact ⟨hat, hx.symm⟩

section
variable {p : Pkg} {c : Clock} {n op : Nat} {x : StepCx}

theorem stepAt_none_of_stopped (h : ∀ k ∈ p.jobs, k.id = n → k.running = false) : stepAt p n op = none := by
  rw [Option.eq_none_iff_forall_ne_some]
  intro x hx
  obtain ⟨hj, -, hat⟩ := stepAt_eq_some.mp hx
  have hr := h x.job (List.mem_of_find?_eq_some hj) (id_of_findJob hj)
  simp [AtStep, hr] at hat

/-! The end of a step -/

theorem healLines_of_none (hb : p.badLines = []) (hce : p.ceLines = []) (st : List (Nat × Nat)) : healLines p st = p := by
  rw [healLines, hb, hce]
  rfl

theorem badPart_of_noBad (hb : p.badLines = []) (st : List (Nat × Nat)) : badPart p st = none := by
  rw [badPart, hb]
  rfl

/-- Without erroneous lines stores become visible and take their turn in partition 0. -/
theorem visible_eq (hb : p.badLines = []) (hce : p.ceLines = []) (j : Job) (ws : List BitW) :
    visible p j ws = (chargeJob { p with mem := applyWs p.mem ws } j true (storeRanges ws), none) := by
  simp only [visible, badPart_of_noBad hb, healLines_of_none hb hce]

theorem endStep_of_early {o : StepOut} {due : Nat} (h : jobCycle p c x.job < max due x.job.late ∨ owesHbm p (.job x.job.id) = true) :
    endStep p c x o due = p := by
  have h : (decide (jobCycle p c x.job < max due x.job.late) || owesHbm p (.job x.job.id)) = true := by simpa using h
  exact if_pos h

theorem endStep_of_over (hb : p.badLines = []) (hce : p.ceLines = []) {o : StepOut} {due : Nat} (h : max due x.job.late ≤ jobCycle p c x.job)
    (ho : owesHbm p (.job x.job.id) = false) : endStep p c x o due = Safety.stepDone p c x o due := by
  have h : (decide (jobCycle p c x.job < max due x.job.late) || owesHbm p (.job x.job.id)) = false := by
    rw [ho, Bool.or_false, decide_eq_false (Nat.not_lt.mpr h)]
  unfold endStep
  simp only [h, visible_eq hb hce, Bool.false_eq_true, if_false]
  rfl

/-! The start of a step -/

variable {dur : Nat} {spans : StepCx → List (Nat × Nat × Bool)} {act : StepCx → StepOut}

theorem startStep_of_sound (hb : p.badLines = []) (hce : p.ceLines = []) (hm : x.mem = p.mem)
    (hr : ∀ e ∈ spans x, (slvMap x.mask x.job.unit e.1 e.2.1).isSome = true)
    (hw : ∀ e ∈ (act x).sends, windowOk p e.2.daddr e.2.payload.length 1 clsPlan = true) :
    startStep p c x dur (spans x) act = Safety.stepBegun p x dur (spans x) (act x) := by
  have hx : { x with mem := p.mem } = x := by rw [← hm]
  have hr : (spans x).any (fun e => (slvMap x.mask x.job.unit e.1 e.2.1).isNone) = false := by
    rw [List.any_eq_false]
    exact fun e he => by rw [Option.isNone_eq_false_iff.mpr (hr e he)]; exact Bool.false_ne_true
  have hw : (act x).sends.any (fun e => !windowOk p e.2.daddr e.2.payload.length 1 clsPlan) = false := by
    rw [List.any_eq_false]
    exact fun e he => by rw [hw e he]; exact Bool.false_ne_true
  unfold startStep
  simp only [hr, firstBad_of_noBad hb, hx, hw, noteCes_of_noCe hce, Bool.false_eq_true, if_false]
  rfl

theorem startStep_of_outOfReach (hr : ∃ e ∈ spans x, (slvMap x.mask x.job.unit e.1 e.2.1).isNone = true) :
    startStep p c x dur (spans x) act = jobFault p c x.job x.r.jstat 0x05 :=
  if_pos (List.any_eq_true.mpr hr)

end

/-- A job whose step has begun. -/
def Job.staging (o : StepOut) (due : Nat) (k : Job) : Job := { k with staged := some (o, due) }

/-- What a step that has begun works with. -/
def StepCx.staging (x : StepCx) (o : StepOut) (due : Nat) : StepCx := { x with job := x.job.staging o due }

section
variable {p : Pkg} {c : Clock} {n op : Nat} {x : StepCx} (hx : stepAt p n op = some x)

/-- A step that has begun changes the regulator queues and its own job. -/
theorem stepBegun_eq (dur : Nat) (spans : List (Nat × Nat × Bool)) (o : StepOut) : ∃ qs,
    Safety.stepBegun p x dur spans o = modJob { p with queues := qs } x.job.id (Job.staging o (stepStart p x + dur)) := by
  obtain ⟨qs, h⟩ := chargeJob_eq p x.job false ((spans.filter (fun s => s.2.2)).map (fun s => (x.at_ s.1, s.2.1)))
  exact ⟨qs, by rw [Safety.stepBegun, h]; rfl⟩

theorem engineOnly_stepBegun (dur : Nat) (spans : List (Nat × Nat × Bool)) (o : StepOut) : EngineOnly p (Safety.stepBegun p x dur spans o) :=
  (queuesOnly_chargeJob p x.job false _).engineOnly.trans (engineOnly_modJob _ _ _)

include hx

theorem stepAt_stepBegun (dur : Nat) (spans : List (Nat × Nat × Bool)) (o : StepOut) :
    stepAt (Safety.stepBegun p x dur spans o) n op = some (x.staging o (stepStart p x + dur)) := by
  obtain ⟨hj, hcx, hat⟩ := stepAt_eq_some.mp hx
  obtain ⟨qs, h⟩ := stepBegun_eq (p := p) (x := x) dur spans o
  rw [h, id_of_findJob hj]
  refine stepAt_eq_some.mpr ⟨findJob_modJob (p := { p with queues := qs }) (fun _ => rfl) hj, ?_, hat⟩
  rw [hcx]
  rfl

theorem runStep_of_early {dur : StepCx → Nat} {spans : StepCx → List (Nat × Nat × Bool)} {act : StepCx → StepOut}
    (hn : x.job.staged = none) (h : jobCycle p c x.job < stepStart p x) : runStep p c n op dur spans act = p := by
  simp only [runStep, hx, hn, h, Option.isNone_none, decide_true, Bool.and_self, if_true]

/-- A step that has begun ends, if at all. -/
theorem runStep_of_staged {dur : StepCx → Nat} {spans : StepCx → List (Nat × Nat × Bool)} {act : StepCx → StepOut} {o : StepOut} {due : Nat}
    (hn : x.job.staged = some (o, due)) : runStep p c n op dur spans act = endStep p c x o due := by
  simp only [runStep, hx, hn, Option.isNone_some, Bool.false_and, Bool.false_eq_true, if_false]

variable {dur : StepCx → Nat} {spans : StepCx → List (Nat × Nat × Bool)} {act : StepCx → StepOut}
variable (hn : x.job.staged = none) (h : stepStart p x ≤ jobCycle p c x.job)
include hn h

/-- A step whose start has come begins, and ends at once if its time has passed. -/
theorem runStep_of_sound (hb : p.badLines = []) (hce : p.ceLines = [])
    (hr : ∀ e ∈ spans x, (slvMap x.mask x.job.unit e.1 e.2.1).isSome = true)
    (hw : ∀ e ∈ (act x).sends, windowOk p e.2.daddr e.2.payload.length 1 clsPlan = true) :
    runStep p c n op dur spans act = endStep (Safety.stepBegun p x (dur x) (spans x) (act x)) c
      (x.staging (act x) (stepStart p x + dur x)) (act x) (stepStart p x + dur x) := by
  obtain ⟨-, hcx, -⟩ := stepAt_eq_some.mp hx
  have hm : x.mem = p.mem := by rw [hcx]; rfl
  simp only [runStep, hx, hn, decide_eq_false (Nat.not_lt.mpr h), startStep_of_sound hb hce hm hr hw, stepAt_stepBegun hx, Option.isNone_none,
    Bool.true_and, Bool.false_eq_true, if_false, if_true]
  rfl

/-- A step with an operand out of reach is plan fault RANGE (R152). -/
theorem runStep_of_outOfReach (hr : ∃ e ∈ spans x, (slvMap x.mask x.job.unit e.1 e.2.1).isNone = true) :
    runStep p c n op dur spans act = jobFault p c x.job x.r.jstat 0x05 := by
  obtain ⟨hj, -, -⟩ := stepAt_eq_some.mp hx
  have hclosed : stepAt (jobFault p c x.job x.r.jstat 0x05) n op = none := by
    obtain ⟨-, -, hover⟩ := jobFault_stops p c x.job x.r.jstat (cause := 0x05) (by decide)
    exact stepAt_none_of_stopped fun k hk hid => (hover k hk (hid.trans (id_of_findJob hj).symm)).2
  simp only [runStep, hx, hn, decide_eq_false (Nat.not_lt.mpr h), startStep_of_outOfReach hr, hclosed, Option.isNone_none,
    Bool.true_and, Bool.false_eq_true, if_false, if_true]

end

/-- What the end of a step does is the same whether or not its job still tells that it has begun. -/
theorem stepDone_staging (p : Pkg) (c : Clock) (x : StepCx) (o : StepOut) (due : Nat) (o' : StepOut) (due' : Nat) :
    Safety.stepDone p c (x.staging o' due') o due = Safety.stepDone p c x o due := rfl

/-- A command whose meaning is a run of the step of its operation. -/
theorem stepRuns_of_exec {i : Instr} {n op : Nat} {dur : Pkg → StepCx → Nat} {spans : StepCx → List (Nat × Nat × Bool)} {act : StepCx → StepOut}
    (he : ∀ s x, stepAt s.pkg n op = some x → (op = 0x14 → x.job.sparse.waitSum = false) →
      exec i s = run s (fun c p => runStep p c n op (dur p) spans act)) : Safety.StepRuns i n op dur spans act := by
  intro s x hx hwait hb hce cyc due begun
  have he := he s x hx hwait
  rw [run_eq] at he
  obtain ⟨hj, -, -⟩ := stepAt_eq_some.mp hx
  have hid : x.job.id = n := id_of_findJob hj
  refine ⟨fun hn hs ⟨hr, hw⟩ => ?_, fun o d hn hd ho => ?_, fun o d hn hd => ?_, fun hn hs => ?_, fun hn hs hr => ?_⟩
  · rw [runStep_of_sound hx hn hs hb hce hr hw] at he
    have hbegun : EngineOnly s.pkg begun := engineOnly_stepBegun _ _ _
    have hcyc : jobCycle begun s.clk (x.staging (act x) due).job = cyc := hbegun.jobCycle _ _
    have hidle (h : cyc < max due x.job.late ∨ owesHbm begun (.job n) = true) : exec i s = .next (Safety.withPkg s begun) := by
      rw [← hid, ← hcyc] at h
      rw [endStep_of_early h] at he
      exact he
    refine ⟨fun h => hidle (.inl h), fun h => hidle (.inr h), fun hd ho => ?_⟩
    rw [← hid] at ho
    rw [← hcyc] at hd
    rw [endStep_of_over (x := x.staging (act x) due) (hbegun.badLines.trans hb) (hbegun.ceLines.trans hce) hd ho, stepDone_staging] at he
    exact he
  · rw [runStep_of_staged hx hn, endStep_of_over hb hce hd (by rw [hid]; exact ho)] at he
    exact he
  · rw [runStep_of_staged hx hn, endStep_of_early (.inl hd)] at he
    exact he
  · rw [runStep_of_early hx hn hs] at he
    exact he
  · rw [runStep_of_outOfReach hx hn hs hr] at he
    exact he

/-! Stores of vectors (R173) -/

/-- Element i of the vector at v with a value, as a store. -/
def StepCx.element (x : StepCx) (v i : Nat) (c : W64) : BitW :=
  { addr := 8 * (x.at_ (x.vec v).addr + x.r.eb * i), w := 8 * x.r.eb, v := c.toNat % 2 ^ (8 * x.r.eb) }

/-- A step that leaves element-wise results stores each within its vector. -/
theorem element_mem_outR {x : StepCx} {v i : Nat} {l : List R} {r : R} (h : l[i]? = some r) (hi : i < (x.vec v).len) :
    x.element v i r.1 ∈ (outR x v l).ws := by
  refine List.mem_map.mpr ⟨(r.1, i), List.mk_mem_zipIdx_iff_getElem?.mpr ?_, rfl⟩
  rw [List.getElem?_take, if_pos hi, List.getElem?_map, h]
  rfl

theorem length_elems (x : StepCx) (v : Nat) : (x.elems v).length = (x.vec v).len := by
  simp only [StepCx.elems, List.length_map, List.length_range]

theorem getElem?_elems {x : StepCx} {v i : Nat} (h : i < (x.elems v).length) : (x.elems v)[i]? = some ((x.elems v).getD i 0#64) := by
  rw [List.getD_eq_getElem _ _ h, List.getElem?_eq_getElem h]

section
variable {x : StepCx} (hm : x.ar.mode = 0) {i : Nat} (h0 : i < (x.elems x.s.v0).length) (h1 : i < (x.elems x.s.v1).length)
include hm h0 h1

/-- AXPY: with FN 1 the product is subtracted. -/
theorem element_mem_axpyOut : x.element x.s.v1 i
    (if x.s.fn = 1 then x.ar.nma 0 (x.slot x.s.sa) ((x.elems x.s.v0).getD i 0#64) ((x.elems x.s.v1).getD i 0#64)
      else x.ar.fma 0 (x.slot x.s.sa) ((x.elems x.s.v0).getD i 0#64) ((x.elems x.s.v1).getD i 0#64)).1 ∈ (axpyOut x).ws := by
  refine element_mem_outR ?_ (length_elems x _ ▸ h1)
  rw [List.getElem?_zipWith, getElem?_elems h0, getElem?_elems h1]
  simp only [hm, if_true]

theorem element_mem_xpayOut : x.element x.s.v1 i
    (x.ar.fma 0 (x.slot x.s.sa) ((x.elems x.s.v1).getD i 0#64) ((x.elems x.s.v0).getD i 0#64)).1 ∈ (xpayOut x).ws := by
  refine element_mem_outR ?_ (length_elems x _ ▸ h1)
  rw [List.getElem?_zipWith, getElem?_elems h0, getElem?_elems h1]
  simp only [hm, if_true]

theorem element_mem_copyOut (hf : x.s.fn ≠ 1) : x.element x.s.v1 i ((x.elems x.s.v0).getD i 0#64) ∈ (copyOut x).ws := by
  rw [copyOut, if_neg hf]
  refine element_mem_outR (r := ((x.elems x.s.v0).getD i 0#64, 0#16)) ?_ (length_elems x _ ▸ h1)
  rw [List.getElem?_map, getElem?_elems h0]
  simp only [hm, if_true, Option.map_some]

omit h0

/-- COPY with FN 1 fills. -/
theorem element_mem_copyOut_fill (hf : x.s.fn = 1) : x.element x.s.v1 i (x.slot x.s.sa) ∈ (copyOut x).ws := by
  rw [length_elems] at h1
  rw [copyOut, if_pos hf]
  refine element_mem_outR (r := (x.slot x.s.sa, 0#16)) ?_ h1
  simp only [hm, if_true, List.getElem?_replicate_of_lt h1]

end

/-! DOT and SCAL (R173, R175) -/

theorem dotOut_local {x : StepCx} (h : x.s.arg0 % 65536 = 0xFFFF) :
    dotOut x = { sp := setSlot x.next x.s.sa (dotLocal x).1, fl := (dotLocal x).2 } := by
  simp only [dotOut, dotGroup, h, if_true]

theorem dotOut_group {x : StepCx} (h : x.s.arg0 % 65536 ≠ 0xFFFF) :
    (dotOut x).sp.waitSum = true ∧ (dotOut x).sp.loc = (dotLocal x).1 ∧ (dotOut x).sp.pc = x.job.sparse.pc := by
  simp only [dotOut, dotGroup, h, if_false, and_self]

theorem scalOut_slot (x : StepCx) : sget (scalOut x).sp.slots x.s.sc 0#64 = (scalOp x).1 := sget_sset_self _ _ _ _

theorem scalOut_other (x : StepCx) {j : Nat} (h : j ≠ x.s.sc) : sget (scalOut x).sp.slots j 0#64 = x.slot j := sget_sset_ne _ _ _ h

/-- SCAL's operations in binary64, by FN. -/
theorem scalOp_binary64 {x : StepCx} (hm : x.ar.mode = 0) : scalOp x =
    (let a := x.slot x.s.sa
     let b := x.slot x.s.sb
     match x.s.fn with
     | 0 => fAdd .b64 x.ar.rm a b
     | 1 => fSub .b64 x.ar.rm a b
     | 2 => fMul .b64 x.ar.rm a b
     | 3 => fDiv .b64 x.ar.rm a b
     | 4 => fSqrt .b64 x.ar.rm a
     | _ => (a, 0#16)) := by
  unfold scalOp
  simp only [hm, if_true]
  match x.s.fn with
  | 0 | 1 | 2 | 3 | 4 => rfl
  | n + 5 => rfl

/-! Bytes and numbers (R4) -/

theorem natLe_leNat (bs : List Byte) : natLe bs.length (leNat bs) = bs := by
  induction bs with
  | nil => rfl
  | cons b r ih =>
    have hb : b.toNat < 256 := b.isLt
    have hd : (b.toNat + 256 * leNat r) / 256 = leNat r := by omega
    have hm : BitVec.ofNat 8 (b.toNat + 256 * leNat r) = b := by
      apply BitVec.eq_of_toNat_eq
      rw [BitVec.toNat_ofNat]
      omega
    rw [List.length_cons, leNat, natLe, hd, hm, ih]

theorem leNat_natLe (n v : Nat) : leNat (natLe n v) = v % 256 ^ n := by
  induction n generalizing v with
  | zero => simp [natLe, leNat, Nat.mod_one]
  | succ n ih =>
    have hb : (BitVec.ofNat 8 v).toNat = v % 256 := BitVec.toNat_ofNat v 8
    rw [natLe, leNat, ih, hb, Nat.pow_succ', Nat.mod_mul]

/-- Bytes as one store are written. -/
theorem applyWs_bytesW (m : Mem) (a : Nat) (bs : List Byte) : applyWs m [bytesW a bs] = mwrite m a bs := by
  simp only [applyWs, List.foldl_cons, List.foldl_nil, applyW, bytesW]
  rw [if_pos ⟨Nat.mul_mod_right 8 a, Nat.mul_mod_right 8 _⟩, Nat.mul_div_cancel_left _ (by decide), Nat.mul_div_cancel_left _ (by decide),
    natLe_leNat]

theorem length_mread (m : Mem) (a n : Nat) : (mread m a n).length = n := by simp only [mread, List.length_map, List.length_range]

theorem getElem_mread (m : Mem) (a n : Nat) {i : Nat} (h : i < (mread m a n).length) : (mread m a n)[i] = mget m (a + i) := by
  simp only [mread, List.getElem_map, List.getElem_range]

/-- The first bytes of what was written are read back. -/
theorem mread_mwrite_append {m : Mem} (hm : memWf m = true) (a : Nat) (bs cs : List Byte) :
    mread (mwrite m a (bs ++ cs)) a bs.length = bs := by
  refine List.ext_getElem (length_mread _ _ _) fun i _ hi => ?_
  rw [getElem_mread, mget_mwrite_inside _ m a i hm (by rw [List.length_append]; omega), List.getElem_append_left hi]

/-- A field of a record in memory. -/
theorem field_mread (m : Mem) (a : Nat) {n off len : Nat} (h : off + len ≤ n) : field (mread m a n) off len = mnat m (a + off) len := by
  have : ((mread m a n).drop off).take len = mread m (a + off) len := by
    refine List.ext_getElem ?_ fun i _ _ => ?_
    · simp only [List.length_take, List.length_drop, length_mread]
      omega
    · simp only [List.getElem_take, List.getElem_drop, getElem_mread, Nat.add_assoc]
  rw [field, this, mnat]

theorem mnat_one (m : Mem) (a : Nat) : mnat m a 1 = (mget m a).toNat := by
  simp [mnat, mread, leNat]

/-! COMMIT (R176) -/

/-- The bytes that COMMIT writes at the head of the factor header: GEN plus one, CUR inverted, the others as they were. -/
def commitBytes (m : Mem) (h : Nat) : List Byte :=
  natLe 8 ((mnat m h 8 + 1) % 2 ^ 64) ++ (natLe 1 (Nat.xor (mget m (h + 8)).toNat 1) ++ (mread m h 16).drop 9)

theorem applyWs_commitOut (x : StepCx) :
    applyWs x.mem (commitOut x).ws = mwrite x.mem (x.at_ x.r.fact) (commitBytes x.mem (x.at_ x.r.fact)) := by
  have hgen := field_mread x.mem (x.at_ x.r.fact) (n := 16) (off := 0) (len := 8) (by decide)
  have hcur := field_mread x.mem (x.at_ x.r.fact) (n := 16) (off := 8) (len := 1) (by decide)
  rw [mnat_one] at hcur
  simp only [commitOut, applyWs_bytesW, hgen, hcur, commitBytes, List.append_assoc, Nat.add_zero]

section
variable {m : Mem} (hm : memWf m = true) (h : Nat)

theorem length_commitBytes : (commitBytes m h).length = 16 := by
  simp only [commitBytes, List.length_append, natLe_length, List.length_drop, length_mread]

include hm

theorem mnat_commit : mnat (mwrite m h (commitBytes m h)) h 8 = (mnat m h 8 + 1) % 2 ^ 64 := by
  have hlen : (natLe 8 ((mnat m h 8 + 1) % 2 ^ 64)).length = 8 := natLe_length 8 _
  have hr := mread_mwrite_append hm h (natLe 8 ((mnat m h 8 + 1) % 2 ^ 64)) (natLe 1 (Nat.xor (mget m (h + 8)).toNat 1) ++ (mread m h 16).drop 9)
  rw [hlen] at hr
  rw [mnat, commitBytes, hr, leNat_natLe]
  exact Nat.mod_mod _ _

/-- CUR is bit 0 of its byte. -/
theorem mget_commit_cur : (mget (mwrite m h (commitBytes m h)) (h + 8)).toNat % 2 = 1 - (mget m (h + 8)).toNat % 2 := by
  have hlt : (mget m (h + 8)).toNat < 256 := (mget m (h + 8)).isLt
  have hb : (commitBytes m h)[8]'(by rw [length_commitBytes]; decide) = BitVec.ofNat 8 (Nat.xor (mget m (h + 8)).toNat 1) := by
    simp only [commitBytes, natLe]
    rfl
  have hx : Nat.xor (mget m (h + 8)).toNat 1 % 2 = ((mget m (h + 8)).toNat + 1) % 2 := Nat.xor_mod_two_eq
  rw [mget_mwrite_inside _ m h 8 hm (by rw [length_commitBytes]; decide), hb, BitVec.toNat_ofNat, Nat.mod_mod_of_dvd _ (by decide), hx]
  omega

theorem mget_commit_other {a : Nat} (ha : a < h ∨ h + 9 ≤ a) : mget (mwrite m h (commitBytes m h)) a = mget m a := by
  by_cases hin : h + 9 ≤ a ∧ a < h + 16
  · obtain ⟨i, rfl⟩ := Nat.exists_eq_add_of_le hin.1
    have hi : 9 + i < (commitBytes m h).length := by rw [length_commitBytes]; omega
    rw [Nat.add_assoc, mget_mwrite_inside _ m h (9 + i) hm hi]
    simp only [commitBytes]
    rw [List.getElem_append_right (by rw [natLe_length]; omega), List.getElem_append_right (by simp only [natLe_length]; omega)]
    simp only [natLe_length, List.getElem_drop, getElem_mread]
    congr 2
    omega
  · exact mget_mwrite_outside _ _ _ _ (by rw [length_commitBytes]; omega)

end

/-! Loops (R174) -/

theorem loopOut_opens {x : StepCx} (h : 0 < x.s.arg0 % 2 ^ 32) : ∃ l, (loopOut x).sp.loops = l :: x.job.sparse.loops ∧ l.iter = 0 ∧
    l.limit = x.s.arg0 % 2 ^ 32 ∧ l.span = x.s.arg1 % 2 ^ 32 ∧ l.at_ = x.job.sparse.pc ∧ l.met = false ∧
    (loopOut x).sp.pc = x.job.sparse.pc + 1 := by
  unfold loopOut
  dsimp only
  rw [if_neg (Nat.pos_iff_ne_zero.mp h)]
  cases bit x.s.fn 0 <;> exact ⟨_, rfl, rfl, rfl, rfl, rfl, rfl, rfl⟩

theorem loopOut_skips {x : StepCx} (h : x.s.arg0 % 2 ^ 32 = 0) : (loopOut x).sp.loops = x.job.sparse.loops := by
  unfold loopOut
  dsimp only
  rw [if_pos h]
  cases bit x.s.fn 0 <;> rfl

section
variable {x : StepCx} {l : LoopSt} {r : List LoopSt} (hl : x.job.sparse.loops = l :: r)
include hl

theorem endloopOut_again (hm : l.met = false) (hi : l.iter + 1 < l.limit) : (endloopOut x).sp.pc = l.at_ + 1 ∧
    (endloopOut x).sp.loops = { l with iter := l.iter + 1 } :: r := by
  simp only [endloopOut, StepCx.next, hl, hm, hi, Bool.not_false, and_self, if_true]

theorem endloopOut_leaves (h : l.met = true ∨ l.limit ≤ l.iter + 1) : (endloopOut x).sp.pc = x.job.sparse.pc + 1 ∧
    (endloopOut x).sp.loops = r := by
  have h : ¬((!l.met) = true ∧ l.iter + 1 < l.limit) := by
    rintro ⟨hm, hi⟩
    obtain h | h := h
    · simp [h] at hm
    · omega
  simp only [endloopOut, StepCx.next, hl, h, if_false, and_true]
  split <;> rfl

theorem testOut_meets : (testOut x).sp.loops = { l with met := testMet x } :: r ∧ (testOut x).sp.pc = x.job.sparse.pc + 1 := by
  simp only [testOut, StepCx.next, hl, true_and]
  split <;> rfl

end

/-- While a DOT waits for its group's sum, its command is that wait. -/
theorem exec_stepDot_waiting {s : State} {n : Nat} {x : StepCx} (hx : stepAt s.pkg n 0x14 = some x) (hw : x.job.sparse.waitSum = true) :
    exec (.stepDot n) s = .next (Safety.withPkg s (awaitSum s.pkg s.clk n x)) := by
  rw [show exec (.stepDot n) s = execStepDot n s from rfl, execStepDot, run_eq]
  simp only [hx, hw, if_true]

/-- Settles O60: each command is a run of its step, and the lemmas above say what the steps leave. -/
theorem sparseSteps : Obligations.SparseSteps := by
  refine ⟨fun n => ?_, fun x => ?_⟩
  · refine ⟨?panel, ?assemble, ?commit, ?spmv, ?fsolve, ?axpy, ?xpay, ?dot, ?scal, ?exch, ?copy, ?givens, ?hsolve, ?loop, ?test, ?endloop, ?end_,
      fun s x hx hw => ⟨fun v hd hv => ?sum, fun hd => ?early⟩⟩
    case dot =>
      refine stepRuns_of_exec fun s x hx hw => ?_
      rw [show exec (.stepDot n) s = execStepDot n s from rfl, execStepDot, run_eq, run_eq]
      simp only [hx, hw rfl, Bool.false_eq_true, if_false]
    case sum =>
      rw [exec_stepDot_waiting hx hw, awaitSum]
      simp only [Nat.not_lt.mpr hd, hv, if_false]
    case early =>
      rw [exec_stepDot_waiting hx hw, awaitSum]
      simp only [hd, if_true]
    case panel | assemble | spmv | fsolve | exch | givens | hsolve => exact fun _ => stepRuns_of_exec fun _ _ _ _ => rfl
    case commit | axpy | xpay | scal | copy | loop | test | endloop | end_ => exact stepRuns_of_exec fun _ _ _ _ => rfl
  · refine ⟨fun hm i hi => ?_, fun h => ?_, fun h => dotOut_group h, fun hm => ?_, fun hm => ?_, fun h => loopOut_opens h,
      fun h => loopOut_skips h, fun l r hl => ⟨fun hmet hi => ?_, fun h => endloopOut_leaves hl h, ?_⟩, rfl⟩
    · obtain ⟨h0, h1⟩ := Nat.lt_min.mp hi
      have haxpy := element_mem_axpyOut hm h0 h1
      refine ⟨fun hf => ?_, fun hf => ?_, element_mem_xpayOut hm h0 h1, fun hf => element_mem_copyOut hm h0 h1 (by omega),
        fun hf => element_mem_copyOut_fill hm h1 hf⟩
      · rw [if_neg (by omega)] at haxpy
        exact haxpy
      · rw [if_pos hf] at haxpy
        exact haxpy
    · rw [dotOut_local h]
      exact ⟨sget_sset_self _ _ _ _, rfl⟩
    · have hop := congrArg Prod.fst (scalOp_binary64 hm)
      rw [← scalOut_slot] at hop
      refine ⟨fun hf => ?_, fun hf => ?_, fun hf => ?_, fun hf => ?_, fun hf => ?_, fun hf => ?_, fun j hj => scalOut_other x hj⟩ <;>
      · rw [hf] at hop
        exact hop
    · rw [applyWs_commitOut]
      exact ⟨mnat_commit hm _, mget_commit_cur hm _, fun a ha => mget_commit_other hm _ ha⟩
    · obtain ⟨hpc, hloops⟩ := endloopOut_again hl hmet hi
      exact ⟨hpc, by rw [hloops]; rfl⟩
    · obtain ⟨hloops, hpc⟩ := testOut_meets hl
      exact ⟨_, hloops, rfl, hpc⟩

end Sys2Proof.Machine
end

section
/-! PROOFS. Arrival of the engines' jobs (R154, R181), the end of a solver job (R155, R156, R178), the end of an update job (R183): for
O58. -/

namespace Sys2Proof.Machine

/-! Arrival (R154, R181) -/

theorem exec_dispatchArrive {n : Nat} {i : Instr} {ue : Bool} {cause : Nat}
    (h : (i, ue, cause) ∈ [(Instr.svDispatchArrive n, false, 0x06), (.upDispatchArrive n, true, 0x07)]) (s : State) :
    exec i s = .next (Safety.withPkg s (arriveJob s.pkg s.clk ue n)) ∧ cause = if ue then 0x07 else 0x06 := by
  simp only [List.mem_cons, Prod.mk.injEq, List.not_mem_nil, or_false] at h
  obtain ⟨rfl, rfl, rfl⟩ | ⟨rfl, rfl, rfl⟩ := h <;> exact ⟨rfl, rfl⟩

/-- A job names a start before it reaches its engine. -/
def LateFor (p : Pkg) (j : Job) : Prop := cycleAt p j.s < j.issued + 128

/-- A job names a start less than WC after that of an earlier dispatch to its engine. -/
def Crowded (p : Pkg) (j : Job) : Prop :=
  ∃ k ∈ p.jobs, k.ue = j.ue ∧ k.unit = j.unit ∧ k.launch = j.launch ∧
    (k.issued < j.issued ∨ (k.issued = j.issued ∧ k.tile < j.tile)) ∧ j.s < k.s + k.wc

section
variable {p : Pkg} {c : Clock} {n : Nat} {j : Job} (hj : findJob p n = some j)
include hj

theorem arriveJob_underWay (h : jobCycle p c j < j.issued + 128) : arriveJob p c j.ue n = p := by
  simp only [arriveJob, hj, h, decide_true, Bool.or_true, if_true]

variable (ha : j.arrived = false) (hc : j.closed = false) (h : j.issued + 128 ≤ jobCycle p c j)
include ha hc h

theorem arriveJob_there : arriveJob p c j.ue n =
    if (decide (cycleAt p j.s < j.issued + 128) || p.jobs.any (fun k => k.ue == j.ue && k.unit == j.unit && k.launch == j.launch && earlierJob k j
      && decide (j.s < k.s + k.wc))) = true then refuseJob p c j (schedCause j) else modJob p n (fun k => { k with arrived := true }) := by
  simp only [arriveJob, hj, ha, hc, Nat.not_lt.mpr h, bne_self_eq_false, decide_false, Bool.or_self, Bool.false_eq_true, if_false]

omit hj ha hc h in
theorem crowded_iff : (p.jobs.any fun k => k.ue == j.ue && k.unit == j.unit && k.launch == j.launch && earlierJob k j
    && decide (j.s < k.s + k.wc)) = true ↔ Crowded p j := by
  simp only [Crowded, earlierJob, List.any_eq_true, Bool.and_eq_true, Bool.or_eq_true, beq_iff_eq, decide_eq_true_eq, and_assoc]

theorem arriveJob_refused (hr : LateFor p j ∨ Crowded p j) : arriveJob p c j.ue n = refuseJob p c j (schedCause j) := by
  rw [arriveJob_there hj ha hc h, if_pos]
  rwa [Bool.or_eq_true, decide_eq_true_eq, crowded_iff]

theorem arriveJob_accepted (hl : ¬LateFor p j) (hr : ¬Crowded p j) :
    arriveJob p c j.ue n = modJob p n (fun k => { k with arrived := true }) := by
  rw [arriveJob_there hj ha hc h, if_neg]
  rw [Bool.or_eq_true, decide_eq_true_eq, crowded_iff]
  exact fun h => h.elim hl hr

/-- A dispatch that is refused on arrival is a schedule fault on its tile. -/
theorem arriveJob_refused_stops (hr : LateFor p j ∨ Crowded p j) : StoppedBy p (arriveJob p c j.ue n) j (schedCause j) := by
  rw [arriveJob_refused hj ha hc h hr]
  refine refuseJob_stops p c j ?_
  unfold schedCause
  split <;> decide

end

/-! The instruction of a job that is over (R156) -/

theorem findInfl_congr {p q : Pkg} (t n : Nat) (h : p.tiles = q.tiles) : findInfl p t n = findInfl q t n := by
  rw [findInfl, findInfl, tile_congr t h]

/-- What is found in flight after the records of one number on one tile have changed. -/
theorem findInfl_modInfl (p : Pkg) (t n : Nat) {g : InFl → InFl} (hg : ∀ f, (g f).seq = f.seq) (u m : Nat) :
    findInfl (modInfl p t n g) u m = (findInfl p u m).map (fun f => if u = t ∧ m = n then g f else f) := by
  by_cases hu : u = t
  · subst hu
    have hp : ((fun f : InFl => f.seq == m) ∘ fun f => if f.seq = n then g f else f) = fun f => f.seq == m := by
      funext f
      simp only [Function.comp]
      split
      · rw [hg]
      · rfl
    unfold findInfl
    rw [infl_modInfl, List.find?_map, hp]
    cases hf : (tile p u).infl.find? (fun f => f.seq == m) with
    | none => rfl
    | some f =>
      have hm : f.seq = m := beq_iff_eq.mp (List.find?_some (p := fun f : InFl => f.seq == m) hf)
      simp only [Option.map_some, hm, true_and]
  · simp only [hu, false_and, if_false, Option.map_id']
    rw [findInfl, findInfl, modInfl, tile_modTile_ne _ hu]

theorem findInfl_closeJob (p : Pkg) (j : Job) (ok : Bool) (fl : Flags) (t n : Nat) : findInfl (closeJob p j ok fl) t n =
    (findInfl p t n).map (fun f => if t = j.tile ∧ n = j.seq then closedFl ok fl f else f) := by
  rw [findInfl_congr t n (closeJob_tiles p j ok fl)]
  exact findInfl_modInfl p j.tile j.seq (g := closedFl ok fl) (fun _ => rfl) t n

/-! The end of a solver job (R155, R178) -/

section
variable (p : Pkg) (j : Job) (status : Nat)

theorem rget_countJob_last : rget (countJob p j status) (jobReg p j + 8) = (status + j.flags.toNat * 2 ^ 16) % 2 ^ 32 := by
  rw [countJob, rget_bump_ne _ (by omega), rget_rset_ne _ _ (by omega), rget_rset_self]

theorem rget_countJob_count : rget (countJob p j status) (jobReg p j + 0x10) = (rget p (jobReg p j + 0x10) + 1) % 2 ^ 32 := by
  rw [countJob, rget_bump_self, rget_rset_ne _ _ (by omega), rget_rset_ne _ _ (by omega)]

end

/-- A solver job's stores are visible and noted as outputs of its launch. -/
def slvShown (p : Pkg) (j : Job) (ws : List BitW) : Pkg :=
  let q := chargeJob { p with mem := applyWs p.mem ws } j true (storeRanges ws)
  noteOuts q (some j.launch) ((storeRanges ws).filter (fun e => e.1 != slvAt (launchMask q j.launch) j.unit (jobRecord p j).jstat))

theorem slvShown_eq (p : Pkg) (j : Job) (ws : List BitW) :
    ∃ qs ls, slvShown p j ws = { p with mem := applyWs p.mem ws, queues := qs, launches := ls } := by
  obtain ⟨qs, h⟩ := queuesOnly_chargeJob { p with mem := applyWs p.mem ws } j true (storeRanges ws)
  exact ⟨_, _, by rw [slvShown, h]; rfl⟩

/-- What a program's job tells of its convergence (R178, Table 7.9). -/
def convNoted (q : Pkg) (j : Job) (status : Nat) (iter : Option Nat) : Pkg :=
  let q := match iter with
    | some i => rset q (jobReg q j + 0x14) i
    | none => q
  if status = 2 then modLaunch q j.launch (fun y => { y with notConv := true }) else q

section
variable (q : Pkg) (j : Job) (status : Nat) (iter : Option Nat)

/-- Convergence is told in one register and in the launch. -/
theorem convNoted_eq : ∃ r ls, convNoted q j status iter = { q with regs := r, launches := ls } ∧
    ∀ o, o ≠ jobReg q j + 0x14 → rget { q with regs := r } o = rget q o := by
  unfold convNoted
  cases iter with
  | none =>
    by_cases h : status = 2
    · exact ⟨_, _, if_pos h, fun _ _ => rfl⟩
    · exact ⟨_, _, if_neg h, fun _ _ => rfl⟩
  | some i =>
    by_cases h : status = 2
    · exact ⟨_, _, if_pos h, fun _ ho => rget_rset_ne q i ho⟩
    · exact ⟨_, _, if_neg h, fun _ ho => rget_rset_ne q i ho⟩

end

/-- A solver job has counted with a status; its instruction still waits. -/
def slvCounted (p : Pkg) (j : Job) (status : Nat) (ws : List BitW) (iter : Option Nat) : Pkg :=
  convNoted (modJob (countJob (slvShown p j ws) j status) j.id (fun k => { k with ends := max j.ends j.late })) j status iter

theorem endSlv_eq {p : Pkg} (hb : p.badLines = []) (hce : p.ceLines = []) (c : Clock) (j : Job) (status : Nat) (ws : List BitW)
    (iter : Option Nat) : endSlv p c j status ws iter = closeJob (slvCounted p j status ws iter) j true j.flags := by
  rw [endSlv, visible_eq hb hce]
  rfl

section
variable (p : Pkg) (j : Job) (status : Nat) (ws : List BitW) (iter : Option Nat)

theorem slvCounted_eq : ∃ r qs ls js, slvCounted p j status ws iter =
      { p with mem := applyWs p.mem ws, queues := qs, regs := r, launches := ls, jobs := js } ∧
    ∀ o, o ≠ jobReg p j + 0x14 → rget (slvCounted p j status ws iter) o = rget (countJob p j status) o := by
  obtain ⟨qs, ls, hs⟩ := slvShown_eq p j ws
  obtain ⟨r, ls', hc, hr⟩ := convNoted_eq (modJob (countJob (slvShown p j ws) j status) j.id (fun k => { k with ends := max j.ends j.late }))
    j status iter
  rw [slvCounted, hc]
  rw [hs] at hr ⊢
  exact ⟨_, _, _, _, rfl, hr⟩

end

/-- All jobs of a number are of a kind. -/
def JobsAre (p : Pkg) (n : Nat) (Q : Job → Prop) : Prop := ∀ y ∈ p.jobs, y.id = n → Q y

namespace JobsAre

variable {p q : Pkg} {n m : Nat} {Q Q' : Job → Prop} {f : Job → Job}

theorem congr (h : JobsAre p n Q) (hj : q.jobs = p.jobs) : JobsAre q n Q := by rwa [JobsAre, hj]

/-- Changed jobs are of the kind to which the change takes them. -/
theorem modJob_self (h : JobsAre p n Q) (hf : ∀ y, Q y → Q' (f y)) : JobsAre (modJob p n f) n Q' := fun k hk hid => by
  obtain ⟨y, hy, hn, rfl⟩ := eq_of_mem_modJob hk hid
  exact hf y (h y hy hn)

/-- A change that keeps number and kind. -/
theorem modJob (h : JobsAre p m Q) (n : Nat) (hid : ∀ y, (f y).id = y.id) (hf : ∀ y, Q y → Q (f y)) : JobsAre (modJob p n f) m Q := by
  by_cases hn : m = n
  · subst hn
    exact h.modJob_self hf
  · exact fun k hk hk' => h k (mem_of_mem_modJob hid hk (hk' ▸ hn)) hk'

end JobsAre

theorem closeJob_badLines (p : Pkg) (j : Job) (ok : Bool) (fl : Flags) : (closeJob p j ok fl).badLines = p.badLines := rfl

theorem closeJob_ceLines (p : Pkg) (j : Job) (ok : Bool) (fl : Flags) : (closeJob p j ok fl).ceLines = p.ceLines := rfl

/-- A job that is closed. -/
def Job.Ended (y : Job) : Prop := y.closed = true ∧ y.running = false

/-- Jobs that have ended stay so as another one is closed. -/
theorem JobsAre.closeJob {p : Pkg} {n : Nat} (j : Job) (ok : Bool) (fl : Flags) (h : JobsAre p n Job.Ended) :
    JobsAre (closeJob p j ok fl) n Job.Ended :=
  (h.modJob (f := Job.over) j.id (fun _ => rfl) fun _ _ => ⟨rfl, rfl⟩).congr (closeJob_jobs p j ok fl)

/-- An instruction in flight has not failed. -/
def Unfailed (p : Pkg) (t n : Nat) : Prop := ∃ f, findInfl p t n = some f ∧ f.failed = false

/-- An instruction in flight has finished. -/
def Finished (p : Pkg) (t n : Nat) : Prop := ∃ f, findInfl p t n = some f ∧ f.failed = false ∧ f.fin = true

theorem Unfailed.congr {p q : Pkg} {t n : Nat} (h : Unfailed p t n) (ht : q.tiles = p.tiles) : Unfailed q t n := by
  rwa [Unfailed, findInfl_congr t n ht]

theorem Finished.congr {p q : Pkg} {t n : Nat} (h : Finished p t n) (ht : q.tiles = p.tiles) : Finished q t n := by
  rwa [Finished, findInfl_congr t n ht]

section
variable {p : Pkg} {t n : Nat} (j : Job) (fl : Flags)

theorem Unfailed.closeJob (h : Unfailed p t n) : Unfailed (closeJob p j true fl) t n := by
  obtain ⟨f, hf, hn⟩ := h
  refine ⟨_, by rw [findInfl_closeJob, hf, Option.map_some], ?_⟩
  split
  · exact (Bool.or_false _).trans hn
  · exact hn

theorem Finished.closeJob (h : Finished p t n) : Finished (closeJob p j true fl) t n := by
  obtain ⟨f, hf, hn, hfin⟩ := h
  refine ⟨_, by rw [findInfl_closeJob, hf, Option.map_some], ?_⟩
  split
  · exact ⟨(Bool.or_false _).trans hn, by simp only [closedFl, hn, Bool.not_false, Bool.and_self]⟩
  · exact ⟨hn, hfin⟩

theorem findInfl_closeJob_self (ok : Bool) {f : InFl} (hf : findInfl p j.tile j.seq = some f) :
    findInfl (Machine.closeJob p j ok fl) j.tile j.seq = some (closedFl ok fl f) := by
  rw [findInfl_closeJob, hf, Option.map_some, if_pos ⟨rfl, rfl⟩]

/-- The instruction of a job that is over finishes unless it has failed. -/
theorem Unfailed.closeJob_self (h : Unfailed p j.tile j.seq) : Finished (Machine.closeJob p j true fl) j.tile j.seq := by
  obtain ⟨f, hf, hn⟩ := h
  exact ⟨_, findInfl_closeJob_self j fl true hf, (Bool.or_false _).trans hn, by simp only [closedFl, hn, Bool.not_false, Bool.and_self]⟩

end

/-- From p to u a job is over, and its instruction has finished unless it had failed. -/
def JobEnded (p u : Pkg) (k : Job) : Prop := JobsAre u k.id Job.Ended ∧ (Unfailed p k.tile k.seq → Finished u k.tile k.seq)

/-- The instruction's part, said of what is found. -/
theorem JobEnded.ended {p u : Pkg} {k : Job} (h : JobEnded p u k) : (∀ y ∈ u.jobs, y.id = k.id → y.closed = true ∧ y.running = false) ∧
    ∀ f, findInfl p k.tile k.seq = some f → f.failed = false → ∃ g, findInfl u k.tile k.seq = some g ∧ g.fin = true := by
  refine ⟨h.1, fun f hf hn => ?_⟩
  obtain ⟨g, hg, -, hfin⟩ := h.2 ⟨f, hf, hn⟩
  exact ⟨g, hg, hfin⟩

theorem jobEnded_closeJob {p q : Pkg} (j : Job) (fl : Flags) (h : q.tiles = p.tiles) : JobEnded p (closeJob q j true fl) j :=
  ⟨fun _ hy hid => closed_of_mem_closeJob q j true fl hy hid, fun hu => (hu.congr h).closeJob_self j fl⟩

/-- From p to u a solver job has ended with a status: its engine has counted it, its instruction holds its flags. -/
def SlvEnded (p u : Pkg) (j : Job) (status : Nat) : Prop :=
  JobEnded p u j ∧ rget u (sReg p j.unit + 8) = status + j.flags.toNat * 2 ^ 16 ∧
    rget u (sReg p j.unit + 0x10) = (rget p (sReg p j.unit + 0x10) + 1) % 2 ^ 32 ∧
    ∀ f, findInfl p j.tile j.seq = some f → ∃ g, findInfl u j.tile j.seq = some g ∧ g.flags = f.flags ||| j.flags

theorem endSlv_ends {p : Pkg} (hb : p.badLines = []) (hce : p.ceLines = []) (c : Clock) {j : Job} {status : Nat} (ws : List BitW)
    (iter : Option Nat) (hue : j.ue = false) (hs : status < 2 ^ 16) :
    SlvEnded p (endSlv p c j status ws iter) j status ∧ (endSlv p c j status ws iter).mem = applyWs p.mem ws := by
  obtain ⟨_, _, _, _, h, hr⟩ := slvCounted_eq p j status ws iter
  have ht : (slvCounted p j status ws iter).tiles = p.tiles := by rw [h]
  have hm : (slvCounted p j status ws iter).mem = applyWs p.mem ws := by rw [h]
  clear h
  have hreg : sReg p j.unit = jobReg p j := by rw [jobReg, hue]; rfl
  have hfl : j.flags.toNat < 2 ^ 16 := j.flags.isLt
  rw [endSlv_eq hb hce]
  generalize slvCounted p j status ws iter = q at ht hm hr ⊢
  have hget (o : Nat) (ho : o ≠ jobReg p j + 0x14) : rget (closeJob q j true j.flags) o = rget (countJob p j status) o := hr o ho
  refine ⟨⟨jobEnded_closeJob j j.flags ht, ?_, ?_, fun f hf => ?_⟩, (closeJob_mem ..).trans hm⟩
  · rw [hreg, hget _ (by omega), rget_countJob_last]
    omega
  · rw [hreg, hget _ (by omega), rget_countJob_count]
  · exact ⟨_, findInfl_closeJob_self j j.flags true ((findInfl_congr j.tile j.seq ht).trans hf), rfl⟩

section
variable {p : Pkg} {c : Clock} {j : Job}

theorem jobOver_of_early (h : jobCycle p c j < max j.ends j.late) : jobOver p c j = false := by
  rw [jobOver, decide_eq_false (Nat.not_le.mpr h), Bool.false_and]

theorem jobOver_of_done (h : max j.ends j.late ≤ jobCycle p c j) (ho : owesHbm p (.job j.id) = false) : jobOver p c j = true := by
  rw [jobOver, decide_eq_true h, ho, Bool.not_false, Bool.and_self]

end

/-- The status with which a program's job ends (R178). -/
def convStatus (j : Job) : Nat := if j.sparse.convRun && !j.sparse.convMet then 2 else 0

theorem convStatus_lt (j : Job) : convStatus j < 2 ^ 16 := by
  unfold convStatus
  split <;> decide

/-- The pivot log and the status record of a program's job (R178). -/
def programStores (p : Pkg) (j : Job) : List BitW :=
  let r := jobRecord p j
  let at_ := slvAt (launchMask p j.launch) j.unit
  let q := j.sparse
  [bytesW (at_ r.log) (pivotLog j.piv q.piv), bytesW (at_ r.jstat)
    (statusRecord (convStatus j) (b2n q.nofactor + 2 * b2n q.breakdown) j.flags q.convIter q.resid (factGen p at_ r.fact) j.piv)]

/-- `SLV_JOB_END` as it acts on the package once the job is over. -/
def slvEnd (p : Pkg) (c : Clock) (j : Job) : Pkg :=
  if j.op = 0xB0 then endSlv p c j 0 j.writes.flatten none
  else if !j.sparse.ended then p
  else endSlv p c j (convStatus j) (programStores p j) (some j.sparse.convIter)

theorem exec_slvJobEnd_idle {s : State} {n : Nat} {j : Job} (hj : findJob s.pkg n = some j) (h : jobOver s.pkg s.clk j = false) :
    exec (.slvJobEnd n) s = .next s := by
  show execSlvJobEnd n s = .next s
  simp only [execSlvJobEnd, run, hj, h, Bool.not_false, Bool.or_true, if_true]

theorem exec_slvJobEnd {s : State} {n : Nat} {j : Job} (hj : findJob s.pkg n = some j) (hr : j.running = true) (hue : j.ue = false)
    (h : jobOver s.pkg s.clk j = true) : exec (.slvJobEnd n) s = .next (Safety.withPkg s (slvEnd s.pkg s.clk j)) := by
  show execSlvJobEnd n s = _
  simp only [execSlvJobEnd, run, hj, h, hr, hue, Bool.not_true, Bool.or_self, Bool.false_eq_true, if_false]
  rfl

/-! The end of an update job (R183, R188, R197) -/

theorem mget_applyWs_outside {a : Nat} : ∀ (ws : List BitW) (m : Mem),
    (∀ b ∈ ws, a < b.addr / 8 ∨ b.addr / 8 + (b.addr % 8 + b.w + 7) / 8 ≤ a) → mget (applyWs m ws) a = mget m a
  | [], _, _ => rfl
  | b :: ws, m, h => by
    obtain ⟨hb, h⟩ := List.forall_mem_cons.mp h
    exact (mget_applyWs_outside ws (applyW m b) h).trans (mget_applyW_outside m b a hb)

/-- From p to q only memory, the regulator queues and registers may differ. -/
def StoresOnly (p q : Pkg) : Prop := ∃ m qs r, q = { p with mem := m, queues := qs, regs := r }

namespace StoresOnly

variable {p q r : Pkg}

theorem refl (p : Pkg) : StoresOnly p p := ⟨_, _, _, rfl⟩

theorem trans (h : StoresOnly p q) (h' : StoresOnly q r) : StoresOnly p r := by
  obtain ⟨_, _, _, rfl⟩ := h
  obtain ⟨_, _, _, rfl⟩ := h'
  exact ⟨_, _, _, rfl⟩

theorem mem (p : Pkg) (m : Mem) : StoresOnly p { p with mem := m } := ⟨_, _, _, rfl⟩
theorem rset (p : Pkg) (o v : Nat) : StoresOnly p (rset p o v) := ⟨_, _, _, rfl⟩
theorem ceLines (h : StoresOnly p q) : q.ceLines = p.ceLines := by obtain ⟨_, _, _, rfl⟩ := h; rfl
theorem badLines (h : StoresOnly p q) : q.badLines = p.badLines := by obtain ⟨_, _, _, rfl⟩ := h; rfl
theorem tiles (h : StoresOnly p q) : q.tiles = p.tiles := by obtain ⟨_, _, _, rfl⟩ := h; rfl
theorem jobs (h : StoresOnly p q) : q.jobs = p.jobs := by obtain ⟨_, _, _, rfl⟩ := h; rfl

end StoresOnly

theorem QueuesOnly.storesOnly {p q : Pkg} (h : QueuesOnly p q) : StoresOnly p q := by obtain ⟨_, rfl⟩ := h; exact ⟨_, _, _, rfl⟩

theorem QueuesOnly.mem {p q : Pkg} (h : QueuesOnly p q) : q.mem = p.mem := by obtain ⟨_, rfl⟩ := h; rfl

theorem queuesOnly_chargeHeaders (p : Pkg) (j : Job) (wr : Bool) (as : List Nat) : QueuesOnly p (chargeHeaders p j wr as) := enqueueAll_eq p 0 _

/-- Without erroneous lines an update job's stores become visible and take their turn in partition 0. -/
theorem queuesOnly_ueVisible {p : Pkg} (hb : p.badLines = []) (hce : p.ceLines = []) (j : Job) (ws : List BitW) :
    QueuesOnly { p with mem := applyWs p.mem ws } (ueVisible p j ws) := by
  unfold ueVisible
  simp only [healLines_of_none hb hce]
  exact (queuesOnly_chargeJob _ _ _ _).trans (queuesOnly_chargeHeaders _ _ _ _)

/-- The count of the roots writes NOROOT and IDENTITY. -/
theorem countRoots_eq {p : Pkg} (hce : p.ceLines = []) (j : Job) (r : Recipe) : ∃ n k, n.length = 4 ∧ k.length = 1 ∧ ∃ q, QueuesOnly p q ∧
    QueuesOnly { q with mem := mwrite (mwrite q.mem (r.state + 56) n) (r.state + 14) k } (countRoots p j r) := by
  unfold countRoots
  simp only [noteCes_of_noCe hce]
  exact ⟨_, _, natLe_length _ _, natLe_length _ _, _, queuesOnly_chargeJob _ _ _ _, queuesOnly_chargeJob _ _ _ _⟩

/-- What the end of an update job shows before its registers tell of it. -/
def upShown (p : Pkg) (r : Recipe) (j : Job) : Pkg :=
  let p := ueVisible p j (endStores p r j).flatten
  let roots := j.op = 0 ∨ j.op = 3
  let p := if roots then countRoots p j r else p
  if roots ∨ j.unit = lowest r then rsetb p (uReg p (lowest r)) 4 (bit (mnat p.mem (r.state + 14) 1) 0) else p

/-- The registers of an update engine tell of a job that has ended (Tables 8.10 to 8.12). -/
def upCounted (p : Pkg) (j : Job) : Pkg :=
  let o := jobReg p j
  let p := setLast p j 0
  let p := rset p (o + 0xC) (rget p (o + 0xC) + b2n j.skip)
  let p := rset p (o + 0x10) (rget p (o + 0x10) + j.longs)
  let p := bump p (o + 0x14)
  rset p (o + 0x18) (rget p (o + 0x18) + j.kept)

theorem storesOnly_upCounted (p : Pkg) (j : Job) : StoresOnly p (upCounted p j) :=
  (StoresOnly.rset p _ _).trans ((StoresOnly.rset _ _ _).trans ((StoresOnly.rset _ _ _).trans ((StoresOnly.rset _ _ _).trans (.rset _ _ _))))

theorem upCounted_mem (p : Pkg) (j : Job) : (upCounted p j).mem = p.mem := by
  unfold upCounted setLast
  simp only [rset_mem, bump_mem]

section
variable {p : Pkg} (hb : p.badLines = []) (hce : p.ceLines = []) (r : Recipe) (j : Job)
include hb hce

theorem storesOnly_upShown : StoresOnly p (upShown p r j) := by
  have hv : StoresOnly p (ueVisible p j (endStores p r j).flatten) := (StoresOnly.mem p _).trans (queuesOnly_ueVisible hb hce j _).storesOnly
  have hr : StoresOnly p (if j.op = 0 ∨ j.op = 3 then countRoots (ueVisible p j (endStores p r j).flatten) j r
      else ueVisible p j (endStores p r j).flatten) := by
    split
    · obtain ⟨n, k, -, -, q, hq, h⟩ := countRoots_eq (hv.ceLines.trans hce) j r
      exact hv.trans (hq.storesOnly.trans ((StoresOnly.mem q _).trans h.storesOnly))
    · exact hv
  unfold upShown
  simp only
  split
  · exact hr.trans (StoresOnly.rset _ _ _)
  · exact hr

/-- A pass writes its stores. -/
theorem upShown_mem_of_pass (ho : ¬(j.op = 0 ∨ j.op = 3)) : (upShown p r j).mem = applyWs p.mem (endStores p r j).flatten := by
  unfold upShown
  simp only [if_neg ho]
  split
  · exact (queuesOnly_ueVisible hb hce j _).mem
  · exact (queuesOnly_ueVisible hb hce j _).mem

/-- INIT and ROOT write their stores and what the state record tells of the roots. -/
theorem mget_upShown {a : Nat}
    (ha : ∀ b ∈ (endStores p r j).flatten, a < b.addr / 8 ∨ b.addr / 8 + (b.addr % 8 + b.w + 7) / 8 ≤ a)
    (hs : a < r.state ∨ r.state + 64 ≤ a) : mget (upShown p r j).mem a = mget p.mem a := by
  have hv : (ueVisible p j (endStores p r j).flatten).mem = applyWs p.mem (endStores p r j).flatten := (queuesOnly_ueVisible hb hce j _).mem
  by_cases ho : j.op = 0 ∨ j.op = 3
  · have hv' : StoresOnly p (ueVisible p j (endStores p r j).flatten) := (StoresOnly.mem p _).trans (queuesOnly_ueVisible hb hce j _).storesOnly
    obtain ⟨n, k, hn, hk, q, hq, h⟩ := countRoots_eq (hv'.ceLines.trans hce) j r
    have hm : (upShown p r j).mem = (countRoots (ueVisible p j (endStores p r j).flatten) j r).mem := by
      unfold upShown
      simp only [if_pos ho, if_pos (Or.inl ho)]
      rfl
    rw [hm, h.mem, mget_mwrite_outside, mget_mwrite_outside, hq.mem, hv, mget_applyWs_outside _ _ ha]
    · omega
    · omega
  · rw [upShown_mem_of_pass hb hce r j ho, mget_applyWs_outside _ _ ha]

end

/-- What every step of a fold keeps, and what it does for its own element and keeps for the others. -/
theorem foldl_reaches {α β : Type} {f : β → α → β} {I : β → Prop} {P : β → α → Prop} {l : List α}
    (hI : ∀ q, I q → ∀ a ∈ l, I (f q a)) (hself : ∀ q, I q → ∀ a ∈ l, P (f q a) a)
    (hkeep : ∀ q, I q → ∀ a ∈ l, ∀ b, P q b → P (f q a) b) {p : β} (hp : I p) : I (l.foldl f p) ∧ ∀ a ∈ l, P (l.foldl f p) a := by
  refine ⟨List.foldlRecOn l f hp hI, ?_⟩
  induction l generalizing p with
  | nil => exact fun a ha => absurd ha List.not_mem_nil
  | cons a l ih =>
    have hp' := hI p hp a List.mem_cons_self
    have hI' : ∀ q, I q → ∀ b ∈ l, I (f q b) := fun q hq b hb => hI q hq b (List.mem_cons_of_mem a hb)
    intro b hb
    obtain rfl | hb := List.mem_cons.mp hb
    · exact (List.foldlRecOn (motive := fun q => I q ∧ P q b) l f ⟨hp', hself p hp b List.mem_cons_self⟩ fun q hq c hc =>
        ⟨hI' q hq.1 c hc, hkeep q hq.1 c (List.mem_cons_of_mem b hc) b hq.2⟩).2
    · exact ih hI' (fun q hq c hc => hself q hq c (List.mem_cons_of_mem a hc))
        (fun q hq c hc => hkeep q hq c (List.mem_cons_of_mem a hc)) hp' b hb

section
variable {p q : Pkg} (hb : q.badLines = []) (hce : q.ceLines = []) (r : Recipe) (fin : Nat) (j : Job)
include hb hce

/-- A job's end: its stores, then its entry and its instruction. -/
theorem endUp_eq : ∃ q', StoresOnly q q' ∧ q'.mem = (upShown q r j).mem ∧
    endUp q r fin j = closeJob (modJob q' j.id (fun k => { k with ends := fin })) j true j.flags :=
  ⟨upCounted (upShown q r j) j, (storesOnly_upShown hb hce r j).trans (storesOnly_upCounted _ j), upCounted_mem _ j, rfl⟩

theorem endUp_mem : (endUp q r fin j).mem = (upShown q r j).mem := by
  obtain ⟨q', -, hm, h⟩ := endUp_eq hb hce r fin j
  rw [h, closeJob_mem]
  exact hm

theorem endUp_badLines : (endUp q r fin j).badLines = [] := by
  obtain ⟨q', hq, -, h⟩ := endUp_eq hb hce r fin j
  rw [h, closeJob_badLines]
  exact hq.badLines.trans hb

theorem endUp_ceLines : (endUp q r fin j).ceLines = [] := by
  obtain ⟨q', hq, -, h⟩ := endUp_eq hb hce r fin j
  rw [h, closeJob_ceLines]
  exact hq.ceLines.trans hce

theorem jobEnded_endUp : JobEnded q (endUp q r fin j) j := by
  obtain ⟨q', hq, -, h⟩ := endUp_eq hb hce r fin j
  rw [h]
  exact jobEnded_closeJob j j.flags hq.tiles

theorem Unfailed.endUp {t n : Nat} (hu : Unfailed q t n) : Unfailed (endUp q r fin j) t n := by
  obtain ⟨q', hq, -, h⟩ := endUp_eq hb hce r fin j
  rw [h]
  exact (hu.congr hq.tiles).closeJob (p := modJob q' j.id _) j j.flags

/-- Jobs that have ended stay so as another one ends. -/
theorem JobEnded.endUp {k : Job} (he : JobEnded p q k) : JobEnded p (endUp q r fin j) k := by
  obtain ⟨hc, hf⟩ := he
  obtain ⟨q', hq, -, h⟩ := endUp_eq hb hce r fin j
  rw [h]
  refine ⟨?_, fun hu => ((hf hu).congr hq.tiles).closeJob (p := modJob q' j.id _) j j.flags⟩
  exact JobsAre.closeJob j true j.flags ((hc.congr hq.jobs).modJob (f := fun k => { k with ends := fin }) j.id (fun _ => rfl) fun _ h => h)

end

section
variable {p : Pkg} (hb : p.badLines = []) (hce : p.ceLines = []) (r : Recipe) (fin : Nat) (js : List Job)
include hb hce

/-- Jobs that end together are all over. -/
theorem jobEnded_endUps : ∀ k ∈ js, JobEnded p (js.foldl (fun q k => endUp q r fin k) p) k := by
  refine (foldl_reaches (I := fun q => (q.badLines = [] ∧ q.ceLines = []) ∧ ∀ t n, Unfailed p t n → Unfailed q t n)
    (P := fun q k => JobEnded p q k) ?_ ?_ ?_ ⟨⟨hb, hce⟩, fun _ _ h => h⟩).2
  · rintro q ⟨⟨hb, hce⟩, hu⟩ j -
    exact ⟨⟨endUp_badLines hb hce r fin j, endUp_ceLines hb hce r fin j⟩, fun t n h => (hu t n h).endUp hb hce r fin j⟩
  · rintro q ⟨⟨hb, hce⟩, hu⟩ j -
    obtain ⟨hc, hf⟩ := jobEnded_endUp hb hce r fin j
    exact ⟨hc, fun h => hf (hu _ _ h)⟩
  · rintro q ⟨⟨hb, hce⟩, -⟩ j - k h
    exact h.endUp hb hce r fin j

/-- The participants of a PASS2 that end together write their stores in turn. -/
theorem endUps_mem (ho : ∀ k ∈ js, k.op = 2) :
    (js.foldl (fun q k => endUp q r fin k) p).mem = js.foldl (fun m k => applyWs m k.writes.flatten) p.mem := by
  induction js generalizing p with
  | nil => rfl
  | cons k js ih =>
    obtain ⟨hk, ho⟩ := List.forall_mem_cons.mp ho
    have hst : endStores p r k = k.writes := if_neg (by omega)
    rw [List.foldl_cons, ih (endUp_badLines hb hce r fin k) (endUp_ceLines hb hce r fin k) ho, endUp_mem hb hce,
      upShown_mem_of_pass hb hce r k (by omega), hst, List.foldl_cons]

end

/-- The jobs that an update job ends with: a PASS2 with all participants (log entry 126). -/
def endGroup (p : Pkg) (j : Job) : List Job := if j.op = 2 then p.jobs.filter (fun k => samePass j k && k.running) else [j]

theorem endGroup_of_pass2 {p : Pkg} {j : Job} (h : j.op = 2) : endGroup p j = p.jobs.filter (fun k => samePass j k && k.running) := if_pos h

theorem endGroup_of_alone {p : Pkg} {j : Job} (h : j.op ≠ 2) : endGroup p j = [j] := if_neg h

theorem samePass_self {j : Job} (h : j.ue = true) : samePass j j = true := by
  simp only [samePass, h, beq_self_eq_true, Bool.and_self]

theorem samePass_op {j k : Job} (h : samePass j k = true) : k.op = j.op := by
  simp only [samePass, Bool.and_eq_true, beq_iff_eq] at h
  exact h.1.1.2

theorem mem_endGroup_self {p : Pkg} {n : Nat} {j : Job} (hj : findJob p n = some j) (hue : j.ue = true) (hr : j.running = true) :
    j ∈ endGroup p j := by
  unfold endGroup
  split
  · exact List.mem_filter.mpr ⟨List.mem_of_find?_eq_some hj, by rw [samePass_self hue, hr, Bool.and_self]⟩
  · exact List.mem_singleton_self j

theorem endTrouble_of_noBad {p : Pkg} (hb : p.badLines = []) (r : Recipe) (j : Job) : endTrouble p r j = none := by
  simp only [endTrouble, badPart_of_noBad hb, firstBad_of_noBad hb, Option.or_self, Option.map_none, ite_self]

section
variable {s : State} {n : Nat} {j : Job} (hj : findJob s.pkg n = some j) (hue : j.ue = true) (hr : j.running = true)
include hj hue hr

theorem exec_ueJobEnd_idle (h : jobOver s.pkg s.clk j = false) : exec (.ueJobEnd n) s = .next s := by
  have hany : (endGroup s.pkg j).any (fun k => !jobOver s.pkg s.clk k) = true :=
    List.any_eq_true.mpr ⟨j, mem_endGroup_self hj hue hr, by rw [h]; rfl⟩
  show execUeJobEnd n s = .next s
  unfold execUeJobEnd run
  simp only [hj]
  rw [← endGroup.eq_def, hany, Bool.or_true, Bool.true_or, if_pos rfl]

/-- Update jobs that are over end together. -/
theorem exec_ueJobEnd (hb : s.pkg.badLines = []) (h : ∀ k ∈ endGroup s.pkg j, jobOver s.pkg s.clk k = true)
    (hs : j.op = 1 → (pass1Sum s.pkg (recipeAt s.pkg j.launch j.idx) j).isSome = true) : ∃ fin, exec (.ueJobEnd n) s =
      .next (Safety.withPkg s ((endGroup s.pkg j).foldl (fun q k => endUp q (recipeAt s.pkg j.launch j.idx) fin k) s.pkg)) := by
  have hany : (endGroup s.pkg j).any (fun k => !jobOver s.pkg s.clk k) = false :=
    List.any_eq_false.mpr fun k hk => by rw [h k hk]; exact Bool.false_ne_true
  have hsum : (j.op == 1 && (pass1Sum s.pkg (recipeAt s.pkg j.launch j.idx) j).isNone) = false := by
    by_cases ho : j.op = 1
    · rw [Option.isNone_eq_false_iff.mpr (hs ho), Bool.and_false]
    · rw [beq_false_of_ne ho, Bool.false_and]
  have htr : (endGroup s.pkg j).findSome? (fun k => (endTrouble s.pkg (recipeAt s.pkg j.launch j.idx) k).map fun e => (k, e)) = none :=
    List.findSome?_eq_none_iff.mpr fun k _ => by rw [endTrouble_of_noBad hb]; rfl
  refine ⟨(endGroup s.pkg j).foldl (fun a x => max a (max x.ends x.late)) 0, ?_⟩
  show execUeJobEnd n s = _
  unfold execUeJobEnd run
  simp only [hj, hue, hr, hsum, ← endGroup.eq_def, hany, htr, Bool.not_true, Bool.or_self, Bool.false_eq_true, if_false]

end

end Sys2Proof.Machine
end

section
/-! PROOFS. The start of sparse jobs (R172) and of update jobs (R182 to R200): O58. -/

namespace Sys2Proof.Machine

/-! The start of a sparse job (R172) -/

/-- The program that a job's record names. -/
def jobProg (p : Pkg) (j : Job) : Prog := readProg p.mem ((launchSec p j.launch 4).getD (0, 0)).1 (jobRecord p j).prog

/-- A sparse job that has begun stands before its first step, its slots clear. -/
def sparseBegun (x : Job) : Job := { x with sparse := {}, ends := x.began }

section
variable {s : State} {n : Nat} {j : Job} (hs : Safety.Startable s n j false) (hb : s.pkg.badLines = []) (hce : s.pkg.ceLines = [])
  (hk : (jobRecord s.pkg j).kind = 0x10) (hc : startCheck s.pkg j (jobRecord s.pkg j) (launchMask s.pkg j.launch) = none)
include hs hb hce hk hc

/-- The check of a program ends its job before the start. -/
theorem startSparse_refused {cause : Nat}
    (h : progCheck s.pkg j (jobRecord s.pkg j) (launchMask s.pkg j.launch) (jobProg s.pkg j) = some cause) :
    startSparse s.pkg s.clk n = refuseJob s.pkg s.clk j cause := by
  obtain ⟨hj, hue, hm⟩ := hs
  have hkind : ((jobRecord s.pkg j).ok (j.op == 0xB1) && (jobRecord s.pkg j).kind != 0x10) = false := not_otherKind fun _ => hk
  unfold jobProg at h
  unfold startSparse
  simp only [hj, hue, hm, hkind, hc, h, firstBad_of_noBad hb, noteCes_of_noCe hce, Bool.not_true, Bool.or_self, Bool.false_eq_true, if_false]

theorem startSparse_eq (h : progCheck s.pkg j (jobRecord s.pkg j) (launchMask s.pkg j.launch) (jobProg s.pkg j) = none) :
    startSparse s.pkg s.clk n = modJob (takeJob (chargeJob s.pkg j false ((recordAt s.pkg j, 128) ::
      progRanges ((launchSec s.pkg j.launch 4).getD (0, 0)).1 (jobRecord s.pkg j).prog (jobProg s.pkg j))) j) n sparseBegun := by
  obtain ⟨hj, hue, hm⟩ := hs
  have hkind : ((jobRecord s.pkg j).ok (j.op == 0xB1) && (jobRecord s.pkg j).kind != 0x10) = false := not_otherKind fun _ => hk
  unfold jobProg at h
  unfold startSparse
  simp only [hj, hue, hm, hkind, hc, h, firstBad_of_noBad hb, noteCes_of_noCe hce, Bool.not_true, Bool.or_self, Bool.false_eq_true, if_false]
  rfl

theorem startSparse_starts (h : progCheck s.pkg j (jobRecord s.pkg j) (launchMask s.pkg j.launch) (jobProg s.pkg j) = none) :
    EngineOnly s.pkg (startSparse s.pkg s.clk n) ∧
      findJob (startSparse s.pkg s.clk n) n = some (sparseBegun (j.begun (beginCycle s.pkg j))) := by
  have hqs := queuesOnly_chargeJob s.pkg j false ((recordAt s.pkg j, 128) ::
    progRanges ((launchSec s.pkg j.launch 4).getD (0, 0)).1 (jobRecord s.pkg j).prog (jobProg s.pkg j))
  rw [startSparse_eq hs hb hce hk hc h]
  generalize chargeJob s.pkg j false _ = q at hqs ⊢
  obtain ⟨hj, -, -⟩ := hs
  have hbegin : beginCycle q j = beginCycle s.pkg j := beginCycle_congr j hqs.engineOnly.cfg hqs.jobs
  rw [← hbegin]
  exact ⟨(hqs.engineOnly.trans (engineOnly_takeJob _ j)).trans (engineOnly_modJob _ _ _),
    findJob_modJob (fun _ => rfl) (findJob_takeJob ((findJob_congr n hqs.jobs).trans hj))⟩

end

theorem progCheck_badProgram {p : Pkg} (j : Job) (r : JRec) (mask : Nat) {g : Prog} (h : progOk p.mem g = false) :
    progCheck p j r mask g = some 0x01 := by
  rw [progCheck, h, Bool.not_false, if_pos rfl]

/-! The change of one number's jobs -/

/-- From p to q the jobs of a number are changed, and beyond that at most regulator queues and registers of the units. -/
def Changes (p q : Pkg) (n : Nat) (f : Job → Job) : Prop := EngineOnly p q ∧ q.jobs = (modJob p n f).jobs

theorem modJob_jobs_congr {p q : Pkg} (n : Nat) (f : Job → Job) (h : p.jobs = q.jobs) : (modJob p n f).jobs = (modJob q n f).jobs := by
  rw [modJob, modJob, h]

theorem changes_modJob {p q : Pkg} (h : QueuesOnly p q) (n : Nat) (f : Job → Job) : Changes p (modJob q n f) n f :=
  ⟨h.engineOnly.trans (engineOnly_modJob q n f), modJob_jobs_congr n f h.jobs⟩

theorem changes_takeJob (p : Pkg) (j : Job) : Changes p (takeJob p j) j.id (Job.begun (beginCycle p j)) :=
  ⟨engineOnly_takeJob p j, takeJob_jobs p j⟩

theorem QueuesOnly.changes {p q r : Pkg} {n : Nat} {f : Job → Job} (h : QueuesOnly p q) (h' : Changes q r n f) : Changes p r n f :=
  ⟨h.engineOnly.trans h'.1, h'.2.trans (modJob_jobs_congr n f h.jobs)⟩

theorem Changes.modJob {p q : Pkg} {n : Nat} {f : Job → Job} (h : Changes p q n f) (g : Job → Job) (hf : ∀ y, (f y).id = y.id) :
    Changes p (modJob q n g) n (fun y => g (f y)) :=
  ⟨h.1.trans (engineOnly_modJob q n g), (modJob_jobs_congr n g h.2).trans (congrArg Pkg.jobs (modJob_modJob p n g hf))⟩

/-- Steps that take each job of a list from one kind to a narrower one take all of them there. -/
theorem foldl_jobs {p p' : Pkg} {js : List Job} {step : Pkg → Job → Pkg} {Q Q' : Job → Prop} (hp' : EngineOnly p p')
    (hstep : ∀ q, EngineOnly p q → ∀ k ∈ js, ∃ f, Changes q (step q k) k.id f ∧ (∀ y, (f y).id = y.id) ∧ ∀ y, Q y → Q' (f y))
    (hQ : ∀ y, Q' y → Q y) (hp : ∀ k ∈ js, JobsAre p' k.id Q) :
    EngineOnly p (js.foldl step p') ∧ ∀ k ∈ js, JobsAre (js.foldl step p') k.id Q' := by
  have h := foldl_reaches (f := step) (l := js) (p := p') (I := fun q => EngineOnly p q ∧ ∀ k ∈ js, JobsAre q k.id Q)
    (P := fun q k => JobsAre q k.id Q') ?_ ?_ ?_ ⟨hp', hp⟩
  · exact ⟨h.1.1, h.2⟩
  · rintro q ⟨hq, hjs⟩ a ha
    obtain ⟨f, hf, hid, hto⟩ := hstep q hq a ha
    exact ⟨hq.trans hf.1, fun k hk => ((hjs k hk).modJob a.id hid fun y hy => hQ _ (hto y hy)).congr hf.2⟩
  · rintro q ⟨hq, hjs⟩ a ha
    obtain ⟨f, hf, hid, hto⟩ := hstep q hq a ha
    exact ((hjs a ha).modJob_self hto).congr hf.2
  · rintro q ⟨hq, -⟩ a ha k hk
    obtain ⟨f, hf, hid, hto⟩ := hstep q hq a ha
    exact (hk.modJob a.id hid fun y hy => hto y (hQ y hy)).congr hf.2

/-! Update jobs come to their start (R182, R184) -/

/-- The cycle in which jobs that start together start. -/
def commonStart (p : Pkg) (js : List Job) : Nat := js.foldl (fun a j => max a (beginCycle p j)) 0

/-- One more participant's engine takes its job. -/
def upTook (p : Pkg) (r : Recipe) (b : Nat) (q : Pkg) (k : Job) : Pkg :=
  modJob (takeJob (chargeJob (noteCes q (upTables p k r)) k false (upTables p k r)) k) k.id (fun x => { x with began := b })

/-- A job that runs from a cycle on. -/
def Job.From (b : Nat) (y : Job) : Prop := y.running = true ∧ y.began = b

/-- All participants run from one cycle on. -/
theorem upTooks {p : Pkg} (hce : p.ceLines = []) (r : Recipe) (b : Nat) (js : List Job) :
    EngineOnly p (js.foldl (upTook p r b) p) ∧ ∀ k ∈ js, JobsAre (js.foldl (upTook p r b) p) k.id (Job.From b) := by
  refine foldl_jobs (Q := fun _ => True) (.refl p) (fun q hq k _ => ?_) (fun _ _ => trivial) fun _ _ _ _ _ => trivial
  unfold upTook
  rw [noteCes_of_noCe (hq.ceLines.trans hce)]
  have ht := (queuesOnly_chargeJob q k false (upTables p k r)).changes (changes_takeJob _ k)
  exact ⟨_, ht.modJob _ fun _ => rfl, fun _ => rfl, fun _ _ => ⟨rfl, rfl⟩⟩

section
variable {p : Pkg} {c : Clock} {j : Job} {r : Recipe}

theorem upRefused_of_asleep (h : engineAsleep p j = true) : upRefused p c j r = some (refuseJob p c j 0x07) := if_pos h

theorem upRefused_of_fallen (hb : p.badLines = []) (h : engineAsleep p j = false) (hr : recipeStands p j r = false) :
    upRefused p c j r = some (refuseJob p c j 0x01) := by
  simp only [upRefused, h, hr, firstBad_of_noBad hb, Bool.false_eq_true, if_false]

end

/-- A job that is found by its number is found by what it is besides. -/
theorem find_upJob {p : Pkg} {n op : Nat} {j : Job} (hj : findJob p n = some j) (hue : j.ue = true) (ho : j.op = op) :
    p.jobs.find? (fun k => k.id == n && k.ue && k.op == op) = some j := by
  rw [findJob, List.find?_eq_some_iff_append] at hj
  obtain ⟨hid, as, bs, hl, has⟩ := hj
  refine List.find?_eq_some_iff_append.mpr ⟨by simp only [hid, hue, ho, beq_self_eq_true, Bool.and_self], as, bs, hl, fun a ha => ?_⟩
  have ha : (a.id == n) = false := by simpa using has a ha
  simp only [ha, Bool.false_and, Bool.not_false]

/-- The jobs with which an update job starts: a pass with all participants. -/
def startGroup (p : Pkg) (c : Clock) (r : Recipe) (j : Job) : Option (List Job) := if j.op = 1 ∨ j.op = 2 then partners p c r j else some [j]

section
variable {s : State} {n op : Nat} {j : Job} (hs : Safety.Startable s n j true) (ho : j.op = op)
  {go : Clock → Pkg → Recipe → Job → List Job → Pkg}
include hs ho

theorem upStart_refused {q : Pkg} (h : upRefused s.pkg s.clk j (recipeAt s.pkg j.launch j.idx) = some q) :
    upStart n op go s = .next (Safety.withPkg s q) := by
  obtain ⟨hj, hue, hm⟩ := hs
  simp only [upStart, run, find_upJob hj hue ho, hm, h, Bool.not_true, Bool.false_eq_true, if_false]

theorem upStart_eq {js : List Job} (h : upRefused s.pkg s.clk j (recipeAt s.pkg j.launch j.idx) = none)
    (hjs : startGroup s.pkg s.clk (recipeAt s.pkg j.launch j.idx) j = some js) :
    upStart n op go s = .next (Safety.withPkg s (go s.clk
      (js.foldl (upTook s.pkg (recipeAt s.pkg j.launch j.idx) (commonStart s.pkg js)) s.pkg) (recipeAt s.pkg j.launch j.idx)
      { j with began := commonStart s.pkg js } js)) := by
  obtain ⟨hj, hue, hm⟩ := hs
  rw [startGroup, ho] at hjs
  simp only [upStart, run, find_upJob hj hue ho, hm, h, hjs, Bool.not_true, Bool.false_eq_true, if_false]
  rfl

end

/-- An update job that its checks end is refused, whatever its operation. -/
theorem exec_up_refused {s : State} {n op : Nat} {i : Instr} {j : Job} {q : Pkg}
    (hi : (i, op) ∈ [(Instr.ueInitJob n, 0), (.uePass1Job n, 1), (.uePass2Job n, 2), (.ueRootJob n, 3)])
    (hs : Safety.Startable s n j true) (ho : j.op = op) (h : upRefused s.pkg s.clk j (recipeAt s.pkg j.launch j.idx) = some q) :
    exec i s = .next (Safety.withPkg s q) := by
  simp only [List.mem_cons, Prod.mk.injEq, List.not_mem_nil, or_false] at hi
  obtain ⟨rfl, rfl⟩ | ⟨rfl, rfl⟩ | ⟨rfl, rfl⟩ | ⟨rfl, rfl⟩ := hi
  · show execUeInitJob n s = _
    unfold execUeInitJob
    exact upStart_refused hs ho h
  · show execUePass1Job n s = _
    unfold execUePass1Job
    exact upStart_refused hs ho h
  · show execUePass2Job n s = _
    unfold execUePass2Job
    exact upStart_refused hs ho h
  · show execUeRootJob n s = _
    unfold execUeRootJob
    exact upStart_refused hs ho h

/-- Jobs start: the outcome leaves memory as it is, and the jobs are of a kind. -/
def Starts (s : State) (o : Out) (js : List Job) (Q : Job → Prop) : Prop :=
  ∃ u, o = .next u ∧ u.pkg.mem = s.pkg.mem ∧ ∀ k ∈ js, JobsAre u.pkg k.id Q

theorem Starts.imp {s : State} {o : Out} {js : List Job} {Q Q' : Job → Prop} (h : Starts s o js Q) (hQ : ∀ y, Q y → Q' y) : Starts s o js Q' := by
  obtain ⟨u, he, hm, hall⟩ := h
  exact ⟨u, he, hm, fun k hk y hy hid => hQ y (hall k hk y hy hid)⟩

/-- Jobs that have started run for a time. -/
def Job.For (b dur : Nat) (y : Job) : Prop := y.running = true ∧ y.began = b ∧ y.ends = b + dur

/-- Jobs that come to their start are of the kind that their operation makes of them. -/
theorem upStart_starts {s : State} {n op : Nat} {j : Job} (ho : j.op = op) (hs : Safety.Startable s n j true) (hce : s.pkg.ceLines = [])
    {go : Clock → Pkg → Recipe → Job → List Job → Pkg} {js : List Job} {Q : Job → Prop}
    (h : upRefused s.pkg s.clk j (recipeAt s.pkg j.launch j.idx) = none)
    (hjs : startGroup s.pkg s.clk (recipeAt s.pkg j.launch j.idx) j = some js)
    (hgo : ∀ q, EngineOnly s.pkg q → (∀ k ∈ js, JobsAre q k.id (Job.From (commonStart s.pkg js))) →
      ∃ t, go s.clk q (recipeAt s.pkg j.launch j.idx) { j with began := commonStart s.pkg js } js = t ∧
        EngineOnly q t ∧ ∀ k ∈ js, JobsAre t k.id Q) :
    Starts s (upStart n op go s) js Q := by
  obtain ⟨hq, hfrom⟩ := upTooks (p := s.pkg) hce (recipeAt s.pkg j.launch j.idx) (commonStart s.pkg js) js
  obtain ⟨t, ht, hqt, hall⟩ := hgo _ hq hfrom
  refine ⟨_, upStart_eq hs ho h hjs, ?_, ?_⟩
  · rw [ht]
    exact hqt.mem.trans hq.mem
  · rw [ht]
    exact hall

/-- Without erroneous lines all pieces are good. -/
theorem goodPieces_of_noBad {p : Pkg} (hb : p.badLines = []) : ∀ l : List Piece, goodPieces p l = (l, none)
  | [] => rfl
  | x :: l => by simp only [goodPieces, firstBad_of_noBad hb, goodPieces_of_noBad hb l]

/-- Pieces that are all good wait in their job. -/
theorem upPieces_eq {p : Pkg} (hb : p.badLines = []) (hce : p.ceLines = []) (c : Clock) (j : Job) (pieces : List Piece) (f : Job → Job) :
    upPieces p c j pieces f = modJob p j.id (fun k => f { k with writes := pieces.map (fun x => x.ws) }) := by
  simp only [upPieces, goodPieces_of_noBad hb, noteCes_of_noCe hce]

/-- The pieces of a job whose operation gives it its last cycle. -/
theorem changes_upPieces {p q : Pkg} (hq : QueuesOnly p q) (hb : p.badLines = []) (hce : p.ceLines = []) (c : Clock) (j : Job)
    (pieces : List Piece) (f : Job → Job) :
    Changes p (upPieces q c j pieces f) j.id (fun k => f { k with writes := pieces.map (fun x => x.ws) }) := by
  rw [upPieces_eq (hq.engineOnly.badLines.trans hb) (hq.engineOnly.ceLines.trans hce)]
  exact changes_modJob hq _ _

section
variable {s : State} {n : Nat} {j : Job} (hs : Safety.Startable s n j true) (hb : s.pkg.badLines = []) (hce : s.pkg.ceLines = [])
  (h : upRefused s.pkg s.clk j (recipeAt s.pkg j.launch j.idx) = none)
include hs hb hce h

/-- INIT and ROOT run alone: their pieces wait, their operation gives them their last cycle. -/
theorem upStart_alone_starts {op : Nat} (ho : j.op = op) (hop : ¬(op = 1 ∨ op = 2)) {go : Clock → Pkg → Recipe → Job → List Job → Pkg} {dur : Nat}
    (hgo : ∀ q, q.mem = s.pkg.mem → ∀ b, ∃ q' pieces f,
      go s.clk q (recipeAt s.pkg j.launch j.idx) { j with began := b } [j] = upPieces q' s.clk { j with began := b } pieces f ∧
        QueuesOnly q q' ∧ ∀ y, (f y).id = y.id ∧ (f y).running = y.running ∧ (f y).began = y.began ∧ (f y).ends = y.began + dur) :
    Starts s (upStart n op go s) [j] (Job.For (commonStart s.pkg [j]) dur) := by
  refine upStart_starts ho hs hce h (if_neg (ho ▸ hop)) fun q hq hfrom => ?_
  obtain ⟨q', pieces, f, hgo, hqq, hf⟩ := hgo q hq.mem (commonStart s.pkg [j])
  have hch := changes_upPieces hqq (hq.badLines.trans hb) (hq.ceLines.trans hce) s.clk { j with began := commonStart s.pkg [j] } pieces f
  refine ⟨_, hgo, hch.1, fun k hk => ?_⟩
  obtain rfl := List.mem_singleton.mp hk
  refine JobsAre.congr ((hfrom k hk).modJob_self fun y hy => ?_) hch.2
  obtain ⟨-, hrun, hbeg, hend⟩ := hf { y with writes := pieces.map (fun x => x.ws) }
  exact ⟨hrun.trans hy.1, hbeg.trans hy.2, hend.trans (congrArg (· + dur) hy.2)⟩

/-- The time of an INIT job (R203). -/
def initDur (m : Mem) (r : Recipe) (u : Nat) : Nat :=
  64 + 1024 + ((segsOf m r).filter (fun g => g.lue == u)).foldl (fun a g => a + cdiv g.elems 256) 0
    + ((rootsOf m r).filter (fun q => q.lue == u)).foldl (fun a q => a + q.count * cdiv (q.n * q.n) 64) 0

/-- The time of a ROOT job (R200). -/
def rootDur (m : Mem) (r : Recipe) (u : Nat) : Nat :=
  64 + ((rootsOf m r).filter (fun q => q.lue == u)).foldl (fun a q => a + q.count *
    (if q.src = 0 then cdiv (q.n * q.n * q.n) 64 + 8 * q.n else cdiv (q.n * q.n) 64 + 8)) 0

theorem init_starts (ho : j.op = 0) : Starts s (exec (.ueInitJob n) s) [j]
    (Job.For (commonStart s.pkg [j]) (initDur s.pkg.mem (recipeAt s.pkg j.launch j.idx) j.unit)) := by
  show Starts s (execUeInitJob n s) _ _
  unfold execUeInitJob
  refine upStart_alone_starts hs hb hce h ho (by decide) fun q hq b => ?_
  simp only [hq]
  exact ⟨_, _, _, rfl, queuesOnly_chargeJob _ _ _ _, fun y => ⟨rfl, rfl, rfl, rfl⟩⟩

theorem root_starts (ho : j.op = 3) : Starts s (exec (.ueRootJob n) s) [j]
    (Job.For (commonStart s.pkg [j]) (rootDur s.pkg.mem (recipeAt s.pkg j.launch j.idx) j.unit)) := by
  show Starts s (execUeRootJob n s) _ _
  unfold execUeRootJob
  refine upStart_alone_starts hs hb hce h ho (by decide) fun q hq b => ?_
  simp only [hq]
  exact ⟨_, _, _, rfl, queuesOnly_chargeJob _ _ _ _, fun y => ⟨rfl, rfl, rfl, rfl⟩⟩

end

/-! PASS1 (R188) -/

theorem leNat_lt (bs : List Byte) : leNat bs < 256 ^ bs.length := by
  rw [← natLe_leNat bs, leNat_natLe, natLe_length]
  exact Nat.mod_lt _ (Nat.pow_pos (by decide))

theorem recipe_group_lt (p : Pkg) (l rid : Nat) : (recipeAt p l rid).group < 65536 := by
  unfold recipeAt parseRecipe field
  exact (leNat_lt _).trans_le (Nat.pow_le_pow_right (by decide) (List.length_take_le 2 _))

/-- The waggle worst case follows the grade and a register of the groups. -/
theorem wwcCycles_congr {p q : Pkg} (h : EngineOnly p q) {g : Nat} (hg : g < 65536) : wwcCycles q g = wwcCycles p g := by
  unfold wwcCycles cycleAt tickUnits rfld
  rw [h.cfg, h.2]
  unfold rGroup
  omega

/-- The time of a PASS1 (R188): that of its longest participant, and over a group the waggle worst case. -/
def pass1Dur (p : Pkg) (r : Recipe) : Nat :=
  64 + (bitList 8 r.uemask).foldl (fun a u => max a
    (((segsOf p.mem r).filter (fun g => g.lue == u)).foldl (fun a g => a + cdiv (gradCount p.mem g) 256) 0)) 0 + 342
    + (if r.group = 0xFFFF then 0 else wwcCycles p r.group)

/-- A job of a PASS1 that has started. -/
def Job.InPass1 (p : Pkg) (r : Recipe) (b : Nat) (y : Job) : Prop :=
  y.For b (pass1Dur p r) ∧ y.sum = if r.group = 0xFFFF then some (pkgSum p.mem r) else none

section
variable {s : State} {n : Nat} {j : Job} (hs : Safety.Startable s n j true) (hb : s.pkg.badLines = []) (hce : s.pkg.ceLines = [])
  (h : upRefused s.pkg s.clk j (recipeAt s.pkg j.launch j.idx) = none) {js : List Job}
  (hjs : partners s.pkg s.clk (recipeAt s.pkg j.launch j.idx) j = some js)
include hs hb hce h hjs

theorem pass1_starts (ho : j.op = 1) :
    Starts s (exec (.uePass1Job n) s) js (Job.InPass1 s.pkg (recipeAt s.pkg j.launch j.idx) (commonStart s.pkg js)) := by
  show Starts s (execUePass1Job n s) _ _
  unfold execUePass1Job
  refine upStart_starts ho hs hce h ((if_pos (Or.inl ho)).trans hjs) fun q hq hfrom => ?_
  simp only [hq.mem, firstBad_of_noBad (hq.badLines.trans hb), wwcCycles_congr hq (recipe_group_lt _ _ _)]
  refine ⟨_, rfl, foldl_jobs (.refl q) (fun q' hq' k _ => ?_) (fun y hy => ⟨hy.1.1, hy.1.2.1⟩) hfrom⟩
  rw [noteCes_of_noCe (hq'.ceLines.trans (hq.ceLines.trans hce))]
  refine ⟨_, changes_modJob (queuesOnly_chargeJob _ _ _ _) _ _, fun _ => rfl, fun y hy => ⟨⟨hy.1, hy.2, ?_⟩, rfl⟩⟩
  exact congrArg (· + pass1Dur s.pkg (recipeAt s.pkg j.launch j.idx)) hy.2

end

/-! PASS2 (R189 to R199) -/

/-- NORMVALID is clear, or the steps are used up: PASS2 has no norm to run on (R190). -/
def NoNorm (m : Mem) (r : Recipe) : Prop := bit (mnat m (r.state + 14) 1) 2 = false ∨ mnat m r.state 4 = 0xFFFFFFFF

/-- A job of a PASS2 whose norm is finite. -/
def Job.InStep (b : Nat) (y : Job) : Prop := y.From b ∧ b + 64 + 1024 ≤ y.ends

theorem queuesOnly_chargeStep (p : Pkg) (j : Job) (r : Recipe) (g : Seg) : QueuesOnly p (chargeStep p j r g) := by
  unfold chargeStep
  refine QueuesOnly.trans ?_ (queuesOnly_chargeJob _ _ _ _)
  have hh := (queuesOnly_chargeJob p j false (touchSpan p.mem g)).trans (queuesOnly_chargeHeaders _ j false
    ((segRows p.mem g).1.filterMap (fun q => q.hdr.map (fun _ => g.hdr + 4 * q.row))))
  split
  · exact hh.trans (queuesOnly_chargeJob _ _ _ _)
  · exact hh

/-- A participant's step that meets no bad touched list leaves its pieces and its last cycle in its job. -/
theorem pass2One_changes {p : Pkg} (hb : p.badLines = []) (hce : p.ceLines = []) {r : Recipe}
    (ht : ∀ g ∈ segsOf p.mem r, touchBad p.mem g = false) (k : Scal) (tot : Flags × Nat × Nat × Nat) (sound : Bool) (c : Clock) (j : Job) :
    ∃ f, Changes p (pass2One r k tot sound p c j) j.id f ∧ (∀ y, (f y).id = y.id) ∧ ∀ b y, y.From b → (f y).InStep b := by
  have ht : ((segsOf p.mem r).filter (fun g => g.lue == j.unit)).any (touchBad p.mem) = false :=
    List.any_eq_false.mpr fun g hg => by rw [ht g (List.mem_of_mem_filter hg)]; exact Bool.false_ne_true
  unfold pass2One
  rcases hring : ringStore p.mem (r.ring + j.unit * 0x80000) k with ⟨ring, rf⟩
  simp only [firstBad_of_noBad hb, ht, noteCes_of_noCe hce, Bool.false_eq_true, if_false]
  have hq := (QueuesOnly.foldl (fun q g => queuesOnly_chargeStep q j r g) ((segsOf p.mem r).filter (fun g => g.lue == j.unit)) p).trans
    (queuesOnly_chargeJob _ j false [ringSpan r j.unit])
  refine ⟨_, changes_upPieces hq hb hce c j _ _, fun _ => rfl, fun b y hy => ⟨hy, ?_⟩⟩
  have hbeg : y.began = b := hy.2
  show b + 64 + 1024 ≤ y.began + (64 + 1024 + _)
  omega

theorem noNorm_iff {m : Mem} {r : Recipe} : (!bit (mnat m (r.state + 14) 1) 2 || mnat m r.state 4 == 0xFFFFFFFF) = true ↔ NoNorm m r := by
  rw [NoNorm, Bool.or_eq_true, Bool.not_eq_true', beq_iff_eq]

/-- The tile registers of two tiles are the same or lie apart. -/
theorem tReg_apart (p : Pkg) (t u : Nat) : tReg p u = tReg p t ∨ tReg p u + 0x10000 ≤ tReg p t ∨ tReg p t + 0x10000 ≤ tReg p u := by
  unfold tReg rTile
  omega

theorem planFault_punits (p : Pkg) (c : Clock) (t cause q slot detail : Nat) : (planFault p c t cause q slot detail).punits = p.punits := by
  obtain ⟨y, h⟩ := faulted_eq p c t cause q slot
  rw [planFault_eq, (outward_logEntry _ _ _ _ _ _ _).punits, h]
  rfl

theorem closeJob_stopped (p : Pkg) (j : Job) (ok : Bool) (fl : Flags) (u : Nat) : (tile (closeJob p j ok fl) u).stopped = (tile p u).stopped := by
  rw [tile_congr u (closeJob_tiles p j ok fl), modInfl]
  by_cases hu : u = j.tile
  · rw [hu, tile_modTile_self]
  · rw [tile_modTile_ne _ hu]

/-- A tile that has stopped stays so as another one faults. -/
theorem planFault_stopped {p : Pkg} {u : Nat} (c : Clock) (t cause q slot detail : Nat) (h : (tile p u).stopped = true) :
    (tile (planFault p c t cause q slot detail) u).stopped = true := by
  by_cases hu : u = t
  · rw [hu, tile_planFault]
  · obtain ⟨y, hy⟩ := faulted_eq p c t cause q slot
    have ht : (faulted p c t cause q slot).tiles = (stopTile p t).tiles := by rw [hy]; rfl
    rw [planFault_eq, tile_congr u ((outward_logEntry _ _ _ _ _ _ _).tiles.trans ht)]
    exact (congrArg Tile.stopped (tile_modTile_ne _ hu)).trans h

/-- What a tile's fault register tells stays as another tile faults with the same. -/
theorem rget_planFault_keep {p : Pkg} {u cause q : Nat} (c : Clock) (t detail : Nat) (hc : cause + q * 2 ^ 8 < 2 ^ 32)
    (h : rget p (tReg p u + 8) = cause + q * 2 ^ 8) : rget (planFault p c t cause q 0 detail) (tReg p u + 8) = cause + q * 2 ^ 8 := by
  obtain hut | hut := tReg_apart p t u
  · rw [hut, rget_planFault_fault]
    omega
  · rw [planFault_eq, rget_logEntry _ _ _ _ _ _ _ _ (logReg_tReg p u 8), rget_congr _ (faulted_regs p c t cause q 0), faultWritten,
      rget_rsetb_ne _ _ _ (by omega), rget_rset_ne _ _ (by omega), rget_rset_ne _ _ (by omega)]
    exact h

/-- Without a norm every participant's tile faults with UP_SEQUENCE (R190). -/
theorem jobFaults_stop (p : Pkg) (c : Clock) {js : List Job} (hue : ∀ k ∈ js, k.ue = true) :
    (js.foldl (fun q k => jobFault q c k 0 0x08) p).mem = p.mem ∧
      ∀ k ∈ js, (tile (js.foldl (fun q k => jobFault q c k 0 0x08) p) k.tile).stopped = true ∧
        rget (js.foldl (fun q k => jobFault q c k 0 0x08) p) (tReg p k.tile + 8) = 0x08 + 3 * 256 := by
  have hf (q : Pkg) (k : Job) (hk : k ∈ js) : ∃ fl, jobFault q c k 0 0x08 = planFault (closeJob q k false fl) c k.tile 0x08 3 0 0 := by
    obtain ⟨_, fl, -, hq, h⟩ := jobFault_eq q c k 0 0x08
    exact ⟨fl, by rw [h, hq (hue k hk)]⟩
  have h := foldl_reaches (f := fun q k => jobFault q c k 0 0x08) (l := js) (p := p) (I := fun q => q.mem = p.mem ∧ q.punits = p.punits)
    (P := fun q k => (tile q k.tile).stopped = true ∧ rget q (tReg p k.tile + 8) = 0x08 + 3 * 256) ?_ ?_ ?_ ⟨rfl, rfl⟩
  · exact ⟨h.1.1, h.2⟩
  · rintro q ⟨hm, hu⟩ a ha
    obtain ⟨fl, h⟩ := hf q a ha
    rw [h, planFault_mem, planFault_punits]
    exact ⟨hm, hu⟩
  · rintro q ⟨-, hu⟩ a ha
    obtain ⟨h1, h2, -⟩ := jobFault_stops q c a 0 (cause := 0x08) (by decide)
    rw [← tReg_congr a.tile hu]
    exact ⟨h1, h2⟩
  · rintro q ⟨-, hu⟩ a ha k ⟨hst, hr⟩
    obtain ⟨fl, h⟩ := hf q a ha
    have ht : tReg p k.tile = tReg (closeJob q a false fl) k.tile := tReg_congr k.tile hu.symm
    rw [h]
    refine ⟨planFault_stopped c a.tile 0x08 3 0 0 ?_, ?_⟩
    · rw [closeJob_stopped]
      exact hst
    · rw [ht] at hr ⊢
      exact rget_planFault_keep c a.tile 0 (by decide) hr

/-- The jobs that start with a job run on update engines. -/
theorem ue_of_partners {p : Pkg} {c : Clock} {r : Recipe} {j : Job} {js : List Job} (h : partners p c r j = some js) :
    ∀ k ∈ js, k.ue = true := by
  intro k hk
  simp only [partners, Option.ite_none_right_eq_some, Option.some.injEq] at h
  obtain ⟨-, rfl⟩ := h
  obtain ⟨u, -, hu⟩ := List.mem_filterMap.mp hk
  have hp := List.find?_some hu
  simp only [samePass, Bool.and_eq_true] at hp
  exact hp.1.1.1.1.1.1.1

/-- The participants' first reads of a PASS2 (R189). -/
def pass2Charged (q : Pkg) (r : Recipe) (js : List Job) : Pkg :=
  js.foldl (fun q k => chargeJob q k false (if k.unit = lowest r then [(r.state, 128)] else [])) q

theorem queuesOnly_pass2Charged (q : Pkg) (r : Recipe) (js : List Job) : QueuesOnly q (pass2Charged q r js) :=
  QueuesOnly.foldl (fun _ _ => queuesOnly_chargeJob _ _ _ _) js q

section
variable {s : State} {n : Nat} {j : Job} (hs : Safety.Startable s n j true) (hb : s.pkg.badLines = []) (hce : s.pkg.ceLines = [])
  (h : upRefused s.pkg s.clk j (recipeAt s.pkg j.launch j.idx) = none) {js : List Job}
  (hjs : partners s.pkg s.clk (recipeAt s.pkg j.launch j.idx) j = some js) (ho : j.op = 2)
include hs hb hce h hjs ho

/-- PASS2 without a norm (R190). -/
theorem pass2_stops (hn : NoNorm s.pkg.mem (recipeAt s.pkg j.launch j.idx)) : ∃ u, exec (.uePass2Job n) s = .next u ∧
    u.pkg.mem = s.pkg.mem ∧ ∀ k ∈ js, (tile u.pkg k.tile).stopped = true ∧ rget u.pkg (tReg s.pkg k.tile + 8) = 0x08 + 3 * 256 := by
  show ∃ u, execUePass2Job n s = .next u ∧ _
  unfold execUePass2Job
  obtain ⟨hq, -⟩ := upTooks (p := s.pkg) hce (recipeAt s.pkg j.launch j.idx) (commonStart s.pkg js) js
  rw [upStart_eq hs ho h ((if_pos (Or.inr ho)).trans hjs)]
  generalize List.foldl (upTook _ _ _) _ _ = q at hq ⊢
  have hch := queuesOnly_pass2Charged q (recipeAt s.pkg j.launch j.idx) js
  simp only [firstBad_of_noBad (hq.badLines.trans hb), noteCes_of_noCe (hq.ceLines.trans hce), ← pass2Charged.eq_def]
  generalize pass2Charged q _ js = q' at hch ⊢
  have hq' := hq.trans hch.engineOnly
  rw [← noNorm_iff] at hn
  simp only [hq'.mem, hn, if_true]
  obtain ⟨hm, hall⟩ := jobFaults_stop q' s.clk (ue_of_partners hjs)
  refine ⟨_, rfl, hm.trans hq'.mem, fun k hk => ?_⟩
  rw [tReg_congr k.tile hq'.punits.symm]
  exact hall k hk

theorem pass2_skips (hn : ¬NoNorm s.pkg.mem (recipeAt s.pkg j.launch j.idx))
    (hfin : finiteF .b64 (b64At s.pkg.mem ((recipeAt s.pkg j.launch j.idx).state + 16)) = false) :
    Starts s (exec (.uePass2Job n) s) js (Job.For (commonStart s.pkg js) 64) := by
  show Starts s (execUePass2Job n s) _ _
  unfold execUePass2Job
  refine upStart_starts ho hs hce h ((if_pos (Or.inr ho)).trans hjs) fun q hq hfrom => ?_
  have hch := queuesOnly_pass2Charged q (recipeAt s.pkg j.launch j.idx) js
  simp only [firstBad_of_noBad (hq.badLines.trans hb), noteCes_of_noCe (hq.ceLines.trans hce), ← pass2Charged.eq_def]
  generalize pass2Charged q _ js = q' at hch ⊢
  have hq' := hq.trans hch.engineOnly
  rw [← noNorm_iff, Bool.not_eq_true] at hn
  simp only [hq'.mem, hn, hfin, Bool.not_false, Bool.false_eq_true, if_false, if_true]
  refine ⟨_, rfl, foldl_jobs hch.engineOnly (fun q _ k _ => ?_) (fun y hy => ⟨hy.1, hy.2.1⟩) fun k hk => (hfrom k hk).congr hch.jobs⟩
  exact ⟨_, changes_modJob (.refl q) _ _, fun _ => rfl, fun y hy => ⟨hy.1, hy.2, congrArg (· + 64) hy.2⟩⟩

theorem pass2_steps (hn : ¬NoNorm s.pkg.mem (recipeAt s.pkg j.launch j.idx))
    (hfin : finiteF .b64 (b64At s.pkg.mem ((recipeAt s.pkg j.launch j.idx).state + 16)) = true)
    (ht : ∀ g ∈ segsOf s.pkg.mem (recipeAt s.pkg j.launch j.idx), touchBad s.pkg.mem g = false) :
    Starts s (exec (.uePass2Job n) s) js (Job.InStep (commonStart s.pkg js)) := by
  show Starts s (execUePass2Job n s) _ _
  unfold execUePass2Job
  refine upStart_starts ho hs hce h ((if_pos (Or.inr ho)).trans hjs) fun q hq hfrom => ?_
  have hch := queuesOnly_pass2Charged q (recipeAt s.pkg j.launch j.idx) js
  simp only [firstBad_of_noBad (hq.badLines.trans hb), noteCes_of_noCe (hq.ceLines.trans hce), ← pass2Charged.eq_def]
  generalize pass2Charged q _ js = q' at hch ⊢
  have hq' := hq.trans hch.engineOnly
  rw [← noNorm_iff, Bool.not_eq_true] at hn
  simp only [hq'.mem, hn, hfin, Bool.not_true, Bool.false_eq_true, if_false]
  refine ⟨_, rfl, foldl_jobs hch.engineOnly (fun t hqt k _ => ?_) (fun y hy => hy.1) fun k hk => (hfrom k hk).congr hch.jobs⟩
  have ht' := hq.trans hqt
  obtain ⟨f, hf, hid, hto⟩ := pass2One_changes (ht'.badLines.trans hb) (ht'.ceLines.trans hce) (ht'.mem ▸ ht) _ _ _ s.clk k
  exact ⟨f, hf, hid, hto _⟩

end

end Sys2Proof.Machine
end

section
/-! PROOFS. The life of an engine's job, put together: O58. -/

namespace Sys2Proof.Machine

/-- Settles O58: a dispatch arrives or is refused; what the ends of jobs show and count; what the starts of jobs check, take and leave for
the end. -/
theorem engineJobs : Obligations.EngineJobs := by
  refine ⟨?arrival, ?ends, ?starts⟩
  case arrival =>
    rintro s n j i _ cause hi hj rfl ha hc late early
    obtain ⟨he, rfl⟩ := exec_dispatchArrive hi s
    refine ⟨fun h hl hr => ?_, fun h hr => ⟨_, he, ?_⟩, fun h => ?_⟩
    · rw [he, arriveJob_accepted hj ha hc h hl hr]
    · exact arriveJob_refused_stops hj ha hc h hr
    · rw [he, arriveJob_underWay hj h]
  case ends =>
    intro s n j hj hr hb hce ended slv done_
    refine ⟨fun hue hd => ?slvDone, fun hue h => exec_slvJobEnd_idle hj (jobOver_of_early h), fun hue => ?ueDone,
      fun hue h => exec_ueJobEnd_idle hj hue hr (jobOver_of_early h)⟩
    case slvDone =>
      have he := exec_slvJobEnd hj hr hue (jobOver_of_done hd.1 hd.2)
      refine ⟨fun ho => ?_, fun ho hn => ?_, fun ho hn => ?_⟩
      · obtain ⟨⟨h1, h2⟩, hm⟩ := endSlv_ends hb hce s.clk j.writes.flatten none hue (status := 0) (by decide)
        rw [slvEnd, if_pos ho] at he
        exact ⟨_, he, hm, h1.ended, h2⟩
      · obtain ⟨⟨h1, h2⟩, hm⟩ := endSlv_ends hb hce s.clk (programStores s.pkg j) (some j.sparse.convIter) hue (convStatus_lt j)
        rw [slvEnd, if_neg (by omega), hn, Bool.not_true, if_neg Bool.false_ne_true] at he
        exact ⟨_, he, ⟨h1.ended, h2⟩, hm⟩
      · rw [slvEnd, if_neg (by omega), hn, Bool.not_false, if_pos rfl] at he
        exact he
    case ueDone =>
      refine ⟨fun ho hd hs => ?_, fun ho hd => ?_⟩
      · have hg := endGroup_of_alone (p := s.pkg) (j := j) (by omega)
        obtain ⟨fin, he⟩ := exec_ueJobEnd hj hue hr hb (fun k hk => by
          rw [hg, List.mem_singleton] at hk
          exact hk ▸ jobOver_of_done hd.1 hd.2) hs
        rw [hg, List.foldl_cons, List.foldl_nil] at he
        refine ⟨_, he, (jobEnded_endUp hb hce _ fin j).ended, fun a ha hst => ?_, fun h1 => ?_⟩
        · exact (congrArg (mget · a) (endUp_mem hb hce _ fin j)).trans (mget_upShown hb hce _ j ha hst)
        · exact (endUp_mem hb hce _ fin j).trans (upShown_mem_of_pass hb hce _ j (by omega))
      · have hg := endGroup_of_pass2 (p := s.pkg) ho
        have mem_group {k : Job} (hk : k ∈ s.pkg.jobs.filter (fun k => samePass j k && k.running)) :
            k ∈ s.pkg.jobs ∧ samePass j k = true ∧ k.running = true := by rwa [List.mem_filter, Bool.and_eq_true] at hk
        obtain ⟨fin, he⟩ := exec_ueJobEnd hj hue hr hb (fun k hk => by
          obtain ⟨hmem, hsame, hrun⟩ := mem_group (hg ▸ hk)
          obtain ⟨h1, h2⟩ := hd k hmem hsame hrun
          exact jobOver_of_done h1 h2) (by omega)
        rw [hg] at he
        refine ⟨_, he, endUps_mem hb hce _ fin _ fun k hk => ?_, fun k hk => (jobEnded_endUps hb hce _ fin _ k hk).ended⟩
        obtain ⟨-, hsame, -⟩ := mem_group hk
        exact (samePass_op hsame).trans ho
  case starts =>
    intro s n j hb hce stops
    have refused {i : Instr} {cause : Nat} (hc : cause < 256) (he : exec i s = .next (Safety.withPkg s (refuseJob s.pkg s.clk j cause))) :
        stops i cause := by
      obtain ⟨h1, h2, -⟩ := refuseJob_stops s.pkg s.clk j hc
      exact ⟨_, he, h1, h2, refuseJob_mem ..⟩
    refine ⟨?sparse, ?update⟩
    case sparse =>
      intro hs r mask g hok hk hc
      refine ⟨fun h => ?_, fun h => ?_⟩
      · obtain ⟨heng, hfind⟩ := startSparse_starts hs hb hce hk hc h
        exact ⟨_, _, rfl, heng.mem, hfind, rfl, rfl, rfl, rfl⟩
      · refine refused (by decide) ?_
        rw [← startSparse_refused hs hb hce hk hc (progCheck_badProgram j r mask h)]
        rfl
    intro r starts mine
    have started {i : Instr} {js : List Job} {dur : Nat} (h : Starts s (exec i s) js (Job.For (commonStart s.pkg js) dur)) :
        starts i js dur := by
      obtain ⟨u, he, hm, hall⟩ := h
      refine ⟨u, _, he, hm, rfl, ?_⟩
      rintro k hk ⟨j', hj', hid⟩
      exact hall j' hj' k hk hid.symm
    refine ⟨fun i op hi hs ho => ?_, fun hs ho hr => started (init_starts hs hb hce hr ho), fun hs ho hr => started (root_starts hs hb hce hr ho),
      fun js hs ho hr hjs => ?pass1, fun js hs ho hr hjs => ?pass2⟩
    · exact ⟨fun ha => refused (by decide) (exec_up_refused hi hs ho (upRefused_of_asleep ha)),
        fun ha hst => refused (by decide) (exec_up_refused hi hs ho (upRefused_of_fallen hb ha hst))⟩
    case pass1 =>
      have h := pass1_starts hs hb hce hr hjs ho
      refine ⟨started (h.imp fun y hy => hy.1), fun hg => ?_⟩
      obtain ⟨u, he, -, hall⟩ := h
      refine ⟨u, he, ?_⟩
      rintro k hk ⟨j', hj', hid⟩
      exact (hall j' hj' k hk hid.symm).2.trans (if_pos hg)
    case pass2 =>
      have norm (h1 : bit (mnat s.pkg.mem (r.state + 14) 1) 2 = true) (h2 : mnat s.pkg.mem r.state 4 ≠ 0xFFFFFFFF) : ¬NoNorm s.pkg.mem r := by
        rintro (h | h)
        · exact absurd (h.symm.trans h1) Bool.false_ne_true
        · exact h2 h
      refine ⟨fun hn => pass2_stops hs hb hce hr hjs ho hn, fun h1 h2 hfin => ?_, fun h1 h2 hfin ht => ?_⟩
      · exact started (pass2_skips hs hb hce hr hjs ho (norm h1 h2) hfin)
      · obtain ⟨u, he, hm, hall⟩ := pass2_steps hs hb hce hr hjs ho (norm h1 h2) hfin ht
        refine ⟨u, he, hm, ?_⟩
        rintro k hk ⟨j', hj', hid⟩
        obtain ⟨⟨hrun, hbeg⟩, hend⟩ := hall j' hj' k hk hid.symm
        exact ⟨hrun, hbeg, hbeg ▸ hend⟩

end Sys2Proof.Machine
end

section
/-! PROOFS. How a core runs one instruction (R211, R216, R227, R229), and the results of scalar instructions: O49. -/

namespace Sys2Proof.Machine

/-! One instruction of a core -/

@[simp] theorem core_setCore_self (p : Pkg) (k : Nat) (x : Core) : core (setCore p k x) k = x := sget_sset_self _ _ _ _

/-- A core is read from `cores` alone. -/
theorem core_congr {p q : Pkg} (k : Nat) (h : p.cores = q.cores) : core p k = core q k := by rw [core, core, h]

section
variable {s : State} {k : Nat} {vec : Bool} {f : Clock → Pkg → Core → CoreR (Pkg × Core)}

/-- An instruction that nothing holds back, of an awake unit where it needs one, has its effect on the stepped core, or its fault. -/
theorem coreExec_of_runs (hr : Safety.Runs s k) (hv : vec = true → (core s.pkg k).awake = true) :
    coreExec k vec s f = .next (Safety.withPkg s (match f s.clk s.pkg (Safety.stepped s k) with
      | .ok (q, y) => setCore q k (Safety.atRest y)
      | .error e =>
        if e.want.isEmpty then coreFault (endAccess s.pkg k (core s.pkg k)) s.clk k (core s.pkg k) e
        else setCore (enqueueAll s.pkg 4 e.want) k { core s.pkg k with asked := e.want.length })) := by
  obtain ⟨hready, hfetch⟩ := hr
  have hsleep : (vec && !(core s.pkg k).awake) = false := by
    cases vec with
    | false => rfl
    | true => rw [hv rfl]; rfl
  unfold coreExec
  rw [run_eq]
  simp only [hready, hfetch, hsleep, Bool.not_true, Bool.false_eq_true, if_false]
  rfl

theorem coreExec_of_ok (hr : Safety.Runs s k) (hv : vec = true → (core s.pkg k).awake = true) {q : Pkg} {y : Core}
    (hf : f s.clk s.pkg (Safety.stepped s k) = .ok (q, y)) :
    coreExec k vec s f = .next (Safety.withPkg s (setCore q k (Safety.atRest y))) := by
  rw [coreExec_of_runs hr hv, hf]

/-- A scalar instruction that completes. -/
theorem scalar_completes (hr : Safety.Runs s k) {q : Pkg} {y : Core} (hf : f s.clk s.pkg (Safety.stepped s k) = .ok (q, y)) :
    coreExec k false s f = .next (Safety.withPkg s (setCore q k (Safety.atRest y))) :=
  coreExec_of_ok (vec := false) hr nofun hf

/-- A scalar instruction that changes its core alone. -/
theorem scalar_goes_on (hr : Safety.Runs s k) {y : Core} (hf : f s.clk s.pkg (Safety.stepped s k) = .ok (s.pkg, y)) :
    coreExec k false s f = .next (Safety.goneOn s k y) := scalar_completes hr hf

/-- A vector instruction of an awake unit that completes. -/
theorem vector_completes (hr : Safety.Runs s k) (ha : (core s.pkg k).awake = true) {q : Pkg} {y : Core}
    (hf : f s.clk s.pkg (Safety.stepped s k) = .ok (q, y)) :
    coreExec k vec s f = .next (Safety.withPkg s (setCore q k (Safety.atRest y))) := coreExec_of_ok hr (fun _ => ha) hf

theorem vector_goes_on (hr : Safety.Runs s k) (ha : (core s.pkg k).awake = true) {y : Core}
    (hf : f s.clk s.pkg (Safety.stepped s k) = .ok (s.pkg, y)) : coreExec k vec s f = .next (Safety.goneOn s k y) :=
  vector_completes hr ha hf

end

/-! The core with its pc moved on (`stepped`) -/

section
variable (s : State) (k : Nat)

@[simp] theorem stepped_xget (r : Nat) : (Safety.stepped s k).xget r = (core s.pkg k).xget r := rfl
@[simp] theorem stepped_fget (r : Nat) : (Safety.stepped s k).fget k r = (core s.pkg k).fget k r := rfl
@[simp] theorem stepped_qget (r : Nat) : (Safety.stepped s k).qget r = (core s.pkg k).qget r := rfl
@[simp] theorem stepped_pc : (Safety.stepped s k).pc = (core s.pkg k).pc + 4 := rfl
@[simp] theorem stepped_sched : (Safety.stepped s k).sched = (core s.pkg k).sched := rfl

end

/-! The meaning of each scalar instruction, by its name -/

section
variable {s : State} {k : Fin 216} {rd rs1 rs2 : Fin 32} {imm : Int}

theorem exec_iIntegerReg {op : IntOp} : exec (.iIntegerReg k op rd rs1 rs2) s = execIIntegerReg k op rd rs1 rs2 s := rfl
theorem exec_iIntegerImm {op : IntImmOp} : exec (.iIntegerImm k op rd rs1 imm) s = execIIntegerImm k op rd rs1 imm s := rfl
theorem exec_bBranch {op : BranchOp} : exec (.bBranch k op) s = execBBranch k op s := rfl
theorem exec_mMuldiv {op : MulOp} {w : Bool} : exec (.mMuldiv k op w rd rs1 rs2) s = execMMuldiv k op w rd rs1 rs2 s := rfl
theorem exec_fScalar {op : FloatOp} {wide : Bool} {ra : Fin 8} :
    exec (.fScalar k op wide ra rd rs1 rs2) s = execFScalar k op wide ra rd rs1 rs2 s := rfl

end

/-! Two's complement -/

theorem sext_toNat (x : W64) : sext 64 x.toNat = x.toInt := by
  have hx : x.toNat < 2 ^ 64 := x.isLt
  rw [sext, BitVec.toInt_eq_toNat_cond]
  unfold bit
  rw [Nat.shiftRight_eq_div_pow]
  simp only [beq_iff_eq]
  split <;> split <;> omega

theorem ofNat_wrapInt (i : Int) : BitVec.ofNat 64 (wrapInt 64 i) = BitVec.ofInt 64 i := by
  apply BitVec.eq_of_toNat_eq
  rw [BitVec.toNat_ofNat, BitVec.toNat_ofInt, wrapInt]
  omega

theorem ofInt_toInt_mul (x y : W64) : BitVec.ofInt 64 (x.toInt * y.toInt) = x * y := by
  rw [BitVec.ofInt_mul, BitVec.ofInt_toInt, BitVec.ofInt_toInt]

theorem ofInt_tdiv (x y : W64) : BitVec.ofInt 64 (x.toInt.tdiv y.toInt) = x.sdiv y := by
  apply BitVec.eq_of_toInt_eq
  rw [BitVec.toInt_ofInt, BitVec.toInt_sdiv]

theorem ofInt_tmod (x y : W64) : BitVec.ofInt 64 (x.toInt.tmod y.toInt) = x.srem y := by
  rw [← BitVec.toInt_srem, BitVec.ofInt_toInt]

theorem toInt_eq_zero_iff (x : W64) : x.toInt = 0 ↔ x = 0 := by
  exact ⟨fun h => BitVec.eq_of_toInt_eq h, fun h => h ▸ rfl⟩

/-! Classes 0x0 to 0x5 (R213, R214) -/

theorem shiftOp_shl {x y : W64} (h : y.toNat < 64) : shiftOp .shl 64 x y = x <<< y.toNat := by
  apply BitVec.eq_of_toNat_eq
  have hx : x.toNat % 2 ^ 64 = x.toNat := Nat.mod_eq_of_lt x.isLt
  have hy : y.toNat % 2 ^ 64 = y.toNat := Nat.mod_eq_of_lt y.isLt
  simp only [shiftOp, hx, hy, Nat.not_le.mpr h, if_true, if_false, BitVec.toNat_ofNat, BitVec.toNat_shiftLeft, Nat.shiftLeft_eq, Nat.mod_mod]

theorem shiftOp_sar {x y : W64} (h : y.toNat < 64) : shiftOp .sar 64 x y = x.sshiftRight y.toNat := by
  have hx : x.toNat % 2 ^ 64 = x.toNat := Nat.mod_eq_of_lt x.isLt
  have hy : y.toNat % 2 ^ 64 = y.toNat := Nat.mod_eq_of_lt y.isLt
  simp only [shiftOp, hx, hy, Nat.not_le.mpr h, if_false, reduceCtorEq, sext_toNat, ofNat_wrapInt]
  rw [BitVec.sshiftRight, Int.shiftRight_eq_div_pow]
  norm_cast

theorem toInt_slt (x y : W64) : x.slt y = decide (x.toInt < y.toInt) := rfl

section
variable {s : State} {k : Fin 216} (hr : Safety.Runs s k) (rd a b : Fin 32)
include hr

theorem exec_integerReg {op : IntOp} {v : W64} (h : intReg op ((core s.pkg k).xget a) ((core s.pkg k).xget b) = some v) :
    exec (.iIntegerReg k op rd a b) s = .next (Safety.goneOn s k ((Safety.stepped s k).xset rd v)) := by
  refine exec_iIntegerReg.trans (scalar_goes_on hr ?_)
  simp only [stepped_xget, h]

/-- A multiplication or division of 64-bit values. -/
theorem exec_muldiv {op : MulOp} {n : Nat} (h : mulDiv op 64 ((core s.pkg k).xget a).toInt ((core s.pkg k).xget b).toInt = some n) :
    exec (.mMuldiv k op false rd a b) s = .next (Safety.goneOn s k ((Safety.stepped s k).xset rd (BitVec.ofNat 64 n))) := by
  refine exec_mMuldiv.trans (scalar_goes_on hr ?_)
  simp only [stepped_xget, Bool.false_eq_true, if_false, sext_toNat, h]

/-- A multiplication or division of 32-bit values leaves the upper half open. -/
theorem exec_muldiv32 {op : MulOp} {n : Nat}
    (h : mulDiv op 32 (sext 32 ((core s.pkg k).xget a).toNat) (sext 32 ((core s.pkg k).xget b).toNat) = some n) :
    exec (.mMuldiv k op true rd a b) s = .next (Safety.goneOn s k ((Safety.stepped s k).xset rd
      (Config.upper32 (BitVec.ofNat 32 n) ++ BitVec.ofNat 32 n : BitVec 64))) := by
  refine exec_mMuldiv.trans (scalar_goes_on hr ?_)
  simp only [stepped_xget, if_true, h]

end

/-- The upper bits that `I.HIGHK` writes. -/
theorem highk_high (x : W64) (imm : Int) :
    (BitVec.ofNat 64 (setBits x.toNat 63 47 (wrapInt 17 imm))).toNat / 2 ^ 47 = (imm % 2 ^ 17).toNat := by
  have hw : wrapInt 17 imm < 2 ^ 17 := by unfold wrapInt; omega
  have hs : setBits x.toNat 63 47 (wrapInt 17 imm) < 2 ^ 64 := setBits_lt _ _ _ _ _ (by decide) (by decide) x.isLt
  have hb := bits_setBits x.toNat 63 47 (wrapInt 17 imm) (by decide)
  rw [bits, Nat.shiftRight_eq_div_pow, Nat.mod_eq_of_lt (Nat.div_lt_of_lt_mul (by rw [← Nat.pow_add]; exact hs)), Nat.mod_eq_of_lt hw] at hb
  rw [BitVec.toNat_ofNat, Nat.mod_eq_of_lt hs, hb, wrapInt]

theorem toNat_upper32_append (n : Nat) :
    (Config.upper32 (BitVec.ofNat 32 n) ++ BitVec.ofNat 32 n : BitVec 64).toNat % 2 ^ 32 = n % 2 ^ 32 := by
  rw [BitVec.toNat_append, BitVec.toNat_ofNat, ← Nat.shiftLeft_add_eq_or_of_lt (Nat.mod_lt _ (by decide)), Nat.shiftLeft_eq]
  omega

/-- A taken branch of `off` words, from the address of the next instruction. -/
theorem wrapInt_target (pc : Nat) (off : Int) : wrapInt 64 (((pc + 4 : Nat) : Int) - 4 + 4 * off) = (((pc : Int) + 4 * off) % 2 ^ 64).toNat := by
  rw [wrapInt]
  congr 2
  push_cast
  ring

/-- A branch goes to its target where its condition holds, else on. -/
theorem branch_goes_on {s : State} {k : Nat} {f : Clock → Pkg → Core → CoreR (Pkg × Core)} (hr : Safety.Runs s k) {c : Bool} {off : Int}
    (hf : f s.clk s.pkg (Safety.stepped s k) = .ok (s.pkg,
      if c then { Safety.stepped s k with pc := wrapInt 64 (((Safety.stepped s k).pc : Int) - 4 + 4 * off) } else Safety.stepped s k)) :
    coreExec k false s f = .next (Safety.goneOn s k { Safety.stepped s k with
      pc := if c then ((((core s.pkg k).pc : Int) + 4 * off) % 2 ^ 64).toNat else (core s.pkg k).pc + 4 }) := by
  rw [scalar_goes_on hr hf]
  cases c with
  | false => rfl
  | true => simp only [if_true, stepped_pc, wrapInt_target]

/-- Settles O49: each class by the equation of its operation. -/
theorem scalarResults : Obligations.ScalarResults := by
  intro s k rd a b hr x y put go
  refine ⟨exec_integerReg hr rd a b rfl, exec_integerReg hr rd a b rfl, exec_integerReg hr rd a b rfl, exec_integerReg hr rd a b ?cmplt,
    exec_integerReg hr rd a b ?min,
    fun h => ⟨exec_integerReg hr rd a b (congrArg some (shiftOp_shl h)), exec_integerReg hr rd a b (congrArg some (shiftOp_sar h))⟩,
    fun _ => ⟨⟨_, exec_integerReg hr rd a b rfl⟩, _, exec_integerReg hr rd a b rfl⟩,
    fun imm => ⟨exec_iIntegerImm.trans (scalar_goes_on hr rfl), exec_iIntegerImm.trans (scalar_goes_on hr rfl), _,
      exec_iIntegerImm.trans (scalar_goes_on hr rfl), highk_high _ _⟩,
    ?mul, ?mulh, ?div, ?rem, fun op n h => ⟨_, exec_muldiv32 hr rd a b h, toNat_upper32_append n⟩, ?branches, ?floats⟩
  case cmplt => simp only [intReg, toInt_slt, decide_eq_true_eq]; rfl
  case min => simp only [intReg, toInt_slt, decide_eq_true_eq]; rfl
  case mul => rw [exec_muldiv hr rd a b rfl, ofNat_wrapInt, ofInt_toInt_mul]
  case mulh => rw [exec_muldiv hr rd a b rfl, ofNat_wrapInt]
  case div =>
    rw [exec_muldiv hr rd a b rfl, ← ofInt_tdiv, ← ofNat_wrapInt]
    simp only [toInt_eq_zero_iff]
    split <;> rfl
  case rem =>
    rw [exec_muldiv hr rd a b rfl, ← ofInt_tmod, ← ofNat_wrapInt]
    simp only [toInt_eq_zero_iff]
    split
    · rw [ofNat_wrapInt, BitVec.ofInt_toInt]
    · rfl
  case branches =>
    intro off dest
    refine ⟨exec_bBranch.trans ((branch_goes_on hr rfl).trans (congrArg go ?eq)), exec_bBranch.trans ((branch_goes_on hr rfl).trans (congrArg go ?ne)),
      exec_bBranch.trans ((branch_goes_on hr rfl).trans (congrArg go ?lt)), exec_bBranch.trans ((branch_goes_on hr rfl).trans (congrArg go ?geu)),
      exec_bBranch.trans (scalar_goes_on hr ?call), exec_bBranch.trans (scalar_goes_on hr rfl)⟩
    case eq => simp only [stepped_xget, beq_iff_eq]; rfl
    case ne => simp only [stepped_xget, bne_iff_ne, ite_not]; rfl
    case lt => simp only [stepped_xget, toInt_slt, decide_eq_true_eq]; rfl
    case geu => simp only [stepped_xget, BitVec.ule_eq_decide, decide_eq_true_eq]; rfl
    case call => simp only [if_true, stepped_pc, wrapInt_target]; rfl
  case floats =>
    intro wide ra rel src g rm f u v fput
    refine ⟨exec_fScalar.trans (scalar_goes_on hr rfl), exec_fScalar.trans (scalar_goes_on hr rfl), exec_fScalar.trans (scalar_goes_on hr rfl),
      exec_fScalar.trans (scalar_goes_on hr rfl), exec_fScalar.trans (scalar_goes_on hr rfl), exec_fScalar.trans (scalar_goes_on hr rfl),
      fun hg => exec_fScalar.trans (scalar_goes_on hr ?_), exec_fScalar.trans (scalar_goes_on hr rfl)⟩
    simp only [hg]
    rfl

end Sys2Proof.Machine
end

section
/-! PROOFS. Faults and exceptions of core instructions (R229): O51. -/

namespace Sys2Proof.Machine

/-! Checks -/

@[simp] theorem cneed_true (sub : Nat) : cneed true sub = .ok () := rfl
@[simp] theorem cneed_false (sub : Nat) : cneed false sub = .error { sub := sub } := rfl
@[simp] theorem coreR_ok_bind {α β : Type} (a : α) (g : α → CoreR β) : ((.ok a : CoreR α) >>= g) = g a := rfl
@[simp] theorem coreR_error_bind {α β : Type} (e : CoreErr) (g : α → CoreR β) : ((.error e : CoreR α) >>= g) = .error e := rfl

/-- A check that passes leaves what follows it. -/
theorem cneed_bind_pass {α : Type} {b : Bool} {sub : Nat} {g : Unit → CoreR α} (h : b = true) : (cneed b sub >>= g) = g () := by rw [h]; rfl

/-- A check that fails is the answer. -/
theorem cneed_bind_fail {α : Type} {b : Bool} {sub : Nat} {g : Unit → CoreR α} (h : b = false) :
    (cneed b sub >>= g) = .error { sub := sub } := by rw [h]; rfl

/-! An instruction that does not complete -/

@[simp] theorem core_endAccess (p : Pkg) (k : Nat) : core (endAccess p k (core p k)) k = Safety.atRest (core p k) := by
  unfold endAccess
  split
  · rename_i h
    have hg : (core p k).grant = [] := List.isEmpty_iff.mp h
    rw [Safety.atRest, ← hg]
  · exact core_setCore_self _ _ _

theorem endAccess_eq (p : Pkg) (k : Nat) (x : Core) : ∃ c, endAccess p k x = { p with cores := c } := by
  unfold endAccess
  split
  · exact ⟨p.cores, rfl⟩
  · exact ⟨_, rfl⟩

section
variable {s : State} {k : Nat} {vec : Bool} {f : Clock → Pkg → Core → CoreR (Pkg × Core)} {sub : Nat}

/-- A check that fails is the fault of the instruction. -/
theorem coreExec_of_error (hr : Safety.Runs s k) (hv : vec = true → (core s.pkg k).awake = true)
    (hf : f s.clk s.pkg (Safety.stepped s k) = .error { sub := sub }) :
    coreExec k vec s f = .next (Safety.withPkg s (coreFault (endAccess s.pkg k (core s.pkg k)) s.clk k (core s.pkg k) { sub := sub })) := by
  rw [coreExec_of_runs hr hv, hf]
  rfl

/-- In service mode it is an exception to keeper firmware. -/
theorem coreFault_service {x : Core} (hs : x.sched = false) (p : Pkg) (c : Clock) :
    coreFault p c k x { sub := sub } = Safety.excepted p k sub x.pc := by
  unfold coreFault
  rw [hs]
  rfl

theorem scalar_raises (hr : Safety.Runs s k) (hs : (core s.pkg k).sched = false)
    (hf : f s.clk s.pkg (Safety.stepped s k) = .error { sub := sub }) : coreExec k false s f = .next (Safety.raised s k sub) := by
  rw [coreExec_of_error (vec := false) hr nofun hf, coreFault_service hs]
  rfl

theorem vector_raises (hr : Safety.Runs s k) (ha : (core s.pkg k).awake = true) (hs : (core s.pkg k).sched = false)
    (hf : f s.clk s.pkg (Safety.stepped s k) = .error { sub := sub }) : coreExec k vec s f = .next (Safety.raised s k sub) := by
  rw [coreExec_of_error hr (fun _ => ha) hf, coreFault_service hs]
  rfl

/-- A pc that may not be fetched from is an exception before the instruction begins. -/
theorem coreExec_unfetched (hr : coreReady s.pkg s.clk k (core s.pkg k) = true) (hfetch : (core s.pkg k).fetchOk = false)
    (hs : (core s.pkg k).sched = false) :
    coreExec k vec s f = .next (Safety.withPkg s (Safety.excepted s.pkg k 0x04 (core s.pkg k).pc)) := by
  unfold coreExec
  rw [run_eq]
  simp only [hr, hfetch, Bool.not_true, Bool.not_false, Bool.false_eq_true, if_false, if_true, coreFault_service hs]

end

/-! Plan fault FORAGER (R229) -/

/-- The registers that a forager's fault leaves: the subcause in `TILE.FSTAT`, the pc in `TILE.FPC`. -/
def faultPlace (p : Pkg) (k : Nat) (x : Core) (sub : Nat) : Pkg :=
  rset (rsetf p (tReg p k + 0x14) 15 8 sub) (tReg p k + 0x18) (x.pc % 2 ^ 32)

theorem coreFault_scheduled {x : Core} (hs : x.sched = true) (p : Pkg) (c : Clock) (k sub : Nat) :
    coreFault p c k x { sub := sub } = planFault (faultPlace p k x sub) c k 0x09 0 0 (sub * 2 ^ 8) := by
  unfold coreFault
  rw [hs]
  rfl

/-- A plan fault leaves the registers of its tile above `TILE.FAULTCYC`. -/
theorem rget_planFault_above (p : Pkg) (c : Clock) (t cause q slot detail : Nat) {o : Nat} (ho : 0xC < o) :
    rget (planFault p c t cause q slot detail) (tReg p t + o) = rget p (tReg p t + o) := by
  rw [planFault_eq, rget_logEntry _ _ _ _ _ _ _ _ (logReg_tReg p t o), rget_congr _ (faulted_regs p c t cause q slot), faultWritten,
    rget_rsetb_ne _ _ _ (by omega), rget_rset_ne _ _ (by omega), rget_rset_ne _ _ (by omega)]
  rfl

theorem planFault_cores (p : Pkg) (c : Clock) (t cause q slot detail : Nat) : (planFault p c t cause q slot detail).cores = p.cores := by
  obtain ⟨y, h⟩ := faulted_eq p c t cause q slot
  rw [planFault_eq, (outward_logEntry _ _ _ _ _ _ _).cores, h]
  rfl

theorem planFault_excs (p : Pkg) (c : Clock) (t cause q slot detail : Nat) : (planFault p c t cause q slot detail).excs = p.excs := by
  obtain ⟨y, h⟩ := faulted_eq p c t cause q slot
  rw [planFault_eq, (outward_logEntry _ _ _ _ _ _ _).excs, h]
  rfl

/-- The fault of a scheduled forager: its tile stops with cause FORAGER, the subcause and the pc are told, and nothing else changes that an
instruction could. -/
structure ForagerFault (s u : State) (k sub : Nat) : Prop where
  stopped : (tile u.pkg k).stopped = true
  mem : u.pkg.mem = s.pkg.mem
  core : Machine.core u.pkg k = Safety.atRest (Machine.core s.pkg k)
  excs : u.pkg.excs = s.pkg.excs
  subcause : rfld u.pkg (tReg s.pkg k + 0x14) 15 8 = sub
  pc : rget u.pkg (tReg s.pkg k + 0x18) = (Machine.core s.pkg k).pc % 2 ^ 32
  cause : rget u.pkg (tReg s.pkg k + 8) = 0x09

/-- A check that fails in scheduled mode is plan fault FORAGER. -/
theorem scalar_stops {s : State} {k sub : Nat} {f : Clock → Pkg → Core → CoreR (Pkg × Core)} (hr : Safety.Runs s k)
    (hs : (core s.pkg k).sched = true) (hsub : sub < 256) (hf : f s.clk s.pkg (Safety.stepped s k) = .error { sub := sub }) :
    ∃ u, coreExec k false s f = .next u ∧ ForagerFault s u k sub := by
  refine ⟨_, coreExec_of_error (vec := false) hr nofun hf, ?_⟩
  rw [coreFault_scheduled hs]
  obtain ⟨cs, he⟩ := endAccess_eq s.pkg k (core s.pkg k)
  have hc : core (endAccess s.pkg k (core s.pkg k)) k = Safety.atRest (core s.pkg k) := core_endAccess s.pkg k
  generalize endAccess s.pkg k (core s.pkg k) = p at he hc ⊢
  have ht : tReg s.pkg k = tReg (faultPlace p k (core s.pkg k) sub) k := tReg_congr k (by rw [he]; rfl)
  have htp : tReg p k = tReg s.pkg k := tReg_congr k (by rw [he])
  exact {
    stopped := by rw [tile_planFault]
    mem := by rw [planFault_mem, he]; rfl
    core := by rw [core_congr k (planFault_cores ..)]; exact hc
    excs := by rw [planFault_excs, he]; rfl
    subcause := by
      rw [rfld, ht, rget_planFault_above _ _ _ _ _ _ _ (by decide), ← ht, faultPlace, htp, rget_rset_ne _ _ (by omega)]
      exact (rfld_rsetf_self _ _ _ _ _ (by decide) (by decide)).trans (Nat.mod_eq_of_lt hsub)
    pc := by
      rw [ht, rget_planFault_above _ _ _ _ _ _ _ (by decide), ← ht, faultPlace, htp, rget_rset_self, Nat.mod_mod]
    cause := by rw [ht, rget_planFault_fault]; rfl }

/-! The meanings of other instructions, by their names -/

theorem exec_vPredicateLogic {s : State} {k : Fin 216} {op : PredOp} : exec (.vPredicateLogic k op) s = execVPredicateLogic k op s := rfl
theorem exec_vArith {s : State} {k : Fin 216} {op : VOp} {kind : VKind} {m : Bool} {ra : Fin 8} {vd vs1 : Fin 32} {src : VSrc} :
    exec (.vArith k op kind m ra vd vs1 src) s = execVArith k op kind m ra vd vs1 src s := rfl
theorem exec_vShape {s : State} {k : Fin 216} {imm : Fin 16} : exec (.vShape k imm) s = execVShape k imm s := rfl
theorem exec_tDscr {s : State} {k : Fin 216} {vd : Fin 32} {slot : Fin 64} : exec (.tDscr k vd slot) s = execTDscr k vd slot s := rfl
theorem exec_aFadd64 {s : State} {k : Fin 216} {ctx : Fin 65536} {rd rs1 rs2 : Fin 32} :
    exec (.aFadd64 k ctx rd rs1 rs2) s = execAFadd64 k ctx rd rs1 rs2 s := rfl

theorem groupOk_eq_false {k : Nat} {x : Core} {r : Nat} (rs : List Nat) (h : r % 2 ^ x.grp ≠ 0) : groupOk k x (r :: rs) = false := by
  simp only [groupOk, List.all_cons, Core.g, beq_eq_false_iff_ne.mpr h, Bool.false_and]

/-- Settles O51: each condition fails the instruction's first check, or leaves no operation to carry out. -/
theorem coreFaults : Obligations.CoreFaults := by
  intro s k rd a b hready _
  refine ⟨fun hs hfetch => ?service, fun hs hfetch => exec_iIntegerReg.trans (coreExec_unfetched hready hfetch hs),
    fun hs hk hfetch => ⟨?undef, fun ctx => ?fadd⟩⟩
  case service =>
    have hr : Safety.Runs s k := ⟨hready, hfetch⟩
    refine ⟨exec_iIntegerReg.trans (scalar_raises hr hs rfl), fun _ => exec_iIntegerImm.trans (scalar_raises hr hs rfl),
      exec_bBranch.trans (scalar_raises hr hs rfl), fun _ => exec_mMuldiv.trans (scalar_raises hr hs rfl),
      fun _ _ => exec_fScalar.trans (scalar_raises hr hs rfl), fun ha hg => exec_vArith.trans (vector_raises hr ha hs ?group),
      fun ha => exec_vPredicateLogic.trans (vector_raises hr ha hs rfl), fun hk imm hi => exec_vShape.trans (scalar_raises hr hs ?shape),
      fun hk slot => exec_tDscr.trans (scalar_raises hr hs ?dscr)⟩
    case group =>
      have hgr : groupOk k (Safety.stepped s k) ([rd.val, a.val] ++ srcRegs (.v b)) = false := groupOk_eq_false (x := Safety.stepped s k) _ hg
      exact (cneed_bind_pass rfl).trans (cneed_bind_fail hgr)
    case shape =>
      have hi' : (imm.val / 4 == 0) = false := beq_eq_false_iff_ne.mpr (by omega)
      exact cneed_bind_fail (by rw [hk, hi']; rfl)
    case dscr => exact cneed_bind_fail (decide_eq_false (by omega))
  case undef =>
    obtain ⟨u, hu, h⟩ : ∃ u, execIIntegerReg k .undef rd a b s = .next u ∧ ForagerFault s u k 0x01 :=
      scalar_stops ⟨hready, hfetch⟩ hs (by decide) rfl
    exact ⟨u, exec_iIntegerReg.trans hu, h.stopped, h.cause, h.subcause, h.core, h.excs⟩
  case fadd =>
    obtain ⟨u, hu, h⟩ : ∃ u, execAFadd64 k ctx rd a b s = .next u ∧ ForagerFault s u k 0x06 :=
      scalar_stops ⟨hready, hfetch⟩ hs (by decide) (cneed_bind_fail (by rw [stepped_sched, hs]; rfl))
    exact ⟨u, exec_aFadd64.trans hu, h.stopped, h.subcause, h.core, h.mem⟩

end Sys2Proof.Machine
end

section
/-! PROOFS. System instructions, the vector unit's wake and the wait for watch words (R216, R226 to R228): O52. -/

namespace Sys2Proof.Machine

/-! The meaning of each system instruction, by its name -/

section
variable {s : State} {k : Fin 216} {rd rs1 : Fin 32} {r : Csr}

theorem exec_sysRdgsc : exec (.sysRdgsc k rd) s = execSysRdgsc k rd s := rfl
theorem exec_sysRdcyc : exec (.sysRdcyc k rd) s = execSysRdcyc k rd s := rfl
theorem exec_sysCsrr : exec (.sysCsrr k rd r) s = execSysCsrr k rd r s := rfl
theorem exec_sysCsrw : exec (.sysCsrw k r rs1) s = execSysCsrw k r rs1 s := rfl
theorem exec_sysFence : exec (.sysFence k) s = execSysFence k s := rfl
theorem exec_sysDcinv : exec (.sysDcinv k rs1) s = execSysDcinv k rs1 s := rfl
theorem exec_sysDcinva : exec (.sysDcinva k) s = execSysDcinva k s := rfl
theorem exec_sysWaitany : exec (.sysWaitany k rd rs1) s = execSysWaitany k rd rs1 s := rfl
theorem exec_sysVwake : exec (.sysVwake k) s = execSysVwake k s := rfl
theorem exec_sysVsleep : exec (.sysVsleep k) s = execSysVsleep k s := rfl
theorem exec_vwakeDone : exec (.vwakeDone k) s = execVwakeDone k s := rfl
theorem exec_waitanyWake : exec (.waitanyWake k) s = execWaitanyWake k s := rfl

end

/-! Watch words (R228) -/

/-- An access within the own slice window is in place 0 of a scheduled forager. -/
theorem schedPlace_own {k a n : Nat} (p : Pkg) (h : sliceBase k ≤ a) (h' : a + n ≤ sliceBase k + 0x1E00000) : schedPlace p k a n = 0 :=
  if_pos ⟨h, by omega⟩

theorem mem_bitList {w n i : Nat} : i ∈ bitList w n ↔ i < w ∧ bit n i = true := by rw [bitList, List.mem_filter, List.mem_range]

theorem watchInReach_of_own {p : Pkg} {k : Nat} {x : Core} {mask : Nat}
    (h : x.sched = true → ∀ i < 16, bit mask i = true → Safety.InSlice k (sget x.watchA i 0#64).toNat 8) : watchInReach p k x mask = true := by
  rw [watchInReach, Bool.or_eq_true, Bool.not_eq_true', List.all_eq_true]
  cases hs : x.sched with
  | false => exact .inl rfl
  | true =>
    refine .inr fun i hi => ?_
    obtain ⟨hi, hb⟩ := mem_bitList.mp hi
    obtain ⟨hlo, hhi⟩ := h hs i hi hb
    rw [schedPlace_own p hlo hhi]
    rfl

/-- The lowest of the watch words at or above their thresholds. -/
theorem watchMet_eq_some {p : Pkg} {x : Core} {mask i : Nat} (hi : i < 16) (hb : bit mask i = true)
    (h : (sget x.watchT i 0#64).toNat ≤ mnat p.mem (sget x.watchA i 0#64).toNat 8)
    (hlow : ∀ j < i, bit mask j = true → mnat p.mem (sget x.watchA j 0#64).toNat 8 < (sget x.watchT j 0#64).toNat) :
    watchMet p x mask = some i := by
  rw [watchMet, bitList, List.find?_filter, List.find?_range_eq_some]
  refine ⟨by simp only [hb, h, decide_true, and_self], List.mem_range.mpr hi, fun j hj => ?_⟩
  cases hbj : bit mask j with
  | false => rfl
  | true => simp only [Nat.not_le.mpr (hlow j hj hbj), decide_false, Bool.false_eq_true, and_false, Bool.not_false]

theorem watchMet_eq_none {p : Pkg} {x : Core} {mask : Nat}
    (h : ∀ i < 16, bit mask i = true → mnat p.mem (sget x.watchA i 0#64).toNat 8 < (sget x.watchT i 0#64).toNat) :
    watchMet p x mask = none := by
  rw [watchMet, List.find?_eq_none]
  intro i hi
  obtain ⟨hi, hb⟩ := mem_bitList.mp hi
  simp only [Nat.not_le.mpr (h i hi hb), decide_false, Bool.false_eq_true, not_false_eq_true]

/-- A waiting core runs nothing. -/
theorem coreExec_waiting {s : State} {k : Nat} (h : (core s.pkg k).waiting.isSome = true) (vec : Bool)
    (f : Clock → Pkg → Core → CoreR (Pkg × Core)) : coreExec k vec s f = .next s := by
  have hready : coreReady s.pkg s.clk k (core s.pkg k) = false := by
    cases hw : (core s.pkg k).waiting with
    | none => rw [hw] at h; cases h
    | some w => simp only [coreReady, hw, Option.isNone_some, Bool.false_and]
  unfold coreExec
  rw [run_eq]
  simp only [hready, Bool.not_false, if_true]

section
variable {s : State} {k : Fin 216} {r mask : Nat} (hw : (core s.pkg k).waiting = some (r, mask)) (hb : s.pkg.badLines = [])
include hw hb

theorem waitanyWake_wakes {i : Nat} (h : watchMet s.pkg (core s.pkg k) mask = some i) : exec (.waitanyWake k) s =
    .next (Safety.withCore s k { (core s.pkg k).xset r (BitVec.ofNat 64 i) with waiting := none }) := by
  rw [exec_waitanyWake, execWaitanyWake, run_eq]
  simp only [hw, firstBad_of_noBad hb, h]
  rw [Core.xset, Core.xset]
  split <;> rfl

theorem waitanyWake_waits (h : watchMet s.pkg (core s.pkg k) mask = none) : exec (.waitanyWake k) s = .next s := by
  rw [exec_waitanyWake, execWaitanyWake, run_eq]
  simp only [hw, firstBad_of_noBad hb, h]

end

/-! The wake of the vector unit (R227) -/

section
variable {s : State} {k : Fin 216}

theorem sysVwake_wakes (hr : Safety.Runs s k) (ha : (core s.pkg k).awake = false) (hn : (core s.pkg k).waking = none) :
    exec (.sysVwake k) s = .next (Safety.goneOn s k { Safety.stepped s k with waking := some (s.clk.up / 5 + 160) }) := by
  refine exec_sysVwake.trans (scalar_goes_on hr ?_)
  have h : ((Safety.stepped s k).awake || (Safety.stepped s k).waking.isSome) = false := by
    rw [show (Safety.stepped s k).awake = false from ha, show (Safety.stepped s k).waking = none from hn]
    rfl
  simp only [h, Bool.false_eq_true, if_false]
  rfl

theorem sysVwake_idle (hr : Safety.Runs s k) (h : (core s.pkg k).awake = true ∨ (core s.pkg k).waking.isSome = true) :
    exec (.sysVwake k) s = .next (Safety.goneOn s k (Safety.stepped s k)) := by
  refine exec_sysVwake.trans (scalar_goes_on hr ?_)
  have h' : ((Safety.stepped s k).awake || (Safety.stepped s k).waking.isSome) = true := Bool.or_eq_true_iff.mpr h
  simp only [h', if_true]

theorem vwakeDone_wakes {w : Nat} (hw : (core s.pkg k).waking = some w) (h : w ≤ cyclesNow s.clk) :
    exec (.vwakeDone k) s = .next (Safety.withCore s k { core s.pkg k with awake := true, waking := none }) := by
  rw [exec_vwakeDone, execVwakeDone, run_eq]
  simp only [hw]
  rw [if_pos h]
  rfl

theorem vwakeDone_waits {w : Nat} (hw : (core s.pkg k).waking = some w) (h : ¬w ≤ cyclesNow s.clk) : exec (.vwakeDone k) s = .next s := by
  rw [exec_vwakeDone, execVwakeDone, run_eq]
  simp only [hw]
  rw [if_neg h]

end

/-! The data cache (R216) -/

theorem sget_map {α β : Type} (g : α → β) (m : SMap α) (k : Nat) (d : α) : sget (m.map fun e => (e.1, g e.2)) k (g d) = g (sget m k d) := by
  induction m with
  | nil => rfl
  | cons e m ih =>
    simp only [List.map_cons, sget, ih]
    split <;> rfl

/-- The lines that remain when one is invalidated. -/
theorem mem_dcinv {c : SMap (List (Nat × List Byte))} {l st : Nat} {e : Nat × List Byte}
    (h : e ∈ sget (c.map fun w => (w.1, w.2.filter fun v => v.1 != l)) st []) : e.1 ≠ l ∧ e ∈ sget c st [] := by
  have hm := sget_map (fun w : List (Nat × List Byte) => w.filter fun v => v.1 != l) c st []
  rw [List.filter_nil] at hm
  rw [hm, List.mem_filter, bne_iff_ne] at h
  exact h.symm

/-- Settles O52: each instruction by its effect on its core; the wait by the lowest watch word that is met. -/
theorem systemInstructions : Obligations.SystemInstructions := by
  intro s k rd a x
  refine ⟨?runs, ?done, ?wait⟩
  case runs =>
    intro hr y put becomes
    have csrr {r : Csr} : exec (.sysCsrr k rd r) s = execSysCsrr k rd r s := exec_sysCsrr
    have csrw {r : Csr} : exec (.sysCsrw k r a) s = execSysCsrw k r a s := exec_sysCsrw
    exact ⟨exec_sysRdgsc.trans (scalar_goes_on hr rfl), exec_sysRdcyc.trans (scalar_goes_on hr rfl), csrr.trans (scalar_goes_on hr rfl),
      csrr.trans (scalar_goes_on hr rfl), csrr.trans (scalar_goes_on hr rfl),
      fun i => ⟨csrr.trans (scalar_goes_on hr rfl), csrr.trans (scalar_goes_on hr rfl)⟩,
      csrw.trans (scalar_goes_on hr rfl), csrw.trans (scalar_goes_on hr rfl), csrw.trans (scalar_goes_on hr rfl),
      fun i => ⟨csrw.trans (scalar_goes_on hr rfl), csrw.trans (scalar_goes_on hr rfl)⟩,
      exec_sysFence.trans (scalar_goes_on hr rfl), exec_sysDcinva.trans (scalar_goes_on hr rfl),
      ⟨_, exec_sysDcinv.trans (scalar_goes_on hr rfl), rfl, rfl, fun st l hl => mem_dcinv hl⟩,
      exec_sysVsleep.trans (scalar_goes_on hr rfl), sysVwake_wakes hr, sysVwake_idle hr,
      fun h => exec_sysWaitany.trans (scalar_goes_on hr (cneed_bind_pass (watchInReach_of_own h)))⟩
  case done =>
    exact fun w hw => ⟨vwakeDone_wakes hw, fun h => vwakeDone_waits hw (Nat.not_le.mpr h)⟩
  case wait =>
    intro r mask hw hb
    exact ⟨fun i hi hbit h hlow => waitanyWake_wakes hw hb (watchMet_eq_some hi hbit h hlow),
      fun h => waitanyWake_waits hw hb (watchMet_eq_none h),
      fun b => exec_iIntegerReg.trans (coreExec_waiting (Option.isSome_of_eq_some hw) _ _)⟩

end Sys2Proof.Machine
end

section
/-! PROOFS. The tile interface (R219, R220, R23, R25): O53. -/

namespace Sys2Proof.Machine

/-! The meaning of each instruction, by its name -/

section
variable {s : State} {k : Fin 216} {q : Fin 4} {slot : Fin 64} {rd rs1 rs2 : Fin 32}

theorem exec_tQpush : exec (.tQpush k q rs1 rs2) s = execTQpush k q rs1 rs2 s := rfl
theorem exec_tDscw : exec (.tDscw k slot rs1) s = execTDscw k slot rs1 s := rfl
theorem exec_tTsig : exec (.tTsig k slot) s = execTTsig k slot s := rfl
theorem exec_tTwait : exec (.tTwait k slot) s = execTTwait k slot s := rfl
theorem exec_tTread : exec (.tTread k rd slot) s = execTTread k rd slot s := rfl

end

/-! Tiles -/

theorem isTileCore_of_lt {k : Nat} (h : k < 128) : isTileCore k = true := decide_eq_true h

/-- A core's registers are no part of its tile. -/
@[simp] theorem tile_setCore (p : Pkg) (k : Nat) (x : Core) (t : Nat) : tile (setCore p k x) t = tile p t := rfl

/-- Nor are they registers of the setup window. -/
@[simp] theorem rget_setCore (p : Pkg) (k : Nat) (x : Core) (o : Nat) : rget (setCore p k x) o = rget p o := rfl

theorem setQueue_qfree (x : Tile) (q : Nat) (l : List W128) : (x.setQueue q l).qfree = x.qfree := by
  unfold Tile.setQueue
  split_ifs <;> rfl

/-- A word that joins a queue with words in it. -/
theorem pushed_of_nonempty {x : Tile} {q : Nat} (h : x.queue q ≠ []) (w : W128) (cyc : Nat) :
    x.pushed q w cyc = x.setQueue q (x.queue q ++ [w]) := by
  rw [Tile.pushed]
  exact if_neg (by rwa [List.isEmpty_iff])

/-- A word that joins an empty queue may issue from the next cycle on. -/
theorem pushed_of_empty {x : Tile} {q : Nat} (h : x.queue q = []) (w : W128) (cyc : Nat) : x.pushed q w cyc =
    { x.setQueue q [w] with qfree := sset x.qfree q (max (sget x.qfree q 0) (cyc + 1)) } := by
  rw [Tile.pushed, h]
  simp only [List.isEmpty_nil, if_true, List.nil_append, setQueue_qfree]

/-! Descriptor banks (R220) -/

theorem pow_256 (n : Nat) : 256 ^ n = 2 ^ (8 * n) := Nat.pow_mul 2 8 n ▸ rfl

theorem leNat_natLe_toNat {n : Nat} (v : BitVec (8 * n)) : leNat (natLe n v.toNat) = v.toNat := by
  rw [leNat_natLe, pow_256, Nat.mod_eq_of_lt v.isLt]

theorem descBytes_setDesc_self (x : Tile) (bank slot : Nat) (bs : List Byte) : (x.setDesc bank slot bs).descBytes bank slot = bs := by
  unfold Tile.descBytes Tile.setDesc
  split <;> simp only [sget_sset_self]

theorem descBytes_setDesc_slot (x : Tile) (bank : Nat) {slot j : Nat} (bs : List Byte) (h : j ≠ slot) :
    (x.setDesc bank slot bs).descBytes bank j = x.descBytes bank j := by
  unfold Tile.descBytes Tile.setDesc
  split <;> exact sget_sset_ne _ _ _ h

/-- Bank 0 and the others stand apart. -/
theorem descBytes_setDesc_bank (x : Tile) {bank i : Nat} (slot j : Nat) (bs : List Byte) (h : i ≠ bank) (h' : i = 0 ∨ bank = 0) :
    (x.setDesc bank slot bs).descBytes i j = x.descBytes i j := by
  unfold Tile.descBytes Tile.setDesc
  by_cases hb : bank = 0
  · rw [if_pos hb, if_neg (by omega), if_neg (by omega)]
  · rw [if_neg hb, if_pos (by omega), if_pos (by omega)]

/-! Tokens (R23) -/

/-- The wait token of the word that a `T.TWAIT` stands for. -/
theorem wtok_token {tok : Nat} (h : tok < 64) : wtok (tok * 2 ^ 106) = tok := by
  rw [wtok, bits, Nat.shiftRight_eq_div_pow, Nat.mul_div_cancel _ (Nat.two_pow_pos _)]
  exact Nat.mod_eq_of_lt h

theorem twaitOk_of_empty {p : Pkg} {c : Clock} {k tok : Nat} (h : tok < 64) (hn : tok ≠ 0)
    (ht : (tile p k).tokAt tok (cycleOf p c (tile p k).start) = 0) : twaitOk p c k tok = false := by
  have hok : (tile p k).tokOk (tok * 2 ^ 106) (cycleOf p c (tile p k).start) = false := by
    rw [Tile.tokOk, wtok_token h, ht, beq_eq_false_iff_ne.mpr hn]
    rfl
  simp only [twaitOk, hok, Bool.false_and]

theorem token_check {k tok : Nat} (hk : k < 128) (hn : tok ≠ 0) : (isTileCore k && tok != 0) = true := by
  rw [isTileCore_of_lt hk, Bool.true_and, bne_iff_ne]
  exact hn

/-! What the instructions of a forager do -/

section
variable {s : State} {k : Fin 216} (hr : Safety.Runs s k) (hk : k.val < 128)
include hr hk

theorem tQpush_pushes {q : Fin 4} (a b : Fin 32) (hq : ((tile s.pkg k).queue q).length < 128) : exec (.tQpush k q a b) s =
    .next (Safety.withPkg s (setCore (setTile s.pkg k ((tile s.pkg k).pushed q ((core s.pkg k).xget b ++ (core s.pkg k).xget a)
      (cycleOf s.pkg s.clk (tile s.pkg k).start))) k (Safety.atRest (Safety.stepped s k)))) := by
  rw [exec_tQpush, execTQpush, if_neg (fun h => Nat.not_le.mpr hq h.2)]
  exact scalar_completes hr (cneed_bind_pass (isTileCore_of_lt hk))

theorem tDscw_writes (slot : Fin 64) (a : Fin 32) : exec (.tDscw k slot a) s =
    .next (Safety.withPkg s (setCore (setTile s.pkg k ((tile s.pkg k).setDesc (tile s.pkg k).bank slot (natLe 64 ((core s.pkg k).vget a).toNat)))
      k (Safety.atRest (Safety.stepped s k)))) :=
  exec_tDscw.trans (scalar_completes hr (cneed_bind_pass (isTileCore_of_lt hk)))

variable {slot : Fin 64} (hn : slot.val ≠ 0)
include hn

theorem tTwait_takes (hw : twaitOk s.pkg s.clk k slot = true) : exec (.tTwait k slot) s =
    .next (Safety.withPkg s (setCore (setTile s.pkg k ((tile s.pkg k).takeTok slot (cycleOf s.pkg s.clk (tile s.pkg k).start))) k
      (Safety.atRest (Safety.stepped s k)))) := by
  rw [exec_tTwait, execTTwait, if_neg (fun h => Bool.false_ne_true (h.2.2.symm.trans hw))]
  exact scalar_completes hr (cneed_bind_pass (token_check hk hn))

/-- A signal that does not pass 255. -/
theorem tTsig_signals {y : Tile} (hy : (tile s.pkg k).signalTok slot (cycleOf s.pkg s.clk (tile s.pkg k).start) = some y) :
    exec (.tTsig k slot) s = .next (Safety.withPkg s (setCore (setTile s.pkg k y) k (Safety.atRest (Safety.stepped s k)))) :=
  exec_tTsig.trans (scalar_completes hr ((cneed_bind_pass (token_check hk hn)).trans (by simp only [hy])))

theorem tTsig_overflows (hy : (tile s.pkg k).signalTok slot (cycleOf s.pkg s.clk (tile s.pkg k).start) = none) : exec (.tTsig k slot) s =
    .next (Safety.withPkg s (setCore (planFault s.pkg s.clk k 0x03 0 0 0) k (Safety.atRest (Safety.stepped s k)))) :=
  exec_tTsig.trans (scalar_completes hr ((cneed_bind_pass (token_check hk hn)).trans (by simp only [hy])))

end

/-- Settles O53: what each instruction leaves, then the rules of queues, descriptor banks and tokens. -/
theorem tileInterface : Obligations.TileInterface := by
  intro s k q slot rd a b hr hk x y t cyc with_
  refine ⟨fun hq => ⟨fun hne => ?tail, fun he => ?empty⟩, fun hq => exec_tQpush.trans (if_pos ⟨isTileCore_of_lt hk, hq⟩), ?dscw,
    exec_tDscr.trans (scalar_goes_on hr (cneed_bind_pass (isTileCore_of_lt hk))),
    fun hn => ⟨exec_tTread.trans (scalar_goes_on hr (cneed_bind_pass (token_check hk hn))), tTwait_takes hr hk hn,
      fun hw => exec_tTwait.trans (if_pos ⟨isTileCore_of_lt hk, hn, hw⟩), twaitOk_of_empty slot.isLt hn, fun hc => ?signal, fun hc => ?overflow⟩⟩
  case tail => rw [tQpush_pushes hr hk a b hq, pushed_of_nonempty hne]
  case empty => rw [tQpush_pushes hr hk a b hq, pushed_of_empty he]
  case dscw =>
    refine ⟨_, tDscw_writes hr hk slot rd, ?_, fun j hj => ?_, fun i j hi h0 => ?_, core_setCore_self .., rfl⟩
    · rw [tile_setCore, tile_setTile_self, descBytes_setDesc_self]
      exact leNat_natLe_toNat (n := 64) _
    · rw [tile_setCore, tile_setTile_self]
      exact descBytes_setDesc_slot _ _ _ hj
    · rw [tile_setCore, tile_setTile_self]
      exact descBytes_setDesc_bank _ _ _ _ hi h0
  case signal =>
    obtain ⟨z, hz⟩ := Option.ne_none_iff_exists'.mp (mt (signalTok_eq_none (x := t) (c := cyc) hn).mp (Nat.not_le.mpr hc))
    obtain ⟨m, -, -, -, hm⟩ := signalTok_eq_some hz
    obtain ⟨hcount, hat⟩ := hm hn
    refine ⟨_, tTsig_signals hr hk hn hz, core_setCore_self .., ?_, fun hp => ?_⟩
    · rw [tile_setCore, tile_setTile_self, hcount]
    · rw [tile_setCore, tile_setTile_self, (hat hp).1]
  case overflow =>
    refine ⟨_, tTsig_overflows hr hk hn ((signalTok_eq_none hn).mpr hc), ?_, ?_⟩
    · rw [tile_setCore, tile_planFault]
    · rw [rget_setCore, rget_planFault_fault]
      rfl

end Sys2Proof.Machine
end

section
/-! PROOFS. What a core's access to scratchpad bytes within its reach reads and stores (R33, R216, R217, R218, Table 9.3). -/

namespace Sys2Proof.Machine

/-! Bytes of memory as numbers -/

theorem mnat_lt (m : Mem) (a n : Nat) : mnat m a n < 2 ^ (8 * n) := by
  have h := leNat_lt (mread m a n)
  rwa [length_mread, pow_256] at h

/-- The bytes of a number, read back. -/
theorem mnat_mwrite_natLe {m : Mem} (hm : memWf m = true) (a n v : Nat) : mnat (mwrite m a (natLe n v)) a n = v % 2 ^ (8 * n) := by
  have h := mread_mwrite (natLe n v) m a hm
  rw [natLe_length] at h
  rw [mnat, h, leNat_natLe, pow_256]

/-- Bytes that a write does not meet. -/
theorem mnat_mwrite_outside (m : Mem) (bs : List Byte) {a b n : Nat} (h : b + n ≤ a ∨ a + bs.length ≤ b) :
    mnat (mwrite m a bs) b n = mnat m b n := by
  have e : mread (mwrite m a bs) b n = mread m b n := by
    refine List.map_congr_left fun i hi => mget_mwrite_outside bs m a (b + i) ?_
    have := List.mem_range.mp hi
    omega
  rw [mnat, e, mnat]

/-! Accesses in a package without erroneous lines (R251, R252) -/

/-- No line of the package is erroneous. -/
def Clean (p : Pkg) : Prop := p.badLines = [] ∧ p.ceLines = []

theorem storeBytes_of_clean {p : Pkg} (h : Clean p) (a : Nat) (bs : List Byte) : storeBytes p a bs = { p with mem := mwrite p.mem a bs } := by
  unfold storeBytes
  simp only [h.1, h.2, List.isEmpty_nil, Bool.and_self, if_true]

theorem readMem_of_clean {p : Pkg} (h : Clean p) (c : Clock) {a n : Nat} (ha : a < combBase 0) :
    readMem p c a n = (p, .ok (mread p.mem a n)) := by
  have hv : viewAt p a = p.mem := if_neg fun hc => absurd hc.1 (Nat.not_le.mpr ha)
  unfold readMem
  simp only [firstBad_of_noBad h.1, noteCes_of_noCe h.2, hv]

theorem writeMem_of_clean {p : Pkg} (h : Clean p) (c : Clock) {a : Nat} (bs : List Byte) (ha : hbmEnd ≤ a) :
    writeMem p c a bs = ({ p with mem := mwrite p.mem a bs }, .ok []) := by
  have hh : isHbm a = false := decide_eq_false (Nat.not_lt.mpr ha)
  unfold writeMem
  simp only [firstBad_of_noBad h.1, hh, Bool.false_eq_true, if_false, storeBytes_of_clean h]

theorem served_ok {p : Pkg} (h : Clean p) (lines : List (Nat × Nat)) (q : Pkg) (bs : List Byte) : served p lines (q, .ok bs) = .ok (q, bs) := by
  unfold served
  simp only [firstBad_of_noBad h.1]

/-! Slices (R288) -/

theorem slice_range {p : Pkg} {a n t : Nat} (h : target p a n = some (.slice t)) : hbmEnd ≤ a ∧ a < combBase 0 := by
  have hrange : 0x200000000000 ≤ a ∧ a < 0x200200000000 := by
    by_contra hne
    rw [target, if_neg hne] at h
    split_ifs at h <;> simp at h
  unfold hbmEnd combBase
  omega

/-- The own window of a core that has one. -/
theorem inOwn_iff {k a n : Nat} : inOwn k a n = true ↔ ∃ b, ownBase k = some b ∧ b ≤ a ∧ a + n ≤ b + 0x1E00000 := by
  unfold inOwn
  cases ownBase k with
  | none => simp
  | some b => simp

theorem ownBase_lt {k b : Nat} (hk : k < 216) (h : ownBase k = some b) : hbmEnd ≤ b ∧ b + 0x1E00000 < combBase 0 := by
  unfold ownBase sliceBase at h
  unfold hbmEnd combBase
  split_ifs at h <;> simp only [Option.some.injEq] at h <;> omega

theorem inOwn_range {k a n : Nat} (hk : k < 216) (h : inOwn k a n = true) : hbmEnd ≤ a ∧ a < combBase 0 := by
  obtain ⟨b, hb, hlo, hhi⟩ := inOwn_iff.mp h
  obtain ⟨h1, h2⟩ := ownBase_lt hk hb
  omega

/-! The reach of a core (Table 9.3) -/

/-- n bytes that core x, number k, reaches in scratchpad slices: in scheduled mode in its own, in service mode in one in service, or in
the own one of a spare tile's forager. -/
def Reaches (p : Pkg) (k : Nat) (x : Core) (a n : Nat) : Prop :=
  (x.sched = true ∧ sliceBase k ≤ a ∧ a + n ≤ sliceBase k + 0x1E00000) ∨
  (x.sched = false ∧ retired p = false ∧ 0 < n ∧ n ≤ 4096 ∧
    ((k < 200 ∧ ∃ t, target p a n = some (.slice t)) ∨ (200 ≤ k ∧ inOwn k a n = true)))

/-- What a core reads memory as (R33, R217). -/
def viewFor (p : Pkg) (c : Clock) (x : Core) : Mem := if x.sched then coreView p c x else p.mem

section
variable {p : Pkg} (hp : Clean p) {k : Nat} (hk : k < 216) {x : Core} {a n : Nat} (h : Reaches p k x a n) (c : Clock)
include hp hk h

/-- A direct read within reach is of the bytes there, and changes nothing. -/
theorem coreLoad_reaches (ha : a % n = 0) (vec : Bool) : coreLoad p c k x false vec a n = .ok (p, x, mread (viewFor p c x) a n) := by
  unfold coreLoad viewFor
  rw [cneed_bind_pass (beq_iff_eq.mpr ha)]
  rcases h with ⟨hs, hlo, hhi⟩ | ⟨hs, hr, hn, hn', hplace⟩
  · simp only [hs, schedPlace_own p hlo hhi, firstBad_of_noBad hp.1, noteCes_of_noCe hp.2, if_true]
    rfl
  · rcases hplace with ⟨hk', t, ht⟩ | ⟨hk', hown⟩
    · have hcomb := (slice_range ht).2
      have hk'' : (decide (200 ≤ k) && inOwn k a n) = false := by rw [decide_eq_false (by omega)]; rfl
      have hl : srvLoad p c a n = (p, .ok (mread p.mem a n)) := by
        unfold srvLoad
        rw [if_neg (by rw [hr]; decide), if_neg (by omega), ht]
        exact readMem_of_clean hp c hcomb
      simp only [hs, hk'', ht, hl, served_ok hp, Bool.false_eq_true, if_false]
      rfl
    · have hk'' : (decide (200 ≤ k) && inOwn k a n) = true := by rw [decide_eq_true hk', hown]; rfl
      simp only [hs, hk'', readMem_of_clean hp c (inOwn_range hk hown).2, served_ok hp, Bool.false_eq_true, if_false, if_true]
      rfl

end

/-! Stores -/

theorem noteOuts_eq (p : Pkg) (l : Option Nat) (rs : List (Nat × Nat)) : ∃ y, noteOuts p l rs = { p with launches := y } := by
  cases l with
  | none => exact ⟨p.launches, rfl⟩
  | some l => exact ⟨_, rfl⟩

/-- What a core's stores leave: memory m in the package, which else differs in the old contents it keeps and in what it notes of launches;
and of the core its data cache and the stores it remembers. -/
structure Stored (p q : Pkg) (x y : Core) (m : Mem) : Prop where
  pkg : ∃ f l, q = { p with mem := m, fresh := f, launches := l }
  core : ∃ d st, y = { x with dcache := d, stored := st }

namespace Stored

variable {p q r : Pkg} {x y z : Core} {m m' : Mem}

theorem refl (p : Pkg) (x : Core) : Stored p p x x p.mem := ⟨⟨p.fresh, p.launches, rfl⟩, ⟨x.dcache, x.stored, rfl⟩⟩

theorem trans (h : Stored p q x y m) (h' : Stored q r y z m') : Stored p r x z m' := by
  obtain ⟨⟨f, l, rfl⟩, ⟨d, st, rfl⟩⟩ := h
  obtain ⟨⟨f', l', rfl⟩, ⟨d', st', rfl⟩⟩ := h'
  exact ⟨⟨f', l', rfl⟩, ⟨d', st', rfl⟩⟩

theorem mem (h : Stored p q x y m) : q.mem = m := by obtain ⟨⟨_, _, rfl⟩, _⟩ := h; rfl
theorem regs (h : Stored p q x y m) : q.regs = p.regs := by obtain ⟨⟨_, _, rfl⟩, _⟩ := h; rfl
theorem tiles (h : Stored p q x y m) : q.tiles = p.tiles := by obtain ⟨⟨_, _, rfl⟩, _⟩ := h; rfl
theorem outs (h : Stored p q x y m) : q.outs = p.outs := by obtain ⟨⟨_, _, rfl⟩, _⟩ := h; rfl
theorem clean (h : Stored p q x y m) (hp : Clean p) : Clean q := by obtain ⟨⟨_, _, rfl⟩, _⟩ := h; exact hp
theorem xs (h : Stored p q x y m) : y.xs = x.xs := by obtain ⟨_, _, _, rfl⟩ := h; rfl
theorem vs (h : Stored p q x y m) : y.vs = x.vs := by obtain ⟨_, _, _, rfl⟩ := h; rfl
theorem pc (h : Stored p q x y m) : y.pc = x.pc := by obtain ⟨_, _, _, rfl⟩ := h; rfl
theorem xget (h : Stored p q x y m) (i : Nat) : y.xget i = x.xget i := by obtain ⟨_, _, _, rfl⟩ := h; rfl

/-- What a core reaches does not change by its stores. -/
theorem reaches {k a n : Nat} (h : Stored p q x y m) (hr : Reaches p k x a n) : Reaches q k y a n := by
  obtain ⟨⟨_, _, rfl⟩, ⟨_, _, rfl⟩⟩ := h
  exact hr

end Stored

section
variable {p : Pkg} (hp : Clean p) {k : Nat} (hk : k < 216) {x : Core} {a : Nat} {bs : List Byte} (h : Reaches p k x a bs.length) (c : Clock)
include hp hk h

/-- A store within reach writes its bytes. -/
theorem coreStore_reaches {align : Nat} (ha : a % align = 0) :
    ∃ q y, coreStore p c k x a align bs = .ok (q, y) ∧ Stored p q x y (mwrite p.mem a bs) := by
  unfold coreStore
  rw [cneed_bind_pass (beq_iff_eq.mpr ha)]
  rcases h with ⟨hs, hlo, hhi⟩ | ⟨hs, hr, hn, hn', hplace⟩
  · obtain ⟨l, hl⟩ := noteOuts_eq (keepOld p c [(a, bs.length)]) (tile p k).launch [(a, bs.length)]
    have hc : Clean { keepOld p c [(a, bs.length)] with launches := l } := hp
    simp only [hs, schedPlace_own p hlo hhi, firstBad_of_noBad hp.1, if_true, hl, storeBytes_of_clean hc]
    exact ⟨_, _, rfl, ⟨_, _, rfl⟩, ⟨_, _, rfl⟩⟩
  · rcases hplace with ⟨hk', t, ht⟩ | ⟨hk', hown⟩
    · have hk'' : (decide (200 ≤ k) && inOwn k a bs.length) = false := by rw [decide_eq_false (by omega)]; rfl
      have hl : srvStore p c a bs = ({ p with mem := mwrite p.mem a bs }, .ok []) := by
        unfold srvStore
        rw [if_neg (by rw [hr]; decide), if_neg (by omega), ht]
        exact writeMem_of_clean hp c bs (slice_range ht).1
      simp only [hs, hk'', ht, hl, served_ok hp, Bool.false_eq_true, if_false]
      exact ⟨_, _, rfl, ⟨_, _, rfl⟩, ⟨_, _, rfl⟩⟩
    · have hk'' : (decide (200 ≤ k) && inOwn k a bs.length) = true := by rw [decide_eq_true hk', hown]; rfl
      simp only [hs, hk'', writeMem_of_clean hp c bs (inOwn_range hk hown).1, served_ok hp, Bool.false_eq_true, if_false, if_true]
      exact ⟨_, _, rfl, ⟨_, _, rfl⟩, ⟨_, _, rfl⟩⟩

end

/-! Atomics of the own slice (R218) -/

/-- Memory after an atomic: the new word where there is one. -/
def wordPut (m : Mem) (a : Nat) (v : Option W64) : Mem := v.elim m fun v => mwrite m a (natLe 8 v.toNat)

theorem ownAtomic_reaches {p : Pkg} (hp : Clean p) {k : Nat} (hk : k < 216) {x : Core} {a : Nat} (h : Reaches p k x a 8) (c : Clock)
    (ha : a % 8 = 0) (hown : inOwn k a 8 = true) (rd : Nat) (f : W64 → Option W64) :
    ∃ q y, ownAtomic p c k x rd a f = .ok (q, y.xset rd (BitVec.ofNat 64 (mnat p.mem a 8))) ∧
      Stored p q x y (wordPut p.mem a (f (BitVec.ofNat 64 (mnat p.mem a 8)))) := by
  unfold ownAtomic
  rw [cneed_bind_pass (beq_iff_eq.mpr ha), cneed_bind_pass hown, readMem_of_clean hp c (inOwn_range hk hown).2, served_ok hp]
  cases hf : f (BitVec.ofNat 64 (mnat p.mem a 8)) with
  | none =>
    refine ⟨p, x, ?_, Stored.refl p x⟩
    rw [mnat] at hf
    simp only [coreR_ok_bind, hf]
    rfl
  | some v =>
    have hl : Reaches p k x a (natLe 8 v.toNat).length := by rwa [natLe_length]
    obtain ⟨q, y, he, hst⟩ := coreStore_reaches hp hk hl c ha
    refine ⟨q, y, ?_, hst⟩
    rw [mnat] at hf
    simp only [coreR_ok_bind, hf, he]
    rfl

end Sys2Proof.Machine
end

section
/-! PROOFS. Loads, stores and atomics of a core (R209, R210, R216 to R218, R229): O50. -/

namespace Sys2Proof.Machine

section
variable {s : State} {k : Fin 216} {w : MemWidth} {rd rs1 rs2 : Fin 32} {imm : Int} {direct : Bool}

theorem exec_lLoad : exec (.lLoad k direct w rd rs1 imm) s = execLLoad k direct w rd rs1 imm s := rfl
theorem exec_sStore : exec (.sStore k w rs2 rs1 imm) s = execSStore k w rs2 rs1 imm s := rfl
theorem exec_aAdd64 : exec (.aAdd64 k rd rs1 rs2) s = execAAdd64 k rd rs1 rs2 s := rfl
theorem exec_aCas64 : exec (.aCas64 k rd rs1 rs2) s = execACas64 k rd rs1 rs2 s := rfl

end

theorem memBytes_pos (w : MemWidth) : 0 < memBytes w := by cases w <;> decide

@[simp] theorem stepped_effAddr (s : State) (k r : Nat) (imm : Int) : effAddr (Safety.stepped s k) r imm = effAddr (core s.pkg k) r imm := rfl
@[simp] theorem stepped_dcLine (s : State) (k l : Nat) : (Safety.stepped s k).dcLine l = (core s.pkg k).dcLine l := rfl

/-! Integer registers -/

theorem xget_xset_self (x : Core) {r : Nat} (v : W64) (h : r ≠ 0) : (x.xset r v).xget r = v := by
  rw [Core.xset, if_neg h, Core.xget, if_neg h, sget_sset_self]

theorem xget_xset_ne (x : Core) {r i : Nat} (v : W64) (h : i ≠ r) : (x.xset r v).xget i = x.xget i := by
  unfold Core.xset
  split
  · rfl
  · rw [Core.xget, sget_sset_ne _ _ _ h, Core.xget]

@[simp] theorem xset_pc (x : Core) (r : Nat) (v : W64) : (x.xset r v).pc = x.pc := by
  unfold Core.xset
  split <;> rfl

@[simp] theorem xget_atRest (x : Core) (r : Nat) : (Safety.atRest x).xget r = x.xget r := rfl

/-! The accesses that the statements speak of lie within reach -/

section
variable {s : State} {k a n : Nat}

theorem viewFor_stepped (s : State) (k : Nat) : viewFor s.pkg s.clk (Safety.stepped s k) = Safety.viewOf s k := rfl

theorem viewOf_scheduled (h : (core s.pkg k).sched = true) : Safety.viewOf s k = Safety.seen s k := if_pos h

theorem viewOf_service (h : (core s.pkg k).sched = false) : Safety.viewOf s k = s.pkg.mem := if_neg (by rw [h]; decide)

theorem OwnBytes.reaches (h : Safety.OwnBytes s k a n) : Clean s.pkg ∧ Reaches s.pkg k (Safety.stepped s k) a n := by
  obtain ⟨_, hs, hb, hce, _, hlo, hhi⟩ := h
  exact ⟨⟨hb, hce⟩, .inl ⟨hs, hlo, hhi⟩⟩

theorem SliceBytes.reaches (h : Safety.SliceBytes s k a n) : Clean s.pkg ∧ Reaches s.pkg k (Safety.stepped s k) a n := by
  obtain ⟨hs, hr, hb, hce, hn, hn', hplace⟩ := h
  exact ⟨⟨hb, hce⟩, .inr ⟨hs, hr, hn, hn', hplace⟩⟩

end

/-! Loads and stores within reach -/

section
variable {s : State} {k : Fin 216} (hr : Safety.Runs s k) (rd a b : Fin 32) (imm : Int) (w : MemWidth) (hp : Clean s.pkg)
  (h : Reaches s.pkg k (Safety.stepped s k) (effAddr (core s.pkg k) a imm) (memBytes w)) (ha : effAddr (core s.pkg k) a imm % memBytes w = 0)
include hr hp h ha

/-- A direct load takes the bytes as the core reads memory. -/
theorem lLoad_direct : exec (.lLoad k true w rd a imm) s = .next (Safety.goneOn s k ((Safety.stepped s k).xset rd
    (extendTo64 (8 * memBytes w) (mnat (Safety.viewOf s k) (effAddr (core s.pkg k) a imm) (memBytes w))))) := by
  refine exec_lLoad.trans (scalar_goes_on hr ?_)
  simp only [Bool.not_true, stepped_effAddr, coreLoad_reaches hp k.isLt h s.clk ha, viewFor_stepped]
  rfl

/-- A store writes its bytes, and of the machine nothing else that the statements name. -/
theorem sStore_stores (hm : memWf s.pkg.mem = true) : ∃ u, exec (.sStore k w b a imm) s = .next u ∧
    mnat u.pkg.mem (effAddr (core s.pkg k) a imm) (memBytes w) = ((core s.pkg k).xget b).toNat % 2 ^ (8 * memBytes w) ∧
    (∀ c, (c < effAddr (core s.pkg k) a imm ∨ effAddr (core s.pkg k) a imm + memBytes w ≤ c) → mget u.pkg.mem c = mget s.pkg.mem c) ∧
    (core u.pkg k).xs = (core s.pkg k).xs ∧ (core u.pkg k).pc = (core s.pkg k).pc + 4 ∧ u.pkg.regs = s.pkg.regs ∧ u.pkg.tiles = s.pkg.tiles := by
  have hl : Reaches s.pkg k (Safety.stepped s k) (effAddr (core s.pkg k) a imm) (natLe (memBytes w) ((core s.pkg k).xget b).toNat).length := by
    rwa [natLe_length]
  obtain ⟨q, y, he, hst⟩ := coreStore_reaches hp k.isLt hl s.clk ha
  refine ⟨_, exec_sStore.trans (scalar_completes hr he), ?_, fun c hc => ?_, ?_, ?_, hst.regs, hst.tiles⟩
  · rw [setCore_mem, hst.mem, mnat_mwrite_natLe hm]
  · rw [setCore_mem, hst.mem, mget_mwrite_outside _ _ _ _ (by rwa [natLe_length])]
  · rw [core_setCore_self]; exact hst.xs
  · rw [core_setCore_self]; exact hst.pc

end

/-! Cached loads of a scheduled forager (R216) -/

/-- The line that a cached load finds: in the data cache, or, where it is not there, in memory. -/
def cachedLine (p : Pkg) (c : Clock) (x : Core) (l : Nat) : List Byte := (x.dcLine l).getD (mread (coreView p c x) l 64)

theorem coreLoad_cached {p : Pkg} (hp : Clean p) {k : Nat} {x : Core} {a n : Nat} (hs : x.sched = true) (hlo : sliceBase k ≤ a)
    (hhi : a + n ≤ sliceBase k + 0x1E00000) (c : Clock) (ha : a % n = 0) (vec : Bool) : coreLoad p c k x true vec a n =
    .ok (p, x.dcUse (a / 64 * 64) (cachedLine p c x (a / 64 * 64)), ((cachedLine p c x (a / 64 * 64)).drop (a % 64)).take n) := by
  have hoff : a - a / 64 * 64 = a % 64 := by omega
  unfold coreLoad cachedLine
  rw [cneed_bind_pass (beq_iff_eq.mpr ha)]
  simp only [hs, schedPlace_own p hlo hhi, hoff, if_true]
  cases hl : x.dcLine (a / 64 * 64) with
  | none =>
    simp only [firstBad_of_noBad hp.1, noteCes_of_noCe hp.2]
    rfl
  | some line => rfl

theorem lLoad_cached {s : State} {k : Fin 216} (hr : Safety.Runs s k) (rd a : Fin 32) (imm : Int) (w : MemWidth)
    (h : Safety.OwnAccess s k (effAddr (core s.pkg k) a imm) (memBytes w)) {line : List Byte}
    (hl : cachedLine s.pkg s.clk (Safety.stepped s k) (effAddr (core s.pkg k) a imm / 64 * 64) = line) :
    exec (.lLoad k false w rd a imm) s = .next (Safety.goneOn s k
      (((Safety.stepped s k).dcUse (effAddr (core s.pkg k) a imm / 64 * 64) line).xset rd
        (extendTo64 (8 * memBytes w) (leNat ((line.drop (effAddr (core s.pkg k) a imm % 64)).take (memBytes w)))))) := by
  obtain ⟨⟨_, hs, hb, hce, _, hlo, hhi⟩, ha⟩ := h
  refine exec_lLoad.trans (scalar_goes_on hr ?_)
  simp only [Bool.not_false, stepped_effAddr,
    coreLoad_cached ⟨hb, hce⟩ (show (Safety.stepped s k).sched = true from hs) hlo hhi s.clk ha, hl]
  rfl

/-! HBM from service mode (R210) -/

/-- An instruction that needs bytes of HBM sends its requests and stays. -/
theorem scalar_waits {s : State} {k sub : Nat} {rs : List HbmReq} {f : Clock → Pkg → Core → CoreR (Pkg × Core)} (hr : Safety.Runs s k)
    (hrs : rs.isEmpty = false) (hf : f s.clk s.pkg (Safety.stepped s k) = .error { sub := sub, want := rs }) :
    coreExec k false s f = .next (Safety.withPkg s (setCore (enqueueAll s.pkg 4 rs) k { core s.pkg k with asked := rs.length })) := by
  rw [coreExec_of_runs (vec := false) hr nofun, hf]
  simp only [hrs, Bool.false_eq_true, if_false]

theorem target_hbm {p : Pkg} {a n : Nat} (h : a + n ≤ hbmUserEnd) : target p a n = some .hbm := if_pos h

theorem isKeeper_of_lt {k : Nat} (h : k < 192) : isKeeper k = false := by
  rw [isKeeper, decide_eq_false (by omega), Bool.false_and]

theorem linesOf_ne_nil {a n : Nat} (h : 0 < n) : linesOf a n ≠ [] := by
  rw [linesOf, if_neg (by omega)]
  simp

theorem loadReqs_isEmpty (who : Who) {a n : Nat} (h : 0 < n) : (loadReqs who a n).isEmpty = false := by
  rw [List.isEmpty_eq_false_iff, loadReqs]
  exact fun he => linesOf_ne_nil h (List.map_eq_nil_iff.mp he)

section
variable {s : State} {k : Fin 216} (hr : Safety.Runs s k) (rd a b : Fin 32) (imm : Int) (w : MemWidth)
  (hs : (core s.pkg k).sched = false) (hk : k.val < 128) (hret : retired s.pkg = false)
  (ha : effAddr (core s.pkg k) a imm % memBytes w = 0) (hend : effAddr (core s.pkg k) a imm + memBytes w ≤ hbmUserEnd)
include hr hs hk hret ha hend

omit hr in
/-- A direct load of HBM asks for its bytes, or takes what came. -/
theorem coreLoad_hbm : coreLoad s.pkg s.clk k (Safety.stepped s k) false false (effAddr (core s.pkg k) a imm) (memBytes w) =
    (grantOr (Safety.stepped s k) (effAddr (core s.pkg k) a imm) (loadReqs (.core k) (effAddr (core s.pkg k) a imm) (memBytes w))).map
      (fun bs => (s.pkg, Safety.stepped s k, bs)) := by
  have hk' : (decide (200 ≤ k.val) && inOwn k (effAddr (core s.pkg k) a imm) (memBytes w)) = false := by
    rw [decide_eq_false (by omega)]; rfl
  unfold coreLoad hbmLoad
  rw [cneed_bind_pass (beq_iff_eq.mpr ha)]
  simp only [show (Safety.stepped s k).sched = false from hs, hk', target_hbm hend, isKeeper_of_lt (Nat.lt_trans hk (by decide)), hret,
    Bool.false_eq_true, if_false, Bool.not_false, Bool.false_and]
  rfl

theorem lLoad_asks (hg : (core s.pkg k).grant = []) : exec (.lLoad k true w rd a imm) s = .next (Safety.withPkg s
    (setCore (enqueueAll s.pkg 4 (loadReqs (.core k) (effAddr (core s.pkg k) a imm) (memBytes w))) k
      { core s.pkg k with asked := (loadReqs (.core k) (effAddr (core s.pkg k) a imm) (memBytes w)).length })) := by
  have hgr : grantOr (Safety.stepped s k) (effAddr (core s.pkg k) a imm) (loadReqs (.core k) (effAddr (core s.pkg k) a imm) (memBytes w)) =
      .error { sub := 0x100, want := loadReqs (.core k) (effAddr (core s.pkg k) a imm) (memBytes w) } := by
    rw [grantOr, show (Safety.stepped s k).grant = [] from hg]
    rfl
  refine exec_lLoad.trans (scalar_waits (sub := 0x100) hr (loadReqs_isEmpty _ (memBytes_pos w)) ?_)
  simp only [Bool.not_true, stepped_effAddr, coreLoad_hbm a imm w hs hk hret ha hend, hgr]
  rfl

theorem lLoad_granted {bs : List Byte} (hg : (core s.pkg k).grant.find? (fun g => g.1 == effAddr (core s.pkg k) a imm) =
      some (effAddr (core s.pkg k) a imm, bs, false)) :
    exec (.lLoad k true w rd a imm) s = .next (Safety.goneOn s k ((Safety.stepped s k).xset rd (extendTo64 (8 * memBytes w) (leNat bs)))) := by
  have hgr : grantOr (Safety.stepped s k) (effAddr (core s.pkg k) a imm) (loadReqs (.core k) (effAddr (core s.pkg k) a imm) (memBytes w)) =
      .ok bs := by
    rw [grantOr, show (Safety.stepped s k).grant = (core s.pkg k).grant from rfl, hg]
    rfl
  refine exec_lLoad.trans (scalar_goes_on hr ?_)
  simp only [Bool.not_true, stepped_effAddr, coreLoad_hbm a imm w hs hk hret ha hend, hgr]
  rfl

theorem sStore_asks : exec (.sStore k w b a imm) s = .next (Safety.withPkg s
    (setCore (enqueueAll s.pkg 4 (hbmStore k (effAddr (core s.pkg k) a imm) (natLe (memBytes w) ((core s.pkg k).xget b).toNat))) k
      (Safety.atRest ((Safety.stepped s k).cacheStore (effAddr (core s.pkg k) a imm) (natLe (memBytes w) ((core s.pkg k).xget b).toNat))))) := by
  refine exec_sStore.trans (scalar_completes hr ?_)
  have hk' : (decide (200 ≤ k.val) && inOwn k (effAddr (core s.pkg k) a imm) (memBytes w)) = false := by
    rw [decide_eq_false (by omega)]; rfl
  rw [stepped_effAddr, stepped_xget]
  unfold coreStore
  rw [cneed_bind_pass (beq_iff_eq.mpr ha)]
  simp only [show (Safety.stepped s k).sched = false from hs, natLe_length, hk', target_hbm hend, hret, Bool.false_eq_true, if_false]
  rfl

end

/-! A load that does not reach (R229) -/

theorem schedPlace_low {p : Pkg} {k a n : Nat} (h : a < 0x1FFF00000000) : schedPlace p k a n = 3 := by
  have hb : ¬sliceBase k ≤ a := by unfold sliceBase; omega
  have hsl : isSlice a = false := by rw [isSlice, decide_eq_false (by omega), Bool.false_and]
  simp only [schedPlace, hb, hsl, false_and, if_false, Bool.false_eq_true]

theorem lLoad_stops {s : State} {k : Fin 216} (hr : Safety.Runs s k) (rd a : Fin 32) (imm : Int) (w : MemWidth)
    (hs : (core s.pkg k).sched = true)
    (h : effAddr (core s.pkg k) a imm % memBytes w ≠ 0 ∨ effAddr (core s.pkg k) a imm < 0x1FFF00000000) :
    ∃ u, exec (.lLoad k true w rd a imm) s = .next u ∧
      ForagerFault s u k (if effAddr (core s.pkg k) a imm % memBytes w ≠ 0 then 2 else 3) := by
  rw [exec_lLoad]
  refine scalar_stops hr hs (show (if effAddr (core s.pkg k) a imm % memBytes w ≠ 0 then 2 else 3) < 256 by split <;> decide) ?_
  simp only [Bool.not_true, stepped_effAddr]
  unfold coreLoad
  by_cases hal : effAddr (core s.pkg k) a imm % memBytes w = 0
  · rw [cneed_bind_pass (beq_iff_eq.mpr hal), if_neg (not_not_intro hal)]
    have hlow := h.resolve_left (not_not_intro hal)
    simp only [show (Safety.stepped s k).sched = true from hs, schedPlace_low hlow, if_true]
    rfl
  · rw [cneed_bind_fail (beq_eq_false_iff_ne.mpr hal), if_pos hal]
    rfl

/-! Atomics (R218) -/

theorem mget_wordPut_outside (m : Mem) {a c : Nat} (v : Option W64) (h : c < a ∨ a + 8 ≤ c) : mget (wordPut m a v) c = mget m c := by
  cases v with
  | none => rfl
  | some v => exact mget_mwrite_outside _ _ _ _ (by rwa [natLe_length])

theorem mnat_wordPut {m : Mem} (hm : memWf m = true) (a : Nat) (v : Option W64) :
    mnat (wordPut m a v) a 8 = v.elim (mnat m a 8) BitVec.toNat := by
  cases v with
  | none => rfl
  | some v => exact (mnat_mwrite_natLe hm a 8 v.toNat).trans (Nat.mod_eq_of_lt v.isLt)

theorem toNat_ofNat_mnat (m : Mem) (a : Nat) : (BitVec.ofNat 64 (mnat m a 8)).toNat = mnat m a 8 :=
  (BitVec.toNat_ofNat ..).trans (Nat.mod_eq_of_lt (mnat_lt m a 8))

/-- The word that a compare-and-swap leaves. -/
theorem swapped_word (m : Mem) (a : Nat) (cmp new : W64) :
    (if BitVec.ofNat 64 (mnat m a 8) = cmp then some new else none).elim (mnat m a 8) BitVec.toNat =
      if mnat m a 8 = cmp.toNat then new.toNat else mnat m a 8 := by
  have h : BitVec.ofNat 64 (mnat m a 8) = cmp ↔ mnat m a 8 = cmp.toNat := by rw [← BitVec.toNat_inj, toNat_ofNat_mnat]
  by_cases hc : mnat m a 8 = cmp.toNat
  · rw [if_pos hc, if_pos (h.mpr hc), Option.elim_some]
  · rw [if_neg hc, if_neg (mt h.mp hc), Option.elim_none]

/-- The word of an atomic in the own slice. -/
theorem own_word {s : State} {k a : Nat} (h : Safety.OwnAccess s k a 8 ∨ (Safety.SliceAccess s k a 8 ∧ inOwn k a 8 = true)) :
    Clean s.pkg ∧ Reaches s.pkg k (Safety.stepped s k) a 8 ∧ a % 8 = 0 ∧ inOwn k a 8 = true := by
  rcases h with ⟨hb, ha⟩ | ⟨⟨hb, ha⟩, hown⟩
  · obtain ⟨hp, hreach⟩ := OwnBytes.reaches hb
    obtain ⟨hk, _, _, _, _, hlo, hhi⟩ := hb
    exact ⟨hp, hreach, ha, inOwn_iff.mpr ⟨_, if_pos hk, hlo, hhi⟩⟩
  · exact ⟨(SliceBytes.reaches hb).1, (SliceBytes.reaches hb).2, ha, hown⟩

/-- An atomic leaves its word changed by g, and its register with the old one. -/
theorem atomic_completes {s : State} {k : Fin 216} {word : Nat} {rd : Fin 32} {g : W64 → Option W64}
    {f : Clock → Pkg → Core → CoreR (Pkg × Core)} (hr : Safety.Runs s k) (hm : memWf s.pkg.mem = true)
    (h : Safety.OwnAccess s k word 8 ∨ (Safety.SliceAccess s k word 8 ∧ inOwn k word 8 = true))
    (hf : f s.clk s.pkg (Safety.stepped s k) = ownAtomic s.pkg s.clk k (Safety.stepped s k) rd word g) :
    ∃ u, coreExec k false s f = .next u ∧
      mnat u.pkg.mem word 8 = (g (BitVec.ofNat 64 (mnat s.pkg.mem word 8))).elim (mnat s.pkg.mem word 8) BitVec.toNat ∧
      (rd ≠ 0 → (core u.pkg k).xget rd = BitVec.ofNat 64 (mnat s.pkg.mem word 8)) ∧
      (∀ r : Fin 32, r ≠ rd → (core u.pkg k).xget r = (core s.pkg k).xget r) ∧
      (∀ c, (c < word ∨ word + 8 ≤ c) → mget u.pkg.mem c = mget s.pkg.mem c) ∧ (core u.pkg k).pc = (core s.pkg k).pc + 4 := by
  obtain ⟨hp, hreach, ha, hown⟩ := own_word h
  obtain ⟨q, y, he, hst⟩ := ownAtomic_reaches hp k.isLt hreach s.clk ha hown rd g
  refine ⟨_, scalar_completes hr (hf.trans he), ?_, fun hrd => ?_, fun r hrd => ?_, fun c hc => ?_, ?_⟩
  · rw [setCore_mem, hst.mem, mnat_wordPut hm]
  · rw [core_setCore_self, xget_atRest, xget_xset_self _ _ (fun h0 => hrd (Fin.ext h0))]
  · rw [core_setCore_self, xget_atRest, xget_xset_ne _ _ (fun h0 => hrd (Fin.ext h0)), hst.xget, stepped_xget]
  · rw [setCore_mem, hst.mem, mget_wordPut_outside _ _ hc]
  · rw [core_setCore_self]
    exact (xset_pc ..).trans hst.pc

/-- Settles O50: accesses within reach by what they read and store, HBM by its requests, the others by their fault. -/
theorem ownSliceAccesses : Obligations.OwnSliceAccesses := by
  intro s k rd a b imm w hr hm x y e n word
  refine ⟨fun ⟨hb, ha⟩ => ?own, fun ⟨hb, ha⟩ => ?slice, fun hs hk hret ha hend => ?hbm, fun h => ⟨?add, ?cas⟩, fun hs hk h => ?stops⟩
  case own =>
    obtain ⟨hp, h⟩ := OwnBytes.reaches hb
    have hs : (core s.pkg k).sched = true := hb.2.1
    refine ⟨?_, fun hl => ?_, fun line hl => ?_, sStore_stores hr a b imm w hp h ha hm⟩
    · rw [lLoad_direct hr rd a imm w hp h ha, viewOf_scheduled hs]
    · exact lLoad_cached hr rd a imm w ⟨hb, ha⟩ (by rw [cachedLine, stepped_dcLine, hl]; rfl)
    · exact lLoad_cached hr rd a imm w ⟨hb, ha⟩ (by rw [cachedLine, stepped_dcLine, hl]; rfl)
  case slice =>
    obtain ⟨hp, h⟩ := SliceBytes.reaches hb
    refine ⟨?_, sStore_stores hr a b imm w hp h ha hm⟩
    rw [lLoad_direct hr rd a imm w hp h ha, viewOf_service hb.1]
  case hbm =>
    exact ⟨lLoad_asks hr rd a imm w hs hk hret ha hend, fun bs hg => lLoad_granted hr rd a imm w hs hk hret ha hend hg,
      sStore_asks hr a b imm w hs hk hret ha hend⟩
  case add =>
    obtain ⟨u, hu, hw, hrest⟩ := atomic_completes (f := fun c p x => ownAtomic p c k x rd (x.xget a).toNat (fun o => some (o + x.xget b))) hr hm h rfl
    refine ⟨u, exec_aAdd64.trans hu, hw.trans ?_, hrest⟩
    rw [Option.elim_some, BitVec.toNat_add, toNat_ofNat_mnat]
    rfl
  case cas =>
    obtain ⟨u, hu, hw, hrest⟩ := atomic_completes (f := fun c p x => ownAtomic p c k x rd (x.xget a).toNat
      (fun o => if o = x.xget rd then some (x.xget b) else none)) hr hm h rfl
    exact ⟨u, exec_aCas64.trans hu, hw.trans (swapped_word ..), hrest⟩
  case stops =>
    obtain ⟨u, hu, hf⟩ := lLoad_stops hr rd a imm w hs h
    exact ⟨u, hu, hf.stopped, hf.mem, hf.core, hf.subcause, hf.pc, hf.cause⟩

end Sys2Proof.Machine
end

section
/-! PROOFS. Atomics on fabric addresses (R218, R294, R305, R310): O54. -/

namespace Sys2Proof.Machine

section
variable {s : State} {k : Fin 216} {ctx : Fin 65536} {wide : Bool} {rd rs1 rs2 : Fin 32}

theorem exec_aRiadd : exec (.aRiadd k ctx rs1 rs2) s = execARiadd k ctx rs1 rs2 s := rfl
theorem exec_aRfadd : exec (.aRfadd k ctx wide rs1 rs2) s = execARfadd k ctx wide rs1 rs2 s := rfl
theorem exec_aRcas64 : exec (.aRcas64 k ctx rd rs1 rs2) s = execARcas64 k ctx rd rs1 rs2 s := rfl

end

theorem atOwnPlace_of_ne {p : Pkg} {a : Nat} (h : placeOf a ≠ ownPlace p) : atOwnPlace p a = false := beq_eq_false_iff_ne.mpr h

theorem atOwnPlace_of_eq {p : Pkg} {a : Nat} (h : placeOf a = ownPlace p) : atOwnPlace p a = true := beq_iff_eq.mpr h

theorem coreCls_service {x : Core} (h : x.sched = false) : coreCls x = clsKeeper := by rw [coreCls, h]; rfl

theorem atRest_xset (x : Core) (r : Nat) (v : W64) : Safety.atRest (x.xset r v) = (Safety.atRest x).xset r v := by
  unfold Core.xset
  split <;> rfl

theorem atRest_fset (x : Core) (k r : Nat) (v : W64) : Safety.atRest (x.fset k r v) = (Safety.atRest x).fset k r v := by
  unfold Core.fset
  split <;> rfl

/-! At another place -/

/-- A posted add that core k of a tile has counted for its place (R305). -/
def counted (p : Pkg) (k e : Nat) : Pkg :=
  if isTileCore k then modTile p k (fun t => { t with dests := destIssue t.dests (placeOf e) 1 true }) else p

theorem counted_regs (p : Pkg) (k e : Nat) : (counted p k e).regs = p.regs := by
  unfold counted
  split <;> rfl

theorem ownPlace_congr {p q : Pkg} (h : p.regs = q.regs) : ownPlace p = ownPlace q := by rw [ownPlace, ownPlace, rfld, rfld, rget_congr _ h]

/-- A posted add to another place leaves under the context named. -/
theorem postAdd_leaves {p : Pkg} {k cx perm : Nat} {x : Core} {r : Req} (c : Clock) (hbm : Who → List HbmReq) (own : Pkg → Served)
    (n : Nat) (hn : n = if r.payload.isEmpty then 8 else r.payload.length) (ha : r.daddr % n = 0)
    (hw : windowOk p r.daddr n perm (coreCls x) = true) (hplace : placeOf r.daddr ≠ ownPlace p) :
    postAdd p c k cx x perm r hbm own = .ok (sendReq (counted p k r.daddr) cx (.core k) (!x.sched) true r, x) := by
  have hplace' : atOwnPlace (counted p k r.daddr) r.daddr = false :=
    atOwnPlace_of_ne (by rwa [ownPlace_congr (counted_regs p k r.daddr)])
  unfold postAdd
  rw [← hn, cneed_bind_pass (beq_iff_eq.mpr ha), cneed_bind_pass hw]
  exact if_neg fun h => Bool.false_ne_true (hplace'.symm.trans h)

section
variable {p : Pkg} {c : Clock} {k cx perm n : Nat} {x : Core} {r : Req} {hbm : Who → List HbmReq} {own : Pkg → Served}
  (hn : n = if r.payload.isEmpty then 8 else r.payload.length)
include hn

theorem postAdd_misaligned (ha : r.daddr % n ≠ 0) : postAdd p c k cx x perm r hbm own = .error { sub := 2 } := by
  unfold postAdd
  rw [← hn, cneed_bind_fail (beq_eq_false_iff_ne.mpr ha)]

theorem postAdd_outside (ha : r.daddr % n = 0) (hw : windowOk p r.daddr n perm (coreCls x) = false) :
    postAdd p c k cx x perm r hbm own = .error { sub := 3 } := by
  unfold postAdd
  rw [← hn, cneed_bind_pass (beq_iff_eq.mpr ha), cneed_bind_fail hw]

end

/-! At the own place -/

/-- The words that a compare-and-swap stores, as numbers. -/
theorem swapped_nat (m : Mem) (a : Nat) (cmp new : W64) : (if mnat m a 8 = cmp.toNat then some new.toNat else none) =
    (if BitVec.ofNat 64 (mnat m a 8) = cmp then some new else none).map BitVec.toNat := by
  have h : BitVec.ofNat 64 (mnat m a 8) = cmp ↔ mnat m a 8 = cmp.toNat := by rw [← BitVec.toNat_inj, toNat_ofNat_mnat]
  by_cases hc : mnat m a 8 = cmp.toNat
  · rw [if_pos hc, if_pos (h.mpr hc), Option.map_some]
  · rw [if_neg hc, if_neg (mt h.mp hc), Option.map_none]

/-- An indivisible change of an aligned word of a slice: its old value is the answer. -/
theorem srvWord_slice {p : Pkg} (hp : Clean p) (c : Clock) {a t : Nat} (hr : retired p = false) (ha : a % 8 = 0)
    (ht : target p a 8 = some (.slice t)) {f : Nat → Option Nat} {w : Option W64} (hf : f (mnat p.mem a 8) = w.map BitVec.toNat) :
    srvWord p c a f = ({ p with mem := wordPut p.mem a w }, .ok (mread p.mem a 8)) := by
  obtain ⟨hlo, hhi⟩ := slice_range ht
  unfold srvWord
  rw [if_neg (by rw [hr]; decide), if_neg (not_not_intro ha), ht]
  rw [mnat] at hf
  simp only [readMem_of_clean hp c hhi, hf]
  cases w with
  | none => rfl
  | some w =>
    simp only [Option.map_some, writeMem_of_clean hp c _ hlo]
    rfl

/-- A binary64 added into a word of a slice. -/
theorem srvFloatAdd_slice {p : Pkg} (hp : Clean p) (c : Clock) {a t : Nat} (hr : retired p = false)
    (ht : target p a 8 = some (.slice t)) (v : W64) :
    srvFloatAdd p c .b64 a (natLe 8 v.toNat) =
      ({ p with fv := p.fv + 1, mem := wordPut p.mem a (some (fAdd .b64 .rne (BitVec.ofNat 64 (mnat p.mem a 8)) v).1) }, .ok []) := by
  obtain ⟨hlo, hhi⟩ := slice_range ht
  have hv : field (natLe 8 v.toNat) 0 8 = v.toNat := leNat_natLe_toNat (n := 8) v
  have hold : field (mread p.mem a 8) 0 8 = mnat p.mem a 8 := field_mread p.mem a (Nat.le_refl 8)
  have hp' : Clean { p with fv := p.fv + 1 } := hp
  unfold srvFloatAdd
  simp only [hr, natLe_length, ht, readMem_of_clean hp c hhi, Bool.false_eq_true, if_false]
  rw [if_neg (by decide)]
  simp only [Fmt.width, Nat.reduceDiv, Nat.ofNat_pos, Nat.div_self, List.range_one, List.flatMap_cons, mul_zero, hold, hv,
    BitVec.ofNat_toNat, BitVec.setWidth_eq, List.flatMap_nil, List.append_nil, mul_one, tsub_self, List.range_zero, List.map_nil]
  exact writeMem_of_clean hp' c _ hlo

/-- A posted add at the own place, in a slice, is done at once. -/
theorem postAdd_own {p q : Pkg} {k cx perm t : Nat} {x : Core} {r : Req} (c : Clock) (hbm : Who → List HbmReq) (own : Pkg → Served)
    (n : Nat) (hn : n = if r.payload.isEmpty then 8 else r.payload.length) (hk : isTileCore k = false) (ha : r.daddr % n = 0)
    (hw : windowOk p r.daddr n perm (coreCls x) = true) (hplace : placeOf r.daddr = ownPlace p)
    (ht : target p (localOf r.daddr) n = some (.slice t)) {bs : List Byte} (ho : own p = (q, .ok bs)) :
    postAdd p c k cx x perm r hbm own = .ok (q, x) := by
  unfold postAdd
  rw [← hn, cneed_bind_pass (beq_iff_eq.mpr ha), cneed_bind_pass hw]
  simp only [hk, Bool.false_eq_true, if_false, atOwnPlace_of_eq hplace, if_true, ht, ho, postDone, reduceCtorEq, false_and, Option.some.injEq]

theorem ownWord_slice {p : Pkg} (hp : Clean p) (c : Clock) {k a t : Nat} (x : Core) (hr : retired p = false) (ha : a % 8 = 0)
    (ht : target p a 8 = some (.slice t)) (at_ : Atom) {f : Nat → Option Nat} {w : Option W64} (hf : f (mnat p.mem a 8) = w.map BitVec.toNat) :
    ownWord p c k x a at_ f = .ok ({ p with mem := wordPut p.mem a w }, mnat p.mem a 8) := by
  unfold ownWord
  rw [if_neg (by rw [ht]; simp), srvWord_slice hp c hr ha ht hf, served_ok hp]
  rfl

/-! What the atomics leave -/

/-- What an instruction leaves that changes word l to w, or keeps it where w is none, and its core to y. -/
def LeavesWord (s : State) (k : Nat) (o : Out) (l : Nat) (w : Option W64) (y : Core) : Prop :=
  ∃ u, o = .next u ∧ mnat u.pkg.mem l 8 = w.elim (mnat s.pkg.mem l 8) BitVec.toNat ∧
    (∀ c, (c < l ∨ l + 8 ≤ c) → mget u.pkg.mem c = mget s.pkg.mem c) ∧ core u.pkg k = Safety.atRest y ∧ u.pkg.outs = s.pkg.outs

theorem leavesWord {s : State} {k : Fin 216} {f : Clock → Pkg → Core → CoreR (Pkg × Core)} (hr : Safety.Runs s k) (hm : memWf s.pkg.mem = true)
    {q : Pkg} {y : Core} {l : Nat} {w : Option W64} (hf : f s.clk s.pkg (Safety.stepped s k) = .ok (q, y))
    (hq : q.mem = wordPut s.pkg.mem l w) (ho : q.outs = s.pkg.outs) : LeavesWord s k (coreExec k false s f) l w y := by
  refine ⟨_, scalar_completes hr hf, ?_, fun c hc => ?_, core_setCore_self .., ho⟩
  · rw [setCore_mem, hq, mnat_wordPut hm]
  · rw [setCore_mem, hq, mget_wordPut_outside _ _ hc]

theorem leavesWord_ofMem {s : State} {k : Fin 216} {f : Clock → Pkg → Core → CoreR (Pkg × Core)} (hr : Safety.Runs s k) (hm : memWf s.pkg.mem = true)
    {y : Core} {l : Nat} {w : Option W64} (hf : f s.clk s.pkg (Safety.stepped s k) = .ok ({ s.pkg with mem := wordPut s.pkg.mem l w }, y)) :
    LeavesWord s k (coreExec k false s f) l w y := leavesWord hr hm hf rfl rfl

/-- A word of a slice at the own place, as a service-mode core of no tile addresses it. -/
structure OwnWord (s : State) (k e t : Nat) : Prop where
  place : placeOf e = ownPlace s.pkg
  service : (core s.pkg k).sched = false
  untiled : isTileCore k = false
  aligned : e % 8 = 0
  slice : target s.pkg (localOf e) 8 = some (.slice t)
  served : retired s.pkg = false
  clean : Clean s.pkg
  wf : memWf s.pkg.mem = true

theorem OwnWord.local_aligned {s : State} {k e t : Nat} (h : OwnWord s k e t) : localOf e % 8 = 0 := by
  have := h.aligned
  unfold localOf
  omega

section
variable {s : State} {k : Fin 216} (hr : Safety.Runs s k) (cx : Fin 65536) (rd a b : Fin 32)
include hr

section
variable (hplace : placeOf ((core s.pkg k).xget a).toNat ≠ ownPlace s.pkg)
include hplace

theorem aRiadd_leaves (ha : ((core s.pkg k).xget a).toNat % 8 = 0)
    (hw : windowOk s.pkg ((core s.pkg k).xget a).toNat 8 2 (coreCls (core s.pkg k)) = true) : exec (.aRiadd k cx a b) s =
    .next (Safety.withPkg s (setCore (sendReq (counted s.pkg k ((core s.pkg k).xget a).toNat) cx (.core k) (!(core s.pkg k).sched) true
      { ty := 0x09, daddr := ((core s.pkg k).xget a).toNat, op0 := ((core s.pkg k).xget b).toNat }) k (Safety.atRest (Safety.stepped s k)))) :=
  exec_aRiadd.trans (scalar_completes hr (postAdd_leaves _ _ _ 8 rfl ha hw hplace))

theorem aRfadd_leaves {wide : Bool} {n : Nat} (hn : n = if wide then 8 else 4) (ha : ((core s.pkg k).xget a).toNat % n = 0)
    (hw : windowOk s.pkg ((core s.pkg k).xget a).toNat n 3 (coreCls (core s.pkg k)) = true) : exec (.aRfadd k cx wide a b) s =
    .next (Safety.withPkg s (setCore (sendReq (counted s.pkg k ((core s.pkg k).xget a).toNat) cx (.core k) (!(core s.pkg k).sched) true
      { ty := if wide then 0x06 else 0x07, daddr := ((core s.pkg k).xget a).toNat, payload := natLe n ((core s.pkg k).fget k b).toNat }) k
      (Safety.atRest (Safety.stepped s k)))) := by
  subst hn
  refine exec_aRfadd.trans (scalar_completes hr (postAdd_leaves _ _ _ (if wide then 8 else 4) ?_ ha hw hplace))
  cases wide <;> rfl

variable (hs : (core s.pkg k).sched = false) (ha : ((core s.pkg k).xget a).toNat % 8 = 0)
include hs ha

theorem aRcas64_asks (hw : windowOk s.pkg ((core s.pkg k).xget a).toNat 8 2 clsKeeper = true) : exec (.aRcas64 k cx rd a b) s =
    .next (Safety.withPkg s (setCore (sendReq s.pkg cx (.core k) true true
      { ty := 0x05, daddr := ((core s.pkg k).xget a).toNat, op0 := ((core s.pkg k).xget rd).toNat, op1 := ((core s.pkg k).xget b).toNat }) k
      { Safety.atRest (Safety.stepped s k) with answer := some (.old rd) })) := by
  refine exec_aRcas64.trans (scalar_completes (y := { Safety.stepped s k with answer := some (.old rd) }) hr ?_)
  simp only [stepped_sched, stepped_xget, hs, Bool.not_false, beq_iff_eq.mpr ha, hw, cneed_true, coreR_ok_bind, atOwnPlace_of_ne hplace,
    Bool.false_eq_true, if_false]

theorem aFadd64_asks (hw : windowOk s.pkg ((core s.pkg k).xget a).toNat 8 3 clsKeeper = true) : exec (.aFadd64 k cx rd a b) s =
    .next (Safety.withPkg s (setCore (sendReq s.pkg cx (.core k) true true { ty := 0x02, daddr := ((core s.pkg k).xget a).toNat, op0 := 8 }) k
      { Safety.atRest (Safety.stepped s k) with
        answer := some (.fsum rd cx ((core s.pkg k).xget a).toNat ((core s.pkg k).fget k b) none) })) := by
  refine exec_aFadd64.trans (scalar_completes
    (y := { Safety.stepped s k with answer := some (.fsum rd cx ((core s.pkg k).xget a).toNat ((core s.pkg k).fget k b) none) }) hr ?_)
  simp only [stepped_sched, stepped_xget, hs, Bool.not_false, beq_iff_eq.mpr ha, hw, cneed_true, coreR_ok_bind, atOwnPlace_of_ne hplace,
    Bool.false_eq_true, if_false]
  rfl

end

section
variable {t : Nat} (h : OwnWord s k ((core s.pkg k).xget a).toNat t)
include h

theorem aRiadd_own (hw : windowOk s.pkg ((core s.pkg k).xget a).toNat 8 2 clsKeeper = true) : LeavesWord s k (exec (.aRiadd k cx a b) s)
    (localOf ((core s.pkg k).xget a).toNat)
    (some (BitVec.ofNat 64 (mnat s.pkg.mem (localOf ((core s.pkg k).xget a).toNat) 8) + (core s.pkg k).xget b)) (Safety.stepped s k) := by
  have hword : srvFetchAdd s.pkg s.clk (localOf ((core s.pkg k).xget a).toNat) ((core s.pkg k).xget b).toNat = _ :=
    srvWord_slice h.clean s.clk h.served h.local_aligned h.slice
      (w := some (BitVec.ofNat 64 (mnat s.pkg.mem (localOf ((core s.pkg k).xget a).toNat) 8) + (core s.pkg k).xget b))
      (by rw [Option.map_some, BitVec.toNat_add, toNat_ofNat_mnat])
  have hcls : coreCls (Safety.stepped s k) = clsKeeper := coreCls_service h.service
  rw [exec_aRiadd, execARiadd]
  exact leavesWord hr h.wf (postAdd_own s.clk _ _ 8 rfl h.untiled h.aligned (by rw [hcls]; exact hw) h.place h.slice hword) rfl rfl

theorem aRfadd_own (hw : windowOk s.pkg ((core s.pkg k).xget a).toNat 8 3 clsKeeper = true) :
    LeavesWord s k (exec (.aRfadd k cx true a b) s) (localOf ((core s.pkg k).xget a).toNat)
      (some (fAdd .b64 .rne (BitVec.ofNat 64 (mnat s.pkg.mem (localOf ((core s.pkg k).xget a).toNat) 8)) ((core s.pkg k).fget k b)).1)
      (Safety.stepped s k) := by
  have hadd := srvFloatAdd_slice h.clean s.clk h.served h.slice ((core s.pkg k).fget k b)
  have hcls : coreCls (Safety.stepped s k) = clsKeeper := coreCls_service h.service
  rw [exec_aRfadd, execARfadd]
  exact leavesWord hr h.wf (postAdd_own s.clk _ _ 8 rfl h.untiled h.aligned (by rw [hcls]; exact hw) h.place h.slice hadd) rfl rfl

theorem aRcas64_own (hw : windowOk s.pkg ((core s.pkg k).xget a).toNat 8 2 clsKeeper = true) : LeavesWord s k (exec (.aRcas64 k cx rd a b) s)
    (localOf ((core s.pkg k).xget a).toNat)
    (if BitVec.ofNat 64 (mnat s.pkg.mem (localOf ((core s.pkg k).xget a).toNat) 8) = (core s.pkg k).xget rd then some ((core s.pkg k).xget b) else none)
    ((Safety.stepped s k).xset rd (BitVec.ofNat 64 (mnat s.pkg.mem (localOf ((core s.pkg k).xget a).toNat) 8))) := by
  have hword := ownWord_slice h.clean s.clk (k := k) (Safety.stepped s k) h.served h.local_aligned h.slice
    (.cas ((core s.pkg k).xget rd).toNat ((core s.pkg k).xget b).toNat)
    (f := fun o => if o = ((core s.pkg k).xget rd).toNat then some ((core s.pkg k).xget b).toNat else none) (swapped_nat ..)
  rw [exec_aRcas64, execARcas64]
  refine leavesWord_ofMem hr h.wf ?_
  simp only [stepped_sched, stepped_xget, h.service, Bool.not_false, beq_iff_eq.mpr h.aligned, hw, cneed_true, coreR_ok_bind,
    atOwnPlace_of_eq h.place, if_true]
  exact congrArg (fun r : CoreR (Pkg × Nat) => r >>= fun q => .ok (q.1, (Safety.stepped s k).xset rd (BitVec.ofNat 64 q.2))) hword

theorem aFadd64_own (hw : windowOk s.pkg ((core s.pkg k).xget a).toNat 8 3 clsKeeper = true) : LeavesWord s k (exec (.aFadd64 k cx rd a b) s)
    (localOf ((core s.pkg k).xget a).toNat)
    (some (fAdd .b64 .rne (BitVec.ofNat 64 (mnat s.pkg.mem (localOf ((core s.pkg k).xget a).toNat) 8)) ((core s.pkg k).fget k b)).1)
    ((Safety.stepped s k).fset k rd (BitVec.ofNat 64 (mnat s.pkg.mem (localOf ((core s.pkg k).xget a).toNat) 8))) := by
  have hword := ownWord_slice h.clean s.clk (k := k) (Safety.stepped s k) h.served h.local_aligned h.slice
    (.fadd true (natLe 8 ((core s.pkg k).fget k b).toNat))
    (f := fun o => some (fAdd .b64 .rne (BitVec.ofNat 64 o) ((core s.pkg k).fget k b)).1.toNat)
    (w := some (fAdd .b64 .rne (BitVec.ofNat 64 (mnat s.pkg.mem (localOf ((core s.pkg k).xget a).toNat) 8)) ((core s.pkg k).fget k b)).1) rfl
  rw [exec_aFadd64, execAFadd64]
  refine leavesWord_ofMem hr h.wf ?_
  simp only [stepped_sched, stepped_xget, stepped_fget, h.service, Bool.not_false, beq_iff_eq.mpr h.aligned, hw, cneed_true, coreR_ok_bind,
    atOwnPlace_of_eq h.place, if_true, hword]

end

section
variable (hs : (core s.pkg k).sched = false)
include hs

theorem aRiadd_misaligned (ha : ((core s.pkg k).xget a).toNat % 8 ≠ 0) : exec (.aRiadd k cx a b) s = .next (Safety.raised s k 0x02) :=
  exec_aRiadd.trans (scalar_raises hr hs (postAdd_misaligned (n := 8) rfl ha))

theorem aRiadd_outside (ha : ((core s.pkg k).xget a).toNat % 8 = 0)
    (hw : windowOk s.pkg ((core s.pkg k).xget a).toNat 8 2 clsKeeper = false) : exec (.aRiadd k cx a b) s = .next (Safety.raised s k 0x03) := by
  rw [← coreCls_service hs] at hw
  exact exec_aRiadd.trans (scalar_raises hr hs (postAdd_outside (n := 8) rfl ha hw))

theorem aRcas64_outside (ha : ((core s.pkg k).xget a).toNat % 8 = 0)
    (hw : windowOk s.pkg ((core s.pkg k).xget a).toNat 8 2 clsKeeper = false) :
    exec (.aRcas64 k cx rd a b) s = .next (Safety.raised s k 0x03) := by
  refine exec_aRcas64.trans (scalar_raises hr hs ?_)
  simp only [stepped_sched, stepped_xget, hs, Bool.not_false, beq_iff_eq.mpr ha, hw, cneed_true, cneed_false, coreR_ok_bind, coreR_error_bind]

theorem aFadd64_misaligned (ha : ((core s.pkg k).xget a).toNat % 8 ≠ 0) : exec (.aFadd64 k cx rd a b) s = .next (Safety.raised s k 0x02) := by
  refine exec_aFadd64.trans (scalar_raises hr hs ?_)
  simp only [stepped_sched, stepped_xget, hs, Bool.not_false, beq_eq_false_iff_ne.mpr ha, cneed_true, cneed_false, coreR_ok_bind, coreR_error_bind]

end

end

/-- Settles O54: the words at other places by what is sent, the ones at the own place by the word they change, the rest by their fault. -/
theorem fabricAtomics : Obligations.FabricAtomics := by
  intro s k cx rd a b wide hr x y e n cntd sent asked
  refine ⟨fun hplace => ⟨fun ha hw => aRiadd_leaves hr cx a b hplace ha hw, fun ha hw => aRfadd_leaves hr cx a b hplace rfl ha hw,
    fun hs ha hw => aRcas64_asks hr cx rd a b hplace hs ha hw, fun hs ha hw => aFadd64_asks hr cx rd a b hplace hs ha hw⟩, ?own, ?window, ?aligned⟩
  case own =>
    intro t hplace hs hk ha ht hret hb hce hm l old leaves
    have h : OwnWord s k ((core s.pkg k).xget a).toNat t := ⟨hplace, hs, hk, ha, ht, hret, ⟨hb, hce⟩, hm⟩
    have told {i : Instr} {w : Option W64} {z : Core} {v : Nat} (hl : LeavesWord s k (exec i s) l w z)
        (hv : w.elim old BitVec.toNat = v) {z' : Core} (hz : Safety.atRest z = z') : leaves i v z' := by
      obtain ⟨u, hu, hword, hrest⟩ := hl
      exact ⟨u, hu, hword.trans hv, by rw [← hz]; exact hrest⟩
    refine ⟨fun hw => ⟨told (aRiadd_own hr cx a b h hw) ?_ rfl, told (aRcas64_own hr cx rd a b h hw) (swapped_word ..) (atRest_xset ..)⟩,
      fun hw => ⟨told (aRfadd_own hr cx a b h hw) rfl rfl, told (aFadd64_own hr cx rd a b h hw) rfl (atRest_fset ..)⟩⟩
    rw [Option.elim_some, BitVec.toNat_add, toNat_ofNat_mnat]
  case window =>
    intro hs ha hw
    exact ⟨aRiadd_outside hr cx a b hs ha hw, aRcas64_outside hr cx rd a b hs ha hw⟩
  case aligned =>
    intro hs ha
    exact ⟨aRiadd_misaligned hr cx a b hs ha, aFadd64_misaligned hr cx rd a b hs ha⟩

end Sys2Proof.Machine
end

section
/-! PROOFS. Vector groups as bit strings (R221, R222): what a write of elements leaves. -/

namespace Sys2Proof.Machine

/-! Elements of a bit string -/

theorem elemOf_eq_bits (v i : Nat) {w : Nat} (hw : 0 < w) : elemOf v w i = BitVec.ofNat 64 (bits v (w * i + w - 1) (w * i)) := by
  have hlen : w * i + w - 1 + 1 - w * i = w := by omega
  rw [elemOf, bits, hlen, Nat.shiftRight_eq_div_pow]

theorem elemOf_setElem_self (v i : Nat) (c : W64) {w : Nat} (hw : 0 < w) : elemOf (setElem v w i c) w i = BitVec.ofNat 64 (c.toNat % 2 ^ w) := by
  have hlen : w * i + w - 1 + 1 - w * i = w := by omega
  rw [elemOf_eq_bits _ _ hw, setElem, bits_setBits _ _ _ _ (by omega), hlen, Nat.mod_mod]

theorem elemOf_setElem_ne (v : Nat) {i j : Nat} (c : W64) {w : Nat} (hw : 0 < w) (h : i ≠ j) : elemOf (setElem v w j c) w i = elemOf v w i := by
  have hd : w * i + w - 1 < w * j ∨ w * j + w - 1 < w * i := by
    rcases Nat.lt_or_gt_of_ne h with h | h
    · have := Nat.mul_le_mul_left w h
      rw [Nat.mul_succ] at this
      omega
    · have := Nat.mul_le_mul_left w h
      rw [Nat.mul_succ] at this
      omega
  rw [elemOf_eq_bits _ _ hw, elemOf_eq_bits _ _ hw, setElem, bits_setBits_other _ _ _ _ _ _ (by omega) (by omega) hd]

/-- An element within m bits. -/
theorem elemOf_mod (v : Nat) {w i m : Nat} (hw : 0 < w) (h : w * (i + 1) ≤ m) : elemOf (v % 2 ^ m) w i = elemOf v w i := by
  rw [Nat.mul_succ] at h
  rw [elemOf_eq_bits _ _ hw, elemOf_eq_bits _ _ hw, bits_mod _ _ _ _ (by omega) (by omega)]

/-- A bit string with the elements of a list replaced. -/
def setElems (v w : Nat) (out : List (Nat × R)) : Nat := out.foldl (fun a e => setElem a w e.1 e.2.1) v

theorem elemOf_setElems_of_notMem {w : Nat} (hw : 0 < w) {i : Nat} :
    ∀ (out : List (Nat × R)) (v : Nat), (∀ e ∈ out, e.1 ≠ i) → elemOf (setElems v w out) w i = elemOf v w i
  | [], _, _ => rfl
  | e :: out, v, h => by
    obtain ⟨he, hout⟩ := List.forall_mem_cons.mp h
    exact (elemOf_setElems_of_notMem hw out _ hout).trans (elemOf_setElem_ne v _ hw he.symm)

theorem elemOf_setElems_of_mem {w : Nat} (hw : 0 < w) {i : Nat} {r : R} :
    ∀ (out : List (Nat × R)) (v : Nat), (out.map Prod.fst).Nodup → (i, r) ∈ out → elemOf (setElems v w out) w i = BitVec.ofNat 64 (r.1.toNat % 2 ^ w)
  | e :: out, v, hd, h => by
    rw [List.map_cons, List.nodup_cons] at hd
    rcases List.mem_cons.mp h with rfl | h
    · have hout : ∀ e ∈ out, e.1 ≠ i := fun e he hi => hd.1 (List.mem_map.mpr ⟨e, he, hi⟩)
      exact (elemOf_setElems_of_notMem hw out _ hout).trans (elemOf_setElem_self v i _ hw)
    · exact elemOf_setElems_of_mem hw out _ hd.2 h

/-! The registers of a group -/

theorem vbits_pos (k : Nat) : 0 < vbits k := by unfold vbits; split <;> decide
theorem vbits_le (k : Nat) : vbits k ≤ 512 := by unfold vbits; split <;> decide

theorem vget_vset_self (x : Core) (r : Nat) (v : BitVec 512) : (x.vset r v).vget r = v := sget_sset_self _ _ _ _
theorem vget_vset_ne (x : Core) {r i : Nat} (v : BitVec 512) (h : i ≠ r) : (x.vset r v).vget i = x.vget i := sget_sset_ne _ _ _ h

theorem groupBits_succ (k : Nat) (x : Core) (r n : Nat) :
    groupBits k x r (n + 1) = groupBits k x r n + (x.vget (r + n)).toNat % 2 ^ vbits k * 2 ^ (vbits k * n) := by
  rw [groupBits, List.range_succ, List.foldl_append]
  rfl

theorem groupBits_congr {k : Nat} {x y : Core} {r : Nat} : ∀ {n : Nat}, (∀ j < n, y.vget (r + j) = x.vget (r + j)) → groupBits k y r n = groupBits k x r n
  | 0, _ => rfl
  | n + 1, h => by rw [groupBits_succ, groupBits_succ, groupBits_congr fun j hj => h j (by omega), h n (by omega)]

theorem setGroup_succ (k : Nat) (x : Core) (r n v : Nat) : setGroup k x r (n + 1) v = (setGroup k x r n v).vset (r + n)
    (BitVec.ofNat 512 (setBits ((setGroup k x r n v).vget (r + n)).toNat (vbits k - 1) 0 (v / 2 ^ (vbits k * n)))) := by
  rw [setGroup, List.range_succ, List.foldl_append]
  rfl

theorem setGroup_eq (k : Nat) (x : Core) (r n v : Nat) : setGroup k x r n v = { x with vs := (setGroup k x r n v).vs } := by
  induction n with
  | zero => rfl
  | succ n ih =>
    rw [setGroup_succ, Core.vset]
    rw [ih]

/-- Registers outside a group stay. -/
theorem vget_setGroup_outside (k : Nat) (x : Core) {r n i : Nat} (v : Nat) (h : i < r ∨ r + n ≤ i) : (setGroup k x r n v).vget i = x.vget i := by
  induction n with
  | zero => rfl
  | succ n ih => rw [setGroup_succ, vget_vset_ne _ _ (by omega), ih (by omega)]

/-- The low bits of a register whose low bits were replaced. -/
theorem lowBits_setBits (u v : Nat) {n : Nat} (hn : 0 < n) (hle : n ≤ 512) : (BitVec.ofNat 512 (setBits u (n - 1) 0 v)).toNat % 2 ^ n = v % 2 ^ n := by
  have hlen : n - 1 + 1 - 0 = n := by omega
  have h := bits_setBits u (n - 1) 0 v (Nat.zero_le _)
  rw [bits, hlen, Nat.shiftRight_zero] at h
  rw [BitVec.toNat_ofNat, Nat.mod_mod_of_dvd _ (Nat.pow_dvd_pow 2 hle), h]

theorem groupBits_setGroup (k : Nat) (x : Core) (r n v : Nat) : groupBits k (setGroup k x r n v) r n = v % 2 ^ (vbits k * n) := by
  induction n with
  | zero => rw [Nat.mul_zero, Nat.pow_zero, Nat.mod_one]; rfl
  | succ n ih =>
    have hlow : groupBits k (setGroup k x r (n + 1) v) r n = groupBits k (setGroup k x r n v) r n :=
      groupBits_congr fun j hj => by rw [setGroup_succ, vget_vset_ne _ _ (by omega)]
    rw [groupBits_succ, hlow, ih, setGroup_succ, vget_vset_self, lowBits_setBits _ _ (vbits_pos k) (vbits_le k), Nat.mul_succ, Nat.pow_add,
      Nat.mod_mul, Nat.mul_comm (2 ^ (vbits k * n))]

/-! Results of active elements -/

/-- The registers that results of element width w take (R221, R222). -/
def resultRegs (k : Nat) (x : Core) (w : Nat) : Nat := max (cdiv (w * x.vl) (vbits k)) x.g

theorem writeActive_eq (k : Nat) (x : Core) (vd w : Nat) (out : List (Nat × R)) : writeActive k x vd w out =
    (setGroup k x vd (resultRegs k x w) (setElems (groupBits k x vd (resultRegs k x w)) w out)).raise (out.foldl (fun f e => f ||| e.2.2) 0#16) := rfl

/-- A write of results leaves all of a core but its vector registers and FFLAGS. -/
theorem writeActive_frame (k : Nat) (x : Core) (vd w : Nat) (out : List (Nat × R)) :
    writeActive k x vd w out = { x with vs := (writeActive k x vd w out).vs, fflags := (writeActive k x vd w out).fflags } := by
  rw [writeActive_eq, setGroup_eq]
  rfl

section
variable (k : Nat) (x : Core) (vd w : Nat) (out : List (Nat × R))

@[simp] theorem writeActive_xs : (writeActive k x vd w out).xs = x.xs := by rw [writeActive_frame]
@[simp] theorem writeActive_qs : (writeActive k x vd w out).qs = x.qs := by rw [writeActive_frame]
@[simp] theorem writeActive_pc : (writeActive k x vd w out).pc = x.pc := by rw [writeActive_frame]
@[simp] theorem writeActive_g : (writeActive k x vd w out).g = x.g := by rw [writeActive_frame]; rfl
@[simp] theorem writeActive_sewBits : (writeActive k x vd w out).sewBits = x.sewBits := by rw [writeActive_frame]; rfl

theorem writeActive_fflags : (writeActive k x vd w out).fflags = x.fflags ||| (out.foldl (fun f e => f ||| e.2.2) 0#16 &&& 0x017F#16) := by
  rw [writeActive_eq, setGroup_eq]
  rfl

theorem vget_writeActive_outside {j : Nat} (h : j < vd ∨ vd + resultRegs k x w ≤ j) : (writeActive k x vd w out).vget j = x.vget j :=
  vget_setGroup_outside k x _ h

end

section
variable {k : Nat} {x : Core} {vd w i : Nat} {out : List (Nat × R)} (hw : 0 < w) (hi : w * (i + 1) ≤ vbits k * resultRegs k x w)
include hw hi

theorem elemOf_writeActive : elemOf (groupBits k (writeActive k x vd w out) vd (resultRegs k x w)) w i =
    elemOf (setElems (groupBits k x vd (resultRegs k x w)) w out) w i :=
  (congrArg (elemOf · w i) (groupBits_setGroup ..)).trans (elemOf_mod _ hw hi)

/-- An element with a result takes it. -/
theorem elemOf_writeActive_of_mem {r : R} (hd : (out.map Prod.fst).Nodup) (h : (i, r) ∈ out) :
    elemOf (groupBits k (writeActive k x vd w out) vd (resultRegs k x w)) w i = BitVec.ofNat 64 (r.1.toNat % 2 ^ w) := by
  rw [elemOf_writeActive hw hi, elemOf_setElems_of_mem hw out _ hd h]

/-- An element without one stays. -/
theorem elemOf_writeActive_of_notMem (h : ∀ e ∈ out, e.1 ≠ i) :
    elemOf (groupBits k (writeActive k x vd w out) vd (resultRegs k x w)) w i = elemOf (groupBits k x vd (resultRegs k x w)) w i := by
  rw [elemOf_writeActive hw hi, elemOf_setElems_of_notMem hw out _ h]

end

/-! Results of the set element width -/

section
variable {k : Nat} {x : Core}

theorem sewBits_pos (x : Core) : 0 < x.sewBits := Nat.mul_pos (by decide) (Nat.two_pow_pos _)

/-- Elements below the capacity lie in the group. -/
theorem mul_succ_le_of_lt_cap {i : Nat} (h : i < x.cap k) : x.sewBits * (i + 1) ≤ vbits k * x.g := by
  rw [Nat.mul_comm (vbits k)]
  exact (Nat.mul_le_mul_left _ h).trans (Nat.mul_div_le _ _)

/-- While VL is within the capacity, results take the group's registers. -/
theorem resultRegs_sewBits (h : x.vl ≤ x.cap k) : resultRegs k x x.sewBits = x.g := by
  have hle : x.sewBits * x.vl ≤ vbits k * x.g := by
    rw [Nat.mul_comm (vbits k)]
    exact (Nat.mul_le_mul_left _ h).trans (Nat.mul_div_le _ _)
  have hpos := vbits_pos k
  have hdiv : cdiv (x.sewBits * x.vl) (vbits k) ≤ x.g :=
    Nat.le_of_lt_succ (Nat.div_lt_of_lt_mul (by rw [Nat.mul_succ]; omega))
  exact Nat.max_eq_right hdiv

section
variable {vd i : Nat} {out : List (Nat × R)} (h : x.vl ≤ x.cap k) (hi : i < x.cap k)
include h hi

theorem vElemAt_writeActive_of_mem {r : R} (hd : (out.map Prod.fst).Nodup) (hm : (i, r) ∈ out) :
    Safety.vElemAt k (writeActive k x vd x.sewBits out) vd i = BitVec.ofNat 64 (r.1.toNat % 2 ^ x.sewBits) := by
  rw [Safety.vElemAt, writeActive_g, writeActive_sewBits, ← resultRegs_sewBits h]
  exact elemOf_writeActive_of_mem (sewBits_pos x) (by rw [resultRegs_sewBits h]; exact mul_succ_le_of_lt_cap hi) hd hm

theorem vElemAt_writeActive_of_notMem (hm : ∀ e ∈ out, e.1 ≠ i) :
    Safety.vElemAt k (writeActive k x vd x.sewBits out) vd i = Safety.vElemAt k x vd i := by
  rw [Safety.vElemAt, Safety.vElemAt, writeActive_g, writeActive_sewBits, ← resultRegs_sewBits h]
  exact elemOf_writeActive_of_notMem (sewBits_pos x) (by rw [resultRegs_sewBits h]; exact mul_succ_le_of_lt_cap hi) hm

end

theorem mem_actives {x : Core} {m : Bool} {i : Nat} : i ∈ actives x m ↔ i < x.vl ∧ (!m || (x.qget x.qsel).getLsbD i) = true := by
  rw [actives, List.mem_filter, List.mem_range]

theorem actives_nodup (x : Core) (m : Bool) : (actives x m).Nodup := List.nodup_range.filter _

/-- Each active element takes its result, the others stay. -/
theorem vElemAt_writeActive_actives (m : Bool) {vd i : Nat} (r : Nat → R) (h : x.vl ≤ x.cap k) (hi : i < x.cap k) :
    Safety.vElemAt k (writeActive k x vd x.sewBits ((actives x m).map (fun i => (i, r i)))) vd i =
      if i ∈ actives x m then BitVec.ofNat 64 ((r i).1.toNat % 2 ^ x.sewBits) else Safety.vElemAt k x vd i := by
  split
  case isTrue hm =>
    refine vElemAt_writeActive_of_mem h hi ?_ (List.mem_map.mpr ⟨i, hm, rfl⟩)
    rw [List.map_map, show Prod.fst ∘ (fun i => (i, r i)) = id from rfl, List.map_id]
    exact actives_nodup x m
  case isFalse hm =>
    refine vElemAt_writeActive_of_notMem h hi fun e he hei => ?_
    obtain ⟨j, hj, rfl⟩ := List.mem_map.mp he
    exact hm (hei ▸ hj)

end

/-! Element-wise arithmetic (R223) -/

/-- FFLAGS gathers the flags of each element. -/
theorem foldl_masked (g : Nat → Flags) (c a : Flags) :
    ∀ (l : List Nat) (b : Flags), l.foldl (fun f i => f ||| (g i &&& c)) (a ||| (b &&& c)) = a ||| (l.foldl (fun f i => f ||| g i) b &&& c)
  | [], _ => rfl
  | i :: l, b => by
    have hb : a ||| (b &&& c) ||| (g i &&& c) = a ||| ((b ||| g i) &&& c) := by rw [BitVec.or_assoc, BitVec.and_or_distrib_right]
    rw [List.foldl_cons, List.foldl_cons, hb]
    exact foldl_masked g c a l _

/-- What a write of one result per active element leaves of a core. -/
structure ElementsWritten (k : Nat) (x z : Core) (vd : Nat) (m : Bool) (r : Nat → R) : Prop where
  pc : z.pc = x.pc
  xs : z.xs = x.xs
  qs : z.qs = x.qs
  elements : ∀ i < x.cap k, Safety.vElemAt k z vd i =
    if i ∈ actives x m then BitVec.ofNat 64 ((r i).1.toNat % 2 ^ x.sewBits) else Safety.vElemAt k x vd i
  outside : ∀ j, (j < vd ∨ vd + x.g ≤ j) → z.vget j = x.vget j
  fflags : z.fflags = (actives x m).foldl (fun f i => f ||| ((r i).2 &&& 0x017F#16)) x.fflags

theorem writeActive_elements {k : Nat} {x : Core} (h : x.vl ≤ x.cap k) (vd : Nat) (m : Bool) (r : Nat → R) :
    ElementsWritten k x (writeActive k x vd x.sewBits ((actives x m).map (fun i => (i, r i)))) vd m r where
  pc := writeActive_pc ..
  xs := writeActive_xs ..
  qs := writeActive_qs ..
  elements _ hi := vElemAt_writeActive_actives m r h hi
  outside _ hj := vget_writeActive_outside _ _ _ _ _ (by rwa [resultRegs_sewBits h])
  fflags := by
    have hf := foldl_masked (fun i => (r i).2) 0x017F#16 x.fflags (actives x m) 0#16
    rw [BitVec.zero_and, BitVec.or_zero] at hf
    rw [writeActive_fflags, List.foldl_map, hf]

/-! Of a core with its pc moved on -/

section
variable (s : State) (k : Nat) (m : Bool)

@[simp] theorem stepped_actives : actives (Safety.stepped s k) m = actives (core s.pkg k) m := rfl
@[simp] theorem stepped_vl : (Safety.stepped s k).vl = (core s.pkg k).vl := rfl
@[simp] theorem stepped_sew : (Safety.stepped s k).sew = (core s.pkg k).sew := rfl

end

section
variable {s : State} {k : Fin 216} {m sq : Bool} {ra : Fin 8} {vd vs1 vs2 : Fin 32}

theorem exec_vDivSqrt : exec (.vDivSqrt k sq m ra vd vs1 vs2) s = execVDivSqrt k sq m ra vd vs1 vs2 s := rfl

end

/-- What an element-wise instruction leaves. -/
theorem ElementsWritten.of_stepped {s : State} {k : Nat} {z : Core} {vd : Nat} {m : Bool} {r : Nat → R}
    (h : ElementsWritten k (Safety.stepped s k) z vd m r) :
    (Safety.atRest z).pc = (core s.pkg k).pc + 4 ∧ (Safety.atRest z).xs = (core s.pkg k).xs ∧ (Safety.atRest z).qs = (core s.pkg k).qs ∧
      (∀ i < (core s.pkg k).cap k, Safety.vElemAt k (Safety.atRest z) vd i = if i ∈ actives (core s.pkg k) m
        then BitVec.ofNat 64 ((r i).1.toNat % 2 ^ (core s.pkg k).sewBits) else Safety.vElemAt k (core s.pkg k) vd i) ∧
      (∀ j, (j < vd ∨ vd + (core s.pkg k).g ≤ j) → (Safety.atRest z).vget j = (core s.pkg k).vget j) ∧
      (Safety.atRest z).fflags = (actives (core s.pkg k) m).foldl (fun f i => f ||| ((r i).2 &&& 0x017F#16)) (core s.pkg k).fflags :=
  ⟨h.pc, h.xs, h.qs, h.elements, h.outside, h.fflags⟩

/-- Settles O55: past its checks each instruction is one write of results. -/
theorem vectorElements : Obligations.VectorElements := by
  intro s k op kind m sq ra vd vs1 vs2 src hr x act w rm writes ha hvl _ _
  have wrote (r : Nat → R) := (writeActive_elements (x := Safety.stepped s k) hvl vd m r).of_stepped
  refine ⟨fun hop hkind hgroup => ?arith, fun f hf hgroup => ?div⟩
  case arith =>
    have hok : (op != .undef && kindOk x kind) = true := by rw [bne_iff_ne.mpr hop, hkind]; rfl
    refine ⟨_, exec_vArith.trans (vector_goes_on hr ha ((cneed_bind_pass hok).trans (cneed_bind_pass hgroup))), wrote _⟩
  case div =>
    refine ⟨_, exec_vDivSqrt.trans (vector_goes_on hr ha ?_), wrote _⟩
    rw [stepped_sew, hf]
    exact cneed_bind_pass hgroup

end Sys2Proof.Machine
end

section
/-! PROOFS. Shape, predicates, conversions, permutations and reductions (R221, R222, R225, R135): O56. -/

namespace Sys2Proof.Machine

/-! Numbers given by their bits -/

/-- The number whose bits below n are those of f. -/
def numOfBits (f : Nat → Bool) (n : Nat) : Nat := (List.range n).foldl (fun a i => a + (if f i then 2 ^ i else 0)) 0

theorem numOfBits_succ (f : Nat → Bool) (n : Nat) : numOfBits f (n + 1) = numOfBits f n + (if f n then 2 ^ n else 0) := by
  rw [numOfBits, List.range_succ, List.foldl_append]
  rfl

theorem numOfBits_lt (f : Nat → Bool) (n : Nat) : numOfBits f n < 2 ^ n := by
  induction n with
  | zero => exact Nat.one_pos
  | succ n ih =>
    rw [numOfBits_succ, Nat.pow_succ]
    split <;> omega

theorem testBit_numOfBits (f : Nat → Bool) (n i : Nat) : (numOfBits f n).testBit i = (decide (i < n) && f i) := by
  induction n with
  | zero => exact Nat.zero_testBit i
  | succ n ih =>
    have hlt := numOfBits_lt f n
    rw [numOfBits_succ]
    rcases Nat.lt_trichotomy i n with h | rfl | h
    · have hstep : (numOfBits f n + (if f n then 2 ^ n else 0)).testBit i = (numOfBits f n).testBit i := by
        split
        · rw [Nat.add_comm, Nat.testBit_two_pow_add_gt h]
        · rfl
      rw [hstep, ih, decide_eq_true h, decide_eq_true (Nat.lt_succ_of_lt h)]
    · rw [decide_eq_true (Nat.lt_succ_self i), Bool.true_and]
      split
      case isTrue hf => rw [Nat.add_comm, Nat.testBit_two_pow_add_eq, Nat.testBit_lt_two_pow hlt, hf]; rfl
      case isFalse hf => rw [Nat.add_zero, Nat.testBit_lt_two_pow hlt, Bool.eq_false_of_not_eq_true hf]
    · have hsucc := numOfBits_lt f (n + 1)
      rw [numOfBits_succ] at hsucc
      rw [Nat.testBit_lt_two_pow (hsucc.trans_le (Nat.pow_le_pow_right (by decide) h)), decide_eq_false (by omega), Bool.false_and]

/-! Predicate writes (R222) -/

theorem writePred_eq (x : Core) (q : Nat) (f : Nat → Bool) : writePred x q f = x.qset q (BitVec.ofNat 512 (numOfBits f x.vl)) := rfl

theorem qget_qset_self (x : Core) {q : Nat} (v : BitVec 512) (h : q ≠ 0) : (x.qset q v).qget q = v := by
  rw [Core.qset, if_neg h, Core.qget, if_neg h, sget_sset_self]

theorem qset_zero (x : Core) (v : BitVec 512) : x.qset 0 v = x := if_pos rfl

theorem qset_frame (x : Core) (q : Nat) (v : BitVec 512) : x.qset q v = { x with qs := (x.qset q v).qs } := by
  unfold Core.qset
  split <;> rfl

/-- A predicate write holds the bits below VL that it was given, and no others. -/
theorem getLsbD_writePred (x : Core) {q i : Nat} (f : Nat → Bool) (hq : q ≠ 0) (hi : i < 512) :
    ((writePred x q f).qget q).getLsbD i = (decide (i < x.vl) && f i) := by
  rw [writePred_eq, qget_qset_self _ _ hq, BitVec.getLsbD_ofNat, testBit_numOfBits, decide_eq_true hi, Bool.true_and]

/-- What an instruction with result bits g leaves of a core. -/
structure PredWritten (x z : Core) (q : Nat) (m : Bool) (g : Nat → Bool) : Prop where
  vs : z.vs = x.vs
  xs : z.xs = x.xs
  pc : z.pc = x.pc
  zero : q = 0 → z.qs = x.qs
  bits : q ≠ 0 → ∀ i < 512, (z.qget q).getLsbD i = if x.vl ≤ i then false else if i ∈ actives x m then g i else (x.qget q).getLsbD i

theorem writePred_keeps (x : Core) (q : Nat) (m : Bool) (g : Nat → Bool) : PredWritten x (writePred x q (keepBits x m q g)) q m g where
  vs := by rw [writePred_eq, qset_frame]
  xs := by rw [writePred_eq, qset_frame]
  pc := by rw [writePred_eq, qset_frame]
  zero hq := by rw [writePred_eq, hq, qset_zero]
  bits hq i hi := by
    rw [getLsbD_writePred _ _ hq hi]
    by_cases hvl : x.vl ≤ i
    · rw [if_pos hvl, decide_eq_false (Nat.not_lt.mpr hvl), Bool.false_and]
    · rw [if_neg hvl, decide_eq_true (Nat.lt_of_not_le hvl), Bool.true_and, keepBits]
      simp only [List.contains_iff_mem]

theorem PredWritten.raise {x z : Core} {q : Nat} {m : Bool} {g : Nat → Bool} (h : PredWritten x z q m g) (fl : Flags) :
    PredWritten x (z.raise fl) q m g := ⟨h.vs, h.xs, h.pc, h.zero, h.bits⟩

theorem PredWritten.congr {x z : Core} {q : Nat} {m : Bool} {g g' : Nat → Bool} (h : PredWritten x z q m g) (hg : ∀ i, g i = g' i) :
    PredWritten x z q m g' := funext hg ▸ h

/-! Moves of elements -/

/-- An element's number is below its width. -/
theorem toNat_elemOf_mod (v w i : Nat) : (elemOf v w i).toNat % 2 ^ w = (elemOf v w i).toNat := by
  rcases Nat.le_total w 64 with h | h
  · rw [elemOf, BitVec.toNat_ofNat, Nat.mod_mod_of_dvd _ (Nat.pow_dvd_pow 2 h), Nat.mod_mod,
      Nat.mod_eq_of_lt ((Nat.mod_lt _ (Nat.two_pow_pos w)).trans_le (Nat.pow_le_pow_right (by decide) h))]
  · exact Nat.mod_eq_of_lt ((elemOf v w i).isLt.trans_le (Nat.pow_le_pow_right (by decide) h))

/-- An element that an element of the same width takes is unchanged. -/
theorem ofNat_elemOf (v w i : Nat) : BitVec.ofNat 64 ((elemOf v w i).toNat % 2 ^ w) = elemOf v w i := by
  rw [toNat_elemOf_mod, BitVec.ofNat_toNat, BitVec.setWidth_eq]

section
variable {k : Nat} {x : Core} {m : Bool} {vd a i : Nat} (h : x.vl ≤ x.cap k) (hi : i < x.cap k)
include h hi

/-- The active elements take elements of another group, by index. -/
theorem vElemAt_moved {j : Nat} (r : Nat → R) (hm : i ∈ actives x m) (hr : (r i).1 = Safety.vElemAt k x a j) :
    Safety.vElemAt k (writeActive k x vd x.sewBits ((actives x m).map (fun i => (i, r i)))) vd i = Safety.vElemAt k x a j := by
  rw [vElemAt_writeActive_actives m r h hi, if_pos hm, hr]
  exact ofNat_elemOf ..

theorem vElemAt_unmoved (r : Nat → R) (hm : i ∉ actives x m) :
    Safety.vElemAt k (writeActive k x vd x.sewBits ((actives x m).map (fun i => (i, r i)))) vd i = Safety.vElemAt k x vd i := by
  rw [vElemAt_writeActive_actives m r h hi, if_neg hm]

end

/-- The results of a compression: the active elements in their order, then what is left over. -/
def compressed (act : List Nat) (vl : Nat) (el free : Nat → W64) : List (Nat × R) :=
  (List.range vl).filterMap (fun j => match act[j]? with
    | some i => some (j, (el i, 0#16))
    | none => if act.contains j then some (j, (free j, 0#16)) else none)

section
variable {act : List Nat} {vl : Nat} {el free : Nat → W64}

theorem compressed_nodup : ((compressed act vl el free).map Prod.fst).Nodup := by
  rw [compressed, List.map_filterMap]
  refine List.nodup_range.filterMap fun i j b hi hj => ?_
  have hfst : ∀ n, b ∈ (match act[n]? with
      | some i => some (n, (el i, 0#16))
      | none => if act.contains n then some (n, (free n, 0#16)) else none : Option (Nat × R)).map Prod.fst → b = n := by
    intro n hn
    cases h : act[n]? with
    | some i => simpa [h, eq_comm] using hn
    | none =>
      simp only [h] at hn
      split at hn <;> simp_all
  exact (hfst i hi).symm.trans (hfst j hj)

theorem mem_compressed {i j : Nat} (hlen : act.length ≤ vl) (h : act[i]? = some j) : (i, (el j, 0#16)) ∈ compressed act vl el free := by
  have hi : i < vl := (List.getElem?_eq_some_iff.mp h).1.trans_le hlen
  exact List.mem_filterMap.mpr ⟨i, List.mem_range.mpr hi, by rw [h]⟩

theorem notMem_compressed {i : Nat} (h : act[i]? = none) (hi : i ∉ act) : ∀ e ∈ compressed act vl el free, e.1 ≠ i := by
  rintro e he rfl
  obtain ⟨j, -, hj⟩ := List.mem_filterMap.mp he
  cases hg : act[j]? with
  | some i' =>
    rw [hg] at hj
    obtain rfl := Option.some.inj hj
    exact Option.some_ne_none _ (hg.symm.trans h)
  | none =>
    rw [hg] at hj
    by_cases hc : act.contains j = true
    · rw [if_pos hc] at hj
      obtain rfl := Option.some.inj hj
      exact hi (List.contains_iff_mem.mp hc)
    · rw [if_neg hc] at hj
      exact Option.some_ne_none _ hj.symm

end

/-! The instructions -/

section
variable {s : State} {k : Fin 216} {kind : VKind} {m toF : Bool} {ra imm : Fin 8} {rd a b : Fin 32}

theorem exec_vTrip : exec (.vTrip k rd a) s = execVTrip k rd a s := rfl
theorem exec_vQsel : exec (.vQsel k imm) s = execVQsel k imm s := rfl
theorem exec_vMvx : exec (.vMvx k toF rd a b) s = execVMvx k toF rd a b s := rfl
theorem exec_vCmp {rel : CmpOp} {src : VSrc} : exec (.vCmp k rel kind m rd a src) s = execVCmp k rel kind m rd a src s := rfl
theorem exec_vPermute {op : PermOp} : exec (.vPermute k op m rd) s = execVPermute k op m rd s := rfl
theorem exec_vRsum {op : RedOp} : exec (.vRsum k op kind m rd a) s = execVRsum k op kind m rd a s := rfl
theorem exec_vRsumo : exec (.vRsumo k kind m ra rd a) s = execVRsumo k kind m ra rd a s := rfl
theorem exec_vCvt {src dst : Fin 256} : exec (.vCvt k src dst m ra rd a) s = execVCvt k src dst m ra rd a s := rfl

end

/-- The element that a move picks within the group's capacity. -/
theorem pickElem_of_lt {k : Nat} {x : Core} {r i : Nat} (h : i < x.cap k) : pickElem k x r i = Safety.vElemAt k x r i := if_pos h

section
variable {s : State} {k : Fin 216} (hr : Safety.Runs s k) (kind : VKind) (m : Bool) (ra : Fin 8) (rd a b : Fin 32)
include hr

omit hr in
/-- An instruction that has written its predicate register. -/
theorem pred_goes_on {i : Instr} {z : Core} {g : Nat → Bool} (he : exec i s = .next (Safety.goneOn s k z))
    (hz : PredWritten (Safety.stepped s k) z rd m g) :
    ∃ z, exec i s = .next (Safety.goneOn s k z) ∧ z.vs = (core s.pkg k).vs ∧ z.xs = (core s.pkg k).xs ∧
      z.pc = (core s.pkg k).pc + 4 ∧ (rd = 0 → z.qs = (core s.pkg k).qs) ∧
      (rd ≠ 0 → ∀ i < 512, (z.qget rd).getLsbD i = if (core s.pkg k).vl ≤ i then false
        else if i ∈ actives (core s.pkg k) m then g i else ((core s.pkg k).qget rd).getLsbD i) :=
  ⟨z, he, hz.vs, hz.xs, hz.pc, fun h => hz.zero (congrArg Fin.val h), fun h => hz.bits (fun h0 => h (Fin.ext h0))⟩

theorem vMvx_moves (hg : groupOk k (core s.pkg k) [a] = true) :
    ∃ v : W64, (((core s.pkg k).xget b).toNat < (core s.pkg k).cap k → v = Safety.vElemAt k (core s.pkg k) a ((core s.pkg k).xget b).toNat) ∧
      exec (.vMvx k true rd a b) s = .next (Safety.goneOn s k (Core.fset k (Safety.stepped s k) rd v)) ∧
      ((core s.pkg k).awake = true → exec (.vMvx k false rd a b) s =
        .next (Safety.goneOn s k ((Safety.stepped s k).xset rd (extendTo64 (core s.pkg k).sewBits v.toNat)))) :=
  ⟨pickElem k (Safety.stepped s k) a ((core s.pkg k).xget b).toNat, fun h => pickElem_of_lt h,
    exec_vMvx.trans (scalar_goes_on hr (cneed_bind_pass hg)), fun ha => exec_vMvx.trans (vector_goes_on hr ha (cneed_bind_pass hg))⟩

variable (ha : (core s.pkg k).awake = true)
include ha

theorem vRsumo_nil (hg : groupOk k (core s.pkg k) [rd, a] = true) (hk : kindOk (core s.pkg k) kind = true)
    (h : actives (core s.pkg k) m = []) :
    ∃ v, exec (.vRsumo k kind m ra rd a) s = .next (Safety.goneOn s k (writeFirst k (Safety.stepped s k) rd (v, 0#16))) := by
  refine ⟨Config.operandWord 4 [groupBits k (Safety.stepped s k) a (Safety.stepped s k).g, (core s.pkg k).vl, (core s.pkg k).sewBits] 0,
    exec_vRsumo.trans (vector_goes_on hr ha ((cneed_bind_pass hk).trans ((cneed_bind_pass hg).trans ?_)))⟩
  rw [stepped_actives, h]
  rfl

theorem vRsumo_cons (hg : groupOk k (core s.pkg k) [rd, a] = true) (hk : kindOk (core s.pkg k) kind = true) {i : Nat} {r : List Nat}
    (h : actives (core s.pkg k) m = i :: r) : exec (.vRsumo k kind m ra rd a) s = .next (Safety.goneOn s k (writeFirst k (Safety.stepped s k) rd
      (r.foldl (fun (t : R) j =>
        let u := vElem (floatOf (core s.pkg k).sew) (rndOfRa ra s.pkg.cfg.radef) .add kind (core s.pkg k).sewBits t.1
          (Safety.vElemAt k (core s.pkg k) a j) 0#64
        (u.1, t.2 ||| u.2)) (Safety.vElemAt k (core s.pkg k) a i, 0#16)))) := by
  refine exec_vRsumo.trans (vector_goes_on hr ha ((cneed_bind_pass hk).trans ((cneed_bind_pass hg).trans ?_)))
  rw [stepped_actives, h]
  rfl

end

/-- The moves of a permutation: element i takes element j of group a where f i j, the inactive ones that take none stay. -/
def Moves (s : State) (k : Fin 216) (op : PermOp) (m : Bool) (rd a : Fin 32) (f : Nat → Nat → Prop) : Prop :=
  ∃ z, exec (.vPermute k op m rd) s = .next (Safety.goneOn s k z) ∧ z.xs = (core s.pkg k).xs ∧ z.pc = (core s.pkg k).pc + 4 ∧
    ∀ i < (core s.pkg k).cap k, (∀ j, f i j → Safety.vElemAt k z rd i = Safety.vElemAt k (core s.pkg k) a j) ∧
      (i ∉ actives (core s.pkg k) m → (∀ j, ¬f i j) → Safety.vElemAt k z rd i = Safety.vElemAt k (core s.pkg k) rd i)

theorem moves_of_written {s : State} {k : Fin 216} {op : PermOp} {m : Bool} {rd a : Fin 32} {out : List (Nat × R)} {f : Nat → Nat → Prop}
    (he : execVPermute k op m rd s = .next (Safety.goneOn s k (writeActive k (Safety.stepped s k) rd (Safety.stepped s k).sewBits out)))
    (hm : ∀ i < (core s.pkg k).cap k, ∀ j, f i j →
      Safety.vElemAt k (writeActive k (Safety.stepped s k) rd (Safety.stepped s k).sewBits out) rd i = Safety.vElemAt k (Safety.stepped s k) a j)
    (hu : ∀ i < (core s.pkg k).cap k, i ∉ actives (core s.pkg k) m → (∀ j, ¬f i j) →
      Safety.vElemAt k (writeActive k (Safety.stepped s k) rd (Safety.stepped s k).sewBits out) rd i =
        Safety.vElemAt k (Safety.stepped s k) rd i) : Moves s k op m rd a f :=
  ⟨_, exec_vPermute.trans he, writeActive_xs .., writeActive_pc .., fun i hi => ⟨hm i hi, hu i hi⟩⟩

section
variable {s : State} {k : Fin 216} (hr : Safety.Runs s k) (ha : (core s.pkg k).awake = true) (m : Bool) (rd a b : Fin 32)
  (hg : groupOk k (core s.pkg k) [rd, a] = true) (hvl : (core s.pkg k).vl ≤ (core s.pkg k).cap k)
include hr ha hg hvl

theorem slup_moves : Moves s k (.slup a b) m rd a (fun i j => i ∈ actives (core s.pkg k) m ∧ i = j + ((core s.pkg k).xget b).toNat) := by
  refine moves_of_written (vector_goes_on hr ha (cneed_bind_pass hg)) (fun i hi j hj => ?_)
    (fun i hi hm _ => vElemAt_unmoved (x := Safety.stepped s k) hvl hi _ hm)
  obtain ⟨hm, rfl⟩ := hj
  refine vElemAt_moved (x := Safety.stepped s k) hvl hi _ hm ?_
  dsimp only
  rw [stepped_xget, if_pos (Nat.le_add_left ..), Nat.add_sub_cancel]
  rfl

theorem sldn_moves : Moves s k (.sldn a b) m rd a
    (fun i j => i ∈ actives (core s.pkg k) m ∧ j = i + ((core s.pkg k).xget b).toNat ∧ j < (core s.pkg k).vl) := by
  refine moves_of_written (vector_goes_on hr ha (cneed_bind_pass hg)) (fun i hi j hj => ?_)
    (fun i hi hm _ => vElemAt_unmoved (x := Safety.stepped s k) hvl hi _ hm)
  obtain ⟨hm, rfl, hj⟩ := hj
  refine vElemAt_moved (x := Safety.stepped s k) hvl hi _ hm ?_
  dsimp only
  rw [stepped_xget, stepped_vl, if_pos hj]
  rfl

theorem cmpr_moves : Moves s k (.cmpr a) m rd a (fun i j => (actives (core s.pkg k) m)[i]? = some j) := by
  have hlen : (actives (Safety.stepped s k) m).length ≤ (Safety.stepped s k).vl :=
    (List.length_filter_le ..).trans_eq List.length_range
  refine moves_of_written (out := compressed (actives (Safety.stepped s k) m) (Safety.stepped s k).vl (Safety.vElemAt k (Safety.stepped s k) a) _)
    (vector_goes_on hr ha (cneed_bind_pass hg)) (fun i hi j hj => ?_) (fun i hi hm hn => ?_)
  · exact (vElemAt_writeActive_of_mem (x := Safety.stepped s k) hvl hi compressed_nodup (mem_compressed hlen hj)).trans (ofNat_elemOf ..)
  · have hnone : (actives (core s.pkg k) m)[i]? = none := Option.eq_none_iff_forall_not_mem.mpr hn
    exact vElemAt_writeActive_of_notMem (x := Safety.stepped s k) hvl hi (notMem_compressed hnone hm)

end

/-! Conversions (R58 to R62) -/

theorem width_pos (f : Fmt) : 0 < f.width := by cases f <;> decide

/-- Elements below VL lie in the registers that their results take. -/
theorem mul_succ_le_of_lt_vl {k : Nat} {x : Core} {w i : Nat} (h : i < x.vl) : w * (i + 1) ≤ vbits k * resultRegs k x w := by
  have hv := vbits_pos k
  have hceil : w * x.vl ≤ vbits k * cdiv (w * x.vl) (vbits k) := by
    have := Nat.lt_mul_div_succ (w * x.vl + vbits k - 1) hv
    rw [cdiv]
    rw [Nat.mul_succ] at this
    omega
  exact (Nat.mul_le_mul_left _ h).trans (hceil.trans (Nat.mul_le_mul_left _ (Nat.le_max_left ..)))

/-- The elements that fill up the last unit of a packed format. -/
def unitPads (g : Fmt) (vl : Nat) : List (Nat × R) :=
  let per := if g = .h6 then 4 else if g = .q4 then 2 else 1
  (List.range ((per - vl % per) % per)).map (fun j => (vl + j, (0#64, 0#16)))

theorem padded_nodup (x : Core) (m : Bool) (r : Nat → R) (g : Fmt) :
    ((((actives x m).map (fun i => (i, r i))) ++ unitPads g x.vl).map Prod.fst).Nodup := by
  rw [unitPads, List.map_append, List.map_map, List.map_map, show Prod.fst ∘ (fun i => (i, r i)) = id from rfl, List.map_id]
  refine (actives_nodup x m).append (List.nodup_range.map fun _ _ => Nat.add_left_cancel) fun i hi hp => ?_
  obtain ⟨j, -, rfl⟩ := List.mem_map.mp hp
  exact absurd (mem_actives.mp hi).1 (Nat.not_lt.mpr (Nat.le_add_right ..))

theorem elemOf_padded {k : Nat} {x : Core} {m : Bool} (vd : Nat) (g : Fmt) (r : Nat → R) {i : Nat} (hi : i ∈ actives x m) :
    elemOf (groupBits k (writeActive k x vd g.width ((actives x m).map (fun i => (i, r i)) ++ unitPads g x.vl)) vd
      (max x.g (cdiv (g.width * x.vl) (vbits k)))) g.width i = BitVec.ofNat 64 ((r i).1.toNat % 2 ^ g.width) := by
  rw [Nat.max_comm]
  exact elemOf_writeActive_of_mem (width_pos g) (mul_succ_le_of_lt_vl (mem_actives.mp hi).1) (padded_nodup x m r g)
    (List.mem_append_left _ (List.mem_map.mpr ⟨i, hi, rfl⟩))

theorem vCvt_converts {s : State} {k : Fin 216} (hr : Safety.Runs s k) (ha : (core s.pkg k).awake = true) (m : Bool) (ra : Fin 8) (rd a : Fin 32)
    {src dst : Fin 256} {f g : Fmt} (hf : fmtOfCode src = some f) (hg : fmtOfCode dst = some g) (hff : f.isFixed = false)
    (hgf : g.isFixed = false) (hgroup : groupOk k (core s.pkg k) [rd, a] = true)
    (hna : a.val + max (core s.pkg k).g (cdiv (f.width * (core s.pkg k).vl) (vbits k)) ≤ vregs k)
    (hnd : rd.val + max (core s.pkg k).g (cdiv (g.width * (core s.pkg k).vl) (vbits k)) ≤ vregs k) :
    ∃ z, exec (.vCvt k src dst m ra rd a) s = .next (Safety.goneOn s k z) ∧ z.xs = (core s.pkg k).xs ∧ z.qs = (core s.pkg k).qs ∧
      z.pc = (core s.pkg k).pc + 4 ∧ ∀ i ∈ actives (core s.pkg k) m,
        elemOf (groupBits k z rd (max (core s.pkg k).g (cdiv (g.width * (core s.pkg k).vl) (vbits k)))) g.width i =
          BitVec.ofNat 64 ((convert (rndOfRa ra s.pkg.cfg.radef) f {} g {}
            (elemOf (groupBits k (core s.pkg k) a (max (core s.pkg k).g (cdiv (f.width * (core s.pkg k).vl) (vbits k)))) f.width i)).1.toNat %
              2 ^ g.width) := by
  have hfit : (groupOk k (core s.pkg k) [rd, a] && decide (a.val + max (core s.pkg k).g (cdiv (f.width * (core s.pkg k).vl) (vbits k)) ≤ vregs k) &&
      decide (rd.val + max (core s.pkg k).g (cdiv (g.width * (core s.pkg k).vl) (vbits k)) ≤ vregs k)) = true := by
    rw [hgroup, decide_eq_true hna, decide_eq_true hnd]; rfl
  have hfix : (!f.isFixed && !g.isFixed) = true := by rw [hff, hgf]; rfl
  have he : exec (.vCvt k src dst m ra rd a) s = .next (Safety.goneOn s k (writeActive k (Safety.stepped s k) rd g.width
      ((actives (Safety.stepped s k) m).map (fun i => (i, convert (rndOfRa ra s.pkg.cfg.radef) f {} g {}
        (elemOf (groupBits k (Safety.stepped s k) a (max (core s.pkg k).g (cdiv (f.width * (core s.pkg k).vl) (vbits k)))) f.width i))) ++
        unitPads g (Safety.stepped s k).vl))) := by
    refine exec_vCvt.trans (vector_goes_on hr ha ?_)
    rw [hf, hg]
    exact (cneed_bind_pass hfix).trans (cneed_bind_pass hfit)
  exact ⟨_, he, writeActive_xs .., writeActive_qs .., writeActive_pc .., fun i hi => elemOf_padded (x := Safety.stepped s k) rd g _ hi⟩

/-- Settles O56: past its checks each instruction is one write of its results. -/
theorem vectorOperations : Obligations.VectorOperations := by
  intro s k kind m ra rd a b hr x y act w rm becomes pred
  refine ⟨fun imm himm => ?shape, exec_vTrip.trans (scalar_goes_on hr rfl), fun imm => exec_vQsel.trans (scalar_goes_on hr rfl),
    fun hg => vMvx_moves hr rd a b hg, fun ha => ⟨fun rel src hk hrd hg => ?cmp, fun hrd hqa hqb => ?logic, ?pop, fun hg => ?bcast, fun hg => ?group,
      fun src dst f g hf hg hff hgf hgroup hna hnd => vCvt_converts hr ha m ra rd a hf hg hff hgf hgroup hna hnd⟩⟩
  case shape =>
    refine exec_vShape.trans (scalar_goes_on hr (cneed_bind_pass ?_))
    rcases himm with h | h
    · rw [h]; rfl
    · rw [Nat.div_eq_of_lt h]
      exact Bool.or_true _
  case cmp =>
    have hok : (decide (rd.val ≤ 7) && groupOk k x ([a.val] ++ srcRegs src)) = true := by rw [decide_eq_true hrd, hg]; rfl
    refine pred_goes_on m rd (exec_vCmp.trans (vector_goes_on hr ha ((cneed_bind_pass hk).trans (cneed_bind_pass hok))))
      (((writePred_keeps ..).raise _).congr fun i => ?_)
    dsimp only
    rw [stepped_sew]
    cases kind <;> cases floatOf (core s.pkg k).sew <;> rfl
  case logic =>
    have hok : (decide (rd.val ≤ 7) && decide (a.val ≤ 7)) = true := by rw [decide_eq_true hrd, decide_eq_true hqa]; rfl
    have hok' : (decide (rd.val ≤ 7) && decide (a.val ≤ 7) && decide (b.val ≤ 7)) = true := by rw [hok, decide_eq_true hqb]; rfl
    exact ⟨pred_goes_on m rd (exec_vPredicateLogic.trans (vector_goes_on hr ha (cneed_bind_pass hok'))) (writePred_keeps ..),
      pred_goes_on m rd (exec_vPredicateLogic.trans (vector_goes_on hr ha (cneed_bind_pass hok'))) (writePred_keeps ..),
      pred_goes_on m rd (exec_vPredicateLogic.trans (vector_goes_on hr ha (cneed_bind_pass hok))) (writePred_keeps ..)⟩
  case pop => exact exec_vPredicateLogic.trans (vector_goes_on hr ha rfl)
  case bcast => exact exec_vPermute.trans (vector_goes_on hr ha (cneed_bind_pass hg))
  case group =>
    refine ⟨exec_vPermute.trans (vector_goes_on hr ha (cneed_bind_pass hg)),
      fun op hk => exec_vRsum.trans (vector_goes_on hr ha ((cneed_bind_pass hk).trans (cneed_bind_pass hg))),
      fun hk => ⟨vRsumo_nil hr kind m ra rd a ha hg hk, fun i r => vRsumo_cons hr kind m ra rd a ha hg hk⟩,
      fun hvl _ _ => ⟨slup_moves hr ha m rd a b hg hvl, sldn_moves hr ha m rd a b hg hvl, cmpr_moves hr ha m rd a hg hvl⟩⟩

end Sys2Proof.Machine
end

section
/-! PROOFS. Vector loads, stores, gathers and scatters (R217, R222, R224, R227): O57. -/

namespace Sys2Proof.Machine

section
variable {s : State} {k : Fin 216} {kind : VKind} {m : Bool} {ra : Fin 8} {v a b : Fin 32}

theorem exec_vLdSt {op : VMemOp} : exec (.vLdSt k op m v) s = execVLdSt k op m v s := rfl
theorem exec_vGath : exec (.vGath k m v a b) s = execVGath k m v a b s := rfl
theorem exec_vScat : exec (.vScat k m v a b) s = execVScat k m v a b s := rfl
theorem exec_vScadd : exec (.vScadd k kind m ra v a b) s = execVScadd k kind m ra v a b s := rfl
theorem exec_vQldQst {op : QMemOp} : exec (.vQldQst k op v a) s = execVQldQst k op v a s := rfl

end

/-! A sleeping vector unit (R227) -/

section
variable {s : State} {k : Nat} (hr : Safety.Runs s k) (ha : (core s.pkg k).awake = false) (f : Clock → Pkg → Core → CoreR (Pkg × Core))
include hr ha

theorem coreExec_sleeping : coreExec k true s f = .next (Safety.withPkg s
    (if (core s.pkg k).waking.isSome then s.pkg else setCore s.pkg k { core s.pkg k with waking := some (s.clk.up / 5 + 160) })) := by
  obtain ⟨hready, hfetch⟩ := hr
  unfold coreExec
  rw [run_eq]
  simp only [hready, hfetch, ha, Bool.not_true, Bool.not_false, Bool.true_and, Bool.false_eq_true, if_false, if_true]
  rfl

theorem coreExec_wakes (hw : (core s.pkg k).waking = none) :
    coreExec k true s f = .next (Safety.withCore s k { core s.pkg k with waking := some (s.clk.up / 5 + 160) }) := by
  rw [coreExec_sleeping hr ha, hw]
  rfl

theorem coreExec_waking (hw : (core s.pkg k).waking.isSome = true) : coreExec k true s f = .next s := by
  rw [coreExec_sleeping hr ha, if_pos hw]

end

/-! Element loads and stores within reach -/

/-- An aligned access within reach of a core, in a package without erroneous lines. -/
structure Access (p : Pkg) (k : Nat) (x : Core) (a n : Nat) : Prop where
  clean : Clean p
  reaches : Reaches p k x a n
  aligned : a % n = 0

theorem access_of {s : State} {k a n : Nat} (h : Safety.OwnAccess s k a n ∨ Safety.SliceAccess s k a n) : Access s.pkg k (Safety.stepped s k) a n := by
  rcases h with ⟨hb, ha⟩ | ⟨hb, ha⟩
  · exact ⟨(OwnBytes.reaches hb).1, (OwnBytes.reaches hb).2, ha⟩
  · exact ⟨(SliceBytes.reaches hb).1, (SliceBytes.reaches hb).2, ha⟩

theorem Access.stored {p q : Pkg} {k a n : Nat} {x y : Core} {m : Mem} (h : Access p k x a n) (hst : Stored p q x y m) : Access q k y a n :=
  ⟨hst.clean h.clean, hst.reaches h.reaches, h.aligned⟩

theorem loadElems_reaches {p : Pkg} (c : Clock) {k : Nat} (hk : k < 216) {x : Core} {n : Nat} : ∀ l : List (Nat × Nat),
    (∀ e ∈ l, Access p k x e.2 n) →
    loadElems p c k x n l = .ok (p, x, l.map (fun e => (e.1, (BitVec.ofNat 64 (mnat (viewFor p c x) e.2 n), 0#16))))
  | [], _ => rfl
  | (i, a) :: l, h => by
    obtain ⟨⟨hp, hreach, ha⟩, hl⟩ := List.forall_mem_cons.mp h
    rw [loadElems, coreLoad_reaches hp hk hreach c ha]
    simp only [coreR_ok_bind, loadElems_reaches c hk l hl, List.map_cons]
    rfl

/-- Memory after elements of n bytes were stored one after the other. -/
def storedMem (n : Nat) (m : Mem) (l : List (Nat × W64)) : Mem := l.foldl (fun m e => mwrite m e.1 (natLe n e.2.toNat)) m

theorem storeElems_reaches (c : Clock) {k : Nat} (hk : k < 216) {n : Nat} : ∀ (l : List (Nat × W64)) {p : Pkg} {x : Core},
    (∀ e ∈ l, Access p k x e.1 n) → ∃ q y, storeElems p c k x n l = .ok (q, y) ∧ Stored p q x y (storedMem n p.mem l)
  | [], p, x, _ => ⟨p, x, rfl, Stored.refl p x⟩
  | (a, v) :: l, p, x, h => by
    obtain ⟨⟨hp, hreach, ha⟩, hl⟩ := List.forall_mem_cons.mp h
    obtain ⟨q, y, he, hst⟩ := coreStore_reaches (bs := natLe n v.toNat) hp hk (by rwa [natLe_length]) c ha
    obtain ⟨q', y', he', hst'⟩ := storeElems_reaches c hk l fun e hm => (hl e hm).stored hst
    refine ⟨q', y', ?_, ?_⟩
    · rw [storeElems, he]
      exact he'
    · rw [hst.mem] at hst'
      exact hst.trans hst'

theorem mget_storedMem_outside {n c : Nat} : ∀ (l : List (Nat × W64)) (m : Mem), (∀ e ∈ l, c < e.1 ∨ e.1 + n ≤ c) →
    mget (storedMem n m l) c = mget m c
  | [], _, _ => rfl
  | e :: l, m, h => by
    obtain ⟨he, hl⟩ := List.forall_mem_cons.mp h
    exact (mget_storedMem_outside l _ hl).trans (mget_mwrite_outside _ _ _ _ (by rwa [natLe_length]))

theorem mnat_storedMem_outside {n b : Nat} : ∀ (l : List (Nat × W64)) (m : Mem), (∀ e ∈ l, b + n ≤ e.1 ∨ e.1 + n ≤ b) →
    mnat (storedMem n m l) b n = mnat m b n
  | [], _, _ => rfl
  | e :: l, m, h => by
    obtain ⟨he, hl⟩ := List.forall_mem_cons.mp h
    exact (mnat_storedMem_outside l _ hl).trans (mnat_mwrite_outside _ _ (by rwa [natLe_length]))

/-- Aligned elements at different addresses do not meet. -/
theorem aligned_disjoint {a b n : Nat} (ha : a % n = 0) (hb : b % n = 0) (h : a ≠ b) : a + n ≤ b ∨ b + n ≤ a := by
  obtain ⟨i, rfl⟩ := Nat.dvd_of_mod_eq_zero ha
  obtain ⟨j, rfl⟩ := Nat.dvd_of_mod_eq_zero hb
  have hij : i ≠ j := fun hij => h (by rw [hij])
  rcases Nat.lt_or_gt_of_ne hij with hlt | hlt
  · exact .inl (by rw [← Nat.mul_succ]; exact Nat.mul_le_mul_left n hlt)
  · exact .inr (by rw [← Nat.mul_succ]; exact Nat.mul_le_mul_left n hlt)

/-- Of stores in ascending order the highest index at an address wins. -/
theorem mnat_storedMem_last {n i : Nat} (addr : Nat → Nat) (val : Nat → W64) : ∀ (act : List Nat) {m : Mem}, memWf m = true →
    act.Pairwise (· < ·) → (∀ j ∈ act, addr j % n = 0) → i ∈ act → (∀ j ∈ act, i < j → addr j ≠ addr i) →
    mnat (storedMem n m (act.map (fun j => (addr j, val j)))) (addr i) n = (val i).toNat % 2 ^ (8 * n)
  | j :: act, m, hm, hs, hal, hi, hlast => by
    obtain ⟨hj, hs⟩ := List.pairwise_cons.mp hs
    obtain ⟨haj, hrest⟩ := List.forall_mem_cons.mp hal
    rcases List.mem_cons.mp hi with rfl | hi
    · have hdisj : ∀ e ∈ act.map (fun j => (addr j, val j)), addr i + n ≤ e.1 ∨ e.1 + n ≤ addr i := by
        intro e he
        obtain ⟨j, hmem, rfl⟩ := List.mem_map.mp he
        exact aligned_disjoint haj (hrest j hmem) (hlast j (List.mem_cons_of_mem _ hmem) (hj j hmem)).symm
      exact (mnat_storedMem_outside _ _ hdisj).trans (mnat_mwrite_natLe hm ..)
    · exact mnat_storedMem_last addr val act (memWf_mwrite _ _ _ hm) hs hrest hi fun j hmem => hlast j (List.mem_cons_of_mem _ hmem)

theorem actives_ascending (x : Core) (m : Bool) : (actives x m).Pairwise (· < ·) := List.pairwise_lt_range.filter _

/-! Scatter-add (R224) -/

/-- What a scatter-add of elements of n bytes leaves. -/
structure Added (p q : Pkg) (x y : Core) (n : Nat) (l : List (Nat × W64)) (f : W64 → W64 → R) (view : Mem) : Prop where
  vs : y.vs = x.vs
  pc : y.pc = x.pc
  regs : q.regs = p.regs
  outside : ∀ b, (∀ e ∈ l, b < e.1 ∨ e.1 + n ≤ b) → mget q.mem b = mget p.mem b
  single : ∀ a v, l = [(a, v)] → q.mem = mwrite p.mem a (natLe n (f (BitVec.ofNat 64 (mnat view a n)) v).1.toNat)

theorem scatAdd_reaches (c : Clock) {k : Nat} (hk : k < 216) (f : W64 → W64 → R) {n : Nat} : ∀ (l : List (Nat × W64)) {p : Pkg} {x : Core},
    n = x.sewBits / 8 → (∀ e ∈ l, Access p k x e.1 n) →
    ∃ q y, scatAdd p c k x f l = .ok (q, y) ∧ Added p q x y n l f (viewFor p c x)
  | [], p, x, _, _ => ⟨p, x, rfl, rfl, rfl, rfl, fun _ _ => rfl, nofun⟩
  | (a, v) :: l, p, x, hn, h => by
    obtain ⟨⟨hp, hreach, ha⟩, hl⟩ := List.forall_mem_cons.mp h
    obtain ⟨q, y, he, hst⟩ := coreStore_reaches (bs := natLe n (f (BitVec.ofNat 64 (mnat (viewFor p c x) a n)) v).1.toNat) hp hk
      (by rwa [natLe_length]) c ha
    have hsew : n = (y.raise (f (BitVec.ofNat 64 (mnat (viewFor p c x) a n)) v).2).sewBits / 8 := by
      obtain ⟨_, _, rfl⟩ := hst.core
      exact hn
    have hl' : ∀ e ∈ l, Access q k (y.raise (f (BitVec.ofNat 64 (mnat (viewFor p c x) a n)) v).2) e.1 n := fun e hm =>
      ⟨((hl e hm).stored hst).clean, ((hl e hm).stored hst).reaches, (hl e hm).aligned⟩
    obtain ⟨q', y', he', hadd⟩ := scatAdd_reaches c hk f l hsew hl'
    refine ⟨q', y', ?eff, hadd.vs.trans hst.vs, hadd.pc.trans hst.pc, hadd.regs.trans hst.regs, fun b hb => ?outside, fun a' v' hs => ?single⟩
    case eff =>
      rw [mnat] at he he'
      rw [scatAdd, ← hn, coreLoad_reaches hp hk hreach c ha]
      simp only [coreR_ok_bind, he]
      exact he'
    case outside =>
      obtain ⟨hba, hbl⟩ := List.forall_mem_cons.mp hb
      rw [hadd.outside b hbl, hst.mem, mget_mwrite_outside _ _ _ _ (by rwa [natLe_length])]
    case single =>
      obtain ⟨hav, rfl⟩ := List.cons.inj hs
      obtain ⟨rfl, rfl⟩ := Prod.mk.inj hav
      have hq : q' = q := by injection he' with h; exact (Prod.mk.inj h).1.symm
      rw [hq, hst.mem]

end Sys2Proof.Machine
end

section
/-! PROOFS. What the vector memory instructions fill and store (R217, R222, R224): O57. -/

namespace Sys2Proof.Machine

/-! Bits of bytes -/

theorem bit_eq_testBit (n i : Nat) : bit n i = n.testBit i := by
  rw [bit, Nat.shiftRight_eq_div_pow, Nat.testBit_eq_decide_div_mod_eq]
  rfl

theorem testBit_leNat : ∀ (bs : List Byte) (i : Nat), (leNat bs).testBit i = (bs.getD (i / 8) 0).getLsbD (i % 8)
  | [], i => (Nat.zero_testBit i).trans (BitVec.getLsbD_zero).symm
  | b :: bs, i => by
    rw [leNat, Nat.add_comm, show 256 = 2 ^ 8 from rfl, Nat.testBit_two_pow_mul_add _ b.isLt]
    split
    case isTrue h => rw [Nat.div_eq_of_lt h, Nat.mod_eq_of_lt h, List.getD_cons_zero]; rfl
    case isFalse h =>
      have hdiv : i / 8 = (i - 8) / 8 + 1 := by omega
      have hmod : i % 8 = (i - 8) % 8 := by omega
      rw [testBit_leNat, hdiv, hmod, List.getD_cons_succ]

/-- Bit i of n bytes of memory. -/
theorem testBit_mnat (m : Mem) (a : Nat) {n i : Nat} (h : i / 8 < n) : (mnat m a n).testBit i = (mget m (a + i / 8)).getLsbD (i % 8) := by
  rw [mnat, testBit_leNat]
  simp only [mread, List.getD_eq_getElem?_getD, List.getElem?_map, List.getElem?_range h, Option.map_some, Option.getD_some]

/-! Elements and bytes -/

theorem sewBits_bytes (x : Core) : 8 * (x.sewBits / 8) = x.sewBits := by rw [Core.sewBits, Nat.mul_div_cancel_left _ (by decide)]

/-- An element filled with a number of its width. -/
theorem ofNat_mod_of_lt {n w : Nat} (h : n < 2 ^ w) : BitVec.ofNat 64 ((BitVec.ofNat 64 n).toNat % 2 ^ w) = BitVec.ofNat 64 n := by
  have hle : (BitVec.ofNat 64 n).toNat ≤ n := by rw [BitVec.toNat_ofNat]; exact Nat.mod_le ..
  rw [Nat.mod_eq_of_lt (hle.trans_lt h), BitVec.ofNat_toNat, BitVec.setWidth_eq]

/-! What loads fill and stores store -/

/-- The active elements of group v take the words at their addresses. -/
def Fills (s : State) (k : Fin 216) (m : Bool) (v : Fin 32) (o : Out) (addr : Nat → Nat) : Prop :=
  ∃ z, o = .next (Safety.withCore s k z) ∧ z.xs = (core s.pkg k).xs ∧ z.qs = (core s.pkg k).qs ∧ z.pc = (core s.pkg k).pc + 4 ∧
    ∀ i < (core s.pkg k).cap k, Safety.vElemAt k z v i = if i ∈ actives (core s.pkg k) m
      then BitVec.ofNat 64 (mnat (Safety.viewOf s k) (addr i) ((core s.pkg k).sewBits / 8)) else Safety.vElemAt k (core s.pkg k) v i

/-- The words at the active elements' addresses take values, and no other byte. -/
def Stores (s : State) (k : Fin 216) (m : Bool) (o : Out) (addr : Nat → Nat) (val : Nat → Nat → Prop) : Prop :=
  ∃ u, o = .next u ∧ (core u.pkg k).vs = (core s.pkg k).vs ∧ (core u.pkg k).pc = (core s.pkg k).pc + 4 ∧ u.pkg.regs = s.pkg.regs ∧
    (∀ i ∈ actives (core s.pkg k) m, val i (mnat u.pkg.mem (addr i) ((core s.pkg k).sewBits / 8))) ∧
    (∀ c, (∀ i ∈ actives (core s.pkg k) m, c < addr i ∨ addr i + (core s.pkg k).sewBits / 8 ≤ c) → mget u.pkg.mem c = mget s.pkg.mem c)

/-- The value of the highest index at an address. -/
def Last (s : State) (k : Fin 216) (m : Bool) (v : Fin 32) (addr : Nat → Nat) (i w : Nat) : Prop :=
  (∀ j ∈ actives (core s.pkg k) m, i < j → addr j ≠ addr i) → w = (Safety.vElemAt k (core s.pkg k) v i).toNat

section
variable {s : State} {k : Fin 216} (hr : Safety.Runs s k) (ha : (core s.pkg k).awake = true) (m : Bool) (v : Fin 32) {addr : Nat → Nat}
  (h : ∀ i ∈ actives (core s.pkg k) m, Safety.OwnAccess s k (addr i) ((core s.pkg k).sewBits / 8) ∨
    Safety.SliceAccess s k (addr i) ((core s.pkg k).sewBits / 8))
  {f : Clock → Pkg → Core → CoreR (Pkg × Core)}
include hr ha h

theorem loads_fill (hvl : (core s.pkg k).vl ≤ (core s.pkg k).cap k)
    (hf : f s.clk s.pkg (Safety.stepped s k) =
      (loadElems s.pkg s.clk k (Safety.stepped s k) ((core s.pkg k).sewBits / 8) ((actives (core s.pkg k) m).map (fun i => (i, addr i))) >>=
        fun e => .ok (e.1, writeActive k e.2.1 v e.2.1.sewBits e.2.2))) :
    Fills s k m v (coreExec k true s f) addr := by
  have hload : loadElems s.pkg s.clk k (Safety.stepped s k) ((core s.pkg k).sewBits / 8)
      ((actives (core s.pkg k) m).map (fun i => (i, addr i))) = .ok (s.pkg, Safety.stepped s k, (actives (core s.pkg k) m).map
        (fun i => (i, (BitVec.ofNat 64 (mnat (Safety.viewOf s k) (addr i) ((core s.pkg k).sewBits / 8)), 0#16)))) := by
    rw [loadElems_reaches s.clk k.isLt, List.map_map]
    · rfl
    · intro e he
      obtain ⟨i, hi, rfl⟩ := List.mem_map.mp he
      exact access_of (h i hi)
  rw [hload, coreR_ok_bind] at hf
  obtain ⟨hpc, hxs, hqs, hel, -, -⟩ := (writeActive_elements (x := Safety.stepped s k) hvl v m
    (fun i => (BitVec.ofNat 64 (mnat (Safety.viewOf s k) (addr i) ((core s.pkg k).sewBits / 8)), 0#16))).of_stepped
  refine ⟨_, vector_goes_on hr ha hf, hxs, hqs, hpc, fun i hi => (hel i hi).trans ?_⟩
  have hw := mnat_lt (Safety.viewOf s k) (addr i) ((core s.pkg k).sewBits / 8)
  rw [sewBits_bytes] at hw
  rw [ofNat_mod_of_lt hw]

theorem stores_last (hm : memWf s.pkg.mem = true)
    (hf : f s.clk s.pkg (Safety.stepped s k) = storeElems s.pkg s.clk k (Safety.stepped s k) ((core s.pkg k).sewBits / 8)
      ((actives (core s.pkg k) m).map (fun i => (addr i, Safety.vElemAt k (core s.pkg k) v i)))) :
    Stores s k m (coreExec k true s f) addr (Last s k m v addr) := by
  obtain ⟨q, y, he, hst⟩ := storeElems_reaches s.clk k.isLt (n := (core s.pkg k).sewBits / 8)
    ((actives (core s.pkg k) m).map (fun i => (addr i, Safety.vElemAt k (core s.pkg k) v i))) (p := s.pkg) (x := Safety.stepped s k)
    fun e he => by
      obtain ⟨i, hi, rfl⟩ := List.mem_map.mp he
      exact access_of (h i hi)
  refine ⟨_, vector_completes hr ha (hf.trans he), ?_, ?_, hst.regs, fun i hi hlast => ?_, fun c hc => ?_⟩
  · rw [core_setCore_self]; exact hst.vs
  · rw [core_setCore_self]; exact hst.pc
  · rw [setCore_mem, hst.mem, mnat_storedMem_last addr (Safety.vElemAt k (core s.pkg k) v) _ hm (actives_ascending _ m)
      (fun j hj => (access_of (h j hj)).aligned) hi hlast, sewBits_bytes]
    exact toNat_elemOf_mod ..
  · rw [setCore_mem, hst.mem, mget_storedMem_outside]
    intro e he
    obtain ⟨i, hi, rfl⟩ := List.mem_map.mp he
    exact hc i hi

theorem stores_added (hm : memWf s.pkg.mem = true) {g : W64 → W64 → R}
    (hf : f s.clk s.pkg (Safety.stepped s k) = scatAdd s.pkg s.clk k (Safety.stepped s k) g
      ((actives (core s.pkg k) m).map (fun i => (addr i, Safety.vElemAt k (core s.pkg k) v i)))) :
    Stores s k m (coreExec k true s f) addr (fun i w => actives (core s.pkg k) m = [i] →
      w = (g (BitVec.ofNat 64 (mnat (Safety.viewOf s k) (addr i) ((core s.pkg k).sewBits / 8))) (Safety.vElemAt k (core s.pkg k) v i)).1.toNat %
        2 ^ (core s.pkg k).sewBits) := by
  obtain ⟨q, y, he, hadd⟩ := scatAdd_reaches s.clk k.isLt g (n := (core s.pkg k).sewBits / 8)
    ((actives (core s.pkg k) m).map (fun i => (addr i, Safety.vElemAt k (core s.pkg k) v i))) (p := s.pkg) (x := Safety.stepped s k) rfl
    fun e he => by
      obtain ⟨i, hi, rfl⟩ := List.mem_map.mp he
      exact access_of (h i hi)
  refine ⟨_, vector_completes hr ha (hf.trans he), ?_, ?_, hadd.regs, fun i hi hone => ?_, fun c hc => ?_⟩
  · rw [core_setCore_self]; exact hadd.vs
  · rw [core_setCore_self]; exact hadd.pc
  · rw [setCore_mem, hadd.single (addr i) (Safety.vElemAt k (core s.pkg k) v i) (by rw [hone]; rfl), mnat_mwrite_natLe hm, sewBits_bytes,
      viewFor_stepped]
  · rw [setCore_mem]
    refine hadd.outside c fun e he => ?_
    obtain ⟨i, hi, rfl⟩ := List.mem_map.mp he
    exact hc i hi

end

/-! Gathers and scatters (R224) -/

theorem mapM_ok {α β : Type} {f : α → CoreR β} {g : α → β} : ∀ {l : List α}, (∀ a ∈ l, f a = .ok (g a)) → l.mapM f = .ok (l.map g)
  | [], _ => rfl
  | a :: l, h => by
    obtain ⟨ha, hl⟩ := List.forall_mem_cons.mp h
    rw [List.mapM_cons, ha, mapM_ok hl]
    rfl

/-- The address of element i, as group idx of indices gives it. -/
def indexAddr (k : Nat) (x : Core) (rs1 idx i : Nat) : Nat := ((x.xget rs1).toNat + (Safety.vElemAt k x idx i).toNat * (x.sewBits / 8)) % 2 ^ 64

theorem gathAddr_eq {k : Nat} {x : Core} {rs1 idx i : Nat} (ha : indexAddr k x rs1 idx i % (x.sewBits / 8) = 0)
    (ho : inOwn k (indexAddr k x rs1 idx i) (x.sewBits / 8) = true) :
    gathAddr k x rs1 (groupBits k x idx x.g) i = .ok (indexAddr k x rs1 idx i) :=
  (cneed_bind_pass (beq_iff_eq.mpr ha)).trans (cneed_bind_pass ho)

theorem gathers_ok {k : Nat} {x : Core} {m : Bool} {rs1 idx : Nat} {β : Type} (g : Nat → Nat → β)
    (h : ∀ i ∈ actives x m, indexAddr k x rs1 idx i % (x.sewBits / 8) = 0 ∧ inOwn k (indexAddr k x rs1 idx i) (x.sewBits / 8) = true) :
    (actives x m).mapM (fun i => (gathAddr k x rs1 (groupBits k x idx x.g) i).map (g i)) =
      .ok ((actives x m).map (fun i => g i (indexAddr k x rs1 idx i))) :=
  mapM_ok fun i hi => by rw [gathAddr_eq (h i hi).1 (h i hi).2]; rfl

/-! The instructions -/

section
variable {s : State} {k : Fin 216} (hr : Safety.Runs s k) (ha : (core s.pkg k).awake = true) (hm : memWf s.pkg.mem = true)
  (kind : VKind) (m : Bool) (ra : Fin 8) (v a b : Fin 32)
include hr ha

section
variable (hg : groupOk k (core s.pkg k) [v] = true) {st : Int}
  (h : ∀ i ∈ actives (core s.pkg k) m, Safety.OwnAccess s k (elemAddr (core s.pkg k) a st i) ((core s.pkg k).sewBits / 8) ∨
    Safety.SliceAccess s k (elemAddr (core s.pkg k) a st i) ((core s.pkg k).sewBits / 8))
include hg h

theorem vLdSt_fills (hvl : (core s.pkg k).vl ≤ (core s.pkg k).cap k) :
    (st = ((core s.pkg k).sewBits / 8 : Nat) → Fills s k m v (exec (.vLdSt k (.ld a) m v) s) (elemAddr (core s.pkg k) a st)) ∧
    (st = sext 64 ((core s.pkg k).xget b).toNat → Fills s k m v (exec (.vLdSt k (.lds a b) m v) s) (elemAddr (core s.pkg k) a st)) := by
  refine ⟨fun hst => ?_, fun hst => ?_⟩
  all_goals
    subst hst
    rw [exec_vLdSt, execVLdSt]
    exact loads_fill hr ha m v h hvl ((cneed_bind_pass rfl).trans (cneed_bind_pass hg))

theorem vLdSt_stores (hm : memWf s.pkg.mem = true) :
    (st = ((core s.pkg k).sewBits / 8 : Nat) → Stores s k m (exec (.vLdSt k (.st a) m v) s) (elemAddr (core s.pkg k) a st)
      (Last s k m v (elemAddr (core s.pkg k) a st))) ∧
    (st = sext 64 ((core s.pkg k).xget b).toNat → Stores s k m (exec (.vLdSt k (.sts a b) m v) s) (elemAddr (core s.pkg k) a st)
      (Last s k m v (elemAddr (core s.pkg k) a st))) := by
  refine ⟨fun hst => ?_, fun hst => ?_⟩
  all_goals
    subst hst
    rw [exec_vLdSt, execVLdSt]
    exact stores_last hr ha m v h hm ((cneed_bind_pass rfl).trans (cneed_bind_pass hg))

end

section
variable (hg : groupOk k (core s.pkg k) [v, b] = true)
  (h : ∀ i ∈ actives (core s.pkg k) m, Safety.OwnAccess s k (indexAddr k (core s.pkg k) a b i) ((core s.pkg k).sewBits / 8) ∨
    Safety.SliceAccess s k (indexAddr k (core s.pkg k) a b i) ((core s.pkg k).sewBits / 8))
  (ho : ∀ i ∈ actives (core s.pkg k) m, inOwn k (indexAddr k (core s.pkg k) a b i) ((core s.pkg k).sewBits / 8) = true)
include hg h ho

omit hr ha hg in
theorem gathers_within {β : Type} (g : Nat → Nat → β) : (actives (Safety.stepped s k) m).mapM
    (fun i => (gathAddr k (Safety.stepped s k) a (groupBits k (Safety.stepped s k) b (Safety.stepped s k).g) i).map (g i)) =
      .ok ((actives (core s.pkg k) m).map (fun i => g i (indexAddr k (core s.pkg k) a b i))) :=
  gathers_ok (x := Safety.stepped s k) g fun i hi => ⟨(access_of (h i hi)).aligned, ho i hi⟩

theorem vGath_fills (hvl : (core s.pkg k).vl ≤ (core s.pkg k).cap k) :
    Fills s k m v (exec (.vGath k m v a b) s) (indexAddr k (core s.pkg k) a b) := by
  rw [exec_vGath, execVGath]
  refine loads_fill hr ha m v h hvl ((cneed_bind_pass hg).trans ?_)
  dsimp only
  rw [gathers_within m a b h ho (fun i a => (i, a))]
  rfl

theorem vScat_stores (hm : memWf s.pkg.mem = true) : Stores s k m (exec (.vScat k m v a b) s) (indexAddr k (core s.pkg k) a b)
    (Last s k m v (indexAddr k (core s.pkg k) a b)) := by
  rw [exec_vScat, execVScat]
  refine stores_last hr ha m v h hm ((cneed_bind_pass hg).trans ?_)
  dsimp only
  rw [gathers_within m a b h ho (fun i a => (a, _))]
  rfl

theorem vScadd_stores (hm : memWf s.pkg.mem = true) (hk : kindOk (core s.pkg k) kind = true) :
    Stores s k m (exec (.vScadd k kind m ra v a b) s) (indexAddr k (core s.pkg k) a b) (fun i w => actives (core s.pkg k) m = [i] →
      w = (vElem (floatOf (core s.pkg k).sew) (rndOfRa ra s.pkg.cfg.radef) .add kind (core s.pkg k).sewBits
        (BitVec.ofNat 64 (mnat (Safety.viewOf s k) (indexAddr k (core s.pkg k) a b i) ((core s.pkg k).sewBits / 8)))
        (Safety.vElemAt k (core s.pkg k) v i) 0#64).1.toNat % 2 ^ (core s.pkg k).sewBits) := by
  rw [exec_vScadd, execVScadd]
  refine stores_added hr ha m v h hm (g := fun o e => vElem (floatOf (core s.pkg k).sew) (rndOfRa ra s.pkg.cfg.radef) .add kind
    (core s.pkg k).sewBits o e 0#64) ((cneed_bind_pass hk).trans ((cneed_bind_pass hg).trans ?_))
  dsimp only
  rw [gathers_within m a b h ho (fun i a => (a, _))]
  rfl

end

end

end Sys2Proof.Machine
end

section
/-! PROOFS. Loads and stores of predicates, and the vector memory instructions (R217, R222, R224, R227): O57. -/

namespace Sys2Proof.Machine

theorem cdiv_eight (n : Nat) : cdiv n 8 = (n + 7) / 8 := rfl

/-- Bits above the low n do not show in them. -/
theorem testBit_add_high {v n i : Nat} (c : Nat) (h : i < n) : (v + c * 2 ^ n).testBit i = v.testBit i := by
  have hmod : (v + c * 2 ^ n) % 2 ^ n = v % 2 ^ n := Nat.add_mul_mod_self_right ..
  have hlow := congrArg (Nat.testBit · i) hmod
  simp only [Nat.testBit_mod_two_pow, decide_eq_true h, Bool.true_and] at hlow
  exact hlow

/-- Bit i of the predicate's bytes, as the core reads memory. -/
theorem bit_mnat {mem : Mem} {b i vl : Nat} (hi : i < vl) : bit (mnat mem b ((vl + 7) / 8)) i = (mget mem (b + i / 8)).getLsbD (i % 8) := by
  rw [bit_eq_testBit, testBit_mnat _ _ (by omega)]

/-! Predicates -/

/-- The bits that a predicate store leaves below VL. -/
def keptBits (s : State) (k : Fin 216) (m : Bool) (v a : Fin 32) (i : Nat) : Bool :=
  if (actives (core s.pkg k) m).contains i then ((core s.pkg k).qget v).getLsbD i
  else bit (mnat (Safety.viewOf s k) ((core s.pkg k).xget a).toNat (((core s.pkg k).vl + 7) / 8)) i

/-- The number that a predicate store writes: of its last byte the bits above VL are free. -/
def predNumber (s : State) (k : Fin 216) (m : Bool) (v a : Fin 32) : Nat :=
  let w := numOfBits (keptBits s k m v a) (core s.pkg k).vl
  let free := (Config.operandWord 3 [((core s.pkg k).xget a).toNat, w] 0).toNat % 2 ^ 8
  if (core s.pkg k).vl % 8 = 0 then w else w + free / 2 ^ ((core s.pkg k).vl % 8) * 2 ^ (core s.pkg k).vl

theorem testBit_predNumber {s : State} {k : Fin 216} {m : Bool} {v a : Fin 32} {i : Nat} (hi : i < (core s.pkg k).vl) :
    (predNumber s k m v a).testBit i = keptBits s k m v a i := by
  have hw : (numOfBits (keptBits s k m v a) (core s.pkg k).vl).testBit i = keptBits s k m v a i := by
    rw [testBit_numOfBits, decide_eq_true hi, Bool.true_and]
  unfold predNumber
  split
  · exact hw
  · exact (testBit_add_high _ hi).trans hw

section
variable {s : State} {k : Fin 216} (hr : Safety.Runs s k) (ha : (core s.pkg k).awake = true) (m : Bool) (v a : Fin 32) (hv : v.val ≤ 7)
  (ho : inOwn k ((core s.pkg k).xget a).toNat (((core s.pkg k).vl + 7) / 8) = true) (hn : 0 < ((core s.pkg k).vl + 7) / 8)
  (hp : Clean s.pkg) (h : Reaches s.pkg k (Safety.stepped s k) ((core s.pkg k).xget a).toNat (((core s.pkg k).vl + 7) / 8))
include hr ha hv ho hn hp

theorem vQld_fills : ∃ z, exec (.vQldQst k (.ld m) v a) s = .next (Safety.withCore s k z) ∧ z.xs = (core s.pkg k).xs ∧
    z.vs = (core s.pkg k).vs ∧ z.pc = (core s.pkg k).pc + 4 ∧
    (v ≠ 0 → ∀ i < 512, (z.qget v).getLsbD i = (decide (i < (core s.pkg k).vl) && (if i ∈ actives (core s.pkg k) m
      then (mget (Safety.viewOf s k) (((core s.pkg k).xget a).toNat + i / 8)).getLsbD (i % 8) else ((core s.pkg k).qget v).getLsbD i))) := by
  have hw := writePred_keeps (Safety.stepped s k) v m (bit (mnat (Safety.viewOf s k) ((core s.pkg k).xget a).toNat (((core s.pkg k).vl + 7) / 8)))
  refine ⟨_, exec_vQldQst.trans (vector_goes_on hr ha ((cneed_bind_pass (decide_eq_true hv)).trans ((cneed_bind_pass ho).trans ?eff))),
    hw.xs, hw.vs, hw.pc, fun hv0 i hi => (hw.bits (fun h0 => hv0 (Fin.ext h0)) i hi).trans ?bits⟩
  case eff =>
    simp only [predStores, predMask, stepped_vl, stepped_xget, cdiv_eight, if_neg (Nat.ne_of_gt hn), firstBad_of_noBad hp.1, noteCes_of_noCe hp.2,
      Bool.false_and, Bool.false_eq_true, if_false]
    rfl
  case bits =>
    rw [stepped_vl, stepped_actives, stepped_qget]
    by_cases hvl : (core s.pkg k).vl ≤ i
    · rw [if_pos hvl, decide_eq_false (Nat.not_lt.mpr hvl), Bool.false_and]
    · rw [if_neg hvl, decide_eq_true (Nat.lt_of_not_le hvl), Bool.true_and, bit_mnat (Nat.lt_of_not_le hvl)]

include h in
theorem vQst_stores (hm : memWf s.pkg.mem = true) : ∃ u, exec (.vQldQst k (.st m) v a) s = .next u ∧ (core u.pkg k).pc = (core s.pkg k).pc + 4 ∧
    (∀ i < (core s.pkg k).vl, (mget u.pkg.mem (((core s.pkg k).xget a).toNat + i / 8)).getLsbD (i % 8) =
      (if i ∈ actives (core s.pkg k) m then ((core s.pkg k).qget v).getLsbD i
        else (mget (Safety.viewOf s k) (((core s.pkg k).xget a).toNat + i / 8)).getLsbD (i % 8))) ∧
    (∀ c, (c < ((core s.pkg k).xget a).toNat ∨ ((core s.pkg k).xget a).toNat + ((core s.pkg k).vl + 7) / 8 ≤ c) →
      mget u.pkg.mem c = mget s.pkg.mem c) := by
  obtain ⟨q, y, he, hst⟩ := coreStore_reaches (bs := natLe (((core s.pkg k).vl + 7) / 8) (predNumber s k m v a)) hp k.isLt
    (by rwa [natLe_length]) s.clk (Nat.mod_one _)
  refine ⟨_, exec_vQldQst.trans (vector_completes hr ha ((cneed_bind_pass (decide_eq_true hv)).trans ((cneed_bind_pass ho).trans
    (Eq.trans ?eff he)))), ?pc, fun i hi => ?bits, fun c hc => ?outside⟩
  case eff =>
    simp only [predStores, predMask, stepped_vl, stepped_xget, cdiv_eight, if_neg (Nat.ne_of_gt hn), firstBad_of_noBad hp.1, noteCes_of_noCe hp.2,
      ite_self]
    rfl
  case pc => rw [core_setCore_self]; exact hst.pc
  case bits =>
    have hbyte : i < 8 * (((core s.pkg k).vl + 7) / 8) := by omega
    rw [setCore_mem, hst.mem, ← bit_mnat hi, mnat_mwrite_natLe hm, bit_eq_testBit, Nat.testBit_mod_two_pow, decide_eq_true hbyte, Bool.true_and,
      testBit_predNumber hi, keptBits, bit_mnat hi]
    simp only [List.contains_iff_mem]
  case outside => rw [setCore_mem, hst.mem, mget_mwrite_outside _ _ _ _ (by rwa [natLe_length])]

end

/-- Settles O57: a sleeping unit wakes, an awake one loads and stores element by element within its reach. -/
theorem vectorMemory : Obligations.VectorMemory := by
  intro s k kind m ra v a b hr hm x act n base fills stores last reached
  refine ⟨fun ha => ?sleeping, fun ha _ _ hvl hg => ⟨?unit, ?strided⟩, fun ha _ _ hvl hg => ?indexed, fun ha hv ho h => ?pred⟩
  case sleeping =>
    have sleeps {i : Instr} {f : Clock → Pkg → Core → CoreR (Pkg × Core)} (hi : exec i s = coreExec k true s f) :
        (x.waking = none → exec i s = .next (Safety.withCore s k { x with waking := some (s.clk.up / 5 + 160) })) ∧
          (x.waking.isSome = true → exec i s = .next s) :=
      ⟨fun hw => hi.trans (coreExec_wakes hr ha f hw), fun hw => hi.trans (coreExec_waking hr ha f hw)⟩
    simp only [List.forall_mem_cons]
    exact ⟨sleeps exec_vLdSt, sleeps exec_vLdSt, sleeps exec_vLdSt, sleeps exec_vLdSt, sleeps exec_vGath, sleeps exec_vScat, sleeps exec_vScadd,
      sleeps exec_vQldQst, sleeps exec_vQldQst, List.forall_mem_nil _⟩
  case unit =>
    intro h
    exact ⟨(vLdSt_fills hr ha m v a b hg h hvl).1 rfl, (vLdSt_stores hr ha m v a b hg h hm).1 rfl⟩
  case strided =>
    intro by_ h
    exact ⟨(vLdSt_fills hr ha m v a b hg h hvl).2 rfl, (vLdSt_stores hr ha m v a b hg h hm).2 rfl⟩
  case indexed =>
    intro addr h ho
    exact ⟨vGath_fills hr ha m v a b hg h ho hvl, vScat_stores hr ha m v a b hg h ho hm,
      fun hk => vScadd_stores hr ha kind m ra v a b hg h ho hm hk⟩
  case pred =>
    have hin : 0 < (x.vl + 7) / 8 ∧ Clean s.pkg ∧ Reaches s.pkg k (Safety.stepped s k) base ((x.vl + 7) / 8) := by
      rcases h with h | h
      · obtain ⟨-, -, -, -, hn, -, -⟩ := id h
        exact ⟨hn, OwnBytes.reaches h⟩
      · obtain ⟨-, -, -, -, hn, -, -⟩ := id h
        exact ⟨hn, SliceBytes.reaches h⟩
    obtain ⟨hn, hp, h⟩ := hin
    exact ⟨vQld_fills hr ha m v a hv ho hn hp, vQst_stores hr ha m v a hv ho hn hp h hm⟩

end Sys2Proof.Machine
end

section
/-! PROOFS. The state at reset, and deep idle (R255, R256, R426): O8, O13. -/

namespace Sys2Proof.Machine

/-- Settles O8: each part is a constant of the model, the register words those of Tables 17.5, 17.9 and 20.11. -/
theorem resetState : Obligations.ResetState :=
  ⟨rfl, fun _ => rfl, rfl, rfl, rfl, rfl, rfl, rfl, rfl, rfl, rfl⟩

/-! Deep idle -/

/-- An empty ledger holds nothing that could expire. -/
theorem prune_of_empty {p : Pkg} (c : Clock) (h : p.ledger = []) : prune p c = p := by
  simp only [prune, h, List.filter_nil, List.foldl_nil]
  rw [← h]

/-- No entry and no policy: no place of the ledger is used. -/
theorem ledgerUsed_of_empty {p : Pkg} (c : Clock) (h : p.ledger = []) (hd : p.den.pol = none) : ledgerUsed p c = 0 := by
  simp only [ledgerUsed, h, hd, List.countP_nil, Option.isSome_none, b2n, Bool.false_eq_true, if_false]

/-- Deep idle and the self-refresh of the stacks begin, or end, together (R256). -/
def deepIdle (p : Pkg) (b : Bool) : Pkg := rsetb (rsetb p rPwrStatus 2 b) rMemStatus 2 b

@[simp] theorem rbit_deepIdle_pwr (p : Pkg) (b : Bool) : rbit (deepIdle p b) rPwrStatus 2 = b := by
  rw [deepIdle, rbit_rsetb_ne _ _ _ _ (by decide), rbit_rsetb_self _ _ _ _ (by decide)]

@[simp] theorem rbit_deepIdle_mem (p : Pkg) (b : Bool) : rbit (deepIdle p b) rMemStatus 2 = b :=
  rbit_rsetb_self _ _ _ _ (by decide)

@[simp] theorem deepIdle_mem (p : Pkg) (b : Bool) : (deepIdle p b).mem = p.mem := rfl

/-- After DELAY ms without a ledger entry and without a host access deep idle begins. -/
theorem exec_deepIdleEntry {s : State} (hs : stageOf s.pkg = 4) (hd : rfld s.pkg rPwrIdle 15 0 ≠ 0) (hi : rbit s.pkg rPwrStatus 2 = false)
    (ht : s.pkg.pins.tripped = false) (hl : s.pkg.ledger = []) (hp : s.pkg.den.pol = none)
    (ha : s.pkg.active + rfld s.pkg rPwrIdle 15 0 * 250000 ≤ s.clk.gsc) :
    exec .deepIdleEntry s = .next (Safety.withPkg s (deepIdle s.pkg true)) := by
  rw [show exec .deepIdleEntry s = execDeepIdleEntry s from rfl, execDeepIdleEntry, run_eq, prune_of_empty _ hl]
  refine congrArg (fun q => Host.Outcome.next (Safety.withPkg s q)) (if_neg ?_)
  simp only [hs, hd, hi, ht, ledgerUsed_of_empty _ hl hp, Nat.not_lt.mpr ha, Bool.false_eq_true, ne_eq, not_true_eq_false, or_self,
    not_false_eq_true]

/-- The exit is asked for; the stacks are out of self-refresh 2,500 ticks later. -/
def waking (p : Pkg) (c : Clock) : Pkg := { p with pins := { p.pins with wake := some (c.gsc + 2500) } }

/-- The package is active again, with no exit under way. -/
def awoken (p : Pkg) (c : Clock) : Pkg := { p with active := c.gsc, pins := { p.pins with wake := none } }

theorem exec_deepIdleExit_begins {s : State} (hi : rbit s.pkg rPwrStatus 2 = true) (hw : s.pkg.pins.wake = none) :
    exec .deepIdleExit s = .next (Safety.withPkg s (waking s.pkg s.clk)) := by
  rw [show exec .deepIdleExit s = execDeepIdleExit s from rfl, execDeepIdleExit, run_eq]
  simp only [hi, hw, Bool.not_true, Bool.false_eq_true, if_false]
  rfl

theorem exec_deepIdleExit_ends {s : State} {g : Nat} (hi : rbit s.pkg rPwrStatus 2 = true) (hw : s.pkg.pins.wake = some g)
    (hg : g ≤ s.clk.gsc) : exec .deepIdleExit s = .next (Safety.withPkg s (deepIdle (awoken s.pkg s.clk) false)) := by
  rw [show exec .deepIdleExit s = execDeepIdleExit s from rfl, execDeepIdleExit, run_eq]
  simp only [hi, hw, Bool.not_true, Bool.false_eq_true, if_false, Nat.not_lt.mpr hg]
  rfl

/-- Settles O13: the entry, the exit's begin and its end each by the equation of its command. -/
theorem deepIdleRoundTrip : Obligations.DeepIdleRoundTrip := by
  refine ⟨fun s hs hd hi ht hl hp ha => ?entry, fun s hi hw => ?begins, fun s g hi hw hg => ?ends⟩
  case entry => exact ⟨_, exec_deepIdleEntry hs hd hi ht hl hp ha, rbit_deepIdle_pwr _ _, rbit_deepIdle_mem _ _, rfl⟩
  case begins => exact ⟨_, exec_deepIdleExit_begins hi hw, rfl, rfl, rfl⟩
  case ends => exact ⟨_, exec_deepIdleExit_ends hi hw hg, rbit_deepIdle_pwr _ _, rbit_deepIdle_mem _ _, rfl⟩

end Sys2Proof.Machine
end

section
/-! PROOFS. The stacks' and the static memories' own work (R243 to R253): O41. -/

namespace Sys2Proof.Machine

/-! Regulator ticks (R243, R256) -/

theorem exec_regulatorTick {s : State} {k : Fin 32} (hm : rbit s.pkg rMemStatus 2 = false)
    (ht : sget s.pkg.regTick k.val (2 ^ 64) ≠ s.clk.gsc) : exec (.regulatorTick k []) s = .next (Safety.withPkg s
      (deliverDue (regulate (ageRewrites (Safety.ticked s.pkg s.clk k) k) s.clk k) s.clk k)) := by
  rw [show exec (.regulatorTick k []) s = execRegulatorTick k [] s from rfl, execRegulatorTick, run_eq,
    if_neg (not_or.mpr ⟨Bool.eq_false_iff.mp hm, ht⟩)]
  rfl

theorem exec_regulatorTick_selfRefresh {s : State} (k : Fin 32) (errs : List (Nat × Nat)) (hm : rbit s.pkg rMemStatus 2 = true) :
    exec (.regulatorTick k errs) s = .next s := by
  rw [show exec (.regulatorTick k errs) s = execRegulatorTick k errs s from rfl, execRegulatorTick, run_eq, if_pos (.inl hm)]

/-! Deliveries (R245) -/

/-- A passed access leaves those that wait for their delivery. -/
def undelivered (p : Pkg) (d : HbmDone) : Pkg := { p with passed := p.passed.erase d }

/-- An access that is no squirrel read is delivered alone. -/
theorem exec_hbmAccessComplete {s : State} {n : Nat} {d : HbmDone} (hd : s.pkg.passed[n]? = some d) (hs : (d.sq && d.rd) = false) :
    exec (.hbmAccessComplete n) s = .next (Safety.withPkg s (deliver (undelivered s.pkg d) s.clk d)) := by
  rw [show exec (.hbmAccessComplete n) s = execHbmAccessComplete n s from rfl, execHbmAccessComplete, run_eq]
  simp only [deliverNth, hd, together, hs, Bool.false_and, Bool.false_eq_true, if_false, List.foldl_cons, List.foldl_nil]
  rfl

/-- A write of a tile is one access less that its instruction waits for. -/
theorem deliver_tileWrite {p : Pkg} {c : Clock} {d : HbmDone} {t q : Nat} (hw : d.who = .tile t q) (hb : d.bad = false)
    (hr : d.rd = false) : deliver p c d = modInfl p t q oneDone := by
  simp only [deliver, hw, tileStep, hb, hr, Bool.false_eq_true, if_false]

/-- What a core's read brought, and one request less that it waits for. -/
def granted (x : Core) (d : HbmDone) : Core := { x with asked := x.asked - 1, grant := x.grant ++ [(d.line, d.data, d.bad)] }

theorem deliver_coreRead {p : Pkg} {c : Clock} {d : HbmDone} {k : Nat} (hw : d.who = .core k) (hr : d.rd = true) :
    deliver p c d = setCore p k (granted (core p k) d) := by
  simp only [deliver, hw, coreStep, hr, if_true]
  rfl

/-- The access that an instruction waits for last finishes it. -/
theorem findInfl_lastDone {p : Pkg} {t q : Nat} {f : InFl} (hf : findInfl p t q = some f) (hp : f.pend = 1) (hx : f.failed = false) :
    ∃ g, findInfl (modInfl p t q oneDone) t q = some g ∧ g.fin = true ∧ g.pend = 0 := by
  have hg : findInfl (modInfl p t q oneDone) t q = some (oneDone f) := by
    rw [findInfl_modInfl p t q (g := oneDone) (fun _ => rfl), hf, Option.map_some, if_pos ⟨rfl, rfl⟩]
  exact ⟨oneDone f, hg, by simp only [oneDone, hp, hx]; rfl, by simp only [oneDone, hp]⟩

/-! The patrol (R249) -/

/-- The read of a line by the patrol. -/
def patrolRead (p : Pkg) (k i : Nat) : HbmReq := { line := stackLine p k i, bytes := 64, wr := [], sq := false, who := .scrub }

/-- A request is the last of its queue. -/
theorem queue_enqueue (p : Pkg) (part : Nat) (r : HbmReq) : sget (enqueue p part r).queues (qKey (stackOf p r.line) part) [] =
    sget p.queues (qKey (stackOf p r.line) part) [] ++ [r] := sget_sset_self _ _ _ _

/-- The patrol takes a place, counts a pass where one has ended, and shows whether it has begun. -/
def patrolBooks (p : Pkg) (x : SMap (Nat × Nat × Nat)) (ended : Prop) [Decidable ended] (begun : Bool) : Pkg :=
  rsetb (if ended then bump { p with patrol := x } rMemScrubpass else { p with patrol := x }) rMemStatus 3 begun

theorem patrolBooks_eq (p : Pkg) (x : SMap (Nat × Nat × Nat)) (ended : Prop) [Decidable ended] (begun : Bool) :
    patrolBooks p x ended begun = { p with patrol := x, regs := (patrolBooks p x ended begun).regs } := by
  unfold patrolBooks
  split <;> rfl

/-- Past its interval the patrol reads one line; beside the queue only its place and its registers change. -/
theorem exec_patrolScrub {s : State} {k : Fin 32} {i last passes : Nat} (hp : sget s.pkg.patrol k.val (0, 0, 0) = (i, last, passes))
    (hc : rbit s.pkg rMemCfg 1 = true) (hm : rbit s.pkg rMemStatus 2 = false) (ht : last + rfld s.pkg rMemScrub 23 0 ≤ s.clk.gsc) :
    ∃ x r, exec (.patrolScrub k) s = .next (Safety.withPkg s { enqueue s.pkg 3 (patrolRead s.pkg k i) with patrol := x, regs := r }) := by
  rw [show exec (.patrolScrub k) s = execPatrolScrub k s from rfl, execPatrolScrub, run_eq]
  simp only [hp, hc, hm, Nat.not_lt.mpr ht, Bool.not_true, Bool.false_eq_true, or_self, if_false]
  exact ⟨_, _, congrArg (fun q => Host.Outcome.next (Safety.withPkg s q)) (patrolBooks_eq (enqueue s.pkg 3 (patrolRead s.pkg k i)) ..)⟩

/-! Errors of static lines (R236, R250, R251, R252) -/

@[simp] theorem lineOf_lineOf (a : Nat) : lineOf (lineOf a) = lineOf a := by
  unfold lineOf
  omega

/-- A line outside HBM is of one of the static memories. -/
theorem memKind_static {p : Pkg} {l : Nat} (h : isHbm l = false) : (memKind p l).1 ≠ 1 := by
  unfold memKind
  simp only [h, Bool.false_eq_true, if_false]
  split
  · exact Nat.succ_ne_self 1
  · split
    · exact Nat.succ_succ_ne_one 1
    · exact Nat.succ_succ_ne_one 2

/-- A corrected error of a static line counts. -/
theorem noteCe_static (p : Pkg) {l : Nat} (h : isHbm l = false) :
    ∃ n, noteCe p l = bump { p with ceCount := n, ceSeen := l :: p.ceSeen } rMemSramce := by
  unfold noteCe
  simp only [memKind_static h, if_false]
  exact ⟨_, rfl⟩

/-- The report of an uncorrectable line changes registers and the stored log alone. -/
theorem outward_noteUe (p : Pkg) (c : Clock) (l : Nat) : Outward p (noteUe p c l) := by
  unfold noteUe
  simp only
  refine Outward.trans ?_ (outward_logEntry _ _ _ _ _ _ _)
  refine Outward.trans ?_ (((outward_rset _ _ _).trans (outward_rset _ _ _)).trans (outward_rset _ _ _))
  exact Outward.ite _ (outward_bump _ _) (outward_bump _ _)

/-- An uncorrectable static line counts. -/
theorem rget_noteUe_sramue (p : Pkg) (c : Clock) {l : Nat} (h : isHbm l = false) :
    rget (noteUe p c l) rMemSramue = (rget p rMemSramue + 1) % 2 ^ 32 := by
  unfold noteUe
  simp only [memKind_static h, if_false]
  rw [rget_logEntry _ _ _ _ _ _ _ _ (by decide), rget_rset_ne _ _ (by decide), rget_rset_ne _ _ (by decide), rget_rset_ne _ _ (by decide),
    rget_bump_self]

/-- A correctable error marks its line, and nothing else. -/
theorem lineErrors_corrected (p : Pkg) {l nerr : Nat} (hn : classifyLine nerr = .corrected) :
    ∃ e, lineErrors p l nerr = { p with ceLines := e } ∧ lineOf l ∈ e := by
  simp only [lineErrors, hn]
  split
  case isTrue h => exact ⟨p.ceLines, rfl, List.contains_iff_mem.mp h⟩
  case isFalse => exact ⟨_, rfl, List.mem_cons_self⟩

/-- An uncorrectable error marks its line, and nothing else. -/
theorem lineErrors_uncorrectable (p : Pkg) {l nerr : Nat} (hn : classifyLine nerr = .uncorrectable) :
    ∃ b, lineErrors p l nerr = { p with badLines := b } ∧ lineOf l ∈ b := by
  simp only [lineErrors, hn]
  split
  case isTrue h => exact ⟨p.badLines, rfl, List.contains_iff_mem.mp h⟩
  case isFalse => exact ⟨_, rfl, List.mem_cons_self⟩

/-- What the scrub of a static line makes of the line as it now stands. -/
def scrubbed (p : Pkg) (c : Clock) (l : Nat) : Pkg :=
  if p.badLines.contains l then noteUe p c l
  else if p.ceLines.contains l then { noteCe p l with ceLines := p.ceLines.filter (fun x => x != l) }
  else p

theorem exec_staticScrub {s : State} {line : Nat} (nerr : Nat) (hh : isHbm (lineOf line) = false) (hl : lineOf line < 2 ^ 46) :
    exec (.staticScrub line nerr) s = .next (Safety.withPkg s (scrubbed (lineErrors s.pkg (lineOf line) nerr) s.clk (lineOf line))) := by
  rw [show exec (.staticScrub line nerr) s = execStaticScrub line nerr s from rfl, execStaticScrub, run_eq]
  simp only [hh, Nat.not_le.mpr hl, Bool.false_eq_true, or_self, if_false]
  rfl

/-- A correctable static line reads corrected after its scrub, and is counted. -/
theorem staticScrub_corrects (s : State) {line nerr : Nat} (hh : isHbm (lineOf line) = false) (hl : lineOf line < 2 ^ 46)
    (hn : classifyLine nerr = .corrected) (hb : lineOf line ∉ s.pkg.badLines) :
    ∃ t, exec (.staticScrub line nerr) s = .next t ∧ lineOf line ∉ t.pkg.ceLines ∧
      rget t.pkg rMemSramce = (rget s.pkg rMemSramce + 1) % 2 ^ 32 ∧ t.pkg.mem = s.pkg.mem := by
  obtain ⟨e, he, hm⟩ := lineErrors_corrected s.pkg (l := lineOf line) hn
  rw [lineOf_lineOf] at hm
  obtain ⟨n, hc⟩ := noteCe_static { s.pkg with ceLines := e } hh
  have hs : scrubbed (lineErrors s.pkg (lineOf line) nerr) s.clk (lineOf line) =
      { bump { s.pkg with ceCount := n, ceSeen := lineOf line :: s.pkg.ceSeen } rMemSramce with
        ceLines := e.filter (fun x => x != lineOf line) } := by
    rw [he, scrubbed, if_neg (mt List.contains_iff_mem.mp hb), if_pos (List.contains_iff_mem.mpr hm), hc]
    rfl
  refine ⟨_, exec_staticScrub nerr hh hl, ?_⟩
  rw [hs]
  exact ⟨fun h => bne_iff_ne.mp (List.mem_filter.mp h).2 rfl, rget_bump_self _ _, rfl⟩

/-- An uncorrectable static line is reported and counted by its scrub. -/
theorem staticScrub_reports (s : State) {line nerr : Nat} (hh : isHbm (lineOf line) = false) (hl : lineOf line < 2 ^ 46)
    (hn : classifyLine nerr = .uncorrectable) :
    ∃ t, exec (.staticScrub line nerr) s = .next t ∧ lineOf line ∈ t.pkg.badLines ∧
      rget t.pkg rMemSramue = (rget s.pkg rMemSramue + 1) % 2 ^ 32 ∧ t.pkg.mem = s.pkg.mem := by
  obtain ⟨b, he, hm⟩ := lineErrors_uncorrectable s.pkg (l := lineOf line) hn
  rw [lineOf_lineOf] at hm
  have hs : scrubbed (lineErrors s.pkg (lineOf line) nerr) s.clk (lineOf line) =
      noteUe { s.pkg with badLines := b } s.clk (lineOf line) := by
    rw [he, scrubbed, if_pos (List.contains_iff_mem.mpr hm)]
  have ho := outward_noteUe { s.pkg with badLines := b } s.clk (lineOf line)
  refine ⟨_, exec_staticScrub nerr hh hl, ?_⟩
  rw [hs]
  exact ⟨ho.badLines ▸ hm, rget_noteUe_sramue _ _ hh, ho.mem⟩

/-! Write combining and rewrites (R246, R251) -/

/-- The entries that stay in the write-combining buffer when a line is looked at. -/
def wcKept (p : Pkg) (c : Clock) (l : Nat) : List WcEntry := p.wc.filter (fun e => !(e.line == l && decide (e.tick + 64 ≤ c.gsc)))

theorem exec_wcEvict (s : State) (line : Nat) :
    exec (.wcEvict line) s = .next (Safety.withPkg s { s.pkg with wc := wcKept s.pkg s.clk (lineOf line) }) := rfl

/-- No entry of the line stays 64 ticks after it was made. -/
theorem young_of_wcKept {p : Pkg} {c : Clock} {l : Nat} {e : WcEntry} (h : e ∈ wcKept p c l) (hl : e.line = l) : c.gsc < e.tick + 64 := by
  have hk := (List.mem_filter.mp h).2
  rw [beq_iff_eq.mpr hl, Bool.true_and, Bool.not_eq_true', decide_eq_false_iff_not] at hk
  exact Nat.lt_of_not_le hk

theorem exec_ceRewrite {s : State} {line : Nat} (hw : ceWaits s.pkg (lineOf line) = true)
    (ho : owesHbm s.pkg (.repair (lineOf line)) = false) :
    exec (.ceRewrite line) s = .next (Safety.withPkg s (landRewrite s.pkg (lineOf line))) := by
  rw [show exec (.ceRewrite line) s = execCeRewrite line s from rfl, execCeRewrite, run_eq]
  simp only [hw, ho, Bool.not_false, Bool.and_self, if_true]

/-- After its rewrite a line waits for none. -/
@[simp] theorem ceWaits_landRewrite (p : Pkg) (l : Nat) : ceWaits (landRewrite p l) l = false := by
  simp [ceWaits, landRewrite]

/-- After its rewrite a line shows no correctable error. -/
theorem not_mem_ceLines_landRewrite (p : Pkg) (l : Nat) : l ∉ (landRewrite p l).ceLines :=
  fun h => bne_iff_ne.mp (List.mem_filter.mp h).2 rfl

/-- Settles O41: each command by its equation, and by what the lemmas above say of the package that it leaves. -/
theorem memoryService : Obligations.MemoryService := by
  refine ⟨fun s k hm ht => exec_regulatorTick hm ht, fun s k errs hm => exec_regulatorTick_selfRefresh k errs hm,
    fun s n t q d hd hw hb hr => ?tileWrite, fun s n k d hd hw _ hr hs => ?coreRead,
    fun s k i last passes hp hc hm ht => ?patrol, fun s line nerr hh hl => ?scrub, fun s line => ?evict, fun s line hw ho => ?rewrite⟩
  case tileWrite =>
    refine ⟨_, exec_hbmAccessComplete hd (by rw [hr, Bool.and_false]), ?_⟩
    rw [deliver_tileWrite hw hb hr]
    exact ⟨rfl, rfl, fun f hf hp hx => findInfl_lastDone (p := undelivered s.pkg d) hf hp hx⟩
  case coreRead =>
    refine ⟨_, exec_hbmAccessComplete hd (by rw [hs, Bool.false_and]), ?_⟩
    rw [deliver_coreRead hw hr]
    refine ⟨rfl, rfl, ?_, ?_⟩ <;> rw [core_setCore_self] <;> rfl
  case patrol =>
    obtain ⟨x, r, he⟩ := exec_patrolScrub hp hc hm ht
    exact ⟨_, patrolRead s.pkg k i, he, queue_enqueue _ _ _, rfl, rfl, rfl, rfl⟩
  case scrub => exact ⟨staticScrub_corrects s hh hl, staticScrub_reports s hh hl⟩
  case evict => exact ⟨_, exec_wcEvict s line, fun e he hl => young_of_wcKept he hl, rfl, rfl⟩
  case rewrite =>
    exact ⟨_, exec_ceRewrite hw ho, ceWaits_landRewrite _ _, not_mem_ceLines_landRewrite _ _, rfl, rfl⟩

end Sys2Proof.Machine
end

section
/-! PROOFS. Lost stacks, failed tiles, copies of the configuration record, health windows (R157, R254, R451, R452, R465): O32. -/

namespace Sys2Proof.Machine

/-! A lost stack (R254) -/

@[simp] theorem logEntry_ops (p : Pkg) (c : Clock) (code die aux value detail : Nat) : (logEntry p c code die aux value detail).ops = p.ops := by
  have hb : ∀ (q : Pkg) o bs, (rsetBytes q o bs).ops = q.ops := fun q o bs => by
    obtain ⟨r, h⟩ := rsetBytes_eq q o bs
    rw [h]
  have hc : (if rfld p (rHltLog (rfld p rHltLoghead 11 0) + 8) 15 0 = 0 then p else bump p rHltLoglost).ops = p.ops := by
    split <;> rfl
  unfold logEntry
  simp only [rset_ops]
  split
  · simp only [storeLog_ops, hb, hc]
  · simp only [hb, hc]

/-- An event ends no operation. -/
@[simp] theorem event_ops (p : Pkg) (c : Clock) (code die aux value : Nat) : (event p c code die aux value).ops = p.ops := by
  have hl := logEntry_ops p c code die aux value 0
  have hc : ∀ (q : Pkg) r e, (cqWrite q r e).ops = q.ops := fun _ _ _ => rfl
  unfold event
  simp only
  split
  · split
    · exact (hc _ _ _).trans hl
    · exact (bump_ops _ _).trans hl
  · exact hl

/-- The registers that a lost stack shows in: RETIRED, its bit of `MEM.STKLOST`, and READY, which ends. -/
def lossShown (p : Pkg) (k : Nat) : Pkg := rsetb (rsetb (rsetb p rMemStatus 1 true) rMemStklost k true) rGlbStatus 0 false

/-- The package retired in registers and store, and its event reported. -/
def stackMarked (p : Pkg) (c : Clock) (k : Nat) : Pkg :=
  event { lossShown p k with store := { p.store with retired := true } } c 0x0003 (16 + k) 0 (rget (lossShown p k) rMemStklost)

/-- Launches, placed actions and operations complete with FAILED_HARDWARE. -/
def workFails (p : Pkg) (c : Clock) : Pkg :=
  let p := p.launches.foldl (fun q l => if l.closed then q else finishLaunch q c l 0x20) p
  let p := p.placed.foldl (fun q x => answerTest q c x 0x20 0) p
  p.ops.foldl (fun q o => complete q c o.id 0x20 0#16 0 0 false) p

/-- Nothing is held for later. -/
def nothingHeld (p : Pkg) : Pkg :=
  let p := syncSwapPend { p with launches := [], ledger := [], placed := [], jobs := [], queues := [], passed := [], handoffs := [], den := {} }
  rsetb (rsetb (syncDen p) rDenStatus 0 false) rDenStatus 3 false

theorem stackLost_eq (p : Pkg) (c : Clock) (k : Nat) :
    stackLost p c k = nothingHeld (endGates (refuseCores (workFails (stackMarked p c k) c)) c) := rfl

/-- Refused reads of HBM change cores alone. -/
theorem refuseCores_eq (p : Pkg) : ∃ x, refuseCores p = { p with cores := x } := by
  unfold refuseCores
  simp only
  generalize (_ ++ _ : List (Who × Nat)) = lost
  induction lost generalizing p with
  | nil => exact ⟨p.cores, rfl⟩
  | cons e lost ih =>
    rw [List.foldl_cons]
    split
    · exact ih (setCore p _ _)
    · exact ih p

theorem workFails_of_idle {p : Pkg} (c : Clock) (hl : p.launches = []) (hp : p.placed = []) (ho : p.ops = []) : workFails p c = p := by
  simp only [workFails, hl, hp, ho, List.foldl_nil]

theorem endGates_of_none {p : Pkg} (c : Clock) (hg : p.gates = []) : endGates p c = { p with gates := [] } := by
  simp only [endGates, hg, List.foldl_nil]

@[simp] theorem nothingHeld_store (p : Pkg) : (nothingHeld p).store = p.store := by
  simp only [nothingHeld, syncDen, syncSwapPend, rsetb_store]
@[simp] theorem nothingHeld_mem (p : Pkg) : (nothingHeld p).mem = p.mem := by
  simp only [nothingHeld, syncDen, syncSwapPend, rsetb_mem]

theorem rbit_nothingHeld (p : Pkg) {o : Nat} (i : Nat) (hd : o ≠ rDenStatus) (hh : o ≠ rHltStatus) :
    rbit (nothingHeld p) o i = rbit p o i := by
  unfold nothingHeld syncDen syncSwapPend
  simp only
  rw [rbit_rsetb_ne _ _ _ _ hd, rbit_rsetb_ne _ _ _ _ hd, rbit_rsetb_ne _ _ _ _ hd, rbit_rsetb_ne _ _ _ _ hd, rbit_rsetb_ne _ _ _ _ hh]
  rfl

section
variable (p : Pkg) (c : Clock) (k : Nat)

theorem outward_stackMarked : Outward { lossShown p k with store := { p.store with retired := true } } (stackMarked p c k) :=
  outward_event _ _ _ _ _ _

@[simp] theorem stackMarked_mem : (stackMarked p c k).mem = p.mem := (outward_stackMarked p c k).mem

/-- An event leaves the package store's word of retirement. -/
theorem retired_stackMarked : (stackMarked p c k).store.retired = true := by
  obtain ⟨r, l, h, u, o, he⟩ := outward_stackMarked p c k
  rw [he]

theorem rbit_stackMarked {o : Nat} (i : Nat) (h : eventReg o = false) : rbit (stackMarked p c k) o i = rbit (lossShown p k) o i := by
  rw [rbit, stackMarked, rget_event _ _ _ _ _ _ _ h]
  rfl

/-- With nothing in flight the loss of a stack marks the package, and nothing but cores changes beside what is emptied. -/
theorem stackLost_of_idle (hl : p.launches = []) (hp : p.placed = []) (ho : p.ops = []) (hg : p.gates = []) :
    ∃ x, stackLost p c k = nothingHeld { stackMarked p c k with cores := x, gates := [] } := by
  have hm := outward_stackMarked p c k
  have hw : workFails (stackMarked p c k) c = stackMarked p c k :=
    workFails_of_idle c (hm.launches.trans hl) (hm.placed.trans hp) ((event_ops _ _ _ _ _ _).trans ho)
  obtain ⟨x, hx⟩ := refuseCores_eq (stackMarked p c k)
  refine ⟨x, ?_⟩
  rw [stackLost_eq, hw, hx, endGates_of_none (p := { stackMarked p c k with cores := x }) c (hm.gates.trans hg)]

end

theorem exec_stackLoss (s : State) (k : Fin 32) :
    exec (.stackLoss k) s = .next (Safety.withPkg s (if rbit s.pkg rMemStklost k then s.pkg else stackLost s.pkg s.clk k)) := rfl

/-- A loss with nothing in flight: what store and registers show, and memory, which stays. -/
theorem stackLost_shows {p : Pkg} (c : Clock) (k : Fin 32) (hl : p.launches = []) (hp : p.placed = []) (ho : p.ops = []) (hg : p.gates = []) :
    (stackLost p c k).store.retired = true ∧ retired (stackLost p c k) = true ∧ rbit (stackLost p c k) rMemStklost k = true ∧
      rbit (stackLost p c k) rGlbStatus 0 = false ∧ (stackLost p c k).mem = p.mem := by
  obtain ⟨x, he⟩ := stackLost_of_idle p c k hl hp ho hg
  have hr : ∀ (o i : Nat), o ≠ rDenStatus → o ≠ rHltStatus → eventReg o = false → rbit (stackLost p c k) o i = rbit (lossShown p k) o i :=
    fun o i hd hh h => by
      rw [he, rbit_nothingHeld _ _ hd hh, ← rbit_stackMarked p c k i h, rbit, rbit]
      exact congrArg (bit · i) (rget_congr o rfl)
  refine ⟨?store, ?ret, ?lost, ?ready, by rw [he, nothingHeld_mem, stackMarked_mem]⟩
  case store => rw [he, nothingHeld_store, retired_stackMarked]
  case ret =>
    rw [retired, hr _ _ (by decide) (by decide) (by decide), lossShown, rbit_rsetb_ne _ _ _ _ (by decide), rbit_rsetb_ne _ _ _ _ (by decide),
      rbit_rsetb_self _ _ _ _ (by decide)]
  case lost =>
    rw [hr _ _ (by decide) (by decide) (by decide), lossShown, rbit_rsetb_ne _ _ _ _ (by decide), rbit_rsetb_self _ _ _ _ k.isLt]
  case ready => rw [hr _ _ (by decide) (by decide) (by decide), lossShown, rbit_rsetb_self _ _ _ _ (by decide)]

/-! A failed tile (R157) -/

theorem exec_unitFailure_tile {s : State} {t : Fin 128} {l : Nat} (hl : (tile s.pkg t).launch = some l) :
    exec (.unitFailure 0 t) s = .next (Safety.withPkg s (addCause (stopTile s.pkg t) s.clk l 0x20)) := by
  rw [show exec (.unitFailure 0 t) s = execUnitFailure 0 t s from rfl, execUnitFailure, run_eq]
  simp only [hl, t.isLt, if_true]

theorem tile_stopped_addCause (p : Pkg) (c : Clock) (t l status : Nat) :
    tile (addCause (stopTile p t) c l status) t = { tile p t with stopped := true } :=
  (tile_congr t (modLaunch_tiles _ _ _)).trans (tile_modTile_self p t _)

/-- Every launch of the number takes the cause. -/
theorem mem_causes_addCause {p : Pkg} {c : Clock} {id status : Nat} {y : Launch} (hy : y ∈ (addCause p c id status).launches)
    (hid : y.id = id) : (c.gsc, status) ∈ y.causes := by
  obtain ⟨z, -, rfl⟩ := List.mem_map.mp hy
  split at hid
  case isTrue h =>
    rw [if_pos h]
    exact List.mem_append_right _ List.mem_cons_self
  case isFalse h => exact absurd (beq_iff_eq.mpr hid) h

/-! The third copy of a configuration record (R465) -/

theorem syncCfg_eq (p : Pkg) : ∃ r, syncCfg p = { p with regs := r } := by
  unfold syncCfg
  simp only
  split <;> exact ⟨_, rfl⟩

/-- All three copies hold one record, and none is under way. -/
def recordIn (p : Pkg) (n : CfgRec) : Pkg := { p with store := { p.store with copies := [n, n, n], next := none } }

theorem set_third {α : Type} {l : List α} {n : α} (hl : l.length = 3) (ht : l.take 2 = [n, n]) : l.set 2 n = [n, n, n] := by
  obtain ⟨a, b, x, rfl⟩ := List.length_eq_three.mp hl
  simp only [List.take_succ_cons, List.take_zero, List.cons.injEq] at ht
  obtain ⟨rfl, rfl, -⟩ := ht
  rfl

theorem exec_configRecordWrite_third {s : State} {r n : CfgRec} (hk : keepersRun s.pkg = true) (hr : recInUse s.pkg = some r)
    (hn : s.pkg.store.next = some n) (hl : s.pkg.store.copies.length = 3) (ht : s.pkg.store.copies.take 2 = [n, n]) :
    exec (.configRecordWrite 2 none) s = .next (Safety.withPkg s (syncCfg (recordIn s.pkg n))) := by
  have hall : (!(s.pkg.store.copies.take 2).all (fun x => x == n) || decide (s.pkg.store.copies.length ≤ 2)) = false := by
    rw [ht, hl]
    simp
  rw [show exec (.configRecordWrite 2 none) s = execConfigRecordWrite 2 none s from rfl, execConfigRecordWrite, run_eq, if_pos hk, hr]
  simp only [hn, Option.getD_some, Fin.isValue, Fin.val_two, hall, Bool.false_eq_true, if_false, if_true, set_third hl ht]
  rfl

/-! Health windows (R451, R452) -/

/-- A window that ends, but for what its last steps show. -/
def windowJudged (p : Pkg) (c : Clock) (errs : List (Nat × Nat × Nat)) (low : List (Fin 4 × Fin 4)) : Pkg :=
  let p := bump (errs.foldl addErrors p) rHltWindow
  let p := trendClasses.foldl (fun p e => (List.range e.2).foldl (fun p n => judge p c e.1 n) p) p
  low.foldl (fun p e => lowLaser p c e.1 e.2) p

/-- A new list of corrected errors begins; WARN and BASELINE are shown. -/
def windowShown (p : Pkg) (hot : Bool) : Pkg :=
  rsetb (rsetb { p with ceSeen := [] } rHltStatus 1 hot) rHltStatus 0 (decide (10 ≤ rget p rHltWindow))

theorem exec_healthWindowEnd {s : State} {errs : List (Nat × Nat × Nat)} {low : List (Fin 4 × Fin 4)} (hs : stageOf s.pkg = 4)
    (hu : s.pkg.health.ready + (rget s.pkg rHltWindow + 1) * windowTicks * tickUnits s.pkg ≤ s.clk.up) :
    ∃ hot, exec (.healthWindowEnd errs low) s = .next (Safety.withPkg s (windowShown (windowJudged s.pkg s.clk errs low) hot)) := by
  have hs : rfld s.pkg rGlbStatus 10 8 = 4 := hs
  rw [show exec (.healthWindowEnd errs low) s = execHealthWindowEnd errs low s from rfl, execHealthWindowEnd, run_eq,
    if_neg (not_or.mpr ⟨not_not.mpr hs, Nat.not_lt.mpr hu⟩)]
  exact ⟨_, rfl⟩

theorem baseline_windowShown (p : Pkg) (hot : Bool) :
    rbit (windowShown p hot) rHltStatus 0 = decide (10 ≤ rget (windowShown p hot) rHltWindow) := by
  have hw : rget (windowShown p hot) rHltWindow = rget p rHltWindow := by
    rw [windowShown, rget_rsetb_ne _ _ _ (by decide), rget_rsetb_ne _ _ _ (by decide)]
    rfl
  rw [hw, windowShown, rbit_rsetb_self _ _ _ _ (by decide)]

/-- Before the baseline holds ten counts a window is judged by ABS alone. -/
theorem exceeds_short {base : List Nat} (c floor mult abs : Nat) (h : base.length < 10) :
    exceeds base c floor mult abs = decide (abs ≤ c) := if_pos h

/-- From ten counts on it is judged by FLOOR and by MULT times the baseline's mean. -/
theorem exceeds_long {base : List Nat} (c floor mult abs : Nat) (h : 10 ≤ base.length) :
    exceeds base c floor mult abs = (decide (floor ≤ c) && decide (mult * base.sum < 8 * base.length * c)) := by
  rw [List.sum_eq_foldl]
  exact if_neg (Nat.not_lt.mpr h)

theorem length_baseAdd {base : List Nat} (c : Nat) (h : base.length ≤ 64) : (baseAdd base c).length ≤ 64 := by
  simp only [baseAdd, List.length_drop, List.length_append, List.length_singleton]
  omega

/-- The newest count is the last of the baseline. -/
theorem getLast?_baseAdd {base : List Nat} (c : Nat) (h : base.length ≤ 64) : (baseAdd base c).getLast? = some c := by
  rw [baseAdd, List.drop_append_of_le_length (by omega), List.getLast?_append]
  rfl

/-- Settles O32: each command by its equation, then what the lemmas above say of what it leaves. -/
theorem failuresAndRecords : Obligations.FailuresAndRecords := by
  refine ⟨fun s k => ⟨fun hk => ?loss, fun hk => ?again⟩, fun s t l hl => ?tile, fun s r n hk hr hn hl ht => ?record,
    fun s errs low hs hu => ?window, fun base c floor mult abs => ⟨exceeds_short c floor mult abs, exceeds_long c floor mult abs⟩,
    fun base c h => ⟨length_baseAdd c h, getLast?_baseAdd c h⟩⟩
  case loss =>
    refine ⟨_, exec_stackLoss s k, ?_⟩
    rw [if_neg (Bool.eq_false_iff.mp hk)]
    exact ⟨rfl, rfl, rfl, rfl, fun hl hp ho hg => stackLost_shows s.clk k hl hp ho hg⟩
  case again => rw [exec_stackLoss, if_pos hk]
  case tile =>
    refine ⟨_, exec_unitFailure_tile hl, ?_, fun y hy hid => mem_causes_addCause hy hid, rfl, rfl⟩
    rw [tile_stopped_addCause]
  case record =>
    obtain ⟨x, hx⟩ := syncCfg_eq (recordIn s.pkg n)
    refine ⟨_, exec_configRecordWrite_third hk hr hn hl ht, ?_⟩
    rw [hx]
    exact ⟨rfl, rfl, rfl, rfl⟩
  case window =>
    obtain ⟨hot, he⟩ := exec_healthWindowEnd (errs := errs) (low := low) hs hu
    exact ⟨_, he, rfl, baseline_windowShown _ _⟩

end Sys2Proof.Machine
end

section
/-! PROOFS. The clock (R265, R268, R440): when it moves, and which commands move it: O2, O4, O6. -/

namespace Sys2Proof.Machine

/-! The passage of time (R36, R228, R440) -/

theorem tickOn_off {p : Pkg} (c : Clock) (h : live p = false) : tickOn p c = c := if_pos (by rw [h]; rfl)

theorem tickOn_within {p : Pkg} {c : Clock} (hl : live p = true) (hc : c.sub + 1 < tickUnits p) :
    tickOn p c = { c with sub := c.sub + 1, up := c.up + 1 } := by
  rw [tickOn, hl, Bool.not_true, if_neg Bool.false_ne_true, if_pos hc]

theorem tickOn_at_end {p : Pkg} {c : Clock} (hl : live p = true) (hc : tickUnits p ≤ c.sub + 1) :
    tickOn p c = { gsc := (c.gsc + 1) % 2 ^ 64, sub := 0, up := c.up + 1 } := by
  rw [tickOn, hl, Bool.not_true, if_neg Bool.false_ne_true, if_neg (Nat.not_lt.mpr hc)]

theorem tickPkg_off {p : Pkg} (h : live p = false) : tickPkg p = p := if_neg (Bool.eq_false_iff.mp h)

theorem tickPkg_on {p : Pkg} (h : live p = true) : tickPkg p = { p with since := p.since + 1 } := if_pos h

theorem step_of_empty {s : State} (h : s.pending = []) : step s = .next { s with clk := tickOn s.pkg s.clk, pkg := tickPkg s.pkg } := by
  unfold step
  rw [h]

/-- Settles O2: the step on an empty queue, then the clock and the package one unit later in each case. -/
theorem idleStepPassesTime : Obligations.IdleStepPassesTime := by
  intro s hs
  refine ⟨_, step_of_empty hs, hs, fun hl => ⟨tickPkg_off hl, tickOn_off s.clk hl⟩, tickPkg_on, fun hl hc => ?within, fun hl hc => ?atEnd⟩
  case within => simp only [tickOn_within hl hc, and_self]
  case atEnd => simp only [tickOn_at_end hl hc, and_self]

/-- Settles O6: count and phase are 0. -/
theorem clockInvariantAtReset : Obligations.ClockInvariantAtReset := ⟨Nat.two_pow_pos 64, Nat.zero_lt_succ 33⟩

/-! What a command may change -/

/-- A command other than a reply of the time exchange and the loss of power answers with another package alone: the queue and the clock
stay. -/
theorem exec_eq_withPkg (i : Instr) (s : State) (hr : ∀ q pkt poison, i ≠ .timeReply q pkt poison) (hp : ∀ v12, i ≠ .powerLoss v12) :
    ∃ p, exec i s = .next (Safety.withPkg s p) := by
  cases i
  case timeReply q pkt poison => exact absurd rfl (hr q pkt poison)
  case powerLoss v12 => exact absurd rfl (hp v12)
  case tQpush k q rs1 rs2 =>
    rw [exec_tQpush, execTQpush]
    split
    · exact ⟨s.pkg, rfl⟩
    · exact ⟨_, rfl⟩
  case tTwait k token =>
    rw [exec_tTwait, execTTwait]
    split
    · exact ⟨s.pkg, rfl⟩
    · exact ⟨_, rfl⟩
  all_goals exact ⟨_, rfl⟩

/-- Settles O4: every command named by neither exception answers with another package alone. -/
theorem clockChangesOnlyBy : Obligations.ClockChangesOnlyBy := by
  intro i s t ht hi
  have hr : ∀ q pkt poison, i ≠ .timeReply q pkt poison := by rintro q pkt poison rfl; exact hi
  have hp : ∀ v12, i ≠ .powerLoss v12 := by rintro v12 rfl; exact hi
  obtain ⟨p, he⟩ := exec_eq_withPkg i s hr hp
  rw [he] at ht
  exact (Host.Outcome.next.inj ht) ▸ rfl

end Sys2Proof.Machine
end

section
/-! PROOFS. Launches of several members: the record, the decision, the commit, the deadline and the notice (R280 to R283, R384): O37. -/

namespace Sys2Proof.Machine

/-! The record of a launch (R280, R384) -/

section
variable {s : State} {group llo src fl : Nat} {d : List Byte} {rd : SlotReads}

/-- The identity under which a launch's record and its commit are broadcast. -/
def recordIdent (group llo : Nat) : Ident := { group := group, opc := 0xF, llo := llo, off := 0 }

/-- A record that came whole, with good sums, for a valid group of a package that is not retired. -/
structure RecordCame (p : Pkg) (group llo src : Nat) (d : List Byte) (fl : Nat) : Prop where
  whole : gather p (recordIdent group llo) 0 src
    (((p.swIn.find? (fun k => k.ident == recordIdent group llo && k.src == src && k.frag == 0)).map (fun k => k.data.length)).getD 0) =
      some (d, fl, false)
  sum : (crc32c (d.take 60)).toNat = field d 60 4
  group_eq : field d 26 2 % 4096 = group
  valid : gValid p group = true
  inUse : retired p = false

variable (h : RecordCame s.pkg group llo src d fl)
include h

theorem exec_launchRecordReceive : exec (.launchRecordReceive group llo src rd) s = .next (Safety.withPkg s
    (if field d 24 2 ≠ 0xFFFF then takeRecord (forget s.pkg (recordIdent group llo) 0 src) s.clk d rd
    else
      let p := askSlots s.pkg s.clk (restoreTargets (d.drop 64))
      match slotReads p (restoreTargets (d.drop 64)) rd with
      | none => p
      | some r => takeRecord (denForget (forget p (recordIdent group llo) 0 src) (slotAsks p (restoreTargets (d.drop 64)))) s.clk d r)) := by
  have hg := h.whole
  have hk : ¬(retired s.pkg = true ∨ (crc32c (d.take 60)).toNat ≠ field d 60 4 ∨ field d 26 2 % 4096 ≠ group ∨ (!gValid s.pkg group) = true) := by
    simp only [h.inUse, h.sum, h.group_eq, h.valid, Bool.false_eq_true, Bool.not_true, ne_eq, not_true_eq_false, or_self, not_false_eq_true]
  rw [recordIdent] at hg
  rw [show exec (.launchRecordReceive group llo src rd) s = execLaunchRecordReceive group llo src rd s from rfl, execLaunchRecordReceive,
    run_eq]
  simp only [hg, Bool.false_eq_true, if_false, if_neg hk]
  rfl

theorem exec_launchRecordReceive_launch (hf : field d 24 2 ≠ 0xFFFF) : exec (.launchRecordReceive group llo src rd) s =
    .next (Safety.withPkg s (takeRecord (forget s.pkg (recordIdent group llo) 0 src) s.clk d rd)) := by
  rw [exec_launchRecordReceive h, if_pos hf]

theorem exec_launchRecordReceive_restore {r : SlotReads} (hf : field d 24 2 = 0xFFFF)
    (hr : slotReads (askSlots s.pkg s.clk (restoreTargets (d.drop 64))) (restoreTargets (d.drop 64)) rd = some r) :
    exec (.launchRecordReceive group llo src rd) s = .next (Safety.withPkg s (takeRecord
      (denForget (forget (askSlots s.pkg s.clk (restoreTargets (d.drop 64))) (recordIdent group llo) 0 src)
        (slotAsks (askSlots s.pkg s.clk (restoreTargets (d.drop 64))) (restoreTargets (d.drop 64)))) s.clk d r)) := by
  rw [exec_launchRecordReceive h, if_neg (not_not.mpr hf)]
  simp only [hr]

theorem exec_launchRecordReceive_asks (hf : field d 24 2 = 0xFFFF)
    (hr : slotReads (askSlots s.pkg s.clk (restoreTargets (d.drop 64))) (restoreTargets (d.drop 64)) rd = none) :
    exec (.launchRecordReceive group llo src rd) s = .next (Safety.withPkg s (askSlots s.pkg s.clk (restoreTargets (d.drop 64)))) := by
  rw [exec_launchRecordReceive h, if_neg (not_not.mpr hf)]
  simp only [hr]

end

/-! What a launch takes on -/

/-- Every launch of the number is one that the change has made. -/
theorem of_mem_modLaunch {p : Pkg} {id : Nat} {f : Launch → Launch} {z : Launch} (hz : z ∈ (modLaunch p id f).launches) (hid : z.id = id) :
    ∃ y, z = f y := by
  obtain ⟨y, -, rfl⟩ := List.mem_map.mp hz
  by_cases h : (y.id == id) = true
  · exact ⟨y, if_pos h⟩
  · rw [if_neg h] at hid
    exact absurd (beq_iff_eq.mpr hid) h

/-- A launch that holds its commit. -/
def Launch.withCommit (z : Launch) : Launch := { z with committed := true }

theorem committed_of_mem {p : Pkg} {id : Nat} {z : Launch} (hz : z ∈ (modLaunch p id Launch.withCommit).launches) (hid : z.id = id) :
    z.committed = true := by
  obtain ⟨y, rfl⟩ := of_mem_modLaunch hz hid
  rfl

/-- A launch that has been told of a failure elsewhere (R283). -/
def Launch.withNotice (g status : Nat) (z : Launch) : Launch := { z with told := z.told ++ [(g, status)] }

theorem told_of_mem {p : Pkg} {id g status : Nat} {z : Launch} (hz : z ∈ (modLaunch p id (Launch.withNotice g status)).launches)
    (hid : z.id = id) : (g, status) ∈ z.told := by
  obtain ⟨y, rfl⟩ := of_mem_modLaunch hz hid
  exact List.mem_append_right _ (List.mem_singleton.mpr rfl)

/-! The decision of the root (R280) -/

section
variable {s : State} {l : Nat} {y : Launch} (hy : findLaunch s.pkg l = some y) (hr : y.root = true) (hc : y.committed = false)
  (ho : y.closed = false) (ht : y.C ≤ s.clk.gsc)
include hy hr hc ho ht

theorem exec_commitDecision : exec (.commitDecision l) s = .next (Safety.withPkg s (match rootVerdict s.pkg y with
    | some (st, v, rep) => endRoot s.pkg s.clk y st v rep
    | none =>
      let p := modLaunch s.pkg l Launch.withCommit
      if y.multi then wgBroadcast p s.clk (launchIdent y.group y.L) (noticeBytes 0 y.member) else p)) := by
  have hk : ¬((!y.root || y.committed || y.closed || decide (s.clk.gsc < y.C)) = true) := by
    simp only [hr, hc, ho, Nat.not_lt.mpr ht, Bool.not_true, Bool.or_self, decide_false, Bool.false_eq_true, not_false_eq_true]
  rw [show exec (.commitDecision l) s = execCommitDecision l s from rfl, execCommitDecision, run_eq]
  simp only [hy, if_neg hk]
  rfl

theorem exec_commitDecision_alone (hv : rootVerdict s.pkg y = none) (hm : y.multi = false) :
    exec (.commitDecision l) s = .next (Safety.withPkg s (modLaunch s.pkg l Launch.withCommit)) := by
  rw [exec_commitDecision hy hr hc ho ht]
  simp only [hv, hm, Bool.false_eq_true, if_false]

theorem exec_commitDecision_commits (hv : rootVerdict s.pkg y = none) (hm : y.multi = true) :
    exec (.commitDecision l) s = .next (Safety.withPkg s
      (wgBroadcast (modLaunch s.pkg l Launch.withCommit) s.clk (launchIdent y.group y.L) (noticeBytes 0 y.member))) := by
  rw [exec_commitDecision hy hr hc ho ht]
  simp only [hv, hm, if_true]

theorem exec_commitDecision_ends {st v : Nat} {rep : Option (List Nat)} (hv : rootVerdict s.pkg y = some (st, v, rep)) :
    exec (.commitDecision l) s = .next (Safety.withPkg s (endRoot s.pkg s.clk y st v rep)) := by
  rw [exec_commitDecision hy hr hc ho ht]
  simp only [hv]

end

/-! The commit at a member, and its deadline (R280, R281) -/

theorem exec_commitReceive {s : State} {group llo : Nat} {y : Launch}
    (hw : ∃ v ∈ s.pkg.wg, v.ident = recordIdent group llo ∧ field v.data 0 1 = 0)
    (hy : s.pkg.launches.find? (fun y => y.multi && !y.root && y.group == group && y.L % 2 ^ 32 == llo && !y.closed) = some y)
    (hc : y.committed = false) : exec (.commitReceive group llo) s = .next (Safety.withPkg s
      (if s.clk.gsc + 125 ≤ y.L then modLaunch s.pkg y.id Launch.withCommit else event s.pkg s.clk 0x0A 0xFF y.member y.L)) := by
  have hk : s.pkg.wg.any (fun v => v.ident == recordIdent group llo && field v.data 0 1 == 0) = true := by
    simpa only [List.any_eq_true, Bool.and_eq_true, beq_iff_eq] using hw
  rw [recordIdent] at hk
  rw [show exec (.commitReceive group llo) s = execCommitReceive group llo s from rfl, execCommitReceive, run_eq]
  simp only [hk, Bool.not_true, Bool.false_eq_true, if_false, hy, hc]
  rfl

theorem exec_commitDeadline {s : State} {l : Nat} {y : Launch} (hy : findLaunch s.pkg l = some y) (hm : y.multi = true)
    (hr : y.root = false) (hc : y.committed = false) (ho : y.closed = false) (ht : y.L ≤ s.clk.gsc + 125) :
    exec (.commitDeadline l) s = .next (Safety.withPkg s (finishLaunch (freeLedger s.pkg (.launch l)) s.clk y 0x24)) := by
  have hk : ¬((!y.multi || y.root || y.committed || y.closed || decide (s.clk.gsc + 125 < y.L)) = true) := by
    simp only [hm, hr, hc, ho, Nat.not_lt.mpr ht, Bool.not_true, Bool.or_self, decide_false, Bool.false_eq_true, not_false_eq_true]
  rw [show exec (.commitDeadline l) s = execCommitDeadline l s from rfl, execCommitDeadline, run_eq]
  simp only [hy, if_neg hk]

/-! The notice of an abandoned launch (R283) -/

theorem exec_abandonmentNotice {s : State} {l src : Nat} {y : Launch} {v : WgVal} (hy : findLaunch s.pkg l = some y)
    (ho : y.closed = false) (hm : y.multi = true) (hr : y.restore = false)
    (hv : s.pkg.wg.find? (fun v => v.ident == launchIdent y.group y.L && v.src == src && field v.data 0 1 != 0) = some v) :
    exec (.abandonmentNotice l src) s = .next (Safety.withPkg s
      (modLaunch s.pkg l (Launch.withNotice s.clk.gsc (noticeStatus (field v.data 0 1))))) := by
  rw [show exec (.abandonmentNotice l src) s = execAbandonmentNotice l src s from rfl, execAbandonmentNotice, run_eq]
  simp only [hy, ho, hm, hr, hv, Bool.not_true, Bool.or_self, Bool.false_eq_true, if_false]
  rfl

/-- Settles O37: each command by its equation; the launches it changes hold what it brings. -/
theorem memberProtocol : Obligations.MemberProtocol := by
  refine ⟨fun s group llo src rd len d fl => ?record, fun s l y hy hr hc ho ht => ⟨fun hv hm => ?alone, fun hv hm => ?commits, ?ends⟩,
    fun s group llo y hw hy hc => ⟨fun ht => ?held, fun ht => ?late⟩,
    fun s l y hy hm hr hc ho ht => exec_commitDeadline hy hm hr hc ho ht, fun s l src y v hy ho hm hr hv => ?notice⟩
  case record =>
    rintro i rfl hg hs hd hv hr p asks
    have h : RecordCame s.pkg group llo src d fl := ⟨hg, hs, hd, hv, hr⟩
    exact ⟨exec_launchRecordReceive_launch h, fun r hf hr => exec_launchRecordReceive_restore h hf hr, exec_launchRecordReceive_asks h⟩
  case alone => exact ⟨_, exec_commitDecision_alone hy hr hc ho ht hv hm, fun z => committed_of_mem, rfl⟩
  case commits => exact ⟨_, exec_commitDecision_commits hy hr hc ho ht hv hm, fun z => committed_of_mem, rfl⟩
  case ends => exact fun st v rep => exec_commitDecision_ends hy hr hc ho ht
  case held =>
    refine ⟨_, exec_commitReceive hw hy hc, ?_⟩
    rw [if_pos ht]
    exact ⟨fun z => committed_of_mem, rfl, rfl⟩
  case late =>
    refine ⟨_, exec_commitReceive hw hy hc, ?_⟩
    rw [if_neg (by omega)]
    exact (outward_event _ _ _ _ _ _).launches
  case notice => exact ⟨_, exec_abandonmentNotice hy ho hm hr hv, fun z => told_of_mem, rfl, rfl⟩

end Sys2Proof.Machine
end

section
/-! PROOFS. Time packets and their stamps: fields of records and of resealed packets, packets that arrive, probes and replies (R267, R291,
R293): for O22. -/

namespace Sys2Proof.Machine

/-! Fields of records and packets (R4, R291) -/

theorem field_append_left {a : List Byte} (b : List Byte) {off n : Nat} (h : off + n ≤ a.length) : field (a ++ b) off n = field a off n := by
  rw [field, List.drop_append_of_le_length (by omega), List.take_append_of_le_length (by rw [List.length_drop]; omega), field]

theorem field_append_right (a b : List Byte) (k n : Nat) : field (a ++ b) (a.length + k) n = field b k n := by
  rw [field, List.drop_append, List.drop_eq_nil_of_le (Nat.le_add_right _ k), List.nil_append, Nat.add_sub_cancel_left, field]

theorem field_take (b : List Byte) {off n m : Nat} (h : off + n ≤ m) : field (b.take m) off n = field b off n := by
  rw [field, List.drop_take, List.take_take, Nat.min_eq_left (by omega), field]

theorem field_natLe (n v : Nat) : field (natLe n v) 0 n = v % 256 ^ n := by
  rw [field, List.drop_zero, List.take_of_length_le (natLe_length n v).le, leNat_natLe]

theorem field_append_natLe {a : List Byte} {off : Nat} (n v : Nat) (h : a.length = off) : field (a ++ natLe n v) off n = v % 256 ^ n := by
  subst h
  exact (field_append_right a (natLe n v) 0 n).trans (field_natLe n v)

theorem length_putField {b : List Byte} {off len : Nat} (v : Nat) (h : off + len ≤ b.length) : (putField b off len v).length = b.length := by
  simp only [putField, List.length_append, List.length_take, natLe_length, List.length_drop]
  omega

theorem field_putField_self {b : List Byte} {off : Nat} (len v : Nat) (h : off ≤ b.length) :
    field (putField b off len v) off len = v % 256 ^ len := by
  have hoff : (b.take off).length = off := List.length_take_of_le h
  rw [putField, field_append_left _ (by rw [List.length_append, hoff, natLe_length]), field_append_natLe len v hoff]

theorem field_putField_before {b : List Byte} {off o n : Nat} (len v : Nat) (h : off ≤ b.length) (ho : o + n ≤ off) :
    field (putField b off len v) o n = field b o n := by
  rw [putField, List.append_assoc, field_append_left _ (by rw [List.length_take_of_le h]; exact ho), field_take b ho]

/-- A field of the header bytes of a resealed packet is the one of the packet with the bytes replaced. -/
theorem field_reseal {b : List Byte} {off len : Nat} (v : Nat) {o n : Nat} (hb : 60 ≤ b.length) (h : off + len ≤ 60) (ho : o + n ≤ 60) :
    field (reseal b off len v) o n = field (putField b off len v) o n := by
  have hl : ((putField b off len v).take 60).length = 60 := List.length_take_of_le (by rw [length_putField v (by omega)]; exact hb)
  rw [reseal, List.append_assoc, field_append_left _ (by rw [hl]; exact ho), field_take _ ho]

/-! A link-local packet (Table 12.4, R330) -/

theorem hdrBytes_length (h : Hdr) : (hdrBytes h).length = 60 := by
  simp only [hdrBytes, List.length_append, natLe_length, List.length_replicate]

theorem field_hdrBytes_ty (h : Hdr) : field (hdrBytes h) 0 1 = h.ty % 256 := by
  simp only [hdrBytes, List.append_assoc]
  rw [field_append_left _ (natLe_length 1 h.ty).ge, field_natLe, Nat.pow_one]

theorem field_hdrBytes_op0 (h : Hdr) : field (hdrBytes h) 32 8 = h.op0 % 2 ^ 64 := by
  rw [hdrBytes, field_append_left, field_append_left, field_append_natLe]
  all_goals simp only [List.length_append, natLe_length, Nat.reduceAdd, Nat.reducePow, Nat.le_refl, Nat.reduceLeDiff]

theorem field_hdrBytes_op1 (h : Hdr) : field (hdrBytes h) 40 8 = h.op1 % 2 ^ 64 := by
  rw [hdrBytes, field_append_left, field_append_natLe]
  all_goals simp only [List.length_append, natLe_length, Nat.reduceAdd, Nat.reducePow, Nat.le_refl]

theorem mkPacket_length_ge (h : Hdr) (payload : List Byte) : 60 ≤ (mkPacket h payload).length := by
  rw [mkPacket, List.append_assoc, List.length_append, hdrBytes_length]
  exact Nat.le_add_right 60 _

/-- The header bytes open the packet. -/
theorem field_mkPacket (h : Hdr) (payload : List Byte) {off n : Nat} (hn : off + n ≤ 60) :
    field (mkPacket h payload) off n = field (hdrBytes h) off n := by
  rw [mkPacket, List.append_assoc, field_append_left _ (by rw [hdrBytes_length]; exact hn)]

section
variable (p : Pkg) (ty dst a b : Nat)

theorem field_linkPacket_ty : field (linkPacket p ty dst a b) 0 1 = ty % 256 := by
  rw [linkPacket, field_mkPacket _ _ (by decide), field_hdrBytes_ty]

theorem field_linkPacket_op0 : field (linkPacket p ty dst a b) 32 8 = a % 2 ^ 64 := by
  rw [linkPacket, field_mkPacket _ _ (by decide), field_hdrBytes_op0]

theorem field_linkPacket_op1 : field (linkPacket p ty dst a b) 40 8 = b % 2 ^ 64 := by
  rw [linkPacket, field_mkPacket _ _ (by decide), field_hdrBytes_op1]

end

/-! Stamps of departures (R267) -/

theorem stampNow_lt (p : Pkg) (c : Clock) : stampNow p c < 2 ^ 63 := Nat.mod_lt _ (Nat.two_pow_pos 63)

theorem stampOut_probe (p : Pkg) (c : Clock) {a : Wire} (h : field a.bytes 0 1 = 0x30) :
    stampOut p c a = ({ p with time := { p.time with t1 := some (stampNow p c) } }, a) := by
  rw [stampOut, h]
  rfl

/-- The reply as it leaves: OP1 takes the stamp below its bit 63. -/
theorem stampOut_reply (p : Pkg) (c : Clock) {a : Wire} (h : field a.bytes 0 1 = 0x31) :
    stampOut p c a = (p, { a with bytes := reseal a.bytes 40 8 (stampNow p c + field a.bytes 40 8 / 2 ^ 63 * 2 ^ 63) }) := by
  rw [stampOut, h]
  rfl

theorem stampOut_linkPacket (p : Pkg) (c : Clock) {a : Wire} {dst op0 : Nat} {lost : Bool}
    (h : a.bytes = linkPacket p 0x31 dst op0 (b2n lost * 2 ^ 63)) :
    (stampOut p c a).1 = p ∧ (parseHdr (stampOut p c a).2.bytes).op0 = op0 % 2 ^ 64 ∧
      (parseHdr (stampOut p c a).2.bytes).op1 = stampNow p c + b2n lost * 2 ^ 63 := by
  have hty : field a.bytes 0 1 = 0x31 := by rw [h, field_linkPacket_ty]
  have hbit : b2n lost * 2 ^ 63 ≤ 2 ^ 63 := by cases lost <;> decide
  have hop : field a.bytes 40 8 / 2 ^ 63 * 2 ^ 63 = b2n lost * 2 ^ 63 := by
    rw [h, field_linkPacket_op1, Nat.mod_eq_of_lt (by omega), Nat.mul_div_cancel _ (Nat.two_pow_pos 63)]
  have hlen : 60 ≤ a.bytes.length := by rw [h]; exact mkPacket_length_ge _ _
  rw [stampOut_reply p c hty, hop]
  refine ⟨rfl, ?op0, ?op1⟩
  case op0 =>
    calc field (reseal a.bytes 40 8 _) 32 8 = field (putField a.bytes 40 8 _) 32 8 := field_reseal _ hlen (by decide) (by decide)
      _ = field a.bytes 32 8 := field_putField_before 8 _ (by omega) (by decide)
      _ = op0 % 2 ^ 64 := by rw [h, field_linkPacket_op0]
  case op1 =>
    have hlt := stampNow_lt p c
    calc field (reseal a.bytes 40 8 _) 40 8 = field (putField a.bytes 40 8 _) 40 8 := field_reseal _ hlen (by decide) (by decide)
      _ = (stampNow p c + b2n lost * 2 ^ 63) % 256 ^ 8 := field_putField_self 8 _ (by omega)
      _ = stampNow p c + b2n lost * 2 ^ 63 := Nat.mod_eq_of_lt (by omega)

/-! Arrival (R291, R293) -/

theorem arrive_of_arrives {p : Pkg} {q ty : Nat} {pkt : List Byte} (c : Clock) (h : Safety.Arrives p q pkt ty) :
    arrive p c q pkt false [ty] = (Safety.heard p c q pkt, some (parseHdr pkt)) := by
  obtain ⟨rfl, hc, hp, hk⟩ := h
  simp only [arrive, hc, hp, hk, List.contains_cons, beq_self_eq_true, Bool.true_or, bne_self_eq_false, Bool.not_true, Bool.or_self,
    Bool.false_eq_true, if_false]

end Sys2Proof.Machine
end

section
/-! PROOFS. The time function: captures, takeover, reset, exchange and estimate (R266 to R271): O22. -/

namespace Sys2Proof.Machine

/-! Captures (R271) -/

theorem exec_timeInEdge (s : State) : exec .timeInEdge s =
    .next (Safety.withPkg s (rset (rset s.pkg rTimTimeinLo (s.clk.gsc % 2 ^ 32)) rTimTimeinHi (s.clk.gsc / 2 ^ 32))) := rfl

theorem exec_gscManagerTakeover (s : State) : exec .gscManagerTakeover s =
    .next (Safety.withPkg s { s.pkg with time := { s.pkg.time with pd1 := true } }) := rfl

/-! A reset of the time function (R269, R286) -/

theorem sget_filter_of_false {α : Type} (m : SMap α) {f : Nat → Bool} {k : Nat} (d : α) (h : f k = false) :
    sget (m.filter (fun e => f e.1)) k d = d := by
  induction m with
  | nil => rfl
  | cons e r ih =>
    rw [List.filter_cons]
    split
    case isTrue he =>
      have hk : e.1 ≠ k := fun hek => Bool.false_ne_true (h.symm.trans (hek ▸ he))
      rw [sget, if_neg hk, ih]
    case isFalse => exact ih

/-- The registers of the TIM block read their reset values. -/
def timCleared (p : Pkg) : Pkg := { p with regs := p.regs.filter (fun e => !(decide (0x400000 ≤ e.1) && decide (e.1 < 0x500000))) }

theorem rget_timCleared (p : Pkg) {o : Nat} (h : 0x400000 ≤ o ∧ o < 0x500000) : rget (timCleared p) o = regDefault o % 2 ^ 32 := by
  have hf : (!(decide (0x400000 ≤ o) && decide (o < 0x500000))) = false := by rw [decide_eq_true h.1, decide_eq_true h.2]; rfl
  rw [rget, timCleared, sget_filter_of_false (f := fun k => !(decide (0x400000 ≤ k) && decide (k < 0x500000))) _ _ hf, BitVec.toNat_ofNat]

/-- The DSR stands while the block's other registers read their reset values. -/
def dsrKept (p : Pkg) : Pkg :=
  ((List.range 4).map (fun i => rget p (rTimDsr i))).zipIdx.foldl (fun q e => rset q (rTimDsr e.2) e.1) (timCleared p)

theorem foldl_rset_eq {α : Type} {f g : α → Nat} : ∀ (l : List α) (p : Pkg), ∃ r, l.foldl (fun q a => rset q (f a) (g a)) p = { p with regs := r }
  | [], p => ⟨p.regs, rfl⟩
  | a :: l, p => foldl_rset_eq l (rset p (f a) (g a))

theorem rget_foldl_rset {α : Type} {f g : α → Nat} {o : Nat} : ∀ (l : List α) (p : Pkg), (∀ a ∈ l, o ≠ f a) →
    rget (l.foldl (fun q a => rset q (f a) (g a)) p) o = rget p o
  | [], _, _ => rfl
  | a :: l, p, h => by
    rw [List.foldl_cons, rget_foldl_rset l _ (fun b hb => h b (List.mem_cons_of_mem a hb)), rget_rset_ne _ _ (h a List.mem_cons_self)]

theorem dsrKept_eq (p : Pkg) : ∃ r, dsrKept p = { p with regs := r } := foldl_rset_eq _ (timCleared p)

theorem rTimStatus_ne_dsr (i : Nat) : rTimStatus ≠ rTimDsr i := by
  unfold rTimStatus rTimDsr
  omega

theorem rget_dsrKept_status (p : Pkg) : rget (dsrKept p) rTimStatus = 0 := by
  rw [dsrKept, rget_foldl_rset _ _ (fun e _ => rTimStatus_ne_dsr e.2), rget_timCleared p (by decide)]
  decide

/-- The TIM block as it is reset, before it takes ROLE and PPORT from the record in use: EVERSYNC stands, the next estimate steps. -/
def timReset (p : Pkg) (c : Clock) : Pkg :=
  let q := rsetb (dsrKept p) rTimStatus 1 (rbit p rTimStatus 1)
  { q with time := { q.time with t1 := none, last := c.gsc, nextAt := c.gsc, bad := 0, step := true } }

theorem timReset_eq (p : Pkg) (c : Clock) : ∃ r t, timReset p c = { p with regs := r, time := t } := by
  obtain ⟨r, h⟩ := dsrKept_eq p
  rw [timReset, h]
  exact ⟨_, _, rfl⟩

theorem rget_timReset (p : Pkg) (c : Clock) (o : Nat) :
    rget (timReset p c) o = rget (rsetb (dsrKept p) rTimStatus 1 (rbit p rTimStatus 1)) o := rget_congr o rfl

theorem rbit_timReset_sync (p : Pkg) (c : Clock) : rbit (timReset p c) rTimStatus 0 = false := by
  rw [rbit, rget_timReset, ← rbit, rbit_rsetb_other _ _ _ _ _ (by decide) (by decide), rbit, rget_dsrKept_status]
  rfl

theorem rbit_timReset_ever (p : Pkg) (c : Clock) : rbit (timReset p c) rTimStatus 1 = rbit p rTimStatus 1 := by
  rw [rbit, rget_timReset, ← rbit, rbit_rsetb_self _ _ _ _ (by decide)]

theorem recInUse_timReset (p : Pkg) (c : Clock) : recInUse (timReset p c) = recInUse p := by
  obtain ⟨r, t, h⟩ := timReset_eq p c
  rw [h, recInUse, recInUse]

theorem resetTim_of_none {p : Pkg} (c : Clock) (h : recInUse p = none) : resetTim p c = timReset p c := by
  rw [← recInUse_timReset p c] at h
  unfold timReset dsrKept timCleared at h
  unfold resetTim
  simp only [h]
  rfl

/-- The configuration that the record names; the time master is aligned with itself. -/
theorem resetTim_of_some {p : Pkg} (c : Clock) {r : CfgRec} (h : recInUse p = some r) : resetTim p c =
    (let q := rset (timReset p c) rTimCfg (r.role % 4 + r.pport % 128 * 4)
    if r.role % 4 = 2 then rset (rsetb q rTimStatus 0 true) rTimLock 1 else q) := by
  rw [← recInUse_timReset p c] at h
  unfold timReset dsrKept timCleared at h
  unfold resetTim
  simp only [h]
  rfl

theorem resetTim_eq (p : Pkg) (c : Clock) : ∃ r t, resetTim p c = { p with regs := r, time := t } := by
  obtain ⟨r, t, h⟩ := timReset_eq p c
  cases hr : recInUse p with
  | none => exact ⟨r, t, (resetTim_of_none c hr).trans h⟩
  | some x =>
    rw [resetTim_of_some c hr, h]
    simp only
    split <;> exact ⟨_, _, rfl⟩

theorem rbit_resetTim_ever (p : Pkg) (c : Clock) : rbit (resetTim p c) rTimStatus 1 = rbit p rTimStatus 1 := by
  cases hr : recInUse p with
  | none => rw [resetTim_of_none c hr, rbit_timReset_ever]
  | some x =>
    rw [resetTim_of_some c hr]
    simp only
    split
    case isTrue =>
      rw [rbit_rset_ne _ _ _ (by decide), rbit_rsetb_other _ _ _ _ _ (by decide) (by decide), rbit_rset_ne _ _ _ (by decide),
        rbit_timReset_ever]
    case isFalse => rw [rbit_rset_ne _ _ _ (by decide), rbit_timReset_ever]

theorem rbit_resetTim_sync_of_none {p : Pkg} (c : Clock) (h : recInUse p = none) : rbit (resetTim p c) rTimStatus 0 = false := by
  rw [resetTim_of_none c h, rbit_timReset_sync]

theorem rbit_resetTim_sync_of_some {p : Pkg} (c : Clock) {r : CfgRec} (h : recInUse p = some r) :
    rbit (resetTim p c) rTimStatus 0 = (r.role % 4 == 2) := by
  rw [resetTim_of_some c h]
  simp only
  split
  case isTrue hm => rw [rbit_rset_ne _ _ _ (by decide), rbit_rsetb_self _ _ _ _ (by decide), hm]; rfl
  case isFalse hm => rw [rbit_rset_ne _ _ _ (by decide), rbit_timReset_sync, beq_eq_false_iff_ne.mpr hm]

theorem exec_timeFunctionReset (s : State) : exec .timeFunctionReset s = .next (Safety.withPkg s (resetTim s.pkg s.clk)) := rfl

/-! Synchronisation lost (R269) -/

theorem exec_exchangeTimeout {s : State} (hr : timRole s.pkg ≠ 2) (ht : s.pkg.time.last + 8 * exchangeTicks ≤ s.clk.gsc) :
    exec .exchangeTimeout s = .next (Safety.withPkg s (loseSync (Safety.noStamp s.pkg) s.clk)) := by
  rw [show exec .exchangeTimeout s = execExchangeTimeout s from rfl, execExchangeTimeout, run_eq, if_neg (not_or.mpr ⟨hr, Nat.not_lt.mpr ht⟩)]
  rfl

/-- A package that held synchronisation, as the loss is counted and reported. -/
def syncLost (p : Pkg) (c : Clock) : Pkg :=
  event (bump (rsetb p rTimStatus 0 false) rTimSyncloss) c 8 8 0 (thetaWord (sext 32 (rget p rTimOffset)))

theorem loseSync_of_single {p : Pkg} (c : Clock) (hs : rbit p rTimStatus 0 = true) (hl : ∀ l ∈ p.launches, l.multi = false) :
    loseSync p c = { syncLost p c with time := { (syncLost p c).time with lost := true, bad := 0 } } := by
  have hnone : (syncLost p c).launches.filter (fun l => l.multi && decide (1 < l.nmem) && l.running && !l.closed && !l.restore) = [] := by
    rw [syncLost, (outward_event _ _ _ _ _ _).launches]
    refine List.filter_eq_nil_iff.mpr fun l h => ?_
    rw [hl l h]
    exact Bool.false_ne_true
  rw [syncLost] at hnone
  rw [loseSync, hs, Bool.not_true, if_neg Bool.false_ne_true]
  simp only [hnone, List.foldl_nil]
  rfl

theorem rbit_syncLost (p : Pkg) (c : Clock) : rbit (syncLost p c) rTimStatus 0 = false := by
  rw [rbit, syncLost, rget_event _ _ _ _ _ _ _ (by decide), rget_bump_ne _ (by decide), ← rbit, rbit_rsetb_self _ _ _ _ (by decide)]

theorem rget_syncLost (p : Pkg) (c : Clock) : rget (syncLost p c) rTimSyncloss = (rget p rTimSyncloss + 1) % 2 ^ 32 := by
  rw [syncLost, rget_event _ _ _ _ _ _ _ (by decide), rget_bump_self, rget_rsetb_ne _ _ _ (by decide)]

theorem loseSync_shows {p : Pkg} (c : Clock) (hs : rbit p rTimStatus 0 = true) (hl : ∀ l ∈ p.launches, l.multi = false) :
    rbit (loseSync p c) rTimStatus 0 = false ∧ rget (loseSync p c) rTimSyncloss = (rget p rTimSyncloss + 1) % 2 ^ 32 := by
  rw [loseSync_of_single c hs hl]
  exact ⟨rbit_syncLost p c, rget_syncLost p c⟩

theorem noStamp_loses {p : Pkg} (c : Clock) (hs : rbit p rTimStatus 0 = true) (hl : ∀ l ∈ p.launches, l.multi = false) :
    rbit (loseSync (Safety.noStamp p) c) rTimStatus 0 = false ∧
      rget (loseSync (Safety.noStamp p) c) rTimSyncloss = (rget p rTimSyncloss + 1) % 2 ^ 32 := by
  have hreg : ∀ o, rget (Safety.noStamp p) o = rget p o := fun o => rget_congr o rfl
  rw [← hreg rTimSyncloss]
  rw [rbit, ← hreg, ← rbit] at hs
  exact loseSync_shows c hs hl

/-! Probes and replies (R267) -/

/-- A probe whose reply has not come is given up. -/
def noReply (p : Pkg) : Pkg :=
  if p.time.t1.isSome || p.answers.any (fun a => field a.bytes 0 1 == 0x30) then rsetb p rTimStatus 2 false else p

theorem noReply_eq (p : Pkg) : ∃ r, noReply p = { p with regs := r } := by
  rw [noReply]
  split <;> exact ⟨_, rfl⟩

/-- The package in its next exchange interval, with no probe awaiting a reply. -/
def probing (p : Pkg) (c : Clock) : Pkg := { p with time := { p.time with t1 := none, nextAt := c.gsc + exchangeTicks } }

theorem exec_timeExchange {s : State} (hr : timRole s.pkg ≠ 2) (hu : portUp s.pkg (timPport s.pkg) = true)
    (ht : s.pkg.time.nextAt ≤ s.clk.gsc) : exec .timeExchange s = .next (Safety.withPkg s
      (sendLink (probing (noReply s.pkg) s.clk) s.clk (timPport s.pkg)
        (linkPacket (noReply s.pkg) 0x30 (peerPlace (noReply s.pkg) (timPport s.pkg)) 0 0))) := by
  have hk : ¬(timRole s.pkg = 2 ∨ (!portUp s.pkg (timPport s.pkg)) = true ∨ s.clk.gsc < s.pkg.time.nextAt) := by
    simp only [hr, hu, Nat.not_lt.mpr ht, Bool.not_true, Bool.false_eq_true, or_self, not_false_eq_true]
  rw [show exec .timeExchange s = execTimeExchange s from rfl, execTimeExchange, run_eq]
  simp only [if_neg hk]
  rfl

theorem probing_noReply_keeps (p : Pkg) (c : Clock) :
    (probing (noReply p) c).answers = p.answers ∧ (probing (noReply p) c).mem = p.mem := by
  obtain ⟨r, h⟩ := noReply_eq p
  rw [h]
  exact ⟨rfl, rfl⟩

theorem exec_timeProbe {s : State} {q : Fin 128} {pkt : List Byte} (h : Safety.Arrives s.pkg q pkt 0x30) :
    exec (.timeProbe q pkt false) s = .next (Safety.withPkg s (sendLink (Safety.heard s.pkg s.clk q pkt) s.clk q
      (linkPacket (Safety.heard s.pkg s.clk q pkt) 0x31 (parseHdr pkt).src (stampNow (Safety.heard s.pkg s.clk q pkt) s.clk)
        (b2n (!rbit (Safety.heard s.pkg s.clk q pkt) rTimStatus 0) * 2 ^ 63)))) := by
  rw [show exec (.timeProbe q pkt false) s = execTimeProbe q pkt false s from rfl, execTimeProbe, run_eq, arrive_of_arrives s.clk h]

/-! Estimates (R267, R268, R270) -/

/-- The estimate is in OFFSET, and the exchange has ended. -/
def offsetTaken (p : Pkg) (c : Clock) (th : Int) : Pkg :=
  let q := rsetb (rset p rTimOffset (wrapInt 32 th)) rTimStatus 2 true
  { q with fv := q.fv + 1, time := { q.time with t1 := none, last := c.gsc } }

theorem exec_timeReply {s : State} {q : Fin 128} {pkt : List Byte} {t1 : Nat} (h : Safety.Arrives s.pkg q pkt 0x31)
    (ht : (Safety.heard s.pkg s.clk q pkt).time.t1 = some t1) (hr : timRole (Safety.heard s.pkg s.clk q pkt) ≠ 2)
    (hp : timPport (Safety.heard s.pkg s.clk q pkt) = q.val) :
    exec (.timeReply q pkt false) s =
      (let p := Safety.heard s.pkg s.clk q pkt
      let h := parseHdr pkt
      let th := theta p t1 (h.op0 % 2 ^ 63) (h.op1 % 2 ^ 63) (stampNow p s.clk) (sext 16 (rfld p (rFabPflight (physPort p q)) 31 16))
      let e := estimate s.clk p th (bit h.op1 63)
      .next { s with clk := e.1, pkg := e.2 }) := by
  rw [show exec (.timeReply q pkt false) s = execTimeReply q pkt false s from rfl, execTimeReply, arrive_of_arrives s.clk h]
  simp only [ht, if_neg (not_or.mpr ⟨hr, not_not.mpr hp⟩)]

/-! The step of the count, in a package without launches, tests or den policy (R268, R270) -/

theorem disarm_of_empty {p : Pkg} (c : Clock) (h : p.den = {}) : disarm p c = rsetb p rDenStatus 0 false := by
  have hkeep : keepBegun p c = p := by rw [keepBegun, h]
  have hdrop : dropPending p c = p := by rw [dropPending, h]; rfl
  have hden : { p with den := { p.den with pol := none, released := [] } } = p := by rw [h, ← h]
  rw [disarm, hkeep, hdrop]
  simp only [hden]

theorem stepEnds_of_idle {p : Pkg} (c : Clock) (hl : p.launches = []) (hd : p.den = {}) :
    stepEnds p c = { rsetb p rDenStatus 0 false with ledger := [] } := by
  have hcuts : dropInWindow p c = p := by rw [dropInWindow, hd]; rfl
  rw [stepEnds, hl, List.foldl_nil, hcuts, disarm_of_empty c hd]

/-- The clock after a step, and the package that has ended what a step ends, its ticks moved with the count. -/
def clockStepped (p : Pkg) (c : Clock) (th : Int) : Clock := moveClock (stepEnds (offsetTaken p c th) c) c th
def ticksMoved (p : Pkg) (c : Clock) (th : Int) : Pkg :=
  shiftTicks (stepEnds (offsetTaken p c th) c) (((clockStepped p c th).gsc : Int) - c.gsc)

/-- No step is due any more; EVERSYNC is set. -/
def stepDoneWith (q : Pkg) : Pkg := rsetb { q with time := { q.time with step := false, bad := 0 } } rTimStatus 1 true

theorem rbit_stepDoneWith (q : Pkg) : rbit (stepDoneWith q) rTimStatus 1 = true := rbit_rsetb_self _ _ _ _ (by decide)

section
variable {p : Pkg} (c : Clock) (th : Int)

theorem estimate_of_step (lost : Bool) (h : p.time.step = true) : estimate c p th lost = (clockStepped p c th,
    stepDoneWith ((ticksMoved p c th).placed.foldl (fun q x => unplace q (clockStepped p c th) x) (ticksMoved p c th))) :=
  if_pos h

theorem estimate_of_idle (lost : Bool) (h : p.time.step = true) (hl : p.launches = []) (hp : p.placed = []) (hd : p.den = {}) :
    (estimate c p th lost).1 = moveClock p c th ∧ (estimate c p th lost).2.ledger = [] ∧
      rbit (estimate c p th lost).2 rTimStatus 1 = true ∧ (estimate c p th lost).2.mem = p.mem := by
  have he : stepEnds (offsetTaken p c th) c = { rsetb (offsetTaken p c th) rDenStatus 0 false with ledger := [] } :=
    stepEnds_of_idle c hl hd
  have hplaced : (ticksMoved p c th).placed = [] := by
    rw [ticksMoved, he]
    exact congrArg (List.map _) hp
  have hleft : (estimate c p th lost).2 = stepDoneWith (ticksMoved p c th) := by
    rw [estimate_of_step c th lost h, hplaced, List.foldl_nil]
  have hmoved : (ticksMoved p c th).ledger = [] ∧ (ticksMoved p c th).mem = p.mem := by
    rw [ticksMoved, he]
    exact ⟨rfl, rfl⟩
  rw [hleft]
  refine ⟨?_, hmoved.1, rbit_stepDoneWith _, hmoved.2⟩
  rw [estimate_of_step c th lost h, clockStepped, he]
  rfl

/-! Estimates after the first (R268, R269) -/

/-- Later estimates leave the clock. -/
theorem estimate_fst_of_later (lost : Bool) (h : p.time.step = false) : (estimate c p th lost).1 = c := by
  have hs : ¬(offsetTaken p c th).time.step = true := Bool.eq_false_iff.mp h
  rw [estimate]
  simp only
  split
  case isTrue h' => exact absurd h' hs
  case isFalse =>
    split
    case isTrue => rfl
    case isFalse => split <;> rfl

theorem rbit_offsetTaken : rbit (offsetTaken p c th) rTimStatus 0 = rbit p rTimStatus 0 := by
  calc rbit (offsetTaken p c th) rTimStatus 0 = rbit (rsetb (rset p rTimOffset (wrapInt 32 th)) rTimStatus 2 true) rTimStatus 0 := rfl
    _ = rbit p rTimStatus 0 := by rw [rbit_rsetb_other _ _ _ _ _ (by decide) (by decide), rbit_rset_ne _ _ _ (by decide)]

theorem rget_offsetTaken : rget (offsetTaken p c th) rTimOffset = wrapInt 32 th := by
  have hlt : wrapInt 32 th < 2 ^ 32 := by
    unfold wrapInt
    omega
  calc rget (offsetTaken p c th) rTimOffset = rget (rsetb (rset p rTimOffset (wrapInt 32 th)) rTimStatus 2 true) rTimOffset := rfl
    _ = wrapInt 32 th := by rw [rget_rsetb_ne _ _ _ (by decide), rget_rset_self, Nat.mod_eq_of_lt hlt]

theorem estimate_of_gain (h : p.time.step = false) (hs : rbit p rTimStatus 0 = false) (ht : th.natAbs ≤ 8) :
    estimate c p th false = (c, gainSync (offsetTaken p c th) c) := by
  have hs : (!rbit (offsetTaken p c th) rTimStatus 0) = true := by rw [rbit_offsetTaken, hs]; rfl
  calc estimate c p th false = ite (false = true) (c, _) (ite ((!rbit (offsetTaken p c th) rTimStatus 0) = true)
        (c, if th.natAbs ≤ 8 then gainSync (offsetTaken p c th) c else offsetTaken p c th) _) := if_neg (Bool.eq_false_iff.mp h)
    _ = (c, gainSync (offsetTaken p c th) c) := by rw [if_neg Bool.false_ne_true, if_pos hs, if_pos ht]

/-- Alignment holds, and firmware's lock with it (R286). -/
def synced (p : Pkg) : Pkg := rset (rsetb p rTimStatus 0 true) rTimLock 1

theorem gainSync_shows : rbit (gainSync p c) rTimStatus 0 = true ∧ rget (gainSync p c) rTimOffset = rget p rTimOffset ∧
    (gainSync p c).mem = p.mem := by
  have hs : rbit (synced p) rTimStatus 0 = true := by
    rw [synced, rbit_rset_ne _ _ _ (by decide), rbit_rsetb_self _ _ _ _ (by decide)]
  have ho : rget (synced p) rTimOffset = rget p rTimOffset := by
    rw [synced, rget_rset_ne _ _ (by decide), rget_rsetb_ne _ _ _ (by decide)]
  rw [gainSync]
  simp only
  split
  · refine ⟨?_, ?_, (outward_event _ _ _ _ _ _).mem⟩
    · rw [rbit, rget_event _ _ _ _ _ _ _ (by decide)]
      exact hs
    · rw [rget_event _ _ _ _ _ _ _ (by decide)]
      exact ho
  · exact ⟨hs, ho, rfl⟩

/-- An estimate within 8/16 tick sets SYNC where the parent holds it. -/
theorem estimate_gains (h : p.time.step = false) (hs : rbit p rTimStatus 0 = false) (ht : th.natAbs ≤ 8) :
    rbit (estimate c p th false).2 rTimStatus 0 = true ∧ rget (estimate c p th false).2 rTimOffset = wrapInt 32 th ∧
      (estimate c p th false).2.mem = p.mem := by
  obtain ⟨hsync, hoff, hmem⟩ := gainSync_shows (p := offsetTaken p c th) c
  rw [estimate_of_gain c th h hs ht]
  exact ⟨hsync, hoff.trans (rget_offsetTaken c th), hmem⟩

end

/-- Settles O22: each command by its equation, then what the lemmas above say of the package it leaves. -/
theorem timeFunction : Obligations.TimeFunction := by
  refine ⟨fun s => ⟨?edge, ?takeover, ?reset, fun hr ht => ?timeout⟩,
    ⟨fun s hr hu ht => ?probe, fun s q pkt h => exec_timeProbe h, fun p c a h => ?departs, fun p c a dst op0 lost => stampOut_linkPacket p c⟩,
    fun s q pkt t1 h ht hr hp => ⟨exec_timeReply h ht hr hp, fun hs hl hpl hd => ?first, fun hs => ⟨?later, fun hb hn hth => ?gains⟩⟩⟩
  case edge =>
    refine ⟨_, exec_timeInEdge s, ?_, rget_rset_self _ _ _, fun o hlo hhi => ?_, rfl, rfl⟩
    · rw [rget_rset_ne _ _ (by decide), rget_rset_self, Nat.mod_mod]
    · rw [rget_rset_ne _ _ hhi, rget_rset_ne _ _ hlo]
  case takeover => exact ⟨_, exec_gscManagerTakeover s, rfl, rfl, rfl, rfl, rfl⟩
  case reset =>
    obtain ⟨r, t, he⟩ := resetTim_eq s.pkg s.clk
    refine ⟨_, exec_timeFunctionReset s, rfl, by rw [he], by rw [he], by rw [he], by rw [he], rbit_resetTim_ever _ _, ?_⟩
    cases hr : recInUse s.pkg with
    | none => exact rbit_resetTim_sync_of_none _ hr
    | some x => exact rbit_resetTim_sync_of_some _ hr
  case timeout => exact ⟨exec_exchangeTimeout hr ht, noStamp_loses s.clk⟩
  case probe =>
    obtain ⟨ha, hm⟩ := probing_noReply_keeps s.pkg s.clk
    refine ⟨_, _, exec_timeExchange hr hu ht, rfl, rfl, congrArg (· ++ [_]) ha, rfl, field_linkPacket_ty _ _ _ _ _, rfl, hm⟩
  case departs => rw [stampOut_probe p c h]; exact ⟨rfl, rfl⟩
  case first => exact estimate_of_idle _ _ _ hs hl hpl hd
  case later => exact estimate_fst_of_later _ _ _ hs
  case gains =>
    rw [hb]
    exact estimate_gains _ _ hs hn hth

end Sys2Proof.Machine
end

section
/-! PROOFS. Packets and their headers: each field of the header bytes, the bytes of a packet, and the packet read back (R291, R293, R294): O7. -/

namespace Sys2Proof.Machine

/-! The header bytes (Table 12.4) -/

/-- The field at the front of a record. -/
theorem field_natLe_append (n v : Nat) (b : List Byte) : field (natLe n v ++ b) 0 n = v % 256 ^ n := by
  rw [field_append_left b (by rw [natLe_length, Nat.zero_add]), field_natLe]

/-- A field behind the one at the front of a record. -/
theorem field_natLe_append_later (n v : Nat) (b : List Byte) {off len : Nat} (h : n ≤ off) : field (natLe n v ++ b) off len = field b (off - n) len := by
  have := field_append_right (natLe n v) b (off - n) len
  rwa [natLe_length, Nat.add_sub_cancel' h] at this

/-- A header as its fields hold it: what is beyond a field's width is cut off. -/
def Hdr.cut (h : Hdr) : Hdr :=
  { ty := h.ty % 256, flags := h.flags % 256, len := h.len % 2 ^ 13, seq := h.seq % 2 ^ 32, daddr := h.daddr % 2 ^ 64,
    src := h.src % 2 ^ 18, rctx := h.rctx % 2 ^ 16, sctx := h.sctx % 2 ^ 16, dso := h.dso % 2 ^ 14, nreason := h.nreason % 256,
    aseq := h.aseq % 2 ^ 32, op0 := h.op0 % 2 ^ 64, op1 := h.op1 % 2 ^ 64 }

theorem parseHdr_hdrBytes (h : Hdr) : parseHdr (hdrBytes h) = h.cut := by
  have hlen : h.len % 256 ^ 2 % 2 ^ 13 = h.len % 2 ^ 13 := Nat.mod_mod_of_dvd _ (by decide)
  have hsrc : h.src % 256 ^ 4 % 2 ^ 18 = h.src % 2 ^ 18 := Nat.mod_mod_of_dvd _ (by decide)
  have hdso : h.dso % 256 ^ 2 % 2 ^ 14 = h.dso % 2 ^ 14 := Nat.mod_mod_of_dvd _ (by decide)
  simp only [parseHdr, hdrBytes, List.append_assoc, field_natLe_append_later, field_natLe_append, Nat.reduceLeDiff, Nat.reduceSub, Nat.le_refl,
    Nat.sub_self, hlen, hsrc, hdso]
  rfl

theorem parseHdr_mkPacket (h : Hdr) (payload : List Byte) : parseHdr (mkPacket h payload) = h.cut := by
  rw [← parseHdr_hdrBytes]
  simp only [parseHdr, field_mkPacket h payload, Nat.reduceAdd, Nat.reduceLeDiff]

/-! The bytes of a packet (R291) -/

theorem length_sealedHdr (h : Hdr) (v : Nat) : (hdrBytes h ++ natLe 4 v).length = 64 := by
  rw [List.length_append, hdrBytes_length, natLe_length]

section
variable (h : Hdr) (payload : List Byte)

theorem take_mkPacket_hdrBytes : (mkPacket h payload).take 60 = hdrBytes h := by
  rw [mkPacket, List.append_assoc, List.take_left' (hdrBytes_length h)]

theorem drop_mkPacket_payload : (mkPacket h payload).drop 64 = padFlit payload := by
  rw [mkPacket, List.drop_left' (length_sealedHdr h _)]

theorem field_mkPacket_crc : field (mkPacket h payload) 60 4 = (crc32c (hdrBytes h ++ payload)).toNat := by
  rw [mkPacket, field_append_left _ (length_sealedHdr h _).ge, field_append_natLe 4 _ (hdrBytes_length h)]
  exact Nat.mod_eq_of_lt (crc32c (hdrBytes h ++ payload)).isLt

theorem length_mkPacket_ge : 64 + payload.length ≤ (mkPacket h payload).length := by
  rw [mkPacket, List.length_append, length_sealedHdr, padFlit, List.length_append]
  omega

variable {h payload} (hl : payload.length = h.cut.len)
include hl

theorem payloadOf_mkPacket : payloadOf (mkPacket h payload) = payload := by
  rw [payloadOf, drop_mkPacket_payload, parseHdr_mkPacket, ← hl, padFlit, List.take_left]

theorem packetOk_mkPacket : packetOk (mkPacket h payload) = true := by
  rw [packetOk, payloadOf_mkPacket hl, take_mkPacket_hdrBytes, field_mkPacket_crc, parseHdr_mkPacket, ← hl,
    decide_eq_true (length_mkPacket_ge h payload), beq_self_eq_true, Bool.and_self]

end

theorem flitsOf_mkPacket (h : Hdr) (payload : List Byte) : flitsOf (mkPacket h payload) = 1 + (h.cut.len + 63) / 64 := by
  rw [flitsOf, parseHdr_mkPacket, cdiv]
  rfl

/-- Settles O7: no field of a header that fits is cut, so the packet reads back as it was formed. -/
theorem packetsRoundTrip : Obligations.PacketsRoundTrip := by
  intro h payload hty hfl hlen hseq hda hsrc hrc hsc hdso hnr has h0 h1 hl
  have hc : h.cut = h := by
    simp only [Hdr.cut, Nat.mod_eq_of_lt hty, Nat.mod_eq_of_lt hfl, Nat.mod_eq_of_lt hlen, Nat.mod_eq_of_lt hseq, Nat.mod_eq_of_lt hda,
      Nat.mod_eq_of_lt hsrc, Nat.mod_eq_of_lt hrc, Nat.mod_eq_of_lt hsc, Nat.mod_eq_of_lt hdso, Nat.mod_eq_of_lt hnr, Nat.mod_eq_of_lt has,
      Nat.mod_eq_of_lt h0, Nat.mod_eq_of_lt h1]
  rw [parseHdr_mkPacket, flitsOf_mkPacket, hc]
  rw [← hc] at hl
  exact ⟨rfl, payloadOf_mkPacket hl, packetOk_mkPacket hl, rfl⟩

end Sys2Proof.Machine
end

section
/-! PROOFS. Accesses served for another agent (R288 to R290, Table 12.2): O25. -/

namespace Sys2Proof.Machine

/-! A write in a package without erroneous lines -/

/-- A write stores its bytes and answers nothing; beside memory it changes write combining and the marks of lines alone. -/
theorem writeMem_eq {p : Pkg} (h : p.badLines = []) (c : Clock) (a : Nat) (bs : List Byte) :
    ∃ w b e, writeMem p c a bs = ({ p with mem := mwrite p.mem a bs, wc := w, badLines := b, ceLines := e }, .ok []) := by
  unfold writeMem
  simp only [firstBad_of_noBad h]
  split
  · obtain ⟨w, b, e, hw⟩ := wcBytes_eq p c a bs.length
    obtain ⟨b', e', hst⟩ := storeBytes_eq (wcBytes p c a bs.length) a bs
    rw [hst, hw]
    exact ⟨w, b', e', rfl⟩
  · obtain ⟨b, e, hst⟩ := storeBytes_eq p a bs
    rw [hst]
    exact ⟨p.wc, b, e, rfl⟩

/-! The reach of a plain access (R288) -/

theorem hbm_range {p : Pkg} {a n : Nat} (h : target p a n = some .hbm) : a + n ≤ hbmUserEnd := by
  by_contra hne
  rw [target, if_neg hne] at h
  split_ifs at h <;> simp at h

section
variable {p : Pkg} {a n : Nat}

theorem noBad_of_plain (h : Safety.PlainAccess p a n) : p.badLines = [] := h.2.1

variable (c : Clock)

/-- A plain access reads memory as it stands. -/
theorem readMem_of_plain (h : Safety.PlainAccess p a n) : readMem p c a n = (p, .ok (mread p.mem a n)) := by
  obtain ⟨-, hb, hce, -, -, ht⟩ := h
  refine readMem_of_clean ⟨hb, hce⟩ c ?_
  obtain ht | ⟨t, ht⟩ := ht
  · have := hbm_range ht
    unfold hbmUserEnd at this
    unfold combBase
    omega
  · exact (slice_range ht).2

theorem srvLoad_of_plain (h : Safety.PlainAccess p a n) : srvLoad p c a n = (p, .ok (mread p.mem a n)) := by
  rw [← readMem_of_plain c h]
  obtain ⟨hr, -, -, h0, hn, ht⟩ := h
  rw [srvLoad, hr, if_neg (by decide), if_neg (by omega)]
  obtain ht | ⟨t, ht⟩ := ht <;> rw [ht]

theorem srvStore_of_plain {bs : List Byte} (h : Safety.PlainAccess p a bs.length) : srvStore p c a bs = writeMem p c a bs := by
  obtain ⟨hr, -, -, h0, hn, ht⟩ := h
  rw [srvStore, hr, if_neg (by decide), if_neg (by omega)]
  obtain ht | ⟨t, ht⟩ := ht <;> rw [ht]

/-! Words changed in place (R289) -/

section
variable (h : Safety.PlainAccess p a 8) (ha : a % 8 = 0) {f : Nat → Option Nat}
include h ha

theorem srvWord_of_none (hf : f (mnat p.mem a 8) = none) : srvWord p c a f = (p, .ok (mread p.mem a 8)) := by
  have hread := readMem_of_plain c h
  obtain ⟨hr, -, -, -, -, ht⟩ := h
  rw [mnat] at hf
  rw [srvWord, hr, if_neg (by decide), if_neg (not_not_intro ha)]
  obtain ht | ⟨t, ht⟩ := ht <;> simp only [ht, hread, hf]

theorem srvWord_of_some {v : Nat} (hf : f (mnat p.mem a 8) = some v) :
    srvWord p c a f = ((writeMem p c a (natLe 8 v)).1, .ok (mread p.mem a 8)) := by
  have hread := readMem_of_plain c h
  obtain ⟨hr, -, -, -, -, ht⟩ := h
  rw [mnat] at hf
  rw [srvWord, hr, if_neg (by decide), if_neg (not_not_intro ha)]
  obtain ht | ⟨t, ht⟩ := ht <;> simp only [ht, hread, hf]

end

theorem srvFetchAdd_of_plain (h : Safety.PlainAccess p a 8) (ha : a % 8 = 0) (v : Nat) : srvFetchAdd p c a v =
    ((writeMem p c a (natLe 8 ((mnat p.mem a 8 + v) % 2 ^ 64))).1, .ok (mread p.mem a 8)) :=
  srvWord_of_some c h ha (f := fun o => some ((o + v) % 2 ^ 64)) rfl

theorem srvCas_of_plain (h : Safety.PlainAccess p a 8) (ha : a % 8 = 0) (cmp new : Nat) : srvCas p c a cmp new =
    (if mnat p.mem a 8 = cmp then (writeMem p c a (natLe 8 new)).1 else p, .ok (mread p.mem a 8)) := by
  by_cases hx : mnat p.mem a 8 = cmp
  · rw [if_pos hx]
    exact srvWord_of_some c h ha (f := fun o => if o = cmp then some new else none) (if_pos hx)
  · rw [if_neg hx]
    exact srvWord_of_none c h ha (f := fun o => if o = cmp then some new else none) (if_neg hx)

/-- A binary64 added to the one at an address: the sum is written, rounded to nearest even. -/
theorem srvFloatAdd_of_plain (h : Safety.PlainAccess p a 8) (v : W64) : srvFloatAdd p c .b64 a (natLe 8 v.toNat) =
    writeMem { p with fv := p.fv + 1 } c a (natLe 8 (fAdd .b64 .rne (BitVec.ofNat 64 (mnat p.mem a 8)) v).1.toNat) := by
  have hread := readMem_of_plain c h
  have hv : field (natLe 8 v.toNat) 0 8 = v.toNat := leNat_natLe_toNat (n := 8) v
  have hold : field (mread p.mem a 8) 0 8 = mnat p.mem a 8 := field_mread p.mem a (Nat.le_refl 8)
  obtain ⟨hr, -, -, -, -, ht⟩ := h
  rw [srvFloatAdd, hr, if_neg (by decide), natLe_length, if_neg (by decide)]
  obtain ht | ⟨t, ht⟩ := ht <;>
    simp only [ht, hread, hold, hv, Fmt.width, Nat.reduceDiv, List.range_one, List.flatMap_cons, List.flatMap_nil, List.append_nil, Nat.mul_zero,
      Nat.mul_one, Nat.sub_self, List.range_zero, List.map_nil, BitVec.ofNat_toNat, BitVec.setWidth_eq]

/-! Refusals (Table 12.6) -/

theorem srvStore_retired (bs : List Byte) (h : retired p = true) : srvStore p c a bs = (p, .error nakRetired) := by
  rw [srvStore, h, if_pos rfl]

theorem srvStore_beyond {bs : List Byte} (hr : retired p = false) (h0 : 0 < bs.length) (hn : bs.length ≤ 4096) (ht : target p a bs.length = none) :
    srvStore p c a bs = (p, .error nakRange) := by
  rw [srvStore, hr, if_neg (by decide), if_neg (by omega), ht]

end

/-- Settles O25: each access reads as `readMem_of_plain` says and writes as `writeMem_eq` says, or is refused before it does. -/
theorem servedAccesses : Obligations.ServedAccesses := by
  intro p c a
  have written (q : Pkg) (bs : List Byte) (h : q.badLines = []) : (writeMem q c a bs).1.mem = mwrite q.mem a bs :=
    (writeMem_mem q c a bs (firstBad_of_noBad h _)).1
  refine ⟨fun n h => srvLoad_of_plain c h, fun bs h => ?store, fun v h ha => ?fetchAdd, fun x y h ha => ?cas, fun v h => ?floatAdd,
    fun bs => srvStore_retired c bs, fun bs => srvStore_beyond c⟩
  case store =>
    obtain ⟨w, b, e, hw⟩ := writeMem_eq (noBad_of_plain h) c a bs
    rw [srvStore_of_plain c h, hw]
    exact ⟨rfl, rfl, rfl, fun b hb => mget_mwrite_outside bs p.mem a b hb⟩
  case fetchAdd =>
    rw [srvFetchAdd_of_plain c h ha]
    exact ⟨written p _ (noBad_of_plain h), rfl⟩
  case cas =>
    rw [srvCas_of_plain c h ha, apply_ite Pkg.mem, written p _ (noBad_of_plain h)]
    exact ⟨rfl, rfl⟩
  case floatAdd =>
    rw [srvFloatAdd_of_plain c h]
    exact written { p with fv := p.fv + 1 } _ (noBad_of_plain h)

end Sys2Proof.Machine
end

section
/-! PROOFS. Request packets: what sequence numbers decide (R295, R299), and when an access waits, is applied or is refused (R293, R296): O26. -/

namespace Sys2Proof.Machine

/-! Sequence numbers (R295) -/

section
variable {p : Pkg} {h : Hdr}

theorem not_duplicate_of_fresh (hf : Safety.Fresh p h) : ¬(2 ^ 31 ≤ seqAhead (ctx p h.rctx) h.seq ∨
    (seqAhead (ctx p h.rctx) h.seq < 256 ∧ (ctx p h.rctx).rxmap.getLsbD (seqAhead (ctx p h.rctx) h.seq) = true)) := by
  obtain ⟨hw, hm⟩ := hf
  rintro (hd | ⟨-, hd⟩)
  · omega
  · rw [hm] at hd
    exact absurd hd (by decide)

theorem not_beyond_of_fresh (hf : Safety.Fresh p h) : ¬256 ≤ seqAhead (ctx p h.rctx) h.seq := by
  obtain ⟨hw, -⟩ := hf
  exact not_le.mpr hw

theorem inWindow_of_fresh (hf : Safety.Fresh p h) : inWindow p h = true := by
  obtain ⟨hw, hm⟩ := hf
  simp only [inWindow, decide_eq_true hw, hm, Bool.not_false, Bool.and_self]

theorem inWindow_of_duplicate (hd : Safety.Duplicate p h) : inWindow p h = false := by
  obtain hd | ⟨-, hd⟩ := hd
  · simp only [inWindow, decide_eq_false (show ¬ seqAhead (ctx p h.rctx) h.seq < 256 by omega), Bool.false_and]
  · simp only [inWindow, hd, Bool.not_true, Bool.and_false]

theorem inWindow_of_beyond (hb : 256 ≤ seqAhead (ctx p h.rctx) h.seq) : inWindow p h = false := by
  simp only [inWindow, decide_eq_false (not_lt.mpr hb), Bool.false_and]

variable (c : Clock) {apply : Pkg → Served}

section
variable (hf : Safety.Fresh p h)
include hf

/-- A fresh number's packet that needs no response is applied and acknowledged. -/
theorem sequenced_acked {p' : Pkg} {d : List Byte} (ha : apply p = (p', .ok d)) :
    sequenced p c h none apply = sendAck (Safety.took p p' c h) c h := by
  rw [sequenced, if_neg (not_duplicate_of_fresh hf), if_neg (not_beyond_of_fresh hf), if_neg nofun, ha, Safety.took]

/-- A fresh number's packet that needs a response is applied and answered, when the response store has room. -/
theorem sequenced_answered (hroom : p.resps.length < 4096) {p' : Pkg} {d : List Byte} (ha : apply p = (p', .ok d)) (r : Nat) :
    sequenced p c h (some r) apply = sendResp (Safety.took p p' c h) h r d := by
  have hfull : ¬((some r).isSome && decide (4096 ≤ p.resps.length)) = true := by simpa using hroom
  rw [sequenced, if_neg (not_duplicate_of_fresh hf), if_neg (not_beyond_of_fresh hf), if_neg hfull, ha, Safety.took]

theorem sequenced_refused {p' : Pkg} {e : Nat} (ha : apply p = (p', .error e)) : sequenced p c h none apply = sendNak p' c h e := by
  rw [sequenced, if_neg (not_duplicate_of_fresh hf), if_neg (not_beyond_of_fresh hf), if_neg nofun, ha]

end

theorem sequenced_duplicate (hd : Safety.Duplicate p h) : sequenced p c h none apply = sendAck (bump p rFabDups) c h := if_pos hd

theorem sequenced_beyond (hb : 256 ≤ seqAhead (ctx p h.rctx) h.seq) (hh : seqAhead (ctx p h.rctx) h.seq < 2 ^ 31) (resp : Option Nat) :
    sequenced p c h resp apply = sendNak p c h 1 := by
  rw [sequenced, if_neg (by omega), if_pos hb]

end

/-! Arrival (R291, R293) -/

/-- A packet that fails its check, or is poisoned, is counted after the owl has sampled it. -/
theorem arrive_of_damaged {p : Pkg} {q : Nat} {pkt : List Byte} {poison : Bool} (c : Clock) (hc : carries p q (parseHdr pkt).ty = true)
    (hp : placeOf (parseHdr pkt).daddr = ownPlace p) (hd : poison = true ∨ packetOk pkt = false) :
    arrive p c q pkt poison [(parseHdr pkt).ty] = (bump (Safety.heard p c q pkt) rFabCrcdrop, none) := by
  have hbad : (poison || !packetOk pkt) = true := by
    obtain h | h := hd <;> simp [h]
  simp only [arrive, hc, hp, hbad, List.contains_cons, beq_self_eq_true, Bool.true_or, bne_self_eq_false, Bool.not_true, Bool.or_self,
    Bool.false_eq_true, if_false, if_true]
  rfl

/-! Requests (R295, R296, R299) -/

/-- What a request does that has arrived whole. -/
def requestTaken (p : Pkg) (c : Clock) (h : Hdr) (cmd : Instr) (pkt : List Byte) (ty : Nat) (resp : Option Nat) (serve : Clock → Hdr → Pkg → Served) :
    Pkg :=
  if underWay p h then p
  else if resp.isSome && inWindow p h && decide (4096 ≤ respsHeld p) then sendNak p c h 2
  else match (if inWindow p h then hbmAsks p ty (localOf h.daddr) h.op0 h.op1 (payloadOf pkt) else none) with
    | some rs => openGate p (if bit h.flags 0 then 5 else 0) cmd rs
    | none => sequenced p c h resp (serve c h)

section
variable {s : State} {q : Fin 128} {pkt : List Byte} {cmd : Instr} {ty : Nat} {resp : Option Nat} {serve : Clock → Hdr → Pkg → Served}

theorem request_damaged {poison : Bool} (hty : (parseHdr pkt).ty = ty) (hc : carries s.pkg q (parseHdr pkt).ty = true)
    (hp : placeOf (parseHdr pkt).daddr = ownPlace s.pkg) (hd : poison = true ∨ packetOk pkt = false) :
    request s cmd q pkt poison ty resp serve = .next (Safety.withPkg s (bump (Safety.heard s.pkg s.clk q pkt) rFabCrcdrop)) := by
  subst hty
  rw [request, run_eq, arrive_of_damaged s.clk hc hp hd]

theorem request_of_arrive {p : Pkg} {h : Hdr} (ha : arrive s.pkg s.clk q pkt false [ty] = (p, some h)) :
    request s cmd q pkt false ty resp serve = .next (Safety.withPkg s (requestTaken p s.clk h cmd pkt ty resp serve)) := by
  rw [request, run_eq, ha]
  rfl

end

section
variable {p : Pkg} {h : Hdr} (c : Clock) {cmd : Instr} {pkt : List Byte} {ty : Nat} {resp : Option Nat} {serve : Clock → Hdr → Pkg → Served}

theorem not_full_of_new (hn : Safety.New p h resp.isSome) : ¬(resp.isSome && inWindow p h && decide (4096 ≤ respsHeld p)) = true := by
  obtain ⟨-, -, hroom⟩ := hn
  intro hfull
  simp only [Bool.and_eq_true, decide_eq_true_eq] at hfull
  obtain ⟨⟨hs, -⟩, hr⟩ := hfull
  exact absurd (hroom hs) (not_lt.mpr hr)

section
variable (hu : underWay p h = false)
include hu

/-- A request outside the window goes to its sequence number's rule at once. -/
theorem requestTaken_outside (hw : inWindow p h = false) : requestTaken p c h cmd pkt ty none serve = sequenced p c h none (serve c h) := by
  rw [requestTaken, hu, hw, if_neg nofun, if_neg nofun, if_neg nofun]

/-- A new request without room in the response store (R299). -/
theorem requestTaken_full (hf : Safety.Fresh p h) (hr : 4096 ≤ respsHeld p) (r : Nat) :
    requestTaken p c h cmd pkt ty (some r) serve = sendNak p c h 2 := by
  have hfull : ((some r).isSome && true && decide (4096 ≤ respsHeld p)) = true := by simpa using hr
  rw [requestTaken, hu, inWindow_of_fresh hf, if_neg nofun, if_pos hfull]

end

/-- What a new request asks of HBM is queued. -/
theorem requestTaken_queued (hn : Safety.New p h resp.isSome) {rs : Who → List HbmReq}
    (ho : hbmAsks p ty (localOf h.daddr) h.op0 h.op1 (payloadOf pkt) = some rs) :
    requestTaken p c h cmd pkt ty resp serve = openGate p (if bit h.flags 0 then 5 else 0) cmd rs := by
  have hfull := not_full_of_new hn
  obtain ⟨hf, hu, -⟩ := hn
  rw [requestTaken, if_neg (Bool.eq_false_iff.mp hu), if_neg hfull, if_pos (inWindow_of_fresh hf), ho]

variable (ho : hbmAsks p ty (localOf h.daddr) h.op0 h.op1 (payloadOf pkt) = none)
include ho

/-- A new request that asks nothing of HBM is applied now. -/
theorem requestTaken_applied (hn : Safety.New p h resp.isSome) :
    requestTaken p c h cmd pkt ty resp serve = sequenced p c h resp (serve c h) := by
  have hfull := not_full_of_new hn
  obtain ⟨hf, hu, -⟩ := hn
  rw [requestTaken, if_neg (Bool.eq_false_iff.mp hu), if_neg hfull, if_pos (inWindow_of_fresh hf), ho]

variable {p' : Pkg}

theorem requestTaken_acked (hn : Safety.New p h false) {d : List Byte} (hs : serve c h p = (p', .ok d)) :
    requestTaken p c h cmd pkt ty none serve = sendAck (Safety.took p p' c h) c h := by
  rw [requestTaken_applied (resp := none) c ho hn]
  obtain ⟨hf, -, -⟩ := hn
  exact sequenced_acked c hf hs

theorem requestTaken_answered (hn : Safety.New p h true) {d : List Byte} (hs : serve c h p = (p', .ok d)) (r : Nat) :
    requestTaken p c h cmd pkt ty (some r) serve = sendResp (Safety.took p p' c h) h r d := by
  rw [requestTaken_applied (resp := some r) c ho hn]
  obtain ⟨hf, -, hroom⟩ := hn
  exact sequenced_answered c hf ((Nat.le_add_right _ _).trans_lt (hroom rfl)) hs r

theorem requestTaken_refused (hu : underWay p h = false) (hf : Safety.Fresh p h) {e : Nat} (hs : serve c h p = (p', .error e)) :
    requestTaken p c h cmd pkt ty none serve = sendNak p' c h e := by
  rw [requestTaken_applied (resp := none) c ho ⟨hf, hu, nofun⟩]
  exact sequenced_refused c hf hs

end

/-! The request commands (Table 12.5) -/

section
variable (s : State) (q : Fin 128) (pkt : List Byte) (poison : Bool)

theorem exec_store : exec (.store q pkt poison) s = request s (.store q pkt poison) q pkt poison 0x01 none
    (fun c h p => fabStore p c (localOf h.daddr) (payloadOf pkt)) := by rfl

theorem exec_loadReq : exec (.loadReq q pkt poison) s = request s (.loadReq q pkt poison) q pkt poison 0x02 (some 0x03)
    (fun c h p => fabLoad p c (localOf h.daddr) (h.op0 % 2 ^ 13)) := by rfl

theorem exec_fetchAdd : exec (.fetchAdd q pkt poison) s = request s (.fetchAdd q pkt poison) q pkt poison 0x04 (some 0x08)
    (fun c h p => srvFetchAdd p c (localOf h.daddr) h.op0) := by rfl

theorem exec_cas : exec (.cas q pkt poison) s = request s (.cas q pkt poison) q pkt poison 0x05 (some 0x08)
    (fun c h p => srvCas p c (localOf h.daddr) h.op0 h.op1) := by rfl

theorem exec_fadd64 : exec (.fadd64 q pkt poison) s = request s (.fadd64 q pkt poison) q pkt poison 0x06 none
    (fun c h p => srvFloatAdd p c .b64 (localOf h.daddr) (payloadOf pkt)) := by rfl

theorem exec_fadd32 : exec (.fadd32 q pkt poison) s = request s (.fadd32 q pkt poison) q pkt poison 0x07 none
    (fun c h p => srvFloatAdd p c .b32 (localOf h.daddr) (payloadOf pkt)) := by rfl

theorem exec_postedAdd : exec (.postedAdd q pkt poison) s = request s (.postedAdd q pkt poison) q pkt poison 0x09 none
    (fun c h p => srvFetchAdd p c (localOf h.daddr) h.op0) := by rfl

end

/-! Packets that are not requests (R291, R330) -/

theorem exec_mgmt_acked {s : State} {q : Fin 128} {pkt : List Byte} {p : Pkg} {h : Hdr}
    (ha : arrive s.pkg s.clk q pkt false [0x34] = (p, some h)) (hf : Safety.Fresh p h) : exec (.mgmt q pkt false) s =
      .next (Safety.withPkg s (sendAck (Safety.took p (Safety.withMgmt p (h.src, payloadOf pkt)) s.clk h) s.clk h)) := by
  rw [show exec (.mgmt q pkt false) s = execMgmt q pkt false s from rfl, execMgmt, run_eq, ha]
  exact congrArg (Host.Outcome.next <| Safety.withPkg s ·) (sequenced_acked s.clk hf rfl)

theorem exec_packetReservedType {s : State} {q : Fin 128} {pkt : List Byte} (poison : Bool) (hc : carries s.pkg q (parseHdr pkt).ty = true)
    (hp : placeOf (parseHdr pkt).daddr = ownPlace s.pkg) (hl : listedType (parseHdr pkt).ty = false) :
    exec (.packetReservedType q pkt poison) s = .next (Safety.withPkg s (bump (Safety.heard s.pkg s.clk q pkt) rFabCrcdrop)) := by
  rw [show exec (.packetReservedType q pkt poison) s = execPacketReservedType q pkt poison s from rfl, execPacketReservedType, run_eq]
  simp only [hl, hc, hp, bne_self_eq_false, Bool.not_true, Bool.or_self, Bool.false_eq_true, if_false]
  by_cases hd : poison = true ∨ packetOk pkt = false
  · rw [arrive_of_damaged s.clk hc hp hd]
  · obtain ⟨hpoison, hok⟩ := not_or.mp hd
    rw [Bool.eq_false_of_not_eq_true hpoison, arrive_of_arrives s.clk ⟨rfl, hc, hp, Bool.eq_true_of_not_eq_false hok⟩]
    rfl

/-- Settles O26: a new request is queued or applied, and the window, the check and the response store turn the others away. -/
theorem packetsApplied : Obligations.PacketsApplied := by
  constructor
  · intro s q pkt p h a now acked answered queued
    have acks {i : Instr} {ty : Nat} {serve : Clock → Hdr → Pkg → Served} (he : exec i s = request s i q pkt false ty none serve) :
        now ty false → acked i (serve s.clk h p) := fun ⟨ha, hn, ho⟩ p' d hs => by
      rw [he, request_of_arrive (arrive_of_arrives s.clk ha), requestTaken_acked s.clk ho hn hs]
    have answers {i : Instr} {ty r : Nat} {serve : Clock → Hdr → Pkg → Served} (he : exec i s = request s i q pkt false ty (some r) serve) :
        now ty true → answered i r (serve s.clk h p) := fun ⟨ha, hn, ho⟩ p' d hs => by
      rw [he, request_of_arrive (arrive_of_arrives s.clk ha), requestTaken_answered s.clk ho hn hs]
    have queues {i : Instr} {ty : Nat} {resp : Option Nat} {serve : Clock → Hdr → Pkg → Served}
        (he : exec i s = request s i q pkt false ty resp serve) : queued i ty resp.isSome := fun rs ha hn ho => by
      rw [he, request_of_arrive (arrive_of_arrives s.clk ha), requestTaken_queued s.clk hn ho]
    exact ⟨acks (exec_store s q pkt false), queues (exec_store s q pkt false), acks (exec_fadd64 s q pkt false), queues (exec_fadd64 s q pkt false),
      acks (exec_fadd32 s q pkt false), queues (exec_fadd32 s q pkt false), acks (exec_postedAdd s q pkt false),
      queues (exec_postedAdd s q pkt false), fun ha hf p' d hs => by cases hs; exact exec_mgmt_acked (arrive_of_arrives s.clk ha) hf,
      answers (exec_loadReq s q pkt false), queues (exec_loadReq s q pkt false), answers (exec_fetchAdd s q pkt false),
      queues (exec_fetchAdd s q pkt false), answers (exec_cas s q pkt false), queues (exec_cas s q pkt false)⟩
  · intro s q pkt poison hc hp p h
    have whole {ty : Nat} (hty : h.ty = ty) (hk : packetOk pkt = true) : arrive s.pkg s.clk q pkt false [ty] = (p, some h) :=
      arrive_of_arrives s.clk ⟨hty, hty ▸ hc, hp, hk⟩
    refine ⟨fun hty hd => ?damaged, fun hty hk hu => ⟨fun hd => ?duplicate, fun hb hh => ?beyond, fun hf ho p' e hs => ?refused⟩,
      fun hty hk hu hf hr => ?full, fun hl => exec_packetReservedType poison hc hp hl⟩
    case damaged => rw [exec_store, request_damaged hty hc hp hd]
    case duplicate =>
      rw [exec_store, request_of_arrive (whole hty hk), requestTaken_outside s.clk hu (inWindow_of_duplicate hd), sequenced_duplicate s.clk hd]
    case beyond =>
      rw [exec_store, request_of_arrive (whole hty hk), requestTaken_outside s.clk hu (inWindow_of_beyond hb), sequenced_beyond s.clk hb hh]
    case refused => rw [exec_store, request_of_arrive (whole hty hk), requestTaken_refused s.clk ho hu hf hs]
    case full => rw [exec_loadReq, request_of_arrive (whole hty hk), requestTaken_full s.clk hu hf hr]

end Sys2Proof.Machine
end

section
/-! PROOFS. Scheduled slots: a launch's own entries and those of packets in transit (R298, R301, R302, R320 to R322): O29. -/

namespace Sys2Proof.Machine

/-! The slot of a port -/

/-- The entries of a plan's traffic section for one slot of a port, each with its number among the transit entries of its incoming port. -/
def slotEntries (p : Pkg) (plan frame slot q : Nat) : List (Slot × Nat) :=
  (numbered (planSlots p plan)).filter (fun e => e.1.frame == frame && e.1.slot == slot && e.1.port == q)

/-- One entry of a slot is carried out. -/
def carryEntry (c : Clock) (l : Launch) (start : Nat) (p : Pkg) (e : Slot × Nat) : Pkg :=
  if e.1.ukind = 4 then transitEntry p c e.2 e.1 else ownEntry p c l start e.1

/-- Within a running launch, a slot that has begun, has not been run and has an entry of the kind runs its entries in order. -/
theorem runSlot_carries {p : Pkg} {c : Clock} {l : Launch} {frame slot q : Nat} {kind : Slot → Bool} (hr : l.running = true)
    (hc : l.closed = false) (hs : l.L + 4096 * frame + 16 * slot ≤ c.gsc) (hran : (sget p.ports q {}).ran ≤ l.L + 4096 * frame + 16 * slot)
    (hk : (slotEntries p l.plan frame slot q).any (fun e => kind e.1) = true) :
    runSlot p c l frame slot q kind = sendAnswers ((slotEntries p l.plan frame slot q).foldl
      (carryEntry c l (l.L + 4096 * frame + 16 * slot)) (takeSlot p q (l.L + 4096 * frame + 16 * slot))) c q := by
  have hne : (slotEntries p l.plan frame slot q).isEmpty = false := by
    rw [List.isEmpty_eq_false_iff]
    rintro he
    rw [he] at hk
    exact absurd hk nofun
  unfold slotEntries at *
  unfold runSlot
  simp only [hr, hc, hk, hne, decide_eq_false (not_lt.mpr hs), decide_eq_false (not_lt.mpr hran), Bool.not_true, Bool.or_self, Bool.and_false,
    Bool.false_eq_true, if_false]
  rfl

section
variable {s : State} {l : Nat} {y : Launch} (hy : findLaunch s.pkg l = some y) (frame : Nat) (slot : Fin 256) (q : Fin 128)
include hy

theorem exec_scheduledSlot : exec (.scheduledSlot l frame slot q) s =
    .next (Safety.withPkg s (runSlot s.pkg s.clk y frame slot q (fun e => e.ukind != 4))) := by
  rw [show exec (.scheduledSlot l frame slot q) s = execScheduledSlot l frame slot q s from rfl, execScheduledSlot, run_eq, hy]

theorem exec_transitSlot : exec (.transitSlot l frame slot q) s =
    .next (Safety.withPkg s (runSlot s.pkg s.clk y frame slot q (fun e => e.ukind == 4))) := by
  rw [show exec (.transitSlot l frame slot q) s = execTransitSlot l frame slot q s from rfl, execTransitSlot, run_eq, hy]

end

/-! The launch's own entries (R298, R302) -/

section
variable {p : Pkg} {l : Launch} {e : Slot} (c : Clock) (start : Nat)

theorem ownEntry_sends {o : OutPkt} (ho : heldPkt p e.cx (slotSeq l e) = some o) (hs : o.sent = none) (hr : o.ready = true)
    (hn : sentCount p < 2048) (hx : sentOn p e.cx < 256) (hfit : slotFits p e.port (flitsOf o.bytes) = true)
    (hd : e.ukind = 0 → destFull (tile p e.unit) (placeOf (parseHdr o.bytes).daddr) = false) :
    ownEntry p c l start e =
      sendHeld (slotUse (modHeld p o.ctx o.seq (fun x => Safety.limits x e)) e.port (flitsOf o.bytes)) c e.port start o false := by
  have hdest : (e.ukind == 0 && destFull (tile p e.unit) (placeOf (parseHdr o.bytes).daddr)) = false := by
    by_cases hk : e.ukind = 0
    · rw [hd hk, Bool.and_false]
    · rw [beq_false_of_ne hk, Bool.false_and]
  unfold ownEntry
  simp only [ho, hs, hr, hfit, hdest, decide_eq_false (not_le.mpr hn), decide_eq_false (not_le.mpr hx), Option.isSome_none, Bool.not_true,
    Bool.or_self, Bool.false_eq_true, if_false]
  rfl

theorem ownEntry_unformed (h : heldPkt p e.cx (slotSeq l e) = none) : ownEntry p c l start e = trafficFault p c l e := by
  rw [ownEntry, h]

theorem ownEntry_unready {o : OutPkt} (ho : heldPkt p e.cx (slotSeq l e) = some o) (hs : o.sent = none) (hr : o.ready = false) :
    ownEntry p c l start e = trafficFault p c l e := by
  unfold ownEntry
  simp only [ho, hs, hr, Option.isSome_none, Bool.not_false, Bool.true_or, Bool.false_eq_true, if_false, if_true]

end

/-! Entries of packets in transit (R320 to R322) -/

section
variable {p : Pkg} {n : Nat} {e : Slot} (c : Clock)

theorem transitEntry_missing (h : (sget p.ports e.unit {}).transit[n]? = none) : transitEntry p c n e = bump p rFabTransitmiss := by
  rw [transitEntry, h]

variable {w : Wire} (hw : (sget p.ports e.unit {}).transit[n]? = some w)
include hw

theorem transitEntry_dropped (hh : 5 ≤ w.hops) : transitEntry p c n e = bump p rFabHopdrop := by
  rw [transitEntry, hw]
  exact if_pos (by omega)

theorem transitEntry_leaves (hh : w.hops < 5) (hfit : slotFits p e.port (flitsOf w.bytes) = true) (hup : portUp p e.port = true) :
    transitEntry p c n e = transmit (slotUse p e.port (flitsOf w.bytes)) c e.port w.bytes (w.hops + 1) w.poison := by
  have hup' : portUp (slotUse p e.port (flitsOf w.bytes)) e.port = true := hup
  unfold transitEntry
  simp only [hw, hfit, hup', if_neg (show ¬ 5 < w.hops + 1 by omega), Bool.not_true, Bool.false_eq_true, if_false, if_true]

end

/-- Settles O29: both commands run the slot, and an entry leaves, faults or misses as the lemmas above say. -/
theorem slotsRun : Obligations.SlotsRun := by
  refine ⟨?slot, fun p c l start e o => ownEntry_sends c start, fun p c l start e h => ?stops, fun p c n e => transitEntry_missing c,
    fun p c n e w hw => ⟨transitEntry_dropped c hw, transitEntry_leaves c hw⟩⟩
  case slot =>
    intro s l frame slot q y transit hy hr hc hs hran start mine hk
    cases transit with
    | false =>
      have hown : (slotEntries s.pkg y.plan frame slot q).any (fun e => e.1.ukind != 4) = true := by
        simp only [beq_false] at hk
        exact hk
      exact (exec_scheduledSlot hy frame slot q).trans (by rw [runSlot_carries hr hc hs hran hown]; rfl)
    | true =>
      have htransit : (slotEntries s.pkg y.plan frame slot q).any (fun e => e.1.ukind == 4) = true := by
        simp only [beq_true] at hk
        exact hk
      exact (exec_transitSlot hy frame slot q).trans (by rw [runSlot_carries hr hc hs hran htransit]; rfl)
  case stops =>
    obtain h | ⟨o, ho, hs, hr⟩ := h
    · exact ownEntry_unformed c start h
    · exact ownEntry_unready c start ho hs hr

end Sys2Proof.Machine
end

section
/-! PROOFS. The acquire in flight (R308): O48. -/

namespace Sys2Proof.Machine

/-! Counts in memory (R304, R308) -/

theorem mnat_addWord {p : Pkg} (hm : memWf p.mem = true) (a v : Nat) : mnat (addWord p a v).mem a 8 = (mnat p.mem a 8 + v) % 2 ^ 64 := by
  rw [addWord, mnat_mwrite_natLe hm, Nat.mod_mod]

theorem mget_addWord_outside (p : Pkg) {a b : Nat} (v : Nat) (h : b < a ∨ a + 8 ≤ b) : mget (addWord p a v).mem b = mget p.mem b :=
  mget_mwrite_outside _ _ _ _ (by rwa [natLe_length])

/-! The acquire -/

/-- The package after an acquire has been satisfied: THRESH has taken STEP, and the instruction's work is finished. -/
def acquired (p : Pkg) (t n i : Nat) : Pkg :=
  modInfl (addWord p (syncBase i + 8) (mnat p.mem (syncBase i + 16) 8)) t n (fun g => { g with fin := true })

section
variable {s : State} {t : Fin 128} {n i : Nat} {f : InFl} (hf : findInfl s.pkg t n = some f)
include hf

theorem exec_syncAcquireDone (hw : f.wait = .acquire i) (hfin : f.fin = false) (hfail : f.failed = false) : exec (.syncAcquireDone t n) s =
    .next (Safety.withPkg s (if sext 64 (mnat s.pkg.mem (syncBase i) 8) < sext 64 (mnat s.pkg.mem (syncBase i + 8) 8) then s.pkg else acquired s.pkg t n i)) := by
  rw [show exec (.syncAcquireDone t n) s = execSyncAcquireDone t n s from rfl, execSyncAcquireDone, run_eq]
  simp only [hf, hw, hfin, hfail, Bool.false_eq_true, false_or]
  rfl

theorem findInfl_acquired : findInfl (acquired s.pkg t n i) t n = some { f with fin := true } := by
  have hadd : findInfl (addWord s.pkg (syncBase i + 8) (mnat s.pkg.mem (syncBase i + 16) 8)) t n = some f := hf
  rw [acquired, findInfl_modInfl _ _ _ (g := fun g => { g with fin := true }) (fun _ => rfl), hadd, Option.map_some, if_pos ⟨rfl, rfl⟩]

end

/-- Settles O48: below its threshold the acquire waits on; at it the one word THRESH and the one record change. -/
theorem acquireIsSatisfied : Obligations.AcquireIsSatisfied := by
  intro s t n i f hm hf hw hfin hfail
  rw [exec_syncAcquireDone hf hw hfin hfail]
  refine ⟨fun hc => ?reached, fun hc => ?below⟩
  case reached =>
    rw [if_neg (not_lt.mpr hc)]
    exact ⟨_, rfl, findInfl_acquired hf, mnat_addWord hm _ _, fun a ha => mget_addWord_outside s.pkg _ ha, rfl⟩
  case below => rw [if_pos hc]

end Sys2Proof.Machine
end

section
/-! PROOFS. Port states: failure, training, the spare port, connectors (Table 13.9, R326, R332, R334, R478): O23. -/

namespace Sys2Proof.Machine

/-! Registers of the ports -/

theorem rFabPstate_inj {r q : Nat} : rFabPstate r = rFabPstate q ↔ r = q := by
  unfold rFabPstate
  omega

/-- The registers that a change of a port's state may alter beside the port's own. -/
def countReg (o : Nat) : Bool := eventReg o || o == rFabStatus || o == rHltProto

/-- `FAB.STATUS` is the only register of the fabric's block among them. -/
theorem countReg_of_fabric {o : Nat} (hlo : rFabStatus < o) (hhi : o < 0x700000) : countReg o = false := by
  simp only [countReg, eventReg, logReg, Bool.or_eq_false_iff, beq_eq_false_iff_ne, Bool.and_eq_false_iff, decide_eq_false_iff_not]
  unfold rHltLoglost rHltLoghead rHltLog rHifEvdrop rCq rFabStatus rHltProto at *
  omega

theorem countReg_rFabPstate {r : Nat} (h : r < 128) : countReg (rFabPstate r) = false :=
  countReg_of_fabric (by unfold rFabPstate rFabStatus; omega) (by unfold rFabPstate; omega)

theorem countReg_rFabPpeer {r : Nat} (h : r < 128) : countReg (rFabPpeer r) = false :=
  countReg_of_fabric (by unfold rFabPpeer rFabStatus; omega) (by unfold rFabPpeer; omega)

theorem countReg_rFabFdstat {d : Nat} (h : d < 4) : countReg (rFabFdstat d) = false :=
  countReg_of_fabric (by unfold rFabFdstat rFabStatus; omega) (by unfold rFabFdstat; omega)

theorem eventReg_of_countReg {o : Nat} (h : countReg o = false) : eventReg o = false := by
  simp only [countReg, Bool.or_eq_false_iff] at h
  exact h.1.1

/-! A port takes a state (Table 13.9) -/

theorem outward_setPort (p : Pkg) (c : Clock) (q st : Nat) : Outward p (setPort p c q st) :=
  Outward.ite _ (Outward.refl p)
    ((((outward_rset _ _ _).trans (outward_rset _ _ _)).trans (outward_rset _ _ _)).trans (outward_event _ _ _ _ _ _))

theorem rget_countPorts (p : Pkg) {o : Nat} (h : countReg o = false) : rget (countPorts p) o = rget p o := by
  simp only [countReg, Bool.or_eq_false_iff, beq_eq_false_iff_ne] at h
  obtain ⟨⟨-, hs⟩, hp⟩ := h
  rw [countPorts, rget_rsetf_ne _ _ _ _ hp, rget_rsetf_ne _ _ _ _ hs]

theorem rget_setPort_ne (p : Pkg) (c : Clock) {q o : Nat} (st : Nat) (h : countReg o = false) (hq : o ≠ rFabPstate q) :
    rget (setPort p c q st) o = rget p o := by
  rw [setPort]
  split
  · rfl
  · rw [rget_event _ _ _ _ _ _ _ (eventReg_of_countReg h), rget_countPorts _ h, rget_rsetf_ne _ _ _ _ hq]

theorem rfld_setPort_self (p : Pkg) (c : Clock) {q st : Nat} (hq : q < 128) (hs : st < 8) :
    rfld (setPort p c q st) (rFabPstate q) 2 0 = st := by
  rw [setPort]
  split
  case isTrue h => exact h
  case isFalse =>
    have hk := countReg_rFabPstate hq
    rw [rfld, rget_event _ _ _ _ _ _ _ (eventReg_of_countReg hk), rget_countPorts _ hk, ← rfld,
      rfld_rsetf_self _ _ _ _ _ (by decide) (by decide)]
    exact Nat.mod_eq_of_lt hs

/-- The state of every port after one has taken a state. -/
theorem rfld_setPort (p : Pkg) (c : Clock) {q r st : Nat} (hq : q < 128) (hr : r < 128) (hs : st < 8) :
    rfld (setPort p c q st) (rFabPstate r) 2 0 = if r = q then st else rfld p (rFabPstate r) 2 0 := by
  split
  case isTrue h =>
    subst h
    exact rfld_setPort_self p c hr hs
  case isFalse h => rw [rfld, rget_setPort_ne p c st (countReg_rFabPstate hr) (mt rFabPstate_inj.mp h), rfld]

/-! A port fails (R326) -/

theorem rget_failPort_ne (p : Pkg) (c : Clock) {q o : Nat} (h : countReg o = false) (hq : o ≠ rFabPstate q) :
    rget (failPort p c q) o = rget p o := by
  rw [failPort, rget_setPort_ne _ _ _ h hq]
  exact rget_congr o rfl

theorem rfld_failPort (p : Pkg) (c : Clock) {q r : Nat} (hq : q < 128) (hr : r < 128) :
    rfld (failPort p c q) (rFabPstate r) 2 0 = if r = q then 3 else rfld p (rFabPstate r) 2 0 :=
  rfld_setPort _ c hq hr (by decide)

theorem failPort_mem (p : Pkg) (c : Clock) (q : Nat) : (failPort p c q).mem = p.mem := (outward_setPort _ _ _ _).mem
theorem failPort_outs (p : Pkg) (c : Clock) (q : Nat) : (failPort p c q).outs = p.outs := (outward_setPort _ _ _ _).outs

/-- A port fails if it is in use, that is training or up. -/
def failInUse (c : Clock) (p : Pkg) (q : Nat) : Pkg :=
  if rfld p (rFabPstate q) 2 0 = 1 ∨ rfld p (rFabPstate q) 2 0 = 2 then failPort p c q else p

theorem exec_portFailed (q : Fin 128) (s : State) : exec (.portFailed q) s = .next (Safety.withPkg s (failInUse s.clk s.pkg q)) := rfl

/-! The record in use, and what it says of a port (R317, R464) -/

theorem Outward.recInUse {p q : Pkg} (h : Outward p q) : recInUse q = recInUse p := by
  obtain ⟨_, _, _, _, _, rfl⟩ := h
  rw [Machine.recInUse, Machine.recInUse]

theorem Outward.expectedPeer {p q : Pkg} (h : Outward p q) (hs : rget q rFabPspare = rget p rFabPspare) (k : Nat) :
    expectedPeer q k = expectedPeer p k := by
  simp only [Machine.expectedPeer, h.recInUse, rfld, hs]

theorem Outward.mayTrain {p q : Pkg} (h : Outward p q) (hs : rget q rFabPspare = rget p rFabPspare)
    (hp : rget q rFabPlace = rget p rFabPlace) : mayTrain q = mayTrain p := by
  funext k
  simp only [Machine.mayTrain, ownPlace, h.recInUse, rbit, rfld, hs, hp]

section
variable {q : Nat} (hq : q < 128)
include hq

theorem rFabPspare_ne_rFabPstate : rFabPspare ≠ rFabPstate q := by
  unfold rFabPspare rFabPstate
  omega

theorem rFabPpeer_ne_rFabPstate (r : Nat) : rFabPpeer r ≠ rFabPstate q := by
  unfold rFabPpeer rFabPstate
  omega

theorem rFabFdstat_ne_rFabPstate (d : Nat) : rFabFdstat d ≠ rFabPstate q := by
  unfold rFabFdstat rFabPstate
  omega

theorem mayTrain_setPort (p : Pkg) (c : Clock) (st : Nat) : mayTrain (setPort p c q st) = mayTrain p :=
  (outward_setPort p c q st).mayTrain (rget_setPort_ne _ _ _ (by decide) (rFabPspare_ne_rFabPstate hq))
    (rget_setPort_ne _ _ _ (by decide) (by unfold rFabPlace rFabPstate; omega))

end

/-! Training (R332, R467) -/

theorem exec_portTrain {s : State} {q : Fin 128} (h : mayTrain s.pkg q = true) :
    exec (.portTrain q) s = .next (Safety.withPkg s (setPort s.pkg s.clk q 1)) := by
  rw [show exec (.portTrain q) s = execPortTrain q s from rfl, execPortTrain, run_eq, if_pos h]

theorem exec_portTrainDone {s : State} {q : Fin 128} (r : Training) (h : rfld s.pkg (rFabPstate q) 2 0 = 1) :
    exec (.portTrainDone q r) s = .next (Safety.withPkg s (trained s.pkg s.clk q r)) := by
  rw [show exec (.portTrainDone q r) s = execPortTrainDone q r s from rfl, execPortTrainDone, run_eq, if_pos h]

/-- The order of the lanes that training found, kept for the port's FD; lanes newly found crossed are reported. -/
def crossedNoted (p : Pkg) (c : Clock) (q : Nat) (r : Training) : Pkg :=
  if r.crossed && !rbit p (rFabFdstat (q / 32)) 0 then event (rsetb p (rFabFdstat (q / 32)) 0 true) c 7 (10 + q / 32) 0 (q / 32)
  else rsetb p (rFabFdstat (q / 32)) 0 r.crossed

/-- Then the peer that training found is in `FAB.PPEER`. -/
def peerNoted (p : Pkg) (c : Clock) (q : Nat) (r : Training) : Pkg :=
  rset (crossedNoted p c q r) (rFabPpeer q) (r.place % 2 ^ 18 + r.port % 128 * 2 ^ 18)

/-- A link at both ends' lower protocol level, with all its credit; packets that came by it no longer hold room. -/
def linkUp (p : Pkg) (q own : Nat) (r : Training) : Pkg :=
  let p := rset p (rFabPflight q) (r.flight % 2 ^ 16 + wrapInt 16 r.asym * 2 ^ 16)
  { p with
    fwd := p.fwd.map (fun w => if w.via = some q then { w with via := none } else w)
    ports := sset p.ports q { sget p.ports q {} with level := min own r.level, credit := 256, held := 0, back := 0 } }

theorem outward_crossedNoted (p : Pkg) (c : Clock) (q : Nat) (r : Training) : Outward p (crossedNoted p c q r) :=
  Outward.ite _ ((outward_rsetb _ _ _ _).trans (outward_event _ _ _ _ _ _)) (outward_rsetb _ _ _ _)

theorem outward_peerNoted (p : Pkg) (c : Clock) (q : Nat) (r : Training) : Outward p (peerNoted p c q r) :=
  (outward_crossedNoted p c q r).trans (outward_rset _ _ _)

theorem rget_crossedNoted (p : Pkg) (c : Clock) (q : Nat) (r : Training) {o : Nat} (h : eventReg o = false) (hd : o ≠ rFabFdstat (q / 32)) :
    rget (crossedNoted p c q r) o = rget p o := by
  rw [crossedNoted]
  split
  · rw [rget_event _ _ _ _ _ _ _ h, rget_rsetb_ne _ _ _ hd]
  · rw [rget_rsetb_ne _ _ _ hd]

section
variable {p : Pkg} (c : Clock) {q : Nat} {r : Training}

theorem trained_unheld (h : r.held = false) : trained p c q r = setPort p c q 3 := by
  rw [trained, h]
  rfl

theorem expectedPeer_peerNoted (hq : q < 128) : expectedPeer (peerNoted p c q r) q = expectedPeer p q := by
  refine (outward_peerNoted p c q r).expectedPeer ?_ q
  rw [peerNoted, rget_rset_ne _ _ (by unfold rFabPspare rFabPpeer; omega),
    rget_crossedNoted _ _ _ _ (by decide) (by unfold rFabPspare rFabFdstat; omega)]

theorem trained_miswired (hq : q < 128) (h : r.held = true) (hx : expectedPeer p q ≠ some (r.place, r.port)) :
    trained p c q r = setPort (peerNoted p c q r) c q 4 := by
  rw [← expectedPeer_peerNoted c hq (r := r)] at hx
  unfold peerNoted crossedNoted at *
  simp only [trained, h, Bool.not_true, Bool.false_eq_true, if_false, if_pos hx]

theorem trained_up (hq : q < 128) (h : r.held = true) (hx : expectedPeer p q = some (r.place, r.port))
    (hr : r.level ≤ rfld p rHltProto 7 0 + 1) (hp : rfld p rHltProto 7 0 ≤ r.level + 1) :
    trained p c q r = setPort (linkUp (peerNoted p c q r) q (rfld p rHltProto 7 0) r) c q 2 := by
  rw [← expectedPeer_peerNoted c hq (r := r)] at hx
  have hlevel : ¬(rfld p rHltProto 7 0 + 1 < r.level ∨ r.level + 1 < rfld p rHltProto 7 0) := by omega
  unfold peerNoted crossedNoted at *
  simp only [trained, h, Bool.not_true, Bool.false_eq_true, if_false, if_neg (not_not.mpr hx), if_neg hlevel]
  rfl

end

theorem linkUp_mem (p : Pkg) (q own : Nat) (r : Training) : (linkUp p q own r).mem = p.mem := rfl

theorem port_linkUp (p : Pkg) (q own : Nat) (r : Training) : sget (linkUp p q own r).ports q {} =
    { sget p.ports q {} with level := min own r.level, credit := 256, held := 0, back := 0 } := sget_sset_self _ _ _ _

theorem rget_linkUp_peer (p : Pkg) (q own : Nat) (c : Clock) (r : Training) :
    rget (linkUp (peerNoted p c q r) q own r) (rFabPpeer q) = r.place % 2 ^ 18 + r.port % 128 * 2 ^ 18 :=
  calc rget (linkUp (peerNoted p c q r) q own r) (rFabPpeer q)
      = rget (rset (peerNoted p c q r) (rFabPflight q) (r.flight % 2 ^ 16 + wrapInt 16 r.asym * 2 ^ 16)) (rFabPpeer q) := rget_congr _ rfl
    _ = (r.place % 2 ^ 18 + r.port % 128 * 2 ^ 18) % 2 ^ 32 := by
      rw [rget_rset_ne _ _ (by unfold rFabPpeer rFabPflight; omega), peerNoted, rget_rset_self]
    _ = r.place % 2 ^ 18 + r.port % 128 * 2 ^ 18 := by omega

/-! The spare port (R334) -/

theorem exec_portSpareReplace {s : State} {q : Fin 128} (hf : rfld s.pkg (rFabPstate q) 2 0 = 3) (hq : q.val ≠ 127)
    (hv : rbit s.pkg rFabPspare 7 = false) (hb : (s.clk.gsc - portBase s.pkg q) % 4096 = 0) :
    exec (.portSpareReplace q) s = .next (Safety.withPkg s (rset s.pkg rFabPspare (128 + q))) := by
  rw [show exec (.portSpareReplace q) s = execPortSpareReplace q s from rfl, execPortSpareReplace, run_eq,
    if_pos ⟨hf, hq, by rw [hv]; rfl, hb⟩]

theorem physPort_spare (p : Pkg) {q : Nat} (hq : q < 128) : physPort (rset p rFabPspare (128 + q)) q = 127 := by
  have hv : rbit (rset p rFabPspare (128 + q)) rFabPspare 7 = true := by
    rw [rbit, rget_rset_self, bit, Nat.shiftRight_eq_div_pow, beq_iff_eq]
    omega
  have hn : rfld (rset p rFabPspare (128 + q)) rFabPspare 6 0 = q := by
    rw [rfld, rget_rset_self, bits, Nat.shiftRight_zero]
    omega
  rw [physPort, hv, hn, beq_self_eq_true]
  rfl

/-! The ports of a connector (R478) -/

/-- A fold over ports, each of whose steps may change the state of its own port alone, and that by what a package of the kind K has. -/
theorem foldl_portStates {f : Pkg → Nat → Pkg} {K : Pkg → Prop} {new : Nat → Nat → Nat} {l : List Nat}
    (hK : ∀ p, K p → ∀ q ∈ l, K (f p q))
    (hf : ∀ p, K p → ∀ q ∈ l, ∀ r < 128,
      rfld (f p q) (rFabPstate r) 2 0 = if r = q then new q (rfld p (rFabPstate q) 2 0) else rfld p (rFabPstate r) 2 0)
    (hl : l.Nodup) {p : Pkg} (hp : K p) {r : Nat} (hr : r < 128) :
    rfld (l.foldl f p) (rFabPstate r) 2 0 = if r ∈ l then new r (rfld p (rFabPstate r) 2 0) else rfld p (rFabPstate r) 2 0 := by
  induction l generalizing p with
  | nil => rfl
  | cons q l ih =>
    obtain ⟨hql, hl⟩ := List.nodup_cons.mp hl
    rw [List.foldl_cons, ih (fun p hp a ha => hK p hp a (List.mem_cons_of_mem q ha)) (fun p hp a ha => hf p hp a (List.mem_cons_of_mem q ha))
      hl (hK p hp q List.mem_cons_self), hf p hp q List.mem_cons_self r hr]
    by_cases hrq : r = q
    · subst hrq
      rw [if_neg hql, if_pos rfl, if_pos List.mem_cons_self]
    · simp only [hrq, if_false, List.mem_cons, false_or]

/-- The ports of an FD. -/
def fdPorts (d : Nat) : List Nat := (List.range 32).map (fun j => 32 * d + j)

theorem mem_fdPorts {d r : Nat} : r ∈ fdPorts d ↔ r / 32 = d := by
  simp only [fdPorts, List.mem_map, List.mem_range]
  constructor
  · rintro ⟨j, hj, rfl⟩
    omega
  · intro h
    exact ⟨r % 32, Nat.mod_lt _ (by decide), by omega⟩

theorem nodup_fdPorts (d : Nat) : (fdPorts d).Nodup :=
  List.nodup_range.map (fun _ _ h => Nat.add_left_cancel h)

theorem lt_of_mem_fdPorts {d : Fin 4} {r : Nat} (h : r ∈ fdPorts d) : r < 128 := by
  have := mem_fdPorts.mp h
  omega

/-- What a connector's removal and its insertion do to one port. -/
def portDark (c : Clock) (p : Pkg) (q : Nat) : Pkg := if rfld p (rFabPstate q) 2 0 = 0 then p else failPort p c q
def portLit (c : Clock) (p : Pkg) (q : Nat) : Pkg := if rfld p (rFabPstate q) 2 0 = 3 ∧ mayTrain p q then setPort p c q 1 else p

theorem exec_connectorRemove (d : Fin 4) (s : State) :
    exec (.connectorRemove d) s = .next (Safety.withPkg s ((fdPorts d).foldl (portDark s.clk) s.pkg)) := rfl

theorem exec_connectorInsert (d : Fin 4) (s : State) :
    exec (.connectorInsert d) s = .next (Safety.withPkg s ((fdPorts d).foldl (portLit s.clk) s.pkg)) := rfl

theorem portDark_mem (c : Clock) (p : Pkg) (q : Nat) : (portDark c p q).mem = p.mem := by
  rw [portDark]
  split
  · rfl
  · exact failPort_mem p c q

theorem rfld_portDark (c : Clock) (p : Pkg) {q r : Nat} (hq : q < 128) (hr : r < 128) : rfld (portDark c p q) (rFabPstate r) 2 0 =
    if r = q then (if rfld p (rFabPstate q) 2 0 ≠ 0 then 3 else rfld p (rFabPstate q) 2 0) else rfld p (rFabPstate r) 2 0 := by
  rw [portDark]
  split
  case isTrue h =>
    rw [if_neg (not_not.mpr h)]
    split
    case isTrue hrq => rw [hrq]
    case isFalse => rfl
  case isFalse => exact rfld_failPort p c hq hr

theorem portLit_mem (c : Clock) (p : Pkg) (q : Nat) : (portLit c p q).mem = p.mem := by
  rw [portLit]
  split
  · exact (outward_setPort _ _ _ _).mem
  · rfl

theorem mayTrain_portLit (c : Clock) (p : Pkg) {q : Nat} (hq : q < 128) : mayTrain (portLit c p q) = mayTrain p := by
  rw [portLit]
  split
  · exact mayTrain_setPort hq p c 1
  · rfl

theorem rfld_portLit (c : Clock) (p : Pkg) {q r : Nat} (hq : q < 128) (hr : r < 128) : rfld (portLit c p q) (rFabPstate r) 2 0 =
    if r = q then (if rfld p (rFabPstate q) 2 0 = 3 ∧ mayTrain p q then 1 else rfld p (rFabPstate q) 2 0) else rfld p (rFabPstate r) 2 0 := by
  rw [portLit]
  split
  case isTrue h => exact rfld_setPort p c hq hr (by decide)
  case isFalse h =>
    split
    case isTrue hrq => rw [hrq]
    case isFalse => rfl

theorem rfld_connectorRemove (c : Clock) (p : Pkg) (d : Fin 4) {r : Nat} (hr : r < 128) :
    rfld ((fdPorts d).foldl (portDark c) p) (rFabPstate r) 2 0 =
      if r / 32 = d.val ∧ rfld p (rFabPstate r) 2 0 ≠ 0 then 3 else rfld p (rFabPstate r) 2 0 := by
  rw [foldl_portStates (K := fun _ => True) (new := fun _ x => if x ≠ 0 then 3 else x) (fun _ _ _ _ => trivial)
    (fun p _ q hq r hr => rfld_portDark c p (lt_of_mem_fdPorts hq) hr) (nodup_fdPorts d) trivial hr]
  simp only [mem_fdPorts, ite_and]

theorem rfld_connectorInsert (c : Clock) (p : Pkg) (d : Fin 4) {r : Nat} (hr : r < 128) :
    rfld ((fdPorts d).foldl (portLit c) p) (rFabPstate r) 2 0 =
      if r / 32 = d.val ∧ rfld p (rFabPstate r) 2 0 = 3 ∧ mayTrain p r then 1 else rfld p (rFabPstate r) 2 0 := by
  rw [foldl_portStates (K := fun q => mayTrain q = mayTrain p) (new := fun q x => if x = 3 ∧ mayTrain p q then 1 else x)
    (fun p hp q hq => (mayTrain_portLit c p (lt_of_mem_fdPorts hq)).trans hp)
    (fun p hp q hq r hr => by rw [rfld_portLit c p (lt_of_mem_fdPorts hq) hr, hp]) (nodup_fdPorts d) rfl hr]
  simp only [mem_fdPorts, ite_and]

/-- Settles O23: each command by its equation, then what the lemmas above say of the ports' states. -/
theorem portStates : Obligations.PortStates := by
  refine ⟨fun s q hu => ?fails, fun s q hm => ?trains, fun s q r ht => ⟨fun hh => ?unheld, fun hh hx => ?miswired, fun hh hx hl hp => ?up⟩,
    fun s q hf hq hv hb => ?spare, fun s d => ?removed, fun s d => ?inserted⟩
  case fails =>
    refine ⟨_, exec_portFailed q s, ?_⟩
    rw [failInUse, if_pos hu]
    exact ⟨rfld_setPort_self _ _ q.isLt (by decide), fun r hr hne => rget_failPort_ne _ _ (countReg_rFabPstate hr) (mt rFabPstate_inj.mp hne),
      failPort_mem _ _ _, failPort_outs _ _ _⟩
  case trains =>
    exact ⟨_, exec_portTrain hm, rfld_setPort_self _ _ q.isLt (by decide),
      fun r hr hne => rget_setPort_ne _ _ _ (countReg_rFabPstate hr) (mt rFabPstate_inj.mp hne), (outward_setPort _ _ _ _).mem⟩
  case unheld =>
    refine ⟨_, exec_portTrainDone r ht, ?_⟩
    rw [trained_unheld s.clk hh]
    exact ⟨rfld_setPort_self _ _ q.isLt (by decide), (outward_setPort _ _ _ _).mem⟩
  case miswired =>
    refine ⟨_, exec_portTrainDone r ht, ?_⟩
    rw [trained_miswired s.clk q.isLt hh hx]
    exact ⟨rfld_setPort_self _ _ q.isLt (by decide), ((outward_peerNoted _ _ _ _).trans (outward_setPort _ _ _ _)).mem⟩
  case up =>
    refine ⟨_, exec_portTrainDone r ht, ?_⟩
    rw [trained_up s.clk q.isLt hh hx hl hp, (outward_setPort _ _ _ _).ports, port_linkUp, (outward_setPort _ _ _ _).mem, linkUp_mem,
      (outward_peerNoted _ _ _ _).mem]
    refine ⟨rfld_setPort_self _ _ q.isLt (by decide), rfl, rfl, rfl, rfl, ?_, rfl⟩
    rw [rget_setPort_ne _ _ _ (countReg_rFabPpeer q.isLt) (rFabPpeer_ne_rFabPstate q.isLt q), rget_linkUp_peer]
  case spare =>
    refine ⟨_, exec_portSpareReplace hf hq hv hb, ?_, physPort_spare _ q.isLt, fun o ho => rget_rset_ne _ _ ho, rfl⟩
    rw [rget_rset_self]
    omega
  case removed =>
    exact ⟨_, exec_connectorRemove d s, List.foldlRecOn (motive := fun q => q.mem = s.pkg.mem) _ _ rfl
      (fun p hp q _ => (portDark_mem _ p q).trans hp), fun r hr => by rw [rfld_connectorRemove _ _ d hr]⟩
  case inserted =>
    exact ⟨_, exec_connectorInsert d s, List.foldlRecOn (motive := fun q => q.mem = s.pkg.mem) _ _ rfl
      (fun p hp q _ => (portLit_mem _ p q).trans hp), fun r hr => by rw [rfld_connectorInsert _ _ d hr]⟩

end Sys2Proof.Machine
end

section
/-! PROOFS. Route switches, lane replacement, laser loss (R324, R325, R333, R335): O24. -/

namespace Sys2Proof.Machine

/-! Drained ports (R325) -/

theorem drained_of_draining {p : Pkg} {w : RouteSwitch} (h : p.rswitch = some w) (hd : w.draining = true) (q : Nat) :
    drained p q = w.ports.contains q := by
  rw [drained, h, Option.map_some, Option.getD_some, hd, Bool.true_and]

theorem drained_of_none {p : Pkg} (h : p.rswitch = none) (q : Nat) : drained p q = false := by
  rw [drained, h]
  rfl

/-- Ports that firmware names are drained by their numbers. -/
theorem contains_portNumbers (ports : List (Fin 128)) (q : Fin 128) : (ports.map (fun q => q.val)).contains q.val = ports.contains q := by
  rw [Bool.eq_iff_iff, List.contains_iff_mem, List.contains_iff_mem, List.mem_map_of_injective Fin.val_injective]

/-! The start of a switch (R324) -/

theorem exec_routeDrainStart_pending {s : State} {w : RouteSwitch} (ports : List (Fin 128)) (hw : s.pkg.rswitch = some w)
    (hd : w.draining = false) (ht : w.stop ≤ s.clk.gsc + 8192) : exec (.routeDrainStart ports) s = .next (Safety.withPkg s
      { s.pkg with rswitch := some { w with draining := true, ports := ports.map (fun q => q.val) } }) := by
  rw [show exec (.routeDrainStart ports) s = execRouteDrainStart ports s from rfl, execRouteDrainStart, run_eq]
  simp only [hw, hd, decide_eq_false (not_lt.mpr ht), Bool.or_self, Bool.false_eq_true, if_false]

theorem exec_routeDrainStart_own {s : State} (ports : List (Fin 128)) (hw : s.pkg.rswitch = none) : exec (.routeDrainStart ports) s =
    .next (Safety.withPkg s (ownSwitch s.pkg s.clk (ports.map (fun q => q.val)))) := by
  rw [show exec (.routeDrainStart ports) s = execRouteDrainStart ports s from rfl, execRouteDrainStart, run_eq]
  simp only [hw]

theorem ownSwitch_of_ports (p : Pkg) (c : Clock) {ports : List Nat} (h : ports ≠ []) : ownSwitch p c ports = switchAt p (c.gsc + 8192) ports :=
  if_pos h

/-- Without ports to drain the first port that has FAILED gives the boundary. -/
theorem ownSwitch_of_failed {p : Pkg} (c : Clock) {q : Nat} (hq : q < 128) (hf : rfld p (rFabPstate q) 2 0 = 3)
    (hfirst : ∀ r, r < q → rfld p (rFabPstate r) 2 0 ≠ 3) : ownSwitch p c [] = switchAt p (boundaryAfter p c q) [] := by
  have hfind : (List.range 128).find? (fun q => rfld p (rFabPstate q) 2 0 == 3) = some q := by
    rw [List.find?_range_eq_some]
    exact ⟨beq_iff_eq.mpr hf, List.mem_range.mpr hq, fun r hr => by rw [beq_false_of_ne (hfirst r hr)]; rfl⟩
  rw [ownSwitch, if_neg (not_not.mpr rfl), hfind]

theorem rbit_switchAt (p : Pkg) (S : Nat) (ports : List Nat) : rbit (switchAt p S ports) rFabStatus 2 = true :=
  calc rbit (switchAt p S ports) rFabStatus 2
      = rbit (rset (rset (rsetb p rFabStatus 2 true) rFabSwLo (S % 2 ^ 32)) rFabSwHi (S / 2 ^ 32)) rFabStatus 2 := rfl
    _ = true := by rw [rbit_rset_ne _ _ _ (by decide), rbit_rset_ne _ _ _ (by decide), rbit_rsetb_self _ _ _ _ (by decide)]

/-- The boundary is at least 2,500 ticks ahead, on the port's frame grid, and the first such. -/
theorem boundaryAfter_spec (p : Pkg) (c : Clock) (q : Nat) : c.gsc + 2500 ≤ boundaryAfter p c q ∧
    (portBase p q ≤ boundaryAfter p c q ∧ (boundaryAfter p c q - portBase p q) % 4096 = 0) ∧
    boundaryAfter p c q < max (portBase p q) (c.gsc + 2500) + 4096 := by
  simp only [boundaryAfter, cdiv]
  generalize portBase p q = b
  omega

/-! The switch (R324) -/

/-- The inactive route bank is the active one, and no switch is pending. -/
def bankSwitched (p : Pkg) : Pkg := { rsetb (rsetb p rFabStatus 1 (!rbit p rFabStatus 1)) rFabStatus 2 false with rswitch := none }

theorem exec_routeSwitch {s : State} {w : RouteSwitch} (hw : s.pkg.rswitch = some w) (ht : w.stop ≤ s.clk.gsc) :
    exec .routeSwitch s = .next (Safety.withPkg s
      (w.ops.foldl (fun q o => complete q s.clk o.1 0 0#16 0 o.2 false) (bankSwitched s.pkg))) := by
  rw [show exec .routeSwitch s = execRouteSwitch s from rfl, execRouteSwitch, run_eq]
  simp only [hw, if_neg (not_lt.mpr ht)]
  rfl

theorem rget_bankSwitched (p : Pkg) (o : Nat) :
    rget (bankSwitched p) o = rget (rsetb (rsetb p rFabStatus 1 (!rbit p rFabStatus 1)) rFabStatus 2 false) o := rget_congr o rfl

theorem bankSwitched_shows (p : Pkg) : rbit (bankSwitched p) rFabStatus 1 = (!rbit p rFabStatus 1) ∧
    rbit (bankSwitched p) rFabStatus 2 = false ∧ (bankSwitched p).rswitch = none ∧ (bankSwitched p).mem = p.mem ∧
    ∀ o, o ≠ rFabStatus → rget (bankSwitched p) o = rget p o := by
  refine ⟨?_, ?_, rfl, rfl, fun o ho => ?_⟩
  · rw [rbit, rget_bankSwitched, ← rbit, rbit_rsetb_other _ _ _ _ _ (by decide) (by decide), rbit_rsetb_self _ _ _ _ (by decide)]
  · rw [rbit, rget_bankSwitched, ← rbit, rbit_rsetb_self _ _ _ _ (by decide)]
  · rw [rget_bankSwitched, rget_rsetb_ne _ _ _ ho, rget_rsetb_ne _ _ _ ho]

theorem outward_foldl {α : Type} {f : Pkg → α → Pkg} (h : ∀ p a, Outward p (f p a)) (l : List α) (p : Pkg) : Outward p (l.foldl f p) :=
  List.foldlRecOn (motive := Outward p) l f (Outward.refl p) (fun q hq a _ => hq.trans (h q a))

/-! Lane replacement (R333) -/

/-- A lane replacement of a port is at a step, or none is in progress. -/
def withSwap (p : Pkg) (q : Nat) (y : Option (Nat × Nat × Nat × Nat)) : Pkg :=
  { p with ports := sset p.ports q { sget p.ports q {} with swap := y } }

theorem swap_withSwap (p : Pkg) (q : Nat) (y : Option (Nat × Nat × Nat × Nat)) :
    (sget (withSwap p q y).ports q {}).swap = y := by rw [withSwap, sget_sset_self]

section
variable {s : State} {q : Fin 128}

theorem exec_laneSwap_agreed {f : Nat} {lane spare : Fin 136} (hu : rfld s.pkg (rFabPstate q) 2 0 = 2)
    (hfree : rfld s.pkg (rFabFdstat (q / 32)) 11 8 < 8) (hl : lane.val / 4 = q.val % 32) (hs : 128 ≤ spare.val)
    (htaken : ∀ j, j < 32 → ∀ e ∈ (sget s.pkg.ports (q / 32 * 32 + j) {}).lane, e.2 ≠ spare.val)
    (hn : (sget s.pkg.ports q.val {}).swap = none) (hf : frameNow s.pkg s.clk q = f ∨ frameNow s.pkg s.clk q + 2 ≤ f) :
    exec (.laneSwap q f lane spare) s = .next (Safety.withPkg s (withSwap s.pkg q (some (f, lane.val, spare.val, 0)))) := by
  have hspare : (List.range 32).any (fun j => (sget s.pkg.ports (q / 32 * 32 + j) {}).lane.any (fun e => e.2 == spare.val)) = false := by
    simp only [List.any_eq_false, List.any_eq_true, beq_iff_eq, not_exists, not_and]
    exact fun j hj => htaken j (List.mem_range.mp hj)
  have hframe : ¬(f < frameNow s.pkg s.clk q ∨ f = frameNow s.pkg s.clk q + 1) := by omega
  rw [show exec (.laneSwap q f lane spare) s = execLaneSwap q f lane spare s from rfl, execLaneSwap, run_eq]
  simp only [hu, hspare, hl, hn, decide_eq_false hframe, decide_eq_false (not_lt.mpr hs), if_neg (not_le.mpr hfree), beq_self_eq_true,
    Bool.true_or, Bool.not_true, Option.isSome_none, Bool.or_self, Bool.false_eq_true, ne_eq, not_true_eq_false, if_false]
  rfl

theorem exec_laneSwap_full (f : Nat) (lane spare : Fin 136) (hu : rfld s.pkg (rFabPstate q) 2 0 = 2)
    (hfull : 8 ≤ rfld s.pkg (rFabFdstat (q / 32)) 11 8) :
    exec (.laneSwap q f lane spare) s = .next (Safety.withPkg s (failPort s.pkg s.clk q)) := by
  rw [show exec (.laneSwap q f lane spare) s = execLaneSwap q f lane spare s from rfl, execLaneSwap, run_eq]
  simp only [if_neg (not_not.mpr hu), if_pos hfull]

end

/-- At the frame agreed both lanes send: one more spare lane of the FD is in use. -/
def laneSends (p : Pkg) (q f lane spare : Nat) : Pkg :=
  withSwap (rsetf p (rFabFdstat (q / 32)) 11 8 (rfld p (rFabFdstat (q / 32)) 11 8 + 1)) q (some (f, lane, spare, 1))

/-- At the next frame the spare lane serves. -/
def laneServes (p : Pkg) (q lane spare : Nat) : Pkg :=
  let x := sget p.ports q {}
  { p with ports := sset p.ports q { x with swap := none, lane := x.lane ++ [(lane, spare)] } }

/-- The port shows the replacement, and its baselines are empty; no request for it is left. -/
def laneShown (p : Pkg) (q : Nat) : Pkg := dropRequest (clearBase (clearBase (rsetb p (rFabPstate q) 3 true) 6 q) 7 q) 0x27 q

section
variable {s : State} {q : Fin 128} {f lane spare : Nat}

theorem exec_laneSwitch_sends (hw : (sget s.pkg.ports q.val {}).swap = some (f, lane, spare, 0)) (hf : f ≤ frameNow s.pkg s.clk q) :
    exec (.laneSwitch q) s = .next (Safety.withPkg s (laneSends s.pkg q f lane spare)) := by
  rw [show exec (.laneSwitch q) s = execLaneSwitch q s from rfl, execLaneSwitch, run_eq]
  simp only [hw, if_neg (not_lt.mpr hf)]
  rfl

theorem exec_laneSwitch_serves (hw : (sget s.pkg.ports q.val {}).swap = some (f, lane, spare, 1)) (hf : f + 1 ≤ frameNow s.pkg s.clk q) :
    exec (.laneSwitch q) s = .next (Safety.withPkg s
      (actionDone (laneShown (laneServes s.pkg q lane spare) q) s.clk 8 (10 + q / 32) q spare)) := by
  rw [show exec (.laneSwitch q) s = execLaneSwitch q s from rfl, execLaneSwitch, run_eq]
  simp only [hw, if_neg (not_lt.mpr hf)]
  rfl

end

/-! What a replacement leaves -/

theorem port_laneServes (p : Pkg) (q lane spare : Nat) : sget (laneServes p q lane spare).ports q {} =
    { sget p.ports q {} with swap := none, lane := (sget p.ports q {}).lane ++ [(lane, spare)] } := sget_sset_self _ _ _ _

theorem laneServes_mem (p : Pkg) (q lane spare : Nat) : (laneServes p q lane spare).mem = p.mem := rfl
theorem rget_laneServes (p : Pkg) (q lane spare o : Nat) : rget (laneServes p q lane spare) o = rget p o := rfl
theorem laneShown_ports (p : Pkg) (q : Nat) : (laneShown p q).ports = p.ports := rfl
theorem laneShown_mem (p : Pkg) (q : Nat) : (laneShown p q).mem = p.mem := rfl

theorem rfld_laneSends (p : Pkg) (q f lane spare : Nat) : rfld (laneSends p q f lane spare) (rFabFdstat (q / 32)) 11 8 =
    (rfld p (rFabFdstat (q / 32)) 11 8 + 1) % 16 :=
  rfld_rsetf_self p _ _ _ _ (by decide) (by decide)

theorem outward_actionDone (p : Pkg) (c : Clock) (kind die unit aux : Nat) : Outward p (actionDone p c kind die unit aux) :=
  (outward_bump _ _).trans (outward_event _ _ _ _ _ _)

theorem rget_actionDone_swaps (p : Pkg) (c : Clock) (kind die unit aux : Nat) :
    rget (actionDone p c kind die unit aux) rHltSwaps = (rget p rHltSwaps + 1) % 2 ^ 32 := by
  rw [actionDone, rget_event _ _ _ _ _ _ _ (by decide), rget_bump_self]

theorem rget_actionDone_ne (p : Pkg) (c : Clock) (kind die unit aux : Nat) {o : Nat} (h : eventReg o = false) (hs : o ≠ rHltSwaps) :
    rget (actionDone p c kind die unit aux) o = rget p o := by
  rw [actionDone, rget_event _ _ _ _ _ _ _ h, rget_bump_ne _ hs]

theorem rbit_actionDone_ne (p : Pkg) (c : Clock) (kind die unit aux i : Nat) {o : Nat} (h : eventReg o = false) (hs : o ≠ rHltSwaps) :
    rbit (actionDone p c kind die unit aux) o i = rbit p o i := by
  rw [rbit, rget_actionDone_ne _ _ _ _ _ _ h hs, rbit]

theorem rget_laneShown (p : Pkg) (q : Nat) {o : Nat} (h : o ≠ rHltStatus) : rget (laneShown p q) o = rget (rsetb p (rFabPstate q) 3 true) o := by
  rw [laneShown, dropRequest, syncSwapPend, rget_rsetb_ne _ _ _ h]
  exact rget_congr o rfl

theorem rbit_laneShown (p : Pkg) {q : Nat} (hq : q < 128) : rbit (laneShown p q) (rFabPstate q) 3 = true := by
  rw [rbit, rget_laneShown _ _ (by unfold rFabPstate rHltStatus; omega), ← rbit, rbit_rsetb_self _ _ _ _ (by decide)]

theorem rget_laneShown_swaps (p : Pkg) {q : Nat} (hq : q < 128) : rget (laneShown p q) rHltSwaps = rget p rHltSwaps := by
  rw [rget_laneShown _ _ (by decide), rget_rsetb_ne _ _ _ (by unfold rFabPstate rHltSwaps; omega)]

/-! Laser loss (R335) -/

/-- An input that is below the threshold no longer shows. -/
def inputDark (p : Pkg) (d i : Nat) : Pkg := rsetb p (rFabFdstat d) (1 + i) false

/-- Then the fibres of the input are on input 3. -/
def fibresMoved (p : Pkg) (d i : Nat) : Pkg := { rsetb (inputDark p d i) (rFabFdstat d) 5 true with lasers := sset p.lasers d i }

section
variable {s : State} {d i : Fin 4} (hon : rbit s.pkg (rFabFdstat d) (1 + i) = true) (hi : i ≠ 3) (hm : rbit s.pkg (rFabFdstat d) 5 = false)
include hon hi hm

theorem exec_laserLoss_moves {p : Pkg} (h : moveLaser (inputDark s.pkg d i) d i = some p) :
    exec (.laserLoss d i) s = .next (Safety.withPkg s p) := by
  unfold inputDark at h
  rw [show exec (.laserLoss d i) s = execLaserLoss d i s from rfl, execLaserLoss, run_eq]
  simp only [hon, hm, h, if_neg hi, Bool.not_true, Bool.false_eq_true, if_false, reduceCtorEq]

theorem exec_laserLoss_fails (h : moveLaser (inputDark s.pkg d i) d i = none) :
    exec (.laserLoss d i) s = .next (Safety.withPkg s (failPorts (inputDark s.pkg d i) s.clk (fedBy s.pkg d i))) := by
  unfold inputDark at *
  rw [show exec (.laserLoss d i) s = execLaserLoss d i s from rfl, execLaserLoss, run_eq]
  simp only [hon, hm, h, if_neg hi, Bool.not_true, Bool.false_eq_true, if_false, reduceCtorEq]
  rfl

end

section
variable (p : Pkg) {d i : Nat} (hi : i < 3)
include hi

theorem rbit_inputDark_self : rbit (inputDark p d i) (rFabFdstat d) (1 + i) = false := rbit_rsetb_self _ _ _ _ (by omega)

theorem rbit_inputDark_other {j : Nat} (hj : 3 < j) : rbit (inputDark p d i) (rFabFdstat d) j = rbit p (rFabFdstat d) j :=
  rbit_rsetb_other _ _ _ _ _ (by omega) (by omega)

theorem moveLaser_of_power {p : Pkg} (hm : rbit p (rFabFdstat d) 5 = false) (hp : rbit p (rFabFdstat d) 4 = true) :
    moveLaser (inputDark p d i) d i = some (fibresMoved p d i) := by
  rw [moveLaser, rbit_inputDark_other p hi (by decide), rbit_inputDark_other p hi (by decide), hm, hp]
  rfl

theorem moveLaser_of_dark {p : Pkg} (hp : rbit p (rFabFdstat d) 4 = false) : moveLaser (inputDark p d i) d i = none := by
  rw [moveLaser, rbit_inputDark_other p hi (by decide), hp]
  rfl

end

theorem rget_fibresMoved (p : Pkg) (d i o : Nat) :
    rget (fibresMoved p d i) o = rget (rsetb (inputDark p d i) (rFabFdstat d) 5 true) o := rget_congr o rfl

theorem fibresMoved_shows (p : Pkg) {d i : Nat} (hi : i < 3) : rbit (fibresMoved p d i) (rFabFdstat d) (1 + i) = false ∧
    rbit (fibresMoved p d i) (rFabFdstat d) 5 = true ∧ sget (fibresMoved p d i).lasers d 0 = i ∧
    (∀ o, o ≠ rFabFdstat d → rget (fibresMoved p d i) o = rget p o) ∧ (fibresMoved p d i).mem = p.mem := by
  refine ⟨?_, ?_, sget_sset_self _ _ _ _, fun o ho => ?_, rfl⟩
  · rw [rbit, rget_fibresMoved, ← rbit, rbit_rsetb_other _ _ _ _ _ (by decide) (by omega), rbit_inputDark_self p hi]
  · rw [rbit, rget_fibresMoved, ← rbit, rbit_rsetb_self _ _ _ _ (by decide)]
  · rw [rget_fibresMoved, rget_rsetb_ne _ _ _ ho, inputDark, rget_rsetb_ne _ _ _ ho]

/-! Ports that fail (R326, R335) -/

theorem lt_of_mem_fedBy {p : Pkg} {d : Fin 4} {i q : Nat} (h : q ∈ fedBy p d i) : q < 128 := by
  rw [fedBy, List.mem_map] at h
  obtain ⟨j, hj, rfl⟩ := h
  have := List.mem_range.mp (List.mem_filter.mp hj).1
  omega

theorem failInUse_mem (c : Clock) (p : Pkg) (q : Nat) : (failInUse c p q).mem = p.mem := by
  rw [failInUse]
  split
  · exact failPort_mem p c q
  · rfl

theorem rget_failInUse_ne (c : Clock) (p : Pkg) {q o : Nat} (h : countReg o = false) (hq : o ≠ rFabPstate q) :
    rget (failInUse c p q) o = rget p o := by
  rw [failInUse]
  split
  · exact rget_failPort_ne p c h hq
  · rfl

/-- A port's state is one of those not in use. -/
def NotInUse (p : Pkg) (q : Nat) : Prop := rfld p (rFabPstate q) 2 0 ≠ 1 ∧ rfld p (rFabPstate q) 2 0 ≠ 2

theorem notInUse_failInUse_self (c : Clock) (p : Pkg) {q : Nat} (hq : q < 128) : NotInUse (failInUse c p q) q := by
  rw [failInUse, NotInUse]
  split
  case isTrue =>
    rw [rfld_failPort p c hq hq, if_pos rfl]
    decide
  case isFalse h => exact not_or.mp h

theorem NotInUse.failInUse {p : Pkg} {r : Nat} (h : NotInUse p r) (c : Clock) {q : Nat} (hq : q < 128) (hr : r < 128) :
    NotInUse (failInUse c p q) r := by
  by_cases hrq : r = q
  · subst hrq
    exact notInUse_failInUse_self c p hr
  · rw [NotInUse, rfld, rget_failInUse_ne c p (countReg_rFabPstate hr) (mt rFabPstate_inj.mp hrq)]
    exact h

/-- Of the ports of a list none is in use once they have failed; memory, and what an FD shows, stay. -/
theorem failPorts_shows (p : Pkg) (c : Clock) {l : List Nat} (hl : ∀ q ∈ l, q < 128) {d : Nat} (hd : d < 4) :
    ((failPorts p c l).mem = p.mem ∧ rget (failPorts p c l) (rFabFdstat d) = rget p (rFabFdstat d)) ∧
      ∀ q ∈ l, NotInUse (failPorts p c l) q := by
  have hkept : ∀ q, q.mem = p.mem ∧ rget q (rFabFdstat d) = rget p (rFabFdstat d) → ∀ a ∈ l,
      (failInUse c q a).mem = p.mem ∧ rget (failInUse c q a) (rFabFdstat d) = rget p (rFabFdstat d) := fun q ⟨hmem, hreg⟩ a ha =>
    ⟨(failInUse_mem c q a).trans hmem,
      (rget_failInUse_ne c q (countReg_rFabFdstat hd) (rFabFdstat_ne_rFabPstate (hl a ha) d)).trans hreg⟩
  obtain ⟨hp, hfailed⟩ := foldl_reaches (P := fun q a => a < 128 → NotInUse q a) hkept
    (fun q _ _ _ hlt => notInUse_failInUse_self c q hlt) (fun _ _ a ha _ hb hlt => (hb hlt).failInUse c (hl a ha) hlt) ⟨rfl, rfl⟩
  exact ⟨hp, fun q hq => hfailed q hq (hl q hq)⟩

/-- Settles O24: each command by its equation, then what the lemmas above say of the package that it leaves. -/
theorem routesLanesLasers : Obligations.RoutesLanesLasers := by
  refine ⟨⟨fun s w ports hw hd ht => ?drain, fun s ports hw hne => ?own, fun s q hw hf hfirst => ?repair, fun s w hw ht => ?switched⟩,
    ⟨fun s q f lane spare hu => ⟨fun hfree hl hs htaken hn hf => ?agreed, fun hfull => ?full⟩, fun s q f lane spare hw hf => ?sends,
      fun s q f lane spare hw hf => ?serves⟩,
    fun s d i hon hi hm => ⟨fun hp => ?moves, fun hp => ?fails⟩⟩
  case drain =>
    exact ⟨_, exec_routeDrainStart_pending ports hw hd ht,
      fun q => (drained_of_draining rfl rfl q).trans (contains_portNumbers ports q), rfl, rfl⟩
  case own =>
    have hne' : ports.map (fun q => q.val) ≠ [] := mt List.map_eq_nil_iff.mp hne
    have hexec := exec_routeDrainStart_own ports hw
    rw [ownSwitch_of_ports _ _ hne'] at hexec
    exact ⟨_, _, hexec, rfl, rfl, rbit_switchAt _ _ _, fun q => (drained_of_draining rfl rfl q).trans (contains_portNumbers ports q), rfl⟩
  case repair =>
    obtain ⟨hahead, hgrid, hnext⟩ := boundaryAfter_spec s.pkg s.clk q
    have hexec := exec_routeDrainStart_own [] hw
    rw [List.map_nil, ownSwitch_of_failed _ q.isLt hf hfirst] at hexec
    exact ⟨_, _, hexec, rfl, hahead, hgrid, hnext, rbit_switchAt _ _ _, rfl⟩
  case switched =>
    obtain ⟨hbank, hpend, hnone, hmem, hreg⟩ := bankSwitched_shows s.pkg
    have hout := outward_foldl (fun q o => outward_complete q s.clk o.1 0 0#16 0 o.2 false) w.ops (bankSwitched s.pkg)
    exact ⟨_, _, exec_routeSwitch hw ht, rfl, hbank, hpend, hnone, hmem, hreg, drained_of_none (hout.rswitch.trans hnone)⟩
  case agreed => exact ⟨_, exec_laneSwap_agreed hu hfree hl hs htaken hn hf, swap_withSwap _ _ _, rfl, rfl⟩
  case full =>
    refine ⟨_, exec_laneSwap_full f lane spare hu hfull, ?_, failPort_mem _ _ _⟩
    rw [rfld_failPort _ _ q.isLt q.isLt, if_pos rfl]
  case sends => exact ⟨_, exec_laneSwitch_sends hw hf, swap_withSwap _ _ _, rfld_laneSends _ _ _ _ _, rfl⟩
  case serves =>
    refine ⟨_, exec_laneSwitch_serves hw hf, ?_, ?_, ?_, ?_, ?_⟩
    · rw [(outward_actionDone _ _ _ _ _ _).ports, laneShown_ports, port_laneServes]
    · rw [(outward_actionDone _ _ _ _ _ _).ports, laneShown_ports, port_laneServes]
    · rw [rbit_actionDone_ne _ _ _ _ _ _ _ (eventReg_of_countReg (countReg_rFabPstate q.isLt)) (by unfold rFabPstate rHltSwaps; omega),
        rbit_laneShown _ q.isLt]
    · rw [rget_actionDone_swaps, rget_laneShown_swaps _ q.isLt, rget_laneServes]
    · rw [(outward_actionDone _ _ _ _ _ _).mem, laneShown_mem, laneServes_mem]
  case moves =>
    have hi' : i.val < 3 := by omega
    have hne : i ≠ 3 := mt (congrArg Fin.val) hi
    exact ⟨_, exec_laserLoss_moves hon hne hm (moveLaser_of_power hi' hm hp), fibresMoved_shows s.pkg hi'⟩
  case fails =>
    have hi' : i.val < 3 := by omega
    have hne : i ≠ 3 := mt (congrArg Fin.val) hi
    obtain ⟨⟨hmem, hreg⟩, hfed⟩ := failPorts_shows (inputDark s.pkg d i) s.clk (l := fedBy s.pkg d i) (fun _ => lt_of_mem_fedBy) d.isLt
    refine ⟨_, exec_laserLoss_fails hon hne hm (moveLaser_of_dark hi' hp), ?_, hmem, hfed⟩
    rw [rbit, hreg, ← rbit, rbit_inputDark_self _ hi']

end Sys2Proof.Machine
end

section
/-! PROOFS. Packets for another place (R303, R318, R320, R322): O30. -/

namespace Sys2Proof.Machine

/-- A packet in transit waits on its port for its slot. -/
def transitAdd (p : Pkg) (q : Nat) (w : Wire) : Pkg :=
  let x := sget p.ports q {}
  { p with ports := sset p.ports q { x with transit := x.transit ++ [w] } }

/-- An open packet is queued, and holds room in the buffer of the port that it came by. -/
def heldOnward (p : Pkg) (q : Nat) (w : Wire) (n : Nat) : Pkg := bufferTake { p with fwd := p.fwd ++ [{ w with via := some q }] } q n

/-- Where a packet goes that did not come in a scheduled slot. -/
def sendOnward (p : Pkg) (c : Clock) (q hops : Nat) (pkt : List Byte) : Pkg :=
  match route p (placeOf (parseHdr pkt).daddr) (parseHdr pkt).ty with
  | none => creditBack (bump p rFabNoroute) q pkt
  | some r =>
    if 5 < hops + 1 then creditBack (bump p rFabHopdrop) q pkt
    else if (parseHdr pkt).ty = 0x10 ∨ (parseHdr pkt).ty = 0x11 ∨ isWaggle (parseHdr pkt).ty then
      { p with answers := p.answers ++ [Safety.onward c r hops pkt] }
    else if !bit (parseHdr pkt).flags 0 then { p with fwd := p.fwd ++ [Safety.onward c r hops pkt] }
    else if openBuffer < (sget p.ports q {}).held + flitsOf pkt then p
    else heldOnward p q (Safety.onward c r hops pkt) (flitsOf pkt)

/-- A packet for another place, not of a link-local type, is sampled and goes on by its kind. -/
theorem exec_packetForward {s : State} {q : Fin 128} (hops : Nat) {pkt : List Byte} (sched : Bool) (hc : carries s.pkg q (parseHdr pkt).ty = true)
    (hp : placeOf (parseHdr pkt).daddr ≠ ownPlace s.pkg) (ht : (parseHdr pkt).ty < 0x30 ∨ 0x33 < (parseHdr pkt).ty) :
    exec (.packetForward q hops pkt false sched) s = .next (Safety.withPkg s
      (let p := owl s.pkg s.clk q false pkt
      if sched then transitAdd p q { port := q, bytes := pkt, hops := hops, tick := s.clk.gsc, poison := false }
      else sendOnward p s.clk q hops pkt)) := by
  have hlocal : (decide (0x30 ≤ (parseHdr pkt).ty) && decide ((parseHdr pkt).ty ≤ 0x33)) = false := by
    rw [Bool.and_eq_false_iff, decide_eq_false_iff_not, decide_eq_false_iff_not]
    omega
  rw [show exec (.packetForward q hops pkt false sched) s = execPacketForward q hops pkt false sched s from rfl, execPacketForward, run_eq]
  simp only [hc, hlocal, beq_false_of_ne hp, Bool.not_true, Bool.or_self, Bool.false_eq_true, if_false]
  rfl

section
variable {p : Pkg} (c : Clock) (q : Nat) {hops : Nat} {pkt : List Byte}

theorem sendOnward_unrouted (hops : Nat) (h : route p (placeOf (parseHdr pkt).daddr) (parseHdr pkt).ty = none) :
    sendOnward p c q hops pkt = creditBack (bump p rFabNoroute) q pkt := by
  rw [sendOnward, h]

variable {r : Nat} (hr : route p (placeOf (parseHdr pkt).daddr) (parseHdr pkt).ty = some r)
include hr

theorem sendOnward_far (hh : 5 ≤ hops) : sendOnward p c q hops pkt = creditBack (bump p rFabHopdrop) q pkt := by
  rw [sendOnward, hr]
  exact if_pos (Nat.lt_succ_of_le hh)

variable (hh : hops < 5)
include hh

theorem sendOnward_answer (ha : (parseHdr pkt).ty = 0x10 ∨ (parseHdr pkt).ty = 0x11 ∨ isWaggle (parseHdr pkt).ty = true) :
    sendOnward p c q hops pkt = { p with answers := p.answers ++ [Safety.onward c r hops pkt] } := by
  rw [sendOnward, hr]
  simp only [if_neg (show ¬ 5 < hops + 1 by omega), if_pos ha]

variable (ha : ¬((parseHdr pkt).ty = 0x10 ∨ (parseHdr pkt).ty = 0x11 ∨ isWaggle (parseHdr pkt).ty = true))
include ha

theorem sendOnward_queued (ho : bit (parseHdr pkt).flags 0 = false) :
    sendOnward p c q hops pkt = { p with fwd := p.fwd ++ [Safety.onward c r hops pkt] } := by
  rw [sendOnward, hr]
  simp only [if_neg (show ¬ 5 < hops + 1 by omega), if_neg ha, ho, Bool.not_false, if_true]

theorem sendOnward_held (ho : bit (parseHdr pkt).flags 0 = true) (hroom : (sget p.ports q {}).held + flitsOf pkt ≤ 256) :
    sendOnward p c q hops pkt = heldOnward p q (Safety.onward c r hops pkt) (flitsOf pkt) := by
  have hroom : ¬ openBuffer < (sget p.ports q {}).held + flitsOf pkt := not_lt.mpr hroom
  rw [sendOnward, hr]
  simp only [if_neg (show ¬ 5 < hops + 1 by omega), if_neg ha, ho, if_neg hroom, Bool.not_true, Bool.false_eq_true,
    if_false]

end

/-- Settles O30: the command by its equation, then where the packet goes. -/
theorem packetsForwarded : Obligations.PacketsForwarded := by
  intro s q hops pkt hc hp ht p ty answer
  have hexec := exec_packetForward hops false hc hp ht
  simp only [Bool.false_eq_true, if_false] at hexec
  refine ⟨?scheduled, fun hr => ?unrouted, fun r hr => ⟨fun hh => ?far, fun hh ha => ?answer, fun hh ha ho => ?queued,
    fun hh ha ho hroom => ?held⟩⟩
  case scheduled =>
    refine ⟨_, exec_packetForward hops true hc hp ht, ?_, rfl, rfl⟩
    exact congrArg Port.transit (sget_sset_self _ _ _ _)
  case unrouted => rw [hexec, sendOnward_unrouted s.clk q hops hr]
  case far => rw [hexec, sendOnward_far s.clk q hr hh]
  case answer => rw [hexec, sendOnward_answer s.clk q hr hh ha]
  case queued => rw [hexec, sendOnward_queued s.clk q hr hh ha ho]
  case held => rw [hexec, sendOnward_held s.clk q hr hh ha ho hroom]; rfl

end Sys2Proof.Machine
end

section
/-! PROOFS. Collectives: combining elements and lists (R175, R350), the start of operations and of sums, chunks that are produced and
received, values of the waggle path and their pull rounds (R346 to R364): O40. -/

namespace Sys2Proof.Machine

/-! Combining (R175, R350) -/

/-- A sum of two int64 values in range is the wrapped one. -/
theorem ofInt_toInt_add (a b : W64) : BitVec.ofInt 64 (a.toInt + b.toInt) = a + b := by
  rw [BitVec.ofInt_add, BitVec.ofInt_toInt, BitVec.ofInt_toInt]

theorem combine1_int64 (opr : Nat) (a b : W64) : combine1 3 opr a b =
    (if opr = 0 then a + b
     else if opr = 1 then (if b.toInt ≤ a.toInt then a else b)
     else if opr = 2 then (if a.toInt ≤ b.toInt then a else b)
     else if opr = 3 then a &&& b else if opr = 4 then a ||| b else a ^^^ b, 0#16) := by
  rw [combine1, if_neg (by decide), if_pos rfl]

section
variable {a b : W64}

theorem combine1_saturating_below (h : a.toInt + b.toInt < -2 ^ 63) : combine1 4 0 a b = (1#64 <<< 63, fSAT) := by
  simp only [combine1, if_true, if_pos h]
  rfl

theorem combine1_saturating_above (h : 2 ^ 63 ≤ a.toInt + b.toInt) : combine1 4 0 a b = (~~~(1#64 <<< 63), fSAT) := by
  have hlow : ¬ a.toInt + b.toInt < -2 ^ 63 := by omega
  simp only [combine1, if_true, if_neg hlow, if_pos h]
  rfl

theorem combine1_saturating_within (hl : -2 ^ 63 ≤ a.toInt + b.toInt) (hh : a.toInt + b.toInt < 2 ^ 63) :
    combine1 4 0 a b = (a + b, 0#16) := by
  simp only [combine1, if_true, if_neg (not_lt.mpr hl), if_neg (not_le.mpr hh), ofInt_toInt_add]

end

/-! Starting (R357, R364) -/

theorem launchTick_of_find {p : Pkg} {l : Nat} {y : Launch} (h : findLaunch p l = some y) : launchTick p l = y.L := by
  rw [launchTick, h]
  rfl

/-- An issued operation whose tick has come starts. -/
theorem exec_swarmStart_operation {s : State} {n : Nat} {o : SwOp} {y : Launch} (ho : findSw s.pkg n = some o) (hs : o.started = false)
    (hf : o.failed = false) (hy : findLaunch s.pkg o.launch = some y) (ht : y.L + o.ident.off ≤ s.clk.gsc) :
    exec (.swarmStart false n) s = .next (Safety.withPkg s (startSw s.pkg s.clk o)) := by
  rw [show exec (.swarmStart false n) s = execSwarmStart false n s from rfl, execSwarmStart, run_eq]
  simp only [ho, hs, hf, launchTick_of_find hy, decide_eq_false (not_lt.mpr ht), Bool.or_self, Bool.false_eq_true, if_false]

/-- A job's sum whose tick has come, and that holds no value of this member yet, starts with it. -/
theorem exec_swarmStart_sum {s : State} {n : Nat} {j : Job} {y : Launch} (hj : findJob s.pkg n = some j) (hw : j.sparse.waitSum = true)
    (hc : j.closed = false) (hy : findLaunch s.pkg j.launch = some y) (hg : gValid s.pkg j.sparse.group = true)
    (ht : y.L + j.sparse.tick ≤ s.clk.gsc) (hn : wgFind s.pkg (jobIdent s.pkg j) false (gSelf s.pkg j.sparse.group) = none) :
    exec (.swarmStart true n) s =
      .next (Safety.withPkg s (wgCheck (wgStart s.pkg s.clk (Safety.sumValue s.pkg j)) s.clk (jobIdent s.pkg j))) := by
  have hoff : (jobIdent s.pkg j).off = j.sparse.tick := rfl
  have hgroup : (jobIdent s.pkg j).group = j.sparse.group := rfl
  rw [show exec (.swarmStart true n) s = execSwarmStart true n s from rfl, execSwarmStart, run_eq]
  simp only [hj, hw, hc, hoff, hgroup, hg, hn, launchTick_of_find hy, decide_eq_false (not_lt.mpr ht), Bool.not_true, Bool.or_self,
    Option.isSome_none, Bool.false_eq_true, if_false, if_true]
  rfl

/-! Producing (R349, R351) -/

theorem noteCe_badLines (p : Pkg) (l : Nat) : (noteCe p l).badLines = p.badLines := by
  obtain ⟨_, _, _, _, _, h⟩ := noteCe_eq p l
  rw [h]

/-- Correctable lines that a read meets make none uncorrectable. -/
theorem noteCes_badLines (p : Pkg) (rs : List (Nat × Nat)) : (noteCes p rs).badLines = p.badLines := by
  unfold noteCes
  split
  · rfl
  · refine List.foldlRecOn (motive := fun q : Pkg => q.badLines = p.badLines) _ _ rfl fun q hq l _ => ?_
    split
    · rw [noteCe_badLines, hq]
    · exact hq

@[simp] theorem chargeSw_badLines (p : Pkg) (o : SwOp) (wr : Bool) (a n : Nat) : (chargeSw p o wr a n).badLines = p.badLines :=
  enqueueAll_badLines _ _ _

/-- Without uncorrectable lines a chunk is kept. -/
theorem stage_of_noBad {p : Pkg} (h : p.badLines = []) (c : Clock) (o : SwOp) (k : Nat) (d : List Byte × Nat) :
    ∃ q, stage p c o k d = some q := by
  obtain ⟨_, _, _, hw⟩ := writeMem_eq (p := chargeSw p o true (o.db + 65536 * k) d.1.length) ((chargeSw_badLines _ _ _ _ _).trans h) c
    (o.db + 65536 * k) d.1
  exact ⟨_, by simp only [stage, hw]; rfl⟩

/-- Where a chunk goes that its member has produced: to the root of a broadcast, or up the tree of a reduction. -/
def sendProduced (p : Pkg) (c : Clock) (n k : Nat) (o : SwOp) (d : List Byte × Nat) : Pkg :=
  if o.bcast then (if o.root k = 0 then takeResult p c o k d else sendTo p c o k (o.root k) d)
  else if o.self = o.root k then rootResult p c o k d else closeSw (sendTo p c o k (o.parent k) d) n

/-- A produced chunk is kept in the staging area before it goes on; where it cannot be kept, its operation fails. -/
def keepProduced (p : Pkg) (c : Clock) (n k : Nat) (o : SwOp) (d : List Byte × Nat) : Pkg :=
  match stage (chargeSw (noteCes p [Safety.ownPart o k]) o false (Safety.ownPart o k).1 (Safety.ownPart o k).2) c o k d with
  | none => badLineAt p c o (o.db + 65536 * k) d.1.length
  | some q => sendProduced (modChunk (bump q rSwmChunks) n k (fun x => { x with part := some d })) c n k o d

theorem keepProduced_of_noBad {p : Pkg} (h : p.badLines = []) (c : Clock) (n k : Nat) (o : SwOp) (d : List Byte × Nat) :
    keepProduced p c n k o d = sendProduced (Safety.produced p c n k o d) c n k o d := by
  have hb : (chargeSw (noteCes p [Safety.ownPart o k]) o false (Safety.ownPart o k).1 (Safety.ownPart o k).2).badLines = [] := by
    rw [chargeSw_badLines, noteCes_badLines, h]
  obtain ⟨q, hq⟩ := stage_of_noBad hb c o k d
  rw [keepProduced, Safety.produced, hq]
  rfl

/-- A chunk that is due from this member: member 0's own data in a broadcast, or its partial of a reduction once its children's are in. -/
theorem exec_chunkProduce {s : State} {n k : Nat} {o : SwOp} (ho : findSw s.pkg n = some o) (hs : o.started = true)
    (hc : o.closed = false) (hf : o.failed = false) (hw : o.waggle = false) (hk : k < o.nc) (hp : (sget o.chunks k {}).part = none)
    (hb : s.pkg.badLines = []) (hm : (o.bcast && o.self != 0) = false) :
    let own := o.own s.pkg.mem (65536 * k / o.w) (o.clen k / o.w)
    let produce := keepProduced s.pkg s.clk n k o
    exec (.chunkProduce n k) s = .next (Safety.withPkg s
      (if o.bcast then produce (own, 0) else (kidChunks s.pkg o k).elim s.pkg fun xs =>
        produce (xs.foldl (combineBytes (if o.dt = 2 then 1 else o.dt) o.opr) (own, 0)))) := by
  intro own produce
  rw [show exec (.chunkProduce n k) s = execChunkProduce n k s from rfl, execChunkProduce, run_eq]
  simp only [ho, hs, hc, hf, hw, hp, hm, decide_eq_false (not_le.mpr hk), firstBad_of_noBad hb, Bool.not_true, Bool.or_self,
    Option.isSome_none, Bool.false_eq_true, if_false]
  cases kidChunks s.pkg o k <;> rfl

/-! Receiving (R346, R353, R356) -/

section
variable {s : State} {q : Fin 128} {pkt : List Byte}

theorem exec_swData (ha : Safety.Arrives s.pkg q pkt 0x20) : exec (.swData q pkt false) s = .next (Safety.withPkg s
    (sequenced (Safety.heard s.pkg s.clk q pkt) s.clk (parseHdr pkt) none
      (fun p => (takeSw p s.clk (parseHdr pkt) pkt (parseSw pkt).frag, .ok [])))) := by
  rw [show exec (.swData q pkt false) s = execSwData q pkt false s from rfl, execSwData, run_eq, arrive_of_arrives s.clk ha]

theorem exec_swTail (ha : Safety.Arrives s.pkg q pkt 0x21) : exec (.swTail q pkt false) s = .next (Safety.withPkg s
    (sequenced (Safety.heard s.pkg s.clk q pkt) s.clk (parseHdr pkt) none (fun p => (takeSw p s.clk (parseHdr pkt) pkt 16, .ok [])))) := by
  rw [show exec (.swTail q pkt false) s = execSwTail q pkt false s from rfl, execSwTail, run_eq, arrive_of_arrives s.clk ha]

theorem exec_swPull (ha : Safety.Arrives s.pkg q pkt 0x22) : exec (.swPull q pkt false) s = .next (Safety.withPkg s
    (sequenced (Safety.heard s.pkg s.clk q pkt) s.clk (parseHdr pkt) none (fun p => resendChunk p s.clk (parseHdr pkt) pkt))) := by
  rw [show exec (.swPull q pkt false) s = execSwPull q pkt false s from rfl, execSwPull, run_eq, arrive_of_arrives s.clk ha]

end

/-! The waggle path (R346, R360, R363) -/

theorem mismatchFault_of_running {o : SwOp} (h : o.failed = false) (p : Pkg) (c : Clock) :
    mismatchFault p c o = planFault (bump (loseSw p o.id) rSwmMismatch) c o.tile 0x0C 3 0 0 :=
  if_neg (Bool.eq_false_iff.mp h)

section
variable {s : State} {q : Fin 128} {pkt : List Byte}

/-- A value that arrives is compared with the operation of its identity; one that agrees and is new goes its way. -/
theorem exec_wgData {odd : Option SwOp} (ha : Safety.Arrives s.pkg q pkt 0x23)
    (ho : disagrees (Safety.heard s.pkg s.clk q pkt) (wgOf pkt).ident (wgOf pkt).opr (wgOf pkt).dt (wgOf pkt).nelem = odd) :
    let p := Safety.heard s.pkg s.clk q pkt
    let v := wgOf pkt
    exec (.wgData q pkt false) s = .next (Safety.withPkg s
      (odd.elim (if wgHas p v then p else wgCheck (wgArrive p s.clk v) s.clk v.ident) (mismatchFault p s.clk))) := by
  rw [show exec (.wgData q pkt false) s = execWgData q pkt false s from rfl, execWgData, run_eq, arrive_of_arrives s.clk ha]
  simp only [ho]
  cases odd <;> rfl

/-- A pull for a value that is held is answered with it. -/
theorem exec_wgPull_held {x : WgVal} (ha : Safety.Arrives s.pkg q pkt 0x24)
    (hd : disagrees (Safety.heard s.pkg s.clk q pkt) (wgOf pkt).ident (wgOf pkt).opr (wgOf pkt).dt (wgOf pkt).nelem = none)
    (hx : wgFind (Safety.heard s.pkg s.clk q pkt) (wgOf pkt).ident ((wgOf pkt).hop != 0) (wgOf pkt).src = some x) :
    exec (.wgPull q pkt false) s =
      .next (Safety.withPkg s (sendWg (Safety.heard s.pkg s.clk q pkt) s.clk 0x23 (parseHdr pkt).src x (wgOf pkt).hop)) := by
  rw [show exec (.wgPull q pkt false) s = execWgPull q pkt false s from rfl, execWgPull, run_eq, arrive_of_arrives s.clk ha]
  simp only [hd, hx]

end

/-- A pull round of a waggle operation that is due asks for what is missing while its limit is not reached, and fails it then. -/
theorem exec_waggleTimeout_operation {s : State} {n : Nat} {o : SwOp} {y : Launch} (ho : findSw s.pkg n = some o) (hs : o.started = true)
    (hc : o.closed = false) (hf : o.failed = false) (hw : o.waggle = true) (hy : findLaunch s.pkg o.launch = some y)
    (hd : roundDue s.pkg s.clk y.L o.ident o.wpulls = true) :
    exec (.waggleTimeout 0 n) s = .next (Safety.withPkg s
      (if o.plim ≤ o.wpulls then failSw s.pkg s.clk o 0x22
       else pullRound (modSw s.pkg n Safety.pulled) s.clk (lackOf o.ident o.opr o.dt o.nelem))) := by
  rw [show exec (.waggleTimeout 0 n) s = execWaggleTimeout 0 n s from rfl, execWaggleTimeout, run_eq]
  simp only [ho, hs, hc, hf, hw, launchTick_of_find hy, hd, Bool.not_true, Bool.or_self, Bool.false_eq_true, if_false, if_true]
  rfl

/-- Settles O40: the combines by their cases, then each command by its equation. -/
theorem collectives : Obligations.Collectives := by
  refine ⟨⟨fun a b => ?int64, fun a b => ⟨combine1_saturating_within, combine1_saturating_below, combine1_saturating_above⟩,
      fun _ _ _ _ _ => rfl⟩,
    fun s n o y ho hs hf hy => exec_swarmStart_operation ho hs hf hy,
    fun s n j y hj hw hc hy hg ht => exec_swarmStart_sum hj hw hc hy hg ht,
    ?chunks, ?packets, ?values, fun s n o y ho hs hc hf hw hy hd => ⟨fun hl => ?round, fun hl => ?limit⟩⟩
  case int64 =>
    simp only [combine1_int64]
    exact ⟨rfl, rfl, rfl, rfl, rfl, rfl⟩
  case chunks =>
    intro s n k o ho hs hc hf hw hk hp hb own
    refine ⟨fun hbc h0 hr => ?broadcast, fun xs hbc hx hr => ?reduce⟩
    case broadcast =>
      rw [exec_chunkProduce ho hs hc hf hw hk hp hb (by rw [h0, bne_self_eq_false, Bool.and_false]), if_pos hbc, keepProduced_of_noBad hb,
        sendProduced, if_pos hbc, if_neg hr]
    case reduce =>
      have hn : ¬ o.bcast = true := Bool.eq_false_iff.mp hbc
      rw [exec_chunkProduce ho hs hc hf hw hk hp hb (by rw [hbc, Bool.false_and]), if_neg hn, hx, Option.elim_some,
        keepProduced_of_noBad hb, sendProduced, if_neg hn, if_neg hr]
  case packets =>
    intro s q pkt p h hfr
    refine ⟨fun ha => ?data, fun ha => ?tail, fun p' ha hr => ?pull⟩
    case data => rw [exec_swData ha, sequenced_acked s.clk hfr rfl]
    case tail => rw [exec_swTail ha, sequenced_acked s.clk hfr rfl]
    case pull => rw [exec_swPull ha, sequenced_acked s.clk hfr hr]
  case values =>
    intro s q pkt p w odd
    refine ⟨fun o ha ho hf => ?mismatch, fun ha ho hn => ?new, fun ha ho hh => ?held, fun x => exec_wgPull_held⟩
    case mismatch => rw [exec_wgData ha ho, Option.elim_some, mismatchFault_of_running hf]
    case new => rw [exec_wgData ha ho, Option.elim_none, if_neg (Bool.eq_false_iff.mp hn)]
    case held => rw [exec_wgData ha ho, Option.elim_none, if_pos hh]
  case round => rw [exec_waggleTimeout_operation ho hs hc hf hw hy hd, if_neg (not_le.mpr hl)]
  case limit => rw [exec_waggleTimeout_operation ho hs hc hf hw hy hd, if_pos hl]

end Sys2Proof.Machine
end

section
/-! PROOFS. A descriptor that is carried out and its completion (R397, R402), and what the den's reads and new placements leave as it is
(R272 to R278, R303): the rules that checkpoints and restores rest on. -/

namespace Sys2Proof.Machine

/-! A descriptor that is carried out (R397, R402) -/

theorem withOp_of_begins {s : State} {id kind : Nat} {o : Op} (h : Safety.Begins s.pkg id kind o) (f : Clock → Pkg → Op → Pkg) :
    withOp s id [kind] f = .next (Safety.withPkg s (f s.clk (beginOp s.pkg id) o)) := by
  obtain ⟨hf, hw, hk, hd, hr⟩ := h
  have hc : [kind].contains (field o.desc 0 1) = true := List.contains_iff_mem.mpr (List.mem_singleton.mpr hk)
  simp only [withOp, run_eq, hf, hw, hc, hd, hr, Bool.not_true, Bool.or_self, Bool.false_eq_true, if_false]

theorem id_of_findOp {p : Pkg} {id : Nat} {o : Op} (h : findOp p id = some o) : o.id = id :=
  beq_iff_eq.mp (List.find?_some (p := fun o : Op => o.id == id) h)

/-- No operation outlives its completion. -/
theorem findOp_complete (p : Pkg) (c : Clock) (id status : Nat) (flags : Flags) (value aux : Nat) (report : Bool) :
    findOp (complete p c id status flags value aux report) id = none := by
  cases h : findOp p id with
  | none =>
    unfold complete
    rw [h]
    exact h
  | some o =>
    rw [findOp, complete_ops p c id status flags value aux report o h, List.find?_eq_none]
    intro x hx
    simpa only [bne_iff_ne, beq_iff_eq] using (List.mem_filter.mp hx).2

/-! Memory, launches, and the den's policy with its windows -/

/-- The part of a package that the den's reads, the ends of cuts and new placements leave as it is. -/
def steadyPart (p : Pkg) : Mem × List Launch × Option (List Byte) × Nat × List Nat :=
  (p.mem, p.launches, p.den.pol, p.den.from_, p.den.released)

section
variable {p q : Pkg} (h : steadyPart q = steadyPart p)
include h

theorem mem_of_steady : q.mem = p.mem := congrArg (fun x => x.1) h
theorem launches_of_steady : q.launches = p.launches := congrArg (fun x => x.2.1) h

end

theorem Outward.steady {p q : Pkg} (h : Outward p q) : steadyPart q = steadyPart p := by
  obtain ⟨_, _, _, _, _, rfl⟩ := h
  rfl

theorem steady_foldl {α : Type} {f : Pkg → α → Pkg} (h : ∀ p a, steadyPart (f p a) = steadyPart p) (l : List α) (p : Pkg) :
    steadyPart (l.foldl f p) = steadyPart p :=
  List.foldlRecOn (motive := fun q => steadyPart q = steadyPart p) l f rfl (fun q hq a _ => (h q a).trans hq)

/-! Reads of the den (R303) -/

section
variable (p : Pkg) (c : Clock)

theorem steady_noteCe (l : Nat) : steadyPart (noteCe p l) = steadyPart p := by
  obtain ⟨_, _, _, _, _, h⟩ := noteCe_eq p l
  rw [h]
  rfl

theorem steady_noteCes (rs : List (Nat × Nat)) : steadyPart (noteCes p rs) = steadyPart p := by
  unfold noteCes
  split
  · rfl
  · refine steady_foldl (fun q l => ?_) _ p
    split
    · exact steady_noteCe q l
    · rfl

theorem steady_readMem (a n : Nat) : steadyPart (readMem p c a n).1 = steadyPart p := by
  unfold readMem
  split
  · exact (outward_noteUe p c _).steady
  · exact steady_noteCes p _

theorem steady_srvLoad (a n : Nat) : steadyPart (srvLoad p c a n).1 = steadyPart p := by
  unfold srvLoad
  split_ifs
  · rfl
  · rfl
  · split
    · rfl
    · rfl
    · exact steady_readMem p c a n

theorem steady_enqueueAll (part : Nat) (rs : List HbmReq) : steadyPart (enqueueAll p part rs) = steadyPart p := by
  obtain ⟨_, h⟩ := enqueueAll_eq p part rs
  rw [h]
  rfl

theorem steady_denOwnRead (a n : Nat) : steadyPart (denOwnRead p c a n).1 = steadyPart p := by
  have h := (steady_srvLoad (enqueueAll p 2 (chargeReads .den [(a, n)])) c a n).trans (steady_enqueueAll p 2 _)
  unfold denOwnRead
  split
  · next e => rwa [e] at h
  · next e => rwa [e] at h

theorem steady_denAskPiece (e : Nat × Nat) : steadyPart (denAskPiece c p e) = steadyPart p := by
  unfold denAskPiece
  simp only
  split_ifs
  · rfl
  · rfl
  · exact steady_denOwnRead p c _ _
  · split
    · rfl
    · rfl

theorem steady_denAsk (l : List DenAsk) : steadyPart (denAsk p c l) = steadyPart p := by
  refine steady_foldl (fun q x => ?_) l p
  split
  · rfl
  · exact steady_foldl (fun q e => steady_denAskPiece q c e) _ q

theorem steady_askSlots (b : List Byte) : steadyPart (askSlots p c b) = steadyPart p :=
  (steady_denAsk _ c _).trans (steady_denAsk p c _)

theorem steady_denForget (l : List DenAsk) : steadyPart (denForget p l) = steadyPart p := rfl

/-! Placements and the ledger (R272, R278) -/

theorem steady_answerTest (x : Placed) (status aux : Nat) : steadyPart (answerTest p c x status aux) = steadyPart p := by
  have hm : ∀ l, steadyPart (if x.mon = true then monLine p l else p) = steadyPart p := by
    intro l
    unfold monLine
    split_ifs <;> rfl
  unfold answerTest
  simp only
  split
  · exact (outward_complete _ _ _ _ _ _ _ _).steady.trans (hm _)
  · exact hm _

theorem steady_deferPlaced (x : Placed) : steadyPart (deferPlaced p c x) = steadyPart p := by
  unfold deferPlaced
  simp only
  split_ifs
  · exact (outward_event _ _ _ _ _ _).steady.trans (steady_answerTest _ _ _ _ _)
  · exact steady_answerTest _ _ _ _ _
  · exact (outward_rsetb _ _ _ _).steady.trans (outward_logEntry _ _ _ _ _ _ _).steady

theorem steady_placeOne (x : Placed) : steadyPart (placeOne p c x) = steadyPart p := by
  unfold placeOne
  split
  · exact steady_deferPlaced p c x
  · rfl

theorem steady_enterLedger (e : Ledger) : steadyPart (enterLedger p c e) = steadyPart p :=
  steady_foldl (fun q y => steady_placeOne q c y) _ _

theorem outward_noteFurther (l status : Nat) (codes : List Nat) : Outward p (noteFurther p c l status codes) :=
  outward_foldl (fun q d => outward_logEntry q c 0x0102 0xFF status l d) _ p

end

end Sys2Proof.Machine
end

section
/-! PROOFS. Checkpoints: policies armed and disarmed, cuts asked for, started, written, voted and committed or abandoned, windows
released (R366 to R375): O38. -/

namespace Sys2Proof.Machine

/-! Cuts that are known -/

theorem cn_of_findCut {p : Pkg} {cn : Nat} {x : Cut} (h : findCut p cn = some x) : x.cn = cn :=
  beq_iff_eq.mp (List.find?_some (p := fun x : Cut => x.cn == cn) h)

/-! Arming and disarming (R367, R381) -/

section
variable (p : Pkg) (c : Clock)

theorem steady_closeCut (x : Cut) (status reason ev aux : Nat) : steadyPart (closeCut p c x status reason ev aux) = steadyPart p :=
  (steady_foldl (fun q o => (outward_complete q c o status 0#16 x.cn reason false).steady) _ _).trans
    ((outward_event _ _ _ _ _ _).steady.trans rfl)

theorem steady_abandonCut (x : Cut) (reason : Nat) : steadyPart (abandonCut p c x reason false) = steadyPart p :=
  (steady_closeCut _ c x _ _ _ _).trans rfl

theorem steady_dropPending : steadyPart (dropPending p c) = steadyPart p :=
  steady_foldl (fun q x => steady_abandonCut q c x 0) _ p

theorem steady_keepBegun : steadyPart (keepBegun p c) = steadyPart p := by
  unfold keepBegun
  split
  · rfl
  · simp only
    split_ifs <;> rfl

theorem steady_armWith (b man : List Byte) (r : SlotReads) :
    steadyPart (armWith p c b man r) = (p.mem, p.launches, some (b ++ man), firstWindow b c.gsc, []) := by
  have h : steadyPart (dropPending (keepBegun p c) c) = steadyPart p := (steady_dropPending _ c).trans (steady_keepBegun p c)
  unfold armWith
  generalize dropPending (keepBegun p c) c = q at h ⊢
  rw [← mem_of_steady h, ← launches_of_steady h, steady_foldl (fun q y => steady_placeOne q c y)]
  rfl

/-- An armed policy governs from the first window that begins at or after now; none of its windows is released. -/
theorem armed_shows {p q : Pkg} {c : Clock} {b man : List Byte} {r : SlotReads} {op : Nat}
    (h : complete (armWith p c b man r) c op 0 0#16 0 0 false = q) :
    q.mem = p.mem ∧ q.den.pol = some (b ++ man) ∧ q.den.from_ = firstWindow b c.gsc ∧ q.den.released = [] := by
  have hs := h ▸ (outward_complete (armWith p c b man r) c op 0 0#16 0 0 false).steady.trans (steady_armWith p c b man r)
  simp only [steadyPart, Prod.mk.injEq] at hs
  obtain ⟨hmem, -, hpol, hfrom, hrel⟩ := hs
  exact ⟨hmem, hpol, hfrom, hrel⟩

end

/-- A policy record b and its manifest m stand in HBM for a descriptor that arms them, in a package without claims, policy or erroneous
lines (R367). -/
structure PolicyStands (p : Pkg) (o : Op) (b m : List Byte) : Prop where
  arms : field o.desc 4 1 = 1
  recordIn : field o.desc 8 8 + 256 ≤ hbmUserEnd
  clocked : p.pins.refLost = false
  clean : Clean p
  record : mread p.mem (field o.desc 8 8) 256 = b
  rows : polNext b ≤ 1024
  manifestIn : field b 64 8 + 32 * polNext b ≤ hbmUserEnd
  manifest : mread p.mem (field b 64 8) (32 * polNext b) = m
  good : polOk p b m = true
  unarmed : p.den.pol = none
  unclaimed : p.ledger = []

section
variable {s : State} {op : Nat} {o : Op} (h : Safety.Begins s.pkg op 4 o)
include h

theorem exec_checkpointArm_outside (rd : SlotReads) (hk : field o.desc 4 1 = 1) (ha : hbmUserEnd < field o.desc 8 8 + 256) :
    exec (.checkpointArm op rd) s = .next (Safety.withPkg s (complete (beginOp s.pkg op) s.clk op 0x12 0#16 0 0 false)) := by
  rw [show exec (.checkpointArm op rd) s = execCheckpointArm op rd s from rfl, execCheckpointArm, withOp_of_begins h]
  simp only [hk, ne_eq, not_true_eq_false, if_false, if_pos (Or.inr ha : (beginOp s.pkg op).pins.refLost = true ∨ _)]
  rfl

theorem exec_checkpointArm {b m : List Byte} {p : Pkg} (hs : PolicyStands s.pkg o b m) (hask : askSlots (beginOp s.pkg op) s.clk b = p)
    (rd : SlotReads) : exec (.checkpointArm op rd) s = .next (Safety.withPkg s ((slotReads p b rd).elim (opStays p o) fun r =>
      complete (armWith (denForget p (slotAsks p b)) s.clk b m r) s.clk op 0 0#16 0 0 false)) := by
  obtain ⟨hk, ha, hl, hc, hb, hn, hm, hman, hok, hp, hled⟩ := hs
  have hq : Clean (beginOp s.pkg op) := hc
  have hcomb : hbmUserEnd < combBase 0 := by decide
  have hrec : readMem (beginOp s.pkg op) s.clk (field o.desc 8 8) 256 = (beginOp s.pkg op, .ok b) := by
    rw [readMem_of_clean hq _ (by omega)]
    exact congrArg (fun l => (_, Except.ok l)) hb
  have hrows : readMem (beginOp s.pkg op) s.clk (field b 64 8) (32 * polNext b) = (beginOp s.pkg op, .ok m) := by
    rw [readMem_of_clean hq _ (by omega)]
    exact congrArg (fun l => (_, Except.ok l)) hman
  have hin : ¬((beginOp s.pkg op).pins.refLost = true ∨ hbmUserEnd < field o.desc 8 8 + 256) :=
    not_or.mpr ⟨Bool.eq_false_iff.mp hl, Nat.not_lt.mpr ha⟩
  have hman' : ¬(1024 < polNext b ∨ hbmUserEnd < field b 64 8 + 32 * polNext b) := not_or.mpr ⟨Nat.not_lt.mpr hn, Nat.not_lt.mpr hm⟩
  have hok' : polOk (beginOp s.pkg op) b m = true := hok
  have hroom : decide (2048 ≤ ledgerUsed (beginOp s.pkg op) s.clk) = false := by
    rw [ledgerUsed_of_empty (p := beginOp s.pkg op) s.clk hled hp]
    rfl
  have hfree : (prune (beginOp s.pkg op) s.clk).ledger = [] := by
    rw [prune_of_empty (p := beginOp s.pkg op) s.clk hled]
    exact hled
  rw [show exec (.checkpointArm op rd) s = execCheckpointArm op rd s from rfl, execCheckpointArm, withOp_of_begins h]
  simp only [hk, ne_eq, not_true_eq_false, if_false, if_neg hin, hrec, if_neg hman', hrows, hok', hroom, hfree, List.any_nil, Bool.not_true,
    hask, Bool.and_false, Bool.or_self, Bool.false_eq_true]
  cases slotReads p b rd <;> rfl

theorem exec_checkpointDisarm (hk : field o.desc 4 1 = 2) : exec (.checkpointDisarm op) s =
    .next (Safety.withPkg s (complete (disarm (beginOp s.pkg op) s.clk) s.clk op 0 0#16 0 0 false)) := by
  rw [show exec (.checkpointDisarm op) s = execCheckpointDisarm op s from rfl, execCheckpointDisarm, withOp_of_begins h]
  simp only [hk, ne_eq, not_true_eq_false, if_false]
  rfl

/-! Requests for a cut (R368, R369) -/

theorem exec_checkpointCut (hk : field o.desc 4 1 = 3) : exec (.checkpointCut op) s = .next (Safety.withPkg s
    (s.pkg.den.pol.elim (complete (beginOp s.pkg op) s.clk op 0x12 0#16 0 0 false)
      fun b => requestCut (beginOp s.pkg op) s.clk b (some op))) := by
  rw [show exec (.checkpointCut op) s = execCheckpointCut op s from rfl, execCheckpointCut, withOp_of_begins h]
  simp only [hk, ne_eq, not_true_eq_false, if_false, show (beginOp s.pkg op).den = s.pkg.den from rfl]
  cases s.pkg.den.pol <;> rfl

end

/-- A cut that becomes known waits for its tick. -/
theorem findCut_noteCut {p : Pkg} {cn : Nat} (b : List Byte) (op : Option Nat) (h : findCut p cn = none) :
    findCut (noteCut p cn b op) cn = some { cn := cn, held := true, ops := op.toList, pol := b } ∧ (noteCut p cn b op).mem = p.mem := by
  have hq : findCut (rset (rset p rDenCutLo (cn % 2 ^ 32)) rDenCutHi (cn / 2 ^ 32)) cn = none := h
  simp only [noteCut, hq]
  refine ⟨?_, rfl⟩
  rw [findCut] at h ⊢
  simp only [rset_den, List.find?_append, h, Option.none_or, List.find?_cons, beq_self_eq_true]

theorem exec_denNoticeCut {s : State} {n src : Nat} {b : List Byte} (hb : s.pkg.den.pol = some b)
    (hn : noticeHeld s.pkg (polGroup b) (polCut b n) 1 src = true) (hx : findCut s.pkg (polCut b n) = none)
    (ht : s.clk.gsc + polLead b ≤ polCut b n + 4 * gWwc s.pkg (polGroup b)) (hf : s.pkg.den.from_ ≤ n) (hr : n ∉ s.pkg.den.released)
    (hp : 0 < polPeriod b) : exec (.denNoticeCut (polCut b n) src) s = .next (Safety.withPkg s (noteCut s.pkg (polCut b n) b none)) := by
  have hw : (polCut b n - polBase b) / max 1 (polPeriod b) = n := by
    rw [polCut, Nat.add_sub_cancel_left, max_eq_right hp, Nat.mul_div_cancel _ hp]
  have hle : ¬polCut b n < polBase b := Nat.not_lt.mpr (Nat.le_add_right _ _)
  rw [show exec (.denNoticeCut (polCut b n) src) s = execDenNoticeCut (polCut b n) src s from rfl, execDenNoticeCut, run_eq]
  simp only [hb, hw, hn, hx, hle, Nat.not_lt.mpr hf, Nat.not_lt.mpr ht, List.contains_eq_mem, hr, decide_false, bne_self_eq_false, Bool.not_true,
    Option.isSome_none, Bool.or_self, Bool.false_eq_true, if_false]

theorem exec_windowRelease {s : State} {n : Nat} {b : List Byte} (hb : s.pkg.den.pol = some b) (hf : s.pkg.den.from_ ≤ n)
    (hd : polCut b n + 4 * gWwc s.pkg (polGroup b) ≤ s.clk.gsc + polLead b) (hx : findCut s.pkg (polCut b n) = none)
    (hr : n ∉ s.pkg.den.released) (ht : s.clk.gsc < polCut b n + polWindow b) : exec (.windowRelease n) s = .next (Safety.withPkg s
      { s.pkg with den := { s.pkg.den with released := s.pkg.den.released ++ [n] } }) := by
  rw [show exec (.windowRelease n) s = execWindowRelease n s from rfl, execWindowRelease, run_eq]
  simp only [hb, hx, Nat.not_lt.mpr hf, Nat.not_lt.mpr hd, Nat.not_le.mpr ht, List.contains_eq_mem, hr, decide_false, Option.isSome_none, or_self,
    Bool.false_eq_true, if_false]

/-! The course of a cut (R370 to R375) -/

section
variable {s : State} {cn : Nat} {x : Cut} (hx : findCut s.pkg cn = some x)
include hx

theorem exec_denNoticeAbandon {src : Nat} (hn : noticeHeld s.pkg (polGroup x.pol) cn 2 src = true) (h6 : x.phase ≠ 6) (h7 : x.phase ≠ 7) :
    exec (.denNoticeAbandon cn src) s = .next (Safety.withPkg s (abandonCut s.pkg s.clk x 7 false)) := by
  rw [show exec (.denNoticeAbandon cn src) s = execDenNoticeAbandon cn src s from rfl, execDenNoticeAbandon, run_eq]
  simp only [hx, hn, beq_false_of_ne h6, beq_false_of_ne h7, Bool.not_true, Bool.or_self, Bool.false_eq_true, if_false]

/-- A requested cut whose tick has come, while no other cut is under way: the member abandons it or begins. -/
theorem exec_cutStart (ht : cn ≤ s.clk.gsc) (h0 : x.phase = 0) (ho : ∀ y ∈ s.pkg.den.cuts, y.cn ≠ cn → y.phase = 0) :
    exec (.cutStart cn) s = .next (Safety.withPkg s
      (if s.pkg.den.lastBad = true then abandonCut s.pkg s.clk x 1 true
       else if abandonHeld s.pkg x = true then abandonCut s.pkg s.clk x 7 false
       else if polMode x.pol = 0 then beginShard s.pkg s.clk x false else quickCopy s.pkg s.clk x)) := by
  have hk : ¬(s.clk.gsc < cn ∨ x.phase ≠ 0) := by omega
  have hn : ¬(s.pkg.den.cuts.any (fun y => y.cn != cn && y.phase != 0)) = true := by
    simpa only [List.any_eq_true, Bool.and_eq_true, bne_iff_ne, not_exists, not_and, not_not] using ho
  rw [show exec (.cutStart cn) s = execCutStart cn s from rfl, execCutStart, run_eq]
  simp only [hx, if_neg hk, if_neg hn]

theorem exec_shadowDrain (h8 : x.phase = 8) (ht : cn + polWindow x.pol ≤ s.clk.gsc) (hq : owesHbm s.pkg .den = false) :
    exec (.shadowDrain cn) s = .next (Safety.withPkg s (beginShard s.pkg s.clk x true)) := by
  rw [show exec (.shadowDrain cn) s = execShadowDrain cn s from rfl, execShadowDrain, run_eq]
  simp only [hx, h8, ht, hq, Bool.not_false, and_self, if_true]

theorem exec_cutBarrier (ht : cn + polBaroff x.pol ≤ s.clk.gsc) (hp : x.phase = 4 ∨ x.phase = 1) : exec (.cutBarrier cn) s =
    .next (Safety.withPkg s (wgStart (setCut s.pkg (Safety.atBarrier x)) s.clk (Safety.barrierValue s.pkg x))) := by
  have hk : ¬(s.clk.gsc < cn + polBaroff x.pol ∨ x.phase = 0 ∨ (5 ≤ x.phase ∧ x.phase ≤ 7)) := by omega
  rw [show exec (.cutBarrier cn) s = execCutBarrier cn s from rfl, execCutBarrier, run_eq]
  simp only [hx, if_neg hk]
  rfl

theorem exec_barrierResult {d : List Byte} {fl : Nat} (h5 : x.phase = 5) (hr : wgResult s.pkg (barrierIdent x) 3 2 = some (d, fl)) :
    exec (.barrierResult cn) s = .next (Safety.withPkg s
      (if leNat d = 1 then denGo s.clk cn 12 (setCut s.pkg (Safety.atCommit s.pkg x)) else abandonCut s.pkg s.clk x 4 false)) := by
  rw [show exec (.barrierResult cn) s = execBarrierResult cn s from rfl, execBarrierResult, run_eq]
  simp only [hx, h5, hr, ne_eq, not_true_eq_false, if_false]
  rfl

theorem exec_cutWindowEnd (ht : cn + polWindow x.pol ≤ s.clk.gsc)
    (hm : polMode x.pol = 0 ∨ x.phase = 8 ∧ owesHbm s.pkg .den = true) :
    exec (.cutWindowEnd cn) s = .next (Safety.withPkg s (abandonCut s.pkg s.clk x 5 false)) := by
  have hk : polMode x.pol = 0 ∨ x.phase = 0 ∨ (x.phase = 8 ∧ owesHbm s.pkg .den = true) := hm.imp_right Or.inr
  rw [show exec (.cutWindowEnd cn) s = execCutWindowEnd cn s from rfl, execCutWindowEnd, run_eq]
  simp only [hx, if_neg (Nat.not_lt.mpr ht), if_pos hk]

end

/-- The registers of a cut whose commit copies both stand: the slot of the next one, the count of cuts, the step that is safe (R372). -/
def cutShown (p : Pkg) (x : Cut) : Pkg :=
  rset (rset (bump (rsetb p rDenStatus 4 (!(x.slot == 1))) rDenCuts) rDenStepLo (polStep x.pol x.cn % 2 ^ 32)) rDenStepHi
    (polStep x.pol x.cn / 2 ^ 32)

theorem exec_commitAcked {s : State} {cn : Nat} {x : Cut} (hx : findCut s.pkg cn = some x) (h7 : x.phase = 7) (hs : x.shard = [])
    (ho : ∀ o ∈ s.pkg.outs, o.who ≠ .den) :
    exec (.commitAcked cn) s = .next (Safety.withPkg s (closeCut (cutShown s.pkg x) s.clk x 0 0 0x04 x.slot)) := by
  have hd : denStoring s.pkg = false := by
    refine List.any_eq_false.mpr fun o h => ?_
    simp only [beq_false_of_ne (ho o h), Bool.false_and, Bool.false_eq_true, not_false_eq_true]
  obtain rfl := cn_of_findCut hx
  rw [show exec (.commitAcked x.cn) s = execCommitAcked x.cn s from rfl, execCommitAcked, run_eq]
  simp only [hx, h7, hs, hd, ne_eq, not_true_eq_false, Bool.false_eq_true, or_self, if_false]
  rfl

theorem cutShown_shows (p : Pkg) (x : Cut) : rget (cutShown p x) rDenCuts = (rget p rDenCuts + 1) % 2 ^ 32 ∧
    rbit (cutShown p x) rDenStatus 4 = (!(x.slot == 1)) ∧ rget (cutShown p x) rDenStepLo = polStep x.pol x.cn % 2 ^ 32 ∧
    (cutShown p x).mem = p.mem := by
  refine ⟨?_, ?_, ?_, rfl⟩
  · rw [cutShown, rget_rset_ne _ _ (by decide), rget_rset_ne _ _ (by decide), rget_bump_self, rget_rsetb_ne _ _ _ (by decide)]
  · rw [cutShown, rbit_rset_ne _ _ _ (by decide), rbit_rset_ne _ _ _ (by decide), rbit, rget_bump_ne _ (by decide)]
    exact rbit_rsetb_self _ _ _ _ (by decide)
  · rw [cutShown, rget_rset_ne _ _ (by decide), rget_rset_self, Nat.mod_mod]

/-- Settles O38: each command by its equation, then what an armed policy, a noted cut and a committed one leave. -/
theorem checkpoints : Obligations.Checkpoints := by
  refine ⟨fun s op o rd h hk ha => exec_checkpointArm_outside h rd hk ha, fun s op o rd m h hk ha hl hb hc => ?arm,
    fun s op o h => ⟨exec_checkpointDisarm h, fun hk hp => ?unarmed, fun b hk hp => ?asks⟩,
    fun s cn src b hb hn hx ht hw hp => ?notice,
    fun s cn src x hx => ⟨exec_denNoticeAbandon hx, fun ht h0 ho hg hv => ?starts, fun ht h0 ho hg => ?bad,
      exec_shadowDrain hx, exec_cutBarrier hx, fun d fl h5 hr hd => ?refused, fun d fl h5 hr hd => ?agreed, fun h7 hs ho => ?acked,
      exec_cutWindowEnd hx⟩,
    fun s n b hb hf hd hx hr ht => ⟨_, exec_windowRelease hb hf hd hx hr ht, rfl, rfl, rfl⟩⟩
  case arm =>
    intro b hn hm hman hok hp hled _ p
    have hs : PolicyStands s.pkg o b m := ⟨hk, ha, hl, ⟨hb, hc⟩, rfl, hn, hm, hman.symm, hok, hp, hled⟩
    have he := exec_checkpointArm h hs (rfl : _ = p) rd
    refine ⟨fun r hr => ?_, fun hr => by rw [he, hr, Option.elim_none]⟩
    rw [hr, Option.elim_some] at he
    have hgone := findOp_complete (armWith (denForget p (slotAsks p b)) s.clk b m r) s.clk op 0 0#16 0 0 false
    have hmem := mem_of_steady ((steady_denForget p (slotAsks p b)).trans (steady_askSlots (beginOp s.pkg op) s.clk b))
    generalize hq : complete (armWith (denForget p (slotAsks p b)) s.clk b m r) s.clk op 0 0#16 0 0 false = q at he hgone ⊢
    obtain ⟨hm', hpol, hfrom, hrel⟩ := armed_shows hq
    exact ⟨_, he, rfl, hpol, hfrom, hrel, hgone, hm'.trans hmem⟩
  case unarmed => rw [exec_checkpointCut h hk, hp, Option.elim_none]
  case asks => rw [exec_checkpointCut h hk, hp, Option.elim_some]
  case notice =>
    obtain ⟨n, rfl, hf, hr⟩ := hw
    obtain ⟨hc, hm⟩ := findCut_noteCut b none hx
    exact ⟨_, _, exec_denNoticeCut hb hn hx ht hf hr hp, hc, rfl, rfl, hm⟩
  case starts => rw [exec_cutStart hx ht h0 ho, hg, hv, if_neg Bool.false_ne_true, if_neg Bool.false_ne_true]
  case bad => rw [exec_cutStart hx ht h0 ho, if_pos hg]
  case refused => rw [exec_barrierResult hx h5 hr, if_neg hd]
  case agreed => rw [exec_barrierResult hx h5 hr, if_pos hd]
  case acked =>
    obtain ⟨hcuts, hslot, hstep, hmem⟩ := cutShown_shows s.pkg x
    rw [cn_of_findCut hx] at hstep
    exact ⟨_, _, exec_commitAcked hx h7 hs ho, rfl, hcuts, hslot, hstep, hmem⟩

end Sys2Proof.Machine
end

section
/-! PROOFS. Restores: admitted to every unit, loaded from their extents, completed and counted (R383 to R386): O39. -/

namespace Sys2Proof.Machine

/-! The request (R383, R384) -/

theorem steady_countAnswer (p : Pkg) (restore : Bool) (r : Nat) : steadyPart (countAnswer p restore r) = steadyPart p := by
  unfold countAnswer
  split <;> rfl

theorem steady_noteRefusal (p : Pkg) (c : Clock) (a : Ask) (restore : Bool) : steadyPart (noteRefusal p c a restore) = steadyPart p :=
  (outward_noteFurther _ _ _ _ _).steady.trans (steady_countAnswer p restore _)

/-- An accepted launch joins those there are; memory stays. -/
theorem acceptLaunch_joins (p : Pkg) (c : Clock) (l : Launch) (a : Ask) :
    (acceptLaunch p c l a).launches = p.launches ++ [l] ∧ (acceptLaunch p c l a).mem = p.mem := by
  have h := (steady_enterLedger _ c { a.entry p with who := .launch l.id }).trans (steady_countAnswer p l.restore rTimAccepts)
  exact ⟨congrArg (· ++ [l]) (launches_of_steady h), (mem_of_steady h :)⟩

/-- The launch that an admitted restore of one member becomes: every unit, from L to D, with what its member found (R383, R384). -/
def restoreLaunch (p : Pkg) (o : Op) (rrec : List Byte) (r : SlotReads) (a : Ask) : Launch :=
  let found := restoreFind rrec (gSelf p (field rrec 12 2)) r
  let slot := (found.map (fun x => x.1)).getD 2
  { id := o.id, op := o.id, plan := 0xFFFF, L := field o.desc 8 8, C := field o.desc 24 8, D := field o.desc 16 8, prep := a.prep, wc := a.wc,
    tiles := allTiles, slvs := allSlvs, ues := allUes, rmask := 0, root := true, group := field rrec 12 2, restore := true, rrec := rrec,
    hdr := slotHeader r slot, found := (found.map (fun x => x.2)).getD 0, slotSel := slot, report := field o.desc 40 8 }

section
variable {p : Pkg} {c : Clock} {o : Op} {rrec : List Byte} {r : SlotReads} (h1 : field rrec 8 4 = 1)
include h1

/-- An admitted restore joins the launches; memory stays. -/
theorem restoreWith_accepted (ha : admission p c o.arrival (restoreAsk p (field o.desc 8 8) (field o.desc 16 8) false) = .accept) :
    (restoreWith p c o rrec r).launches =
        p.launches ++ [restoreLaunch p o rrec r (restoreAsk p (field o.desc 8 8) (field o.desc 16 8) false)] ∧
      (restoreWith p c o rrec r).mem = p.mem := by
  have h : restoreWith p c o rrec r = acceptLaunch p c
      (restoreLaunch p o rrec r (restoreAsk p (field o.desc 8 8) (field o.desc 16 8) false))
      (restoreAsk p (field o.desc 8 8) (field o.desc 16 8) false) := by
    simp only [restoreWith, h1, if_true, Nat.lt_irrefl, decide_false, ha]
    rfl
  rw [h]
  exact acceptLaunch_joins _ _ _ _

/-- A refused restore is over at once; memory and launches stay. -/
theorem restoreWith_refused {st d : Nat}
    (ha : admission p c o.arrival (restoreAsk p (field o.desc 8 8) (field o.desc 16 8) false) = .refuse st d) :
    steadyPart (restoreWith p c o rrec r) = steadyPart p ∧ findOp (restoreWith p c o rrec r) o.id = none := by
  simp only [restoreWith, h1, if_true, Nat.lt_irrefl, decide_false, ha]
  exact ⟨(outward_complete _ _ _ _ _ _ _ _).steady.trans (steady_noteRefusal _ _ _ _), findOp_complete _ _ _ _ _ _ _ _⟩

end

theorem exec_restore {s : State} {op : Nat} {o : Op} {rrec : List Byte} {p : Pkg} (h : Safety.Begins s.pkg op 5 o) (hl : rrec.length = 128)
    (hb : restoreBars (beginOp s.pkg op) rrec = false) (ht : field o.desc 8 8 ≤ field o.desc 16 8)
    (hask : askSlots (beginOp s.pkg op) s.clk (restoreTargets rrec) = p) (rd : SlotReads) :
    exec (.restore op rrec rd) s = .next (Safety.withPkg s ((slotReads p (restoreTargets rrec) rd).elim (opStays p o)
      (restoreWith (denForget p (slotAsks p (restoreTargets rrec))) s.clk o rrec))) := by
  have hr : (rrec ++ List.replicate 128 0#8).take 128 = rrec := List.take_left' hl
  rw [show exec (.restore op rrec rd) s = execRestore op rrec rd s from rfl, execRestore, withOp_of_begins h]
  simp only [hr, hb, decide_eq_false (Nat.not_lt.mpr ht), Bool.or_self, Bool.false_eq_true, if_false, hask]
  cases slotReads p (restoreTargets rrec) rd <;> rfl

/-! The load (R386) -/

/-- The reads of a restore's payload: each extent at its target (R377, R386). -/
def payloadAsks (y : Launch) : List DenAsk :=
  (headerExtents y.hdr).map (fun e => (((polTarget (restoreTargets y.rrec) y.slotSel).1,
    (polTarget (restoreTargets y.rrec) y.slotSel).2 + e.poff), e.stored))

/-- A restore's payload is being read. -/
def loadAsked (p : Pkg) (c : Clock) (y : Launch) : Pkg := rsetb (denAsk p c (payloadAsks y)) rDenStatus 3 true

/-- What has come of it, extent by extent. -/
def payloadParts (p : Pkg) (y : Launch) (payload : List (List Byte)) : List (Option (List Byte)) :=
  (payloadAsks y).zipIdx.map (fun e => denRead p e.1 (payload.getD e.2 []))

/-- All of it has come and the restore runs. -/
def loadCame (p : Pkg) (l : Nat) (y : Launch) : Pkg := denForget (modLaunch p l (fun z => { z with running := true })) (payloadAsks y)

theorem loadAsked_mem (p : Pkg) (c : Clock) (y : Launch) : (loadAsked p c y).mem = p.mem :=
  mem_of_steady ((outward_rsetb _ _ _ _).steady.trans (steady_denAsk p c (payloadAsks y)))

theorem loadCame_mem (p : Pkg) (l : Nat) (y : Launch) : (loadCame p l y).mem = p.mem := rfl

/-- What the writing of a restore's extents leaves: comb memory cleared when all succeed, else a failed restore (R386). -/
def loadEnded (c : Clock) (l : Nat) (y : Launch) (z : Pkg × Nat) : Pkg :=
  if z.2 = 0 then clearComb z.1 else scrambleExtents (addCause z.1 c l z.2) (headerExtents y.hdr)

section
variable {s : State} {l : Nat} {y : Launch} (hy : findLaunch s.pkg l = some y) (hr : y.restore = true)
include hy hr

/-- A committed restore whose tick has come asks for its payload, and waits for it or writes its extents. -/
theorem exec_restoreLoad (hc : y.committed = true) (hn : y.running = false) (ht : y.L ≤ s.clk.gsc) (payload : List (List Byte)) :
    exec (.restoreLoad l payload) s = .next (Safety.withPkg s
      (if (payloadParts (loadAsked s.pkg s.clk y) y payload).any (fun d => d.isNone) then loadAsked s.pkg s.clk y
       else loadEnded s.clk l y (restoreExtents s.clk
         ((headerExtents y.hdr).zip ((payloadParts (loadAsked s.pkg s.clk y) y payload).filterMap id))
         (loadCame (loadAsked s.pkg s.clk y) l y)))) := by
  have hk : ¬(!y.restore || !y.committed || y.running || decide (s.clk.gsc < y.L)) = true := by
    simp only [hr, hc, hn, Nat.not_lt.mpr ht, Bool.not_true, Bool.or_self, decide_false, Bool.false_eq_true, not_false_eq_true]
  rw [show exec (.restoreLoad l payload) s = execRestoreLoad l payload s from rfl, execRestoreLoad, run_eq]
  simp only [hy, if_neg hk, ← payloadAsks.eq_def, ← loadAsked.eq_def, ← payloadParts.eq_def, ← loadCame.eq_def]
  split
  · rfl
  · rcases restoreExtents s.clk _ _ with ⟨q, _ | st⟩ <;> rfl

/-! The end (R386) -/

/-- A restore that is over: its claim and its launch are gone. -/
def restoreOver (p : Pkg) (l : Nat) : Pkg :=
  let q := freeLedger (rsetb p rDenStatus 3 false) (.launch l)
  { q with launches := q.launches.filter (fun z => z.id != l) }

/-- A success counts as a restore of the package and of the den (R386). -/
def restoreCounted (p : Pkg) (l : Nat) : Pkg := bump (bump (restoreOver p l) rGlbRestcnt) rDenRestores

theorem exec_restoreDone_ok (hn : y.running = true) (hc : y.causes = []) : exec (.restoreDone l) s = .next (Safety.withPkg s
    (complete (restoreCounted s.pkg l) s.clk y.op 0 0#16 0 (y.found % 2 ^ 32) false)) := by
  rw [show exec (.restoreDone l) s = execRestoreDone l s from rfl, execRestoreDone, run_eq]
  simp only [hy, hr, hn, hc, firstCause, Option.map_none, Bool.not_true, Bool.or_self, Bool.false_eq_true, if_false]
  rfl

theorem exec_restoreDone_failed {g st : Nat} (hn : y.running = true) (hc : y.causes = [(g, st)]) (hm : y.multi = false) :
    exec (.restoreDone l) s = .next (Safety.withPkg s
      (complete (noteFailure (restoreOver s.pkg l) s.clk y st) s.clk y.op st 0#16 0 (y.found % 2 ^ 32) false)) := by
  rw [show exec (.restoreDone l) s = execRestoreDone l s from rfl, execRestoreDone, run_eq]
  simp only [hy, hr, hn, hc, hm, firstCause, Option.map_some, Bool.not_true, Bool.or_self, Bool.false_eq_true, if_false]
  rfl

end

theorem outward_noteFailure (p : Pkg) (c : Clock) (l : Launch) (status : Nat) : Outward p (noteFailure p c l status) := by
  unfold noteFailure
  simp only
  split_ifs
  · exact Outward.refl p
  · exact outward_logEntry _ _ _ _ _ _ _
  · exact outward_noteFurther _ _ _ _ _

theorem restoreCounted_shows (p : Pkg) (l : Nat) :
    rget (restoreCounted p l) rGlbRestcnt = (rget p rGlbRestcnt + 1) % 2 ^ 32 ∧
    rget (restoreCounted p l) rDenRestores = (rget p rDenRestores + 1) % 2 ^ 32 ∧ (restoreCounted p l).mem = p.mem ∧
    (restoreCounted p l).launches = p.launches.filter (fun z => z.id != l) ∧ rbit (restoreCounted p l) rDenStatus 3 = false := by
  have ho : ∀ o, rget (restoreOver p l) o = rget (rsetb p rDenStatus 3 false) o := fun _ => rfl
  refine ⟨?_, ?_, ?_, ?_, ?_⟩
  · rw [restoreCounted, rget_bump_ne _ (by decide), rget_bump_self, ho, rget_rsetb_ne _ _ _ (by decide)]
  · rw [restoreCounted, rget_bump_self, rget_bump_ne _ (by decide), ho, rget_rsetb_ne _ _ _ (by decide)]
  · rw [restoreCounted, bump_mem, bump_mem]
    rfl
  · rw [restoreCounted, bump_launches, bump_launches]
    rfl
  · rw [restoreCounted, rbit, rget_bump_ne _ (by decide), rget_bump_ne _ (by decide), ho]
    exact rbit_rsetb_self _ _ _ _ (by decide)

/-- Settles O39: each command by its equation; the launch that joins is every unit's, and a success counts. -/
theorem restores : Obligations.Restores := by
  refine ⟨fun s op o rrec rd h hl h1 hb ht => ?request, fun s l y payload hy hr hc hn ht => ?load,
    fun s l y hy hr hn => ⟨fun hc => ?ok, fun g st hc hm => ?failed⟩⟩
  case request =>
    intro b p q a
    have he : exec (.restore op rrec rd) s = .next (Safety.withPkg s ((slotReads p b rd).elim (opStays p o) (restoreWith q s.clk o rrec))) :=
      exec_restore h hl hb ht rfl rd
    have hq : steadyPart q = steadyPart s.pkg := (steady_denForget p (slotAsks p b)).trans (steady_askSlots (beginOp s.pkg op) s.clk b)
    refine ⟨fun hr => by rw [he, hr, Option.elim_none], fun r hr => ?_⟩
    rw [hr, Option.elim_some] at he
    refine ⟨fun ha => ?accepted, fun st d ha => ?refused⟩
    case accepted =>
      obtain ⟨hj, hm⟩ := restoreWith_accepted (r := r) h1 ha
      rw [launches_of_steady hq] at hj
      exact ⟨_, _, he, hj, rfl, rfl, rfl, rfl, rfl, rfl, hm.trans (mem_of_steady hq)⟩
    case refused =>
      obtain ⟨hs, hf⟩ := restoreWith_refused (r := r) h1 ha
      rw [id_of_findOp h.1] at hf
      exact ⟨_, he, launches_of_steady (hs.trans hq), hf, mem_of_steady (hs.trans hq)⟩
  case load =>
    intro tg es asks p parts
    have he : exec (.restoreLoad l payload) s = .next (Safety.withPkg s (if parts.any (fun d => d.isNone) then p
        else loadEnded s.clk l y (restoreExtents s.clk (es.zip (parts.filterMap id)) (loadCame p l y)))) :=
      exec_restoreLoad hy hr hc hn ht payload
    have hcame : ∀ ds, parts = ds.map some → exec (.restoreLoad l payload) s = .next (Safety.withPkg s
        (loadEnded s.clk l y (restoreExtents s.clk (es.zip ds) (loadCame p l y)))) := by
      intro ds hds
      have hall : ¬(parts.any (fun d => d.isNone)) = true := by
        rw [hds, List.any_map]
        simp only [List.any_eq_true, Function.comp_apply, Option.isNone_some, Bool.false_eq_true, and_false, exists_false, not_false_eq_true]
      rw [he, if_neg hall, hds, List.filterMap_map, Function.id_comp, List.filterMap_some]
    refine ⟨fun hw => ?waits, fun ds hds => ⟨loadCame p l y, rfl, loadAsked_mem s.pkg s.clk y, fun q hx => ?succeeds,
      fun q st hx hst => ?fails⟩⟩
    case waits => rw [he, if_pos (List.any_eq_true.mpr ⟨none, hw, rfl⟩)]
    case succeeds => rw [hcame ds hds, hx, loadEnded, if_pos rfl]
    case fails => rw [hcame ds hds, hx, loadEnded, if_neg hst]
  case ok =>
    exact ⟨_, restoreCounted s.pkg l, exec_restoreDone_ok hy hr hn hc, rfl, restoreCounted_shows s.pkg l⟩
  case failed =>
    have ho := outward_noteFailure (restoreOver s.pkg l) s.clk y st
    exact ⟨_, noteFailure (restoreOver s.pkg l) s.clk y st, exec_restoreDone_failed hy hr hn hc hm, rfl, ho.mem, ho.launches⟩

end Sys2Proof.Machine
end

section
/-! PROOFS. Host accesses through LOCAL and REMOTE (R392, R393, R309), and the ECL ports' lanes (R390): O35. -/

namespace Sys2Proof.Machine

/-! An access that is answered by the package itself, waits for HBM, or is refused (Table 16.1, R309) -/

/-- A refusal is answered with its error, and counted; memory stays. -/
theorem eclReply_refused (p : Pkg) (id : Nat) {err : Nat} (a : Sys2Proof.Access) (data : List Byte) (h : err ≠ 0) :
    (eclReply p id err a data).mem = p.mem ∧ rget (eclReply p id err a data) rHifEclerr = (rget p rHifEclerr + 1) % 2 ^ 32 ∧
    ∃ r, (eclReply p id err a data).hostOut = p.hostOut ++ [r] ∧ r.id = id ∧ r.err = err := by
  simp only [eclReply, if_neg h]
  exact ⟨rfl, rget_bump_self p rHifEclerr, _, rfl, rfl, rfl⟩

section
variable {p : Pkg} {addr : Nat} {a : Sys2Proof.Access} (c : Clock) (cmd : Instr) (id : Nat) (hs : shapeOk addr a = true) (hr : retired p = false)
include hs hr

theorem localAccess_outside (hw : windowOk p (ownPlace p * 2 ^ 46 + addr) (accessBytes a) (accessPerm a) clsHost = false) :
    localAccess p c cmd id addr a = eclReply p id 2 a [] := by
  simp only [localAccess, hs, hr, hw, Bool.not_true, Bool.not_false, Bool.false_eq_true, if_false, if_true]

theorem localAccess_allowed (hw : windowOk p (ownPlace p * 2 ^ 46 + addr) (accessBytes a) (accessPerm a) clsHost = true) :
    localAccess p c cmd id addr a = ((hbmAsks p (accessReq a addr).ty addr (accessReq a addr).op0 (accessReq a addr).op1
      (accessReq a addr).payload).elim (replyServed (serveLocal p c addr a).1 id a (serveLocal p c addr a).2) (openGate p 1 cmd)) := by
  simp only [localAccess, hs, hr, hw, Bool.not_true, Bool.false_eq_true, if_false]
  cases hbmAsks p (accessReq a addr).ty addr (accessReq a addr).op0 (accessReq a addr).op1 (accessReq a addr).payload <;> rfl

end

/-! The two apertures on a port that is up (R392) -/

/-- What the checks of an access read stands as it was before the access counted as activity (R426). -/
@[simp] theorem ownPlace_hostActive (p : Pkg) (c : Clock) : ownPlace (Safety.hostActive p c) = ownPlace p := rfl
@[simp] theorem retired_hostActive (p : Pkg) (c : Clock) : retired (Safety.hostActive p c) = retired p := rfl
@[simp] theorem windowOk_hostActive (p : Pkg) (c : Clock) (f n perm cls : Nat) :
    windowOk (Safety.hostActive p c) f n perm cls = windowOk p f n perm cls := rfl
@[simp] theorem ctxFor_hostActive (p : Pkg) (c : Clock) (place : Nat) : ctxFor (Safety.hostActive p c) place = ctxFor p place := rfl

/-- The meanings write the mark of activity out. -/
theorem active_eq_hostActive (p : Pkg) (c : Clock) : { p with active := c.gsc } = Safety.hostActive p c := rfl

section
variable {s : State} {q : Fin 2} {id addr : Nat} {a : Sys2Proof.Access} (hup : eclPortUp s.pkg q = true)
include hup

theorem exec_hostLocalAccess : exec (.hostLocalAccess q id addr a) s = .next (Safety.withPkg s
    (localAccess (Safety.hostActive s.pkg s.clk) s.clk (.hostLocalAccess q id addr a) id addr a)) := by
  rw [show exec (.hostLocalAccess q id addr a) s = execHostLocalAccess q id addr a s from rfl, execHostLocalAccess, run_eq]
  simp only [hup, active_eq_hostActive, Bool.not_true, Bool.false_eq_true, if_false]

theorem exec_hostRemoteAccess_own (hp : placeOf (remoteAddr s.pkg addr) = ownPlace s.pkg) :
    exec (.hostRemoteAccess q id addr a) s = .next (Safety.withPkg s (localAccess (Safety.hostActive s.pkg s.clk) s.clk
      (.hostLocalAccess q id (localOf (remoteAddr s.pkg addr)) a) id (localOf (remoteAddr s.pkg addr)) a)) := by
  rw [show exec (.hostRemoteAccess q id addr a) s = execHostRemoteAccess q id addr a s from rfl, execHostRemoteAccess, run_eq]
  simp only [hup, active_eq_hostActive, ownPlace_hostActive, hp, if_true, Bool.not_true, Bool.false_eq_true, if_false]

theorem exec_hostRemoteAccess_leaves {cx : Nat} (hp : placeOf (remoteAddr s.pkg addr) ≠ ownPlace s.pkg) (hs : shapeOk addr a = true)
    (hr : retired s.pkg = false) (hw : windowOk s.pkg (remoteAddr s.pkg addr) (accessBytes a) (accessPerm a) clsHost = true)
    (hc : ctxFor s.pkg (placeOf (remoteAddr s.pkg addr)) = some cx) :
    exec (.hostRemoteAccess q id addr a) s = .next (Safety.withPkg s (sendReq (Safety.hostActive s.pkg s.clk) cx (.host id) true true
      (accessReq a (remoteAddr s.pkg addr)))) := by
  rw [show exec (.hostRemoteAccess q id addr a) s = execHostRemoteAccess q id addr a s from rfl, execHostRemoteAccess, run_eq]
  simp only [hup, active_eq_hostActive, ownPlace_hostActive, if_neg hp, hs, retired_hostActive, hr, windowOk_hostActive, hw,
    ctxFor_hostActive, hc, Bool.not_true, Bool.false_eq_true, if_false]

end

/-- A request that is formed is the last of the outstanding packets, under its context's next number (R294). -/
theorem sendReq_joins (p : Pkg) (cx : Nat) (who : Who) (opn ready : Bool) (r : Req) : ∃ o, (sendReq p cx who opn ready r).outs = p.outs ++ [o] ∧
    o.who = who ∧ o.opn = opn ∧ o.ctx = cx ∧ o.seq = (ctx p cx).txseq :=
  ⟨_, rfl, rfl, rfl, rfl, rfl⟩

/-! The lanes of a port (R390) -/

theorem eventReg_rHifStatus : eventReg rHifStatus = false := by decide

/-- The field of a port holds every count of lanes. -/
theorem rfld_lanesSet (p : Pkg) (q : Fin 2) (lanes : Lanes) :
    rfld (rsetf p rHifStatus (5 * q + 4) (5 * q) (lanesCount lanes)) rHifStatus (5 * q + 4) (5 * q) = lanesCount lanes := by
  have hl : lanesCount lanes < 2 ^ 5 := by cases lanes <;> decide
  rw [rfld_rsetf_self _ _ _ _ _ (by omega) (by omega), show 5 * q.val + 4 + 1 - 5 * q.val = 5 by omega, Nat.mod_eq_of_lt hl]

/-- The event reports the lanes and leaves the status as it shows them. -/
theorem rfld_eclLanes (p : Pkg) (c : Clock) (q : Fin 2) (lanes : Lanes) :
    rfld (eclLanes p c q (lanesCount lanes)) rHifStatus (5 * q + 4) (5 * q) = lanesCount lanes := by
  rw [eclLanes, rfld, rget_event _ _ _ _ _ _ _ eventReg_rHifStatus, ← rfld, rfld_lanesSet]

theorem eclLanes_mem (p : Pkg) (c : Clock) (q n : Nat) : (eclLanes p c q n).mem = p.mem :=
  ((outward_rset _ _ _).trans (outward_event _ _ _ _ _ _)).mem

theorem eclLanes_ops (p : Pkg) (c : Clock) (q n : Nat) : (eclLanes p c q n).ops = p.ops :=
  event_ops _ _ _ _ _ _

theorem exec_eclPortLaneLoss {s : State} {q : Fin 2} {lanes : Lanes} (h : lanesCount lanes < rfld s.pkg rHifStatus (5 * q + 4) (5 * q)) :
    exec (.eclPortLaneLoss q lanes) s = .next (Safety.withPkg s (eclLanes s.pkg s.clk q (lanesCount lanes))) := by
  rw [show exec (.eclPortLaneLoss q lanes) s = execEclPortLaneLoss q lanes s from rfl, execEclPortLaneLoss, run_eq]
  simp only [if_pos h]

section
variable {s : State} {q : Fin 2} {lanes : Lanes} (h : lanes ≠ .down)
include h

/-- Before stage 3 a port that has trained is not reported (R433). -/
theorem exec_eclPortTrain_early (hst : stageOf s.pkg < 3) : exec (.eclPortTrain q lanes) s =
    .next (Safety.withPkg s (rsetf s.pkg rHifStatus (5 * q + 4) (5 * q) (lanesCount lanes))) := by
  rw [stageOf] at hst
  rw [show exec (.eclPortTrain q lanes) s = execEclPortTrain q lanes s from rfl, execEclPortTrain, run_eq]
  simp only [if_neg h, if_pos hst]

theorem exec_eclPortTrain_reported (hst : ¬stageOf s.pkg < 3) : exec (.eclPortTrain q lanes) s =
    .next (Safety.withPkg s (eclLanes s.pkg s.clk q (lanesCount lanes))) := by
  rw [stageOf] at hst
  rw [show exec (.eclPortTrain q lanes) s = execEclPortTrain q lanes s from rfl, execEclPortTrain, run_eq]
  simp only [if_neg h, if_neg hst]

end

/-- Settles O35: each command by its equation; the marking of activity changes nothing that the checks read. -/
theorem hostAccesses : Obligations.HostAccesses := by
  refine ⟨fun s q id addr a hup hs hr => ?localAperture, fun s q id addr a hup => ?remoteAperture, fun s q lanes => ⟨fun h => ?loss, fun h => ?train⟩⟩
  case localAperture =>
    intro p r
    refine ⟨fun hw => ?allowed, fun hw => ?outside⟩
    case allowed =>
      have he := localAccess_allowed (p := p) s.clk (.hostLocalAccess q id addr a) id hs hr hw
      refine ⟨fun rs hh => ?waits, fun hh p' d hv => ?served⟩
      case waits => rw [exec_hostLocalAccess hup, he, hh, Option.elim_some]
      case served => rw [exec_hostLocalAccess hup, he, hh, Option.elim_none, hv, replyServed]
    case outside =>
      have he := localAccess_outside (p := p) s.clk (.hostLocalAccess q id addr a) id hs hr hw
      exact ⟨_, exec_hostLocalAccess hup, he ▸ eclReply_refused p id a [] (by decide)⟩
  case remoteAperture =>
    intro fa
    refine ⟨fun hp => exec_hostRemoteAccess_own hup hp, fun cx hp hs hr hw hc => ?leaves⟩
    case leaves =>
      obtain ⟨o, ho, hwho, hopn, hcx, hseq⟩ := sendReq_joins (Safety.hostActive s.pkg s.clk) cx (.host id) true true (accessReq a fa)
      refine ⟨_, exec_hostRemoteAccess_leaves hup hp hs hr hw hc, ?_, rfl, o, ?_, hwho, hopn, hcx, hseq⟩
      · rw [ho, List.length_append, List.length_singleton]
        rfl
      · rw [ho, List.getLast?_concat]
  case loss => exact ⟨_, exec_eclPortLaneLoss h, rfld_eclLanes _ _ _ _, eclLanes_mem _ _ _ _⟩
  case train =>
    by_cases hst : stageOf s.pkg < 3
    · exact ⟨_, exec_eclPortTrain_early h hst, rfld_lanesSet _ _ _, rfl, rfl⟩
    · exact ⟨_, exec_eclPortTrain_reported h hst, rfld_eclLanes _ _ _ _, eclLanes_mem _ _ _ _, eclLanes_ops _ _ _ _⟩

end Sys2Proof.Machine
end

section
/-! PROOFS. The step (spec/95_what_each_step_holds): O1, O3. -/

namespace Sys2Proof.Machine

theorem step_of_cons {s : State} {i : Instr} {rest : List Instr} (h : s.pending = i :: rest) :
    step s = exec i { s with pending := rest } := by
  unfold step
  rw [h]

/-- Settles O1: the step's own equation for a queue that is not empty. -/
theorem stepRunsFront : Obligations.StepRunsFront := fun _ _ _ h => step_of_cons h

/-- A reply of the time exchange changes the package, and the clock where it completes an estimate. -/
theorem exec_timeReply_goes_on (q : Fin 128) (pkt : List Byte) (poison : Bool) (s : State) :
    ∃ t, exec (.timeReply q pkt poison) s = .next t ∧ t.pending = s.pending := by
  rw [show exec (.timeReply q pkt poison) s = execTimeReply q pkt poison s from rfl, execTimeReply]
  split
  case h_1 => exact ⟨_, rfl, rfl⟩
  case h_2 =>
    split
    case h_1 => exact ⟨_, rfl, rfl⟩
    case h_2 => split <;> exact ⟨_, rfl, rfl⟩

theorem exec_powerLoss_goes_on (v12 : Bool) (s : State) : ∃ t, exec (.powerLoss v12) s = .next t ∧ t.pending = s.pending := by
  rw [show exec (.powerLoss v12) s = execPowerLoss v12 s from rfl, execPowerLoss]
  split <;> exact ⟨_, rfl, rfl⟩

/-- Every command answers with a next state, and leaves the queue. -/
theorem exec_goes_on (i : Instr) (s : State) : ∃ t, exec i s = .next t ∧ t.pending = s.pending := by
  by_cases hr : ∃ q pkt poison, i = .timeReply q pkt poison
  case pos =>
    obtain ⟨q, pkt, poison, rfl⟩ := hr
    exact exec_timeReply_goes_on q pkt poison s
  case neg =>
    by_cases hp : ∃ v12, i = .powerLoss v12
    case pos =>
      obtain ⟨v12, rfl⟩ := hp
      exact exec_powerLoss_goes_on v12 s
    case neg =>
      obtain ⟨p, h⟩ := exec_eq_withPkg i s (fun q pkt poison h => hr ⟨q, pkt, poison, h⟩) (fun v12 h => hp ⟨v12, h⟩)
      exact ⟨_, h, rfl⟩

theorem step_goes_on (s : State) : ∃ t, step s = .next t ∧ t.pending = s.pending.drop 1 := by
  cases h : s.pending with
  | nil => exact ⟨_, step_of_empty h, h⟩
  | cons i rest =>
    obtain ⟨t, ht, hq⟩ := exec_goes_on i { s with pending := rest }
    exact ⟨t, (step_of_cons h).trans ht, hq⟩

/-- Settles O3: an empty queue stays empty, and the command at the front leaves the rest. -/
theorem stepsGoOn : Obligations.StepsGoOn := by
  refine ⟨fun s => ?goes, fun s t ht => ?queue⟩
  case goes =>
    obtain ⟨t, ht, -⟩ := step_goes_on s
    exact ⟨t, ht⟩
  case queue =>
    obtain ⟨u, hu, hq⟩ := step_goes_on s
    rw [Host.Outcome.next.inj (ht.symm.trans hu)]
    exact hq

end Sys2Proof.Machine
end

section
/-! PROOFS. Registers read and written (R411 to R421, R336, R476): O12, O20, O21. -/

namespace Sys2Proof.Machine

/-! The alert (R476) -/

theorem bit_setBits_self (w i : Nat) (b : Bool) : bit (setBits w i i (b2n b)) i = b := by
  rw [bit_eq_bits, bits_setBits _ _ _ _ (Nat.le_refl i), Nat.add_sub_cancel_left]
  exact b2n_bit b

theorem bit_setBits_other (w : Nat) {i j : Nat} (v : Nat) (h : j ≠ i) : bit (setBits w i i v) j = bit w j := by
  rw [bit_eq_bits, bits_setBits_other _ _ _ _ _ _ (Nat.le_refl i) (Nat.le_refl j) (by omega), bit_eq_bits]

theorem bit_regRead_alert (p : Pkg) (c : Clock) : bit (regRead p c rGlbStatus) 5 = alertN p := by
  rw [regRead, if_pos rfl, bit_setBits_other _ _ (by decide), bit_setBits_other _ _ (by decide), bit_setBits_self]

/-- Settles O12: the bit that a read shows is the pin, and the pin is the or of the causes. -/
theorem alertFollowsItsCauses : Obligations.AlertFollowsItsCauses := bit_regRead_alert

/-! LO and HI pairs (R419) -/

/-- No LO register stands where another's HI register does. -/
theorem latchHi_of_hi {lo : Nat} (h : latchHi lo = some (lo + 4)) : latchHi (lo + 4) = none := by
  rw [latchHi] at h
  split at h
  case isTrue hl => rcases hl with rfl | rfl | rfl | rfl | rfl | rfl | rfl <;> rfl
  case isFalse => cases h

/-- A read of a LO register latches its HI half for the requester. -/
theorem regReadBy_lo {p : Pkg} (c : Clock) (w : Requester) {lo : Nat} (h : latchHi lo = some (lo + 4)) :
    regReadBy p c w lo = ({ p with latch := sset p.latch (latchKey w (lo + 4)) (BitVec.ofNat 32 (regRead p c (lo + 4))) }, regRead p c lo) := by
  rw [regReadBy, h]

/-- A read of a HI register returns what is latched for the requester. -/
theorem regReadBy_hi (p : Pkg) (c : Clock) (w : Requester) {lo : Nat} (h : latchHi lo = some (lo + 4)) :
    regReadBy p c w (lo + 4) = (p, (sget p.latch (latchKey w (lo + 4)) 0#32).toNat) := by
  rw [regReadBy, latchHi_of_hi h]
  exact if_pos (by rw [isLatched, Nat.add_sub_cancel, h, beq_self_eq_true])

theorem latchKey_inj {w w' hi : Nat} : latchKey w hi = latchKey w' hi ↔ w = w' := by
  unfold latchKey
  omega

theorem exec_loReadLatch (s : State) (w : Fin 4) {lo : Nat} (h : latchHi lo = some (lo + 4)) :
    exec (.loReadLatch w lo) s = .next (Safety.withPkg s (regReadBy s.pkg s.clk w lo).1) := by
  rw [show exec (.loReadLatch w lo) s = execLoReadLatch w lo s from rfl, execLoReadLatch, run_eq, h]
  rfl

/-- Settles O21: a LO read writes one latch, under its requester's key, and a HI read reads that key. -/
theorem loReadLatchesHi : Obligations.LoReadLatchesHi := by
  refine ⟨fun s w lo h => ⟨_, exec_loReadLatch s w h, ?_⟩, fun p c w lo h hn => ?none⟩
  case none => rw [regReadBy_hi p c w h, hn]; rfl
  rw [regReadBy_lo s.clk w h]
  refine ⟨fun c => ?own, fun w' c hw => ?other, rfl, rfl⟩
  case own => rw [regReadBy_hi _ c w h, sget_sset_self, BitVec.toNat_ofNat]
  case other =>
    have hk : latchKey w' (lo + 4) ≠ latchKey w (lo + 4) := fun e => hw (Fin.ext (latchKey_inj.mp e))
    rw [regReadBy_hi _ c w' h, regReadBy_hi _ c w' h, sget_sset_ne _ _ _ hk]

/-! Writes that change nothing (R416, R417) -/

theorem exec_registerWrite (w : Fin 4) {o : Nat} (v : W32) (s : State) (h : o % 4 = 0) :
    exec (.registerWrite w o v) s = .next (Safety.withPkg s (regPut s.pkg s.clk w o v.toNat)) := by
  rw [show exec (.registerWrite w o v) s = execRegisterWrite w o v s from rfl, execRegisterWrite, run_eq, if_pos h]

theorem regPut_of_ne {p : Pkg} {c : Clock} {w : Requester} {o v : Nat} (h : o ≠ rFabPspare) : regPut p c w o v = regWrite p w o v :=
  if_neg fun hc => h hc.1

/-- Where the word stays, port 127 does too. -/
theorem regPut_of_unchanged {p : Pkg} {c : Clock} {w : Requester} {o v : Nat} (h : regWrite p w o v = p) : regPut p c w o v = p := by
  rw [regPut, h]
  exact if_neg fun hc => by simp only [hc.2.1, Bool.not_true, Bool.false_eq_true] at hc; exact hc.2.2

theorem regWrite_of_locked {p : Pkg} {w : Requester} {o : Nat} (v : Nat) (h : locked p w o = true) : regWrite p w o v = p :=
  if_pos (by rw [h, Bool.or_true])

/-- The words that a write of Table 17.9 can change. -/
def Writable (o : Nat) : Prop :=
  lockMask o ≠ 0 ∨ o = rGlbReset ∨ (rGlbScratch 0 ≤ o ∧ o < rGlbScratch 4) ∨ o = rPwrLimit ∨ (o = rPwrTwarn ∨ o = rPwrIdle) ∨ o = rHifEvcfg ∨
  (rRslotLo 0 ≤ o ∧ o < rRslotLo 16) ∨ o = rTimCfg ∨ o = rMemCfg ∨ (rMemPartA 0 ≤ o ∧ o < rMemPartA 16) ∨ o = rMemScrub ∨
  (rWindow 0 ≤ o ∧ o < rWindow 1024) ∨ (rRegion 0 ≤ o ∧ o < rRegion 8192) ∨
  (lockOf o).map (fun l => l.1) = some rFabLock ∨ o = rFabPspare ∨ (rFabOwlcfg 0 ≤ o ∧ o < rFabOwlcfg 128) ∨
  o = rFabOwlft ∨ o = rFabOwlfp ∨ o = rFabOwlfm ∨ o = rFabOwlbaseLo ∨ o = rFabOwlbaseHi ∨ o = rFabOwlsize ∨ o = rFabOwlrd ∨
  (rHltTrendA 1 ≤ o ∧ o < rHltTrendA 16) ∨ (rHltPunit 0 ≤ o ∧ o < rHltPunit 312) ∨ o = rDbgEnable ∨
  ringAt (rSq 0 0) o ≠ none ∨ ringAt (rCq 0 0) o ≠ none

theorem regWrite_of_readOnly (p : Pkg) (w : Requester) {o : Nat} (v : Nat) (h : ¬Writable o) : regWrite p w o v = p := by
  simp only [Writable, not_or, not_not] at h
  simp only [regWrite, h, if_false, ite_self, ne_eq, not_true_eq_false, or_self, false_and]

/-! Writes of one word (R416, R417, R421) -/

theorem regWrite_scratch {p : Pkg} (w : Requester) (i : Fin 4) (v : Nat) (hl : live p = true) :
    regWrite p w (rGlbScratch i) v = rset p (rGlbScratch i) (v % 2 ^ 32) := by
  have hk : lockOf (rGlbScratch i) = none ∧ lockMask (rGlbScratch i) = 0 ∧ rGlbScratch i ≠ rGlbReset ∧
      rGlbScratch 0 ≤ rGlbScratch i ∧ rGlbScratch i < rGlbScratch 4 := by revert i; decide
  obtain ⟨hk, hm, hr, hs⟩ := hk
  simp only [regWrite, locked, hl, hk, hm, hr, hs, Bool.not_true, Bool.or_false, Bool.false_eq_true, if_false, if_true, ne_eq, not_true_eq_false, and_self]

/-- `PWR.LIMIT` takes a value within its range (Table 17.9). -/
theorem regWrite_limit {p : Pkg} (w : Requester) (v : Nat) (hl : live p = true) (hk : rbit p rPwrLock 0 = false) :
    regWrite p w rPwrLimit v = rangeField p rPwrLimit 15 0 (v % 2 ^ 32) (fun f => decide (1000 ≤ f) && decide (f ≤ 7200)) := by
  have hk : locked p w rPwrLimit = false := by
    rw [show locked p w rPwrLimit = (rbit p rPwrLock 0 && !(false && byKeeper w)) from rfl, hk, Bool.false_and]
  rw [regWrite, hl, hk]
  rfl

theorem regWrite_lock {p : Pkg} (w : Requester) {o : Nat} (v : Nat) (hl : live p = true) (hn : lockOf o = none) (hm : lockMask o ≠ 0) :
    regWrite p w o v = rset p o (Nat.lor (rget p o) (Nat.land (v % 2 ^ 32) (lockMask o))) := by
  simp only [regWrite, locked, hl, hn, hm, Bool.not_true, Bool.or_false, Bool.false_eq_true, if_false, if_true, ne_eq, not_false_eq_true]

theorem bits_low (n hi : Nat) : bits n hi 0 = n % 2 ^ (hi + 1) := rfl

/-- A field of range `ok` takes a value that fits it, and keeps its old one otherwise. -/
theorem rfld_rangeField (p : Pkg) (o hi lo v : Nat) (ok : Nat → Bool) (h : lo ≤ hi) (hn : hi < 32) :
    rfld (rangeField p o hi lo v ok) o hi lo = if ok (bits v hi lo) then bits v hi lo else rfld p o hi lo := by
  rw [rangeField]
  split
  · rw [rfld_rsetf_self _ _ _ _ _ h hn, Nat.mod_eq_of_lt (bits_lt _ _ _)]
  · rfl

theorem rfld_rangeField_other (p : Pkg) {o hi lo hi' lo' : Nat} (v : Nat) (ok : Nat → Bool) (h : lo ≤ hi) (hn : hi < 32) (h' : lo' ≤ hi')
    (hd : hi' < lo ∨ hi < lo') : rfld (rangeField p o hi lo v ok) o hi' lo' = rfld p o hi' lo' := by
  rw [rangeField]
  split
  · exact rfld_rsetf_other _ _ _ _ _ _ _ h hn h' hd
  · rfl

theorem rget_rangeField_ne (p : Pkg) {o o' : Nat} (hi lo v : Nat) (ok : Nat → Bool) (h : o' ≠ o) :
    rget (rangeField p o hi lo v ok) o' = rget p o' := by
  rw [rangeField]
  split
  · exact rget_rsetf_ne _ _ _ _ h
  · rfl

theorem rangeField_mem (p : Pkg) (o hi lo v : Nat) (ok : Nat → Bool) : (rangeField p o hi lo v ok).mem = p.mem := by
  rw [rangeField]
  split <;> rfl

/-! `FAB.OWLCFG` (R336) -/

/-- The sampling rule of a port as a write leaves it. -/
def owlRule (p : Pkg) (q v : Nat) : Pkg :=
  rangeField (rsetf p (rFabOwlcfg q) 7 5 (v >>> 5)) (rFabOwlcfg q) 4 0 v (fun k => k == 0 || (decide (4 ≤ k) && decide (k ≤ 20)))

/-- The sampling count of a port begins anew. -/
def owlRestarted (p : Pkg) (q : Nat) : Pkg := { p with ports := sset p.ports q { sget p.ports q {} with owl := 0 } }

theorem exec_owlcfgWrite (q : Fin 128) (v : W32) (s : State) (h : live s.pkg = true) :
    exec (.owlcfgWrite q v) s = .next (Safety.withPkg s (owlRestarted (owlRule s.pkg q v.toNat) q)) := by
  rw [show exec (.owlcfgWrite q v) s = execOwlcfgWrite q v s from rfl, execOwlcfgWrite, run_eq, if_pos h]
  rfl

theorem owlRule_high (p : Pkg) (q v : Nat) : rfld (owlRule p q v) (rFabOwlcfg q) 7 5 = bits v 7 5 := by
  rw [owlRule, rfld_rangeField_other _ _ _ (by decide) (by decide) (by decide) (by decide), rfld_rsetf_self _ _ _ _ _ (by decide) (by decide)]
  rfl

theorem owlRule_low (p : Pkg) (q v : Nat) : rfld (owlRule p q v) (rFabOwlcfg q) 4 0 =
    if v % 32 = 0 ∨ 4 ≤ v % 32 ∧ v % 32 ≤ 20 then v % 32 else rfld p (rFabOwlcfg q) 4 0 := by
  rw [owlRule, rfld_rangeField _ _ _ _ _ _ (by decide) (by decide), rfld_rsetf_other _ _ _ _ _ _ _ (by decide) (by decide) (by decide) (by decide),
    bits_low]
  simp only [Bool.or_eq_true, beq_iff_eq, Bool.and_eq_true, decide_eq_true_eq, Nat.reduceAdd, Nat.reducePow]

theorem owlRule_other (p : Pkg) (q v : Nat) {o : Nat} (h : o ≠ rFabOwlcfg q) : rget (owlRule p q v) o = rget p o := by
  rw [owlRule, rget_rangeField_ne _ _ _ _ _ h, rget_rsetf_ne _ _ _ _ h]

/-- Settles O20: each register by its write's equation, then what is read of the word written and of every other. -/
theorem registerWrites : Obligations.RegisterWrites := by
  intro s w hl
  refine ⟨fun o v ho hk => ?locked, fun o v ho => ?readOnly, fun i v => ?scratch, fun v hk => ?limit, fun o v ho => ?lock, fun q v => ?owl⟩
  case locked => rw [exec_registerWrite w v s ho, regPut_of_unchanged (regWrite_of_locked v.toNat hk)]
  case readOnly =>
    have hw : o % 4 = 0 ∧ ¬Writable o := by
      revert o
      simp only [Writable]
      decide
    rw [exec_registerWrite w v s hw.1, regPut_of_unchanged (regWrite_of_readOnly s.pkg w v.toNat hw.2)]
  case scratch =>
    have hi : rGlbScratch i % 4 = 0 ∧ rGlbScratch i ≠ rFabPspare := by revert i; decide
    refine ⟨_, exec_registerWrite w v s hi.1, ?_⟩
    rw [regPut_of_ne hi.2, regWrite_scratch w i v.toNat hl, Nat.mod_eq_of_lt v.isLt]
    exact ⟨(rget_rset_self _ _ _).trans (Nat.mod_eq_of_lt v.isLt), fun o ho => rget_rset_ne _ _ ho, rfl, rfl⟩
  case limit =>
    refine ⟨_, exec_registerWrite w v s rfl, ?_⟩
    rw [regPut_of_ne (by decide), regWrite_limit w v.toNat hl hk, Nat.mod_eq_of_lt v.isLt]
    refine ⟨?_, fun o ho => rget_rangeField_ne _ _ _ _ _ ho, rangeField_mem _ _ _ _ _ _⟩
    rw [rfld_rangeField _ _ _ _ _ _ (by decide) (by decide), bits_low]
    simp only [Bool.and_eq_true, decide_eq_true_eq, Nat.reduceAdd]
  case lock =>
    have hk : lockOf o = none ∧ lockMask o ≠ 0 ∧ o % 4 = 0 ∧ o ≠ rFabPspare := by revert o; decide
    obtain ⟨hn, hm, h4, hp⟩ := hk
    refine ⟨_, exec_registerWrite w v s h4, ?_⟩
    rw [regPut_of_ne hp, regWrite_lock w v.toNat hl hn hm, Nat.mod_eq_of_lt v.isLt]
    have hlt : Nat.lor (rget s.pkg o) (Nat.land v.toNat (lockMask o)) < 2 ^ 32 :=
      Nat.or_lt_two_pow (rget_lt _ _) (Nat.lt_of_le_of_lt Nat.and_le_left v.isLt)
    exact ⟨(rget_rset_self _ _ _).trans (Nat.mod_eq_of_lt hlt), fun o' ho => rget_rset_ne _ _ ho, rfl⟩
  case owl =>
    refine ⟨_, exec_owlcfgWrite q v s hl, ?_, owlRule_high _ _ _, owlRule_low _ _ _, fun o ho => owlRule_other _ _ _ ho, rangeField_mem _ _ _ _ _ _⟩
    exact congrArg Port.owl (sget_sset_self _ _ _ _)

end Sys2Proof.Machine
end

section
/-! PROOFS. Supplies (R430, R431) and resets (R423, R435 to R439): O9, O10. -/

namespace Sys2Proof.Machine

/-! The 12 V and the 48 V input become valid (R430) -/

theorem exec_v12Valid (made : Factory) (s : State) : ∃ st, exec (.v12Valid made) s = .next (Safety.withPkg s
    { rsetb (rsetb s.pkg rPwrStatus 1 true) rPwrStatus 5 (!s.pkg.pins.sensors.isEmpty) with store := st }) := by
  rw [show exec (.v12Valid made) s = execV12Valid made s from rfl, execV12Valid, run_eq]
  simp only
  split <;> exact ⟨_, rfl⟩

theorem exec_v48Valid {mV : Nat} (s : State) (hlo : 40000 ≤ mV) (hhi : mV ≤ 60000) :
    exec (.v48Valid mV) s = .next (Safety.withPkg s (rsetf (rsetb s.pkg rPwrStatus 0 true) rPwrInput 15 0 mV)) := by
  rw [show exec (.v48Valid mV) s = execV48Valid mV s from rfl, execV48Valid, run_eq,
    if_neg (not_or.mpr ⟨Nat.not_lt.mpr hlo, Nat.not_lt.mpr hhi⟩)]

/-! An input is lost (R431) -/

/-- `PWR.STATUS` after the loss of an input: what is left of the other's bits. -/
def pwrAfterLoss (p : Pkg) (v12 : Bool) : Nat := if v12 then b2n (rbit p rPwrStatus 0) else Nat.land (rget p rPwrStatus) 0x22

/-- The package after the loss of an input. -/
def powerLost (p : Pkg) (v12 : Bool) : Pkg :=
  let q := rset (powerOff p) rPwrStatus (pwrAfterLoss p v12)
  if v12 then rset q rPwrInput (rget p rPwrInput) else q

theorem exec_powerLoss {s : State} {v12 : Bool} (h : rbit s.pkg rPwrStatus (b2n v12) = true) :
    exec (.powerLoss v12) s = .next { s with pkg := powerLost s.pkg v12, clk := {} } := by
  rw [show exec (.powerLoss v12) s = execPowerLoss v12 s from rfl, execPowerLoss, h, Bool.not_true, if_neg Bool.false_ne_true]
  rfl

/-- The loss leaves registers beside what `powerOff` leaves. -/
theorem powerLost_eq (p : Pkg) (v12 : Bool) : ∃ r, powerLost p v12 = { powerOff p with regs := r } := by
  cases v12 <;> exact ⟨_, rfl⟩

theorem rget_powerLost_status (p : Pkg) (v12 : Bool) : rget (powerLost p v12) rPwrStatus = pwrAfterLoss p v12 % 2 ^ 32 := by
  cases v12 with
  | false => exact rget_rset_self _ _ _
  | true => exact (rget_rset_ne _ _ (by decide)).trans (rget_rset_self _ _ _)

theorem rget_powerLost_stage (p : Pkg) (v12 : Bool) : stageOf (powerLost p v12) = 0 := by
  have h : rget (powerLost p v12) rGlbStatus = 0 := by
    cases v12 with
    | false => exact rget_rset_ne _ _ (by decide)
    | true => exact (rget_rset_ne _ _ (by decide)).trans (rget_rset_ne _ _ (by decide))
  rw [stageOf, rfld, h]
  rfl

/-- The bit of the input that was lost is clear. -/
theorem rbit_powerLost (p : Pkg) (v12 : Bool) : rbit (powerLost p v12) rPwrStatus (b2n v12) = false := by
  rw [rbit, rget_powerLost_status, pwrAfterLoss]
  cases v12 with
  | false =>
    have h22 : bit 0x22 0 = false := rfl
    rw [bit_eq_testBit] at h22 ⊢
    rw [Nat.testBit_mod_two_pow]
    exact (congrArg (_ && ·) (Nat.testBit_and _ _ _)).trans (by rw [show b2n false = 0 from rfl, h22, Bool.and_false, Bool.and_false])
  | true =>
    rw [if_pos rfl]
    cases rbit p rPwrStatus 0 <;> decide

/-- Settles O9: each input by its command's equation; the loss keeps the store and host memory of what the package held. -/
theorem suppliesComeAndGo : Obligations.SuppliesComeAndGo := by
  refine ⟨⟨fun s made => ?v12, fun s mV hlo hhi => ?v48⟩, fun s v12 h => ?loss⟩
  case v12 =>
    obtain ⟨st, he⟩ := exec_v12Valid made s
    refine ⟨_, he, ?_, fun o ho => ?_, rfl, rfl⟩
    · exact (rbit_rsetb_other _ _ _ _ _ (by decide) (by decide)).trans (rbit_rsetb_self _ _ _ _ (by decide))
    · exact (rget_rsetb_ne _ _ _ ho).trans (rget_rsetb_ne _ _ _ ho)
  case v48 =>
    refine ⟨_, exec_v48Valid s hlo hhi, ?_, ?_, fun o h1 h2 => ?_, rfl, rfl, rfl⟩
    · rw [rbit_rsetf_ne _ _ _ _ _ (by decide), rbit_rsetb_self _ _ _ _ (by decide)]
    · rw [rfld_rsetf_self _ _ _ _ _ (by decide) (by decide)]
      exact Nat.mod_eq_of_lt (by omega)
    · rw [rget_rsetf_ne _ _ _ _ h2, rget_rsetb_ne _ _ _ h1]
  case loss =>
    refine ⟨_, exec_powerLoss h, ?_⟩
    obtain ⟨r, he⟩ := powerLost_eq s.pkg v12
    have hs := rget_powerLost_stage s.pkg v12
    have hb := rbit_powerLost s.pkg v12
    rw [he] at hs hb ⊢
    exact ⟨fun _ => rfl, rfl, rfl, rfl, rfl, rfl, rfl, rfl, rfl, hs, hb⟩

/-! What a reset leaves (R435, R436; Table 18.3) -/

theorem sget_filter_of_true {α : Type} (m : SMap α) {f : Nat → Bool} {k : Nat} (d : α) (h : f k = true) :
    sget (m.filter (fun e => f e.1)) k d = sget m k d := by
  induction m with
  | nil => rfl
  | cons e m ih =>
    rw [List.filter_cons]
    split
    case isTrue => rw [sget, sget, ih]
    case isFalse he =>
      have hk : e.1 ≠ k := fun hek => he (hek ▸ h)
      rw [ih, sget, if_neg hk]

/-- A byte of memory of which only one part is kept. -/
theorem mget_filter (m : Mem) (f : Nat → Bool) (a : Nat) : mget (m.filter (fun e => f e.1)) a = if f a then mget m a else 0 := by
  split
  case isTrue h => exact sget_filter_of_true m _ h
  case isFalse h => exact sget_filter_of_false m _ (Bool.eq_false_iff.mpr h)

theorem rget_resetPkg_cause (p : Pkg) (k : Nat) : rget (resetPkg p k) rGlbResetcause = k % 2 ^ 32 := by
  unfold resetPkg
  simp only
  rw [rget_rset_ne _ _ (by decide), rget_rset_ne _ _ (by decide), rget_rset_ne _ _ (by decide), rget_rsetb_ne _ _ _ (by decide),
    rget_rsetf_ne _ _ _ _ (by decide)]
  have hb : ∀ q : Pkg, rget (rsetb q rFabStatus 1 true) rGlbResetcause = rget q rGlbResetcause := fun q => rget_rsetb_ne _ _ _ (by decide)
  rw [apply_ite (rget · rGlbResetcause), hb, ite_self, rget_rsetb_ne _ _ _ (by decide)]
  exact rget_rset_self _ _ _

/-- The package is at stage 0: `GLB.STATUS` reads its reset value. -/
theorem stageOf_resetPkg (p : Pkg) (k : Nat) : stageOf (resetPkg p k) = 0 := by
  have hf : keptReg rGlbStatus = false := by decide
  have hb : ∀ q : Pkg, rget (rsetb q rFabStatus 1 true) rGlbStatus = rget q rGlbStatus := fun q => rget_rsetb_ne _ _ _ (by decide)
  have h0 : rget (resetPkg p k) rGlbStatus = 0 := by
    unfold resetPkg
    simp only
    rw [rget_rset_ne _ _ (by decide), rget_rset_ne _ _ (by decide), rget_rset_ne _ _ (by decide), rget_rsetb_ne _ _ _ (by decide),
      rget_rsetf_ne _ _ _ _ (by decide), apply_ite (rget · rGlbStatus), hb, ite_self, rget_rsetb_ne _ _ _ (by decide)]
    refine (rget_rset_ne _ _ (by decide)).trans ?_
    rw [rget, sget_filter_of_false _ _ hf]
    rfl
  rw [stageOf, rfld, h0]
  rfl

/-- The pins stand through a reset, but for what the token, the report and the watchdogs left on them. -/
theorem resetPkg_pins (p : Pkg) (k : Nat) : (resetPkg p k).pins =
    { p.pins with token := [], tokNext := 0, baudNext := none, report := [], reportState := 0, asker := none, wdog := [], wake := none } := by
  unfold resetPkg
  simp only
  split <;> rfl

/-- Other pins leave the rest of a package. -/
def withPins (p : Pkg) (y : Pins) : Pkg := { p with pins := y }

/-- What of a package tells that a reset of a kind has come over `p`. -/
structure IsReset (p q : Pkg) (kind : Nat) : Prop where
  mem : q.mem = p.mem.filter (fun e => isHbm e.1)
  host : q.host = p.host
  plans : q.plans = p.plans
  store : q.store = p.store
  ctxs : q.ctxs = p.ctxs
  ops : q.ops = []
  launches : q.launches = []
  ledger : q.ledger = []
  outs : q.outs = []
  resps : q.resps = []
  den : q.den = {}
  cause : rget q rGlbResetcause = kind % 2 ^ 32
  stage : stageOf q = 0

theorem isReset_resetPkg (p : Pkg) (kind : Nat) : IsReset p (resetPkg p kind) kind := by
  obtain ⟨hmem, hhost, hplans, hstore, hctxs, hops, hlaunches, hledger, -, houts, hresps, hden, -⟩ := resetPkg_keeps p kind
  exact ⟨hmem, hhost, hplans, hstore, hctxs, hops, hlaunches, hledger, houts, hresps, hden, rget_resetPkg_cause p kind, stageOf_resetPkg p kind⟩

/-- Pins are no part of it, before the reset or after it. -/
theorem IsReset.of_withPins {p q : Pkg} {kind : Nat} {x : Pins} (h : IsReset (withPins p x) q kind) : IsReset p q kind :=
  ⟨h.mem, h.host, h.plans, h.store, h.ctxs, h.ops, h.launches, h.ledger, h.outs, h.resps, h.den, h.cause, h.stage⟩

theorem IsReset.withPins {p q : Pkg} {kind : Nat} (h : IsReset p q kind) (y : Pins) : IsReset p (withPins q y) kind :=
  ⟨h.mem, h.host, h.plans, h.store, h.ctxs, h.ops, h.launches, h.ledger, h.outs, h.resps, h.den, h.cause, h.stage⟩

/-- A reset of a kind leaves what Table 18.3 says. -/
theorem IsReset.done {s : State} {q : Pkg} {kind : Nat} (h : IsReset s.pkg q kind) (hk : kind < 8) :
    Safety.ResetDone s (Safety.withPkg s q) kind := by
  refine ⟨fun a => ?mem, h.plans, h.store, h.ctxs, h.host, h.ledger, h.ops, h.launches, h.resps, h.outs, h.den, rfl, ?cause, h.stage⟩
  case mem => exact (congrArg (mget · a) h.mem).trans (mget_filter _ _ _)
  case cause =>
    have hc := h.cause
    rw [Nat.mod_eq_of_lt (by omega)] at hc
    exact (congrArg (bits · 2 0) hc).trans (Nat.mod_eq_of_lt hk)

/-! The keyed write (R417, R423) -/

theorem exec_glbReset (w : Fin 4) (v : W32) (s : State) :
    exec (.glbReset w v) s = .next (Safety.withPkg s (regWrite s.pkg w rGlbReset v.toNat)) := rfl

theorem locked_glbReset (p : Pkg) (w : Requester) : locked p w rGlbReset = rbit p rGlbLock 0 := by
  rw [show locked p w rGlbReset = (rbit p rGlbLock 0 && !(false && byKeeper w)) from rfl, Bool.false_and, Bool.not_false, Bool.and_true]

/-- What a write of `GLB.RESET` does in a package with its 12 V input valid and the lock clear. -/
theorem regWrite_glbReset {p : Pkg} (w : Requester) (v : Nat) (hl : live p = true) (hk : rbit p rGlbLock 0 = false) :
    regWrite p w rGlbReset v = if v % 2 ^ 32 / 2 ^ 16 = 0x5A5A ∧ bit (v % 2 ^ 32) 0 ∧ !p.pins.tripped ∧ !p.pins.resetLow then resetPkg p 2
      else p := by
  rw [regWrite, hl, locked_glbReset, hk]
  rfl

theorem regWrite_glbReset_resets {p : Pkg} (w : Requester) {v : W32} (hl : live p = true) (ht : p.pins.tripped = false)
    (hr : p.pins.resetLow = false) (hk : rbit p rGlbLock 0 = false) (hv : v.toNat / 2 ^ 16 = 0x5A5A) (hb : bit v.toNat 0 = true) :
    regWrite p w rGlbReset v.toNat = resetPkg p 2 := by
  rw [regWrite_glbReset w _ hl hk, Nat.mod_eq_of_lt v.isLt]
  exact if_pos ⟨hv, hb, by rw [ht]; rfl, by rw [hr]; rfl⟩

theorem regWrite_glbReset_ignored {p : Pkg} (w : Requester) {v : W32}
    (h : rbit p rGlbLock 0 = true ∨ v.toNat / 2 ^ 16 ≠ 0x5A5A ∨ bit v.toNat 0 = false) : regWrite p w rGlbReset v.toNat = p := by
  by_cases hd : (!live p || locked p w rGlbReset) = true
  · exact if_pos hd
  · simp only [Bool.or_eq_true, Bool.not_eq_true', not_or, Bool.not_eq_false, locked_glbReset, Bool.not_eq_true] at hd
    obtain ⟨hl, hk⟩ := hd
    rw [regWrite_glbReset w _ hl hk, Nat.mod_eq_of_lt v.isLt]
    refine if_neg fun ⟨hv, hb, _⟩ => ?_
    rcases h with h | h | h
    · exact Bool.false_ne_true (hk.symm.trans h)
    · exact h hv
    · exact Bool.false_ne_true (h.symm.trans hb)

/-! RESET_N and the exit from thermal trip (R435, R438) -/

theorem exec_resetNAssert {s : State} (hl : live s.pkg = true) (ht : s.pkg.pins.tripped = false) :
    exec .resetNAssert s = .next (Safety.withPkg s (resetPkg (withPins s.pkg { s.pkg.pins with resetLow := true }) 1)) := by
  rw [show exec .resetNAssert s = execResetNAssert s from rfl, execResetNAssert, run_eq]
  refine congrArg (fun q => Host.Outcome.next (Safety.withPkg s q)) (if_pos ?_)
  rw [show live { s.pkg with pins := { s.pkg.pins with resetLow := true } } = live s.pkg from rfl, hl, ht]
  rfl

theorem exec_resetNRelease (s : State) :
    exec .resetNRelease s = .next (Safety.withPkg s { s.pkg with pins := { s.pkg.pins with resetLow := false } }) := rfl

theorem exec_thermalTripExit {s : State} {temp : Nat} (ht : s.pkg.pins.tripped = true) (hw : sext 16 temp < sext 16 (rget s.pkg rPwrTwarn)) :
    exec (.thermalTripExit temp) s = .next (Safety.withPkg s
      (withPins (resetPkg s.pkg 4) { (resetPkg s.pkg 4).pins with tripped := false })) := by
  rw [show exec (.thermalTripExit temp) s = execThermalTripExit temp s from rfl, execThermalTripExit, run_eq]
  exact congrArg (fun q => Host.Outcome.next (Safety.withPkg s q)) (if_neg (not_or.mpr ⟨by rw [ht]; exact Bool.false_ne_true, not_le.mpr hw⟩))

/-- Settles O10: each command resets, or stays, by its equation, and a reset of any kind leaves what `resetDone_resetPkg` says. -/
theorem resetKinds : Obligations.ResetKinds := by
  refine ⟨⟨fun s hl ht => ?low, fun s w v hl ht hr hk hv hb => ?keyed, fun s temp ht hw => ?exit, fun s => ⟨_, exec_resetNRelease s, rfl, rfl, rfl⟩⟩,
    fun s w v h => ?ignored⟩
  case low => exact ⟨_, exec_resetNAssert hl ht, (isReset_resetPkg _ 1).of_withPins.done (by decide), congrArg Pins.resetLow (resetPkg_pins _ _)⟩
  case keyed =>
    refine ⟨_, exec_glbReset w v s, ?_⟩
    rw [regWrite_glbReset_resets w hl ht hr hk hv hb]
    exact (isReset_resetPkg s.pkg 2).done (by decide)
  case exit => exact ⟨_, exec_thermalTripExit ht hw, ((isReset_resetPkg s.pkg 4).withPins _).done (by decide), rfl⟩
  case ignored => rw [exec_glbReset, regWrite_glbReset_ignored w h]

end Sys2Proof.Machine
end

section
/-! PROOFS. Start-up: the image chosen (R445, R464) and the stages passed (R111, R418, R432, R447): O14. -/

namespace Sys2Proof.Machine

theorem foldl_keeps {α β γ : Type} (φ : β → γ) {f : β → α → β} (h : ∀ b a, φ (f b a) = φ b) (l : List α) (b : β) : φ (l.foldl f b) = φ b :=
  List.foldlRecOn (motive := fun q => φ q = φ b) l f rfl (fun q hq a _ => (h q a).trans hq)

/-! What of the package store start-up reads -/

/-- Images, copies of the configuration, the rollback counter, and whether the package is retired. -/
def bootPart (p : Pkg) : Option Image × Option Image × List CfgRec × Nat × Bool :=
  (p.store.imgA, p.store.imgB, p.store.copies, p.store.rollback, p.store.retired)

section
variable {p q : Pkg} (h : bootPart q = bootPart p)
include h

theorem topCopies_of_bootPart : topCopies q = topCopies p := by
  have hc : q.store.copies = p.store.copies := congrArg (fun x => x.2.2.1) h
  rw [topCopies, topCopies, hc]

theorem retired_of_bootPart : q.store.retired = p.store.retired := congrArg (fun x => x.2.2.2.2) h

theorem image_of_bootPart (k : Nat) : image q k = image p k := by
  have ha : q.store.imgA = p.store.imgA := congrArg (fun x => x.1) h
  have hb : q.store.imgB = p.store.imgB := congrArg (fun x => x.2.1) h
  rw [image, image, ha, hb]

theorem firstImage_of_bootPart : firstImage q = firstImage p := by
  have ha : q.store.imgA = p.store.imgA := congrArg (fun x => x.1) h
  have hb : q.store.imgB = p.store.imgB := congrArg (fun x => x.2.1) h
  rw [firstImage, firstImage, ha, hb]

theorem imageCheck_of_bootPart (i : Option Image) : imageCheck q i = imageCheck p i := by
  have hr : q.store.rollback = p.store.rollback := congrArg (fun x => x.2.2.2.1) h
  unfold imageCheck
  rw [hr]

end

theorem Outward.bootPart {p q : Pkg} (h : Outward p q) : bootPart q = bootPart p := by
  obtain ⟨_, _, _, _, _, rfl⟩ := h
  rfl

/-! A verified image starts (R445) -/

theorem firstImage_le (p : Pkg) : firstImage p ≤ 1 := by
  unfold firstImage
  simp only
  split <;> decide

/-- What a started image leaves before the stage: status, version, hash, protocol level, DSR. -/
def imageShown (p : Pkg) (k : Nat) (i : Image) : Pkg :=
  loadDsr (rset (rsetBytes (rset (rsetb (rsetb p rSecStatus 0 true) rSecStatus 1 (k == 1)) rGlbFwver (imgVersion i + k * 2 ^ 31))
    (rSecFwhash 0) (i.digest.take 48)) rHltProto (i.proto % 2 ^ 8 * 0x101)) i

theorem imageShown_store (p : Pkg) (k : Nat) (i : Image) : (imageShown p k i).store = p.store := rsetBytes_store _ _ _

theorem startImage_of_service {p : Pkg} (k : Nat) (i : Image) (h : p.store.retired = false) :
    startImage p k i = rsetf (imageShown p k i) rGlbStatus 10 8 1 := by
  have hr : (imageShown p k i).store.retired = false := by rw [imageShown_store, h]
  exact if_neg (Bool.eq_false_iff.mp hr)

theorem rget_imageShown (p : Pkg) (k : Nat) (i : Image) {o : Nat} (ho : o = rSecStatus ∨ o = rGlbFwver) : rget (imageShown p k i) o =
    rget (rset (rsetb (rsetb p rSecStatus 0 true) rSecStatus 1 (k == 1)) rGlbFwver (imgVersion i + k * 2 ^ 31)) o := by
  have hlen : (i.digest.take 48).length ≤ 48 := List.length_take_le _ _
  have hd : o ≠ rGlbDcid ∧ o ≠ rTimDsr 1 ∧ o ≠ rTimDsr 0 ∧ o ≠ rHltProto := by rcases ho with rfl | rfl <;> decide
  have hh : o < rSecFwhash 0 ∨ rSecFwhash 0 + (i.digest.take 48).length ≤ o := .inl (by rcases ho with rfl | rfl <;> decide)
  rw [imageShown, loadDsr, rget_rset_ne _ _ hd.1, rget_rset_ne _ _ hd.2.1, rget_rset_ne _ _ hd.2.2.1, rget_rset_ne _ _ hd.2.2.2,
    rget_rsetBytes_outside _ _ _ _ hh]

/-- The image runs: stage 1, IMGOK, which image, and its version. -/
theorem startImage_shows {p : Pkg} {k : Nat} (i : Image) (h : p.store.retired = false) (hk : k ≤ 1) :
    stageOf (startImage p k i) = 1 ∧ rbit (startImage p k i) rSecStatus 0 = true ∧ rbit (startImage p k i) rSecStatus 1 = (k == 1) ∧
      rget (startImage p k i) rGlbFwver = imgVersion i + k * 2 ^ 31 := by
  have hv : imgVersion i + k * 2 ^ 31 < 2 ^ 32 := by
    have : imgVersion i < 2 ^ 31 := Nat.mod_lt _ (Nat.two_pow_pos _)
    omega
  rw [startImage_of_service k i h]
  refine ⟨rfld_rsetf_self _ _ _ _ _ (by decide) (by decide), ?_, ?_, ?_⟩
  · rw [rbit_rsetf_ne _ _ _ _ _ (by decide), rbit, rget_imageShown _ _ _ (.inl rfl), ← rbit, rbit_rset_ne _ _ _ (by decide),
      rbit_rsetb_other _ _ _ _ _ (by decide) (by decide), rbit_rsetb_self _ _ _ _ (by decide)]
  · rw [rbit_rsetf_ne _ _ _ _ _ (by decide), rbit, rget_imageShown _ _ _ (.inl rfl), ← rbit, rbit_rset_ne _ _ _ (by decide),
      rbit_rsetb_self _ _ _ _ (by decide)]
  · rw [rget_rsetf_ne _ _ _ _ (by decide), rget_imageShown _ _ _ (.inr rfl), rget_rset_self, Nat.mod_eq_of_lt hv]

theorem recovery_shows (p : Pkg) :
    stageOf (recovery p) = 5 ∧ rbit (recovery p) rGlbStatus 2 = true ∧ rbit (recovery p) rSecStatus 2 = true := by
  refine ⟨rfld_rsetf_self _ _ _ _ _ (by decide) (by decide), ?_, ?_⟩
  · rw [recovery, rbit_rsetf_other _ _ _ _ _ _ (by decide) (by decide) (by decide), rbit_rsetb_self _ _ _ _ (by decide)]
  · rw [recovery, rbit_rsetf_ne _ _ _ _ _ (by decide), rbit_rsetb_ne _ _ _ _ (by decide), rbit_rsetb_self _ _ _ _ (by decide)]

/-! The image chosen (R445) -/

section
variable {p : Pkg} (c : Clock)

theorem bootPart_imageFailed (k chk : Nat) : bootPart (imageFailed p c k chk) = bootPart p := (outward_logEntry _ _ _ _ _ _ _).bootPart

theorem bootImages_first {i : Image} (hc : imageCheck p (image p (firstImage p)) = none) (hi : image p (firstImage p) = some i) :
    bootImages p c = startImage p (firstImage p) i := by
  rw [hi] at hc
  simp only [bootImages, hi, hc]

theorem bootImages_second {i : Image} (hf : imageCheck p (image p (firstImage p)) ≠ none)
    (hc : imageCheck p (image p (1 - firstImage p)) = none) (hi : image p (1 - firstImage p) = some i) :
    ∃ chk, bootImages p c = startImage (imageFailed p c (firstImage p) chk) (1 - firstImage p) i := by
  obtain ⟨e, he⟩ := Option.ne_none_iff_exists'.mp hf
  rw [hi] at hc
  exact ⟨e, by simp only [bootImages, he, Option.getD_some, image_of_bootPart (bootPart_imageFailed c _ _),
    imageCheck_of_bootPart (bootPart_imageFailed c _ _), hi, hc]⟩

theorem bootImages_neither (hf : imageCheck p (image p (firstImage p)) ≠ none) (hs : imageCheck p (image p (1 - firstImage p)) ≠ none) :
    ∃ q, bootImages p c = recovery q := by
  obtain ⟨e, he⟩ := Option.ne_none_iff_exists'.mp hf
  obtain ⟨e', he'⟩ := Option.ne_none_iff_exists'.mp hs
  exact ⟨imageFailed (imageFailed p c (firstImage p) e) c (1 - firstImage p) e', by
    simp only [bootImages, he, he', Option.getD_some, image_of_bootPart (bootPart_imageFailed c _ _),
      imageCheck_of_bootPart (bootPart_imageFailed c _ _)]⟩

end

/-! The configuration chosen (R443, R464) -/

/-- The registers that show the package store, before a copy is chosen. -/
def storeShown (p : Pkg) : Pkg :=
  let p := rset p rSecRollback p.store.rollback
  let p := rsetBytes p (rSecIdhash 0) (p.store.idhash.take 48)
  let p := rset p rGlbBootcnt p.store.bootCnt
  rsetf p rSecCfgstat 2 0 ((p.store.copies.zipIdx.map (fun e => b2n e.1.intact * 2 ^ e.2)).foldl (fun a b => a + b) 0)

theorem bootPart_storeShown (p : Pkg) : bootPart (storeShown p) = bootPart p :=
  ((((outward_rset _ _ _).trans (outward_rsetBytes _ _ _)).trans (outward_rset _ _ _)).trans (outward_rset _ _ _)).bootPart

/-- A record is in use: the copy's position, its number, and its values. -/
def recordTaken (p : Pkg) (r : CfgRec) (k : Nat) : Pkg := loadRecord (rset (rsetf p rSecCfgstat 5 4 k) rSecCfgseq r.seq) r

theorem loadTrend_store (p : Pkg) (e : Nat × Nat × Nat × Nat) : (loadTrend p e).store = p.store := by
  unfold loadTrend
  simp only
  split <;> rfl

theorem loadSlots_store (p : Pkg) (r : CfgRec) : (loadSlots p r).store = p.store := by
  unfold loadSlots
  split
  · exact foldl_keeps Pkg.store (f := fun q (e : Nat × Nat) => rset (rset q (rRslotLo e.2) (e.1 / 2 ^ 30 * 2 ^ 30)) (rRslotHi e.2) (e.1 / 2 ^ 32))
      (fun _ _ => rfl) _ p
  · rfl

theorem loadRecord_store (p : Pkg) (r : CfgRec) : (loadRecord p r).store = p.store := by
  unfold loadRecord
  simp only
  rw [loadSlots_store, foldl_keeps Pkg.store loadTrend_store]
  split <;> rfl

theorem bootPart_recordTaken (p : Pkg) (r : CfgRec) (k : Nat) : bootPart (recordTaken p r k) = bootPart p := by
  rw [bootPart, recordTaken, loadRecord_store]
  rfl

/-- What stage 0 makes of the copies and the images. -/
def chosen (p : Pkg) (c : Clock) : Pkg :=
  match topCopies p with
  | [] => cfgConflict p c 0
  | (r, k) :: rest => if rest.any (fun e => e.1 != r) then cfgConflict p c r.seq else bootImages (recordTaken p r k) c

theorem exec_bootVerify {s : State} (hl : live s.pkg = true) (hr : s.pkg.pins.resetLow = false) (ht : s.pkg.pins.tripped = false)
    (h0 : stageOf s.pkg = 0) : exec .bootVerify s = .next (Safety.withPkg s (chosen (storeShown s.pkg) s.clk)) := by
  rw [show exec .bootVerify s = execBootVerify s from rfl, execBootVerify, run_eq]
  refine congrArg (fun q => Host.Outcome.next (Safety.withPkg s q)) (if_neg ?_)
  simp only [hl, hr, ht, h0, Bool.not_true, Bool.false_eq_true, ne_eq, not_true_eq_false, or_self, not_false_eq_true]

/-- No copy, or two that differ, are a conflict. -/
theorem chosen_conflict {p : Pkg} (c : Clock)
    (h : topCopies p = [] ∨ ∃ r k rest, topCopies p = (r, k) :: rest ∧ ∃ e ∈ rest, e.1 ≠ r) : ∃ seq, chosen p c = cfgConflict p c seq := by
  unfold chosen
  rcases h with h | ⟨r, k, rest, h, e, he, hne⟩
  · rw [h]
    exact ⟨0, rfl⟩
  · rw [h]
    dsimp only
    exact ⟨r.seq, if_pos (List.any_eq_true.mpr ⟨e, he, by exact bne_iff_ne.mpr hne⟩)⟩

theorem chosen_agree {p : Pkg} (c : Clock) {r : CfgRec} {k : Nat} {rest : List (CfgRec × Nat)} (h : topCopies p = (r, k) :: rest)
    (hr : ∀ e ∈ rest, e.1 = r) : chosen p c = bootImages (recordTaken p r k) c := by
  unfold chosen
  rw [h]
  dsimp only
  refine if_neg fun ha => ?_
  obtain ⟨e, he, hne⟩ := List.any_eq_true.mp ha
  exact bne_iff_ne.mp hne (hr e he)

theorem cfgConflict_shows (p : Pkg) (c : Clock) (seq : Nat) : stageOf (cfgConflict p c seq) = 5 ∧
    rbit (cfgConflict p c seq) rGlbStatus 3 = true ∧ rbit (cfgConflict p c seq) rSecCfgstat 8 = true ∧
    rfld (cfgConflict p c seq) rSecCfgstat 5 4 = 3 := by
  unfold cfgConflict
  simp only
  refine ⟨?_, ?_, ?_, ?_⟩
  · rw [stageOf, rfld_logEntry _ _ _ _ _ _ _ _ _ _ (by decide), rfld_rsetf_self _ _ _ _ _ (by decide) (by decide)]
    rfl
  · rw [rbit_logEntry _ _ _ _ _ _ _ _ _ (by decide), rbit_rsetf_other _ _ _ _ _ _ (by decide) (by decide) (by decide),
      rbit_rsetb_self _ _ _ _ (by decide)]
  · rw [rbit_logEntry _ _ _ _ _ _ _ _ _ (by decide), rbit_rsetf_ne _ _ _ _ _ (by decide), rbit_rsetb_ne _ _ _ _ (by decide),
      rbit_rsetf_other _ _ _ _ _ _ (by decide) (by decide) (by decide), rbit_rsetb_self _ _ _ _ (by decide)]
  · rw [rfld_logEntry _ _ _ _ _ _ _ _ _ _ (by decide), rfld_rsetf_ne _ _ _ _ _ _ (by decide), rfld_rsetb_ne _ _ _ _ _ (by decide),
      rfld_rsetf_self _ _ _ _ _ (by decide) (by decide)]
    rfl

/-- With a record in use the images decide, as the package store holds them. -/
theorem exec_bootVerify_agree {s : State} (hl : live s.pkg = true) (hr : s.pkg.pins.resetLow = false) (ht : s.pkg.pins.tripped = false)
    (h0 : stageOf s.pkg = 0) {r : CfgRec} {k : Nat} {rest : List (CfgRec × Nat)} (h : topCopies s.pkg = (r, k) :: rest)
    (hs : ∀ e ∈ rest, e.1 = r) :
    ∃ q, bootPart q = bootPart s.pkg ∧ exec .bootVerify s = .next (Safety.withPkg s (bootImages q s.clk)) := by
  have hb := bootPart_storeShown s.pkg
  refine ⟨_, (bootPart_recordTaken (storeShown s.pkg) r k).trans hb, ?_⟩
  rw [exec_bootVerify hl hr ht h0, chosen_agree s.clk ((topCopies_of_bootPart hb).trans h) hs]

/-! Stage 2 (R432) -/

/-- The stacks are trained. -/
def hbmUp (p : Pkg) : Pkg :=
  let p := rsetf (rsetb p rMemStatus 0 true) rGlbStatus 10 8 2
  { p with store := { p.store with training := true } }

theorem mayTrain_hbmUp (p : Pkg) : mayTrain (hbmUp p) = mayTrain p := by
  have hs : rget (hbmUp p) rFabPspare = rget p rFabPspare :=
    (rget_rsetf_ne _ _ _ _ (by decide)).trans (rget_rsetb_ne _ _ _ (by decide))
  have hp : rget (hbmUp p) rFabPlace = rget p rFabPlace :=
    (rget_rsetf_ne _ _ _ _ (by decide)).trans (rget_rsetb_ne _ _ _ (by decide))
  funext q
  simp only [mayTrain, ownPlace, rbit, rfld, hs, hp]
  rfl

/-- Ports that take a state leave the registers that no port's state touches. -/
theorem rget_setPorts_ne (c : Clock) (st : Nat) {l : List Nat} {o : Nat} (h : countReg o = false) (hl : ∀ q ∈ l, o ≠ rFabPstate q) (p : Pkg) :
    rget (l.foldl (fun p q => setPort p c q st) p) o = rget p o :=
  List.foldlRecOn (motive := fun q => rget q o = rget p o) l _ rfl
    (fun q hq a ha => (rget_setPort_ne q c st h (hl a ha)).trans hq)

theorem exec_hbmReady {s : State} (h1 : stageOf s.pkg = 1) (h48 : rbit s.pkg rPwrStatus 0 = true) (ht : s.pkg.pins.tripped = false)
    (hr : s.pkg.pins.resetLow = false) (hm : rbit s.pkg rMemStatus 1 = false) : exec .hbmReady s = .next (Safety.withPkg s
      (((List.range 127).filter (mayTrain s.pkg)).foldl (fun p q => setPort p s.clk q 1) (hbmUp s.pkg))) := by
  rw [← mayTrain_hbmUp, show exec .hbmReady s = execHbmReady s from rfl, execHbmReady, run_eq]
  refine congrArg (fun q => Host.Outcome.next (Safety.withPkg s q)) (if_neg ?_)
  simp only [h1, h48, ht, hr, hm, Bool.not_true, Bool.false_eq_true, ne_eq, not_true_eq_false, or_self, not_false_eq_true]

theorem mem_trainable {p : Pkg} {q : Nat} : q ∈ (List.range 127).filter (mayTrain p) ↔ q < 127 ∧ mayTrain p q = true := by
  rw [List.mem_filter, List.mem_range]

theorem hbmReady_shows {s : State} (h1 : stageOf s.pkg = 1) (h48 : rbit s.pkg rPwrStatus 0 = true) (ht : s.pkg.pins.tripped = false)
    (hr : s.pkg.pins.resetLow = false) (hm : rbit s.pkg rMemStatus 1 = false) :
    ∃ t, exec .hbmReady s = .next t ∧ rbit t.pkg rMemStatus 0 = true ∧ stageOf t.pkg = 2 ∧
      (∀ q, q < 127 → mayTrain s.pkg q = true → rfld t.pkg (rFabPstate q) 2 0 = 1) ∧ t.pkg.mem = s.pkg.mem := by
  have hne : ∀ q ∈ (List.range 127).filter (mayTrain s.pkg), rMemStatus ≠ rFabPstate q ∧ rGlbStatus ≠ rFabPstate q := fun q _ => by
    unfold rMemStatus rGlbStatus rFabPstate
    omega
  refine ⟨_, exec_hbmReady h1 h48 ht hr hm, ?mem, ?stage, fun q hq hmt => ?port, (outward_foldl (fun p q => outward_setPort p _ q 1) _ _).mem⟩
  case mem =>
    rw [rbit, rget_setPorts_ne _ _ (by decide) (fun q hq => (hne q hq).1), ← rbit]
    exact (rbit_rsetf_ne _ _ _ _ _ (by decide)).trans (rbit_rsetb_self _ _ _ _ (by decide))
  case stage =>
    rw [stageOf, rfld, rget_setPorts_ne _ _ (by decide) (fun q hq => (hne q hq).2)]
    exact rfld_rsetf_self _ _ _ _ _ (by decide) (by decide)
  case port =>
    have hlt : ∀ r ∈ (List.range 127).filter (mayTrain s.pkg), r < 128 := fun r hr => Nat.lt_succ_of_lt (mem_trainable.mp hr).1
    rw [foldl_portStates (K := fun _ => True) (new := fun _ _ => 1) (fun _ _ _ _ => trivial)
      (fun p _ r hr k hk => rfld_setPort p s.clk (hlt r hr) hk (by decide)) (List.nodup_range.filter _) trivial (by omega),
      if_pos (mem_trainable.mpr ⟨hq, hmt⟩)]

/-! Stage 3 (R432) -/

/-- A port that still trains has failed. -/
def untrained (c : Clock) (p : Pkg) (q : Nat) : Pkg := if rfld p (rFabPstate q) 2 0 = 1 then setPort p c q 3 else p

/-- The laser inputs that have power show it. -/
def lasersLit (lasers : List (Fin 4 × Fin 4)) (p : Pkg) : Pkg := lasers.foldl (fun p e => rsetb p (rFabFdstat e.1) (1 + e.2) true) p

/-- The fabric is ready: stage 3. -/
def fabricUp (p : Pkg) : Pkg := rsetf (rsetb p rFabStatus 0 true) rGlbStatus 10 8 3

theorem fabricUp_shows (p : Pkg) : rbit (fabricUp p) rFabStatus 0 = true ∧ stageOf (fabricUp p) = 3 ∧
    ∀ q < 128, rfld (fabricUp p) (rFabPstate q) 2 0 = rfld p (rFabPstate q) 2 0 := by
  refine ⟨?_, rfld_rsetf_self _ _ _ _ _ (by decide) (by decide), fun q hq => ?_⟩
  · rw [fabricUp, rbit_rsetf_ne _ _ _ _ _ (by decide), rbit_rsetb_self _ _ _ _ (by decide)]
  · have hne : rFabPstate q ≠ rGlbStatus ∧ rFabPstate q ≠ rFabStatus := by
      unfold rFabPstate rGlbStatus rFabStatus
      omega
    rw [fabricUp, rfld_rsetf_ne _ _ _ _ _ _ hne.1, rfld_rsetb_ne _ _ _ _ _ hne.2]

theorem fabricUp_mem (p : Pkg) : (fabricUp p).mem = p.mem := rfl

theorem exec_fabricReady {s : State} (lasers : List (Fin 4 × Fin 4)) (h : stageOf s.pkg = 2) :
    exec (.fabricReady lasers) s = .next (Safety.withPkg s
      (fabricUp ((List.range 128).foldl (untrained s.clk) (lasersLit lasers s.pkg)))) := by
  rw [show exec (.fabricReady lasers) s = execFabricReady lasers s from rfl, execFabricReady, run_eq]
  exact congrArg (fun q => Host.Outcome.next (Safety.withPkg s q)) (if_neg (not_not.mpr h))

theorem outward_untrained (c : Clock) (p : Pkg) (q : Nat) : Outward p (untrained c p q) :=
  Outward.ite _ (outward_setPort p c q 3) (Outward.refl p)

theorem rfld_untrained (c : Clock) (p : Pkg) {q r : Nat} (hq : q < 128) (hr : r < 128) : rfld (untrained c p q) (rFabPstate r) 2 0 =
    if r = q then (if rfld p (rFabPstate q) 2 0 = 1 then 3 else rfld p (rFabPstate q) 2 0) else rfld p (rFabPstate r) 2 0 := by
  unfold untrained
  split
  · exact rfld_setPort p c hq hr (by decide)
  · split
    · next h => rw [h]
    · rfl

theorem fabricReady_shows {s : State} (lasers : List (Fin 4 × Fin 4)) (h : stageOf s.pkg = 2) :
    ∃ t, exec (.fabricReady lasers) s = .next t ∧ rbit t.pkg rFabStatus 0 = true ∧ stageOf t.pkg = 3 ∧
      (∀ q, q < 128 → rfld t.pkg (rFabPstate q) 2 0 ≠ 1) ∧ t.pkg.mem = s.pkg.mem := by
  have hmem := (outward_foldl (outward_untrained s.clk) (List.range 128) (lasersLit lasers s.pkg)).mem.trans
    (outward_foldl (f := fun p (e : Fin 4 × Fin 4) => rsetb p (rFabFdstat e.1) (1 + e.2) true) (fun p e => outward_rsetb _ _ _ _) lasers s.pkg).mem
  have hup := fabricUp_shows ((List.range 128).foldl (untrained s.clk) (lasersLit lasers s.pkg))
  refine ⟨_, exec_fabricReady lasers h, hup.1, hup.2.1, fun q hq => ?port, (fabricUp_mem _).trans hmem⟩
  case port =>
    rw [hup.2.2 q hq, foldl_portStates (K := fun _ => True) (new := fun _ x => if x = 1 then 3 else x) (fun _ _ _ _ => trivial)
        (fun p _ r hr k hk => rfld_untrained s.clk p (List.mem_range.mp hr) hk) List.nodup_range trivial hq, if_pos (List.mem_range.mpr hq)]
    split <;> omega

/-! Stage 4 (R111, R418, R432, R447) -/

/-- The boot is counted, once in a power-up. -/
def bootCounted (p : Pkg) : Pkg :=
  if p.cfg.booted then p
  else { p with store := { p.store with bootCnt := (p.store.bootCnt + 1) % 2 ^ 32 }, cfg := { p.cfg with booted := true } }

/-- The locks that every record marks and those that the record in use marks. -/
def lockMarks (p : Pkg) : Nat := Nat.lor alwaysLocked (((recInUse p).map (fun r => r.locks)).getD 0)

/-- Counted, locked, and with its contexts and its rollback counter in order. -/
def madeReady (p : Pkg) (c : Clock) : Pkg :=
  let p := rset (bootCounted p) rGlbBootcnt (bootCounted p).store.bootCnt
  advanceRollback (resetCtxs (setLocks p (lockMarks p))) c

/-- In service: stage 4. -/
def inService (p : Pkg) (c : Clock) : Pkg :=
  rsetf (rsetb { p with health := { p.health with ready := c.up }, active := c.gsc } rGlbStatus 0 true) rGlbStatus 10 8 4

theorem exec_packageReady {s : State} (h : stageOf s.pkg = 3) (hm : rbit s.pkg rMemStatus 1 = false) :
    exec .packageReady s = .next (Safety.withPkg s (inService (madeReady s.pkg s.clk) s.clk)) := by
  rw [show exec .packageReady s = execPackageReady s from rfl, execPackageReady, run_eq]
  refine congrArg (fun q => Host.Outcome.next (Safety.withPkg s q)) ?_
  simp only [h, hm, ne_eq, not_true_eq_false, Bool.false_eq_true, if_false]
  rfl

theorem inService_shows (p : Pkg) (c : Clock) : rbit (inService p c) rGlbStatus 0 = true ∧ stageOf (inService p c) = 4 ∧
    ∀ o, o ≠ rGlbStatus → rget (inService p c) o = rget p o := by
  refine ⟨?_, rfld_rsetf_self _ _ _ _ _ (by decide) (by decide), fun o ho => ?_⟩
  · rw [inService, rbit_rsetf_other _ _ _ _ _ _ (by decide) (by decide) (by decide), rbit_rsetb_self _ _ _ _ (by decide)]
  · rw [inService, rget_rsetf_ne _ _ _ _ ho, rget_rsetb_ne _ _ _ ho]
    exact rget_congr o rfl

/-- A context in doubt starts from zero. -/
def ctxZeroed (p : Pkg) (k : Nat) : Pkg := setCtx p k { ctx p k with txseq := 0, rxbase := 0, rxmap := 0#256 }

theorem foldl_ctxZeroed_eq : ∀ (l : List Nat) (p : Pkg), ∃ x, l.foldl ctxZeroed p = { p with ctxs := x }
  | [], p => ⟨p.ctxs, rfl⟩
  | k :: l, p => foldl_ctxZeroed_eq l (ctxZeroed p k)

theorem resetCtxs_eq (p : Pkg) : ∃ x, resetCtxs p = { p with ctxs := x, ctxReset := [] } := by
  obtain ⟨x, hx⟩ := foldl_ctxZeroed_eq p.ctxReset p
  exact ⟨x, congrArg (fun q : Pkg => { q with ctxReset := [] }) hx⟩

/-- The rollback counter's advance leaves the boot count, and every register but its own and the log's. -/
theorem advanceRollback_keeps (p : Pkg) (c : Clock) : (advanceRollback p c).store.bootCnt = p.store.bootCnt ∧
    ∀ o, logReg o = false → o ≠ rSecRollback → rget (advanceRollback p c) o = rget p o := by
  unfold advanceRollback
  split
  · exact ⟨rfl, fun _ _ _ => rfl⟩
  · split_ifs
    · exact ⟨rfl, fun _ _ _ => rfl⟩
    · refine ⟨?_, fun o ho _ => rget_logEntry _ _ _ _ _ _ _ _ ho⟩
      obtain ⟨_, _, _, _, _, h⟩ := outward_logEntry p c 0x0109 0xFF (imgSvn ‹_›) 0 0
      rw [h]
    · exact ⟨rfl, fun o _ ho => (rget_rset_ne _ _ ho).trans (rget_congr o rfl)⟩

/-! The locks (R418, Table 17.4) -/

/-- A mark sets its lock bit. -/
def lockStep (m : Nat) (p : Pkg) (e : (Nat × Nat) × Nat) : Pkg := if bit m e.2 then rsetb p e.1.1 e.1.2 true else p

theorem setLocks_eq (p : Pkg) (m : Nat) : setLocks p m = lockBits.zipIdx.foldl (lockStep m) p := rfl

theorem setLocks_keeps (p : Pkg) (m : Nat) : (setLocks p m).store = p.store ∧
    ∀ o, (∀ e ∈ lockBits.zipIdx, o ≠ e.1.1) → rget (setLocks p m) o = rget p o := by
  rw [setLocks_eq]
  refine ⟨foldl_keeps Pkg.store (fun q e => ?_) _ p, fun o ho => ?_⟩
  · unfold lockStep
    split <;> rfl
  · refine List.foldlRecOn (motive := fun q => rget q o = rget p o) lockBits.zipIdx (lockStep m) rfl (fun q hq e he => ?_)
    unfold lockStep
    split
    · exact (rget_rsetb_ne _ _ _ (ho e he)).trans hq
    · exact hq

/-- A lock bit that is set stays set. -/
theorem rbit_lockStep {m o i : Nat} {p : Pkg} {e : (Nat × Nat) × Nat} (he : e.1.2 < 32) (h : rbit p o i = true) :
    rbit (lockStep m p e) o i = true := by
  unfold lockStep
  split
  · by_cases ho : o = e.1.1
    · by_cases hi : i = e.1.2
      · rw [ho, hi, rbit_rsetb_self _ _ _ _ he]
      · rw [ho, rbit_rsetb_other _ _ _ _ _ he hi, ← ho, h]
    · rw [rbit_rsetb_ne _ _ _ _ ho, h]
  · exact h

/-- Every lock that is marked is set. -/
theorem rbit_setLocks (p : Pkg) {m n : Nat} {o i : Nat} (he : ((o, i), n) ∈ lockBits.zipIdx) (hm : bit m n = true) :
    rbit (setLocks p m) o i = true := by
  have hlt : ∀ e ∈ lockBits.zipIdx, e.1.2 < 32 := by decide
  have h := foldl_reaches (f := lockStep m) (I := fun _ => True) (P := fun q e => bit m e.2 = true → rbit q e.1.1 e.1.2 = true)
    (l := lockBits.zipIdx) (fun _ _ _ _ => trivial)
    (fun q _ e he hb => by rw [lockStep, if_pos hb, rbit_rsetb_self _ _ _ _ (hlt e he)])
    (fun q _ e he b hk hb => rbit_lockStep (hlt e he) (hk hb)) (p := p) trivial
  exact h.2 _ he hm

theorem bit_lockMarks (p : Pkg) {n : Nat} (h : bit alwaysLocked n = true) : bit (lockMarks p) n = true := by
  rw [bit_eq_testBit] at h ⊢
  exact (Nat.testBit_or _ _ _).trans (by rw [h, Bool.true_or])

/-- Three low bits that are set. -/
theorem mod_eight_of_bits {n : Nat} (h0 : bit n 0 = true) (h1 : bit n 1 = true) (h2 : bit n 2 = true) : n % 8 = 7 := by
  simp only [bit, beq_iff_eq, Nat.shiftRight_eq_div_pow, pow_zero, Nat.div_one, pow_one] at h0 h1 h2
  omega

/-- The registers that start-up's last stage leaves as the locks and the boot count have made them. -/
theorem rget_madeReady (p : Pkg) (c : Clock) {o : Nat} (hl : logReg o = false) (hr : o ≠ rSecRollback) : rget (madeReady p c) o =
    rget (setLocks (rset (bootCounted p) rGlbBootcnt (bootCounted p).store.bootCnt)
      (lockMarks (rset (bootCounted p) rGlbBootcnt (bootCounted p).store.bootCnt))) o := by
  rw [madeReady]
  obtain ⟨x, hx⟩ := resetCtxs_eq (setLocks (rset (bootCounted p) rGlbBootcnt (bootCounted p).store.bootCnt)
    (lockMarks (rset (bootCounted p) rGlbBootcnt (bootCounted p).store.bootCnt)))
  rw [(advanceRollback_keeps _ c).2 o hl hr, hx]
  exact rget_congr o rfl

theorem madeReady_bootCnt (p : Pkg) (c : Clock) : (madeReady p c).store.bootCnt = (bootCounted p).store.bootCnt := by
  rw [madeReady]
  obtain ⟨x, hx⟩ := resetCtxs_eq (setLocks (rset (bootCounted p) rGlbBootcnt (bootCounted p).store.bootCnt)
    (lockMarks (rset (bootCounted p) rGlbBootcnt (bootCounted p).store.bootCnt)))
  rw [(advanceRollback_keeps _ c).1, hx]
  exact congrArg Store.bootCnt (setLocks_keeps _ _).1

theorem rget_madeReady_bootcnt (p : Pkg) (c : Clock) : rget (madeReady p c) rGlbBootcnt = (bootCounted p).store.bootCnt % 2 ^ 32 := by
  rw [rget_madeReady p c (by decide) (by decide), (setLocks_keeps _ _).2 _ (by decide), rget_rset_self]

/-- Every lock that each record marks is set. -/
theorem rbit_madeReady (p : Pkg) (c : Clock) {o i n : Nat} (he : ((o, i), n) ∈ lockBits.zipIdx) (hb : bit alwaysLocked n = true)
    (hl : logReg o = false) (hr : o ≠ rSecRollback) : rbit (madeReady p c) o i = true := by
  rw [rbit, rget_madeReady p c hl hr, ← rbit]
  exact rbit_setLocks _ he (bit_lockMarks _ hb)

theorem packageReady_shows {s : State} (h : stageOf s.pkg = 3) (hm : rbit s.pkg rMemStatus 1 = false) :
    ∃ t, exec .packageReady s = .next t ∧ rbit t.pkg rGlbStatus 0 = true ∧ stageOf t.pkg = 4 ∧
      t.pkg.store.bootCnt = (if s.pkg.cfg.booted then s.pkg.store.bootCnt else (s.pkg.store.bootCnt + 1) % 2 ^ 32) ∧
      rget t.pkg rGlbBootcnt = t.pkg.store.bootCnt % 2 ^ 32 ∧ rbit t.pkg rPwrLock 0 = true ∧ rbit t.pkg rTimLock 0 = true ∧
      rget t.pkg rMemLock % 8 = 7 ∧ rget t.pkg rFabLock % 8 = 7 ∧ rbit t.pkg rHltLock 0 = true ∧ rbit t.pkg rDbgLock 0 = true := by
  obtain ⟨hready, hstage, hreg⟩ := inService_shows (madeReady s.pkg s.clk) s.clk
  have hcnt := madeReady_bootCnt s.pkg s.clk
  have hlock : ∀ {o i n : Nat}, ((o, i), n) ∈ lockBits.zipIdx → bit alwaysLocked n = true → logReg o = false → o ≠ rSecRollback →
      o ≠ rGlbStatus → rbit (inService (madeReady s.pkg s.clk) s.clk) o i = true := fun he hb hl hr hg => by
    rw [rbit, hreg _ hg, ← rbit, rbit_madeReady s.pkg s.clk he hb hl hr]
  refine ⟨_, exec_packageReady h hm, hready, hstage, ?cnt, ?reg, ?pwr, ?tim, ?mem, ?fab, ?hlt, ?dbg⟩
  case cnt =>
    refine hcnt.trans ?_
    unfold bootCounted
    split <;> rfl
  case reg => exact (hreg _ (by decide)).trans ((rget_madeReady_bootcnt s.pkg s.clk).trans (congrArg (· % 2 ^ 32) hcnt.symm))
  case pwr => exact hlock (n := 1) (by decide) rfl rfl (by decide) (by decide)
  case tim => exact hlock (n := 4) (by decide) rfl rfl (by decide) (by decide)
  case mem =>
    exact mod_eight_of_bits (hlock (n := 5) (by decide) rfl rfl (by decide) (by decide))
      (hlock (n := 6) (by decide) rfl rfl (by decide) (by decide)) (hlock (n := 7) (by decide) rfl rfl (by decide) (by decide))
  case fab =>
    exact mod_eight_of_bits (hlock (n := 8) (by decide) rfl rfl (by decide) (by decide))
      (hlock (n := 9) (by decide) rfl rfl (by decide) (by decide)) (hlock (n := 10) (by decide) rfl rfl (by decide) (by decide))
  case hlt => exact hlock (n := 11) (by decide) rfl rfl (by decide) (by decide)
  case dbg => exact hlock (n := 12) (by decide) rfl rfl (by decide) (by decide)

/-- Settles O14: at stage 0 the copies decide, then the images as the store holds them; each later stage by what its command shows. -/
theorem startupPath : Obligations.StartupPath := by
  refine ⟨fun s hl hr ht h0 => ⟨fun hc => ?conflict, fun r k rest htop hs => ?agree⟩,
    fun s h1 h48 ht hr hm => hbmReady_shows h1 h48 ht hr hm, fun s lasers h => fabricReady_shows lasers h, fun s h hm => packageReady_shows h hm⟩
  case conflict =>
    have hb := topCopies_of_bootPart (bootPart_storeShown s.pkg)
    obtain ⟨seq, hseq⟩ := chosen_conflict (p := storeShown s.pkg) s.clk (by rw [hb]; exact hc)
    refine ⟨_, exec_bootVerify hl hr ht h0, ?_⟩
    rw [hseq]
    exact cfgConflict_shows _ _ _
  case agree =>
    obtain ⟨q, hq, he⟩ := exec_bootVerify_agree hl hr ht h0 htop hs
    rw [← image_of_bootPart hq, ← image_of_bootPart hq, ← imageCheck_of_bootPart hq, ← imageCheck_of_bootPart hq, ← firstImage_of_bootPart hq,
      ← retired_of_bootPart hq]
    refine ⟨fun i hret hc hi => ?first, fun i hret hf hc hi => ?second, fun hf hc => ?neither⟩
    case first =>
      refine ⟨_, he, ?_⟩
      rw [bootImages_first s.clk hc hi]
      exact startImage_shows i hret (firstImage_le q)
    case second =>
      obtain ⟨chk, hb⟩ := bootImages_second s.clk hf hc hi
      refine ⟨_, he, ?_⟩
      rw [hb]
      exact startImage_shows i ((retired_of_bootPart (bootPart_imageFailed s.clk _ chk)).trans hret) (Nat.sub_le _ _)
    case neither =>
      obtain ⟨z, hz⟩ := bootImages_neither s.clk hf hc
      refine ⟨_, he, ?_⟩
      rw [hz]
      exact recovery_shows z

end Sys2Proof.Machine
end

section
/-! PROOFS. Watchdog expiry (R437, R459), loss of REFCLK (R442), a PLL that does not lock (R441): O15. -/

namespace Sys2Proof.Machine

/-! A watchdog expires (R437) -/

/-- The expiry of keeper k's watchdog is in the log, and remembered on its die. -/
def expiryNoted (p : Pkg) (c : Clock) (k : Nat) : Pkg :=
  withPins (logEntry p c 0x0107 (8 + k / 4) k 0 0) { p.pins with wdog := sset p.pins.wdog (k / 4) c.up }

theorem expiryNoted_punits (p : Pkg) (c : Clock) (k : Nat) : (expiryNoted p c k).punits = p.punits := (outward_logEntry _ _ _ _ _ _ _).punits
theorem expiryNoted_placed (p : Pkg) (c : Clock) (k : Nat) : (expiryNoted p c k).placed = p.placed := (outward_logEntry _ _ _ _ _ _ _).placed

theorem unitState_congr {p q : Pkg} (i : Nat) (h : q.punits = p.punits) : unitState q i = unitState p i := by
  rw [unitState, unitState, punit, punit, h]

theorem unitLogical_congr {p q : Pkg} (i : Nat) (h : q.punits = p.punits) : unitLogical q i = unitLogical p i := by
  rw [unitLogical, unitLogical, punit, punit, h]

theorem freeSpare_congr {p q : Pkg} (i : Nat) (h : q.punits = p.punits) (hp : q.placed = p.placed) : freeSpare q i = freeSpare p i := by
  simp only [freeSpare, unitState, punit, h, hp]

/-- A die has had an expiry within 10 s. -/
def expiredOnce (p : Pkg) (c : Clock) (d : Nat) : Bool := p.pins.wdog.any (fun e => e.1 == d && decide (c.up ≤ e.2 + ticksUp p 2500000000))

theorem exec_watchdogExpiry {s : State} {k : Fin 8} (hk : keepersRun s.pkg = true) (hu : unitState s.pkg (304 + k) = 0) :
    exec (.watchdogExpiry k) s = .next (Safety.withPkg s
      (if expiredOnce (logEntry s.pkg s.clk 0x0107 (8 + k / 4) k 0 0) s.clk (k / 4) || !(keeperSwap (expiryNoted s.pkg s.clk k) s.clk k).2
        then resetPkg (keeperSwap (expiryNoted s.pkg s.clk k) s.clk k).1 3 else (keeperSwap (expiryNoted s.pkg s.clk k) s.clk k).1)) := by
  have hpins : (logEntry s.pkg s.clk 0x0107 (8 + k / 4) k 0 0).pins = s.pkg.pins := (outward_logEntry _ _ _ _ _ _ _).pins
  rw [show exec (.watchdogExpiry k) s = execWatchdogExpiry k s from rfl, execWatchdogExpiry, run_eq]
  simp only [hk, hu, Bool.not_true, Bool.false_eq_true, ne_eq, not_true_eq_false, or_self, if_false]
  rw [expiryNoted, withPins, ← hpins]
  rfl

theorem keeperSwap_of_none {p : Pkg} (c : Clock) {k : Nat} (hu : unitState p (304 + k) = 0) (h : freeSpare p (304 + k) = none) :
    keeperSwap p c k = (degraded p c 9 k, false) := by
  simp only [keeperSwap, hu, h, ne_eq, not_true_eq_false, if_false]

/-- The spare has taken the keeper's role, before the cores change. -/
def keeperTaken (p : Pkg) (c : Clock) (k n : Nat) : Pkg := takeOver (dropRequest p 0x28 k) c (304 + k) n 3

theorem keeperSwap_of_some {p : Pkg} (c : Clock) {k n : Nat} (hu : unitState p (304 + k) = 0) (h : freeSpare p (304 + k) = some n) :
    ∃ x, keeperSwap p c k = ({ keeperTaken p c k n with cores := x }, true) := by
  simp only [keeperSwap, hu, h, ne_eq, not_true_eq_false, if_false]
  exact ⟨_, rfl⟩

theorem outward_degraded (p : Pkg) (c : Clock) (cls n : Nat) : Outward p (degraded p c cls n) :=
  (outward_rsetb _ _ _ _).trans (outward_logEntry _ _ _ _ _ _ _)

theorem degraded_host (p : Pkg) (c : Clock) (cls n : Nat) : (degraded p c cls n).host = p.host := logEntry_host _ _ _ _ _ _ _

/-- Without a spare a reset of kind 3 comes over a package with the same memory, plans and host memory. -/
theorem watchdogExpiry_resets {s : State} {k : Fin 8} (hk : keepersRun s.pkg = true) (hu : unitState s.pkg (304 + k) = 0)
    (hf : freeSpare s.pkg (304 + k) = none) : ∃ p q, exec (.watchdogExpiry k) s = .next (Safety.withPkg s q) ∧ IsReset p q 3 ∧
      p.mem = s.pkg.mem ∧ p.plans = s.pkg.plans ∧ p.host = s.pkg.host := by
  have hs := keeperSwap_of_none (p := expiryNoted s.pkg s.clk k) s.clk ((unitState_congr _ (expiryNoted_punits _ _ _)).trans hu)
    ((freeSpare_congr _ (expiryNoted_punits _ _ _) (expiryNoted_placed _ _ _)).trans hf)
  have ho := outward_logEntry s.pkg s.clk 0x0107 (8 + k / 4) k 0 0
  have hd := outward_degraded (expiryNoted s.pkg s.clk k) s.clk 9 k
  refine ⟨degraded (expiryNoted s.pkg s.clk k) s.clk 9 k, _, exec_watchdogExpiry hk hu, ?_, hd.mem.trans ho.mem, hd.plans.trans ho.plans,
    (degraded_host _ _ _ _).trans (logEntry_host _ _ _ _ _ _ _)⟩
  rw [hs, Bool.not_false, Bool.or_true, if_pos rfl]
  exact isReset_resetPkg _ 3

/-! The spare keeper takes over (R459) -/

/-- An entry of the spare map that was set. -/
theorem punit_setPunit_self (p : Pkg) (i st l : Nat) : punit (setPunit p i st l) i = (st + 256 * l) % 2 ^ 32 := by
  rw [punit, setPunit, sget_sset_self, BitVec.toNat_ofNat]

theorem punit_setPunit_ne (p : Pkg) {i j : Nat} (st l : Nat) (h : j ≠ i) : punit (setPunit p i st l) j = punit p j := by
  rw [punit, punit, setPunit, sget_sset_ne _ _ _ h]

theorem unitState_setPunit_self (p : Pkg) (i l : Nat) {st : Nat} (h : st < 8) : unitState (setPunit p i st l) i = st := by
  rw [unitState, punit_setPunit_self, bits_mod _ _ _ _ (by decide) (by decide)]
  unfold bits
  rw [Nat.shiftRight_zero]
  omega

theorem unitLogical_setPunit_self (p : Pkg) (i : Nat) {st l : Nat} (hs : st < 256) (hl : l < 128) : unitLogical (setPunit p i st l) i = l := by
  rw [unitLogical, punit_setPunit_self, bits_mod _ _ _ _ (by decide) (by decide)]
  unfold bits
  rw [Nat.shiftRight_eq_div_pow]
  omega

/-- A write of the record leaves what the change of the map left, but for registers and the package store. -/
theorem recordMap_eq (p : Pkg) (f : Pkg → Pkg) : ∃ r st, recordMap p f = { f p with regs := r, store := st } := by
  unfold recordMap
  simp only
  split
  · exact ⟨(f p).regs, (f p).store, rfl⟩
  · split
    · exact ⟨(f p).regs, (f p).store, rfl⟩
    · obtain ⟨r, h⟩ := syncCfg_eq { f p with store := { (f p).store with copies := [nextRec (f p) ‹_›, nextRec (f p) ‹_›, nextRec (f p) ‹_›] } }
      rw [h]
      exact ⟨_, _, rfl⟩

/-- The map with the spare in the keeper's place, before it is recorded. -/
def keeperMapped (p : Pkg) (k n : Nat) : Pkg :=
  setPunit (setPunit (dropRequest p 0x28 k) (304 + k) 3 0) n 0 (unitLogical p (304 + k))

/-- A swap of keepers copies no lines: it is the map's change, with its record, its baseline and its event. -/
theorem takeOver_keeper (p : Pkg) (c : Clock) (k n st : Nat) : takeOver p c (304 + k) n st = actionDone
    (clearBase (recordMap p (fun q => setPunit (setPunit q (304 + k) st 0) n 0 (unitLogical p (304 + k)))) (unitClass n).1 (unitClass n).2)
    c 4 (dieUnit (unitClass n).1 (unitClass n).2).1 (unitLogical p (304 + k)) n := by
  have hk : ¬(304 + k < 256) ∧ ¬(304 + k < 288) ∧ ¬(304 + k < 304) := by omega
  have hc : copyLines p 0x23 (unitLogical p (304 + k)) = p := if_pos (by decide)
  simp only [takeOver, hk, if_false, Nat.reduceAdd, hc]

theorem recordMap_keeps (p : Pkg) (f : Pkg → Pkg) : (recordMap p f).punits = (f p).punits ∧ (recordMap p f).ops = (f p).ops ∧
    (recordMap p f).launches = (f p).launches ∧ (recordMap p f).tiles = (f p).tiles := by
  obtain ⟨r, st, h⟩ := recordMap_eq p f
  rw [h]
  exact ⟨rfl, rfl, rfl, rfl⟩

theorem actionDone_clearBase_keeps (p : Pkg) (c : Clock) (cls u kind die unit aux : Nat) :
    (actionDone (clearBase p cls u) c kind die unit aux).punits = p.punits ∧ (actionDone (clearBase p cls u) c kind die unit aux).ops = p.ops ∧
      (actionDone (clearBase p cls u) c kind die unit aux).launches = p.launches :=
  ⟨(outward_actionDone _ _ _ _ _ _).punits, event_ops _ _ _ _ _ _, (outward_actionDone _ _ _ _ _ _).launches⟩

theorem keeperTaken_keeps (p : Pkg) (c : Clock) (k n : Nat) : (keeperTaken p c k n).punits = (keeperMapped p k n).punits ∧
    (keeperTaken p c k n).ops = p.ops ∧ (keeperTaken p c k n).launches = p.launches := by
  obtain ⟨hu, ho, hl, -⟩ := recordMap_keeps (dropRequest p 0x28 k)
    (fun q => setPunit (setPunit q (304 + k) 3 0) n 0 (unitLogical (dropRequest p 0x28 k) (304 + k)))
  rw [keeperTaken, takeOver_keeper]
  obtain ⟨hu', ho', hl'⟩ := actionDone_clearBase_keeps (recordMap (dropRequest p 0x28 k)
    (fun q => setPunit (setPunit q (304 + k) 3 0) n 0 (unitLogical (dropRequest p 0x28 k) (304 + k)))) c (unitClass n).1 (unitClass n).2 4
    (dieUnit (unitClass n).1 (unitClass n).2).1 (unitLogical (dropRequest p 0x28 k) (304 + k)) n
  exact ⟨hu'.trans hu, ho'.trans ho, hl'.trans hl⟩

theorem unitState_of_freeSpare {p : Pkg} {i n : Nat} (h : freeSpare p i = some n) : unitState p n = 1 := by
  have hn := List.find?_some h
  rw [Bool.and_eq_true, beq_iff_eq] at hn
  exact hn.1

theorem keeperTaken_shows {p : Pkg} (c : Clock) {k n : Nat} (hn : n ≠ 304 + k) :
    unitState (keeperTaken p c k n) n = 0 ∧ unitLogical (keeperTaken p c k n) n = unitLogical p (304 + k) ∧
      unitState (keeperTaken p c k n) (304 + k) = 3 ∧ (keeperTaken p c k n).ops = p.ops ∧ (keeperTaken p c k n).launches = p.launches := by
  obtain ⟨hu, hops, hlaunches⟩ := keeperTaken_keeps p c k n
  have hl : unitLogical p (304 + k) < 128 := bits_lt _ 14 8
  refine ⟨?_, ?_, ?_, hops, hlaunches⟩
  · rw [unitState_congr n hu, keeperMapped, unitState_setPunit_self _ _ _ (by decide)]
  · rw [unitLogical_congr n hu, keeperMapped, unitLogical_setPunit_self _ _ (by decide) hl]
  · rw [unitState_congr _ hu, keeperMapped, unitState, punit_setPunit_ne _ _ _ hn.symm, ← unitState, unitState_setPunit_self _ _ _ (by decide)]

/-- With a spare, and no expiry before on the die, the spare serves and nothing ends. -/
theorem watchdogExpiry_swaps {s : State} {k : Fin 8} {n : Nat} (hk : keepersRun s.pkg = true) (hu : unitState s.pkg (304 + k) = 0)
    (hf : freeSpare s.pkg (304 + k) = some n) (hw : s.pkg.pins.wdog = []) :
    ∃ x, exec (.watchdogExpiry k) s = .next (Safety.withPkg s { keeperTaken (expiryNoted s.pkg s.clk k) s.clk k n with cores := x }) := by
  obtain ⟨x, hx⟩ := keeperSwap_of_some (p := expiryNoted s.pkg s.clk k) s.clk ((unitState_congr _ (expiryNoted_punits _ _ _)).trans hu)
    ((freeSpare_congr _ (expiryNoted_punits _ _ _) (expiryNoted_placed _ _ _)).trans hf)
  have hpins : (logEntry s.pkg s.clk 0x0107 (8 + k / 4) k 0 0).pins = s.pkg.pins := (outward_logEntry _ _ _ _ _ _ _).pins
  refine ⟨x, ?_⟩
  rw [exec_watchdogExpiry hk hu, hx, expiredOnce, hpins, hw]
  rfl

/-! Alignment while launches end (R286, R442) -/

/-- The pins, and `TIM.STATUS`. -/
def alignPart (p : Pkg) : Pins × Nat := (p.pins, rget p rTimStatus)

section
variable (p : Pkg) (c : Clock)

theorem align_of_regs {p q : Pkg} (hp : q.pins = p.pins) (hr : q.regs = p.regs) : alignPart q = alignPart p :=
  Prod.ext hp (rget_congr rTimStatus hr)

theorem align_rset {o : Nat} (v : Nat) (h : rTimStatus ≠ o) : alignPart (rset p o v) = alignPart p := Prod.ext rfl (rget_rset_ne p v h)

theorem align_bump {o : Nat} (h : rTimStatus ≠ o) : alignPart (bump p o) = alignPart p := align_rset p _ h

theorem align_logEntry (code die aux value detail : Nat) : alignPart (logEntry p c code die aux value detail) = alignPart p :=
  Prod.ext (outward_logEntry _ _ _ _ _ _ _).pins (rget_logEntry _ _ _ _ _ _ _ _ (by decide))

theorem align_foldl {α : Type} {f : Pkg → α → Pkg} (h : ∀ p a, alignPart (f p a) = alignPart p) (l : List α) (p : Pkg) :
    alignPart (l.foldl f p) = alignPart p := foldl_keeps alignPart h l p

/-- Rings, units and tiles have no register at a multiple of 32 below the tiles', so none is `TIM.STATUS` or `PWR.STATUS`. -/
theorem rget_complete (id status : Nat) (flags : Flags) (value aux : Nat) (report : Bool) {o : Nat} (h : o % 32 = 0) :
    rget (complete p c id status flags value aux report) o = rget p o := by
  have hcq : ∀ r k, 0 < k → k < 32 → o ≠ rCq r k := fun r k h0 hk => by unfold rCq; omega
  have hsq : ∀ r, o ≠ rSq r 0x14 := fun r => by unfold rSq; omega
  have hin : o ≠ rHifInflight ∧ o ≠ rTimLaunchfail := by unfold rHifInflight rTimLaunchfail; omega
  unfold complete
  split
  · rfl
  · next x _ =>
    have hw : ∀ q e, rget (cqWrite q x.cq e) o = rget q o := fun q e => (rget_rset_ne _ _ (hcq _ _ (by decide) (by decide))).trans rfl
    have hf : ∀ q, rget (countLaunchFail q status) o = rget q o := fun q => by
      unfold countLaunchFail
      split
      · exact rget_bump_ne _ hin.2
      · rfl
    have hc : ∀ q, rget (writeCompletion q x c status flags value aux report) o = rget q o := fun q => by
      unfold writeCompletion
      split
      · exact hw _ _
      · rfl
    simp only [syncOps]
    rw [rget_rset_ne _ _ hin.1, rget_rsetb_ne _ _ _ (hsq _), hc, hf, rget_rset_ne _ _ (hcq _ _ (by decide) (by decide))]
    rfl

theorem align_complete (id status : Nat) (flags : Flags) (value aux : Nat) (report : Bool) :
    alignPart (complete p c id status flags value aux report) = alignPart p :=
  Prod.ext (outward_complete _ _ _ _ _ _ _ _).pins (rget_complete p c _ _ _ _ _ _ (by decide))

/-! What a launch that ends sends -/

theorem align_planFault (t cause q slot detail : Nat) : alignPart (planFault p c t cause q slot detail) = alignPart p := by
  obtain ⟨y, h⟩ := faulted_eq p c t cause q slot
  have hlo : rTimStatus < tReg p t := by unfold rTimStatus tReg rTile; omega
  rw [planFault_eq, align_logEntry]
  refine (align_of_regs (p := faultWritten p c t cause q slot) (by rw [h]) (faulted_regs p c t cause q slot)).trans ?_
  exact (align_rset _ _ (by omega)).trans ((align_rset _ _ (by omega)).trans ((align_rset _ _ (by omega)).trans rfl))

theorem align_loseSw (n : Nat) : alignPart (loseSw p n) = alignPart p := by
  unfold loseSw
  split
  · rfl
  · split
    · rfl
    · refine (align_rset _ _ (by decide)).trans ?_
      split
      · exact (align_of_regs (p := bump p rSwmFailed) rfl rfl).trans (align_bump p (by decide))
      · exact (align_of_regs (p := bump (bump p rSwmFailed) rSwmOps) rfl rfl).trans ((align_bump _ (by decide)).trans (align_bump p (by decide)))

theorem align_failRecord (j : Job) (mask jstat status : Nat) : alignPart (failRecord p j mask jstat status) = alignPart p := by
  unfold failRecord
  split
  · next a _ =>
    obtain ⟨_, _, h⟩ := storeBytes_eq { p with fv := p.fv + 1 } a _
    rw [h]
    rfl
  · rfl

theorem align_countJob (j : Job) (status : Nat) : alignPart (countJob p j status) = alignPart p := by
  have hlo : rTimStatus < jobReg p j := Nat.lt_of_lt_of_le (by decide) (jobReg_above p j)
  exact (align_rset _ _ (by omega)).trans ((align_rset _ _ (by omega)).trans (align_rset _ _ (by omega)))

theorem align_closeJob (j : Job) (ok : Bool) (fl : Flags) : alignPart (closeJob p j ok fl) = alignPart p := align_of_regs rfl rfl

theorem align_jobFault (j : Job) (jstat cause : Nat) : alignPart (jobFault p c j jstat cause) = alignPart p := by
  unfold jobFault
  refine (align_planFault _ c _ _ _ _ _).trans ((align_closeJob _ _ _ _).trans ?_)
  split
  · rfl
  · exact (align_countJob _ _ _).trans (align_failRecord _ _ _ _ _)

theorem align_wgBarred (i : Ident) : alignPart (wgBarred p c i) = alignPart p := by
  unfold wgBarred
  split
  · exact (align_planFault _ c _ _ _ _ _).trans (align_loseSw _ _)
  · exact align_jobFault _ c _ _ _
  · rfl

theorem align_queueAnswer (bytes : List Byte) : alignPart (queueAnswer p c bytes) = alignPart p := by
  unfold queueAnswer
  dsimp only
  split
  · exact align_bump _ (by decide)
  · rfl

theorem align_sendWg (ty dst : Nat) (v : WgVal) (hop : Nat) : alignPart (sendWg p c ty dst v hop) = alignPart p := by
  unfold sendWg
  split
  · exact align_queueAnswer p c _
  · exact align_wgBarred p c _

theorem align_wgPut (v : WgVal) : alignPart (wgPut p v) = alignPart p := by
  unfold wgPut
  split <;> rfl

theorem align_wgAdvance (v : WgVal) : alignPart (wgAdvance p c v) = alignPart p := by
  unfold wgAdvance
  split
  · rfl
  · split
    · rfl
    · refine (align_foldl (fun q e => ?_) _ _).trans (align_wgPut p _)
      split
      · exact align_sendWg _ c _ _ _ _
      · rfl

theorem align_wgStart (v : WgVal) : alignPart (wgStart p c v) = alignPart p :=
  (align_wgAdvance _ c v).trans ((align_foldl (fun q d => align_sendWg q c 0x23 d v 0) _ _).trans (align_wgPut p v))

/-! What a launch that ends leaves -/

theorem align_releaseUnits (l : Launch) : alignPart (releaseUnits p l) = alignPart p := by
  have hs : ∀ q s, rTimStatus ≠ sReg q s := fun q s => by unfold rTimStatus sReg rSlv; omega
  have hu : ∀ q u, rTimStatus ≠ uReg q u := fun q u => by unfold rTimStatus uReg rUe; omega
  refine (align_foldl (fun q u => align_rset _ _ (hu q u)) _ _).trans ((align_foldl (fun q s => align_rset _ _ (hs q s)) _ _).trans
    (align_foldl (fun q t => ?_) _ _))
  dsimp only
  split <;> rfl

theorem align_scramble (l : Launch) (status : Nat) : alignPart (scramble p l status) = alignPart p := by
  unfold scramble
  exact (align_of_regs rfl rfl).trans (align_foldl (f := freeRange) (fun _ _ => rfl) _ p)

theorem align_dropSwops (l : Launch) : alignPart (dropSwops p l) = alignPart p := by
  unfold dropSwops
  exact (align_of_regs rfl rfl).trans (align_foldl (fun q (o : SwOp) => align_loseSw q o.id) _ p)

theorem align_noteFailure (l : Launch) (status : Nat) : alignPart (noteFailure p c l status) = alignPart p := by
  unfold noteFailure
  dsimp only
  split_ifs
  · rfl
  · exact align_logEntry p c _ _ _ _ _
  · exact align_foldl (fun q d => align_logEntry q c _ _ _ _ _) _ p

theorem align_noteEnd (l : Launch) (status : Nat) : alignPart (noteEnd p l status) = alignPart p := by
  unfold noteEnd
  split <;> rfl

theorem align_endLaunch (l : Launch) (status : Nat) : alignPart (endLaunch p c l status) = alignPart p := by
  unfold endLaunch
  dsimp only
  refine (align_complete _ c _ _ _ _ _ _).trans ((align_noteFailure _ c l status).trans ((align_noteEnd _ l status).trans ?_))
  split
  · exact (align_rset _ _ (by decide)).trans ((align_of_regs rfl rfl).trans
      ((align_dropSwops _ l).trans ((align_scramble _ l status).trans (align_releaseUnits _ l))))
  · exact (align_of_regs rfl rfl).trans ((align_dropSwops _ l).trans ((align_scramble _ l status).trans (align_releaseUnits _ l)))

theorem align_finishLaunch (l : Launch) (status : Nat) : alignPart (finishLaunch p c l status) = alignPart p := by
  unfold finishLaunch
  refine (align_endLaunch _ c l status).trans ?_
  split
  · exact align_wgStart p c _
  · rfl

/-- A launch takes a cause and ends with the status that it has then. -/
def launchEnds (c : Clock) (cause : Nat) (p : Pkg) (l : Launch) : Pkg :=
  let p := addCause p c l.id cause
  match findLaunch p l.id with
  | some y => finishLaunch p c y (doneStatus y)
  | none => p

theorem align_launchEnds (cause : Nat) (l : Launch) : alignPart (launchEnds c cause p l) = alignPart p := by
  unfold launchEnds
  dsimp only
  split
  · exact align_finishLaunch _ c _ _
  · rfl

end

/-! REFCLK is lost and returns (R442) -/

/-- Whatever runs, the loss of alignment leaves the pins and clears `TIM.STATUS.SYNC`. -/
theorem loseSync_align (p : Pkg) (c : Clock) : (loseSync p c).pins = p.pins ∧ rbit (loseSync p c) rTimStatus 0 = false := by
  by_cases hs : rbit p rTimStatus 0 = true
  case neg =>
    rw [Bool.not_eq_true] at hs
    have h : loseSync p c = p := by rw [loseSync, hs]; rfl
    rw [h]
    exact ⟨rfl, hs⟩
  case pos =>
    have h : ∃ l x, loseSync p c = List.foldl (launchEnds c 0x23) { syncLost p c with time := x } l := by
      rw [loseSync, hs]
      exact ⟨_, _, rfl⟩
    obtain ⟨l, x, hl⟩ := h
    have ha : alignPart (loseSync p c) = alignPart (syncLost p c) :=
      hl ▸ (align_foldl (fun q y => align_launchEnds q c 0x23 y) l _).trans (align_of_regs rfl rfl)
    have hr : rget (loseSync p c) rTimStatus = rget (syncLost p c) rTimStatus := congrArg Prod.snd ha
    refine ⟨(congrArg Prod.fst ha).trans (outward_event _ _ _ _ _ _).pins, ?_⟩
    rw [rbit, hr]
    exact rbit_syncLost p c

/-- REFCLK is lost, or there again. -/
def refclk (p : Pkg) (lost : Bool) : Pkg := withPins p { p.pins with refLost := lost }

/-- The launches that run when REFCLK is lost have ended. -/
def runningEnded (p : Pkg) (c : Clock) : Pkg :=
  (p.launches.filter (fun l => l.running && !l.closed && !l.restore)).foldl (launchEnds c 0x20) p

theorem exec_refclkLoss (s : State) :
    exec .refclkLoss s = .next (Safety.withPkg s (loseSync (refclk (runningEnded s.pkg s.clk) true) s.clk)) := rfl

/-- Without REFCLK every request is refused. -/
theorem admission_of_refLost {p : Pkg} (h : p.pins.refLost = true) (c : Clock) (arr : Nat) (a : Ask) : admission p c arr a = .refuse 0x12 0 :=
  if_pos h

theorem gainSync_keeps (p : Pkg) (c : Clock) : (gainSync p c).pins = p.pins ∧ (gainSync p c).mem = p.mem ∧ (gainSync p c).launches = p.launches := by
  unfold gainSync
  dsimp only
  split
  · exact ⟨(outward_event _ _ _ _ _ _).pins, (outward_event _ _ _ _ _ _).mem, (outward_event _ _ _ _ _ _).launches⟩
  · exact ⟨rfl, rfl, rfl⟩

theorem refclkReturn_shows (s : State) : ∃ t, exec .refclkReturn s = .next t ∧ t.pkg.pins.refLost = false ∧ t.pkg.mem = s.pkg.mem ∧
    t.pkg.launches = s.pkg.launches := by
  refine ⟨_, rfl, ?_⟩
  dsimp only
  split
  · obtain ⟨hp, hm, hl⟩ := gainSync_keeps (refclk s.pkg false) s.clk
    exact ⟨congrArg Pins.refLost hp, hm, hl⟩
  · exact ⟨rfl, rfl, rfl⟩

/-! A PLL does not lock (R441) -/

/-- The tiles, and `PWR.STATUS`. -/
def clockPart (p : Pkg) : SMap Tile × Nat := (p.tiles, rget p rPwrStatus)

section
variable (p : Pkg) (c : Clock)

theorem clock_of_regs {p q : Pkg} (ht : q.tiles = p.tiles) (hr : q.regs = p.regs) : clockPart q = clockPart p :=
  Prod.ext ht (rget_congr rPwrStatus hr)

theorem clock_rset {o : Nat} (v : Nat) (h : rPwrStatus ≠ o) : clockPart (rset p o v) = clockPart p := Prod.ext rfl (rget_rset_ne p v h)

theorem clock_bump {o : Nat} (h : rPwrStatus ≠ o) : clockPart (bump p o) = clockPart p := clock_rset p _ h

theorem clock_rsetb {o : Nat} (i : Nat) (b : Bool) (h : rPwrStatus ≠ o) : clockPart (rsetb p o i b) = clockPart p := clock_rset p _ h

theorem clock_logEntry (code die aux value detail : Nat) : clockPart (logEntry p c code die aux value detail) = clockPart p :=
  Prod.ext (outward_logEntry _ _ _ _ _ _ _).tiles (rget_logEntry _ _ _ _ _ _ _ _ (by decide))

theorem clock_event (code die aux value : Nat) : clockPart (event p c code die aux value) = clockPart p :=
  Prod.ext (outward_event _ _ _ _ _ _).tiles (rget_event _ _ _ _ _ _ _ (by decide))

theorem clock_complete (id status : Nat) (flags : Flags) (value aux : Nat) (report : Bool) :
    clockPart (complete p c id status flags value aux report) = clockPart p :=
  Prod.ext (outward_complete _ _ _ _ _ _ _ _).tiles (rget_complete p c _ _ _ _ _ _ (by decide))

theorem clock_answerTest (x : Placed) (status aux : Nat) : clockPart (answerTest p c x status aux) = clockPart p := by
  have hm : ∀ l, clockPart (if x.mon = true then monLine p l else p) = clockPart p := by
    intro l
    unfold monLine
    split_ifs <;> rfl
  unfold answerTest
  dsimp only
  split
  · exact (clock_complete _ c _ _ _ _ _ _).trans (hm _)
  · exact hm _

theorem clock_deferPlaced (x : Placed) : clockPart (deferPlaced p c x) = clockPart p := by
  unfold deferPlaced
  dsimp only
  split_ifs
  · exact (clock_event _ c _ _ _ _).trans ((clock_answerTest _ c _ _ _).trans ((clock_bump _ (by decide)).trans (clock_of_regs rfl rfl)))
  · exact (clock_answerTest _ c _ _ _).trans ((clock_bump _ (by decide)).trans (clock_of_regs rfl rfl))
  · exact (clock_rset _ _ (by decide)).trans ((clock_logEntry _ c _ _ _ _ _).trans ((clock_bump _ (by decide)).trans (clock_of_regs rfl rfl)))

theorem clock_placeOne (x : Placed) : clockPart (placeOne p c x) = clockPart p := by
  unfold placeOne
  split
  · exact clock_deferPlaced p c x
  · rfl

theorem clock_displace (e : Ledger) (spareToo : Bool) : clockPart (displace p c e spareToo) = clockPart p :=
  foldl_keeps clockPart (fun q y => clock_placeOne q c y) _ p

theorem clock_requestPlaced (x : Placed) : clockPart (requestPlaced p c x) = clockPart p := by
  unfold requestPlaced
  dsimp only
  refine (clock_rset _ _ (by decide)).trans ?_
  split
  · split_ifs
    · exact (clock_displace _ c _ _).trans ((clock_placeOne _ c _).trans (clock_of_regs rfl rfl))
    · exact (clock_placeOne _ c _).trans (clock_of_regs rfl rfl)
  · exact (clock_placeOne _ c _).trans (clock_of_regs rfl rfl)

theorem clock_degraded (cls n : Nat) : clockPart (degraded p c cls n) = clockPart p :=
  (clock_logEntry _ c _ _ _ _ _).trans (clock_rsetb p _ _ (by decide))

theorem clock_syncCfg : clockPart (syncCfg p) = clockPart p := by
  unfold syncCfg
  dsimp only
  split
  · exact (clock_rset _ _ (by decide)).trans (clock_rset p _ (by decide))
  · exact clock_rset p _ (by decide)

theorem clock_recordMap (f : Pkg → Pkg) : clockPart (recordMap p f) = clockPart (f p) := by
  unfold recordMap
  dsimp only
  split
  · rfl
  · split_ifs
    · rfl
    · exact (clock_syncCfg _).trans (clock_of_regs rfl rfl)

theorem clock_requestSwap (i : Nat) : clockPart (requestSwap p c i) = clockPart p := by
  unfold requestSwap
  dsimp only
  generalize (if i < 256 then 32 else if i < 288 then 33 else 34) = kind
  split
  · rfl
  · split
    · exact clock_degraded p c _ _
    · exact (clock_recordMap _ id).trans (clock_requestPlaced p c _)

theorem clock_faultyUnit (i : Nat) : clockPart (faultyUnit p c i) = clockPart p := by
  unfold faultyUnit
  split
  · exact clock_requestSwap p c i
  · exact (clock_degraded _ c _ _).trans ((clock_recordMap p _).trans (clock_of_regs rfl rfl))

end

/-- The instruction numbered n has failed and does not finish. -/
def noLock (p : Pkg) (t n : Nat) : Pkg :=
  modTile p t (fun x => { x with infl := x.infl.map (fun g => if g.seq = n then { g with fin := false, failed := true } else g) })

theorem exec_pllLockFail {s : State} {t : Fin 128} {n : Nat} {d : Fin 5} {f : InFl}
    (hf : (tile s.pkg t).infl.find? (fun g => g.seq == n && opcodeOf g.word.toNat == 0xA6) = some f) (hb : bit (bits f.word.toNat 7 0) d = true) :
    exec (.pllLockFail t n d) s = .next (Safety.withPkg s
      (faultyUnit (rsetb (noLock s.pkg t n) rPwrStatus 6 true) s.clk (clkUnit (noLock s.pkg t n) t d))) := by
  rw [show exec (.pllLockFail t n d) s = execPllLockFail t n d s from rfl, execPllLockFail, run_eq]
  simp only [hf, hb, Bool.not_true, Bool.false_eq_true, if_false]
  rfl

theorem infl_noLock {p : Pkg} {t n : Nat} {g : InFl} (hg : g ∈ (tile (noLock p t n) t).infl) (hn : g.seq = n) : g.fin = false ∧ g.failed = true := by
  rw [noLock, tile_modTile_self] at hg
  obtain ⟨x, -, rfl⟩ := List.mem_map.mp hg
  by_cases hx : x.seq = n
  · rw [if_pos hx]
    exact ⟨rfl, rfl⟩
  · rw [if_neg hx] at hn
    exact absurd hn hx

theorem pllLockFail_shows {s : State} {t : Fin 128} {n : Nat} {d : Fin 5} {f : InFl}
    (hf : (tile s.pkg t).infl.find? (fun g => g.seq == n && opcodeOf g.word.toNat == 0xA6) = some f) (hb : bit (bits f.word.toNat 7 0) d = true) :
    ∃ u, exec (.pllLockFail t n d) s = .next u ∧ rbit u.pkg rPwrStatus 6 = true ∧
      ∀ g ∈ (tile u.pkg t).infl, g.seq = n → g.fin = false ∧ g.failed = true := by
  have hk := clock_faultyUnit (rsetb (noLock s.pkg t n) rPwrStatus 6 true) s.clk (clkUnit (noLock s.pkg t n) t d)
  refine ⟨_, exec_pllLockFail hf hb, ?_, fun g hg hn => ?_⟩
  · rw [rbit, show rget _ rPwrStatus = _ from congrArg Prod.snd hk]
    exact rbit_rsetb_self _ _ _ _ (by decide)
  · rw [tile_congr t (congrArg Prod.fst hk)] at hg
    exact infl_noLock hg hn

/-- Settles O15: the expiry by whether its die has a spare, the loss of REFCLK by what ends as alignment is lost, the failed lock by what
stays of the instruction. -/
theorem watchdogAndClockFailures : Obligations.WatchdogAndClockFailures := by
  refine ⟨fun s k hk hu => ⟨fun hf => ?reset, fun n hf hw => ?swap⟩, fun s => ?loss, refclkReturn_shows,
    fun s t n d f hf hb => pllLockFail_shows hf hb⟩
  case reset =>
    obtain ⟨p, q, he, hr, hmem, hplans, hhost⟩ := watchdogExpiry_resets hk hu hf
    refine ⟨_, he, ?_, hr.stage, hr.ops, hr.launches, hr.plans.trans hplans, hr.host.trans hhost, fun a => ?_⟩
    · rw [rfld, hr.cause]
      rfl
    · rw [hr.mem, hmem]
      exact mget_filter _ _ _
  case swap =>
    obtain ⟨x, he⟩ := watchdogExpiry_swaps hk hu hf hw
    have hn : n ≠ 304 + k := by
      rintro rfl
      exact absurd (hu.symm.trans (unitState_of_freeSpare hf)) (by decide)
    obtain ⟨h0, hl, h3, hops, hlaunches⟩ := keeperTaken_shows (p := expiryNoted s.pkg s.clk k) s.clk hn
    exact ⟨_, he, h0, hl.trans (unitLogical_congr _ (expiryNoted_punits _ _ _)), h3, hops.trans (logEntry_ops _ _ _ _ _ _ _),
      hlaunches.trans (outward_logEntry _ _ _ _ _ _ _).launches⟩
  case loss =>
    obtain ⟨hp, hs⟩ := loseSync_align (refclk (runningEnded s.pkg s.clk) true) s.clk
    have hlost : (loseSync (refclk (runningEnded s.pkg s.clk) true) s.clk).pins.refLost = true := congrArg Pins.refLost hp
    exact ⟨_, exec_refclkLoss s, hlost, hs, admission_of_refLost hlost⟩

end Sys2Proof.Machine
end

section
/-! PROOFS. The management bus (R480), attestation (R449) and image transfers (R466): O16. -/

namespace Sys2Proof.Machine

/-! Bus commands (R480, Table 20.6) -/

/-- With the 12 V input valid and no line held low, a command with a right PEC byte is taken up. -/
theorem busCmd_eq {s : State} (f : Clock → Pkg → Pkg) (hl : live s.pkg = true) (hs : s.pkg.pins.smb ≠ 1) :
    busCmd s true f = .next (Safety.withPkg s (f s.clk s.pkg)) := by
  rw [busCmd, run_eq, if_neg (by simp [hl, hs])]

section
variable {s : State} (hl : live s.pkg = true) (hs : s.pkg.pins.smb ≠ 1)
include hl hs

theorem exec_mgmtStatus : exec .mgmtStatus s = .next (Safety.withPkg s (busReply s.pkg (natLe 4 (regRead s.pkg s.clk rGlbStatus)))) := by
  rw [show exec .mgmtStatus s = execMgmtStatus s from rfl, execMgmtStatus, busCmd_eq _ hl hs]

theorem exec_mgmtIdent : exec .mgmtIdent s = .next (Safety.withPkg s (busReply s.pkg (natLe 4 (rget s.pkg rGlbId)
    ++ natLe 4 (rget s.pkg rGlbSerialLo) ++ natLe 4 (rget s.pkg rGlbSerialHi) ++ natLe 4 (rget s.pkg rGlbDcid)))) := by
  rw [show exec .mgmtIdent s = execMgmtIdent s from rfl, execMgmtIdent, busCmd_eq _ hl hs]

theorem exec_mgmtPower : exec .mgmtPower s = .next (Safety.withPkg s (busReply s.pkg (natLe 4 (rget s.pkg rPwrInput)
    ++ natLe 4 (rget s.pkg rPwrPower) ++ natLe 4 (rget s.pkg rPwrTemp)))) := by
  rw [show exec .mgmtPower s = execMgmtPower s from rfl, execMgmtPower, busCmd_eq _ hl hs]

theorem exec_imageState (h4 : stageOf s.pkg = 4) :
    exec .imageState s = .next (Safety.withPkg s (busReply s.pkg (natLe 4 (if s.pkg.xfer.busRef then 4 else s.pkg.xfer.state)))) := by
  rw [show exec .imageState s = execImageState s from rfl, execImageState, busCmd_eq _ hl hs, if_neg (not_not.mpr h4)]

end

/-! Attestation (R449) -/

theorem exec_attestReq {s : State} {nonce : List Byte} (hl : live s.pkg = true) (hs : s.pkg.pins.smb ≠ 1)
    (hst : stageOf s.pkg = 4 ∨ stageOf s.pkg = 5) (hn : nonce.length = 32) :
    exec (.attestReq none nonce true) s = .next (Safety.withPkg s { s.pkg with pins := { s.pkg.pins with
      nonce := nonce, reqStatus := regRead s.pkg s.clk rGlbStatus, asker := none, report := [], reportState := 1 } }) := by
  have hc : (!live s.pkg || !asked s.pkg none true || (stageOf s.pkg != 4 && stageOf s.pkg != 5) || nonce.length != 32) = false := by
    rcases hst with hst | hst <;> simp [asked, hl, hs, hst, hn]
  rw [show exec (.attestReq none nonce true) s = execAttestReq none nonce true s from rfl, execAttestReq, run_eq, hc,
    if_neg Bool.false_ne_true]
  rfl

/-- Bytes 0x08 to 0x8F of the report (Table 18.6). -/
def reportFacts (p : Pkg) (c : Clock) : List Byte :=
  natLe 4 (rget p rGlbSerialLo) ++ natLe 4 (rget p rGlbSerialHi)
    ++ natLe 4 (ownPlace p) ++ natLe 4 (rget p rGlbDcid) ++ natLe 4 (if romAnswers p then 0 else rget p rGlbFwver)
    ++ natLe 4 (rget p rSecRollback) ++ natLe 4 (rget p rSecCfgseq) ++ natLe 4 (rget p rGlbBootcnt) ++ natLe 8 c.gsc
    ++ (if romAnswers p then List.replicate 48 0#8 else rbytes p (rSecFwhash 0) 48)
    ++ ((((recInUse p).map (fun r => r.digest)).getD []) ++ List.replicate 48 0#8).take 48

/-- Bytes 0x00 to 0x8F of the report: what stands before the nonce. -/
def reportHead (p : Pkg) (c : Clock) : List Byte := natLe 4 0x54525441 ++ (natLe 4 p.pins.reqStatus ++ reportFacts p c)

theorem reportBody_eq (p : Pkg) (c : Clock) : reportBody p c = reportHead p c ++ (p.pins.nonce ++ List.replicate 80 0#8) := by
  simp only [reportBody, reportHead, reportFacts, List.append_assoc]

theorem rbytes_length (p : Pkg) (o n : Nat) : (rbytes p o n).length = n := by
  rw [rbytes, List.length_take, List.length_flatMap]
  simp only [natLe_length, List.map_const', List.sum_replicate, List.length_range, smul_eq_mul]
  omega

theorem length_reportFacts (p : Pkg) (c : Clock) : (reportFacts p c).length = 0x88 := by
  have hd : ∀ l : List Byte, ((l ++ List.replicate 48 0#8).take 48).length = 48 := fun l => by
    rw [List.length_take, List.length_append, List.length_replicate]
    omega
  have hh : (if romAnswers p then List.replicate 48 0#8 else rbytes p (rSecFwhash 0) 48).length = 48 := by
    split
    · exact List.length_replicate
    · exact rbytes_length _ _ _
  simp only [reportFacts, List.length_append, natLe_length, hh, hd]

theorem length_reportHead (p : Pkg) (c : Clock) : (reportHead p c).length = 0x90 := by
  rw [reportHead, List.length_append, List.length_append, natLe_length, natLe_length, length_reportFacts]

theorem fitBytes_of_length {l : List Byte} {n : Nat} (h : l.length = n) : fitBytes n l = l := List.take_left' h

/-- The bytes of a part behind what stands before it. -/
theorem take_drop_append {a b : List Byte} (d : List Byte) {i n : Nat} (ha : a.length = i) (hb : b.length = n) :
    ((a ++ (b ++ d)).drop i).take n = b := by rw [List.drop_left' ha, List.take_left' hb]

/-- The report of a package, signed. -/
def signedReport (p : Pkg) (c : Clock) (rsa slh : List Byte) : List Byte := reportBody p c ++ rsa ++ slh

theorem exec_attestReportReady {s : State} {rsa slh : List Byte} (h1 : s.pkg.pins.reportState = 1) (ha : s.pkg.pins.asker = none)
    (hr : rsa.length = 384) (hs : slh.length = 16224) : exec (.attestReportReady rsa slh) s = .next (Safety.withPkg s
      { s.pkg with pins := { s.pkg.pins with report := signedReport s.pkg s.clk rsa slh, reportState := 2 } }) := by
  rw [show exec (.attestReportReady rsa slh) s = execAttestReportReady rsa slh s from rfl, execAttestReportReady, run_eq,
    if_neg (not_not.mpr h1), fitBytes_of_length hr, fitBytes_of_length hs]
  simp only [ha]
  rfl

section
variable {p : Pkg} (c : Clock) {rsa slh : List Byte} (hn : p.pins.nonce.length = 32)
include hn

theorem length_reportBody : (reportBody p c).length = 0x100 := by
  rw [reportBody_eq, List.length_append, List.length_append, length_reportHead, hn, List.length_replicate]

/-- Where the parts of the report stand (Table 18.6). -/
theorem signedReport_parts (hr : rsa.length = 384) (hs : slh.length = 16224) :
    (signedReport p c rsa slh).length = 16864 ∧ field (signedReport p c rsa slh) 0 4 = 0x54525441 ∧
    ((signedReport p c rsa slh).drop 4).take 4 = natLe 4 p.pins.reqStatus ∧ ((signedReport p c rsa slh).drop 0x90).take 32 = p.pins.nonce ∧
    ((signedReport p c rsa slh).drop 0x100).take 384 = rsa ∧ (signedReport p c rsa slh).drop 0x280 = slh := by
  have hb := length_reportBody c hn
  refine ⟨?_, ?_, ?_, ?_, ?_, ?_⟩
  · rw [signedReport, List.length_append, List.length_append, hb, hr, hs]
  · simp only [signedReport, reportBody_eq, reportHead, List.append_assoc]
    exact field_natLe_append _ _ _
  · simp only [signedReport, reportBody_eq, reportHead, List.append_assoc]
    exact take_drop_append _ (natLe_length _ _) (natLe_length _ _)
  · simp only [signedReport, reportBody_eq, List.append_assoc]
    exact take_drop_append _ (length_reportHead p c) hn
  · rw [signedReport, List.append_assoc]
    exact take_drop_append _ hb hr
  · exact List.drop_left' (by rw [List.length_append, hb, hr])

end

/-- Within the report a read answers its bytes. -/
theorem reportBytes_of_le {p : Pkg} {off : Nat} (h : off + 32 ≤ p.pins.report.length) : reportBytes p off = (p.pins.report.drop off).take 32 := by
  refine List.ext_getElem ?_ fun i hi _ => ?_
  · rw [reportBytes, List.length_map, List.length_range, List.length_take, List.length_drop]
    omega
  · have hi32 : i < 32 := by simpa only [reportBytes, List.length_map, List.length_range] using hi
    simp only [reportBytes, List.getElem_map, List.getElem_range, List.getElem_take, List.getElem_drop]
    exact List.getD_eq_getElem _ _ (by omega)

theorem exec_attestRead {s : State} {off : W32} (hl : live s.pkg = true) (hs : s.pkg.pins.smb ≠ 1) (h2 : s.pkg.pins.reportState = 2)
    (ha : s.pkg.pins.asker = none) (h : off.toNat + 32 ≤ s.pkg.pins.report.length) :
    exec (.attestRead off true) s = .next (Safety.withPkg s (busReply s.pkg ((s.pkg.pins.report.drop off.toNat).take 32))) := by
  have hc : ¬(s.pkg.pins.reportState ≠ 2 ∨ s.pkg.pins.asker.isSome = true) := by simp [h2, ha]
  rw [show exec (.attestRead off true) s = execAttestRead off true s from rfl, execAttestRead, busCmd_eq _ hl hs, if_neg hc,
    if_neg (Nat.not_lt.mpr h), reportBytes_of_le h]

/-! Image transfers (R466, R480) -/

/-- At stage 4 a transfer's command over the bus is taken up; one of the other source only shows that it was refused. -/
theorem transferCmd_eq {s : State} (f : Clock → Pkg → Bool → Pkg) (hl : live s.pkg = true) (h4 : stageOf s.pkg = 4) (hs : s.pkg.pins.smb ≠ 1) :
    transferCmd s none true f = .next (Safety.withPkg s (if otherBusy s.pkg true then
      { s.pkg with xfer := { s.pkg.xfer with busRef := true } } else f s.clk s.pkg true)) := by
  have hc : (!live s.pkg || stageOf s.pkg != 4 || !asked s.pkg none true) = false := by simp [asked, hl, h4, hs]
  rw [transferCmd, run_eq, hc, if_neg Bool.false_ne_true]
  simp only [Option.isNone_none, dropAsk, Bool.or_true]

/-- The bytes that a transfer has taken up. -/
def takenUp (x : Transfer) : SMap Byte := if x.state = 1 then x.bytes else []

section
variable {s : State} (hl : live s.pkg = true) (h4 : stageOf s.pkg = 4) (hs : s.pkg.pins.smb ≠ 1)
include hl h4 hs

theorem exec_imageWrite (off : W32) {data : List Byte} (hd : data.length ≤ 28) (ho : otherBusy s.pkg true = false) :
    exec (.imageWrite none off data true) s = .next (Safety.withPkg s { s.pkg with xfer :=
      { bus := true, state := 1, last := s.clk.gsc, bytes := imageBytes (takenUp s.pkg.xfer) off.toNat data } }) := by
  rw [show exec (.imageWrite none off data true) s = execImageWrite none off data true s from rfl, execImageWrite,
    transferCmd_eq _ hl h4 hs, ho, if_neg Bool.false_ne_true, Bool.true_and, decide_eq_false (Nat.not_lt.mpr hd), if_neg Bool.false_ne_true]
  rfl

theorem exec_imageWrite_refused (off : W32) (data : List Byte) (ho : otherBusy s.pkg true = true) :
    exec (.imageWrite none off data true) s = .next (Safety.withPkg s { s.pkg with xfer := { s.pkg.xfer with busRef := true } }) := by
  rw [show exec (.imageWrite none off data true) s = execImageWrite none off data true s from rfl, execImageWrite,
    transferCmd_eq _ hl h4 hs, ho, if_pos rfl]

end

theorem sget_imageBytes_before (l : List Byte) {m : SMap Byte} {off k : Nat} (h : k < off) (d : Byte) :
    sget (imageBytes m off l) k d = sget m k d := by
  induction l generalizing m off with
  | nil => rfl
  | cons b r ih => rw [imageBytes, ih (Nat.lt_succ_of_lt h), sget_sset_ne _ _ _ (Nat.ne_of_lt h)]

/-- What was written is read back at its offset. -/
theorem sget_imageBytes (l : List Byte) (m : SMap Byte) (off : Nat) {i : Nat} (h : i < l.length) (d : Byte) :
    sget (imageBytes m off l) (off + i) d = l[i] := by
  induction l generalizing m off i with
  | nil => exact absurd h (Nat.not_lt_zero i)
  | cons b r ih =>
    rw [imageBytes]
    cases i with
    | zero => exact (sget_imageBytes_before r (Nat.lt_succ_self off) d).trans (sget_sset_self _ _ _ _)
    | succ i =>
      rw [show off + (i + 1) = off + 1 + i from Nat.add_right_comm off i 1]
      exact ih _ _ (Nat.lt_of_succ_lt_succ h)

/-- The image that a commit verifies: what verification finds, behind the header received. -/
def received (p : Pkg) (img : Image) : Image := { img with header := gotHeader p }

/-- All bytes are there, and the image passes every check. -/
def commitOk (p : Pkg) (len : Nat) (img : Image) : Bool :=
  gotAll p len && decide (len = 0x100 + imgLength (received p img) + 17044) && (imageCheck p (some (received p img))).isNone

/-- The transfer has come to an end. -/
def transferEnded (p : Pkg) (c : Clock) (state : Nat) : Pkg := { p with xfer := { bus := true, state := state, last := c.gsc } }

/-- The slot that does not run takes the image. -/
def slotWritten (p : Pkg) (i : Image) : Pkg :=
  if rbit p rSecStatus 1 then { p with store := { p.store with imgA := some i } } else { p with store := { p.store with imgB := some i } }

theorem exec_imageCommit {s : State} (len : W32) (img : Image) (hl : live s.pkg = true) (h4 : stageOf s.pkg = 4) (hs : s.pkg.pins.smb ≠ 1)
    (h1 : s.pkg.xfer.state = 1) (hb : s.pkg.xfer.bus = true) : exec (.imageCommit none len img true) s = .next (Safety.withPkg s
      (if commitOk s.pkg len.toNat img then slotWritten (transferEnded s.pkg s.clk 3) (received s.pkg img) else transferEnded s.pkg s.clk 4)) := by
  have ho : otherBusy s.pkg true = false := by rw [otherBusy, hb, bne_self_eq_false, Bool.and_false]
  rw [show exec (.imageCommit none len img true) s = execImageCommit none len img true s from rfl, execImageCommit,
    transferCmd_eq _ hl h4 hs, ho, if_neg Bool.false_ne_true, if_neg (not_not.mpr h1)]
  simp only [show (gotAll s.pkg len.toNat && decide (len.toNat = 0x100 + imgLength { img with header := gotHeader s.pkg } + 17044)
    && (imageCheck s.pkg (some { img with header := gotHeader s.pkg })).isNone) = commitOk s.pkg len.toNat img from rfl]
  cases commitOk s.pkg len.toNat img <;> rfl

/-- The running slot stays, the other one holds the image. -/
theorem slotWritten_slots (p : Pkg) (i : Image) : image (slotWritten p i) (1 - rfld p rSecStatus 1 1) = some i ∧
    image (slotWritten p i) (rfld p rSecStatus 1 1) = image p (rfld p rSecStatus 1 1) := by
  have hlt : rfld p rSecStatus 1 1 < 2 := bits_lt _ _ _
  have hbit : rbit p rSecStatus 1 = (rfld p rSecStatus 1 1 == 1) := bit_eq_bits _ _
  rw [slotWritten, hbit]
  obtain h | h : rfld p rSecStatus 1 1 = 0 ∨ rfld p rSecStatus 1 1 = 1 := by omega
  · rw [h]
    exact ⟨rfl, rfl⟩
  · rw [h]
    exact ⟨rfl, rfl⟩

theorem slotWritten_xfer (p : Pkg) (i : Image) : (slotWritten p i).xfer = p.xfer := by
  rw [slotWritten]
  split <;> rfl

theorem slotWritten_regs (p : Pkg) (i : Image) : (slotWritten p i).regs = p.regs := by
  rw [slotWritten]
  split <;> rfl

theorem exec_imageTransferTimeout {s : State} (h1 : s.pkg.xfer.state = 1) (hc : s.pkg.xfer.last + 2500000000 ≤ s.clk.gsc) :
    exec .imageTransferTimeout s = .next (Safety.withPkg s { s.pkg with xfer := {} }) := by
  rw [show exec .imageTransferTimeout s = execImageTransferTimeout s from rfl, execImageTransferTimeout, run_eq,
    if_neg (not_or.mpr ⟨not_not.mpr h1, Nat.not_lt.mpr hc⟩)]

/-- Settles O16: each command by its equation; the report by where its parts stand, the transfer's bytes by induction over the data
written, the commit by the slot that runs. -/
theorem managementBus : Obligations.ManagementBus := by
  refine ⟨fun s hl hs => ⟨exec_mgmtStatus hl hs, exec_mgmtIdent hl hs, exec_mgmtPower hl hs, exec_imageState hl hs⟩,
    ⟨fun s nonce hl hs hst hn => ⟨_, exec_attestReq hl hs hst hn, rfl, rfl, rfl, rfl, rfl, rfl, rfl⟩, fun s rsa slh h1 ha hn hr hsl => ?ready,
      fun s off => exec_attestRead⟩,
    fun s off data hl h4 hs hd ho => ⟨_, exec_imageWrite hl h4 hs off hd ho, rfl, rfl, fun i h => sget_imageBytes data _ _ h _, rfl, rfl⟩,
    fun s len img hl h4 hs h1 hb => ⟨fun hg hlen hi => ?written, fun hi => ?refused⟩,
    fun s off data hl h4 hs ho => ⟨_, exec_imageWrite_refused hl h4 hs off data ho, rfl, rfl⟩,
    fun s h1 hc => ⟨_, exec_imageTransferTimeout h1 hc, rfl, rfl, rfl⟩⟩
  case ready =>
    obtain ⟨hlen, hmagic, hreq, hnonce, hrsa, hslh⟩ := signedReport_parts s.clk hn hr hsl
    exact ⟨_, exec_attestReportReady h1 ha hr hsl, rfl, hlen, hmagic, hreq, hnonce, hrsa, hslh, rfl⟩
  case written =>
    have hok : commitOk s.pkg len.toNat img = true := by
      rw [commitOk, hg, received, hi, decide_eq_true hlen]
      rfl
    have he := exec_imageCommit len img hl h4 hs h1 hb
    rw [hok, if_pos rfl] at he
    obtain ⟨hnew, hold⟩ := slotWritten_slots (transferEnded s.pkg s.clk 3) (received s.pkg img)
    exact ⟨_, he, congrArg Transfer.state (slotWritten_xfer _ _), hnew, hold, slotWritten_regs _ _⟩
  case refused =>
    have hok : commitOk s.pkg len.toNat img = false := by
      rw [commitOk, received, Option.isNone_eq_false_iff.mpr (Option.isSome_iff_ne_none.mpr hi), Bool.and_false]
    have he := exec_imageCommit len img hl h4 hs h1 hb
    rw [hok, if_neg Bool.false_ne_true] at he
    exact ⟨_, he, rfl, rfl, rfl⟩

end Sys2Proof.Machine
end

section
/-! PROOFS. Monitor commands that act, tokens and refusals (R428, R450, R482 to R487): O18. -/

namespace Sys2Proof.Machine

/-! A monitor command is counted and answered (R483, R486) -/

theorem rget_heard (p : Pkg) {o : Nat} (h : o ≠ rDbgMoncmds) : rget (bump p rDbgMoncmds) o = rget p o := rget_bump_ne p h

theorem rbit_heard (p : Pkg) {o : Nat} (i : Nat) (h : o ≠ rDbgMoncmds) : rbit (bump p rDbgMoncmds) o i = rbit p o i := rbit_rset_ne p _ i h

theorem tokenFits_heard (p : Pkg) : tokenFits (bump p rDbgMoncmds) = tokenFits p := by
  rw [tokenFits, rget_heard p (by decide), rget_heard p (by decide)]
  rfl

/-- The count of a command decides nothing of whether it is available. -/
theorem monGate_heard (p : Pkg) (a : MonAvail) : monGate (bump p rDbgMoncmds) a = monGate p a := by
  have hs : stageOf (bump p rDbgMoncmds) = stageOf p := rfld_rset_ne p _ _ _ (by decide)
  have hd : ∀ b, dbgOn (bump p rDbgMoncmds) b = dbgOn p b := fun b => by
    rw [dbgOn, rbit_heard p _ (by decide), rbit_heard p _ (by decide), dbgOn]
  simp only [monGate, hs, hd, rbit_heard p 2 (show rGlbStatus ≠ rDbgMoncmds by decide)]

/-- What a counted command's answer leaves: the package, or a line with the error, which is counted too. -/
def monAnswered (p : Pkg) : Except Nat Pkg → Pkg
  | .ok q => q
  | .error e => monLine (bump p rDbgMonerrs) (errLine e)

theorem mon_eq {s : State} (f : Clock → Pkg → Except Nat Pkg) (h : Safety.Hears s.pkg) : mon s f =
    .next (Safety.withPkg s (monAnswered (bump s.pkg rDbgMoncmds) (f s.clk (bump s.pkg rDbgMoncmds)))) := by
  obtain ⟨hl, hr, hb⟩ := h
  rw [mon, run_eq, hl, hr, hb, if_neg (by decide)]
  dsimp only
  cases f s.clk (bump s.pkg rDbgMoncmds) with
  | ok q => exact rfl
  | error e => exact rfl

/-- The state after a command with an error: both counts, and the line. -/
def refusedBy (s : State) (e : Nat) : State :=
  Safety.withPkg s (monLine (bump (bump s.pkg rDbgMoncmds) rDbgMonerrs) (errLine e))

/-- An available command does what its meaning answers. -/
theorem mon_available {s : State} {a : MonAvail} {f : Clock → Pkg → Except Nat Pkg} {q : Pkg} (h : Safety.Hears s.pkg)
    (hg : monGate s.pkg a = .ok ()) (hf : f s.clk (bump s.pkg rDbgMoncmds) = .ok q) :
    mon s (fun c p => do monGate p a; f c p) = .next (Safety.withPkg s q) := by
  rw [mon_eq _ h, monGate_heard, hg]
  exact congrArg (fun x => Host.Outcome.next (Safety.withPkg s (monAnswered (bump s.pkg rDbgMoncmds) x))) hf

/-- A command that is not available is refused. -/
theorem mon_unavailable {s : State} {a : MonAvail} {e : Nat} (f : Clock → Pkg → Except Nat Pkg) (h : Safety.Hears s.pkg)
    (hg : monGate s.pkg a = .error e) : mon s (fun c p => do monGate p a; f c p) = .next (refusedBy s e) := by
  rw [mon_eq _ h, monGate_heard, hg]
  rfl

theorem monGate_early {p : Pkg} {a : MonAvail} (h : stageOf p < 4) (ha : a.early = false) : monGate p a = .error 4 := by
  rw [monGate, if_pos h, ha]
  rfl

theorem monGate_always {p : Pkg} {a : MonAvail} (h : stageOf p = 4) (ha : a.ready = some none) : monGate p a = .ok () := by
  simp only [monGate, h, ha, Nat.lt_irrefl, if_false, if_true]

/-- Under an enable a command is available at stage 4. -/
theorem monGate_enabled {p : Pkg} {a : MonAvail} {b : Nat} (h : stageOf p = 4) (ha : a.ready = some (some b)) (hb : dbgOn p b = true) :
    monGate p a = .ok () := by
  simp only [monGate, h, ha, hb, Nat.lt_irrefl, if_false, if_true]

theorem monGate_notEnabled {p : Pkg} {a : MonAvail} {b : Nat} (h : stageOf p = 4) (ha : a.ready = some (some b)) (hb : dbgOn p b = false) :
    monGate p a = .error 2 := by
  simp only [monGate, h, ha, hb, Nat.lt_irrefl, if_false, if_true, Bool.false_eq_true]

theorem monGate_recovery {p : Pkg} {a : MonAvail} (h : 4 < stageOf p) (hr : rbit p rGlbStatus 2 = true) (ha : a.rec_ = false) :
    monGate p a = .error 4 := by
  rw [monGate, if_neg (Nat.lt_asymm h), if_neg (Nat.ne_of_gt h), if_pos hr, ha]
  rfl

/-! A line of the monitor -/

theorem monLine_regs (p : Pkg) (l : List Byte) : (monLine p l).regs = p.regs := by
  rw [monLine]
  split <;> rfl

theorem monLine_token (p : Pkg) (l : List Byte) : (monLine p l).pins.token = p.pins.token := by
  rw [monLine]
  split <;> rfl

theorem monLine_tokNext (p : Pkg) (l : List Byte) : (monLine p l).pins.tokNext = p.pins.tokNext := by
  rw [monLine]
  split <;> rfl

theorem monLine_monOut {p : Pkg} (l : List Byte) (h : p.pins.txReleased = false) : (monLine p l).pins.monOut = p.pins.monOut ++ [l] := by
  rw [monLine, h]
  rfl

theorem rget_monLine (p : Pkg) (l : List Byte) (o : Nat) : rget (monLine p l) o = rget p o := rget_congr o (monLine_regs p l)

theorem rbit_monLine (p : Pkg) (l : List Byte) (o i : Nat) : rbit (monLine p l) o i = rbit p o i := by rw [rbit, rget_monLine, rbit]

/-! Commands at stage 4 (R482 to R485) -/

/-- The monitor's answer to `B`: OK, and a rate that applies 10 ms later. -/
def rateAsked (p : Pkg) (c : Clock) (r : Nat) : Pkg :=
  { monLine p okBytes with pins := { (monLine p okBytes).pins with baudNext := some (r, c.up + ticksUp p 2500000) } }

/-- The answer to a token chunk in order, which is kept. -/
def chunkKept (p : Pkg) (data : List Byte) : Pkg :=
  monLine { p with pins := { p.pins with token := p.pins.token ++ data, tokNext := p.pins.tokNext + 1 } } okBytes

/-- A complete token is counted (R428). -/
def tokenCounted (p : Pkg) : Pkg := if p.pins.token.length = 17108 then bump p rSecTokcnt else p

/-- A token is accepted: DBGTOKEN, and OK. -/
def tokenTaken (p : Pkg) : Pkg := monLine (rsetb (dropToken p) rSecStatus 3 true) okBytes

/-- What a token must meet: fields and serial number, keys and signatures, and the lock clear. -/
def tokenOk (p : Pkg) (keys rsa slh : Bool) : Bool := tokenFits p && keys && rsa && slh && !rbit p rSecLock 0

section
variable {s : State} (h : Safety.Hears s.pkg) (h4 : stageOf s.pkg = 4)
include h h4

theorem exec_monRegisterWrite {o : Nat} (v : W32) (hb : dbgOn s.pkg 1 = true) (ho : offsetOk o = true) :
    exec (.monRegisterWrite (some (o, v))) s =
      .next (Safety.withPkg s (monLine (regPut (bump s.pkg rDbgMoncmds) s.clk 2 o v.toNat) okBytes)) :=
  (show exec (.monRegisterWrite (some (o, v))) s = execMonRegisterWrite (some (o, v)) s from rfl).trans
    (mon_available h (monGate_enabled h4 rfl hb) (if_neg (by rw [ho]; decide)))

theorem exec_monBaudRate {r : Nat} (hr : r ∈ monRates) :
    exec (.monBaudRate (some r)) s = .next (Safety.withPkg s (rateAsked (bump s.pkg rDbgMoncmds) s.clk r)) :=
  (show exec (.monBaudRate (some r)) s = execMonBaudRate (some r) s from rfl).trans
    (mon_available h (monGate_always h4 rfl) (if_neg (by rw [List.contains_iff_mem.mpr hr]; decide)))

theorem exec_monTokenChunk {data : List Byte} (hd : data ≠ []) (hn : data.length ≤ 256) :
    exec (.monTokenChunk (some (s.pkg.pins.tokNext, data))) s = .next (Safety.withPkg s (chunkKept (bump s.pkg rDbgMoncmds) data)) :=
  (show exec (.monTokenChunk (some (s.pkg.pins.tokNext, data))) s = execMonTokenChunk (some (s.pkg.pins.tokNext, data)) s from rfl).trans
    (mon_available h (monGate_always h4 rfl) ((if_neg (not_or.mpr ⟨hd, Nat.not_lt.mpr hn⟩)).trans (if_neg (not_not.mpr rfl))))

theorem exec_monSelfTest (test unit : Nat) (hb : dbgOn s.pkg 2 = true) : exec (.monSelfTest (some (test, unit))) s =
    .next (Safety.withPkg s (askTest (bump s.pkg rDbgMoncmds) s.clk test unit (s.clk.gsc + 250000000) none true)) :=
  (show exec (.monSelfTest (some (test, unit))) s = execMonSelfTest (some (test, unit)) s from rfl).trans
    (mon_available h (monGate_enabled h4 rfl hb) rfl)

theorem exec_monTokenEnd (keys rsa slh : Bool) : exec (.monTokenEnd keys rsa slh) s = .next (Safety.withPkg s
    (if tokenOk s.pkg keys rsa slh then tokenTaken (tokenCounted (bump s.pkg rDbgMoncmds)) else tokenRefused (tokenCounted (bump s.pkg rDbgMoncmds)))) := by
  have hk : tokenOk (bump s.pkg rDbgMoncmds) keys rsa slh = tokenOk s.pkg keys rsa slh := by
    rw [tokenOk, tokenFits_heard, rbit_heard _ _ (by decide), tokenOk]
  rw [← hk]
  exact (show exec (.monTokenEnd keys rsa slh) s = execMonTokenEnd keys rsa slh s from rfl).trans
    (mon_available h (monGate_always h4 rfl) (apply_ite Except.ok _ _ _).symm)

end

theorem exec_monUnknownCommand {s : State} (h : Safety.Hears s.pkg) : exec (.monUnknownCommand false) s = .next (refusedBy s 1) :=
  (show exec (.monUnknownCommand false) s = execMonUnknownCommand false s from rfl).trans (mon_eq _ h)

theorem rateAsked_regs (p : Pkg) (c : Clock) (r : Nat) : (rateAsked p c r).regs = p.regs := monLine_regs p okBytes

/-! The end of a token (R428, R450, R485) -/

theorem tokenCounted_pins (p : Pkg) : (tokenCounted p).pins = p.pins := by
  rw [tokenCounted]
  split <;> rfl

theorem rget_tokenCounted (p : Pkg) : rget (tokenCounted p) rSecTokcnt =
    if p.pins.token.length = 17108 then (rget p rSecTokcnt + 1) % 2 ^ 32 else rget p rSecTokcnt := by
  rw [tokenCounted]
  split
  · exact rget_bump_self p _
  · rfl

theorem rbit_tokenCounted (p : Pkg) : rbit (tokenCounted p) rSecStatus 3 = rbit p rSecStatus 3 := by
  rw [tokenCounted]
  split
  · exact rbit_rset_ne p _ _ (by decide)
  · rfl

theorem rget_tokenCounted_heard (p : Pkg) : rget (tokenCounted (bump p rDbgMoncmds)) rSecTokcnt =
    if p.pins.token.length = 17108 then (rget p rSecTokcnt + 1) % 2 ^ 32 else rget p rSecTokcnt := by
  rw [rget_tokenCounted, rget_heard p (by decide)]
  rfl

theorem tokenTaken_shows (p : Pkg) : rbit (tokenTaken p) rSecStatus 3 = true ∧ rget (tokenTaken p) rSecTokcnt = rget p rSecTokcnt ∧
    (tokenTaken p).pins.token = [] :=
  ⟨(rbit_monLine _ _ _ _).trans (rbit_rsetb_self _ _ _ _ (by decide)), (rget_monLine _ _ _).trans (rget_rset_ne _ _ (by decide)),
    monLine_token _ _⟩

theorem tokenRefused_shows {p : Pkg} (h : p.pins.txReleased = false) : (tokenRefused p).pins.monOut = p.pins.monOut ++ [errLine 6] ∧
    (tokenRefused p).pins.token = [] ∧ rbit (tokenRefused p) rSecStatus 3 = rbit p rSecStatus 3 ∧
    rget (tokenRefused p) rSecTokcnt = rget p rSecTokcnt :=
  ⟨monLine_monOut _ h, monLine_token _ _, (rbit_monLine _ _ _ _).trans (rbit_rset_ne _ _ _ (by decide)),
    (rget_monLine _ _ _).trans (rget_bump_ne _ (by decide))⟩

/-- A token of the right form is complete. -/
theorem length_of_tokenFits {p : Pkg} (h : tokenFits p = true) : p.pins.token.length = 17108 := by
  simp only [tokenFits, Bool.and_eq_true, beq_iff_eq] at h
  obtain ⟨⟨⟨hl, -⟩, -⟩, -⟩ := h
  exact hl

/-! Refusals (R486) -/

section
variable {s : State} {e : Nat} (h : Safety.Hears s.pkg)
include h

theorem exec_monRegisterRead_refused (o : Option Nat) (hg : monGate s.pkg availR = .error e) :
    exec (.monRegisterRead o) s = .next (refusedBy s e) :=
  (show exec (.monRegisterRead o) s = execMonRegisterRead o s from rfl).trans (mon_unavailable _ h hg)

theorem exec_monRegisterWrite_refused (a : Option (Nat × W32)) (hg : monGate s.pkg availW = .error e) :
    exec (.monRegisterWrite a) s = .next (refusedBy s e) :=
  (show exec (.monRegisterWrite a) s = execMonRegisterWrite a s from rfl).trans (mon_unavailable _ h hg)

theorem exec_monSpareMap_refused (hg : monGate s.pkg availR = .error e) : exec .monSpareMap s = .next (refusedBy s e) :=
  (show exec .monSpareMap s = execMonSpareMap s from rfl).trans (mon_unavailable _ h hg)

theorem exec_monTokenChunk_refused (k : Option (Nat × List Byte)) (hg : monGate s.pkg availK = .error e) :
    exec (.monTokenChunk k) s = .next (refusedBy s e) :=
  (show exec (.monTokenChunk k) s = execMonTokenChunk k s from rfl).trans (mon_unavailable _ h hg)

theorem exec_monSelfTest_refused (x : Option (Nat × Nat)) (hg : monGate s.pkg availT = .error e) :
    exec (.monSelfTest x) s = .next (refusedBy s e) :=
  (show exec (.monSelfTest x) s = execMonSelfTest x s from rfl).trans (mon_unavailable _ h hg)

theorem exec_monCounters_refused (b : Option Nat) (hg : monGate s.pkg availC = .error e) : exec (.monCounters b) s = .next (refusedBy s e) :=
  (show exec (.monCounters b) s = execMonCounters b s from rfl).trans (mon_unavailable _ h hg)

theorem exec_monEventLog_refused (n : Option Nat) (hg : monGate s.pkg availC = .error e) : exec (.monEventLog n) s = .next (refusedBy s e) :=
  (show exec (.monEventLog n) s = execMonEventLog n s from rfl).trans (mon_unavailable _ h hg)

theorem exec_monBaudRate_refused (r : Option Nat) (hg : monGate s.pkg availB = .error e) : exec (.monBaudRate r) s = .next (refusedBy s e) :=
  (show exec (.monBaudRate r) s = execMonBaudRate r s from rfl).trans (mon_unavailable _ h hg)

end

/-- Settles O18: each command by its equation, behind the gate of Table 20.8; the end of a token by whether it is accepted. -/
theorem monitorActsAndRefusals : Obligations.MonitorActsAndRefusals := by
  refine ⟨fun s h h4 => ⟨fun o v => exec_monRegisterWrite h h4 v, fun r hr => ⟨_, exec_monBaudRate h h4 hr, rfl, rateAsked_regs _ _ _⟩,
      fun data hd hn => ⟨_, exec_monTokenChunk h h4 hd hn, monLine_token _ _, monLine_tokNext _ _, monLine_regs _ _⟩,
      fun hf hk => ?taken, exec_monSelfTest h h4, exec_monUnknownCommand h⟩,
    fun s keys rsa slh h h4 ht hno => ?refused, fun s h => ⟨fun he o a k x => ?early, fun h4 hb o b n => ?reads, fun h4 hb a => ?write,
      fun h4 hb x => ?test, fun hl hr r => ?rate⟩⟩
  case taken =>
    have hok : tokenOk s.pkg true true true = true := by rw [tokenOk, hf, hk]; rfl
    obtain ⟨hd, hc, ht⟩ := tokenTaken_shows (tokenCounted (bump s.pkg rDbgMoncmds))
    refine ⟨_, exec_monTokenEnd h h4 true true true, ?_⟩
    rw [hok, if_pos rfl]
    exact ⟨hd, hc.trans ((rget_tokenCounted_heard s.pkg).trans (if_pos (length_of_tokenFits hf))), ht⟩
  case refused =>
    have hok : tokenOk s.pkg keys rsa slh = false := by
      simp only [tokenOk, Bool.and_eq_false_iff, Bool.not_eq_false']
      tauto
    have hp : (tokenCounted (bump s.pkg rDbgMoncmds)).pins = s.pkg.pins := tokenCounted_pins _
    obtain ⟨hm, ht, hd, hc⟩ := tokenRefused_shows (p := tokenCounted (bump s.pkg rDbgMoncmds)) (by rw [hp]; exact ht)
    refine ⟨_, exec_monTokenEnd h h4 keys rsa slh, ?_⟩
    rw [hok, if_neg Bool.false_ne_true]
    exact ⟨hm.trans (by rw [hp]), ht, hd.trans ((rbit_tokenCounted _).trans (rbit_heard _ _ (by decide))), hc.trans (rget_tokenCounted_heard s.pkg)⟩
  case early =>
    exact ⟨exec_monRegisterRead_refused h o (monGate_early he rfl), exec_monRegisterWrite_refused h a (monGate_early he rfl),
      exec_monSpareMap_refused h (monGate_early he rfl), exec_monTokenChunk_refused h k (monGate_early he rfl),
      exec_monSelfTest_refused h x (monGate_early he rfl)⟩
  case reads =>
    exact ⟨exec_monRegisterRead_refused h o (monGate_notEnabled h4 rfl hb), exec_monCounters_refused h b (monGate_notEnabled h4 rfl hb),
      exec_monSpareMap_refused h (monGate_notEnabled h4 rfl hb), exec_monEventLog_refused h n (monGate_notEnabled h4 rfl hb)⟩
  case write => exact exec_monRegisterWrite_refused h a (monGate_notEnabled h4 rfl hb)
  case test => exact exec_monSelfTest_refused h x (monGate_notEnabled h4 rfl hb)
  case rate => exact exec_monBaudRate_refused h r (monGate_recovery hl hr rfl)

end Sys2Proof.Machine
end

section
/-! PROOFS. Line faults (R479), the monitor's rate (R479, R482) and the test port (R475, R481): O19. -/

namespace Sys2Proof.Machine

/-! Line faults (R479) -/

/-- A fault that is not yet shown sets its bit, counts, and leaves the pins. -/
theorem lineFault_shows {p : Pkg} (c : Clock) {b : Nat} (hb : b < 32) (hl : live p = true) (h : rbit p rDbgStatus b = false) :
    (lineFault p c b).pins = p.pins ∧ rbit (lineFault p c b) rDbgStatus b = true ∧
    rget (lineFault p c b) rDbgLineflt = (rget p rDbgLineflt + 1) % 2 ^ 32 := by
  rw [lineFault, hl, h, if_neg (by decide)]
  refine ⟨(outward_logEntry _ _ _ _ _ _ _).pins, ?_, ?_⟩
  · rw [rbit_logEntry _ _ _ _ _ _ _ _ _ (by decide), show ∀ q, rbit (bump q rDbgLineflt) rDbgStatus b = rbit q rDbgStatus b from
      fun q => rbit_rset_ne q _ _ (by decide), rbit_rsetb_self _ _ _ _ hb]
  · rw [rget_logEntry _ _ _ _ _ _ _ _ (by decide), rget_bump_self, rget_rsetb_ne _ _ _ (by decide)]

/-- The pins while MON_RX is ignored. -/
def rxStuck (p : Pkg) : Pkg := { p with pins := { p.pins with rxIgnored := true } }

/-- The transmitter is released for 1 s. -/
def txFault (p : Pkg) (c : Clock) : Pkg := { p with pins := { p.pins with txReleased := true, txAt := c.up + ticksUp p 250000000 } }

/-- What is held of the fault of the bus. -/
def smbFault (p : Pkg) (c : Clock) (high : Bool) : Pkg :=
  { p with pins := { p.pins with smb := if high then 2 else 1, smbAt := c.up + ticksUp p 250000000 } }

section
variable {s : State} (hl : live s.pkg = true)
include hl

theorem exec_monRxStuck : exec .monRxStuck s = .next (Safety.withPkg s (lineFault (rxStuck s.pkg) s.clk 1)) := by
  rw [show exec .monRxStuck s = execMonRxStuck s from rfl, execMonRxStuck, run_eq, if_pos hl]
  rfl

theorem exec_monTxFault : exec .monTxFault s = .next (Safety.withPkg s (lineFault (txFault s.pkg s.clk) s.clk 2)) := by
  rw [show exec .monTxFault s = execMonTxFault s from rfl, execMonTxFault, run_eq, if_pos hl]
  rfl

theorem exec_smbLineFault (high : Bool) :
    exec (.smbLineFault high) s = .next (Safety.withPkg s (lineFault (smbFault s.pkg s.clk high) s.clk 0)) := by
  rw [show exec (.smbLineFault high) s = execSmbLineFault high s from rfl, execSmbLineFault, run_eq, hl, if_neg (by decide)]
  rfl

theorem exec_monBreak : exec .monBreak s =
    .next (Safety.withPkg s (rset { s.pkg with pins := { s.pkg.pins with baudNext := none } } rDbgMoncfg 115200)) := by
  rw [show exec .monBreak s = execMonBreak s from rfl, execMonBreak, run_eq, if_pos hl]

end

theorem exec_alertLineFault {s : State} (ha : alertN s.pkg = true) :
    exec (.outputLineFault false true) s = .next (Safety.withPkg s (lineFault s.pkg s.clk 3)) := by
  rw [show exec (.outputLineFault false true) s = execOutputLineFault false true s from rfl, execOutputLineFault, run_eq]
  exact congrArg (fun q => Host.Outcome.next (Safety.withPkg s q)) (if_pos ha)

theorem exec_monRxRelease (s : State) : exec .monRxRelease s =
    .next (Safety.withPkg s (rsetb { s.pkg with pins := { s.pkg.pins with rxIgnored := false } } rDbgStatus 1 false)) := rfl

theorem exec_monTxRetry {s : State} (h : s.pkg.pins.txAt ≤ s.clk.up) : exec .monTxRetry s =
    .next (Safety.withPkg s (rsetb { s.pkg with pins := { s.pkg.pins with txReleased := false } } rDbgStatus 2 false)) := by
  rw [show exec .monTxRetry s = execMonTxRetry s from rfl, execMonTxRetry, run_eq, if_neg (Nat.not_lt.mpr h)]

theorem exec_smbLineRelease {s : State} (h : s.pkg.pins.smb ≠ 2 ∨ s.pkg.pins.smbAt ≤ s.clk.up) : exec .smbLineRelease s =
    .next (Safety.withPkg s (rsetb { s.pkg with pins := { s.pkg.pins with smb := 0 } } rDbgStatus 0 false)) := by
  have hc : ¬(s.pkg.pins.smb = 2 ∧ s.clk.up < s.pkg.pins.smbAt) := by omega
  rw [show exec .smbLineRelease s = execSmbLineRelease s from rfl, execSmbLineRelease, run_eq, if_neg hc]

theorem exec_monBaudApply {s : State} {r u : Nat} (hb : s.pkg.pins.baudNext = some (r, u)) (hu : u ≤ s.clk.up) : exec .monBaudApply s =
    .next (Safety.withPkg s (rset { s.pkg with pins := { s.pkg.pins with baudNext := none } } rDbgMoncfg r)) := by
  rw [show exec .monBaudApply s = execMonBaudApply s from rfl, execMonBaudApply, run_eq, hb]
  exact congrArg (fun q => Host.Outcome.next (Safety.withPkg s q)) (if_neg (Nat.not_lt.mpr hu))

/-! The test port (R475, R481) -/

/-- With the 12 V input valid and TRST_N high the port takes its instruction. -/
theorem tap_eq {s : State} (f : Clock → Pkg → Pkg) (hl : live s.pkg = true) (ht : s.pkg.pins.trstLow = false) :
    tap s f = .next (Safety.withPkg s (f s.clk s.pkg)) := by
  rw [tap, run_eq, hl, ht, if_neg (by decide)]

/-- While TRST_N is low the port takes none. -/
theorem tap_held {s : State} (f : Clock → Pkg → Pkg) (ht : s.pkg.pins.trstLow = true) : tap s f = .next s := by
  rw [tap, run_eq, ht, Bool.or_true, if_pos rfl]

/-- The port reset by TRST_N. -/
def tapReset (p : Pkg) : Pkg := { p with pins := { p.pins with trstLow := true, tapIr := 1, cells := 0, tapOut := 0 } }

theorem exec_trstNAssert (s : State) : exec .trstNAssert s = .next (Safety.withPkg s (tapReset s.pkg)) := rfl

theorem exec_tapBypass_held {s : State} (ht : s.pkg.pins.trstLow = true) : exec .tapBypass s = .next s :=
  (show exec .tapBypass s = execTapBypass s from rfl).trans (tap_held _ ht)

theorem exec_tapIdcode_held {s : State} (ht : s.pkg.pins.trstLow = true) : exec .tapIdcode s = .next s :=
  (show exec .tapIdcode s = execTapIdcode s from rfl).trans (tap_held _ ht)

theorem exec_trstNRelease (s : State) :
    exec .trstNRelease s = .next (Safety.withPkg s { s.pkg with pins := { s.pkg.pins with trstLow := false } }) := rfl

/-- The port with an instruction that captures the levels and loads the cells. -/
def tapLoads (p : Pkg) (ir ext cells : Nat) : Pkg :=
  { tapIs p ir (signalLevels p ext) with pins := { (tapIs p ir (signalLevels p ext)).pins with cells := cells } }

/-- The port after a read of a word, or a write of a value, with the rights of the monitor. -/
def setupAccessed (p : Pkg) (c : Clock) (code o : Nat) : Option W32 → Pkg
  | some v => tapIs (regPut p c 2 o v.toNat) code 0
  | none => tapIs (regReadBy p c 2 o).1 code (regReadBy p c 2 o).2

section
variable {s : State} (hl : live s.pkg = true) (ht : s.pkg.pins.trstLow = false)
include hl ht

theorem exec_tapBypass : exec .tapBypass s = .next (Safety.withPkg s (tapIs s.pkg 0 0)) := by
  rw [show exec .tapBypass s = execTapBypass s from rfl, execTapBypass, tap_eq _ hl ht]

theorem exec_tapIdcode : exec .tapIdcode s = .next (Safety.withPkg s (tapIs s.pkg 1 0x10340A6D)) := by
  rw [show exec .tapIdcode s = execTapIdcode s from rfl, execTapIdcode, tap_eq _ hl ht]

theorem exec_tapClamp : exec .tapClamp s = .next (Safety.withPkg s (tapIs s.pkg 4 0)) := by
  rw [show exec .tapClamp s = execTapClamp s from rfl, execTapClamp, tap_eq _ hl ht]

theorem exec_tapHighz : exec .tapHighz s = .next (Safety.withPkg s (tapIs s.pkg 5 0)) := by
  rw [show exec .tapHighz s = execTapHighz s from rfl, execTapHighz, tap_eq _ hl ht]

theorem exec_tapSamplePreload (ext cells : Fin 256) :
    exec (.tapSamplePreload ext cells) s = .next (Safety.withPkg s (tapLoads s.pkg 2 ext cells)) := by
  rw [show exec (.tapSamplePreload ext cells) s = execTapSamplePreload ext cells s from rfl, execTapSamplePreload, tap_eq _ hl ht]
  rfl

theorem exec_tapExtest (ext cells : Fin 256) : exec (.tapExtest ext cells) s =
    .next (Safety.withPkg s (if s.pkg.pins.resetLow then tapLoads s.pkg 3 ext cells else tapIs s.pkg 3 0)) := by
  rw [show exec (.tapExtest ext cells) s = execTapExtest ext cells s from rfl, execTapExtest, tap_eq _ hl ht]
  rfl

theorem exec_tapSetupAccess_disabled (code : Fin 256) (o : Nat) (v : Option W32) (hd : dbgOn s.pkg 3 = false) :
    exec (.tapSetupAccess code o v) s = .next (Safety.withPkg s (tapIs s.pkg 0 0)) := by
  rw [show exec (.tapSetupAccess code o v) s = execTapSetupAccess code o v s from rfl, execTapSetupAccess, tap_eq _ hl ht, hd]
  rfl

/-- With the enable, and a code and an offset that setup access has, the word is accessed as the monitor does. -/
theorem exec_tapSetupAccess {code : Fin 256} {o : Nat} (v : Option W32) (hd : dbgOn s.pkg 3 = true) (h80 : 0x80 ≤ code.val)
    (hff : code.val ≠ 0xFF) (ho : offsetOk o = true) : exec (.tapSetupAccess code o v) s = .next (Safety.withPkg s (setupAccessed s.pkg s.clk code o v)) := by
  have hc : (!dbgOn s.pkg 3 || decide (code.val < 0x80) || code.val == 0xFF) = false := by
    rw [hd, decide_eq_false (Nat.not_lt.mpr h80), beq_false_of_ne hff]
    rfl
  rw [show exec (.tapSetupAccess code o v) s = execTapSetupAccess code o v s from rfl, execTapSetupAccess, tap_eq _ hl ht, hc, ho,
    if_neg Bool.false_ne_true, if_neg (by decide)]
  cases v with
  | none => exact rfl
  | some v => exact rfl

end

/-- While RESET_N is low and TRST_N high, EXTEST drives the signals from the cells. -/
theorem tapDrives_extest {p : Pkg} (ext cells : Nat) (hr : p.pins.resetLow = true) (ht : p.pins.trstLow = false) :
    tapDrives (tapLoads p 3 ext cells) = 1 := by
  rw [tapDrives, show (tapLoads p 3 ext cells).pins.resetLow = true from hr, show (tapLoads p 3 ext cells).pins.trstLow = false from ht]
  rfl

theorem tapDrives_eq_zero {p : Pkg} (hr : p.pins.resetLow = false) : tapDrives p = 0 := by
  rw [tapDrives, hr]
  rfl

/-- Settles O19: each fault by what `lineFault` shows, each instruction of the port by its equation. -/
theorem lineFaultsAndTestPort : Obligations.LineFaultsAndTestPort := by
  refine ⟨⟨fun s hl => ⟨fun h => ?rx, fun h => ?tx, fun h high => ?smb, fun ha h => ?alert, ?brk⟩, fun s => ?rxOk, fun s h => ?txOk, fun s h => ?smbOk,
      fun s r u hr hb hu => ?baud⟩,
    fun s hl ht => ⟨exec_tapBypass hl ht, exec_tapIdcode hl ht, exec_tapClamp hl ht, exec_tapHighz hl ht,
      fun ext cells => ⟨_, exec_tapSamplePreload hl ht ext cells, rfl, rfl, rfl, rfl⟩, fun ext cells hr => ?extest, fun ext cells hr => ?bypass,
      exec_tapSetupAccess_disabled hl ht, fun code o hd h80 hff ho => ⟨fun v => exec_tapSetupAccess hl ht (some v) hd h80 hff ho,
        exec_tapSetupAccess hl ht none hd h80 hff ho⟩⟩,
    fun p => tapDrives_eq_zero, fun s => ⟨_, exec_trstNAssert s, rfl, rfl, exec_tapBypass_held rfl, exec_tapIdcode_held rfl⟩,
    fun s => ⟨_, exec_trstNRelease s, rfl, rfl⟩⟩
  case rx =>
    obtain ⟨hp, hb, hc⟩ := lineFault_shows (p := rxStuck s.pkg) s.clk (by decide) hl h
    exact ⟨_, exec_monRxStuck hl, congrArg Pins.rxIgnored hp, hb, hc⟩
  case tx =>
    obtain ⟨hp, hb, hc⟩ := lineFault_shows (p := txFault s.pkg s.clk) s.clk (by decide) hl h
    exact ⟨_, exec_monTxFault hl, congrArg Pins.txReleased hp, hb, hc⟩
  case smb => exact ⟨_, exec_smbLineFault hl high, (lineFault_shows (p := smbFault s.pkg s.clk high) s.clk (by decide) hl h).2⟩
  case alert => exact ⟨_, exec_alertLineFault ha, (lineFault_shows s.clk (by decide) hl h).2⟩
  case brk => exact ⟨_, exec_monBreak hl, rget_rset_self _ _ _, rfl⟩
  case rxOk => exact ⟨_, exec_monRxRelease s, rfl, rbit_rsetb_self _ _ _ _ (by decide)⟩
  case txOk => exact ⟨_, exec_monTxRetry h, rfl, rbit_rsetb_self _ _ _ _ (by decide)⟩
  case smbOk => exact ⟨_, exec_smbLineRelease h, rfl, rbit_rsetb_self _ _ _ _ (by decide)⟩
  case baud => exact ⟨_, exec_monBaudApply hb hu, (rget_rset_self _ _ _).trans (Nat.mod_eq_of_lt (by omega)), rfl⟩
  case extest =>
    refine ⟨_, exec_tapExtest hl ht ext cells, ?_⟩
    rw [if_pos hr]
    exact ⟨rfl, tapDrives_extest ext cells hr ht⟩
  case bypass =>
    rw [exec_tapExtest hl ht ext cells, hr]
    rfl

end Sys2Proof.Machine
end
